-- ==== Sys2Proof/Word.lean ====
section
/-! DEFINITION. The word types of the part and the small enumerations that instruction words name
(scopes R63, rounding modes R79, compare conditions R120, streams R13, tile kinds R268, vector operands R345). -/

namespace Sys2Proof

/-- A byte, the smallest addressable unit (R2). -/
abbrev Byte := BitVec 8
/-- A 32-bit instruction word or element (R14, R104). -/
abbrev Word := BitVec 32
/-- A general register, address word or system register (R38, R92). -/
abbrev Dword := BitVec 64
/-- A die, D0 to D7 (R8). -/
abbrev DieIx := Fin 8
/-- A core of the module: 192 × die + core index (R8, R31). -/
abbrev CoreIx := Fin 1536

/-- The streams of a core, in the mask-bit order of R13. -/
inductive Stream where
  | q0 | q1 | q2 | q3 | xl | m | v | xs
  deriving DecidableEq, Repr

/-- The scope codes of R63; codes 5 to 7 are reserved. -/
inductive Scope where
  | stream | core | die | package | fabric
  deriving DecidableEq, Repr

/-- The rounding modes of R79; codes 5 to 7 are reserved. -/
inductive RMode where
  | rne | rtz | rdn | rup | sr
  deriving DecidableEq, Repr

/-- The conditions of `cmp` and `cmpi` (R120); codes 7 to 15 are unassigned. -/
inductive Cond where
  | eq | ne | lt | ge | ltu | geu | tst
  deriving DecidableEq, Repr

/-- The numerics profiles of the matrix engine (R279). -/
inductive Profile where
  | p1 | p2 | p3
  deriving DecidableEq, Repr

/-- The element kinds that a tile word names (R312, R313). -/
inductive TileKind where
  | fp32 | int32 | rs24
  deriving DecidableEq, Repr

/-- The overflow modes of an orthogonal accumulator (R319, R323). -/
inductive OaMode where
  | cap | seg | fold
  deriving DecidableEq, Repr

/-- The meters that `mrd` reads (R140). -/
inductive MeterSel where
  | func | job | quota
  deriving DecidableEq, Repr

/-- The token fields of an engine word: pop-before and push-after, coded as in R17. -/
structure Tok where
  pop : BitVec 2
  push : BitVec 2
  deriving DecidableEq, Repr

/-- The fields that the transfer words share (R163); the variant is each word's own. -/
structure XArgs where
  src : BitVec 4
  dst : BitVec 4
  tag : BitVec 6
  acq : Bool
  rel : Bool
  scope : Scope
  tok : Tok
  deriving DecidableEq, Repr

/-- A vector operand field (R345), less its reserved indices. -/
inductive VOp where
  | whole (n : BitVec 4)
  | row (n : BitVec 4)
  | col (n : BitVec 4)
  | inp (i : BitVec 2)
  | out (i : BitVec 1)
  | zero
  | ones
  deriving DecidableEq, Repr

/-- A vector word with two sources (R354). -/
structure V3 where
  d : VOp
  a : VOp
  b : VOp
  me : Bool
  tok : Tok
  deriving DecidableEq, Repr

/-- A vector word with one source; its b field is zero (R354). -/
structure V2 where
  d : VOp
  a : VOp
  me : Bool
  tok : Tok
  deriving DecidableEq, Repr

/-- A vector axis word whose b field is a count k (R385, R386). -/
structure VK where
  d : VOp
  a : VOp
  k : BitVec 6
  me : Bool
  tok : Tok
  deriving DecidableEq, Repr

/-- A vector compare into a mask (R377). -/
structure VC where
  k : BitVec 2
  a : VOp
  b : VOp
  me : Bool
  tok : Tok
  deriving DecidableEq, Repr

/-- A mask word (R378). -/
structure VM where
  k : BitVec 2
  x : BitVec 2
  y : BitVec 2
  me : Bool
  tok : Tok
  deriving DecidableEq, Repr

/-- A Falig message as it reaches the module: the connection it came over, the header fields of R217
(the type is the event's own) and the body's bytes. -/
structure Falig where
  conn : Nat
  version : Byte
  len : BitVec 16
  func : Byte
  rsvd : BitVec 24
  corr : Dword
  body : List Byte
  deriving DecidableEq, Repr

/-- A UET RMA write to the notify window or to the management window: connection, offset, data (R220, R244). -/
structure WinWrite where
  conn : Nat
  off : Nat
  data : List Byte
  deriving DecidableEq, Repr

/-- The RMA targets of the module: device memory (R216), the notify window (R220), the management window (R244). -/
inductive RmaTarget where
  | memory | notify | management
  deriving DecidableEq, Repr

/-- A UET RMA access (R216): a write of data, or a read of len bytes. -/
structure Rma where
  conn : Nat
  target : RmaTarget
  addr : Dword
  write : Bool
  data : List Byte
  len : Nat
  deriving DecidableEq, Repr

end Sys2Proof
end

