-- ==== Sys2Proof/Config.lean ====
section
/-! DEFINITION. What the spec leaves to the part, as constants without a body: nothing in Lean can evaluate them or prove a value
of them. Each is applied to plain data (a counter of State, or the operands it depends on), so a claim holds for every choice. -/

namespace Sys2Proof.Config

/-- A choice the spec leaves to the part, the n-th of a run (log 8): which of two allowed outcomes happens. -/
opaque choice : Nat → Bool

/-- The bounded transcendentals (R383): which of the FP32 values within the bound the part returns, by function and operand: the
function's code, the operand's sign, significand and exponent (log 7). -/
opaque pick : Nat → Bool → Nat → Int → Nat

/-- The information of a fault record for a job fault to which the spec gives none, the n-th of a run (R151, log 20). -/
opaque info : Nat → BitVec 64

/-- A byte that a peer module returns for a network get, the n-th of a run (R200, log 18). -/
opaque peerByte : Nat → BitVec 8

/-- The token and the rank to which a rank map sends a source row, from the map's elements for that row: the spec gives a rank map no
layout (R401, R418, log 37). -/
opaque rankMap : List Nat → Nat × Nat

/-- The argument pointer of the n-th internal work item of a run: the spec does not say how its job finds its operands (R35, log 15). -/
opaque planArgs : Nat → BitVec 64

/-- Whether the output of TOPK holds indices or values: the spec gives it one output and does not say which of the two (R401, log 37). -/
opaque topkIndices : Bool

/-- The value of element i of a COMBINE whose token lacks a rank, from nr, the extents, the rows and the rank map: the spec gives none, and
it is the same in two runs on the same inputs (R420, log 37). -/
opaque combineHole (nr : Nat) (dims rows rmap : List Nat) (i : Nat) : BitVec 32

/-- The Ethernet port over which a connection comes (R448, R451). -/
opaque port : Nat → Nat

/-- Whether a connection is authenticated with the module's fused provisioning key (R451, log 26). -/
opaque provisioned : Nat → Bool

/-- How many packets the transport makes of n bytes of a network command, the n-th of a run (R191, R261, log 18). -/
opaque packets : Nat → Nat → Nat

/-- The RSA-3072 signature check of stage 0x3 over the flash image's bytes (R450, log 14). -/
opaque rsaOk : List (BitVec 8) → Bool

/-- The SLH-DSA signature check of stage 0x3 over the flash image's bytes (R450, log 14). -/
opaque slhOk : List (BitVec 8) → Bool

/-- The SHA-384 digest of bytes, as a 384-bit number (R453, log 14). -/
opaque sha384 : List (BitVec 8) → BitVec 384

/-- The RSA-3072 signature of the attestation body under the device key (R453, log 14). -/
opaque rsaSign : List (BitVec 8) → BitVec 3072

/-- The SLH-DSA signature of the attestation body under the device key (R453, log 14). -/
opaque slhSign : List (BitVec 8) → BitVec 129792

/-- The device identity from fuses (R453, log 14). -/
opaque deviceId : BitVec 128

/-- Bytes of the flash image area (R452). -/
opaque imageArea : Nat

/-- What the n-th scrub of a core costs, in 2^-22 pJ: the spec charges it to the commons account and gives no class (R254). -/
opaque scrub : Nat → Nat

end Sys2Proof.Config
end

