-- ==== Sys2Proof/Syntax.lean ====
section
/-! DEFINITION. The instruction set as syntax: one constructor for each row of spec/opcode_table.json, the words of the
sequencer, the transfer engine, the matrix engine and the vector engine with their operands, and the events of the part with
what identifies them. No meaning is given here. -/

namespace Sys2Proof

/-- The operations and events of the part, one constructor per row of the opcode table. The
events that the model itself brings about stand before those that come from outside (the compiled code can build no constructor with
fields past the first 245). -/
inductive Instr where
  -- sequencer words, R112 to R143
  | add (d a b : BitVec 5) | sub (d a b : BitVec 5) | mul (d a b : BitVec 5) | mulh (d a b : BitVec 5)
  | mulhu (d a b : BitVec 5) | and (d a b : BitVec 5) | or (d a b : BitVec 5) | xor (d a b : BitVec 5)
  | andn (d a b : BitVec 5) | sll (d a b : BitVec 5) | srl (d a b : BitVec 5) | sra (d a b : BitVec 5)
  | ror (d a b : BitVec 5) | min (d a b : BitVec 5) | max (d a b : BitVec 5) | minu (d a b : BitVec 5)
  | maxu (d a b : BitVec 5) | lea1 (d a b : BitVec 5) | lea2 (d a b : BitVec 5) | lea3 (d a b : BitVec 5)
  | addi (d a : BitVec 5) (i : BitVec 16) | andi (d a : BitVec 5) (i : BitVec 16)
  | ori (d a : BitVec 5) (i : BitVec 16) | xori (d a : BitVec 5) (i : BitVec 16)
  | slli (d a : BitVec 5) (s : BitVec 6) | srli (d a : BitVec 5) (s : BitVec 6)
  | srai (d a : BitVec 5) (s : BitVec 6) | rori (d a : BitVec 5) (s : BitVec 6)
  | movi (d : BitVec 5) (i : BitVec 16) | movk (d : BitVec 5) (h : BitVec 2) (i : BitVec 16)
  | popc (d a : BitVec 5) | clz (d a : BitVec 5) | ctz (d a : BitVec 5) | brev (d a : BitVec 5) | bswap (d a : BitVec 5)
  | bfx (d a : BitVec 5) (w : BitVec 7) (l : BitVec 6) | bfxs (d a : BitVec 5) (w : BitVec 7) (l : BitVec 6)
  | bfi (d a : BitVec 5) (w : BitVec 7) (l : BitVec 6)
  | cmp (p : BitVec 3) (a b : BitVec 5) (c : Cond) | cmpi (p : BitVec 3) (a : BitVec 5) (c : Cond) (i : BitVec 12)
  | sel (d a b : BitVec 5) (s : BitVec 3)
  | pand (d a b : BitVec 3) | por (d a b : BitVec 3) | pxor (d a b : BitVec 3) | pandn (d a b : BitVec 3)
  | prd (d : BitVec 5) | pwr (a : BitVec 5)
  | ldBz (d a : BitVec 5) (o : BitVec 16) | ldBs (d a : BitVec 5) (o : BitVec 16)
  | ldHz (d a : BitVec 5) (o : BitVec 16) | ldHs (d a : BitVec 5) (o : BitVec 16)
  | ldWz (d a : BitVec 5) (o : BitVec 16) | ldWs (d a : BitVec 5) (o : BitVec 16)
  | ldDz (d a : BitVec 5) (o : BitVec 16)
  | stB (s a : BitVec 5) (o : BitVec 16) | stH (s a : BitVec 5) (o : BitVec 16)
  | stW (s a : BitVec 5) (o : BitVec 16) | stD (s a : BitVec 5) (o : BitVec 16)
  | spillm (f b l : BitVec 5) | fillm (f b l : BitVec 5)
  | br (p : BitVec 3) (n : Bool) (o : BitVec 22) | call (p : BitVec 3) (n : Bool) (o : BitVec 22)
  | jmp (a : BitVec 5) | jmpl (d a : BitVec 5) | ret (a : BitVec 5)
  | jstart (p : BitVec 3) (a b : BitVec 5) (q : BitVec 2)
  | rdv (i : BitVec 2) (m : BitVec 8)
  | twany (d a : BitVec 5) (c : Bool) | twall (d a : BitVec 5) (c : Bool) | tffr (d a : BitVec 5)
  | fence (s : Scope) | xcp (a b : BitVec 5) | mrd (d : BitVec 5) (s : MeterSel)
  | srd (d : BitVec 5) (r : BitVec 11) | swr (a : BitVec 5) (r : BitVec 11)
  | seedWrite (a : BitVec 5) | tagsClear (a : BitVec 5) | flagsClear (a : BitVec 5) (f : BitVec 2)
  | bfmtWrite (a : BitVec 5) (b : BitVec 5)
  | trap (c : BitVec 16)
  -- plan words, R431 to R440
  | qcat (d a b : BitVec 5) | qstr (d a b : BitVec 5) | qstw (d a b : BitVec 5) (r : Bool)
  | qpin (d b : BitVec 5) | qunpin (d b : BitVec 5) | qevict (d b : BitVec 5)
  | qsub (d a b : BitVec 5) | qrun (d a : BitVec 5) | qwait (d a : BitVec 5) | qexpl (d a b : BitVec 5)
  | qhint (d a b : BitVec 5) | qinv (d a : BitVec 5) (c : Bool) | qdrop (d a : BitVec 5)
  | qtld (d a : BitVec 5) | qtdrop (d b : BitVec 5)
  -- transfer words, R194 to R211
  | xtok (t : Tok)
  | xcpy (x : XArgs) (m : RMode) | xgat (x : XArgs) (m : RMode) | xsct (x : XArgs) (m : RMode)
  | xfil (x : XArgs) (m : RMode) | xmcs (x : XArgs) (m : RMode)
  | xpf (x : XArgs) | xwb (x : XArgs) | xput (x : XArgs) | xget (x : XArgs)
  | selk (x : XArgs) (k : Bool) | xcfg (x : XArgs)
  | acwAdd32 (x : XArgs) (ret det : Bool) | acwAdd64 (x : XArgs) (ret det : Bool) | acwAddf (x : XArgs) (ret det : Bool)
  | acwMax32 (x : XArgs) (ret det : Bool) | acwMax64 (x : XArgs) (ret det : Bool) | acwMaxf (x : XArgs) (ret det : Bool)
  | acwMin32 (x : XArgs) (ret det : Bool) | acwMin64 (x : XArgs) (ret det : Bool) | acwMinf (x : XArgs) (ret det : Bool)
  | acwAnd32 (x : XArgs) (ret det : Bool) | acwAnd64 (x : XArgs) (ret det : Bool)
  | acwOr32 (x : XArgs) (ret det : Bool) | acwOr64 (x : XArgs) (ret det : Bool)
  | acwXchg32 (x : XArgs) (ret det : Bool) | acwXchg64 (x : XArgs) (ret det : Bool)
  | cmb (x : XArgs) | xrcl (x : XArgs)
  | xtw (tag : BitVec 6) (t : Tok) | xrdv (i : BitVec 2) (m : BitVec 8) (t : Tok) | xnfy (t : Tok)
  -- matrix words, R302 to R333
  | mtok (t : Tok) | mcfg (off : BitVec 15) (t : Tok) | mgo (t : Tok) | mwait (t : Tok)
  | mrdv (i : BitVec 2) (m : BitVec 8) (t : Tok) | mnfy (t : Tok)
  | mma (a b : BitVec 3) (tile : BitVec 4) (f : Profile) (bt : Bool) (t : Tok)
  | mmaz (a b : BitVec 3) (tile : BitVec 4) (f : Profile) (bt : Bool) (t : Tok)
  | mld (s : BitVec 3) (tile : BitVec 4) (k : TileKind) (add : Bool) (t : Tok)
  | mst (s : BitVec 3) (tile : BitVec 4) (k : TileKind) (m : RMode) (t : Tok)
  | mzero (tile : BitVec 4) (raw : Bool) (t : Tok)
  | mrq (d s : BitVec 3) (tile : BitVec 4) (f : BitVec 4) (m : RMode) (row : Bool) (t : Tok)
  | oaInit (o : BitVec 1) (a : BitVec 3) (m : OaMode) (n : BitVec 8) (t : Tok)
  | oaHouse (o : BitVec 1) (s l : BitVec 3) (t : Tok) | oaApp (o : BitVec 1) (v u : BitVec 3) (t : Tok)
  | oaLeft (o : BitVec 1) (x : BitVec 3) (tr : Bool) (c : BitVec 8) (t : Tok)
  | oaRight (o : BitVec 1) (x : BitVec 3) (tr : Bool) (c : BitVec 8) (t : Tok)
  | oaFold (o : BitVec 1) (t : Tok) | oaSpill (o : BitVec 1) (s : BitVec 3) (t : Tok)
  | oaFill (o : BitVec 1) (s : BitVec 3) (t : Tok) | oaCnt (o : BitVec 1) (s : BitVec 3) (t : Tok)
  -- vector words, R368 to R387
  | vtok (t : Tok) | vshpDim (r : BitVec 4) (c : BitVec 6) (t : Tok)
  | vshpCur (r : BitVec 4) (c : BitVec 6) (rs cs : Bool) (t : Tok)
  | vshpFmt (f : BitVec 4) (m : BitVec 3) (s : BitVec 2) (t : Tok)
  | vbind (port set : BitVec 3) (off : BitVec 13) (t : Tok) | vsamp (x : V2)
  | vrdv (i : BitVec 2) (m : BitVec 8) (t : Tok) | vnfy (t : Tok)
  | vadd (x : V3) | vsub (x : V3) | vmul (x : V3) | vfma (x : V3) | vmin (x : V3) | vmax (x : V3)
  | vabs (x : V2) | vneg (x : V2) | vmov (x : V2) | vdiv (x : V3) | vsqrt (x : V2)
  | vand (x : V3) | vor (x : V3) | vxor (x : V3) | vshl (x : V3) | vshr (x : V3) | vsra (x : V3)
  | vceq (x : VC) | vcne (x : VC) | vclt (x : VC) | vcle (x : VC) | vcgt (x : VC) | vcge (x : VC)
  | vmand (x : VM) | vmor (x : VM) | vmxor (x : VM) | vmnot (k x : BitVec 2) (me : Bool) (t : Tok)
  | vsel (d a b : VOp) (t : Tok)
  | vcvtf (x : V2) | vcvti (x : V2) | vqnt (x : V3) | vqntr (x : V3) | vdqnt (x : V3)
  | vexp (x : V2) | vexp2 (x : V2) | vlog (x : V2) | vlog2 (x : V2) | vsin (x : V2) | vcos (x : V2)
  | vtanh (x : V2) | vrsqrt (x : V2) | vrcp (x : V2)
  | vrotr (x : VK) | vrotc (x : VK) | vbcr (x : VK) | vbcc (x : VK)
  | vsumr (x : V2) | vsumc (x : V2) | vmaxr (x : V2) | vmaxc (x : V2) | vminr (x : V2) | vminc (x : V2)
  | vrsenc (x : V2) | vrsdec (x : V2)
  -- events of a core's streams, commands and engines
  | unassignedEncoding (w : Word) | illstep (w : Word)
  | wordComplete (k : CoreIx) (s : Stream) | nestComplete (k : CoreIx)
  | commandComplete (k : CoreIx) (id : Nat) | commandFault (k : CoreIx) (id : Nat)
  | rendezvousLeave (k : CoreIx) (id : BitVec 2) | noProgress (k : CoreIx) | jobComplete (k : CoreIx)
  | softPreemptRequest (k : CoreIx) (reason : Byte) | saveComplete (k : CoreIx) | hardStop (k : CoreIx)
  | portFetch (k : CoreIx) (port : BitVec 3)
  -- events of memory
  | writeApplied (id : Nat) | writeArrivalHome (id : Nat) | heldWriteApply (id : Nat) | closeMarkerArrival (id : Nat)
  | acwUpdateArrival (id : Nat) | detUpdateArrival (id : Nat) | roundCloseMarkerArrival (id : Nat)
  | detRetryResend (id : Nat) | roundComplete (id : Nat) | cmbApply (id : Nat)
  -- events of the plan engine
  | planResponse (d : DieIx) | samplerSample (d : DieIx) | pipelineBreak (d : DieIx) (h : Nat)
  -- events of the dispatch slices
  | itemRead (d : DieIx) (slot : Nat) | queueMapped (d : DieIx) | queueSlotIdle (d : DieIx) (slot : Nat)
  | dispatchScan (d : DieIx) | hardDeadline (d : DieIx) (team : Nat)
  | hamperArrival (id : Nat) | hamperAnswer (id : Nat) | workItemComplete (d : DieIx) (team : Nat)
  -- events that the part's own clock brings to every die, partition or function whose time has come
  | dieOverload (d : DieIx) | freeSlotBroadcast | gangTick | gangSaveDeadline | gangVoidDeadline | lateSaveRestore
  | quotaCheck | quotaWindowStart | sharedChargeTick | flrScrubComplete
  -- sequencer words without operands, R132, R133, R143
  | exit | yield | eret
  -- a fetch outside a section, power and start
  | fetchRangeError | thermalTrip | powerLoss | start
  -- events from outside, or at the part's choice: replays, refusals of peers, the host interface, heat
  | matrixReplay (k : CoreIx)
  | transientReplay (k : CoreIx) (id : Nat) | peerRefusal (k : CoreIx) (id : Nat) (cause : Byte) (addr : Dword)
  | moduleSet (m : Falig) | queueCreate (m : Falig) | queueDestroy (m : Falig) | cancel (m : Falig)
  | faultAnswer (m : Falig) | tlbInval (m : Falig) | netctxSet (m : Falig) | evringSet (m : Falig)
  | attest (m : Falig) | bootRecord (m : Falig) | imageLoad (m : Falig) | imageCommit (m : Falig)
  | uetRmaAccess (a : Rma) | queueDoorbell (w : WinWrite) | eventRingDoorbell (w : WinWrite)
  | mgWrite (w : WinWrite) | flr (w : WinWrite) | functionRecordWrite (w : WinWrite) | coreGroupMapWrite (w : WinWrite)
  | slotTableWrite (w : WinWrite) | rotPortWrite (w : WinWrite) | uetConnectionSetup (conn : Nat) (func : Byte)
  | thermalTick (d : DieIx) (tj : Int)
  deriving DecidableEq, Repr

end Sys2Proof
end

