-- ==== Sys2Proof/WellFormed.lean ====
section
/-! DEFINITION. Which instruction terms are instructions of the part: the checks of R104, R106, R118, R126, R165, R192, R297,
R319, R346 and the entries of the vector words that a term's types do not already make. The decoder answers an ill-formed term
with a rejection. -/

namespace Sys2Proof

/-- Token fields of an XL or XS word: code 3 is reserved (R17). -/
def Tok.xwf (t : Tok) : Bool := t.pop != 3#2 && t.push != 3#2

/-- The system register numbers whose `swr` has a row of its own in the opcode table: SEED, TAGS, the flags, BFMT (R96). -/
def swrSpecial (r : BitVec 11) : Bool :=
  r == 0x005#11 || r == 0x006#11 || (0x010#11 ≤ r && r ≤ 0x013#11) || (0x020#11 ≤ r && r ≤ 0x03F#11)

/-- The kind of a register operand (R345): 0 a whole tile, 1 a row, 2 a column; none for ports and constants. -/
def VOp.regKind : VOp → Option (BitVec 2)
  | .whole _ => some 0#2
  | .row _ => some 1#2
  | .col _ => some 2#2
  | .inp _ => none
  | .out _ => none
  | .zero => none
  | .ones => none

/-- A destination operand (R346). -/
def VOp.isDst : VOp → Bool
  | .whole _ => true
  | .row _ => true
  | .col _ => true
  | .out _ => true
  | .inp _ => false
  | .zero => false
  | .ones => false

/-- A source operand (R346). -/
def VOp.isSrc : VOp → Bool
  | .out _ => false
  | .whole _ => true
  | .row _ => true
  | .col _ => true
  | .inp _ => true
  | .zero => true
  | .ones => true

/-- An input port (R345). -/
def VOp.isInp : VOp → Bool
  | .inp _ => true
  | .whole _ => false
  | .row _ => false
  | .col _ => false
  | .out _ => false
  | .zero => false
  | .ones => false

/-- The kind of an elementwise word (R346): its destination's, else that of its first register source, else a whole tile. -/
def wordKind (d a b : VOp) : BitVec 2 :=
  match d.regKind with
  | some k => k
  | none => match a.regKind with
    | some k => k
    | none => match b.regKind with
      | some k => k
      | none => 0#2

/-- A source agrees with the kind k (R346). -/
def VOp.agrees (k : BitVec 2) (o : VOp) : Bool :=
  match o.regKind with
  | some j => j == k
  | none => true

/-- An elementwise word with two sources (R346). -/
def V3.wf (x : V3) : Bool :=
  let k := wordKind x.d x.a x.b
  x.d.isDst && x.a.isSrc && x.b.isSrc && x.a.agrees k && x.b.agrees k

/-- An elementwise word with one source (R346). -/
def V2.wf (x : V2) : Bool :=
  let k := wordKind x.d x.a .zero
  x.d.isDst && x.a.isSrc && x.a.agrees k

/-- A compare: both register sources are of one kind (R377). -/
def VC.wf (x : VC) : Bool :=
  let k := wordKind .zero x.a x.b
  x.a.isSrc && x.b.isSrc && x.a.agrees k && x.b.agrees k

/-- A rotation along axis kind `ax` (1 row, 2 column): whole tile or that line, source and destination alike, input and
output ports allowed (R385). -/
def VK.rotWf (ax : BitVec 2) (x : VK) : Bool :=
  let k := wordKind x.d x.a .zero
  x.d.isDst && (x.a.regKind.isSome || x.a.isInp) && x.a.agrees k && (k == 0#2 || k == ax)

/-- A broadcast (R386): as a rotation along `ax`, or from the line of the other axis into a whole register with k zero. -/
def VK.bcWf (ax : BitVec 2) (x : VK) : Bool :=
  if x.a.regKind == some (3#2 - ax) then x.d.regKind == some 0#2 && x.k == 0#6 else x.rotWf ax

/-- A reduction into a line of kind `k` of a whole register or an input port (R387). -/
def V2.redWf (k : BitVec 2) (x : V2) : Bool :=
  x.d.regKind == some k && (x.a.regKind == some 0#2 || x.a.isInp)

/-- `vsamp` (R371): a row destination; a register, line or input port source. -/
def V2.sampWf (x : V2) : Bool :=
  x.d.regKind == some 1#2 && (x.a.regKind.isSome || x.a.isInp)

/-- The well-formed instructions: exactly the terms that some word or event of the part stands for. -/
def Instr.wf : Instr → Bool
  | .add _ _ _ | .sub _ _ _ | .mul _ _ _ | .mulh _ _ _ | .mulhu _ _ _ | .and _ _ _ | .or _ _ _ | .xor _ _ _
  | .andn _ _ _ | .sll _ _ _ | .srl _ _ _ | .sra _ _ _ | .ror _ _ _ | .min _ _ _ | .max _ _ _ | .minu _ _ _
  | .maxu _ _ _ | .lea1 _ _ _ | .lea2 _ _ _ | .lea3 _ _ _ | .addi _ _ _ | .andi _ _ _ | .ori _ _ _ | .xori _ _ _
  | .slli _ _ _ | .srli _ _ _ | .srai _ _ _ | .rori _ _ _ | .movi _ _ | .movk _ _ _
  | .popc _ _ | .clz _ _ | .ctz _ _ | .brev _ _ | .bswap _ _ => true
  | .bfx _ _ w _ | .bfxs _ _ w _ | .bfi _ _ w _ => w ≤ 64#7
  | .cmp _ _ _ _ | .cmpi _ _ _ _ | .sel _ _ _ _ | .pand _ _ _ | .por _ _ _ | .pxor _ _ _ | .pandn _ _ _
  | .prd _ | .pwr _ | .ldBz _ _ _ | .ldBs _ _ _ | .ldHz _ _ _ | .ldHs _ _ _ | .ldWz _ _ _ | .ldWs _ _ _
  | .ldDz _ _ _ | .stB _ _ _ | .stH _ _ _ | .stW _ _ _ | .stD _ _ _ => true
  | .spillm f b l | .fillm f b l => f ≤ l && !(f ≤ b && b ≤ l)
  | .br _ _ _ | .call _ _ _ | .jmp _ | .jmpl _ _ | .ret _ | .jstart _ _ _ _ | .rdv _ _ | .exit | .yield
  | .twany _ _ _ | .twall _ _ _ | .tffr _ _ | .fence _ | .xcp _ _ | .mrd _ _ | .srd _ _ => true
  | .swr _ r => !swrSpecial r
  | .seedWrite _ | .tagsClear _ | .flagsClear _ _ | .bfmtWrite _ _ | .trap _ | .eret => true
  | .qcat _ _ _ | .qstr _ _ _ | .qstw _ _ _ _ | .qpin _ _ | .qunpin _ _ | .qevict _ _ | .qsub _ _ _ | .qrun _ _
  | .qwait _ _ | .qexpl _ _ _ | .qhint _ _ _ | .qinv _ _ _ | .qdrop _ _ | .qtld _ _ | .qtdrop _ _ => true
  | .xtok t | .xtw _ t | .xrdv _ _ t | .xnfy t => t.xwf
  | .xcpy x _ | .xgat x _ | .xsct x _ | .xfil x _ | .xmcs x _ => x.tok.xwf
  | .xpf x | .xwb x | .xcfg x | .cmb x => x.tok.xwf
  | .xput x | .xget x => x.tok.xwf && x.scope == .fabric
  | .selk x _ => x.tok.xwf
  | .xrcl x => x.tok.xwf && x.src == 0#4
  | .acwAdd32 x _ _ | .acwAdd64 x _ _ | .acwAddf x _ _ | .acwMax32 x _ _ | .acwMax64 x _ _ | .acwMaxf x _ _
  | .acwMin32 x _ _ | .acwMin64 x _ _ | .acwMinf x _ _ | .acwAnd32 x _ _ | .acwAnd64 x _ _ | .acwOr32 x _ _
  | .acwOr64 x _ _ | .acwXchg32 x _ _ | .acwXchg64 x _ _ => x.tok.xwf
  | .mtok _ | .mcfg _ _ | .mgo _ | .mwait _ | .mrdv _ _ _ | .mnfy _ | .mma _ _ _ _ _ _ | .mmaz _ _ _ _ _ _
  | .mld _ _ _ _ _ | .mst _ _ _ _ _ | .mzero _ _ _ => true
  | .mrq _ _ _ f _ _ _ => f != 0xC#4 && f != 0xD#4 && f != 0xE#4
  | .oaInit _ _ _ _ _ | .oaApp _ _ _ _ | .oaLeft _ _ _ _ _ | .oaRight _ _ _ _ _ | .oaFold _ _ | .oaSpill _ _ _
  | .oaFill _ _ _ | .oaCnt _ _ _ => true
  | .oaHouse _ _ l _ => l != 7#3
  | .vtok _ | .vshpDim _ _ _ | .vshpCur _ _ _ _ _ | .vshpFmt _ _ _ _ | .vrdv _ _ _ | .vnfy _ => true
  | .vbind port _ _ _ => port < 6#3
  | .vsamp x => x.sampWf
  | .vadd x | .vsub x | .vmul x | .vmin x | .vmax x | .vdiv x | .vand x | .vor x | .vxor x | .vshl x | .vshr x | .vsra x
  | .vqnt x | .vqntr x | .vdqnt x => x.wf
  | .vfma x => x.wf && x.d.regKind.isSome
  | .vabs x | .vneg x | .vmov x | .vsqrt x | .vcvtf x | .vcvti x | .vexp x | .vexp2 x | .vlog x | .vlog2 x | .vsin x
  | .vcos x | .vtanh x | .vrsqrt x | .vrcp x | .vrsenc x | .vrsdec x => x.wf
  | .vceq x | .vcne x | .vclt x | .vcle x | .vcgt x | .vcge x => x.wf
  | .vmand _ | .vmor _ | .vmxor _ | .vmnot _ _ _ _ => true
  | .vsel d a b t => V3.wf ⟨d, a, b, false, t⟩
  | .vrotr x => x.rotWf 1#2
  | .vrotc x => x.rotWf 2#2 && x.k < 16#6
  | .vbcr x => x.bcWf 1#2
  | .vbcc x => x.bcWf 2#2 && x.k < 16#6
  | .vsumr x | .vmaxr x | .vminr x => x.redWf 2#2
  | .vsumc x | .vmaxc x | .vminc x => x.redWf 1#2
  | .unassignedEncoding _ | .illstep _ | .fetchRangeError | .wordComplete _ _ | .nestComplete _ | .matrixReplay _
  | .commandComplete _ _ | .transientReplay _ _ | .commandFault _ _ | .peerRefusal _ _ _ _ | .rendezvousLeave _ _
  | .noProgress _ | .jobComplete _ | .softPreemptRequest _ _ | .saveComplete _ | .hardStop _
  | .writeApplied _ | .writeArrivalHome _ | .heldWriteApply _ | .closeMarkerArrival _
  | .acwUpdateArrival _ | .detUpdateArrival _ | .roundCloseMarkerArrival _ | .detRetryResend _ | .roundComplete _
  | .cmbApply _ | .planResponse _ | .samplerSample _ | .pipelineBreak _ _ => true
  | .portFetch _ port => port < 4#3
  | .moduleSet _ | .queueCreate _ | .queueDestroy _ | .cancel _ | .faultAnswer _ | .tlbInval _ | .netctxSet _
  | .evringSet _ | .attest _ | .bootRecord _ | .imageLoad _ | .imageCommit _ | .uetRmaAccess _ | .queueDoorbell _
  | .eventRingDoorbell _ | .mgWrite _ | .flr _ | .functionRecordWrite _ | .coreGroupMapWrite _ | .slotTableWrite _
  | .rotPortWrite _ | .uetConnectionSetup _ _ | .itemRead _ _ | .queueMapped _ | .queueSlotIdle _ _ | .dispatchScan _
  | .hardDeadline _ _ | .dieOverload _ | .freeSlotBroadcast | .hamperArrival _ | .hamperAnswer _ | .workItemComplete _ _
  | .gangTick | .gangSaveDeadline | .gangVoidDeadline | .lateSaveRestore | .flrScrubComplete
  | .quotaCheck | .quotaWindowStart | .sharedChargeTick | .thermalTick _ _ | .thermalTrip | .powerLoss | .start => true

end Sys2Proof
end

