-- ==== Sys2Proof/Decode.lean ====
section
/-! DEFINITION. Decoding and encoding. A 32-bit word has its meaning in the map of the stream that fetches it (R104, R163, R296,
R354); four decoders, each total, reject what the spec leaves unassigned (R106, R165, R297, R319, R356) by name. The encoder is
written from the same encoding tables. `decodeTableWord` reads a word in the first map, in the order of `mapOrder`, that assigns it (log 12). -/

namespace Sys2Proof

/-- Why a word is unassigned. -/
inductive DecodeError where
  /-- An opcode, minor value or immediate sub-field outside its map. -/
  | opcode
  /-- A must-be-zero field that is not zero, or an operand combination that the entry excludes. -/
  | field
  /-- A reserved scope code (R63). -/
  | scope
  /-- A reserved rounding mode (R79). -/
  | mode
  /-- Fewer than four bytes. -/
  | short
  deriving DecidableEq, Repr

/-- The map that a word is read in: that of the stream that fetches it. -/
inductive OpMap where
  | seq | xfer | matrix | vector
  deriving DecidableEq, Repr

/-- Bits [lo+n-1 : lo] of a word. -/
def fld (w : Word) (lo n : Nat) : BitVec n := w.extractLsb' lo n

/-- Bit lo of a word. -/
def bit (w : Word) (lo : Nat) : Bool := w.getLsbD lo

/-- `i` where the must-be-zero bits `mask` of `w` are zero. -/
def zeros (w mask : Word) (i : Instr) : Except DecodeError Instr :=
  if w &&& mask == 0#32 then .ok i else .error .field

/-- The scope codes of R63. -/
def scopeOf (b : BitVec 3) : Except DecodeError Scope :=
  match b with
  | 0#3 => .ok .stream
  | 1#3 => .ok .core
  | 2#3 => .ok .die
  | 3#3 => .ok .package
  | 4#3 => .ok .fabric
  | _ => .error .scope

/-- The code of a scope (R63). -/
def Scope.code : Scope → BitVec 3
  | .stream => 0#3
  | .core => 1#3
  | .die => 2#3
  | .package => 3#3
  | .fabric => 4#3

/-- The mode codes of R79. -/
def rmodeOf (b : BitVec 3) : Except DecodeError RMode :=
  match b with
  | 0#3 => .ok .rne
  | 1#3 => .ok .rtz
  | 2#3 => .ok .rdn
  | 3#3 => .ok .rup
  | 4#3 => .ok .sr
  | _ => .error .mode

/-- The code of a rounding mode (R79). -/
def RMode.code : RMode → BitVec 3
  | .rne => 0#3
  | .rtz => 1#3
  | .rdn => 2#3
  | .rup => 3#3
  | .sr => 4#3

/-- The condition codes of R120. -/
def condOf (b : BitVec 4) : Except DecodeError Cond :=
  match b with
  | 0#4 => .ok .eq
  | 1#4 => .ok .ne
  | 2#4 => .ok .lt
  | 3#4 => .ok .ge
  | 4#4 => .ok .ltu
  | 5#4 => .ok .geu
  | 6#4 => .ok .tst
  | _ => .error .opcode

/-- The code of a condition (R120). -/
def Cond.code : Cond → BitVec 4
  | .eq => 0#4
  | .ne => 1#4
  | .lt => 2#4
  | .ge => 3#4
  | .ltu => 4#4
  | .geu => 5#4
  | .tst => 6#4

/-- The profile codes 1 to 3 (R279, R309). -/
def profileOf (b : BitVec 4) : Except DecodeError Profile :=
  match b with
  | 1#4 => .ok .p1
  | 2#4 => .ok .p2
  | 3#4 => .ok .p3
  | _ => .error .field

/-- The code of a profile (R309). -/
def Profile.code : Profile → BitVec 4
  | .p1 => 1#4
  | .p2 => 2#4
  | .p3 => 3#4

/-- The kind codes of `mld` and `mst` (R312, R313). -/
def tileKindOf (b : BitVec 4) : Except DecodeError TileKind :=
  match b with
  | 0x0#4 => .ok .fp32
  | 0x8#4 => .ok .int32
  | 0xA#4 => .ok .rs24
  | _ => .error .field

/-- The code of a tile kind (R312). -/
def TileKind.code : TileKind → BitVec 4
  | .fp32 => 0x0#4
  | .int32 => 0x8#4
  | .rs24 => 0xA#4

/-- The modes of `oa.init` (R319). -/
def oaModeOf (b : BitVec 2) : Except DecodeError OaMode :=
  match b with
  | 0#2 => .ok .cap
  | 1#2 => .ok .seg
  | 2#2 => .ok .fold
  | _ => .error .field

/-- The code of an `oa.init` mode (R319). -/
def OaMode.code : OaMode → BitVec 2
  | .cap => 0#2
  | .seg => 1#2
  | .fold => 2#2

/-- The selectors of `mrd` (R140). -/
def meterSelOf (b : BitVec 2) : Except DecodeError MeterSel :=
  match b with
  | 0#2 => .ok .func
  | 1#2 => .ok .job
  | 2#2 => .ok .quota
  | _ => .error .opcode

/-- The code of a meter selector (R140). -/
def MeterSel.code : MeterSel → BitVec 2
  | .func => 0#2
  | .job => 1#2
  | .quota => 2#2

/-- A vector operand field (R345): kind in [5:4], index in [3:0]; port-kind indices 8 to 15 are reserved. -/
def vopOf (b : BitVec 6) : Except DecodeError VOp :=
  let n : BitVec 4 := b.extractLsb' 0 4
  match b.extractLsb' 4 2 with
  | 0#2 => .ok (.whole n)
  | 1#2 => .ok (.row n)
  | 2#2 => .ok (.col n)
  | _ =>
    if n < 4#4 then .ok (.inp (n.extractLsb' 0 2))
    else if n < 6#4 then .ok (.out (n.extractLsb' 0 1))
    else if n == 6#4 then .ok .zero
    else if n == 7#4 then .ok .ones
    else .error .field

/-- The field of a vector operand (R345). -/
def VOp.code : VOp → BitVec 6
  | .whole n => 0#2 ++ n
  | .row n => 1#2 ++ n
  | .col n => 2#2 ++ n
  | .inp i => 0xC#4 ++ i
  | .out i => 0x1A#5 ++ i
  | .zero => 0x36#6
  | .ones => 0x37#6

/-- The token fields, [3:2] pop and [1:0] push in every engine's words (R163, R296, R354). -/
def tokOf (w : Word) : Tok := ⟨fld w 2 2, fld w 0 2⟩

/-- The token fields' bits. -/
def Tok.code (t : Tok) : BitVec 4 := t.pop ++ t.push

/-- An instruction that passes the checks of well-formedness. -/
def checked (i : Instr) : Except DecodeError Instr := if i.wf then .ok i else .error .field

/-- Major 0x00 (R112), by minor. -/
def decodeAlu (w : Word) : Except DecodeError Instr :=
  let d := fld w 21 5
  let a := fld w 16 5
  let b := fld w 11 5
  match fld w 0 11 with
  | 0x000#11 => .ok (.add d a b)
  | 0x001#11 => .ok (.sub d a b)
  | 0x002#11 => .ok (.mul d a b)
  | 0x003#11 => .ok (.mulh d a b)
  | 0x004#11 => .ok (.mulhu d a b)
  | 0x008#11 => .ok (.and d a b)
  | 0x009#11 => .ok (.or d a b)
  | 0x00A#11 => .ok (.xor d a b)
  | 0x00B#11 => .ok (.andn d a b)
  | 0x010#11 => .ok (.sll d a b)
  | 0x011#11 => .ok (.srl d a b)
  | 0x012#11 => .ok (.sra d a b)
  | 0x013#11 => .ok (.ror d a b)
  | 0x018#11 => .ok (.min d a b)
  | 0x019#11 => .ok (.max d a b)
  | 0x01A#11 => .ok (.minu d a b)
  | 0x01B#11 => .ok (.maxu d a b)
  | 0x021#11 => .ok (.lea1 d a b)
  | 0x022#11 => .ok (.lea2 d a b)
  | 0x023#11 => .ok (.lea3 d a b)
  | _ => .error .opcode

/-- Major 0x08 (R117), by minor; rb is zero. -/
def decodeCount (w : Word) : Except DecodeError Instr :=
  let d := fld w 21 5
  let a := fld w 16 5
  match fld w 0 16 with
  | 0#16 => .ok (.popc d a)
  | 1#16 => .ok (.clz d a)
  | 2#16 => .ok (.ctz d a)
  | 3#16 => .ok (.brev d a)
  | 4#16 => .ok (.bswap d a)
  | _ => .error .opcode

/-- Major 0x05 (R114), by op [15:8]; [7:6] are zero. -/
def decodeShiftImm (w : Word) : Except DecodeError Instr :=
  let d := fld w 21 5
  let a := fld w 16 5
  let s := fld w 0 6
  match fld w 6 10 with
  | 0x000#10 => .ok (.slli d a s)
  | 0x004#10 => .ok (.srli d a s)
  | 0x008#10 => .ok (.srai d a s)
  | 0x00C#10 => .ok (.rori d a s)
  | _ => .error .opcode

/-- Major 0x09 (R118), by op [15:14]; bit 13 is zero. -/
def decodeBitField (w : Word) : Except DecodeError Instr :=
  let d := fld w 21 5
  let a := fld w 16 5
  let n := fld w 6 7
  let l := fld w 0 6
  match fld w 13 3 with
  | 0#3 => checked (.bfx d a n l)
  | 2#3 => checked (.bfxs d a n l)
  | 4#3 => checked (.bfi d a n l)
  | _ => .error .opcode

/-- Major 0x0C (R122), by op [10:8]. -/
def decodePred (w : Word) : Except DecodeError Instr :=
  let p := fld w 21 3
  let x := fld w 16 3
  let y := fld w 11 3
  match fld w 8 3 with
  | 0#3 => zeros w 0x000000F8#32 (.sel (fld w 21 5) (fld w 16 5) (fld w 11 5) (fld w 0 3))
  | 1#3 => zeros w 0x0318C0FF#32 (.pand p x y)
  | 2#3 => zeros w 0x0318C0FF#32 (.por p x y)
  | 3#3 => zeros w 0x0318C0FF#32 (.pxor p x y)
  | 4#3 => zeros w 0x0318C0FF#32 (.pandn p x y)
  | 5#3 => zeros w 0x001FF8FF#32 (.prd (fld w 21 5))
  | 6#3 => zeros w 0x03E0F8FF#32 (.pwr (fld w 16 5))
  | _ => .error .opcode

/-- Major 0x22 (R129), by op [1:0]. -/
def decodeJump (w : Word) : Except DecodeError Instr :=
  match fld w 0 2 with
  | 0#2 => zeros w 0x03E0FFFC#32 (.jmp (fld w 16 5))
  | 1#2 => zeros w 0x0000FFFC#32 (.jmpl (fld w 21 5) (fld w 16 5))
  | 2#2 => zeros w 0x03E0FFFC#32 (.ret (fld w 16 5))
  | _ => .error .opcode

/-- Major 0x24 (R130 to R133), by op [10:8]. -/
def decodeStream (w : Word) : Except DecodeError Instr :=
  match fld w 8 3 with
  | 0#3 => zeros w 0x030000FC#32 (.jstart (fld w 21 3) (fld w 16 5) (fld w 11 5) (fld w 0 2))
  | 1#3 => zeros w 0x039FF800#32 (.rdv (fld w 21 2) (fld w 0 8))
  | 2#3 => zeros w 0x03FFF8FF#32 .exit
  | 3#3 => zeros w 0x03FFF8FF#32 .yield
  | _ => .error .opcode

/-- Major 0x25 (R134), by op [10:8]. -/
def decodeTagWait (w : Word) : Except DecodeError Instr :=
  let d := fld w 21 5
  let a := fld w 16 5
  match fld w 8 3 with
  | 0#3 => zeros w 0x0000F8FE#32 (.twany d a (bit w 0))
  | 1#3 => zeros w 0x0000F8FE#32 (.twall d a (bit w 0))
  | 2#3 => zeros w 0x0000F8FF#32 (.tffr d a)
  | _ => .error .opcode

/-- Major 0x2A (R141): the numbers whose write has a row of its own, else `swr`. -/
def decodeSwr (w : Word) : Instr :=
  let a := fld w 16 5
  let r := fld w 0 11
  if r == 0x005#11 then .seedWrite a
  else if r == 0x006#11 then .tagsClear a
  else if 0x010#11 ≤ r && r ≤ 0x013#11 then .flagsClear a (fld w 0 2)
  else if 0x020#11 ≤ r && r ≤ 0x03F#11 then .bfmtWrite a (fld w 0 5)
  else .swr a r

/-- Majors 0x38 to 0x3A (R426, R431 to R440), by minor [10:8]. -/
def decodePlan (w : Word) : Except DecodeError Instr :=
  let d := fld w 21 5
  let a := fld w 16 5
  let b := fld w 11 5
  match fld w 26 6, fld w 8 3 with
  | 0x38#6, 0#3 => zeros w 0x000000FF#32 (.qcat d a b)
  | 0x38#6, 1#3 => zeros w 0x000000FF#32 (.qstr d a b)
  | 0x38#6, 2#3 => zeros w 0x000000FE#32 (.qstw d a b (bit w 0))
  | 0x38#6, 3#3 => zeros w 0x001F00FF#32 (.qpin d b)
  | 0x38#6, 4#3 => zeros w 0x001F00FF#32 (.qunpin d b)
  | 0x38#6, 5#3 => zeros w 0x001F00FF#32 (.qevict d b)
  | 0x39#6, 0#3 => zeros w 0x000000FF#32 (.qsub d a b)
  | 0x39#6, 1#3 => zeros w 0x0000F8FF#32 (.qrun d a)
  | 0x39#6, 2#3 => zeros w 0x0000F8FF#32 (.qwait d a)
  | 0x39#6, 3#3 => zeros w 0x000000FF#32 (.qexpl d a b)
  | 0x39#6, 4#3 => zeros w 0x000000FF#32 (.qhint d a b)
  | 0x39#6, 5#3 => zeros w 0x0000F8FE#32 (.qinv d a (bit w 0))
  | 0x39#6, 6#3 => zeros w 0x0000F8FF#32 (.qdrop d a)
  | 0x3A#6, 0#3 => zeros w 0x0000F8FF#32 (.qtld d a)
  | 0x3A#6, 1#3 => zeros w 0x001F00FF#32 (.qtdrop d b)
  | _, _ => .error .opcode

/-- A sequencer word, by major opcode (R104, R105). -/
def decodeSeq (w : Word) : Except DecodeError Instr :=
  let d := fld w 21 5
  let a := fld w 16 5
  let b := fld w 11 5
  let i := fld w 0 16
  match fld w 26 6 with
  | 0x00#6 => decodeAlu w
  | 0x01#6 => .ok (.addi d a i)
  | 0x02#6 => .ok (.andi d a i)
  | 0x03#6 => .ok (.ori d a i)
  | 0x04#6 => .ok (.xori d a i)
  | 0x05#6 => decodeShiftImm w
  | 0x06#6 => zeros w 0x001F0000#32 (.movi d i)
  | 0x07#6 => zeros w 0x001C0000#32 (.movk d (fld w 16 2) i)
  | 0x08#6 => decodeCount w
  | 0x09#6 => decodeBitField w
  | 0x0A#6 => condOf (fld w 0 4) >>= fun c => zeros w 0x030007F0#32 (.cmp (fld w 21 3) a b c)
  | 0x0B#6 => condOf (fld w 12 4) >>= fun c => zeros w 0x03000000#32 (.cmpi (fld w 21 3) a c (fld w 0 12))
  | 0x0C#6 => decodePred w
  | 0x10#6 => .ok (.ldBz d a i)
  | 0x11#6 => .ok (.ldBs d a i)
  | 0x12#6 => .ok (.ldHz d a i)
  | 0x13#6 => .ok (.ldHs d a i)
  | 0x14#6 => .ok (.ldWz d a i)
  | 0x15#6 => .ok (.ldWs d a i)
  | 0x16#6 => .ok (.ldDz d a i)
  | 0x18#6 => .ok (.stB d a i)
  | 0x19#6 => .ok (.stH d a i)
  | 0x1A#6 => .ok (.stW d a i)
  | 0x1B#6 => .ok (.stD d a i)
  | 0x1C#6 => if w &&& 0x000007FF#32 == 0#32 then checked (.spillm d a b) else .error .field
  | 0x1D#6 => if w &&& 0x000007FF#32 == 0#32 then checked (.fillm d a b) else .error .field
  | 0x20#6 => .ok (.br (fld w 23 3) (bit w 22) (fld w 0 22))
  | 0x21#6 => .ok (.call (fld w 23 3) (bit w 22) (fld w 0 22))
  | 0x22#6 => decodeJump w
  | 0x24#6 => decodeStream w
  | 0x25#6 => decodeTagWait w
  | 0x26#6 => scopeOf (fld w 0 3) >>= fun s => zeros w 0x03FFFFF8#32 (.fence s)
  | 0x27#6 => zeros w 0x03E007FF#32 (.xcp a b)
  | 0x28#6 => meterSelOf (fld w 0 2) >>= fun s => zeros w 0x001FFFFC#32 (.mrd d s)
  | 0x29#6 => zeros w 0x001FF800#32 (.srd d (fld w 0 11))
  | 0x2A#6 => zeros w 0x03E0F800#32 (decodeSwr w)
  | 0x2B#6 => zeros w 0x03FF0000#32 (.trap i)
  | 0x2C#6 => zeros w 0x03FFFFFF#32 .eret
  | 0x38#6 => decodePlan w
  | 0x39#6 => decodePlan w
  | 0x3A#6 => decodePlan w
  | _ => .error .opcode

/-- The fields that the transfer words share (R163), with a valid scope. -/
def xargsOf (w : Word) (f : XArgs → Except DecodeError Instr) : Except DecodeError Instr :=
  scopeOf (fld w 7 3) >>= fun s => f ⟨fld w 22 4, fld w 18 4, fld w 12 6, bit w 11, bit w 10, s, tokOf w⟩

/-- A transfer word with a rounding mode as its variant (R164). -/
def xmode (w : Word) (f : XArgs → RMode → Instr) : Except DecodeError Instr :=
  xargsOf w fun x => rmodeOf (fld w 4 3) >>= fun m => checked (f x m)

/-- A transfer word with variant 0 (R164). -/
def xplain (w : Word) (f : XArgs → Instr) : Except DecodeError Instr :=
  xargsOf w fun x => if w &&& 0x00000070#32 == 0#32 then checked (f x) else .error .field

/-- An accumulate-on-write word: variant [6] `.ret`, [5] `.det`, [4] zero (R204). -/
def xacw (w : Word) (f : XArgs → Bool → Bool → Instr) : Except DecodeError Instr :=
  xargsOf w fun x => if bit w 4 then .error .field else checked (f x (bit w 6) (bit w 5))

/-- A transfer word (R163, R164, R192). -/
def decodeXfer (w : Word) : Except DecodeError Instr :=
  match fld w 26 6 with
  | 0x00#6 => if w &&& 0x03FFFFF0#32 == 0#32 then checked (.xtok (tokOf w)) else .error .field
  | 0x01#6 => xmode w .xcpy
  | 0x02#6 => xmode w .xgat
  | 0x03#6 => xmode w .xsct
  | 0x04#6 => xmode w .xfil
  | 0x05#6 => xmode w .xmcs
  | 0x06#6 => xplain w .xpf
  | 0x07#6 => xplain w .xwb
  | 0x08#6 => xplain w .xput
  | 0x09#6 => xplain w .xget
  | 0x0A#6 => xargsOf w fun x => if w &&& 0x00000060#32 == 0#32 then checked (.selk x (bit w 4)) else .error .field
  | 0x0B#6 => xplain w .xcfg
  | 0x10#6 => xacw w .acwAdd32
  | 0x11#6 => xacw w .acwAdd64
  | 0x12#6 => xacw w .acwAddf
  | 0x13#6 => xacw w .acwMax32
  | 0x14#6 => xacw w .acwMax64
  | 0x15#6 => xacw w .acwMaxf
  | 0x16#6 => xacw w .acwMin32
  | 0x17#6 => xacw w .acwMin64
  | 0x18#6 => xacw w .acwMinf
  | 0x19#6 => xacw w .acwAnd32
  | 0x1A#6 => xacw w .acwAnd64
  | 0x1B#6 => xacw w .acwOr32
  | 0x1C#6 => xacw w .acwOr64
  | 0x1D#6 => xacw w .acwXchg32
  | 0x1E#6 => xacw w .acwXchg64
  | 0x20#6 => xplain w .cmb
  | 0x21#6 => xplain w .xrcl
  | 0x28#6 => if w &&& 0x03FC0FF0#32 == 0#32 then checked (.xtw (fld w 12 6) (tokOf w)) else .error .field
  | 0x29#6 => if w &&& 0x0003FFC0#32 == 0#32 then checked (.xrdv (fld w 4 2) (fld w 18 8) (tokOf w)) else .error .field
  | 0x2A#6 => if w &&& 0x03FFFFF0#32 == 0#32 then checked (.xnfy (tokOf w)) else .error .field
  | _ => .error .opcode

/-- The mode of a matrix word, [11:9] (R296). -/
def mmodeOf (w : Word) : Except DecodeError RMode := rmodeOf (fld w 9 3)

/-- A matrix word (R296, R297, R319). -/
def decodeMatrix (w : Word) : Except DecodeError Instr :=
  let t := tokOf w
  let o : BitVec 1 := fld w 25 1
  let s := fld w 22 3
  match fld w 26 6 with
  | 0x00#6 => zeros w 0x03FFFFF0#32 (.mtok t)
  | 0x01#6 => zeros w 0x000007F0#32 (.mcfg (fld w 11 15) t)
  | 0x02#6 => zeros w 0x03FFFFF0#32 (.mgo t)
  | 0x03#6 => zeros w 0x03FFFFF0#32 (.mwait t)
  | 0x04#6 => zeros w 0x03C00FF0#32 (.mrdv (fld w 20 2) (fld w 12 8) t)
  | 0x05#6 => zeros w 0x03FFFFF0#32 (.mnfy t)
  | 0x08#6 => profileOf (fld w 12 4) >>= fun f => zeros w 0x000007F0#32 (.mma (fld w 23 3) (fld w 20 3) (fld w 16 4) f (bit w 11) t)
  | 0x09#6 => profileOf (fld w 12 4) >>= fun f => zeros w 0x000007F0#32 (.mmaz (fld w 23 3) (fld w 20 3) (fld w 16 4) f (bit w 11) t)
  | 0x0C#6 => tileKindOf (fld w 12 4) >>= fun k => zeros w 0x00700EF0#32 (.mld (fld w 23 3) (fld w 16 4) k (bit w 8) t)
  | 0x0D#6 => tileKindOf (fld w 12 4) >>= fun k => mmodeOf w >>= fun m =>
      zeros w 0x007001F0#32 (.mst (fld w 23 3) (fld w 16 4) k m t)
  | 0x0E#6 =>
    match fld w 12 4 with
    | 0x0#4 => zeros w 0x03F00FF0#32 (.mzero (fld w 16 4) false t)
    | 0xF#4 => zeros w 0x03F00FF0#32 (.mzero (fld w 16 4) true t)
    | _ => .error .field
  | 0x10#6 => mmodeOf w >>= fun m =>
      if w &&& 0x000000F0#32 == 0#32 then
        checked (.mrq (fld w 23 3) (fld w 20 3) (fld w 16 4) (fld w 12 4) m (bit w 8) t)
      else .error .field
  | 0x30#6 => oaModeOf (fld w 20 2) >>= fun m => zeros w 0x00000FF0#32 (.oaInit o s m (fld w 12 8) t)
  | 0x31#6 => if w &&& 0x0007FFF0#32 == 0#32 then checked (.oaHouse o s (fld w 19 3) t) else .error .field
  | 0x32#6 => zeros w 0x0007FFF0#32 (.oaApp o s (fld w 19 3) t)
  | 0x33#6 => zeros w 0x00001FF0#32 (.oaLeft o s (bit w 21) (fld w 13 8) t)
  | 0x34#6 => zeros w 0x00001FF0#32 (.oaRight o s (bit w 21) (fld w 13 8) t)
  | 0x35#6 => zeros w 0x01FFFFF0#32 (.oaFold o t)
  | 0x36#6 => zeros w 0x003FFFF0#32 (.oaSpill o s t)
  | 0x37#6 => zeros w 0x003FFFF0#32 (.oaFill o s t)
  | 0x38#6 => zeros w 0x003FFFF0#32 (.oaCnt o s t)
  | _ => .error .opcode

/-- A vector word with two sources (R354). -/
def v3 (w : Word) (f : V3 → Instr) : Except DecodeError Instr :=
  vopOf (fld w 17 6) >>= fun d => vopOf (fld w 11 6) >>= fun a => vopOf (fld w 5 6) >>= fun b =>
    checked (f ⟨d, a, b, bit w 4, tokOf w⟩)

/-- A vector word with one source; its b field is zero (R346). -/
def v2 (w : Word) (f : V2 → Instr) : Except DecodeError Instr :=
  vopOf (fld w 17 6) >>= fun d => vopOf (fld w 11 6) >>= fun a =>
    if fld w 5 6 == 0#6 then checked (f ⟨d, a, bit w 4, tokOf w⟩) else .error .field

/-- A vector axis word with a count in its b field (R385). -/
def vk (w : Word) (f : VK → Instr) : Except DecodeError Instr :=
  vopOf (fld w 17 6) >>= fun d => vopOf (fld w 11 6) >>= fun a => checked (f ⟨d, a, fld w 5 6, bit w 4, tokOf w⟩)

/-- A vector compare: [22:19] zero, mask in [18:17] (R377). -/
def vc (w : Word) (f : VC → Instr) : Except DecodeError Instr :=
  vopOf (fld w 11 6) >>= fun a => vopOf (fld w 5 6) >>= fun b =>
    if fld w 19 4 == 0#4 then checked (f ⟨fld w 17 2, a, b, bit w 4, tokOf w⟩) else .error .field

/-- A mask word: mask numbers in [18:17], [12:11] and [6:5] (R378). -/
def vm (w : Word) (f : VM → Instr) : Except DecodeError Instr :=
  zeros w 0x0079E780#32 (f ⟨fld w 17 2, fld w 11 2, fld w 5 2, bit w 4, tokOf w⟩)

/-- A vector word (R354 to R356). -/
def decodeVector (w : Word) : Except DecodeError Instr :=
  let t := tokOf w
  match fld w 23 9 with
  | 0x000#9 => zeros w 0x007FFFF0#32 (.vtok t)
  | 0x001#9 =>
    match fld w 21 2 with
    | 0#2 => zeros w 0x000007F0#32 (.vshpDim (fld w 17 4) (fld w 11 6) t)
    | 1#2 => zeros w 0x000001F0#32 (.vshpCur (fld w 17 4) (fld w 11 6) (bit w 10) (bit w 9) t)
    | 2#2 => zeros w 0x00000FF0#32 (.vshpFmt (fld w 17 4) (fld w 14 3) (fld w 12 2) t)
    | _ => .error .opcode
  | 0x002#9 => checked (.vbind (fld w 20 3) (fld w 17 3) (fld w 4 13) t)
  | 0x003#9 => v2 w .vsamp
  | 0x004#9 => zeros w 0x00001FF0#32 (.vrdv (fld w 21 2) (fld w 13 8) t)
  | 0x005#9 => zeros w 0x007FFFF0#32 (.vnfy t)
  | 0x010#9 => v3 w .vadd
  | 0x011#9 => v3 w .vsub
  | 0x012#9 => v3 w .vmul
  | 0x013#9 => v3 w .vfma
  | 0x014#9 => v3 w .vmin
  | 0x015#9 => v3 w .vmax
  | 0x016#9 => v2 w .vabs
  | 0x017#9 => v2 w .vneg
  | 0x018#9 => v2 w .vmov
  | 0x019#9 => v3 w .vdiv
  | 0x01A#9 => v2 w .vsqrt
  | 0x020#9 => v3 w .vand
  | 0x021#9 => v3 w .vor
  | 0x022#9 => v3 w .vxor
  | 0x023#9 => v3 w .vshl
  | 0x024#9 => v3 w .vshr
  | 0x025#9 => v3 w .vsra
  | 0x030#9 => vc w .vceq
  | 0x031#9 => vc w .vcne
  | 0x032#9 => vc w .vclt
  | 0x033#9 => vc w .vcle
  | 0x034#9 => vc w .vcgt
  | 0x035#9 => vc w .vcge
  | 0x038#9 => vm w .vmand
  | 0x039#9 => vm w .vmor
  | 0x03A#9 => vm w .vmxor
  | 0x03B#9 => zeros w 0x0079E7E0#32 (.vmnot (fld w 17 2) (fld w 11 2) (bit w 4) t)
  | 0x03C#9 => if bit w 4 then .error .field else v3 w fun x => .vsel x.d x.a x.b x.tok
  | 0x040#9 => v2 w .vcvtf
  | 0x041#9 => v2 w .vcvti
  | 0x048#9 => v3 w .vqnt
  | 0x049#9 => v3 w .vqntr
  | 0x04A#9 => v3 w .vdqnt
  | 0x050#9 => v2 w .vexp
  | 0x051#9 => v2 w .vexp2
  | 0x052#9 => v2 w .vlog
  | 0x053#9 => v2 w .vlog2
  | 0x054#9 => v2 w .vsin
  | 0x055#9 => v2 w .vcos
  | 0x056#9 => v2 w .vtanh
  | 0x057#9 => v2 w .vrsqrt
  | 0x058#9 => v2 w .vrcp
  | 0x060#9 => vk w .vrotr
  | 0x061#9 => vk w .vrotc
  | 0x062#9 => vk w .vbcr
  | 0x063#9 => vk w .vbcc
  | 0x064#9 => v2 w .vsumr
  | 0x065#9 => v2 w .vsumc
  | 0x066#9 => v2 w .vmaxr
  | 0x067#9 => v2 w .vmaxc
  | 0x068#9 => v2 w .vminr
  | 0x069#9 => v2 w .vminc
  | 0x070#9 => v2 w .vrsenc
  | 0x071#9 => v2 w .vrsdec
  | _ => .error .opcode

/-- A word in the map of its stream. -/
def decodeWord (m : OpMap) (w : Word) : Except DecodeError Instr :=
  match m with
  | .seq => decodeSeq w
  | .xfer => decodeXfer w
  | .matrix => decodeMatrix w
  | .vector => decodeVector w

/-- The map of a stream's words (R14, R104, R163, R296, R354). -/
def Stream.opMap : Stream → OpMap
  | .q0 => .seq
  | .q1 => .seq
  | .q2 => .seq
  | .q3 => .seq
  | .xl => .xfer
  | .m => .matrix
  | .v => .vector
  | .xs => .xfer

/-- Bytes of a number, least significant first (R2). -/
def bytesOfNat : Nat → Nat → List Byte
  | 0, _ => []
  | n + 1, v => BitVec.ofNat 8 v :: bytesOfNat n (v / 256)

/-- The number that bytes stand for, least significant first (R2). -/
def natOfBytes : List Byte → Nat
  | [] => 0
  | b :: bs => b.toNat + 256 * natOfBytes bs

/-- An instruction from bytes in memory order, with the bytes after it. -/
def decodeBytes (m : OpMap) (bs : List Byte) : Except DecodeError (Instr × List Byte) :=
  match bs with
  | b0 :: b1 :: b2 :: b3 :: rest =>
    match decodeWord m (BitVec.ofNat 32 (natOfBytes [b0, b1, b2, b3])) with
    | .ok i => .ok (i, rest)
    | .error e => .error e
  | _ => .error .short

/-- The instruction of a decoding, if there is one. -/
def okInstr (r : Except DecodeError (Instr × List Byte)) : Option Instr :=
  match r with
  | .ok (i, _) => some i
  | .error _ => none

/-- The order in which a bare word is looked up: the vector map comes first for a word whose set bits all lie in its opcode field and not all in
the six opcode bits of the other maps, else last (log 12). -/
def mapOrder (bs : List Byte) : List OpMap :=
  let w := natOfBytes bs
  if w % 2 ^ 23 = 0 && w / 2 ^ 23 % 8 != 0 then [.vector, .seq, .xfer, .matrix] else [.seq, .xfer, .matrix, .vector]

/-- The first map of that order that assigns the bytes. -/
def firstMap (bs : List Byte) : Option (OpMap × Instr) :=
  (mapOrder bs).findSome? fun m => (okInstr (decodeBytes m bs)).map fun i => (m, i)

/-- The four bytes of a table word, zero above nbits. -/
def tableBytes (nbits w : Nat) : List Byte := bytesOfNat 4 (w % 2 ^ (if nbits < 32 then nbits else 32))

/-- The instruction that the decoder reads from an instruction whose bits are w, numbered as the opcode table numbers them. -/
def decodeTableWord (nbits w : Nat) : Option Instr := (firstMap (tableBytes nbits w)).map Prod.snd

/-- A sequencer word of form R (R104). -/
def rForm (op : BitVec 6) (d a b : BitVec 5) (minor : BitVec 11) : Word := op ++ d ++ a ++ b ++ minor

/-- A sequencer word of form I or M (R104). -/
def iForm (op : BitVec 6) (d a : BitVec 5) (imm : BitVec 16) : Word := op ++ d ++ a ++ imm

/-- A transfer word (R163). -/
def xForm (op : BitVec 6) (x : XArgs) (variant : BitVec 3) : Word :=
  op ++ x.src ++ x.dst ++ x.tag ++ BitVec.ofBool x.acq ++ BitVec.ofBool x.rel ++ x.scope.code ++ variant ++ x.tok.code

/-- A matrix word of forms MMA, TILE and RQ (R296). -/
def mForm (op : BitVec 6) (s1 s2 : BitVec 3) (tile f : BitVec 4) (m : BitVec 3) (b : Bool) (t : Tok) : Word :=
  op ++ s1 ++ s2 ++ tile ++ f ++ m ++ BitVec.ofBool b ++ 0#4 ++ t.code

/-- A vector word (R354). -/
def vForm (op : BitVec 9) (d a b : BitVec 6) (me : Bool) (t : Tok) : Word :=
  op ++ d ++ a ++ b ++ BitVec.ofBool me ++ t.code

/-- A vector word with two sources. -/
def v3Form (op : BitVec 9) (x : V3) : Word := vForm op x.d.code x.a.code x.b.code x.me x.tok

/-- A vector word with one source. -/
def v2Form (op : BitVec 9) (x : V2) : Word := vForm op x.d.code x.a.code 0#6 x.me x.tok

/-- A vector axis word with a count. -/
def vkForm (op : BitVec 9) (x : VK) : Word := vForm op x.d.code x.a.code x.k x.me x.tok

/-- A vector compare. -/
def vcForm (op : BitVec 9) (x : VC) : Word := vForm op (0#4 ++ x.k) x.a.code x.b.code x.me x.tok

/-- A mask word. -/
def vmForm (op : BitVec 9) (x : VM) : Word := vForm op (0#4 ++ x.k) (0#4 ++ x.x) (0#4 ++ x.y) x.me x.tok

/-- The map and the word of a sequencer, transfer, matrix or vector instruction; none for the events, which have no encoding. -/
def encode : Instr → Option (OpMap × Word)
  | .add d a b => some (.seq, rForm 0x00#6 d a b 0x000#11)
  | .sub d a b => some (.seq, rForm 0x00#6 d a b 0x001#11)
  | .mul d a b => some (.seq, rForm 0x00#6 d a b 0x002#11)
  | .mulh d a b => some (.seq, rForm 0x00#6 d a b 0x003#11)
  | .mulhu d a b => some (.seq, rForm 0x00#6 d a b 0x004#11)
  | .and d a b => some (.seq, rForm 0x00#6 d a b 0x008#11)
  | .or d a b => some (.seq, rForm 0x00#6 d a b 0x009#11)
  | .xor d a b => some (.seq, rForm 0x00#6 d a b 0x00A#11)
  | .andn d a b => some (.seq, rForm 0x00#6 d a b 0x00B#11)
  | .sll d a b => some (.seq, rForm 0x00#6 d a b 0x010#11)
  | .srl d a b => some (.seq, rForm 0x00#6 d a b 0x011#11)
  | .sra d a b => some (.seq, rForm 0x00#6 d a b 0x012#11)
  | .ror d a b => some (.seq, rForm 0x00#6 d a b 0x013#11)
  | .min d a b => some (.seq, rForm 0x00#6 d a b 0x018#11)
  | .max d a b => some (.seq, rForm 0x00#6 d a b 0x019#11)
  | .minu d a b => some (.seq, rForm 0x00#6 d a b 0x01A#11)
  | .maxu d a b => some (.seq, rForm 0x00#6 d a b 0x01B#11)
  | .lea1 d a b => some (.seq, rForm 0x00#6 d a b 0x021#11)
  | .lea2 d a b => some (.seq, rForm 0x00#6 d a b 0x022#11)
  | .lea3 d a b => some (.seq, rForm 0x00#6 d a b 0x023#11)
  | .addi d a i => some (.seq, iForm 0x01#6 d a i)
  | .andi d a i => some (.seq, iForm 0x02#6 d a i)
  | .ori d a i => some (.seq, iForm 0x03#6 d a i)
  | .xori d a i => some (.seq, iForm 0x04#6 d a i)
  | .slli d a s => some (.seq, iForm 0x05#6 d a (0x00#8 ++ 0#2 ++ s))
  | .srli d a s => some (.seq, iForm 0x05#6 d a (0x01#8 ++ 0#2 ++ s))
  | .srai d a s => some (.seq, iForm 0x05#6 d a (0x02#8 ++ 0#2 ++ s))
  | .rori d a s => some (.seq, iForm 0x05#6 d a (0x03#8 ++ 0#2 ++ s))
  | .movi d i => some (.seq, iForm 0x06#6 d 0#5 i)
  | .movk d h i => some (.seq, iForm 0x07#6 d (0#3 ++ h) i)
  | .popc d a => some (.seq, rForm 0x08#6 d a 0#5 0#11)
  | .clz d a => some (.seq, rForm 0x08#6 d a 0#5 1#11)
  | .ctz d a => some (.seq, rForm 0x08#6 d a 0#5 2#11)
  | .brev d a => some (.seq, rForm 0x08#6 d a 0#5 3#11)
  | .bswap d a => some (.seq, rForm 0x08#6 d a 0#5 4#11)
  | .bfx d a w l => some (.seq, iForm 0x09#6 d a (0#2 ++ 0#1 ++ w ++ l))
  | .bfxs d a w l => some (.seq, iForm 0x09#6 d a (1#2 ++ 0#1 ++ w ++ l))
  | .bfi d a w l => some (.seq, iForm 0x09#6 d a (2#2 ++ 0#1 ++ w ++ l))
  | .cmp p a b c => some (.seq, rForm 0x0A#6 (0#2 ++ p) a b (0#7 ++ c.code))
  | .cmpi p a c i => some (.seq, iForm 0x0B#6 (0#2 ++ p) a (c.code ++ i))
  | .sel d a b s => some (.seq, rForm 0x0C#6 d a b (0#3 ++ 0#5 ++ s))
  | .pand d a b => some (.seq, rForm 0x0C#6 (0#2 ++ d) (0#2 ++ a) (0#2 ++ b) (1#3 ++ 0#8))
  | .por d a b => some (.seq, rForm 0x0C#6 (0#2 ++ d) (0#2 ++ a) (0#2 ++ b) (2#3 ++ 0#8))
  | .pxor d a b => some (.seq, rForm 0x0C#6 (0#2 ++ d) (0#2 ++ a) (0#2 ++ b) (3#3 ++ 0#8))
  | .pandn d a b => some (.seq, rForm 0x0C#6 (0#2 ++ d) (0#2 ++ a) (0#2 ++ b) (4#3 ++ 0#8))
  | .prd d => some (.seq, rForm 0x0C#6 d 0#5 0#5 (5#3 ++ 0#8))
  | .pwr a => some (.seq, rForm 0x0C#6 0#5 a 0#5 (6#3 ++ 0#8))
  | .ldBz d a o => some (.seq, iForm 0x10#6 d a o)
  | .ldBs d a o => some (.seq, iForm 0x11#6 d a o)
  | .ldHz d a o => some (.seq, iForm 0x12#6 d a o)
  | .ldHs d a o => some (.seq, iForm 0x13#6 d a o)
  | .ldWz d a o => some (.seq, iForm 0x14#6 d a o)
  | .ldWs d a o => some (.seq, iForm 0x15#6 d a o)
  | .ldDz d a o => some (.seq, iForm 0x16#6 d a o)
  | .stB s a o => some (.seq, iForm 0x18#6 s a o)
  | .stH s a o => some (.seq, iForm 0x19#6 s a o)
  | .stW s a o => some (.seq, iForm 0x1A#6 s a o)
  | .stD s a o => some (.seq, iForm 0x1B#6 s a o)
  | .spillm f b l => some (.seq, rForm 0x1C#6 f b l 0#11)
  | .fillm f b l => some (.seq, rForm 0x1D#6 f b l 0#11)
  | .br p n o => some (.seq, (0x20#6 ++ p ++ BitVec.ofBool n ++ o : Word))
  | .call p n o => some (.seq, (0x21#6 ++ p ++ BitVec.ofBool n ++ o : Word))
  | .jmp a => some (.seq, rForm 0x22#6 0#5 a 0#5 0#11)
  | .jmpl d a => some (.seq, rForm 0x22#6 d a 0#5 1#11)
  | .ret a => some (.seq, rForm 0x22#6 0#5 a 0#5 2#11)
  | .jstart p a b q => some (.seq, rForm 0x24#6 (0#2 ++ p) a b (0#3 ++ 0#6 ++ q))
  | .rdv i m => some (.seq, rForm 0x24#6 (0#3 ++ i) 0#5 0#5 (1#3 ++ m))
  | .exit => some (.seq, rForm 0x24#6 0#5 0#5 0#5 (2#3 ++ 0#8))
  | .yield => some (.seq, rForm 0x24#6 0#5 0#5 0#5 (3#3 ++ 0#8))
  | .twany d a c => some (.seq, rForm 0x25#6 d a 0#5 (0#3 ++ 0#7 ++ BitVec.ofBool c))
  | .twall d a c => some (.seq, rForm 0x25#6 d a 0#5 (1#3 ++ 0#7 ++ BitVec.ofBool c))
  | .tffr d a => some (.seq, rForm 0x25#6 d a 0#5 (2#3 ++ 0#8))
  | .fence s => some (.seq, rForm 0x26#6 0#5 0#5 0#5 (0#8 ++ s.code))
  | .xcp a b => some (.seq, rForm 0x27#6 0#5 a b 0#11)
  | .mrd d s => some (.seq, rForm 0x28#6 d 0#5 0#5 (0#9 ++ s.code))
  | .srd d r => some (.seq, rForm 0x29#6 d 0#5 0#5 r)
  | .swr a r => some (.seq, rForm 0x2A#6 0#5 a 0#5 r)
  | .seedWrite a => some (.seq, rForm 0x2A#6 0#5 a 0#5 0x005#11)
  | .tagsClear a => some (.seq, rForm 0x2A#6 0#5 a 0#5 0x006#11)
  | .flagsClear a f => some (.seq, rForm 0x2A#6 0#5 a 0#5 (0x004#9 ++ f))
  | .bfmtWrite a b => some (.seq, rForm 0x2A#6 0#5 a 0#5 (1#6 ++ b))
  | .trap c => some (.seq, iForm 0x2B#6 0#5 0#5 c)
  | .eret => some (.seq, iForm 0x2C#6 0#5 0#5 0#16)
  | .qcat d a b => some (.seq, rForm 0x38#6 d a b (0#3 ++ 0#8))
  | .qstr d a b => some (.seq, rForm 0x38#6 d a b (1#3 ++ 0#8))
  | .qstw d a b r => some (.seq, rForm 0x38#6 d a b (2#3 ++ 0#7 ++ BitVec.ofBool r))
  | .qpin d b => some (.seq, rForm 0x38#6 d 0#5 b (3#3 ++ 0#8))
  | .qunpin d b => some (.seq, rForm 0x38#6 d 0#5 b (4#3 ++ 0#8))
  | .qevict d b => some (.seq, rForm 0x38#6 d 0#5 b (5#3 ++ 0#8))
  | .qsub d a b => some (.seq, rForm 0x39#6 d a b (0#3 ++ 0#8))
  | .qrun d a => some (.seq, rForm 0x39#6 d a 0#5 (1#3 ++ 0#8))
  | .qwait d a => some (.seq, rForm 0x39#6 d a 0#5 (2#3 ++ 0#8))
  | .qexpl d a b => some (.seq, rForm 0x39#6 d a b (3#3 ++ 0#8))
  | .qhint d a b => some (.seq, rForm 0x39#6 d a b (4#3 ++ 0#8))
  | .qinv d a c => some (.seq, rForm 0x39#6 d a 0#5 (5#3 ++ 0#7 ++ BitVec.ofBool c))
  | .qdrop d a => some (.seq, rForm 0x39#6 d a 0#5 (6#3 ++ 0#8))
  | .qtld d a => some (.seq, rForm 0x3A#6 d a 0#5 (0#3 ++ 0#8))
  | .qtdrop d b => some (.seq, rForm 0x3A#6 d 0#5 b (1#3 ++ 0#8))
  | .xtok t => some (.xfer, (0x00#6 ++ 0#22 ++ t.code : Word))
  | .xcpy x m => some (.xfer, xForm 0x01#6 x m.code)
  | .xgat x m => some (.xfer, xForm 0x02#6 x m.code)
  | .xsct x m => some (.xfer, xForm 0x03#6 x m.code)
  | .xfil x m => some (.xfer, xForm 0x04#6 x m.code)
  | .xmcs x m => some (.xfer, xForm 0x05#6 x m.code)
  | .xpf x => some (.xfer, xForm 0x06#6 x 0#3)
  | .xwb x => some (.xfer, xForm 0x07#6 x 0#3)
  | .xput x => some (.xfer, xForm 0x08#6 x 0#3)
  | .xget x => some (.xfer, xForm 0x09#6 x 0#3)
  | .selk x k => some (.xfer, xForm 0x0A#6 x (0#2 ++ BitVec.ofBool k))
  | .xcfg x => some (.xfer, xForm 0x0B#6 x 0#3)
  | .acwAdd32 x r d => some (.xfer, xForm 0x10#6 x (BitVec.ofBool r ++ BitVec.ofBool d ++ 0#1))
  | .acwAdd64 x r d => some (.xfer, xForm 0x11#6 x (BitVec.ofBool r ++ BitVec.ofBool d ++ 0#1))
  | .acwAddf x r d => some (.xfer, xForm 0x12#6 x (BitVec.ofBool r ++ BitVec.ofBool d ++ 0#1))
  | .acwMax32 x r d => some (.xfer, xForm 0x13#6 x (BitVec.ofBool r ++ BitVec.ofBool d ++ 0#1))
  | .acwMax64 x r d => some (.xfer, xForm 0x14#6 x (BitVec.ofBool r ++ BitVec.ofBool d ++ 0#1))
  | .acwMaxf x r d => some (.xfer, xForm 0x15#6 x (BitVec.ofBool r ++ BitVec.ofBool d ++ 0#1))
  | .acwMin32 x r d => some (.xfer, xForm 0x16#6 x (BitVec.ofBool r ++ BitVec.ofBool d ++ 0#1))
  | .acwMin64 x r d => some (.xfer, xForm 0x17#6 x (BitVec.ofBool r ++ BitVec.ofBool d ++ 0#1))
  | .acwMinf x r d => some (.xfer, xForm 0x18#6 x (BitVec.ofBool r ++ BitVec.ofBool d ++ 0#1))
  | .acwAnd32 x r d => some (.xfer, xForm 0x19#6 x (BitVec.ofBool r ++ BitVec.ofBool d ++ 0#1))
  | .acwAnd64 x r d => some (.xfer, xForm 0x1A#6 x (BitVec.ofBool r ++ BitVec.ofBool d ++ 0#1))
  | .acwOr32 x r d => some (.xfer, xForm 0x1B#6 x (BitVec.ofBool r ++ BitVec.ofBool d ++ 0#1))
  | .acwOr64 x r d => some (.xfer, xForm 0x1C#6 x (BitVec.ofBool r ++ BitVec.ofBool d ++ 0#1))
  | .acwXchg32 x r d => some (.xfer, xForm 0x1D#6 x (BitVec.ofBool r ++ BitVec.ofBool d ++ 0#1))
  | .acwXchg64 x r d => some (.xfer, xForm 0x1E#6 x (BitVec.ofBool r ++ BitVec.ofBool d ++ 0#1))
  | .cmb x => some (.xfer, xForm 0x20#6 x 0#3)
  | .xrcl x => some (.xfer, xForm 0x21#6 x 0#3)
  | .xtw g t => some (.xfer, (0x28#6 ++ 0#8 ++ g ++ 0#8 ++ t.code : Word))
  | .xrdv i m t => some (.xfer, (0x29#6 ++ m ++ 0#12 ++ i ++ t.code : Word))
  | .xnfy t => some (.xfer, (0x2A#6 ++ 0#22 ++ t.code : Word))
  | .mtok t => some (.matrix, (0x00#6 ++ 0#22 ++ t.code : Word))
  | .mcfg o t => some (.matrix, (0x01#6 ++ o ++ 0#7 ++ t.code : Word))
  | .mgo t => some (.matrix, (0x02#6 ++ 0#22 ++ t.code : Word))
  | .mwait t => some (.matrix, (0x03#6 ++ 0#22 ++ t.code : Word))
  | .mrdv i m t => some (.matrix, (0x04#6 ++ 0#4 ++ i ++ m ++ 0#8 ++ t.code : Word))
  | .mnfy t => some (.matrix, (0x05#6 ++ 0#22 ++ t.code : Word))
  | .mma a b c f bt t => some (.matrix, mForm 0x08#6 a b c f.code (BitVec.ofBool bt ++ 0#2) false t)
  | .mmaz a b c f bt t => some (.matrix, mForm 0x09#6 a b c f.code (BitVec.ofBool bt ++ 0#2) false t)
  | .mld s c k a t => some (.matrix, mForm 0x0C#6 s 0#3 c k.code 0#3 a t)
  | .mst s c k m t => some (.matrix, mForm 0x0D#6 s 0#3 c k.code m.code false t)
  | .mzero c r t => some (.matrix, mForm 0x0E#6 0#3 0#3 c (if r then 0xF#4 else 0x0#4) 0#3 false t)
  | .mrq d s c f m r t => some (.matrix, mForm 0x10#6 d s c f m.code r t)
  | .oaInit o a m n t => some (.matrix, (0x30#6 ++ o ++ a ++ m.code ++ n ++ 0#8 ++ t.code : Word))
  | .oaHouse o s l t => some (.matrix, (0x31#6 ++ o ++ s ++ l ++ 0#15 ++ t.code : Word))
  | .oaApp o v u t => some (.matrix, (0x32#6 ++ o ++ v ++ u ++ 0#15 ++ t.code : Word))
  | .oaLeft o x r c t => some (.matrix, (0x33#6 ++ o ++ x ++ BitVec.ofBool r ++ c ++ 0#9 ++ t.code : Word))
  | .oaRight o x r c t => some (.matrix, (0x34#6 ++ o ++ x ++ BitVec.ofBool r ++ c ++ 0#9 ++ t.code : Word))
  | .oaFold o t => some (.matrix, (0x35#6 ++ o ++ 0#21 ++ t.code : Word))
  | .oaSpill o s t => some (.matrix, (0x36#6 ++ o ++ s ++ 0#18 ++ t.code : Word))
  | .oaFill o s t => some (.matrix, (0x37#6 ++ o ++ s ++ 0#18 ++ t.code : Word))
  | .oaCnt o s t => some (.matrix, (0x38#6 ++ o ++ s ++ 0#18 ++ t.code : Word))
  | .vtok t => some (.vector, vForm 0x000#9 0#6 0#6 0#6 false t)
  | .vshpDim r c t => some (.vector, (0x001#9 ++ 0#2 ++ r ++ c ++ 0#7 ++ t.code : Word))
  | .vshpCur r c x y t => some (.vector, (0x001#9 ++ 1#2 ++ r ++ c ++ BitVec.ofBool x ++ BitVec.ofBool y ++ 0#5 ++ t.code : Word))
  | .vshpFmt f m s t => some (.vector, (0x001#9 ++ 2#2 ++ f ++ m ++ s ++ 0#8 ++ t.code : Word))
  | .vbind p s o t => some (.vector, (0x002#9 ++ p ++ s ++ o ++ t.code : Word))
  | .vsamp x => some (.vector, v2Form 0x003#9 x)
  | .vrdv i m t => some (.vector, (0x004#9 ++ i ++ m ++ 0#9 ++ t.code : Word))
  | .vnfy t => some (.vector, vForm 0x005#9 0#6 0#6 0#6 false t)
  | .vadd x => some (.vector, v3Form 0x010#9 x)
  | .vsub x => some (.vector, v3Form 0x011#9 x)
  | .vmul x => some (.vector, v3Form 0x012#9 x)
  | .vfma x => some (.vector, v3Form 0x013#9 x)
  | .vmin x => some (.vector, v3Form 0x014#9 x)
  | .vmax x => some (.vector, v3Form 0x015#9 x)
  | .vabs x => some (.vector, v2Form 0x016#9 x)
  | .vneg x => some (.vector, v2Form 0x017#9 x)
  | .vmov x => some (.vector, v2Form 0x018#9 x)
  | .vdiv x => some (.vector, v3Form 0x019#9 x)
  | .vsqrt x => some (.vector, v2Form 0x01A#9 x)
  | .vand x => some (.vector, v3Form 0x020#9 x)
  | .vor x => some (.vector, v3Form 0x021#9 x)
  | .vxor x => some (.vector, v3Form 0x022#9 x)
  | .vshl x => some (.vector, v3Form 0x023#9 x)
  | .vshr x => some (.vector, v3Form 0x024#9 x)
  | .vsra x => some (.vector, v3Form 0x025#9 x)
  | .vceq x => some (.vector, vcForm 0x030#9 x)
  | .vcne x => some (.vector, vcForm 0x031#9 x)
  | .vclt x => some (.vector, vcForm 0x032#9 x)
  | .vcle x => some (.vector, vcForm 0x033#9 x)
  | .vcgt x => some (.vector, vcForm 0x034#9 x)
  | .vcge x => some (.vector, vcForm 0x035#9 x)
  | .vmand x => some (.vector, vmForm 0x038#9 x)
  | .vmor x => some (.vector, vmForm 0x039#9 x)
  | .vmxor x => some (.vector, vmForm 0x03A#9 x)
  | .vmnot k x m t => some (.vector, vForm 0x03B#9 (0#4 ++ k) (0#4 ++ x) 0#6 m t)
  | .vsel d a b t => some (.vector, vForm 0x03C#9 d.code a.code b.code false t)
  | .vcvtf x => some (.vector, v2Form 0x040#9 x)
  | .vcvti x => some (.vector, v2Form 0x041#9 x)
  | .vqnt x => some (.vector, v3Form 0x048#9 x)
  | .vqntr x => some (.vector, v3Form 0x049#9 x)
  | .vdqnt x => some (.vector, v3Form 0x04A#9 x)
  | .vexp x => some (.vector, v2Form 0x050#9 x)
  | .vexp2 x => some (.vector, v2Form 0x051#9 x)
  | .vlog x => some (.vector, v2Form 0x052#9 x)
  | .vlog2 x => some (.vector, v2Form 0x053#9 x)
  | .vsin x => some (.vector, v2Form 0x054#9 x)
  | .vcos x => some (.vector, v2Form 0x055#9 x)
  | .vtanh x => some (.vector, v2Form 0x056#9 x)
  | .vrsqrt x => some (.vector, v2Form 0x057#9 x)
  | .vrcp x => some (.vector, v2Form 0x058#9 x)
  | .vrotr x => some (.vector, vkForm 0x060#9 x)
  | .vrotc x => some (.vector, vkForm 0x061#9 x)
  | .vbcr x => some (.vector, vkForm 0x062#9 x)
  | .vbcc x => some (.vector, vkForm 0x063#9 x)
  | .vsumr x => some (.vector, v2Form 0x064#9 x)
  | .vsumc x => some (.vector, v2Form 0x065#9 x)
  | .vmaxr x => some (.vector, v2Form 0x066#9 x)
  | .vmaxc x => some (.vector, v2Form 0x067#9 x)
  | .vminr x => some (.vector, v2Form 0x068#9 x)
  | .vminc x => some (.vector, v2Form 0x069#9 x)
  | .vrsenc x => some (.vector, v2Form 0x070#9 x)
  | .vrsdec x => some (.vector, v2Form 0x071#9 x)
  | .unassignedEncoding _ | .illstep _ | .fetchRangeError | .wordComplete _ _ | .nestComplete _ | .matrixReplay _
  | .portFetch _ _ | .commandComplete _ _ | .transientReplay _ _ | .commandFault _ _ | .peerRefusal _ _ _ _
  | .rendezvousLeave _ _ | .noProgress _ | .jobComplete _ | .softPreemptRequest _ _ | .saveComplete _ | .hardStop _
  | .writeApplied _ | .writeArrivalHome _ | .heldWriteApply _ | .closeMarkerArrival _ | .acwUpdateArrival _
  | .detUpdateArrival _ | .roundCloseMarkerArrival _ | .detRetryResend _ | .roundComplete _ | .cmbApply _
  | .planResponse _ | .samplerSample _ | .pipelineBreak _ _ | .moduleSet _ | .queueCreate _ | .queueDestroy _
  | .cancel _ | .faultAnswer _ | .tlbInval _ | .netctxSet _ | .evringSet _ | .attest _ | .bootRecord _
  | .imageLoad _ | .imageCommit _ | .uetRmaAccess _ | .queueDoorbell _ | .eventRingDoorbell _ | .mgWrite _ | .flr _
  | .functionRecordWrite _ | .coreGroupMapWrite _ | .slotTableWrite _ | .rotPortWrite _ | .uetConnectionSetup _ _
  | .itemRead _ _ | .queueMapped _ | .queueSlotIdle _ _ | .dispatchScan _ | .hardDeadline _ _ | .dieOverload _
  | .freeSlotBroadcast | .hamperArrival _ | .hamperAnswer _ | .workItemComplete _ _ | .gangTick
  | .gangSaveDeadline | .gangVoidDeadline | .lateSaveRestore | .flrScrubComplete | .quotaCheck
  | .quotaWindowStart | .sharedChargeTick | .thermalTick _ _ | .thermalTrip | .powerLoss | .start => none

end Sys2Proof
end

