-- ==== Sys2Proof/Machine/State.lean ====
section
/-! DEFINITION. The state of a Balsy module as plain data: the part-wide state, its eight dies and its 1,536 cores, with the
reset state, the fault and the refusal. Each field names the rule of spec/ that gives it to the machine; fields that are the
model's own (the schedule, the current actor, counters) say so. Reset values without a rule are those of log 2 and log 3. -/

namespace Sys2Proof.Machine

/-- A sparse table by number, keys strictly rising; what an absent key stands for is said at each use. -/
abbrev Map (β : Type) := List (Nat × β)

/-- Memory by location: cells with strictly rising addresses, none equal to what an unlisted address reads as (log 1). -/
abbrev Memory := List Host.Cell

/-! ### A core: sequencer -/

/-- The state of a block stream (R94). -/
inductive QState where
  | absent | ready | waiting | parked | ended
  deriving DecidableEq, Repr

/-- One block stream q0 to q3 (R92, R144, R157). -/
structure Block where
  /-- program counter, a word address (R92); a jump may put any 64-bit target there, which traps at its fetch (R107, R129) -/
  pc : Dword := 0#64
  /-- g0 to g31; g0 is hard-wired by the accessors (R92) -/
  g : Vector Dword 32 := Vector.replicate 32 0#64
  /-- p0 to p7, bit i for pi; p0 is hard-wired by the accessors (R92) -/
  p : BitVec 8 := 0#8
  st : QState := .absent
  /-- the wait instruction that ended the block (R157) -/
  wword : Word := 0#32
  /-- the mask the wait sampled (R134, R157) -/
  wmask : Dword := 0#64
  /-- waiting on resolution of a fault at TRPC (R147, R149) -/
  resol : Bool := false
  /-- the answered word of a plan-engine wait (R426) -/
  answer : Option Dword := none
  /-- TRVEC[33:0] (R144) -/
  trvec : BitVec 34 := 0#34
  /-- TRCAUSE.hnd (R144) -/
  hnd : Bool := false
  /-- TRCAUSE.sub (R144) -/
  trsub : Byte := 0#8
  /-- TRCAUSE.cause (R144) -/
  trcause : Byte := 0#8
  /-- TRPC[31:0] (R144) -/
  trpc : Word := 0#32
  /-- TRINFO (R144) -/
  trinfo : Dword := 0#64
  /-- TRPROG[4:0] (R144) -/
  trprog : BitVec 5 := 0#5
  /-- its word at pc has issued and holds the pipeline: a fence or `rdv` that waits, a run of registers under way (R110, R131, R153) -/
  busy : Bool := false
  deriving DecidableEq, Repr

/-- The state of an engine stream XL, M, V or XS (R26, R187): running, at a rendezvous with its id and mask, at its notify,
ended. -/
inductive EngState where
  | absent
  | running
  | rendezvous (id : BitVec 2) (mask : Byte)
  | notify
  | ended
  deriving DecidableEq, Repr

/-! ### A core: words of the engines -/

/-- What an accumulator tile carries beside its bits: kind 0 unset, 1 FP32, 2 INT32, 3 RS24, and the exponents (R268). -/
structure TileSide where
  kind : Nat := 0
  er : Vector Byte 64 := Vector.replicate 64 127#8
  ec : Vector Byte 64 := Vector.replicate 64 127#8
  deriving DecidableEq, Repr

/-- The tree record of a tile (R281, R294). -/
structure TreeRec where
  active : Bool := false
  depth : Nat := 0
  slot0 : Bool := false
  next : Nat := 0
  n : Nat := 0
  spill : Dword := 0#64
  deriving DecidableEq, Repr

/-- An orthogonal accumulator (R317); T and Y hold FP32 patterns by index, absent zero. -/
structure OaReg where
  init : Bool := false
  mode : Nat := 0
  k : Nat := 0
  nseg : Nat := 0
  n : Nat := 0
  folded : Bool := false
  area : Dword := 0#64
  segk : Vector Byte 16 := Vector.replicate 16 0#8
  t : Map Nat := []
  y : Map Nat := []
  deriving DecidableEq, Repr

/-- Where a nest stands (R277): about to begin level l, about to advance level l, in its words, or ended. -/
inductive NPhase where
  | enter (l : Nat)
  | advance (l : Nat)
  | prologue
  | body
  | epilogue
  | done
  deriving DecidableEq, Repr

/-- Where the nest stood, and under which counts, before a word that it issued (R293). -/
structure NestPos where
  phase : NPhase
  slot : Nat
  c : Vector Nat 6
  n : Vector Nat 6
  full : Nat
  from_ : Nat
  deriving DecidableEq, Repr

/-- What a word of M or V had found before it, which comes back where the word is abandoned or replayed (R286, R293, R335, R361). -/
structure Undo where
  /-- stretches of memory: location, length, the cells in it -/
  mem : List (Nat × Nat × Memory) := []
  /-- tiles with what they carry and their trees -/
  tiles : List (Nat × TileSide × TreeRec) := []
  oas : List (Nat × OaReg) := []
  /-- the shadow table that an `mcfg` replaces -/
  shadow : Option (Option (List Byte)) := none
  /-- M's word address, and the place of the nest -/
  pc : Option Word := none
  nest : Option NestPos := none
  /-- the FIFO popped -/
  pop : Option Nat := none
  gen : Option Dword := none
  /-- vector registers and masks; the shape register before and after -/
  vec : Option (Map Nat × Vector (BitVec 1024) 4) := none
  shape : Option (Word × Word) := none
  deriving DecidableEq, Repr

/-- What a replay needs (R286, R335): a step's word with the counts and bank formats under which it ran; the bytes that an
orthogonal-accumulator word wrote, as before it, and its counts. -/
inductive Redo where
  | step (i : Instr) (nest : Bool) (c n : Vector Nat 6) (bf : Vector (BitVec 15) 32)
  | oa (cells : List (Nat × List Byte)) (products bytes : Nat)
  deriving DecidableEq, Repr

/-- A word of an engine stream that is issued and whose pushed token or completion is outstanding (R19, R26). -/
structure Outst where
  /-- the model's own number of the word on the core -/
  id : Nat
  /-- the FIFO its token goes to (R16) -/
  push : Option Nat := none
  done : Bool := false
  /-- banks it holds shared and exclusively (R59) -/
  rd : BitVec 32 := 0#32
  wr : BitVec 32 := 0#32
  /-- accumulator tiles 0 to 15 and o0, o1 at 16, 17 it holds shared and exclusively (R269, R320) -/
  trd : BitVec 18 := 0#18
  twr : BitVec 18 := 0#18
  /-- completes by an event or step of its own: `mgo`, a rendezvous, a notify -/
  own : Bool := false
  /-- a transfer command that writes no memory: `xcfg`, `xrcl` (R203, R215) -/
  quiet : Bool := false
  /-- the output port it pushes into (R351) and the flags it sets at completion (R357) -/
  port : Option Nat := none
  fl : Byte := 0#8
  undo : Undo := {}
  redo : Option Redo := none
  /-- attempts of it that have failed (R286) -/
  fails : Nat := 0
  deriving DecidableEq, Repr

/-- An engine stream: program counter, state, outstanding words in program order. -/
structure Eng where
  pc : Word := 0#32
  st : EngState := .absent
  outst : List Outst := []
  deriving DecidableEq, Repr

/-- A token FIFO: visible tokens and reserved entries (R16, R19); the tokens made visible and the entries freed in this clk, which
serve no earlier than the next (R20). -/
structure Fifo where
  count : Nat := 0
  reserved : Nat := 0
  shown : Nat := 0
  freed : Nat := 0
  deriving DecidableEq, Repr

/-- A rendezvous id: the mask of the pending rendezvous and who has arrived; mask 0 is free (R24). -/
structure Rdv where
  mask : Byte := 0#8
  arrived : Byte := 0#8
  deriving DecidableEq, Repr

/-- The job a core runs (R12, R27, R29, R97). -/
structure Job where
  func : Byte := 0#8
  /-- the team record on the die -/
  team : Nat := 0
  rank : Byte := 0#8
  size : Byte := 0#8
  pipe : BitVec 16 := 0#16
  stage : BitVec 4 := 0#4
  expect : Byte := 0#8
  done : Byte := 0#8
  vlo : BitVec 5 := 0#5
  vhi : BitVec 5 := 0#5
  args : Dword := 0#64
  /-- the item's shape record, the default ragged base (R225) -/
  shape : Dword := 0#64
  wid : Word := 0#32
  queue : BitVec 16 := 0#16
  deriving DecidableEq, Repr

/-- A 64 KiB page of a cached leaf translation with the ROT result of that page (R53, log 13): the leaf's first page and its length
in pages say which entry of the TLB it belongs to. -/
structure TlbEntry where
  func : Byte
  vpage : Nat
  ppage : Nat
  w : Bool
  ro : Bool
  leaf : Nat := vpage
  pages : Nat := 1
  deriving DecidableEq, Repr

/-! ### A core: transfer engine -/

/-- Who issues a transfer command: the queue, XL or XS (R172, R187). -/
inductive XSrc where
  | queue | xl | xs
  deriving DecidableEq, Repr

/-- A command-queue entry not yet started (R138, R139). -/
structure QEntry where
  word : Word
  operand : Dword
  /-- the block stream that issued it -/
  q : Fin 4
  /-- bank formats sampled at issue (R46) -/
  bf : Vector (BitVec 15) 32
  /-- writes issued before it: their number in the model's order (R65) -/
  mark : Nat
  deriving DecidableEq, Repr

/-- The state of a command in flight (R159, R181, R187): issued, its accesses or updates all sent, stopped by a fault, awaiting
resolution, awaiting its round, awaiting its peer. -/
inductive CmdState where
  | issued | performed | failed | resolution | round | network
  deriving DecidableEq, Repr

/-- A stage-relative peer as resolved at issue (R32): the core, or the cause of the failure. -/
inductive Peer where
  | core (p : Nat)
  | failed (cause : Byte)
  deriving DecidableEq, Repr

/-- A command in flight with its replay record (R159, R179). -/
structure Cmd where
  id : Nat
  src : XSrc
  q : Fin 4 := 0
  word : Word
  operand : Dword := 0#64
  /-- issuer sequence number (R179) -/
  seq : Dword
  /-- the sets as sampled at issue: source, destination, paired (R160, R179) -/
  s : BitVec 1024 := 0#1024
  d : BitVec 1024 := 0#1024
  p : BitVec 1024 := 0#1024
  bf : Vector (BitVec 15) 32
  /-- generator state drawn from at issue (R179) -/
  gen : Dword := 0#64
  st : CmdState := .issued
  progress : Nat := 0
  cause : Byte := 0#8
  addr : Dword := 0#64
  tagged : Bool := false
  /-- writes issued before it (R65) -/
  mark : Nat := 0
  rd : BitVec 32 := 0#32
  wr : BitVec 32 := 0#32
  /-- accumulator tiles read (R269) -/
  trd : BitVec 18 := 0#18
  /-- poisoned lines it replaced by zeros and reported (R184) -/
  lines : List Nat := []
  /-- its stream's word address (R151, R457) -/
  pc : Word := 0#32
  /-- peers of the stage below and above, resolved at issue (R32) -/
  dn : Peer := .failed 0x30#8
  up : Peer := .failed 0x30#8
  /-- round of a deterministic command (R173) -/
  round : Nat := 0
  /-- the descriptor an `xcfg` has read (R203) -/
  new : Option (BitVec 1024) := none
  /-- the indices a gather or scatter has read (R196) -/
  ixs : Option (List Int) := none
  /-- updates of it applied at each unit, whose entries the unit keeps (R180) -/
  hits : Map Nat := []
  deriving DecidableEq, Repr

/-- The job and number that a command is known by outside its core (R179): team, rank, source, sequence number. -/
structure CmdRef where
  team : Nat
  rank : Nat
  src : XSrc
  seq : Dword
  deriving DecidableEq, Repr

/-! ### A core: matrix engine -/

/-- The matrix engine of a core beside its stream (R268, R275, R294). Tile bits lie in memory (R38). -/
structure Matrix where
  side : Vector TileSide 16 := Vector.replicate 16 {}
  tree : Vector TreeRec 16 := Vector.replicate 16 {}
  oa : Vector OaReg 2 := Vector.replicate 2 {}
  /-- shadow and active tables, 640 bytes each (R275, R276) -/
  shadow : Option (List Byte) := none
  active : Option (List Byte) := none
  go : Bool := false
  /-- the outstanding `mgo` of the active nest -/
  goId : Nat := 0
  phase : NPhase := .done
  slot : Nat := 0
  /-- counters and resolved trip counts (R277); n_pl as clamped by a forced drain (R289) -/
  c : Vector Nat 6 := Vector.replicate 6 0
  n : Vector Nat 6 := Vector.replicate 6 0
  /-- the true n_pl of the current pass, and where its body begins at a resume (R289, R291) -/
  full : Nat := 0
  from_ : Nat := 0
  /-- the current pass has been clamped (R289) -/
  clamped : Bool := false
  /-- bank formats sampled at `mgo` (R46) -/
  bf : Vector (BitVec 15) 32 := Vector.replicate 32 0xF#15
  /-- outstanding words of the nest, in order -/
  outst : List Outst := []
  /-- shape records, other than the item's, that have passed their check (R278) -/
  shapes : List Dword := []
  /-- M has acquired, or stored, in this clk, and the last clk before it in which it did: what it reads in the die window is no older
  (R274, log 98) -/
  synced : Bool := true
  sync : Nat := 0
  deriving DecidableEq, Repr

/-- An operand that an input port has fetched ahead (R350): bits and scale byte of each element, or the fetch error with its
information. -/
structure VFetch where
  n : Nat
  elems : List (Nat × Option Nat)
  err : Option (Byte × Option Dword)
  deriving DecidableEq, Repr

/-- A bound port (R347): its set, the elements of its walk consumed, the bank formats sampled at binding (R46) of the core in which its base
lies and, by die-window number, of others which its walk enters (R45), run-ahead. -/
structure VPort where
  set : Nat
  pos : Nat
  bf : Vector (BitVec 15) 32
  far : Map (Vector (BitVec 15) 32) := []
  buf : List VFetch := []
  deriving DecidableEq, Repr

/-- The vector engine of a core beside its stream (R339 to R341, R347). Element (r, c) of vN has key 1024 N + 64 r + c, an absent
one is 0. Ports 0 to 3 are in0 to in3, 4 and 5 out0 and out1. -/
structure Vec where
  regs : Map Nat := []
  masks : Vector (BitVec 1024) 4 := Vector.replicate 4 (BitVec.allOnes 1024)
  shape : Word := 0x00003FF0#32
  /-- va0 to va7 as raw descriptors -/
  sets : Vector (BitVec 1024) 8 := Vector.replicate 8 0#1024
  ports : Vector (Option VPort) 6 := Vector.replicate 6 none
  deriving DecidableEq, Repr

/-- A fault record of a core's job (R151, R457). -/
structure FaultRec where
  cause : Byte
  info : Dword
  stream : Byte
  pc : Word
  /-- the peer's cause of a network refusal (R201) -/
  peer : Byte := 0#8
  deriving DecidableEq, Repr

/-- A soft pre-emption in progress on a core: its reason (R257) and the DTIME of the request. -/
structure Preempt where
  reason : Byte
  since : Nat
  deriving DecidableEq, Repr

/-! ### A core -/

/-- The core-wide system registers (R96, R97) and the generators (R84, R86). -/
structure Sys where
  seed : Dword := 0#64
  /-- generator states of XL, M, V, XS -/
  gen : Vector Dword 4 := Vector.replicate 4 0#64
  tags : Dword := 0#64
  /-- the bits that completions have set in this clk, which a clear of this clk leaves set (R23), and those of them that a wait has
  cleared in it, which no other clearing wait sees before the next clk (R135) -/
  tagsNew : Dword := 0#64
  tagsHid : Dword := 0#64
  lodc : Dword := 0#64
  rplcX : Word := 0#32
  rplcM : Word := 0#32
  /-- XLFLG, MFLG, VFLG, XSFLG -/
  flg : Vector Byte 4 := Vector.replicate 4 0#8
  /-- the flags set in this clk, which a clear of this clk leaves set (R89, R98) -/
  flgNew : Vector Byte 4 := Vector.replicate 4 0#8
  bfmt : Vector (BitVec 15) 32 := Vector.replicate 32 0xF#15
  /-- TEAM, FUNC and ARGS as last set at a job start (R96) -/
  team : Dword := 0#64
  func : Byte := 0#8
  args : Dword := 0#64
  /-- JOBST less done and qidx: expect, vhi, vlo (R97) -/
  expect : Byte := 0#8
  vlo : BitVec 5 := 0#5
  vhi : BitVec 5 := 0#5
  stage : BitVec 4 := 0#4
  deriving DecidableEq, Repr

/-- The transfer engine of a core. -/
structure Xfer where
  /-- xa0 to xa15 as raw descriptors (R160) -/
  sets : Vector (BitVec 1024) 16 := Vector.replicate 16 0#1024
  queue : List QEntry := []
  cmds : List Cmd := []
  /-- next sequence numbers of queue, XL, XS (R187) -/
  seq : Vector Dword 3 := Vector.replicate 3 0#64
  /-- the pcs at which an XL stall has been counted in LODC (R168), so that one stall counts once -/
  lodcAt : Option Word := none
  deriving DecidableEq, Repr

/-- A core (R12). -/
structure Core where
  job : Option Job := none
  /-- code sections in mask-bit order (R14, R99), copied from the image at job start (log 11) -/
  code : Vector (List Word) 8 := Vector.replicate 8 []
  /-- the block stream that holds the issue pipeline, or held it last (R15) -/
  curq : Fin 4 := 0
  /-- no stream was ready: the pipeline is idle until the first condition is met (R15) -/
  idle : Bool := false
  q : Vector Block 4 := Vector.replicate 4 {}
  xl : Eng := {}
  m : Eng := {}
  v : Eng := {}
  xs : Eng := {}
  sys : Sys := {}
  /-- XL→M, XL→V, M→XL, V→XL, M→V, V→M, M→XS, V→XS, XS→M, XS→V (R16) -/
  fifo : Vector Fifo 10 := Vector.replicate 10 {}
  rdv : Vector Rdv 4 := Vector.replicate 4 {}
  x : Xfer := {}
  mx : Matrix := {}
  vx : Vec := {}
  tlb : List TlbEntry := []
  /-- fine meter of the running function on this core, in 2^-22 pJ (R140, R262) -/
  meterFunc : Nat := 0
  /-- fine meter of the running job instance (R140) -/
  meterJob : Nat := 0
  /-- next number of an engine word or command on the core (the model's own) -/
  next : Nat := 0
  preempt : Option Preempt := none
  fault : Option FaultRec := none
  /-- the function whose job ran last, none since bring-up (R254) -/
  last : Option Byte := none
  /-- being scrubbed by an FLR of a function, up to a clk (R259) -/
  scrub : Option (Byte × Nat) := none
  /-- the job, as team and rank, whose general registers the core still keeps after its save (R102, R158) -/
  kept : Option (Nat × Nat) := none
  deriving DecidableEq, Repr

/-! ### Memory -/

/-- The issuer of a write: a stream of a core (block streams 0 to 3, XL 4, XS 7, queue 8), or the part. -/
structure Writer where
  core : Nat
  stream : Nat
  deriving DecidableEq, Repr

/-- A write on its way to its home, or held there (R62, R66). -/
structure Write where
  id : Nat
  by_ : Writer
  /-- the command it belongs to, on its core -/
  cmd : Option Nat := none
  /-- the issuing die and the home die -/
  src : Nat
  home : Nat
  loc : Nat
  /-- bytes and the mask of the bits each one writes -/
  data : List (Byte × Byte)
  /-- a copy of V of the issuing die (R66) -/
  stamp : Vector (BitVec 48) 8
  /-- arrived at the home and held there -/
  held : Bool := false
  deriving DecidableEq, Repr

/-- Where an accumulate-on-write update stands: on its way, held by an MSU (R174), to be sent again from a clk on (R174), or
applied with the old value not yet taken by its command (R185). -/
inductive UpdState where
  | flying
  | held
  | retry (from_ : Nat)
  | answered (old : Nat)
  deriving DecidableEq, Repr

/-- The deterministic fields of an update (R172, R173). -/
structure DetRef where
  /-- function and group record of the group -/
  func : Byte
  group : Dword
  issuer : Word
  round : Nat
  ordinal : Nat
  deriving DecidableEq, Repr

/-- One element update of an accumulate-on-write command (R170, R173). -/
structure Update where
  id : Nat
  ref : CmdRef
  /-- the function of its job -/
  func : Byte
  /-- walk index -/
  ix : Nat
  /-- issuing core and die, home unit -/
  core : Nat
  home : Nat
  unit : Nat
  loc : Nat
  /-- address word of the destination (R184) -/
  addr : Dword
  /-- opcode of R164 and source value -/
  op : BitVec 6
  v : Nat
  /-- where a returning form writes the old value -/
  back : Option Nat := none
  zop : Bool := false
  stamp : Vector (BitVec 48) 8
  /-- the command's word, for an event record (R184) -/
  word : Word
  det : Option DetRef := none
  st : UpdState := .flying
  deriving DecidableEq, Repr

/-- A ranked-combine row on its way to the MSU of its entry (R177). -/
structure Combine where
  id : Nat
  ref : CmdRef
  core : Nat
  loc : Nat
  rank : Nat
  row : List Nat
  stamp : Vector (BitVec 48) 8
  deriving DecidableEq, Repr

/-- A round-close marker on its way to one MSU (R173). -/
structure RoundMark where
  id : Nat
  func : Byte
  group : Dword
  issuer : Word
  round : Nat
  msu : Nat
  deriving DecidableEq, Repr

/-- A round at an MSU (R174): the dmask and the issuers read at first contact, next ordinals, issuers whose markers have arrived. -/
structure MsuRound where
  dmask : Byte := 0#8
  issuers : List Word
  x : List Nat
  marked : List Nat := []
  serial : Bool := false
  retries : Nat := 0
  closed : Bool := false
  deriving DecidableEq, Repr

/-- A deterministic group (R172, R175): its open round at each MSU, and the `xrcl` commands that wait for a round. -/
structure DetGroup where
  func : Byte
  group : Dword
  /-- number of the open round -/
  round : Nat := 0
  msus : Map MsuRound := []
  waiting : List (CmdRef × Nat) := []
  /-- next ordinals by issuer, round and MSU (R173) -/
  ords : List ((Word × Nat × Nat) × Nat) := []
  /-- jobs, as team and rank, that took part in an aborted round (R175) -/
  doomed : List (Nat × Nat) := []
  deriving DecidableEq, Repr

/-- A close marker on its way (R66). -/
structure Marker where
  id : Nat
  src : Nat
  dst : Nat
  epoch : BitVec 48
  /-- writes sent in the epoch from src to dst -/
  count : Nat
  deriving DecidableEq, Repr

/-! ### The host interface and dispatch -/

/-- A host queue (R219 to R222). -/
structure HQueue where
  owner : Byte := 0xFF#8
  desc : Option Dword := none
  ring : Dword := 0#64
  lsize : Nat := 6
  die : Nat := 0
  pmax : Nat := 0
  head : Word := 0#32
  tail : Word := 0#32
  /-- ring indices of cancelled items not yet candidates (R233) -/
  cancelled : List Nat := []
  /-- destroyed, and unmapped once the items it has dispatched are done (R218) -/
  closing : Bool := false
  deriving DecidableEq, Repr

/-- A UET connection's bound function (R218); in fallow mode a provisioning connection acts as the PF (R451). -/
structure Conn where
  func : Byte
  deriving DecidableEq, Repr

/-- A network context of a function (R200, R218). -/
structure NetCtx where
  module : BitVec 16
  func : Byte
  conn : Dword
  deriving DecidableEq, Repr

/-- An event ring (R241). -/
structure EvRing where
  base : Dword
  lsize : Nat
  head : Word := 0#32
  tail : Word := 0#32
  dropped : Word := 0#32
  /-- records dropped since the last record of type 0x0005 (R241) -/
  pend : Nat := 0
  deriving DecidableEq, Repr

/-- A work item's fields (R223). -/
structure Item where
  image : Dword := 0#64
  args : Dword := 0#64
  deadline : Dword := 0#64
  compl : Dword := 0#64
  shape : Dword := 0#64
  pipe : BitVec 16 := 0#16
  team : Byte := 0#8
  stage : BitVec 4 := 0#4
  prio : BitVec 2 := 0#2
  evt : Bool := false
  nomig : Bool := false
  hd : Bool := false
  pwr : BitVec 16 := 0#16
  user : Dword := 0#64
  wid : Word := 0#32
  deriving DecidableEq, Repr

/-- An entry of a die's fault queue (R149, R181). -/
structure FaultEntry where
  id : Word
  func : Byte
  core : Nat
  /-- mask-bit index, 0xFF for the queue -/
  stream : Byte
  /-- the job: team and rank -/
  team : Nat
  rank : Nat
  /-- the command, for a transfer fault -/
  cmd : Option CmdRef
  cause : Byte
  addr : Dword
  /-- the answer, once it has one that waits for its job's resume (R153, R185): resolved or abort -/
  answer : Option Bool := none
  deriving DecidableEq, Repr

/-- What the part keeps of a saved command beside its record in the image, by source and sequence number: the bank formats sampled at its
issue (R46), the poisoned lines that it has reported (R390), the entries of its updates at each unit (R180). -/
structure CmdKept where
  src : XSrc
  seq : Dword
  bf : Vector (BitVec 15) 32
  lines : List Nat := []
  hits : Map Nat := []
  deriving DecidableEq, Repr

/-- What a saved job has sampled or reported and its image has no place for: by saved command; bank formats by queue entry and by port
(R46). -/
structure Sampled where
  cmds : List CmdKept := []
  queue : List (Vector (BitVec 15) 32) := []
  ports : List (Option (Vector (BitVec 15) 32 × Map (Vector (BitVec 15) 32))) := []
  deriving DecidableEq, Repr

/-- A core's part of a suspended team: rank, save slot, the core that was saved (R247), the exact `mrd job` account (R257, R262),
what it has sampled, and the sequencer and transfer regions that came in a hamper (R236). -/
structure Saved where
  rank : Nat
  slot : Nat
  core : Nat
  jpj : Nat
  bf : Sampled := {}
  region : Option (List Byte) := none
  deriving DecidableEq, Repr

/-- The run of an item on a die: a running team, or what a suspended team keeps (R30, R226, R238). -/
structure Team where
  id : Nat
  item : Item := {}
  func : Byte := 0#8
  /-- originating queue, 0xFFFF for an internal item -/
  queue : BitVec 16 := 0xFFFF#16
  /-- handle slot, node and piece of an internal item (R35, R413) -/
  plan : Option (Nat × Nat × Nat) := none
  /-- cores by rank; while suspended, what is kept of each rank stands in saves -/
  cores : List Nat := []
  saves : List Saved := []
  /-- fault-queue entries answered while the team was suspended (R153, R185) -/
  held : List FaultEntry := []
  /-- code sections and volatile range of the loaded image (R99, R102, log 11) -/
  code : Vector (List Word) 8 := Vector.replicate 8 []
  vlo : BitVec 5 := 0#5
  vhi : BitVec 5 := 0#5
  /-- cores whose jobs have completed -/
  done : List Nat := []
  /-- DTIME at start of rank 0; 0 if never started -/
  start : Nat := 0
  /-- start order on the die (R230) -/
  order : Nat := 0
  /-- exact charge of the item on all its cores (R262) -/
  fine : Nat := 0
  migrated : Bool := false
  tokensLeft : Bool := false
  poisoned : Bool := false
  deferred : Option Dword := none
  /-- cause of an aborted deferred access, core and stream (R182, R238) -/
  dcause : Byte := 0#8
  dcore : Nat := 0
  dstream : Byte := 0#8
  faults : List (Nat × FaultRec) := []
  /-- of an internal item: the writes of its finished jobs that were on their way when the jobs ended (R447) -/
  trail : List Nat := []
  /-- why it is being stopped: a status of R239 after its saves, or none -/
  stop : Option (BitVec 16) := none
  deriving DecidableEq, Repr

/-- The kinds of candidates (R226). -/
inductive CandKind where
  | queue | internal | hamper | suspended
  deriving DecidableEq, Repr

/-- A candidate of a die (R226 to R231). -/
structure Cand where
  id : Nat
  kind : CandKind
  team : Team
  /-- active slot index of a queue item; 32 while its queue has no slot (R221, R222), when it is no candidate and `since` is what it has
  waited -/
  slot : Nat := 0
  /-- DTIME at which it became a candidate -/
  since : Nat := 0
  /-- out of the ranking while its hamper is in transit (R237) -/
  away : Bool := false
  deriving DecidableEq, Repr

/-- An active queue slot (R222). -/
structure Slot where
  queue : Nat
  /-- items dispatched since it was mapped -/
  sent : Nat := 0
  /-- clk since which the queue has been empty -/
  emptyAt : Nat := 0
  deriving DecidableEq, Repr

/-- A die-window operand B as one read took it, for every core of the die whose request for the same operand comes within 64 clk (R273): die,
origin, element size in half bytes, pitch, orientation, chunk length, formats; the clk of the first request; stretches of memory as read. -/
structure Mcast where
  die : Nat
  addr : Dword
  half : Bool
  nib : Nat
  pitch : Nat
  bt : Bool
  fmts : BitVec 15
  since : Nat
  cells : List (Nat × Nat × Memory)
  deriving DecidableEq, Repr

/-- A hamper between two dies (R236, R237): its flits of 256 bytes on their way, then its answer on its way back. -/
structure Hamper where
  id : Nat
  src : Nat
  dst : Nat
  cand : Cand
  flits : List (List Byte) := []
  answer : Option Bool := none
  /-- an item cancelled while in transit (R233) -/
  cancelled : Bool := false
  deriving DecidableEq, Repr

/-- A message of the part to the outside: the bytes of a Falig response (R217), an RMA completion, or a network request to a peer (R200,
R216); of the bytes that a put writes, the mask says which bits. -/
inductive Out where
  | falig (conn : Nat) (msg : List Byte)
  | rma (conn : Nat) (ok : Bool) (data : List Byte)
  | put (ctx : NetCtx) (cells : List (Dword × List (Byte × Byte)))
  | get (ctx : NetCtx) (cells : List (Dword × Nat))
  deriving DecidableEq, Repr

/-! ### Functions, partitions, meters -/

/-- A function record (R245) with the function's exact accounts (R262, R264). -/
structure Func where
  state : Byte := 0#8
  part : Byte := 0xFF#8
  window : Nat := 10
  credit : Nat := 0
  troot : Dword := 0#64
  quota : Dword := 0#64
  save : Dword := 0#64
  nslots : Nat := 0
  /-- exact charges since enabled, in 2^-22 pJ -/
  total : Nat := 0
  /-- exact charges of the current window -/
  spent : Nat := 0
  /-- debt carried into the window, µJ at or below 0 -/
  debt : Int := 0
  /-- the quota and window lengths in force in the current window (R245) -/
  quotaNow : Nat := 0
  windowNow : Nat := 10
  /-- DTIME at which it was last held (R264) -/
  heldAt : Nat := 0
  frozen : Dword := 0#64
  ring : Option EvRing := none
  ctxs : Map NetCtx := []
  deriving DecidableEq, Repr

/-- A gang switch tick in progress (R252 to R255). -/
structure Tick where
  at_ : Nat
  outgoing : Byte
  incoming : Byte
  /-- dies that have saved -/
  saved : List Nat := []
  /-- the deadline has been extended once; a die was escalated, so that the tick only waits for its saves -/
  extended : Bool := false
  escalated : Bool := false
  deriving DecidableEq, Repr

/-- A partition record (R250) with its gang state. -/
structure Part where
  slice : Nat := 1000
  tsd : Nat := 100
  cur : Byte := 0xFF#8
  voids : Vector Byte 8 := Vector.replicate 8 0#8
  tick : Option Tick := none
  /-- dies that still owe a restore after a void -/
  late : List Nat := []
  /-- the DTIME of the void tick -/
  lateAt : Nat := 0
  /-- further slices of credit that the current function runs (R255) -/
  extra : Nat := 0
  /-- the current function has become held: the next tick comes with its saves (R252) -/
  owed : Bool := false
  deriving DecidableEq, Repr

/-! ### The plan engine of a die -/

/-- A catalog entry (R393, R394): extents of its dimensions; state 0 free, 1 live, 2 draining; software and plan pins (R416). -/
structure Entry where
  id : Word := 0#32
  version : Word := 0#32
  dims : List Nat := []
  loc : Dword := 0#64
  fmt : BitVec 4 := 0xF#4
  tier : Nat := 0
  state : Nat := 0
  trk : Bool := false
  perm : BitVec 18 := 0x3FFFF#18
  dens : Nat := 0
  emin : Int := 0
  emax : Int := 0
  soft : Nat := 0
  plan : Nat := 0
  owner : Byte := 0#8
  scount : Nat := 0
  nzc : Nat := 0
  deriving DecidableEq, Repr

/-- A loaded template (R403): coefficients as FP32 patterns, eF to mO. -/
structure Template where
  func : Byte
  tid : Nat
  op : Nat
  f0 : BitVec 4
  f1 : BitVec 4
  caps : Byte
  profile : Nat
  smax : Nat
  image : Dword
  coef : List Nat
  deriving DecidableEq, Repr

/-- A node of a query (R400). -/
structure QNode where
  op : Nat
  brk : Bool
  fmt : BitVec 4
  mode : BitVec 3
  child : List Nat
  lab : List Nat
  a : Nat
  c : Dword
  deriving DecidableEq, Repr

/-- A query (R399): flags, objective as FP32 patterns, its nodes, the extents of labels 0 to 15, 0 for one that none has (R443). -/
structure Query where
  reassoc : Bool
  replan : Bool
  alpha : Nat
  beta : Nat
  deadline : Dword
  prio : BitVec 2
  nodes : List QNode
  ext : List Nat := []
  deriving DecidableEq, Repr

/-- A costed candidate (R404, R405, R437); for a chain, an order with the templates of its joins. `parts` is what it hands to the dispatch
slice one after another (R35): the template's image, log2 of the team size, log2 of the split. -/
structure Choice where
  tid : Nat
  path : Nat
  orient : Nat
  logs : Nat
  logp : Nat
  joins : Word
  macs : Nat
  bytes : Nat
  e : Rat
  t : Rat
  cost : Rat
  tids : List Nat
  parts : List (Dword × Nat × Nat) := []
  deriving DecidableEq, Repr

/-- The plan of a node: candidates in order of cost, how many were costed, estimated elements and non-zeros (R437, R446). -/
structure NodePlan where
  ranked : List Choice := []
  costed : Nat := 0
  elems : Nat := 0
  nz : Nat := 0
  deriving DecidableEq, Repr

/-- A running query (R413 to R419): the submitting core and its job's team, the node and the part of its plan whose items are out, the items that have not ended, the outcome and
cause of the first that has failed, entries it pins, named entries that have been evicted since it began (R417), re-plans, combine rows dropped, the values of finished nodes as element patterns in
label order (R444). -/
structure QRun where
  core : Nat
  team : Nat := 0
  node : Nat
  part : Nat := 0
  items : List Nat := []
  fail : Option (Nat × Nat) := none
  pins : List Nat := []
  gone : List Nat := []
  cancel : Bool := false
  replans : Nat := 0
  dup : Nat := 0
  vals : Map (List Nat) := []
  /-- block streams that wait for its end: team, rank, stream (R436) -/
  waiters : List (Nat × Nat × Fin 4) := []
  deriving DecidableEq, Repr

/-- A plan handle (R411, R412): stale 0 for none. -/
structure PHandle where
  func : Byte
  gen : Nat
  query : Query
  hints : List Dword
  plan : List NodePlan
  stale : Nat := 0
  deps : List Nat
  tids : List Nat
  replans : Nat := 0
  run : Option QRun := none
  /-- the outcome word of the latest run (R436) -/
  last : Option Dword := none
  deriving DecidableEq, Repr

/-- An element that the sampler has taken (R397): the entry with the function that wrote it, and the element's format and bits. -/
structure Sample where
  entry : Nat
  func : Byte
  fmt : BitVec 4
  bits : Nat
  deriving DecidableEq, Repr

/-- The plan engine of a die (R392 to R445): catalog, templates by slot, the last generation of each handle slot, handles by slot,
answers on their way to block streams as team, rank, stream and word (R426, R441), samples taken. -/
structure PlanEng where
  catalog : Map Entry := []
  templates : Map Template := []
  gens : Map Nat := []
  handles : Map PHandle := []
  answers : List (Nat × Nat × Fin 4 × Dword) := []
  samples : List Sample := []
  deriving DecidableEq, Repr

/-! ### A die -/

/-- A die (R11). -/
structure Die where
  /-- V and C (R66), the responses observed since the last acquire, the stamps applied as a home -/
  vclk : Vector (BitVec 48) 8 := Vector.replicate 8 0#48
  cclk : Vector (BitVec 48) 8 := Vector.replicate 8 0#48
  obs : Vector (BitVec 48) 8 := Vector.replicate 8 0#48
  applied : Vector (BitVec 48) 8 := Vector.replicate 8 0#48
  /-- writes sent to each die in the open epoch (R66) -/
  sent : Vector Nat 8 := Vector.replicate 8 0
  slots : Map Slot := []
  pendq : List Nat := []
  cands : List Cand := []
  teams : List Team := []
  /-- the reserving candidate (R229) -/
  reserving : Option Nat := none
  /-- the candidates for which cores are being freed (R230) -/
  held : List Nat := []
  /-- the candidates that rank above every one that starts and do not fit, in the order of the ranking, with the clk since which that is
  so (R235) -/
  overload : List (Nat × Nat) := []
  overloaded : Bool := false
  fq : List FaultEntry := []
  /-- faulting accesses that wait for a free fault-queue entry (R149) -/
  fqWait : List FaultEntry := []
  nextEntry : Word := 0#32
  /-- thermal factor in tenths (R455) -/
  heat : Int := 10
  budget : Nat := 350
  /-- team slots and cores by partition that the die last broadcast as free (R235) -/
  adSlots : Nat := 0
  adCores : Map Nat := []
  plan : PlanEng := {}
  deriving DecidableEq, Repr

/-! ### Power and start -/

/-- The phases of the part (R448, R451). -/
inductive Phase where
  | off | reset | fallow | ready
  deriving DecidableEq, Repr

/-- The boot status sector (R449). -/
structure Boot where
  magic : Word := 0x42535354#32
  count : Byte := 0#8
  stage : Byte := 0#8
  reason : Byte := 0#8
  flags : Byte := 0#8
  dtime : Dword := 0#64
  svn : Word := 0#32
  /-- how the last start ended stands in reason (the model's own) -/
  closed : Bool := true
  deriving DecidableEq, Repr

/-- What a start finds in the hardware (R448, R454): the first failing stage, cores that fail, calibration, CXL sizes. These are
facts of the module and its surroundings, not registers; a claim ranges over all of them. The temperatures are those of the running part (R455). -/
structure Env where
  failStage : Nat := 0
  /-- the stage before 0x9 in which a start loses power, or with `trip` is ended by a thermal trip (R448); 0 for none -/
  cutStage : Nat := 0
  trip : Bool := false
  failedCores : List Nat := []
  calib : Map (BitVec 16) := []
  cxl : Vector Nat 8 := Vector.replicate 8 0x10000000000
  /-- ns by which IEEE 1588 time is ahead of device time at stage 0x8 (R448) -/
  ahead : Nat := 0
  /-- junction temperatures by die, in °C, as the on-die monitors find them at a 1 ms tick (R455) -/
  tj : Vector Int 8 := Vector.replicate 8 25
  deriving DecidableEq, Repr

/-! ### The schedule and the module -/

/-- What the next step does (log 4): a stream issues, the nest issues, the command queue starts an entry, a command in flight
performs its accesses, an event happens, a message of an unknown type arrives, a synchronisation moves device time on (R223), DIE_OVERLOAD of
a die comes with the clock (R235), a die's thermal monitor has its tick (R455), an image has been verified (R456), a
CANCEL takes effect once the completions of its clk are done (R234), or a clk passes. -/
inductive Act where
  | issue (k : CoreIx) (s : Stream)
  | nest (k : CoreIx)
  | startCmd (k : CoreIx)
  | perform (k : CoreIx) (id : Nat)
  | event (i : Instr)
  | otherMessage (type : Byte) (m : Falig)
  | timeSync (ns : Nat)
  | overload (d : DieIx)
  | heat (d : DieIx)
  | verified
  | cancelLate (m : Falig)
  | tick
  deriving DecidableEq, Repr

/-- An act with the clk before which it does not happen. -/
structure Planned where
  at_ : Nat
  act : Act
  deriving DecidableEq, Repr

/-- Who acts: a core, its block stream, the stream whose word it is (the model's own). -/
structure Actor where
  k : CoreIx := 0
  q : Fin 4 := 0
  st : Stream := .q0
  /-- a transfer command started from the queue, with its entry -/
  entry : Option QEntry := none
  /-- a matrix word issued by the nest (R275) -/
  nest : Bool := false
  deriving DecidableEq, Repr

/-- The management window's registers outside the records (R244) and the tables behind it. -/
structure Mgmt where
  status : Word := 0#32
  width : Nat := 1
  tage : Nat := 10
  /-- core-group map: byte 24d + g (R246), absent 0xFF -/
  groups : Map Byte := []
  /-- hedgerow slot table (R248), absent 0xFF -/
  hedge : Map Byte := []
  /-- ROT port address and entry (R251) -/
  rotAddr : Dword := 0#64
  rotEntry : Word := 0#32
  /-- calibration factors (R262), absent 0x4000 -/
  calib : Map (BitVec 16) := []
  /-- charge table (R261), absent 0 -/
  charge : Map Dword := []
  deriving DecidableEq, Repr

/-- A Balsy module. -/
structure State where
  clk : Nat := 0
  /-- the clk at which the part came up, from which every core's CYCLE counts (R96, log 94) -/
  upAt : Nat := 0
  /-- ns between clk × 10/11 and DTIME (R96, log 16) -/
  dtBase : Nat := 0
  /-- ns by which IEEE 1588 synchronisation moves DTIME on with the next clk (R223) -/
  dtAhead : Nat := 0
  /-- DTIME in the clk before this one -/
  dtPrev : Nat := 0
  phase : Phase := .reset
  boot : Boot := {}
  /-- the IMAGE_COMMIT whose image is being verified (R456, log 108) -/
  verify : Option Falig := none
  flash : List Byte := []
  fuse : Word := 0#32
  env : Env := {}
  /-- cores out of service (R454) -/
  failed : List Nat := []
  module : BitVec 16 := 0xFFFF#16
  /-- all memory by location (R38, R50, log 1) -/
  mem : Memory := []
  /-- poisoned HBM4E lines, physical address over 64 (R57) -/
  poison : List Nat := []
  /-- of a poisoned line: the bytes that have been written whole since it went bad; all 64 clear its poison (R184, R391, log 63) -/
  mended : Map (BitVec 64) := []
  cxl : Vector Nat 8 := Vector.replicate 8 0x10000000000
  /-- reverse ownership table by physical page, absent 0 (R51) -/
  rot : Map Word := []
  writes : List Write := []
  /-- by bank, 32 × core + bank: the other core whose access it served last (R60) -/
  served : Map Nat := []
  markers : List Marker := []
  updates : List Update := []
  combines : List Combine := []
  roundMarks : List RoundMark := []
  groups : List DetGroup := []
  /-- next number of a write, marker, update or hamper (the model's own) -/
  next : Nat := 0
  dies : Vector Die 8 := Vector.replicate 8 {}
  /-- cores by 192 × die + core, absent as after bring-up -/
  cores : Map Core := []
  mg : Mgmt := {}
  funcs : Map Func := []
  /-- exact commons account (R245, R263) -/
  commons : Nat := 0
  parts : Map Part := []
  queues : Map HQueue := []
  conns : Map Conn := []
  hampers : List Hamper := []
  mcasts : List Mcast := []
  out : List Out := []
  /-- free-value counter (the model's own, log 8) -/
  fresh : Nat := 0
  cur : Actor := {}
  due : List Act := []
  agenda : List Planned := []
  round : List Act := []
  deriving DecidableEq, Repr

/-- Why the machine stops. -/
inductive Fault where
  /-- Raised by `step` when the part has no power and nothing is planned that would restore it (R448): nothing can happen.
  Safe: no instruction ends here. -/
  | noPower
  deriving DecidableEq, Repr

/-- Why a step has no meaning. -/
inductive Refusal where
  /-- Raised by an arm of `exec` whose instruction has no meaning yet. Safe: nothing is claimed of what follows. -/
  | notModelled (mnemonic : String)
  deriving DecidableEq, Repr

/-- The module right after reset: about to run the start stages, memory with nothing listed (R448; logs 1, 2, 3). -/
def State.reset : State := {}

end Sys2Proof.Machine
end

