-- ==== Sys2Proof/Machine/Map.lean ====
section
/-! DEFINITION. Tables by number and vectors by number: reading with a default, writing in the canonical order. -/

namespace Sys2Proof.Machine

/-- The entry of key k, d where there is none. -/
def mget {β : Type} (m : Map β) (k : Nat) (d : β) : β :=
  match m with
  | [] => d
  | (j, v) :: t => if j = k then v else mget t k d

/-- The entry of key k. -/
def mget? {β : Type} (m : Map β) (k : Nat) : Option β :=
  match m with
  | [] => none
  | (j, v) :: t => if j = k then some v else mget? t k

/-- The table with v at key k, keys still rising. -/
def mset {β : Type} (m : Map β) (k : Nat) (v : β) : Map β :=
  match m with
  | [] => [(k, v)]
  | (j, w) :: t => if k < j then (k, v) :: (j, w) :: t else if j = k then (k, v) :: t else (j, w) :: mset t k v

/-- The table without key k. -/
def mdel {β : Type} (m : Map β) (k : Nat) : Map β := m.filter fun e => e.1 != k

/-- A table of numbers with an entry replaced; zero entries are absent. -/
def mset0 (m : Map Nat) (k v : Nat) : Map Nat := if v = 0 then mdel m k else mset m k v

/-- Element i of a vector, d outside it. -/
def vget {β : Type} {n : Nat} (v : Vector β n) (i : Nat) (d : β) : β := v[i]?.getD d

/-- The vector with element i replaced, unchanged outside it. -/
def vset {β : Type} {n : Nat} (v : Vector β n) (i : Nat) (x : β) : Vector β n := v.setIfInBounds i x

/-- Numbers 0 to n - 1 as a list. -/
def upto (n : Nat) : List Nat := List.range n

end Sys2Proof.Machine
end

