-- ==== Sys2Proof/Machine/Memory.lean ====
section
/-! DEFINITION. Memory: one flat location number for every byte the part holds (R38, R50), read and write of bytes in the
canonical form, byte order (R2) decided once, ranges, and the home of a location (R62). An unlisted byte reads 0 (log 1). -/

namespace Sys2Proof.Machine

/-- What a byte that nothing has written reads as (DESIGN CHOICE, log 1). -/
def Memory.blank : Byte := 0#8

/-- One byte. -/
def Memory.read (m : Memory) (a : Nat) : Byte :=
  match m with
  | [] => Memory.blank
  | (b, v) :: t => if b = a then v else if a < b then Memory.blank else Memory.read t a

/-- The cell to list for a byte: none for a blank one. -/
def Memory.cell (a : Nat) (v : Byte) (t : Memory) : Memory := if v = Memory.blank then t else (a, v) :: t

/-- Write one byte, keeping the canonical form. -/
def Memory.write (m : Memory) (a : Nat) (v : Byte) : Memory :=
  match m with
  | [] => Memory.cell a v []
  | (b, w) :: t =>
    if a < b then Memory.cell a v ((b, w) :: t)
    else if b = a then Memory.cell a v t
    else (b, w) :: Memory.write t a v

/-- All listed addresses are at or above n, strictly rising, and no cell is blank. -/
def Memory.wfFrom (n : Nat) (m : Memory) : Bool :=
  match m with
  | [] => true
  | (a, v) :: t => decide (n ≤ a) && v != Memory.blank && Memory.wfFrom (a + 1) t

/-- The canonical form. -/
def Memory.wf (m : Memory) : Bool := Memory.wfFrom 0 m

/-- n bytes from a, lowest address first. -/
def Memory.readN (m : Memory) (a : Nat) : Nat → List Byte
  | 0 => []
  | n + 1 => Memory.read m a :: Memory.readN m (a + 1) n

/-- Bytes from a, lowest address first. -/
def Memory.writeN (m : Memory) (a : Nat) (bs : List Byte) : Memory :=
  match bs with
  | [] => m
  | b :: t => Memory.writeN (Memory.write m a b) (a + 1) t

/-- Bytes with masks: a bit of the mask set takes the new bit. -/
def Memory.writeMask (m : Memory) (a : Nat) (bs : List (Byte × Byte)) : Memory :=
  match bs with
  | [] => m
  | (v, k) :: t => Memory.writeMask (Memory.write m a ((Memory.read m a &&& ~~~k) ||| (v &&& k))) (a + 1) t

/-- The cells of [lo, lo + n). -/
def Memory.slice (m : Memory) (lo n : Nat) : Memory := m.filter fun c => lo ≤ c.1 && c.1 < lo + n

/-- Memory with [lo, lo + n) blank. -/
def Memory.clear (m : Memory) (lo n : Nat) : Memory := m.filter fun c => !(lo ≤ c.1 && c.1 < lo + n)

/-- Memory with the cells written one by one. -/
def Memory.put (m : Memory) (cs : Memory) : Memory :=
  match cs with
  | [] => m
  | (a, v) :: t => Memory.put (Memory.write m a v) t

/-- Memory with [dst, dst + n) a copy of [src, src + n). -/
def Memory.copy (m : Memory) (src dst n : Nat) : Memory :=
  Memory.put (Memory.clear m dst n) ((Memory.slice m src n).map fun c => (c.1 - src + dst, c.2))

/-- The listed cells of bytes from a on. -/
def Memory.cellsOf (a : Nat) (bs : List Byte) : Memory :=
  match bs with
  | [] => []
  | b :: t => Memory.cell a b (Memory.cellsOf (a + 1) t)

/-- Memory with [a, a + length) holding the bytes, for long blocks. -/
def Memory.blit (m : Memory) (a : Nat) (bs : List Byte) : Memory :=
  (m.filter fun c => c.1 < a) ++ Memory.cellsOf a bs ++ (m.filter fun c => a + bs.length ≤ c.1)

/-- Memory with stretches as they were: location, length, the cells in it. -/
def Memory.restore (m : Memory) (old : List (Nat × Nat × Memory)) : Memory :=
  old.foldl (fun m e => Memory.put (Memory.clear m e.1 e.2.1) e.2.2) m

/-- An unsigned number of n bytes at a, little-endian (R2). -/
def Memory.readNat (m : Memory) (a n : Nat) : Nat := natOfBytes (Memory.readN m a n)

/-- Size of HBM4E, 512 GiB (R50). -/
def hbmSize : Nat := 0x8000000000
/-- First physical address of the second tier (R50). -/
def cxlBase : Nat := 0x100000000000
/-- The second tier's ports: bytes of a port's offset field (R50). -/
def cxlPort : Nat := 0x20000000000
/-- Location of own-scratchpad offset 0 of core k. -/
def scratchLoc (k : Nat) : Nat := 0x200000000000 + k * 0x200000
/-- Location of accumulator byte 0 of core k. -/
def accLoc (k : Nat) : Nat := 0x400000000000 + k * 0x40000

/-- A location in HBM4E. -/
def isHbm (l : Nat) : Bool := l < hbmSize
/-- A location in the second tier. -/
def isCxl (l : Nat) : Bool := cxlBase ≤ l && l < scratchLoc 0
/-- A location in some core's scratchpad. -/
def isScratch (l : Nat) : Bool := scratchLoc 0 ≤ l && l < scratchLoc 1536
/-- The core of a scratchpad location. -/
def scratchCore (l : Nat) : Nat := (l - scratchLoc 0) / 0x200000
/-- The offset of a scratchpad location. -/
def scratchOff (l : Nat) : Nat := (l - scratchLoc 0) % 0x200000

/-- The die of a core's number. -/
def coreDie (k : Nat) : Nat := k / 192

/-- The home die of a location (R38, R50). -/
def homeDie (l : Nat) : Nat :=
  if isHbm l then l / 0x1000000000
  else if isCxl l then (l - cxlBase) / cxlPort
  else if isScratch l then coreDie (scratchCore l)
  else coreDie ((l - accLoc 0) / 0x40000)

/-- The MSU of an HBM4E location: 256 × die + pseudo-channel PA[15:8] (R50). -/
def msuOf (l : Nat) : Nat := 256 * homeDie l + l / 256 % 256

end Sys2Proof.Machine
end

