-- ==== Sys2Proof/Machine/Ops.lean ====
section
/-! DEFINITION. The named operations over the state: cores, dies and functions, the registers of a block stream with their
hard-wired members (R92), charging (R111, R262), translation and ownership (R48 to R54), writes on their way (R62, R66), event
records (R241), the die fault queue (R149), taking a trap (R147), returning from one (R148), ending a block (R15, R94), waiting
and waking, rendezvous (R24, R25) and job faults (R151). -/

namespace Sys2Proof.Machine

/-! ### Parts of the state -/

/-- Core k. -/
def State.core (s : State) (k : Nat) : Core := mget s.cores k {}
/-- The state with core k replaced. -/
def State.setCore (s : State) (k : Nat) (c : Core) : State := { s with cores := mset s.cores k c }
/-- The state with core k changed by f. -/
def State.modCore (s : State) (k : Nat) (f : Core → Core) : State := s.setCore k (f (s.core k))
/-- Die d. -/
def State.die (s : State) (d : Nat) : Die := vget s.dies d {}
/-- The state with die d changed by f. -/
def State.modDie (s : State) (d : Nat) (f : Die → Die) : State := { s with dies := vset s.dies d (f (s.die d)) }
/-- The record of the function with owner code f (R51, R245). -/
def State.func (s : State) (f : Byte) : Func := mget s.funcs f.toNat {}
/-- The state with a function's record changed. -/
def State.modFunc (s : State) (f : Byte) (g : Func → Func) : State :=
  { s with funcs := mset s.funcs f.toNat (g (s.func f)) }
/-- Partition p. -/
def State.part (s : State) (p : Nat) : Part := mget s.parts p {}
/-- The state with a partition changed. -/
def State.modPart (s : State) (p : Nat) (g : Part → Part) : State := { s with parts := mset s.parts p (g (s.part p)) }
/-- Host queue q. -/
def State.queue (s : State) (q : Nat) : HQueue := mget s.queues q {}
/-- The state with a queue changed. -/
def State.modQueue (s : State) (q : Nat) (g : HQueue → HQueue) : State :=
  { s with queues := mset s.queues q (g (s.queue q)) }
/-- The next free value's number, and the state after taking it (log 8). -/
def State.draw (s : State) : Nat × State := (s.fresh, { s with fresh := s.fresh + 1 })
/-- Consequences that happen before anything else. -/
def State.after (s : State) (as : List Act) : State := { s with due := s.due ++ as }
/-- A plan with an act put after the acts of its clk and before every later one. -/
def planInsert (p : Planned) : List Planned → List Planned
  | [] => [p]
  | x :: t => if p.at_ < x.at_ then p :: x :: t else x :: planInsert p t
/-- Acts that happen in the clk after this one, before its other acts. -/
def State.later (s : State) (as : List Act) : State :=
  { s with agenda := as.foldl (fun l a => planInsert ⟨s.clk + 1, a⟩ l) s.agenda }
/-- A hard stop planned for core k comes to nothing: its job has left the core. -/
def State.unstop (s : State) (k : Nat) : State :=
  { s with agenda := s.agenda.filter fun p => p.act != .event (.hardStop (Fin.ofNat 1536 k)) }
/-- A message to the outside. -/
def State.send (s : State) (o : Out) : State := { s with out := s.out ++ [o] }

/-- Device time in ns (R96, R223): 1 clk is 10/11 ns (R4, log 16). -/
def State.dtime (s : State) : Nat := s.dtBase + (s.clk * 10 + 10) / 11

/-- Owner code of the PF (R51). -/
def pfCode : Byte := 0x7F#8

/-- COORD of core k (R31). -/
def State.coord (s : State) (k : Nat) : Word :=
  s.module ++ (s.core k).sys.stage ++ 0#1 ++ BitVec.ofNat 3 (coreDie k) ++ BitVec.ofNat 8 (k % 192)

/-- The partition of core k, by the core-group map (R246). -/
def State.corePart (s : State) (k : Nat) : Byte := mget s.mg.groups (24 * coreDie k + k % 192 / 8) 0xFF#8

/-- The in-service cores of the partition of function f on die d (R246, R454), ascending. -/
def State.partCores (s : State) (f : Byte) (d : Nat) : List Nat :=
  let p := (s.func f).part
  ((upto 192).map fun i => 192 * d + i).filter fun k => p != 0xFF#8 && s.corePart k == p && !s.failed.contains k

/-! ### Charging -/

/-- The charge table entry of engine, class and format code (R261). -/
def State.rate (s : State) (engine cls fmt : Nat) : Nat := (mget s.mg.charge (512 * engine + 16 * cls + fmt) 0#64).toNat

/-- The calibration factor of core k, Q2.14 (R262). -/
def State.calib (s : State) (k : Nat) : Nat := (mget s.mg.calib k 0x4000#16).toNat

/-- Add an exact amount in 2^-22 pJ to a function's total and window (R262, R264). -/
def State.account (s : State) (f : Byte) (x : Nat) : State :=
  if x = 0 then s else s.modFunc f fun r => { r with total := r.total + x, spent := r.spent + x }

/-- Charge an exact amount at core k to the function that runs on it: the core's meters, the function's account (R111, R140, R262). -/
def State.meter (s : State) (k x : Nat) : State :=
  if x = 0 then s
  else
    let c := s.core k
    match c.job with
    | none => s
    | some j =>
      (s.setCore k { c with meterFunc := c.meterFunc + x, meterJob := c.meterJob + x }).account j.func x

/-- Charge `units` of work of engine, class and format at core k (R111, R262). -/
def State.charge (s : State) (k engine cls fmt units : Nat) : State := s.meter k (units * s.rate engine cls fmt * s.calib k)

/-- The pJ value of an exact amount (R262). -/
def pJ (fine : Nat) : Nat := fine / 0x400000

/-- µJ remaining in a function's window, two's complement (R245, R264). -/
def Func.remain (r : Func) : Int := (r.quotaNow : Int) - ((r.spent / (0x400000 * 1000000) : Nat) : Int) + r.debt

/-! ### Vector clocks -/

/-- a is at or above b in serial order (R67). -/
def serialGe (a b : BitVec 48) : Bool := (a - b).toNat < 0x800000000000
/-- The serial maximum (R67). -/
def serialMax (a b : BitVec 48) : BitVec 48 := if serialGe a b then a else b
/-- Componentwise serial maximum. -/
def clkMax (a b : Vector (BitVec 48) 8) : Vector (BitVec 48) 8 := Vector.zipWith serialMax a b

/-- A read by die d of a location homed on die h observes what h has applied (R66). -/
def State.observe (s : State) (d h : Nat) : State :=
  let m := clkMax (s.die h).cclk (s.die h).applied
  s.modDie d fun x => { x with obs := clkMax x.obs m }

/-- An acquire at package or fabric scope on die d (R66). -/
def State.acquire (s : State) (d : Nat) : State :=
  s.modDie d fun x => { x with vclk := clkMax x.vclk x.obs, obs := clkMax x.vclk x.obs }

/-- A release at package or fabric scope by die d may be performed: no home lags 2^20 epochs behind (R67). -/
def State.mayRelease (s : State) (d : Nat) : Bool :=
  let v := vget (s.die d).vclk d 0#48
  (upto 8).all fun h => (v + 1#48 - vget (s.die h).cclk d 0#48).toNat < 0x100000

/-- A release at package or fabric scope on die d: close markers to every die, then the next epoch (R66). -/
def State.release (s : State) (d : Nat) : State :=
  let x := s.die d
  let e := vget x.vclk d 0#48
  let ms := (upto 8).map fun h => Marker.mk (s.next + h) d h e (vget x.sent h 0)
  let s := { s with markers := s.markers ++ ms, next := s.next + 8 }
  s.modDie d fun x => { x with vclk := vset x.vclk d (e + 1#48), sent := Vector.replicate 8 0 }

/-! ### Translation and ownership -/

/-- The kinds of access (R38). -/
inductive Access where
  | read | write | aow
  deriving DecidableEq, Repr

/-- The memory fault causes (R58, R145, R240). -/
def cADDR_SPACE : Byte := 0x10#8
def cADDR_RANGE : Byte := 0x11#8
def cMISALIGN : Byte := 0x12#8
def cXLATE : Byte := 0x13#8
def cPERM : Byte := 0x14#8
def cOWNER : Byte := 0x15#8
def cWINDOW : Byte := 0x16#8
def cUNPOP : Byte := 0x17#8
def cPOISON : Byte := 0x18#8
def cFORMAT : Byte := 0x19#8
def cAOW_TIER : Byte := 0x1A#8
def cSTAGE_ABSENT : Byte := 0x30#8

/-- A leaf found by a walk: page address, page size, W. -/
structure Leaf where
  base : Nat
  size : Nat
  w : Bool
  deriving DecidableEq, Repr

/-- [a, a + n) and [b, b + m) share a byte. -/
def overlaps (a n b m : Nat) : Bool := a < b + m && b < a + n

/-- A byte range touches a poisoned line (R56, R57). -/
def State.poisoned (s : State) (loc n : Nat) : Bool :=
  s.poison.any fun l => overlaps loc n (l * 64) 64

/-- The bytes of line l that a write of masked bytes at a location writes whole. -/
def lineBits (l loc : Nat) (data : List (Byte × Byte)) : BitVec 64 :=
  (upto 64).foldl (fun m j =>
    let whole := loc ≤ 64 * l + j && (data[64 * l + j - loc]?).any fun x => x.2 == 0xFF#8
    if whole then m ||| 1#64 <<< j else m) 0#64

/-- Line l, if it is poisoned, has had more of its bytes written: written whole, it is poisoned no more (R184, R391). -/
def State.mendLine (s : State) (l : Nat) (bits : BitVec 64) : State :=
  let m := mget s.mended l 0#64 ||| bits
  if m = BitVec.allOnes 64 then { s with poison := s.poison.filter (· != l), mended := mdel s.mended l }
  else { s with mended := mset s.mended l m }

/-- Masked bytes have been written at a location: of the poisoned lines among them. -/
def State.mend (s : State) (loc : Nat) (data : List (Byte × Byte)) : State :=
  (s.poison.filter fun l => overlaps loc data.length (l * 64) 64).foldl (fun s l => s.mendLine l (lineBits l loc data)) s

/-- Whole bytes have been written at a list of locations. -/
def State.mendAll (s : State) (ls : List Nat) : State :=
  if s.poison.isEmpty then s else ls.foldl (fun s l => s.mend l [(0#8, 0xFF#8)]) s

/-- A page-table entry at a physical address, read like any device memory (R53): XLATE outside HBM4E (R49), POISON on a poisoned line
(R57). -/
def State.pte (s : State) (a : Nat) : Except Byte Dword :=
  if a + 8 ≤ hbmSize then
    if s.poisoned a 8 then .error cPOISON else .ok (BitVec.ofNat 64 (Memory.readNat s.mem a 8))
  else .error cXLATE

/-- The index bits of a level begin at this bit of the virtual address (R48). -/
def levelShift (level : Nat) : Nat := if level = 0 then 39 else if level = 1 then 30 else if level = 2 then 21 else 16

/-- The walk from a table at `level` (R48, R49); fuel is the number of levels left. The leaf or the cause, and the addresses of the
entries read. -/
def State.walkFrom (s : State) (va : Nat) : Nat → Nat → List Nat → Except Byte Leaf × List Nat
  | 0, _, seen => (.error cXLATE, seen)
  | fuel + 1, table, seen =>
    let level := 3 - fuel
    let sh := levelShift level
    let at_ := table + 8 * (va / 2 ^ sh % (if level = 3 then 32 else 512))
    match s.pte at_ with
    | .error z => (.error z, seen)
    | .ok e =>
      let seen := at_ :: seen
      let v := e.getLsbD 0
      let l := e.getLsbD 1
      let w := e.getLsbD 2
      let rsv := e.extractLsb' 3 9 != 0#9 || e.extractLsb' 48 16 != 0#16
      let addr := (e.extractLsb' 12 36).toNat * 4096
      if !v || rsv || (l && level == 0) || (!l && level == 3) then (.error cXLATE, seen)
      else if l then
        (if addr % 2 ^ sh = 0 then .ok ⟨addr, 2 ^ sh, w⟩ else .error cXLATE, seen)
      else if addr + 4096 ≤ hbmSize then State.walkFrom s va fuel addr seen else (.error cXLATE, seen)

/-- The walk of function f for a virtual address (R48, R49). -/
def State.walk (s : State) (f : Byte) (va : Nat) : Except Byte Leaf := (s.walkFrom va 4 (s.func f).troot.toNat []).1

/-- The entries that the walk of function f for a virtual address reads. -/
def State.walkReads (s : State) (f : Byte) (va : Nat) : List Nat := (s.walkFrom va 4 (s.func f).troot.toNat []).2

/-- [a, a + n) lies in a populated range (R50). -/
def State.populated (s : State) (a n : Nat) : Bool :=
  a + n ≤ hbmSize ||
  (isCxl a && (a - cxlBase) % cxlPort + n ≤ vget s.cxl ((a - cxlBase) / cxlPort) 0)

/-- The ROT entry of the page of a physical address (R51). -/
def State.rotOf (s : State) (pa : Nat) : Word := mget s.rot (pa / 0x10000) 0#32

/-- Translation and checks of R52 steps 2 to 4 for function f, less the TLB: the physical address and W, or the cause. With
`seq`, a second-tier leaf is ADDR_SPACE after step 3 (R124). `part` lets the part itself write an ro page (R258). -/
def State.check (s : State) (f : Byte) (va : Nat) (acc : Access) (seq part : Bool) : Except Byte (Nat × Bool × Bool) :=
  match s.walk f va with
  | .error z => .error z
  | .ok lf =>
    let pa := lf.base + va % lf.size
    let r := s.rotOf pa
    if acc != .read && !lf.w then .error cPERM
    else if !s.populated lf.base lf.size then .error cUNPOP
    else if seq && isCxl pa then .error cADDR_SPACE
    else if acc == .aow && isCxl pa then .error cAOW_TIER
    else if !r.getLsbD 8 || r.getLsbD 10 || (r.extractLsb' 0 7).toNat != f.toNat then .error cOWNER
    else if acc != .read && r.getLsbD 9 && !part then .error cPERM
    else .ok (pa, lf.w, r.getLsbD 9)

/-- Two cached pages belong to one leaf translation. -/
def TlbEntry.sameLeaf (x y : TlbEntry) : Bool := x.func == y.func && x.leaf == y.leaf && x.pages == y.pages

/-- The leaf translations cached in a TLB, oldest first, by one page of each. -/
def tlbLeaves : List TlbEntry → List TlbEntry
  | [] => []
  | e :: t => e :: (tlbLeaves t).filter fun x => !x.sameLeaf e

/-- The TLB of a core with a page put in; of more than 128 leaf translations the oldest goes (R53, log 13). -/
def tlbPut (t : List TlbEntry) (e : TlbEntry) : List TlbEntry :=
  let t := (t.filter fun x => !(x.func == e.func && x.vpage == e.vpage)) ++ [e]
  match tlbLeaves t with
  | o :: r => if 128 ≤ r.length then t.filter fun x => !x.sameLeaf o else t
  | [] => t

/-- The entry of a leaf translation lies over one of n virtual pages from p. -/
def TlbEntry.covers (e : TlbEntry) (p n : Nat) : Bool := overlaps e.leaf e.pages p n

/-- The entry of a leaf translation lies over a physical page. -/
def TlbEntry.maps (e : TlbEntry) (p : Nat) : Bool := overlaps (e.ppage - (e.vpage - e.leaf)) e.pages p 1

/-- Hops between two dies on the ring (R10). -/
def hops (a b : Nat) : Nat := if (a + 8 - b) % 8 ≤ 4 then (a + 8 - b) % 8 else 8 - (a + 8 - b) % 8

/-- A walk of core k has read page-table entries: its die observes their homes (R53, R66), and its function is charged for their bytes
(R262). -/
def State.walked (s : State) (k : Nat) (as : List Nat) : State :=
  as.foldl (fun s a => ((s.observe (coreDie k) (homeDie a)).charge k 1 3 0xF 8).charge k 1 4 0xF (8 * hops (homeDie a) (coreDie k))) s

/-- The TLB's page for a translation of function f that has passed the checks: physical address, W, ro. -/
def State.tlbPage (s : State) (f : Byte) (va : Nat) (r : Nat × Bool × Bool) : TlbEntry :=
  let size := match s.walk f va with
    | .ok lf => lf.size
    | .error _ => 0x10000
  ⟨f, va / 0x10000, r.1 / 0x10000, r.2.1, r.2.2, va / size * (size / 0x10000), size / 0x10000⟩

/-- Translation at core k through its TLB (R52 to R54): a cached page that differs from what a walk now gives may be used or
not, at the part's choice (log 8). A miss walks. -/
def State.translate (s : State) (k : Nat) (f : Byte) (va : Nat) (acc : Access) (seq : Bool) : Except Byte Nat × State :=
  let fresh := s.check f va acc seq false
  let vp := va / 0x10000
  let hit := (s.core k).tlb.find? fun e => e.func == f && e.vpage == vp
  let old : Option (Except Byte Nat) := hit.map fun e =>
    let pa := e.ppage * 0x10000 + va % 0x10000
    if acc != .read && !e.w then .error cPERM
    else if seq && isCxl pa then .error cADDR_SPACE
    else if acc == .aow && isCxl pa then .error cAOW_TIER
    else if acc != .read && e.ro then .error cPERM
    else .ok pa
  let new : Except Byte Nat := fresh.map fun x => x.1
  let same := match old, new with
    | some (.ok a), .ok b => a == b
    | some (.error a), .error b => a == b
    | some (.ok _), .error _ => false
    | some (.error _), .ok _ => false
    | none, _ => true
  let useOld := !same && Config.choice s.fresh
  let s1 := if same then s else { s with fresh := s.fresh + 1 }
  match useOld, old with
  | true, some r => (r, s1)
  | _, _ =>
    if hit.isSome && same then (new, s1)
    else
      let s2 := s1.walked k (s.walkReads f va)
      (new, match fresh with
        | .error _ => s2
        | .ok r => s2.modCore k fun c => { c with tlb := tlbPut c.tlb (s.tlbPage f va r) })

/-- A translation by the part itself for function f, without a core's TLB (R216, R220, R258); the address word is checked first (R39,
R52). -/
def State.hostCheck (s : State) (f : Byte) (va : Dword) (acc : Access) (part : Bool) : Except Byte Nat :=
  if va.toNat < 0x1000000000000 then (s.check f va.toNat acc false part).map fun x => x.1
  else .error (if va.extractLsb' 60 4 = 0#4 then cADDR_RANGE else cADDR_SPACE)

/-- The locations of n bytes from va for the part, each page checked (R52), or the first failing cause. -/
def State.hostLocs (s : State) (f : Byte) (va : Dword) (acc : Access) (part : Bool) : Nat → Except Byte (List Nat)
  | 0 => .ok []
  | n + 1 =>
    match s.hostCheck f va acc part with
    | .error e => .error e
    | .ok pa => (State.hostLocs s f (va + 1#64) acc part n).map fun t => pa :: t

/-- Read n bytes of function f's memory as the part; a poisoned line faults POISON (R57). -/
def State.hostRead (s : State) (f : Byte) (va : Dword) (n : Nat) : Except Byte (List Byte) :=
  match s.hostLocs f va .read false n with
  | .error z => .error z
  | .ok ls => if ls.any fun l => s.poisoned l 1 then .error cPOISON else .ok (ls.map (Memory.read s.mem))

/-- Memory with bytes written at a list of locations. -/
def writeLocs (m : Memory) (ls : List Nat) (bs : List Byte) : Memory :=
  match ls, bs with
  | l :: ls, b :: bs => writeLocs (Memory.write m l b) ls bs
  | _, _ => m

/-- Write bytes of function f's memory, whole or not at all (R238, R258). A write into the save area as the part makes every check of R52 but
that of the ro bit (`part`, R258). -/
def State.hostWrite (s : State) (f : Byte) (va : Dword) (bs : List Byte) (part : Bool) : Except Byte State :=
  (s.hostLocs f va .write part bs.length).map fun ls => { s with mem := writeLocs s.mem ls bs }.mendAll ls

/-! ### Event records -/

/-- A record of 32 bytes into the event ring of function f: written at index tail, then the descriptor word; dropped and counted
when the ring is full, dropped without a ring (R241). A ring page that cannot be written drops the record too (log 19). -/
def State.event (s : State) (f : Byte) (rec : List Byte) : State :=
  match (s.func f).ring with
  | none => s
  | some r =>
    let full := 2 ^ r.lsize ≤ (r.tail - r.head).toNat
    let desc (r : EvRing) := bytesOfNat 4 r.tail.toNat ++ bytesOfNat 4 r.dropped.toNat
    if full then
      let r' := { r with dropped := r.dropped + 1#32, pend := r.pend + 1 }
      let s := match s.hostWrite f (r.base - 8#64) (desc r') false with
        | .ok t => t
        | .error _ => s
      s.modFunc f fun x => { x with ring := some r' }
    else
      let at_ := r.base + BitVec.ofNat 64 (32 * (r.tail.toNat % 2 ^ r.lsize))
      match s.hostWrite f at_ (rec.take 32) false with
      | .error _ => s.modFunc f fun x => { x with ring := some { r with dropped := r.dropped + 1#32 } }
      | .ok t =>
        let r' := { r with tail := r.tail + 1#32 }
        let t := match t.hostWrite f (r.base - 8#64) (desc r') false with
          | .ok u => u
          | .error _ => t
        t.modFunc f fun x => { x with ring := some r' }

/-- n zero bytes. -/
def zeroBytes (n : Nat) : List Byte := List.replicate n 0#8

/-- The OWNER event of R58 to the PF (R242, type 0x0006). -/
def State.ownerEvent (s : State) (f : Byte) (coord : Word) (addr : Dword) (pa : Nat) : State :=
  let r := s.rotOf pa
  let owner := if r.getLsbD 8 then (r.extractLsb' 0 7).toNat else 0xFF
  s.event pfCode (bytesOfNat 2 6 ++ [f, BitVec.ofNat 8 owner] ++ bytesOfNat 4 coord.toNat ++ bytesOfNat 8 addr.toNat
    ++ bytesOfNat 8 (pa / 0x10000 * 0x10000) ++ bytesOfNat 8 s.dtime)

/-- The physical address that a failing walk of function f leads to, for the OWNER event; 0 where the walk itself fails. -/
def State.walkPa (s : State) (f : Byte) (va : Nat) : Nat :=
  match s.walk f va with
  | .error _ => 0
  | .ok lf => lf.base + va % lf.size

/-- A record of type 0x0004 to function f's ring (R242). -/
def State.refusedEvent (s : State) (dest : Byte) (reason : Nat) (who : Byte) (queue : Nat) (value : Nat) : State :=
  s.event dest (bytesOfNat 2 4 ++ [BitVec.ofNat 8 reason, who] ++ bytesOfNat 2 queue ++ zeroBytes 2 ++ bytesOfNat 8 value
    ++ zeroBytes 8 ++ bytesOfNat 8 s.dtime)

/-! ### The die fault queue -/

/-- The record of type 0x0003 for a posted entry (R242). -/
def State.postedEvent (s : State) (e : FaultEntry) : State :=
  s.event e.func (bytesOfNat 2 3 ++ [e.cause, e.stream] ++ bytesOfNat 4 e.id.toNat ++ bytesOfNat 8 e.addr.toNat
    ++ bytesOfNat 4 (s.coord e.core).toNat ++ zeroBytes 4 ++ bytesOfNat 8 s.dtime)

/-- Post a resolvable fault to the fault queue of the core's die under an id whose low three bits are the die, or let it wait while
the queue is full (R53, R149). -/
def State.postFault (s : State) (e : FaultEntry) : State :=
  let d := coreDie e.core
  let x := s.die d
  if x.fq.length < 256 then
    let e := { e with id := BitVec.ofNat 32 (8 * x.nextEntry.toNat + d) }
    (s.modDie d fun x => { x with fq := x.fq ++ [e], nextEntry := x.nextEntry + 1#32 }).postedEvent e
  else s.modDie d fun x => { x with fqWait := x.fqWait ++ [e] }

/-- Move waiting faults into free entries (R149); fuel is their number. -/
def State.refillFaults (s : State) (d : Nat) : Nat → State
  | 0 => s
  | n + 1 =>
    match (s.die d).fqWait with
    | [] => s
    | e :: t =>
      if (s.die d).fq.length < 256 then
        State.refillFaults ((s.modDie d fun x => { x with fqWait := t }).postFault e) d n
      else s

/-! ### Job faults -/

/-- A job fault on core k: the fault record, and in the next clk a hard stop of the job on every core of its team (R151, R155). A
second fault of a job already faulted on its core changes nothing; the faults of other cores in the same clk are kept. -/
def State.jobFault (s : State) (k : Nat) (cause : Byte) (info : Dword) (stream : Nat) (pc : Word) : State :=
  let c := s.core k
  match c.job, c.fault with
  | some j, none =>
    let s := s.setCore k { c with fault := some ⟨cause, info, BitVec.ofNat 8 stream, pc, 0#8⟩ }
    let team := ((s.die (coreDie k)).teams.find? fun t => t.id == j.team).map fun t => t.cores
    let others := (team.getD []).filter fun i => i != k && (s.core i).job.any fun o => o.team == j.team
    s.later ((k :: others).map fun i => .event (.hardStop (Fin.ofNat 1536 i)))
  | _, _ => s

/-- A job fault whose information the spec does not give: a free value (log 20). -/
def State.jobFaultFree (s : State) (k : Nat) (cause : Byte) (stream : Nat) (pc : Word) : State :=
  ({ s with fresh := s.fresh + 1 }).jobFault k cause (Config.info s.fresh) stream pc

/-! ### Block streams -/

/-- The core that acts. -/
def State.me (s : State) : Core := s.core s.cur.k.val
/-- The block stream that acts. -/
def State.blk (s : State) : Block := s.me.q[s.cur.q.val]
/-- Block stream q of core k changed. -/
def State.modQ (s : State) (k : Nat) (q : Fin 4) (f : Block → Block) : State :=
  s.modCore k fun c => { c with q := c.q.set q.val (f c.q[q.val]) }
/-- The block stream that acts, changed. -/
def State.modBlk (s : State) (f : Block → Block) : State := s.modQ s.cur.k.val s.cur.q f

/-- G[n] of a block stream: g0 reads as zero (R92, R108). -/
def Block.reg (b : Block) (n : BitVec 5) : Dword := if n = 0#5 then 0#64 else b.g[n.toNat]
/-- G[n] := v: a write to g0 is discarded (R92). -/
def Block.setReg (b : Block) (n : BitVec 5) (v : Dword) : Block :=
  if n = 0#5 then b else { b with g := b.g.set n.toNat v }
/-- P[n]: p0 reads as 1 (R92). -/
def Block.pred (b : Block) (n : BitVec 3) : Bool := if n = 0#3 then true else b.p.getLsbD n.toNat
/-- P[n] := v: a write to p0 is discarded (R92). -/
def Block.setPred (b : Block) (n : BitVec 3) (v : Bool) : Block :=
  if n = 0#3 then b
  else { b with p := (b.p &&& ~~~(1#8 <<< n.toNat)) ||| (if v then 1#8 <<< n.toNat else 0#8) }
/-- To the next word. -/
def Block.step (b : Block) : Block := { b with pc := b.pc + 1#64, busy := false }

/-- G[n] of the acting block stream. -/
def State.g (s : State) (n : BitVec 5) : Dword := s.blk.reg n
/-- P[n] of the acting block stream. -/
def State.p (s : State) (n : BitVec 3) : Bool := s.blk.pred n

/-- Bit i of a mask of streams (R13). -/
def maskHas (m : Byte) (i : Nat) : Bool := m.getLsbD i
/-- The mask of stream i (R13). -/
def maskOf (i : Nat) : Byte := 1#8 <<< i

/-- The block streams after q in the order of R15. -/
def afterQ (q : Fin 4) : List (Fin 4) := [q + 1, q + 2, q + 3, q]

/-- Give the issue pipeline to the next ready block stream after the current one, wrapping, the current one last; with none ready it is
idle (R15, R94). -/
def Core.switch (c : Core) : Core :=
  match (afterQ c.curq).find? fun i => c.q[i.val].st == .ready with
  | some i => { c with curq := i, idle := false }
  | none => { c with idle := true }

/-- An idle pipeline, or one whose block stream cannot issue, goes to the lowest ready block stream (R15). -/
def Core.settle (c : Core) : Core :=
  if !c.idle && c.q[c.curq.val].st == .ready then c
  else match ([0, 1, 2, 3] : List (Fin 4)).find? fun i => c.q[i.val].st == .ready with
    | some i => { c with curq := i, idle := false }
    | none => { c with idle := true }

/-- The acting block stream ends its block (R94). -/
def State.endBlock (s : State) : State := s.modCore s.cur.k.val Core.switch

/-- The word of the acting block stream has issued and holds the pipeline (R110): it is fetched again until it has completed, also
while a soft pre-emption is pending (R153). -/
def State.hold (s : State) : State := s.modBlk fun b => { b with busy := true }

/-- The acting block stream waits at its word (R94): the wait word and the mask it sampled (R157). -/
def State.wait (s : State) (w : Word) (m : Dword) : State :=
  (s.modBlk fun b => { b with st := .waiting, wword := w, wmask := m, busy := false }).endBlock

/-- Function, team and rank of a core's job; zero without one. -/
def Core.jobFunc (c : Core) : Byte := (c.job.map fun j => j.func).getD 0#8
def Core.jobTeam (c : Core) : Nat := (c.job.map fun j => j.team).getD 0
def Core.jobRank (c : Core) : Nat := (c.job.map fun j => j.rank.toNat).getD 0

/-- A trap of the acting block stream, taken as R147 says: the trap registers, then the die fault queue, a job fault or the
handler. -/
def State.trap (s : State) (cause sub : Byte) (info : Dword) : State :=
  let pc : Word := s.blk.pc.setWidth 32
  let s := s.modBlk fun b => { b with trcause := cause, trsub := sub, trinfo := info, trpc := pc, busy := false }
  let b := s.blk
  if (cause == cXLATE || cause == cPERM) && !b.trvec.getLsbD 33 then
    let s := s.postFault ⟨0#32, s.me.jobFunc, s.cur.k.val, BitVec.ofNat 8 s.cur.q.val, s.me.jobTeam, s.me.jobRank, none, cause,
      info, none⟩
    (s.modBlk fun b => { b with st := .waiting, resol := true }).endBlock
  else if !b.trvec.getLsbD 32 || b.hnd then s.jobFault s.cur.k.val cause info s.cur.q.val pc
  else (s.modBlk fun b => { b with hnd := true, pc := (b.trvec.extractLsb' 0 32).setWidth 64 }).endBlock

/-- A plan trap (R429): PLAN with its sub-code, never resolvable through the fault queue. -/
def cPLAN : Byte := 0x20#8
/-- ILLEGAL and SOFTWARE (R145). -/
def cILLEGAL : Byte := 0x01#8
def cSOFTWARE : Byte := 0x02#8

/-- Return from a handler (R148): pc from TRPC, hnd cleared, TRPROG kept only if the word there is `spillm` or `fillm`. -/
def State.eret (s : State) : State :=
  let code := vget s.me.code s.cur.q.val []
  s.modBlk fun b =>
    let w := (code[b.trpc.toNat]?).getD 0#32
    let run := match decodeSeq w with
      | .ok (.spillm _ _ _) => true
      | .ok (.fillm _ _ _) => true
      | _ => false
    { b with pc := b.trpc.setWidth 64, hnd := false, trprog := if run then b.trprog else 0#5 }

/-! ### Rendezvous -/

/-- RDV_MISMATCH, RDV_ABSENT and NO_PROGRESS (R25, R28, R240). -/
def cRDV_MISMATCH : Byte := 0x50#8
def cRDV_ABSENT : Byte := 0x51#8
def cNO_PROGRESS : Byte := 0x52#8
def cILLSTEP : Byte := 0x40#8

/-- The expected and done masks of the job on a core, zero without a job. -/
def Core.expect (c : Core) : Byte := (c.job.map fun j => j.expect).getD 0#8
def Core.done (c : Core) : Byte := (c.job.map fun j => j.done).getD 0#8

/-- What a stream's arrival at id with mask m is: a misuse cause of R25, or none. Where both causes apply, which one is raised is the
model's choice: RDV_MISMATCH (DESIGN CHOICE, log 87). -/
def Core.rdvMisuse (c : Core) (stream : Nat) (id : BitVec 2) (m : Byte) : Option Byte :=
  let r := vget c.rdv id.toNat {}
  if !maskHas m stream || (r.mask != 0#8 && r.mask != m) then some cRDV_MISMATCH
  else if m &&& ~~~c.expect != 0#8 || m &&& c.done != 0#8 then some cRDV_ABSENT
  else none

/-- Record the arrival of a stream (R24). -/
def Core.arrive (c : Core) (stream : Nat) (id : BitVec 2) (m : Byte) : Core :=
  let r := vget c.rdv id.toNat {}
  { c with rdv := vset c.rdv id.toNat ⟨m, r.arrived ||| maskOf stream⟩ }

/-- A stream reaches its end (R26): its done bit; a rendezvous others wait at that names it faults RDV_ABSENT (R25). -/
def State.reachEnd (s : State) (k stream : Nat) (pc : Word) : State :=
  let s := s.modCore k fun c => { c with job := c.job.map fun j => { j with done := j.done ||| maskOf stream } }
  if (upto 4).any fun i =>
      let r := vget (s.core k).rdv i {}
      r.mask != 0#8 && maskHas r.mask stream && !maskHas r.arrived stream
  then s.jobFaultFree k cRDV_ABSENT stream pc else s

/-! ### Writes on their way -/

/-- Die d sends a write, update or row to its home h: over the hedgerow it counts in the open epoch (R66). -/
def State.countSent (s : State) (d h : Nat) : State :=
  if h = d then s else s.modDie d fun x => { x with sent := vset x.sent h (vget x.sent h 0 + 1) }

/-- Put a write on its way to its home with a stamp of the issuing die's clock (R62, R66). -/
def State.emit (s : State) (by_ : Writer) (cmd : Option Nat) (loc : Nat) (data : List (Byte × Byte)) : State :=
  let d := coreDie by_.core
  let h := homeDie loc
  let w : Write := ⟨s.next, by_, cmd, d, h, loc, data, (s.die d).vclk, false⟩
  { s with writes := s.writes ++ [w], next := s.next + 1 }.countSent d h

/-- Bytes that write all their bits. -/
def wholeBytes (bs : List Byte) : List (Byte × Byte) := bs.map fun b => (b, 0xFF#8)

/-- A write on its way is not visible at a scope (R63): at stream scope it is visible once issued; its home accepts it by applying it
(DESIGN CHOICE, log 86), and with that it is visible at every wider scope. -/
def scopeHides (sc : Scope) : Bool := sc != .stream

/-- Byte a as block stream q of core k reads it: its own latest write on its way, else memory (R125, S10). -/
def State.ownByte (s : State) (by_ : Writer) (a : Nat) : Byte :=
  s.writes.foldl (fun v w =>
    if w.by_ == by_ && w.loc ≤ a && a < w.loc + w.data.length then
      match w.data[a - w.loc]? with
      | some (x, m) => (v &&& ~~~m) ||| (x &&& m)
      | none => v
    else v) (Memory.read s.mem a)

end Sys2Proof.Machine
end

