-- ==== Sys2Proof/Machine/Flags.lean ====
section
/-! DEFINITION. The sticky flags of the engines (R89): one byte each for XL, M, V and XS, set by arithmetic and cleared only by a
write of 1 (R98). The sequencer keeps no flags (R96, R108). -/

namespace Sys2Proof.Machine

/-- A rounded result differs from the exact one, or a value saturated. -/
def fNX : Byte := 0x01#8
/-- Non-zero, below the smallest normal, inexact. -/
def fUF : Byte := 0x02#8
/-- Overflow, or an infinity converted into E4M3 or FP4. -/
def fOF : Byte := 0x04#8
/-- A finite non-zero value divided by zero. -/
def fDZ : Byte := 0x08#8
/-- Invalid operation. -/
def fIV : Byte := 0x10#8
/-- An integer result or conversion saturated. -/
def fSAT : Byte := 0x20#8
/-- Argument outside the supported range. -/
def fRG : Byte := 0x40#8

/-- Index of an engine's flag register and generator: XL 0, M 1, V 2, XS 3 (R84, R96). -/
inductive Unit4 where
  | xl | m | v | xs
  deriving DecidableEq, Repr

/-- The register's index. -/
def Unit4.ix : Unit4 → Nat
  | .xl => 0
  | .m => 1
  | .v => 2
  | .xs => 3

/-- Flags of register i set; bit 7 is reserved. They are kept through a clear of the same clk (R89). -/
def Sys.setFlags (y : Sys) (i : Nat) (f : Byte) : Sys :=
  { y with
    flg := vset y.flg i (vget y.flg i 0#8 ||| (f &&& 0x7F#8))
    flgNew := vset y.flgNew i (vget y.flgNew i 0#8 ||| (f &&& 0x7F#8)) }

/-- The flags of register i written as 1 cleared (R98), but for those set in the same clk: the clear applies first (R89). -/
def Sys.clearFlags (y : Sys) (i : Nat) (m : Byte) : Sys :=
  { y with flg := vset y.flg i (vget y.flg i 0#8 &&& (~~~m ||| vget y.flgNew i 0#8)) }

/-- Set flags of an engine. -/
def State.setFlags (s : State) (k : Nat) (u : Unit4) (f : Byte) : State := s.modCore k fun c => { c with sys := c.sys.setFlags u.ix f }

/-- Clear the flags written as 1. -/
def State.clearFlags (s : State) (k i : Nat) (m : Byte) : State := s.modCore k fun c => { c with sys := c.sys.clearFlags i m }

end Sys2Proof.Machine
end

