-- ==== Sys2Proof/Machine/Operands.lean ====
section
/-! DEFINITION. Operand forms: sign and zero extension (R7), the immediate and register forms of the sequencer words (R104), the
address word of R39 with its checks, and the location of a sequencer access (R124). -/

namespace Sys2Proof.Machine

/-- sext of an n-bit field to 64 bits (R7). -/
def sext {n : Nat} (v : BitVec n) : Dword := v.signExtend 64
/-- zext of an n-bit field to 64 bits (R7). -/
def zext {n : Nat} (v : BitVec n) : Dword := v.setWidth 64

/-- What an address word names (R39). -/
inductive Place where
  | virt (va : Nat)
  | own (off : Nat)
  | window (core off : Nat)
  | stage (up : Bool) (off : Nat)
  | acc (off : Nat)
  deriving DecidableEq, Repr

/-- The check of an address word for an access of n bytes (R39): the space code, the must-be-zero bits, the end of the space. -/
def placeOf (a : Dword) (n : Nat) : Except Byte Place :=
  let l := (a.extractLsb' 0 48).toNat
  let off := l % 0x200000
  if 5 ≤ (a.extractLsb' 60 4).toNat then .error cADDR_SPACE
  else if a.extractLsb' 48 12 != 0#12 then .error cADDR_RANGE
  else match a.extractLsb' 60 4 with
    | 0#4 => if l + n ≤ 0x1000000000000 then .ok (.virt l) else .error cADDR_RANGE
    | 1#4 => if l < 0x200000 && off + n ≤ 0x200000 then .ok (.own off) else .error cADDR_RANGE
    | 2#4 =>
      let c := l / 0x200000
      if l < 0x20000000 && c < 192 && off + n ≤ 0x200000 then .ok (.window c off) else .error cADDR_RANGE
    | 3#4 => if l < 0x400000 && off + n ≤ 0x200000 then .ok (.stage (l / 0x200000 == 1) off) else .error cADDR_RANGE
    | _ => if l < 0x40000 && l + n ≤ 0x40000 then .ok (.acc l) else .error cADDR_RANGE

/-- The owner code of the function that runs on a core; 0 without a job. -/
def Core.funcOf (c : Core) : Byte := (c.job.map fun j => j.func).getD 0#8

/-- A die-window core is in the in-service cores of the function's partition on the die (R47, R246). -/
def State.windowOk (s : State) (k c : Nat) : Bool := (s.partCores (s.core k).funcOf (coreDie k)).contains (192 * coreDie k + c)

/-- The location of a sequencer access of n bytes at address word a (R124), or the cause of its trap; translation may fill the
TLB. -/
def State.seqLocate (s : State) (a : Dword) (n : Nat) (acc : Access) : Except Byte Nat × State :=
  let k := s.cur.k.val
  match placeOf a n with
  | .error e => (.error e, s)
  | .ok (.stage _ _) => (.error cADDR_SPACE, s)
  | .ok (.acc _) => (.error cADDR_SPACE, s)
  | .ok (.virt va) =>
    match s.translate k s.me.funcOf va acc true with
    | (.error e, t) =>
      (.error e, if e == cOWNER then t.ownerEvent s.me.funcOf (s.coord k) a (s.walkPa s.me.funcOf va) else t)
    | (.ok pa, t) => if pa % n = 0 then (.ok pa, t) else (.error cMISALIGN, t)
  | .ok (.own off) => if off % n = 0 then (.ok (scratchLoc k + off), s) else (.error cMISALIGN, s)
  | .ok (.window c off) =>
    if off % n != 0 then (.error cMISALIGN, s)
    else if s.windowOk k c then (.ok (scratchLoc (192 * coreDie k + c) + off), s)
    else (.error cWINDOW, s)

/-- The address word of an M-form operand (R104, R124). -/
def State.mAddr (s : State) (a : BitVec 5) (o : BitVec 16) : Dword := s.g a + sext o

/-- The truth of a condition between two values (R120). -/
def condHolds (c : Cond) (x y : Dword) : Bool :=
  match c with
  | .eq => x == y
  | .ne => x != y
  | .lt => x.slt y
  | .ge => !(x.slt y)
  | .ltu => x.ult y
  | .geu => !(x.ult y)
  | .tst => x &&& y != 0#64

end Sys2Proof.Machine
end

