-- ==== Sys2Proof/Machine/Wait.lean ====
section
/-! DEFINITION. Waits of block streams: the condition of a tag wait and its effects (R134, R135), the answer of a plan-engine wait
(R426), the pass that completes the waits whose conditions hold, lowest block stream first (R15), and what the start of a clk does to
a core. -/

namespace Sys2Proof.Machine

/-- Lowest index of a bit set in x, from bit 64 - n on. -/
def lowestBit (x : Dword) : Nat → Nat
  | 0 => 64
  | n + 1 => if x.getLsbD (63 - n) then 63 - n else lowestBit x n

/-- A tag wait on the tags it sees whose condition holds: the value for rd and the bits that it clears (R134); none while it does not
hold. -/
def tagWait (i : Instr) (tags m : Dword) : Option (BitVec 5 × Dword × Dword) :=
  match i with
  | .twany d _ c => if tags &&& m != 0#64 || m == 0#64 then some (d, tags &&& m, if c then tags &&& m else 0#64) else none
  | .twall d _ c => if tags &&& m == m then some (d, tags &&& m, if c then tags &&& m else 0#64) else none
  | .tffr d _ =>
    if m == 0#64 then some (d, 64#64, 0#64)
    else if tags &&& m != 0#64 then
      let i := lowestBit (tags &&& m) 64
      some (d, BitVec.ofNat 64 i, 1#64 <<< i)
    else none
  | _ => none

/-- A tag wait that clears what it finds. -/
def clearsTags (i : Instr) : Bool :=
  match i with
  | .twany _ _ c => c
  | .twall _ _ c => c
  | .tffr _ _ => true
  | _ => false

/-- The tags that a wait sees: a clearing one not those that another has cleared in this clk, which a completion of the same clk has left
set (R23, R135, log 39). -/
def Sys.seenTags (y : Sys) (i : Instr) : Dword := if clearsTags i then y.tags &&& ~~~y.tagsHid else y.tags

/-- Bits of TAGS cleared, but for those that a completion sets in the same clk (R23). -/
def Sys.clearTags (y : Sys) (m : Dword) : Sys := { y with tags := y.tags &&& (~~~m ||| y.tagsNew) }

/-- A block stream whose wait is over: ready, no wait word (R94, R157). -/
def Block.resume (b : Block) : Block := { b with st := .ready, wword := 0#32, wmask := 0#64, answer := none }

/-- Complete a tag wait of block stream q of a core if its condition holds. -/
def Core.tryTag (c : Core) (q : Fin 4) (i : Instr) (m : Dword) : Option Core :=
  match tagWait i (c.sys.seenTags i) m with
  | none => none
  | some (d, v, x) =>
    some { c with
      sys := { c.sys.clearTags x with tagsHid := c.sys.tagsHid ||| (x &&& c.sys.tagsNew) }
      q := c.q.set q.val (c.q[q.val].setReg d v).step.resume }

/-- The destination register of a plan word, for its answer (R426). -/
def planDst (i : Instr) : Option (BitVec 5) :=
  match i with
  | .qcat d _ _ => some d
  | .qstr d _ _ => some d
  | .qstw d _ _ _ => some d
  | .qpin d _ => some d
  | .qunpin d _ => some d
  | .qevict d _ => some d
  | .qsub d _ _ => some d
  | .qrun d _ => some d
  | .qwait d _ => some d
  | .qexpl d _ _ => some d
  | .qhint d _ _ => some d
  | .qinv d _ _ => some d
  | .qdrop d _ => some d
  | .qtld d _ => some d
  | .qtdrop d _ => some d
  | _ => none

/-- Block stream q of core k has a store on its way (R131). -/
def State.storing (s : State) (k : Nat) (q : Fin 4) : Bool := s.writes.any fun w => w.by_ == ⟨k, q.val⟩

/-- A waiting block stream q: complete its wait if it can (R15, R134, R426). A rendezvous is left in an event of its own. -/
def Core.wakeQ (c : Core) (q : Fin 4) : Core :=
  let b := c.q[q.val]
  if b.st != .waiting || b.resol then c
  else match decodeSeq b.wword with
    | .ok i =>
      match b.answer, planDst i with
      | some v, some d => { c with q := c.q.set q.val (b.setReg d v).step.resume }
      | _, _ => (c.tryTag q i b.wmask).getD c
    | .error _ => c

/-- Complete every wait whose condition holds, lowest block stream first (R15). While a soft pre-emption is pending the conditions still
take effect (R156). -/
def Core.wake (c : Core) : Core := (((c.wakeQ 0).wakeQ 1).wakeQ 2).wakeQ 3

/-- Complete the waits of core k. -/
def State.wake (s : State) (k : Nat) : State := s.modCore k Core.wake

/-- A FIFO at the start of a clk (R20). -/
def Fifo.newClk (f : Fifo) : Fifo := { f with shown := 0, freed := 0 }

/-- The matrix engine at the start of clk n: what it has acquired in the last one is at least that old (R274). -/
def Matrix.newClk (x : Matrix) (n : Nat) : Matrix := if x.synced then { x with synced := false, sync := n - 1 } else x

/-- A core at the start of clk n: of the streams whose conditions were met in the last one the lowest takes an idle pipeline (R15), what
was set, shown or freed in it counts (R20, R23, R89), and the waits are evaluated again (R135). -/
def Core.newClk (c : Core) (n : Nat) : Core :=
  let c := c.settle
  { c with
    mx := c.mx.newClk n
    fifo := c.fifo.map Fifo.newClk
    sys := { c.sys with tagsNew := 0#64, tagsHid := 0#64, flgNew := Vector.replicate 4 0#8 } }.wake

end Sys2Proof.Machine
end

