-- ==== Sys2Proof/Machine/Engine.lean ====
section
/-! DEFINITION. What the engine streams XL, M, V and XS share: token fields (R16 to R19), outstanding words and the program order
of their tokens, bank and tile locks (R59, R269), notify (R26) and rendezvous (R24), ILLSTEP (R165, R300, R356). -/

namespace Sys2Proof.Machine

/-- The engine stream of a stream name; XL for the block streams, which have none. -/
def Core.eng (c : Core) (st : Stream) : Eng :=
  match st with
  | .m => c.m
  | .v => c.v
  | .xs => c.xs
  | .xl => c.xl
  | .q0 => c.xl
  | .q1 => c.xl
  | .q2 => c.xl
  | .q3 => c.xl

/-- The core with an engine stream changed; nothing for a block stream. -/
def Core.modEng (c : Core) (st : Stream) (f : Eng → Eng) : Core :=
  match st with
  | .m => { c with m := f c.m }
  | .v => { c with v := f c.v }
  | .xs => { c with xs := f c.xs }
  | .xl => { c with xl := f c.xl }
  | .q0 => c
  | .q1 => c
  | .q2 => c
  | .q3 => c

/-- A core may issue: it runs a job that has not faulted and is not being pre-empted (R151, R153). -/
def Core.live (c : Core) : Bool := c.job.isSome && c.fault.isNone && c.preempt.isNone

/-- The mask-bit index of a stream (R13). -/
def streamIx (st : Stream) : Nat :=
  match st with
  | .q0 => 0
  | .q1 => 1
  | .q2 => 2
  | .q3 => 3
  | .xl => 4
  | .m => 5
  | .v => 6
  | .xs => 7

/-- The FIFO that a pop field of a stream's word names (R16, R17), by its index in the order of `Core.fifo`. -/
def popFifo (st : Stream) (c : BitVec 2) : Option Nat :=
  match st, c.toNat with
  | .xl, 1 => some 2
  | .xl, 2 => some 3
  | .m, 1 => some 0
  | .m, 2 => some 5
  | .m, 3 => some 8
  | .v, 1 => some 1
  | .v, 2 => some 4
  | .v, 3 => some 9
  | .xs, 1 => some 6
  | .xs, 2 => some 7
  | _, _ => none

/-- The FIFO that a push field of a stream's word names (R16, R17). -/
def pushFifo (st : Stream) (c : BitVec 2) : Option Nat :=
  match st, c.toNat with
  | .xl, 1 => some 0
  | .xl, 2 => some 1
  | .m, 1 => some 2
  | .m, 2 => some 4
  | .m, 3 => some 6
  | .v, 1 => some 3
  | .v, 2 => some 5
  | .v, 3 => some 7
  | .xs, 1 => some 8
  | .xs, 2 => some 9
  | _, _ => none

/-- A pop can be made: the FIFO holds a token that was visible before this clk (R18, R20). -/
def Core.canPop (c : Core) (f : Option Nat) : Bool :=
  match f with
  | none => true
  | some i => (vget c.fifo i {}).shown < (vget c.fifo i {}).count

/-- A reservation can be made: visible and reserved entries, with those that were freed in this clk, are below 8 (R19, R20). -/
def Core.canPush (c : Core) (f : Option Nat) : Bool :=
  match f with
  | none => true
  | some i => (vget c.fifo i {}).count + (vget c.fifo i {}).reserved + (vget c.fifo i {}).freed < 8

/-- The token fields of a word can be served (R18, R19). -/
def Core.tokensOk (c : Core) (st : Stream) (t : Tok) : Bool := c.canPop (popFifo st t.pop) && c.canPush (pushFifo st t.push)

/-- M acquires what other streams have written (R21, R24, R274), or writes itself. -/
def Core.syncM (c : Core) : Core := { c with mx := { c.mx with synced := true } }

/-- Pop and reserve (R18, R19). -/
def Core.takeTokens (c : Core) (st : Stream) (t : Tok) : Core :=
  let c := if st = .m && t.pop != 0#2 then c.syncM else c
  let f := match popFifo st t.pop with
    | none => c.fifo
    | some i => let x := vget c.fifo i {}; vset c.fifo i { x with count := x.count - 1, freed := x.freed + 1 }
  let f := match pushFifo st t.push with
    | none => f
    | some i => let x := vget f i {}; vset f i { x with reserved := x.reserved + 1 }
  { c with fifo := f }

/-- A reserved token becomes visible (R19). -/
def Core.showToken (c : Core) (f : Option Nat) : Core :=
  match f with
  | none => c
  | some i =>
    let x := vget c.fifo i {}
    { c with fifo := vset c.fifo i { x with count := x.count + 1, reserved := x.reserved - 1, shown := x.shown + 1 } }

/-- An outstanding word of stream st makes writes (R19): a transfer command other than `xcfg` and `xrcl`; an M or V word that holds a bank or tile exclusively or
writes through an output port. -/
def Outst.writes (o : Outst) (st : Stream) : Bool :=
  ((st == .xl || st == .xs) && !o.quiet) || o.wr != 0#32 || o.twr != 0#18 || o.port.isSome

/-- The token of word o of stream st stays hidden behind an earlier outstanding word e: one whose token goes to the same FIFO and is not
visible (R19); an incomplete one whose writes the token releases (R21, R64, log 88). A word that completes by itself, such as `mgo`,
holds back its own FIFO alone (R302). -/
def Outst.hides (e : Outst) (st : Stream) (o : Outst) : Bool :=
  (e.push.isSome && e.push == o.push) || (!e.done && !e.own && e.writes st)

/-- Go through a stream's outstanding words in program order, `left` of them left before: a complete word's token becomes visible unless
an earlier word hides it, or an earlier one of `others` has its token still to come in the same FIFO; words that are complete and show
nothing more are dropped (R19, R21, R208). -/
def Core.drainList (c : Core) (st : Stream) (others left : List Outst) : List Outst → Core × List Outst
  | [] => (c, left)
  | o :: t =>
    if o.done && (o.push.isNone || !((left.any fun e => e.hides st o) || others.any fun e => e.id < o.id && e.push == o.push)) then
      Core.drainList (c.showToken o.push) st others left t
    else Core.drainList c st others (left ++ [o]) t

/-- Drain a stream; the words of M's stream and those of its nest share M's FIFOs. -/
def Core.drain (c : Core) (st : Stream) : Core :=
  let (c', o) := c.drainList st (if st = .m then c.mx.outst else []) [] (c.eng st).outst
  c'.modEng st fun e => { e with outst := o }

/-- A word joins the outstanding words of its stream under the core's next number. -/
def Core.begin_ (c : Core) (st : Stream) (o : Outst) : Core :=
  ({ c with next := c.next + 1 }).modEng st fun e => { e with outst := e.outst ++ [{ o with id := c.next }] }

/-- The flag register of an engine stream (R96): XLFLG, MFLG, VFLG, XSFLG. -/
def flagIx (st : Stream) : Nat :=
  match st with
  | .m => 1
  | .v => 2
  | .xs => 3
  | .xl => 0
  | .q0 => 0
  | .q1 => 0
  | .q2 => 0
  | .q3 => 0

/-- The flags that the incomplete words with a number set (R357). -/
def flagsAt (os : List Outst) (id : Nat) : Byte :=
  os.foldl (fun f o => if o.id = id && !o.done then f ||| o.fl else f) 0#8

/-- The outstanding word with a number is complete: its locks end, its flags are set, its token follows in program order. -/
def Core.finish (c : Core) (st : Stream) (id : Nat) : Core :=
  let f := flagsAt (c.eng st).outst id
  let c := if f = 0#8 then c else { c with sys := c.sys.setFlags (flagIx st) f }
  (c.modEng st fun e => { e with outst := e.outst.map fun o => if o.id = id then { o with done := true } else o }).drain st

/-! ### Words taken back -/

/-- Tokens of an abandoned word: its pop comes back, its reservation ends. -/
def Core.untake (c : Core) (pop push : Option Nat) : Core :=
  let f := match pop with
    | none => c.fifo
    | some i => let x := vget c.fifo i {}; vset c.fifo i { x with count := x.count + 1 }
  let f := match push with
    | none => f
    | some i => let x := vget f i {}; vset f i { x with reserved := x.reserved - 1 }
  { c with fifo := f }

/-- Memory, tiles and orthogonal accumulators of core k as a word had found them (R286, R293, R335). -/
def State.undoData (s : State) (k : Nat) (u : Undo) : State :=
  let mem := Memory.restore s.mem u.mem
  { s with mem := mem }.modCore k fun c =>
    { c with mx := { c.mx with
        side := u.tiles.foldl (fun v (e : Nat × TileSide × TreeRec) => vset v e.1 e.2.1) c.mx.side
        tree := u.tiles.foldl (fun v (e : Nat × TileSide × TreeRec) => vset v e.1 e.2.2) c.mx.tree
        oa := u.oas.foldl (fun v (e : Nat × OaReg) => vset v e.1 e.2) c.mx.oa } }

/-- Where a word of M stood: M's stream, the nest, the shadow table, the generator (R293). -/
def Core.undoPlace (c : Core) (u : Undo) : Core :=
  let x := c.mx
  let x := match u.nest with
    | none => x
    | some p => { x with phase := p.phase, slot := p.slot, c := p.c, n := p.n, full := p.full, from_ := p.from_ }
  { c with
    m := { c.m with pc := u.pc.getD c.m.pc }
    mx := { x with shadow := u.shadow.getD x.shadow }
    sys := { c.sys with gen := match u.gen with
      | none => c.sys.gen
      | some g => vset c.sys.gen 1 g } }

/-- Registers, masks and cursors of V as a word had found them (R361). -/
def Core.undoVec (c : Core) (u : Undo) : Core :=
  let x := match u.vec with
    | none => c.vx
    | some r => { c.vx with regs := r.1, masks := r.2 }
  { c with
    vx := match u.shape with
      | none => x
      | some w => if x.shape = w.2 then { x with shape := w.1 } else x
    sys := { c.sys with gen := match u.gen with
      | none => c.sys.gen
      | some g => vset c.sys.gen 2 g } }

/-- The words in progress that come back when they are abandoned, the youngest first. -/
def open_ (os : List Outst) : List Outst := (os.filter fun o => !o.done && !o.own).reverse

/-- M abandons its words in progress: it stands at the first of them as if none had issued (R293). -/
def State.abandonM (s : State) (k : Nat) : State :=
  let c := s.core k
  let s := (open_ c.mx.outst ++ open_ c.m.outst).foldl (fun s o =>
    (s.undoData k o.undo).modCore k fun c => (c.undoPlace o.undo).untake o.undo.pop o.push) s
  s.modCore k fun c => { c with
    m := { c.m with outst := c.m.outst.filter fun o => o.done || o.own }
    mx := { c.mx with outst := c.mx.outst.filter fun o => o.done || o.own } }

/-- V abandons its words in progress: none of them has written a register (R361). -/
def State.abandonV (s : State) (k : Nat) : State :=
  s.modCore k fun c => (open_ c.v.outst).foldl (fun c o => c.undoVec o.undo) c

/-! ### Locks -/

/-- Banks and tiles that the words and commands of a core hold: shared and exclusive banks, shared and exclusive tiles. -/
structure Locks where
  rd : BitVec 32 := 0#32
  wr : BitVec 32 := 0#32
  trd : BitVec 18 := 0#18
  twr : BitVec 18 := 0#18
  deriving DecidableEq, Repr

/-- The locks of incomplete words. -/
def locksOf (os : List Outst) : Locks :=
  os.foldl (fun l o => if o.done then l else ⟨l.rd ||| o.rd, l.wr ||| o.wr, l.trd ||| o.trd, l.twr ||| o.twr⟩) {}

/-- All locks held on a core (R59, R269). -/
def Core.locks (c : Core) : Locks :=
  let a := locksOf (c.m.outst ++ c.v.outst ++ c.mx.outst)
  c.x.cmds.foldl (fun l o => ⟨l.rd ||| o.rd, l.wr ||| o.wr, l.trd ||| o.trd, l.twr⟩) a

/-- The locks asked for can be granted all at once: a write takes each bank exclusively, a read shares it (R59). -/
def Core.grantable (c : Core) (n : Locks) : Bool :=
  let h := c.locks
  n.rd &&& h.wr == 0#32 && n.wr &&& (h.rd ||| h.wr) == 0#32 && n.trd &&& h.twr == 0#18 && n.twr &&& (h.trd ||| h.twr) == 0#18

/-- Stream i of mask order. -/
def streamOf (i : Nat) : Stream :=
  match i with
  | 0 => .q0
  | 1 => .q1
  | 2 => .q2
  | 3 => .q3
  | 4 => .xl
  | 5 => .m
  | 6 => .v
  | _ => .xs

/-- To the next word of an engine stream. -/
def Core.stepEng (c : Core) (st : Stream) : Core := c.modEng st fun e => { e with pc := e.pc + 1#32 }

/-- A job fault of the engine word that acts, with information. -/
def State.engFault (s : State) (cause : Byte) (info : Dword) : State :=
  s.jobFault s.cur.k.val cause info (streamIx s.cur.st) (s.me.eng s.cur.st).pc

/-- A job fault of the engine word that acts, without information of the spec's. -/
def State.engFaultFree (s : State) (cause : Byte) : State :=
  s.jobFaultFree s.cur.k.val cause (streamIx s.cur.st) (s.me.eng s.cur.st).pc

/-- What an engine stream waits for may have come: at a notify with no other word outstanding it ends, at a rendezvous with no
other word outstanding it arrives (R24, R26). -/
def State.progressEng (s : State) (k : Nat) (st : Stream) : State :=
  let c := s.core k
  let e := c.eng st
  match e.st, e.outst with
  | .notify, [o] =>
    (s.setCore k ((c.finish st o.id).modEng st fun e => { e with st := .ended })).reachEnd k (streamIx st) e.pc
  | .rendezvous id m, [_] =>
    if maskHas (vget c.rdv id.toNat {}).arrived (streamIx st) then s
    else match c.rdvMisuse (streamIx st) id m with
      | some x => s.jobFaultFree k x (streamIx st) e.pc
      | none => s.setCore k (c.arrive (streamIx st) id m)
  | _, _ => s

/-- Progress of all four engine streams of a core. -/
def State.progress (s : State) (k : Nat) : State :=
  (((s.progressEng k .xl).progressEng k .m).progressEng k .v).progressEng k .xs

/-- A command of a transfer stream waits on resolution: the stream waits before a push (R181). -/
def Core.unresolved (c : Core) (st : Stream) : Bool :=
  match st with
  | .xl => c.x.cmds.any fun e => e.src == .xl && e.st == .resolution
  | .xs => c.x.cmds.any fun e => e.src == .xs && e.st == .resolution
  | _ => false

/-- A token-only word (R208, R302, R368): pops and reserves, complete at issue; stalls while its tokens cannot be served (R18, R19) or
its push waits for a resolution (R181). -/
def State.tokenWord (s : State) (t : Tok) : State :=
  let st := s.cur.st
  if s.me.tokensOk st t && !(t.push != 0#2 && s.me.unresolved st) then
    s.modCore s.cur.k.val fun c =>
      (((c.takeTokens st t).begin_ st { id := 0, push := pushFifo st t.push, done := true }).drain st).stepEng st
  else s

/-- A notify (R26, R211, R307, R373): issues when its tokens can be served, and takes effect when every earlier word of the stream is
complete. -/
def State.notifyWord (s : State) (t : Tok) : State :=
  let st := s.cur.st
  if s.me.tokensOk st t then
    (s.modCore s.cur.k.val fun c =>
      (((c.takeTokens st t).begin_ st { id := 0, push := pushFifo st t.push, own := true })).modEng st fun e => { e with st := .notify }).progressEng
        s.cur.k.val st
  else s

/-- A rendezvous word of an engine stream (R24, R210, R306, R372): the pop is taken and the push reserved at issue; the stream arrives
once every earlier word is complete. -/
def State.rdvWord (s : State) (id : BitVec 2) (m : Byte) (t : Tok) : State :=
  let st := s.cur.st
  if s.me.tokensOk st t then
    (s.modCore s.cur.k.val fun c =>
      (((c.takeTokens st t).begin_ st { id := 0, push := pushFifo st t.push, own := true })).modEng st fun e => { e with st := .rendezvous id m }).progressEng
        s.cur.k.val st
  else s

/-- V's input ports without the operands they have fetched ahead (R350). -/
def Vec.dropAhead (x : Vec) : Vec := { x with ports := x.ports.map fun p => p.map fun y => { y with buf := [] } }

/-- A stream that has left a rendezvous acquires: V drops its run-ahead (R350), M reads the die window anew (R274). -/
def Core.dropAhead (c : Core) (st : Stream) : Core :=
  if st = .v then { c with vx := c.vx.dropAhead } else if st = .m then c.syncM else c

/-- All participants of a rendezvous leave (R24): block streams become ready past their `rdv`, engine streams run on past their
word with its token visible, the id is free. -/
def State.leaveRdv (s : State) (k : Nat) (id : Nat) : State :=
  let r := vget (s.core k).rdv id {}
  let free (c : Core) := { c with rdv := vset c.rdv id {} }
  let blockLeaves (c : Core) (q : Fin 4) :=
    if maskHas r.mask q.val then { c with q := c.q.set q.val c.q[q.val].step.resume } else c
  let engLeaves (c : Core) (st : Stream) :=
    if maskHas r.mask (streamIx st) then
      match (c.eng st).outst with
      | o :: _ => (((c.finish st o.id).modEng st fun e => { e with st := .running }).stepEng st).dropAhead st
      | [] => (c.modEng st fun e => { e with st := .running }).stepEng st
    else c
  (s.modCore k fun c =>
    (engLeaves (engLeaves (engLeaves (engLeaves
      (blockLeaves (blockLeaves (blockLeaves (blockLeaves (free c) 0) 1) 2) 3) .xl) .m) .v) .xs))

/-- R24: the leaving of a rendezvous all of whose participants have arrived; nothing while one is missing. -/
def execRendezvousLeave (k : CoreIx) (id : BitVec 2) (s : State) : Host.Outcome State Fault Refusal :=
  let r := vget (s.core k.val).rdv id.toNat {}
  if r.mask != 0#8 && r.mask == r.arrived then .next (s.leaveRdv k.val id.toNat) else .next s

/-- A word of the acting stream that is found at fault must wait: in M for the go bit to clear (R276), in V for every earlier word to be
complete (R358). -/
def State.faultWaits (s : State) : Bool :=
  match s.cur.st with
  | .m => s.me.mx.go && !s.cur.nest
  | .v => s.me.v.outst.any fun o => !o.done
  | _ => false

/-- ILLSTEP of the acting engine stream, which halts before the word (R165, R300, R356). -/
def State.illStep (s : State) : State := if s.faultWaits then s else s.engFaultFree cILLSTEP

/-- R165, R300, R356: an unassigned word of an engine stream halts it and faults the job. -/
def execIllstep (_ : Word) (s : State) : Host.Outcome State Fault Refusal := .next s.illStep

/-- R107: a fetch outside the section traps with the word address; R190, R300, R356: past the end of an engine's section it
faults ILLSTEP, on M at that fetch, whatever nest runs (R300), on V once every earlier word is complete (R358). -/
def execFetchRangeError (s : State) : Host.Outcome State Fault Refusal :=
  match s.cur.st.opMap with
  | .seq => .next (s.trap cILLEGAL 0x01#8 s.blk.pc)
  | .xfer => .next s.illStep
  | .matrix => .next (s.engFaultFree cILLSTEP)
  | .vector => .next s.illStep

end Sys2Proof.Machine
end

