-- ==== Sys2Proof/Machine/Num.lean ====
section
/-! DEFINITION. Number formats and rounding (R69 to R91): exact values, decoding of elements, the one rounding of R80 with its
overflow, saturation and special-value rules and its flags (R89), exact arithmetic, the stochastic generator (R84). -/

namespace Sys2Proof.Machine

/-- An exact value. A finite one is ±m × 2^e, or with `more` a value strictly between ±m × 2^e and ±(m + 1) × 2^e; values with
`more` come only from quotients and roots, carry at least 128 bits in m and have an e of at most −20. -/
inductive Val where
  | nan
  | inf (neg : Bool)
  | fin (neg : Bool) (m : Nat) (e : Int) (more : Bool)
  deriving DecidableEq, Repr

/-- A format code of R69. -/
abbrev Fmt := BitVec 4

def fFP32 : Fmt := 0x0#4
def fBF16 : Fmt := 0x1#4
def fFP16 : Fmt := 0x2#4
def fE4M3 : Fmt := 0x3#4
def fE5M2 : Fmt := 0x4#4
def fFP4 : Fmt := 0x5#4
def fINT8 : Fmt := 0x6#4
def fINT4 : Fmt := 0x7#4
def fINT32 : Fmt := 0x8#4
def fINT64 : Fmt := 0x9#4
def fRS24 : Fmt := 0xA#4
def fE8M0 : Fmt := 0xB#4
def fRAW : Fmt := 0xF#4

/-- A reserved format code (R69). -/
def fmtReserved (f : Fmt) : Bool := f == 0xC#4 || f == 0xD#4 || f == 0xE#4

/-- Element size in half bytes (R69). -/
def nibbles (f : Fmt) : Nat :=
  match f.toNat with
  | 0 => 8
  | 1 => 4
  | 2 => 4
  | 5 => 1
  | 7 => 1
  | 8 => 8
  | 9 => 16
  | 10 => 8
  | _ => 2

/-- Parameters of a floating-point format (R72): exponent and fraction widths, bias, whether it has infinities, the largest
finite magnitude code, the canonical NaN if it has one (R73). -/
structure FP where
  we : Nat
  wm : Nat
  bias : Nat
  hasInf : Bool
  maxCode : Nat
  nan : Option Nat
  deriving DecidableEq, Repr

/-- The floating-point formats (R72, R73). -/
def fpOf (f : Fmt) : Option FP :=
  match f.toNat with
  | 0 => some ⟨8, 23, 127, true, 0x7F7FFFFF, some 0x7FC00000⟩
  | 1 => some ⟨8, 7, 127, true, 0x7F7F, some 0x7FC0⟩
  | 2 => some ⟨5, 10, 15, true, 0x7BFF, some 0x7E00⟩
  | 3 => some ⟨4, 3, 7, false, 0x7E, some 0x7F⟩
  | 4 => some ⟨5, 2, 15, true, 0x7B, some 0x7E⟩
  | 5 => some ⟨2, 1, 1, false, 0x7, none⟩
  | _ => none

/-- Bits of an integer format (R75). -/
def intBits (f : Fmt) : Option Nat :=
  match f.toNat with
  | 6 => some 8
  | 7 => some 4
  | 8 => some 32
  | 9 => some 64
  | _ => none

/-- An integer as a value. -/
def Val.ofInt (i : Int) : Val := .fin (decide (i < 0)) i.natAbs 0 false

/-- Two's complement of n bits. -/
def toSigned (n v : Nat) : Int := if v % 2 ^ n < 2 ^ (n - 1) then (v % 2 ^ n : Nat) else ((v % 2 ^ n : Nat) : Int) - (2 ^ n : Nat)

/-- Two's complement pattern of n bits. -/
def ofSigned (n : Nat) (i : Int) : Nat := (i % (2 ^ n : Nat)).toNat

/-- The value of a floating-point pattern (R71, R72). -/
def decodeFP (p : FP) (b : Nat) : Val :=
  let neg := b / 2 ^ (p.we + p.wm) % 2 == 1
  let ex := b / 2 ^ p.wm % 2 ^ p.we
  let fr := b % 2 ^ p.wm
  let mag := b % 2 ^ (p.we + p.wm)
  if p.hasInf && ex == 2 ^ p.we - 1 then (if fr = 0 then .inf neg else .nan)
  else if p.nan.isSome && p.maxCode < mag then .nan
  else if ex = 0 then .fin neg fr (1 - (p.bias : Int) - p.wm) false
  else .fin neg (fr + 2 ^ p.wm) ((ex : Int) - p.bias - p.wm) false

/-- M = 251 × 253 × 255 (R76). -/
def rsM : Nat := 16193265

/-- The centred lift of an RS24 pattern (R76, R77). -/
def rsDecode (b : Nat) : Int :=
  let c255 := b / 65536 % 256 % 255
  let c253 := b / 256 % 256 % 253
  let c251 := b % 256 % 251
  let u := (c251 * 157 * 64515 + c253 * 63 * 64005 + c255 * 32 * 63503) % rsM
  if 8096632 < u then (u : Int) - rsM else u

/-- The encoding of an integer modulo M (R77, R78). -/
def rsEncode (v : Int) : Nat :=
  let u := (v % rsM).toNat
  u % 255 * 65536 + u % 253 * 256 + u % 251

/-- The value of an element of a format without block scale; raw and reserved codes have none and read as 0 here, their uses
fault before (R70). -/
def decodeElem (f : Fmt) (b : Nat) : Val :=
  match fpOf f with
  | some p => decodeFP p b
  | none =>
    match intBits f with
    | some n => .ofInt (toSigned n b)
    | none => if f == fRS24 then .ofInt (rsDecode b) else .ofInt 0

/-- v × 2^q, exactly. -/
def Val.scale (v : Val) (q : Int) : Val :=
  match v with
  | .nan => .nan
  | .inf s => .inf s
  | .fin s m e k => .fin s m (e + q) k

/-- Bits of a magnitude. -/
def bitLen (m : Nat) : Nat := if m = 0 then 0 else Nat.log2 m + 1

/-- m × 2^e (plus less than one unit with `more`) cut to a grid of 2^u: the count of whole grid steps, whether something is left,
whether at least half, whether more than half, and the 16-bit fraction of R83. -/
structure Cut where
  q : Nat
  inexact : Bool
  half : Bool
  above : Bool
  frac : Nat
  deriving DecidableEq, Repr

/-- Cutting to the grid (R80, R83). -/
def cut (m : Nat) (e u : Int) (more : Bool) : Cut :=
  if u ≤ e then ⟨m * 2 ^ (e - u).toNat, more, false, false, 0⟩
  else
    let d := (u - e).toNat
    let r := m % 2 ^ d
    let h := 2 ^ (d - 1)
    ⟨m / 2 ^ d, r != 0 || more, h ≤ r, h < r || (r == h && more), r * 65536 / 2 ^ d⟩

/-- Whether the magnitude is rounded up (R79, R83). -/
def Cut.up (c : Cut) (m : RMode) (neg : Bool) (draw : Nat) : Bool :=
  match m with
  | .rne => c.above || (c.half && c.q % 2 == 1)
  | .rtz => false
  | .rdn => c.inexact && neg
  | .rup => c.inexact && !neg
  | .sr => 65536 ≤ c.frac + draw

/-- Infinity on overflow (R81). -/
def overInf (m : RMode) (neg : Bool) : Bool :=
  match m with
  | .rne => true
  | .rtz => false
  | .rdn => neg
  | .rup => !neg
  | .sr => true

/-- Magnitude code of infinity. -/
def FP.infCode (p : FP) : Nat := (2 ^ p.we - 1) * 2 ^ p.wm

/-- A sign on a magnitude code. -/
def FP.sign (p : FP) (neg : Bool) (code : Nat) : Nat := if neg then code + 2 ^ (p.we + p.wm) else code

/-- rnd(x, fmt, m) for a floating-point format (R80, R81, R87): the pattern and the flags. -/
def roundFP (p : FP) (m : RMode) (draw : Nat) (v : Val) : Nat × Byte :=
  match v with
  | .nan => match p.nan with
    | some n => (n, 0#8)
    | none => (0, fIV)
  | .inf neg => if p.hasInf then (p.sign neg p.infCode, 0#8) else (p.sign neg p.maxCode, fOF ||| fNX)
  | .fin neg a e more =>
    if a = 0 && !more then (p.sign neg 0, 0#8)
    else
      let top := e + bitLen a - 1
      let emin : Int := 1 - (p.bias : Int)
      let u := (if top < emin then emin else top) - p.wm
      let c := cut a e u more
      let q := if c.up m neg draw then c.q + 1 else c.q
      -- code of q × 2^u: a carry into the next binade is the next code
      let code := if q < 2 ^ p.wm then q else (u + p.wm + p.bias - 1).toNat * 2 ^ p.wm + q
      let uf := if top < emin && c.inexact then fUF else 0#8
      if p.maxCode < code then
        (p.sign neg (if p.hasInf && overInf m neg then p.infCode else p.maxCode), fOF ||| fNX)
      else (p.sign neg code, (if c.inexact then fNX else 0#8) ||| uf)

/-- A finite value rounded to an integer under a mode, with NX (R80, R83, R88). -/
def roundInt (m : RMode) (draw : Nat) (neg : Bool) (a : Nat) (e : Int) (more : Bool) : Int × Byte :=
  let c := cut a e 0 more
  let q := if c.up m neg draw then c.q + 1 else c.q
  (if neg then -(q : Int) else q, if c.inexact then fNX else 0#8)

/-- Saturation to n bits (R75): SAT, and NX with it (R89, log 17). -/
def satInt (n : Nat) (i : Int) : Int × Byte :=
  if i < -(2 ^ (n - 1) : Nat) then (-(2 ^ (n - 1) : Nat), fSAT ||| fNX)
  else if ((2 ^ (n - 1) : Nat) : Int) ≤ i then ((2 ^ (n - 1) : Nat) - 1, fSAT ||| fNX)
  else (i, 0#8)

/-- rnd(x, fmt, m) for any format that a conversion writes (R80, R87, R88): the pattern and the flags. -/
def roundTo (f : Fmt) (m : RMode) (draw : Nat) (v : Val) : Nat × Byte :=
  match fpOf f with
  | some p => roundFP p m draw v
  | none =>
    match intBits f with
    | some n =>
      match v with
      | .nan => (0, fIV)
      | .inf neg => (ofSigned n (if neg then -(2 ^ (n - 1) : Nat) else (2 ^ (n - 1) : Nat) - 1), fSAT ||| fNX)
      | .fin neg a e more =>
        let (i, g) := roundInt m draw neg a e more
        let (j, h) := satInt n i
        (ofSigned n j, g ||| h)
    | none =>
      match v with
      | .nan => (rsEncode 0, fIV)
      | .inf _ => (rsEncode 0, fIV)
      | .fin neg a e more =>
        let (i, g) := roundInt m draw neg a e more
        (rsEncode i, g)

/-- rne into FP32, as a pattern and flags. -/
def rneF32 (v : Val) : Nat × Byte := roundTo fFP32 .rne 0 v

/-- The value of an FP32 pattern. -/
def f32 (b : Nat) : Val := decodeElem fFP32 b

/-- The canonical FP32 NaN (R73). -/
def nan32 : Nat := 0x7FC00000

/-! ### Exact arithmetic -/

/-- −v. -/
def Val.neg (v : Val) : Val :=
  match v with
  | .nan => .nan
  | .inf s => .inf (!s)
  | .fin s m e k => .fin (!s) m e k

/-- |v|. -/
def Val.abs (v : Val) : Val :=
  match v with
  | .nan => .nan
  | .inf _ => .inf false
  | .fin _ m e k => .fin false m e k

/-- A signed multiple of 2^e. -/
def sgn (neg : Bool) (m : Nat) : Int := if neg then -(m : Int) else m

/-- m × 2^(e - b) for b ≤ e. -/
def lift (m : Nat) (e b : Int) : Nat := m * 2 ^ (e - b).toNat

/-- Exact sum; a zero from operands of opposite sign is +0, or −0 with `rdn` (R82); ∞ − ∞ is NaN with IV (R73). -/
def Val.add (rdn : Bool) (a b : Val) : Val × Byte :=
  match a, b with
  | .nan, _ => (.nan, 0#8)
  | _, .nan => (.nan, 0#8)
  | .inf s, .inf t => if s == t then (.inf s, 0#8) else (.nan, fIV)
  | .inf s, .fin _ _ _ _ => (.inf s, 0#8)
  | .fin _ _ _ _, .inf t => (.inf t, 0#8)
  | .fin s m e _, .fin t n g _ =>
    if m = 0 && n = 0 then (.fin (if s == t then s else rdn) 0 0 false, 0#8)
    else
      let l := if e < g then e else g
      let x := sgn s (lift m e l) + sgn t (lift n g l)
      if x = 0 then (.fin rdn 0 0 false, 0#8) else (.fin (decide (x < 0)) x.natAbs l false, 0#8)

/-- Exact product (R82); 0 × ∞ is NaN with IV. -/
def Val.mul (a b : Val) : Val × Byte :=
  match a, b with
  | .nan, _ => (.nan, 0#8)
  | _, .nan => (.nan, 0#8)
  | .inf s, .inf t => (.inf (s != t), 0#8)
  | .inf s, .fin t m _ _ => if m = 0 then (.nan, fIV) else (.inf (s != t), 0#8)
  | .fin s m _ _, .inf t => if m = 0 then (.nan, fIV) else (.inf (s != t), 0#8)
  | .fin s m e _, .fin t n g _ => (.fin (s != t) (m * n) (e + g) false, 0#8)

/-- Exact quotient (R73, R90), to at least 128 bits and 20 bits below the point, with what is left below. -/
def Val.div (a b : Val) : Val × Byte :=
  match a, b with
  | .nan, _ => (.nan, 0#8)
  | _, .nan => (.nan, 0#8)
  | .inf _, .inf _ => (.nan, fIV)
  | .inf s, .fin t _ _ _ => (.inf (s != t), 0#8)
  | .fin s _ _ _, .inf t => (.fin (s != t) 0 0 false, 0#8)
  | .fin s m e _, .fin t n g _ =>
    if n = 0 then (if m = 0 then (.nan, fIV) else (.inf (s != t), fDZ))
    else if m = 0 then (.fin (s != t) 0 0 false, 0#8)
    else
      let k := 130 + bitLen n + (e - g + 20).toNat
      let x := m * 2 ^ k
      (.fin (s != t) (x / n) (e - g - k) (x % n != 0), 0#8)

/-- Integer square root by bisection on bits: the largest r with r² ≤ n, given r0 and the bits left. -/
def isqrtGo (n : Nat) (r : Nat) : Nat → Nat
  | 0 => r
  | k + 1 => let t := r + 2 ^ k; isqrtGo n (if t * t ≤ n then t else r) k

/-- Floor of the square root. -/
def isqrt (n : Nat) : Nat := isqrtGo n 0 (bitLen n / 2 + 1)

/-- Exact square root (R73, R375), to at least 128 bits. -/
def Val.sqrt (v : Val) : Val × Byte :=
  match v with
  | .nan => (.nan, 0#8)
  | .inf s => if s then (.nan, fIV) else (.inf false, 0#8)
  | .fin s m e _ =>
    if m = 0 then (.fin s 0 0 false, 0#8)
    else if s then (.nan, fIV)
    else
      let k : Nat := 260 + (e % 2).toNat
      let x := m * 2 ^ k
      let r := isqrt x
      (.fin false r ((e - k) / 2) (r * r != x), 0#8)

/-- A value that is zero. -/
def Val.isZero (v : Val) : Bool :=
  match v with
  | .fin _ m _ k => m == 0 && !k
  | .nan => false
  | .inf _ => false

/-- A NaN. -/
def Val.isNan (v : Val) : Bool :=
  match v with
  | .nan => true
  | .inf _ => false
  | .fin _ _ _ _ => false

/-- A finite value. -/
def Val.isFin (v : Val) : Bool :=
  match v with
  | .fin _ _ _ _ => true
  | .nan => false
  | .inf _ => false

/-- The sign bit. -/
def Val.sign (v : Val) : Bool :=
  match v with
  | .nan => false
  | .inf s => s
  | .fin s _ _ _ => s

/-- a < b as real numbers, −0 equal to +0, false with a NaN. -/
def Val.lt (a b : Val) : Bool :=
  match a, b with
  | .nan, _ => false
  | _, .nan => false
  | .inf s, .inf t => s && !t
  | .inf s, .fin _ _ _ _ => s
  | .fin _ _ _ _, .inf t => !t
  | .fin s m e _, .fin t n g _ =>
    let l := if e < g then e else g
    decide (sgn s (lift m e l) < sgn t (lift n g l))

/-- a = b as real numbers. -/
def Val.eqv (a b : Val) : Bool := !a.isNan && !b.isNan && !a.lt b && !b.lt a

/-- Smaller of two, −0 below +0, NaN if either is (R170, R374). -/
def Val.minOf (a b : Val) : Val :=
  if a.isNan || b.isNan then .nan
  else if a.lt b then a else if b.lt a then b else if a.sign then a else b

/-- Larger of two, +0 above −0, NaN if either is. -/
def Val.maxOf (a b : Val) : Val :=
  if a.isNan || b.isNan then .nan
  else if a.lt b then b else if b.lt a then a else if a.sign then b else a

/-- floor(log2 |v|) of a finite non-zero value. -/
def Val.exponent (v : Val) : Int :=
  match v with
  | .fin _ m e _ => e + bitLen m - 1
  | .nan => 0
  | .inf _ => 0

/-- Exact sum of a list by the rules of R387: NaN without IV; opposite infinities NaN with IV; a zero sum of like zeros keeps
their sign, any other zero sum is +0, or −0 with `rdn`. -/
def sumExact (rdn : Bool) (vs : List Val) : Val × Byte :=
  if vs.any Val.isNan then (.nan, 0#8)
  else
    match vs with
    | [] => (.fin false 0 0 false, 0#8)
    | v :: t =>
      t.foldl (fun (a : Val × Byte) x =>
        match a.1, x with
        | .fin s m e k, .fin t n g _ =>
          if m = 0 && n = 0 && s == t then (.fin s m e k, a.2)
          else let r := Val.add rdn (.fin s m e k) (.fin t n g false); (r.1, a.2 ||| r.2)
        | .nan, _ => a
        | y, z => let r := Val.add rdn y z; (r.1, a.2 ||| r.2)) (v, 0#8)

/-! ### The generator -/

/-- One step of a stochastic state (R84). -/
def genStep (s : Dword) : Dword :=
  let s := s ^^^ (s <<< 13)
  let s := s ^^^ (s >>> 7)
  s ^^^ (s <<< 17)

/-- The 16-bit draw of a state just stepped to (R84). -/
def genDraw (s : Dword) : Nat := (s >>> 48).toNat

/-- n draws in order, and the state after them. -/
def draws (s : Dword) : Nat → List Nat × Dword
  | 0 => ([], s)
  | n + 1 =>
    let t := genStep s
    let (l, u) := draws t n
    (genDraw t :: l, u)

/-- The generator of an engine on core k. -/
def State.gen (s : State) (k : Nat) (u : Unit4) : Dword := vget (s.core k).sys.gen u.ix 0#64

/-- Set the generator of an engine on core k. -/
def State.setGen (s : State) (k : Nat) (u : Unit4) (g : Dword) : State :=
  s.modCore k fun c => { c with sys := { c.sys with gen := vset c.sys.gen u.ix g } }

end Sys2Proof.Machine
end

