-- ==== Sys2Proof/Machine/XSet.lean ====
section
/-! DEFINITION. Address-generator sets (R160, R161): descriptors, walks, the format at a set's base, the banks and tiles a walk
touches, and the address ranges of a command for the overlap rule (R167). -/

namespace Sys2Proof.Machine

/-- A descriptor as fields (R160). -/
structure XSet where
  base : Dword
  adv : Dword
  str : List Int
  cnt : List Nat
  valid : Bool
  zop : Bool
  fmt : Fmt
  /-- every reserved field is zero -/
  clean : Bool
  aux : Dword
  deriving DecidableEq, Repr

/-- Reading a descriptor (R160). -/
def setOf (r : BitVec 1024) : XSet where
  base := r.extractLsb' 0 64
  adv := r.extractLsb' 64 64
  str := (upto 6).map fun i => (r.extractLsb' (128 + 64 * i) 64).toInt
  cnt := (upto 6).map fun i => (r.extractLsb' (512 + 32 * i) 32).toNat
  valid := r.getLsbD 709
  zop := r.getLsbD 708
  fmt := r.extractLsb' 704 4
  clean := r.extractLsb' 710 58 == 0#58 && r.extractLsb' 832 192 == 0#192
  aux := r.extractLsb' 768 64

/-- A descriptor with another base. -/
def withBase (r : BitVec 1024) (b : Dword) : BitVec 1024 := r.extractLsb' 64 960 ++ b

/-- A descriptor advanced by its adv (R162). -/
def advance (r : BitVec 1024) : BitVec 1024 := withBase r (r.extractLsb' 0 64 + r.extractLsb' 64 64)

/-- Product of trip counts. -/
def prod (l : List Nat) : Nat := l.foldl (· * ·) 1

/-- N (R161). -/
def XSet.n (x : XSet) : Nat := prod x.cnt

/-- A use of the set that faults XSET (R161). -/
def XSet.bad (x : XSet) : Bool := !x.valid || !x.clean || x.cnt.any (· == 0) || 1048576 < x.n

/-- Count and stride of a level. -/
def XSet.c (x : XSet) (i : Nat) : Nat := x.cnt.getD i 1
def XSet.s (x : XSet) (i : Nat) : Int := x.str.getD i 0

/-- Position of walk index j, level 0 fastest (R161). -/
def walkPos : List Nat → List Int → Nat → Int
  | c :: cs, t :: ts, j => (j % c : Nat) * t + walkPos cs ts (j / c)
  | _, _, _ => 0

/-- An element's place: address word, and the upper half of its byte for the half-byte formats (R42). -/
structure Elem where
  addr : Dword
  half : Bool := false
  deriving DecidableEq, Repr

/-- The element at position p for an element size in half bytes (R161). -/
def elemAt (base : Dword) (nib : Nat) (p : Int) : Elem :=
  let h : Int := 2 * (base.toNat : Int) + nib * p
  ⟨BitVec.ofInt 64 (h / 2), h % 2 == 1⟩

/-- The walk of a set as places (R161). -/
def XSet.walk (x : XSet) (nib : Nat) : List Elem := (upto x.n).map fun j => elemAt x.base nib (walkPos x.cnt x.str j)

/-- Element i of row r of a table (R196). -/
def XSet.rowElem (x : XSet) (nib : Nat) (r i : Nat) : Elem := elemAt x.base nib ((r : Int) * x.s 1 + (i : Int) * x.s 0)

/-- Bytes of an element of so many half bytes (R41). -/
def nibBytes (nib : Nat) : Nat := (nib + 1) / 2

/-- The space code of an address word (R39). -/
def spaceOf (a : Dword) : Nat := (a.extractLsb' 60 4).toNat

/-- The bank format word at an own-scratchpad address (R42, R43). -/
def bankAt (bf : Vector (BitVec 15) 32) (a : Dword) : BitVec 15 := vget bf (a.extractLsb' 16 5).toNat 0xF#15

/-- The element format of a set at its base (R161). -/
def setFmt (bf : Vector (BitVec 15) 32) (x : XSet) : Fmt :=
  if spaceOf x.base = 1 then (bankAt bf x.base).extractLsb' 0 4 else x.fmt

/-- Own-scratchpad banks that elements of n bytes touch; an address past the scratchpad (R39) touches none. -/
def banksOf (es : List Elem) (n : Nat) : BitVec 32 :=
  es.foldl (fun m e =>
    let x := e.addr + BitVec.ofNat 64 (n - 1)
    if spaceOf e.addr = 1 && x.extractLsb' 21 39 == 0#39 then
      m ||| (1#32 <<< (e.addr.extractLsb' 16 5).toNat) ||| (1#32 <<< (x.extractLsb' 16 5).toNat)
    else m) 0#32

/-- Accumulator tiles that elements touch. -/
def tilesOf (es : List Elem) : BitVec 18 :=
  es.foldl (fun m e => if spaceOf e.addr = 4 then m ||| (1#18 <<< (e.addr.extractLsb' 14 4).toNat) else m) 0#18

/-- The banks of a mask, ascending. -/
def bitsOf (m : BitVec 32) : List Nat := (upto 32).filter fun i => m.getLsbD i

/-- Banks of one tile agree in format, mode and scale bank (R45). -/
def sameBanks (bf : Vector (BitVec 15) 32) (m : BitVec 32) : Bool :=
  match bitsOf m with
  | [] => true
  | b :: t =>
    let key (i : Nat) := vget bf i 0xF#15 &&& 0x7F0F#15
    t.all fun i => key i == key b

/-- A scaled bank obeys R44: its own format, its mode, its companion. -/
def scaleOk (bf : Vector (BitVec 15) 32) (b : Nat) : Bool :=
  let w := vget bf b 0xF#15
  let sm := w.extractLsb' 13 2
  let f := w.extractLsb' 0 4
  let sb := (w.extractLsb' 8 5).toNat
  sm == 0#2 ||
  (sm == 1#2 && (f == fE4M3 || f == fE5M2 || f == fFP4 || f == fINT8) && sb != b
    && (vget bf sb 0xF#15).extractLsb' 0 4 == fE8M0)

/-- The scale banks that elements of scaled banks read. -/
def scaleBanks (bf : Vector (BitVec 15) 32) (m : BitVec 32) : BitVec 32 :=
  (bitsOf m).foldl (fun a b =>
    let w := vget bf b 0xF#15
    if w.extractLsb' 13 2 == 0#2 then a else a ||| (1#32 <<< (w.extractLsb' 8 5).toNat)) 0#32

/-- The offset in its core's scratchpad of the scale byte of the element of `nib` half bytes at an own-scratchpad place, if its
bank carries block scales (R44). -/
def scaleOff (bf : Vector (BitVec 15) 32) (e : Elem) (nib : Nat) : Option Nat :=
  if spaceOf e.addr != 1 then none
  else
    let w := bankAt bf e.addr
    if w.extractLsb' 13 2 == 0#2 then none
    else
      let i := ((e.addr.extractLsb' 0 16).toNat * 2 + (if e.half then 1 else 0)) / nib
      some ((w.extractLsb' 8 5).toNat * 65536 + (w.extractLsb' 4 4).toNat * 4096 + i / 32)

/-- The address ranges of elements of n bytes, adjoining ones joined (R167). -/
def rangesOf (es : List Elem) (n : Nat) : List (Nat × Nat) :=
  es.foldl (fun l e =>
    let a := e.addr.toNat
    match l with
    | (b, m) :: t =>
      if b ≤ a && a + n ≤ b + m then l else if a = b + m then (b, m + n) :: t else (a, n) :: l
    | [] => [(a, n)]) []

/-- Two lists of ranges share a byte. -/
def anyOverlap (a b : List (Nat × Nat)) : Bool := a.any fun x => b.any fun y => overlaps x.1 x.2 y.1 y.2

/-- The kinds of command words (R164). -/
inductive XKind where
  | copy | gather | scatter | fill | mcast | prefetch | writeback | put | get
  | selk (min : Bool)
  | cfg
  | acw (op : BitVec 6) (ret det : Bool)
  | combine | close
  deriving DecidableEq, Repr

/-- A command word's kind, fields and rounding mode. -/
structure XOp where
  kind : XKind
  x : XArgs
  m : RMode := .rne
  deriving DecidableEq, Repr

/-- A transfer word as a command; none for the steps that move no data (R159). -/
def xopOf (i : Instr) : Option XOp :=
  match i with
  | .xcpy x m => some ⟨.copy, x, m⟩
  | .xgat x m => some ⟨.gather, x, m⟩
  | .xsct x m => some ⟨.scatter, x, m⟩
  | .xfil x m => some ⟨.fill, x, m⟩
  | .xmcs x m => some ⟨.mcast, x, m⟩
  | .xpf x => some ⟨.prefetch, x, .rne⟩
  | .xwb x => some ⟨.writeback, x, .rne⟩
  | .xput x => some ⟨.put, x, .rne⟩
  | .xget x => some ⟨.get, x, .rne⟩
  | .selk x k => some ⟨.selk k, x, .rne⟩
  | .xcfg x => some ⟨.cfg, x, .rne⟩
  | .acwAdd32 x r d => some ⟨.acw 0x10#6 r d, x, .rne⟩
  | .acwAdd64 x r d => some ⟨.acw 0x11#6 r d, x, .rne⟩
  | .acwAddf x r d => some ⟨.acw 0x12#6 r d, x, .rne⟩
  | .acwMax32 x r d => some ⟨.acw 0x13#6 r d, x, .rne⟩
  | .acwMax64 x r d => some ⟨.acw 0x14#6 r d, x, .rne⟩
  | .acwMaxf x r d => some ⟨.acw 0x15#6 r d, x, .rne⟩
  | .acwMin32 x r d => some ⟨.acw 0x16#6 r d, x, .rne⟩
  | .acwMin64 x r d => some ⟨.acw 0x17#6 r d, x, .rne⟩
  | .acwMinf x r d => some ⟨.acw 0x18#6 r d, x, .rne⟩
  | .acwAnd32 x r d => some ⟨.acw 0x19#6 r d, x, .rne⟩
  | .acwAnd64 x r d => some ⟨.acw 0x1A#6 r d, x, .rne⟩
  | .acwOr32 x r d => some ⟨.acw 0x1B#6 r d, x, .rne⟩
  | .acwOr64 x r d => some ⟨.acw 0x1C#6 r d, x, .rne⟩
  | .acwXchg32 x r d => some ⟨.acw 0x1D#6 r d, x, .rne⟩
  | .acwXchg64 x r d => some ⟨.acw 0x1E#6 r d, x, .rne⟩
  | .cmb x => some ⟨.combine, x, .rne⟩
  | .xrcl x => some ⟨.close, x, .rne⟩
  | _ => none

/-- The command of a word (R179). -/
def xopOfWord (w : Word) : Option XOp :=
  match decodeXfer w with
  | .ok i => xopOf i
  | .error _ => none

/-- The element type of an accumulate-on-write opcode (R170, R204). -/
def acwFmt (op : BitVec 6) : Fmt :=
  match op.toNat with
  | 0x11 => fINT64
  | 0x12 => fFP32
  | 0x14 => fINT64
  | 0x15 => fFP32
  | 0x17 => fINT64
  | 0x18 => fFP32
  | 0x1A => fINT64
  | 0x1C => fINT64
  | 0x1E => fINT64
  | _ => fINT32

/-- The sets a command names, its pair included (R189, R191): source, destination, paired. -/
def XOp.sets (o : XOp) (queue : Bool) : List (BitVec 4) :=
  match o.kind with
  | .gather => [o.x.src, o.x.dst, o.x.src ^^^ 1#4]
  | .scatter => [o.x.src, o.x.dst, o.x.dst ^^^ 1#4]
  | .selk _ => [o.x.src, o.x.dst, o.x.dst ^^^ 1#4]
  | .close => [o.x.dst]
  | .cfg => if queue then [o.x.dst] else [o.x.src, o.x.dst]
  | _ => [o.x.src, o.x.dst]

/-- The number of the set that a command pairs (R196, R197, R202). -/
def XOp.pair (o : XOp) : BitVec 4 :=
  match o.kind with
  | .gather => o.x.src ^^^ 1#4
  | _ => o.x.dst ^^^ 1#4

/-- What a command walks: places read and written with their sizes in half bytes. A table of `xgat` or `xsct` stands for all its
rows. -/
structure Walks where
  src : List Elem := []
  srcNib : Nat := 2
  dst : List Elem := []
  dstNib : Nat := 2
  ix : List Elem := []
  ixNib : Nat := 8
  deriving DecidableEq, Repr

/-- All elements of a table (R196). -/
def XSet.table (x : XSet) (nib : Nat) : List Elem :=
  (upto (x.c 1)).flatMap fun r => (upto (x.c 0)).map fun i => x.rowElem nib r i

/-- The walks of a command from its sampled sets and formats; a ranked combine writes the head of its entry and its rank's row (R176). -/
def walksOf (o : XOp) (bf : Vector (BitVec 15) 32) (s d p : XSet) (operand : Option Dword) : Walks :=
  let sn := nibbles (setFmt bf s)
  let dn := nibbles (setFmt bf d)
  match o.kind with
  | .gather => ⟨s.table sn, sn, d.walk dn, dn, p.walk (nibbles (setFmt bf p)), nibbles (setFmt bf p)⟩
  | .scatter => ⟨s.walk sn, sn, d.table dn, dn, p.walk (nibbles (setFmt bf p)), nibbles (setFmt bf p)⟩
  | .fill => { dst := d.walk dn, dstNib := dn }
  | .put => { src := s.walk sn, srcNib := sn }
  | .get => { dst := d.walk dn, dstNib := dn }
  | .selk _ => ⟨s.walk 8, 8, d.walk 8 ++ p.walk 8, 8, [], 8⟩
  | .cfg => { src := [⟨operand.getD s.base, false⟩], srcNib := 256 }
  | .acw op _ _ => ⟨s.walk (nibbles (acwFmt op)), nibbles (acwFmt op), d.walk (nibbles (acwFmt op)), nibbles (acwFmt op), [], 8⟩
  | .combine =>
    let row := 64 + 4 * s.n * (d.aux.extractLsb' 0 3).toNat
    { src := s.walk 8, srcNib := 8, dstNib := 8,
      dst := (upto 16).map (fun i => ⟨d.base + BitVec.ofNat 64 (4 * i), false⟩)
        ++ (upto s.n).map fun i => ⟨d.base + BitVec.ofNat 64 (row + 4 * i), false⟩ }
  | .close => {}
  | _ => { src := s.walk sn, srcNib := sn, dst := d.walk dn, dstNib := dn }

end Sys2Proof.Machine
end

