-- ==== Sys2Proof/Machine/XRun.lean ====
section
/-! DEFINITION. The accesses of a transfer command: stage-relative peers (R32), locating an element with its checks (R39 to R41,
R47, R52), reading with poison (R57, R184) and block scales (R74), converting (R166), gathering the writes of a command into
single-copy atomic units (R41), and the charges of its bytes (R261). -/

namespace Sys2Proof.Machine

/-- Faults of transfer commands (R183, R193, R240). -/
def cXSET : Byte := 0x41#8
def cXSHAPE : Byte := 0x42#8
def cDET_GROUP : Byte := 0x43#8
def cDET_ABORT : Byte := 0x44#8
def cCMB_RANK : Byte := 0x45#8
def cXINDEX : Byte := 0x46#8
def cNET_REFUSED : Byte := 0x47#8
def cSTAGE_RANGE : Byte := 0x31#8
def cSTAGE_RANK : Byte := 0x32#8

/-- The source code of a command: 0 queue, 1 XL, 2 XS (R172, R184, R187). -/
def XSrc.code : XSrc → Nat
  | .queue => 0
  | .xl => 1
  | .xs => 2

/-- The stream a command's fault belongs to: 0xFF for the queue (R457). -/
def XSrc.faultStream : XSrc → Nat
  | .queue => 0xFF
  | .xl => 4
  | .xs => 7

/-- The writer of a command's writes. -/
def XSrc.writer (x : XSrc) (k : Nat) : Writer :=
  match x with
  | .queue => ⟨k, 8⟩
  | .xl => ⟨k, 4⟩
  | .xs => ⟨k, 7⟩

/-- The flags and generator of a command's source (R165). -/
def XSrc.unit4 : XSrc → Unit4
  | .queue => .xs
  | .xl => .xl
  | .xs => .xs

/-- The resident teams of a pipeline stage of a function: cores by rank (R32). -/
def State.stageTeam (s : State) (func : Byte) (pipe : BitVec 16) (stage : Nat) : Option (List Nat) :=
  ((upto 8).flatMap fun d => (s.die d).teams).findSome? fun t =>
    if t.func == func && t.item.pipe == pipe && t.item.stage.toNat == stage && !t.cores.isEmpty then some t.cores else none

/-- The peer core of the next stage up or down, or the cause of its failure (R32). -/
def State.stagePeer (s : State) (k : Nat) (up : Bool) : Peer :=
  match (s.core k).job with
  | none => .failed cSTAGE_ABSENT
  | some j =>
    if (up && j.stage == 15#4) || (!up && j.stage == 0#4) then .failed cSTAGE_RANGE
    else match s.stageTeam j.func j.pipe (if up then j.stage.toNat + 1 else j.stage.toNat - 1) with
      | none => .failed cSTAGE_ABSENT
      | some cs => match cs[j.rank.toNat]? with
        | none => .failed cSTAGE_RANK
        | some p => .core p

/-- A command with its stage-relative addresses resolved as of now (R32): at issue, and when a handler has signalled a resolution. -/
def State.resolvePeers (s : State) (k : Nat) (c : Cmd) : Cmd := { c with dn := s.stagePeer k false, up := s.stagePeer k true }

/-- A command's run: the state, the writes gathered (latest first), flags, poisoned lines met, bytes by charge class. -/
structure XAcc where
  s : State
  ws : List (Nat × List (Byte × Byte)) := []
  flags : Byte := 0#8
  lines : List Nat := []
  near : Nat := 0
  hbm : Nat := 0
  hop : Nat := 0
  cxl : Nat := 0
  homes : List Nat := []

/-- Count n bytes at a location for core k (R261). -/
def XAcc.count (a : XAcc) (k loc n : Nat) : XAcc :=
  let h := hops (homeDie loc) (coreDie k) * n
  let a := { a with hop := a.hop + h }
  if isHbm loc then { a with hbm := a.hbm + n }
  else if isCxl loc then { a with cxl := a.cxl + n }
  else { a with near := a.near + n }

/-- The location of n bytes at address word e for command c of core k, or the failing cause (R39 to R41, R47, R52). Accumulator
memory only as a source (R40). -/
def State.xLocate (s : State) (k : Nat) (c : Cmd) (e : Dword) (n : Nat) (acc : Access) : Except Byte Nat × State :=
  match placeOf e n with
  | .error x => (.error x, s)
  | .ok (.virt va) =>
    let f := (s.core k).funcOf
    match s.translate k f va acc false with
    | (.error x, t) => (.error x, if x == cOWNER then t.ownerEvent f (s.coord k) e (s.walkPa f va) else t)
    | (.ok pa, t) => if pa % n = 0 then (.ok pa, t) else (.error cMISALIGN, t)
  | .ok (.own off) => if off % n = 0 then (.ok (scratchLoc k + off), s) else (.error cMISALIGN, s)
  | .ok (.window w off) =>
    if off % n != 0 then (.error cMISALIGN, s)
    else if s.windowOk k w then (.ok (scratchLoc (192 * coreDie k + w) + off), s)
    else (.error cWINDOW, s)
  | .ok (.stage up off) =>
    match if up then c.up else c.dn with
    | .failed x => (.error x, s)
    | .core p => if off % n = 0 then (.ok (scratchLoc p + off), s) else (.error cMISALIGN, s)
  | .ok (.acc off) =>
    if acc != .read then (.error cADDR_SPACE, s)
    else if off % n = 0 then (.ok (accLoc k + off), s) else (.error cMISALIGN, s)

/-- The event record of R184 for a poisoned line that command c of core k replaced by zeros; the item is marked POISONED. -/
def State.poisonEvent (s : State) (k : Nat) (c : Cmd) (line : Dword) : State :=
  match (s.core k).job with
  | none => s
  | some j =>
    let s := s.event j.func (bytesOfNat 2 1 ++ [BitVec.ofNat 8 c.src.code, 0#8] ++ bytesOfNat 4 (s.coord k).toNat
      ++ bytesOfNat 4 c.word.toNat ++ bytesOfNat 4 c.seq.toNat ++ bytesOfNat 8 line.toNat ++ bytesOfNat 8 s.dtime)
    s.modDie (coreDie k) fun d => { d with teams := d.teams.map fun t => if t.id == j.team then { t with poisoned := true } else t }

/-- n bytes at a location as a writer reads them (R62, R125): its own latest writes on their way, else memory. -/
def State.ownNat (s : State) (by_ : Writer) (l n : Nat) : Nat :=
  if s.writes.any fun w => w.by_ == by_ then natOfBytes ((upto n).map fun i => s.ownByte by_ (l + i)) else Memory.readNat s.mem l n

/-- Read an element of `nib` half bytes (R42, R57, R62, R184): its bits and location, or the cause. -/
def XAcc.get (a : XAcc) (k : Nat) (c : Cmd) (e : Elem) (nib : Nat) (zop : Bool) (acc : Access) :
    Except Byte (Nat × Nat) × XAcc :=
  let n := nibBytes nib
  match a.s.xLocate k c e.addr n acc with
  | (.error x, t) => (.error x, { a with s := t })
  | (.ok l, t) =>
    let a := { a with s := t }
    let bad := (isHbm l || isCxl l) && a.s.poisoned l n
    if bad && !zop then (.error cPOISON, a)
    else
      let a := if bad && !a.lines.contains (l / 64) then
          { a with s := a.s.poisonEvent k c (e.addr - BitVec.ofNat 64 (l % 64)), lines := (l / 64) :: a.lines }
        else a
      let v := if bad then 0 else a.s.ownNat (c.src.writer k) l n
      let v := if nib = 1 then v / (if e.half then 16 else 1) % 16 else v
      let a := a.count k l n
      (.ok (v, l), if a.homes.contains (homeDie l) then a else { a with homes := homeDie l :: a.homes })

/-- A write joined to one that it adjoins in the same aligned 64-byte unit (R41), or to whose last byte it gives the other half. -/
def joinWrite (b : Nat) (x : List (Byte × Byte)) (l : Nat) (d : List (Byte × Byte)) : Option (List (Byte × Byte)) :=
  if l = b + x.length && b / 64 = (l + d.length - 1) / 64 then some (x ++ d)
  else if l + 1 = b + x.length && d.length = 1 then
    match x.getLast?, d with
    | some (v, m), [(w, m')] => if m &&& m' == 0#8 then some (x.dropLast ++ [((v &&& m) ||| (w &&& m'), m ||| m')]) else none
    | _, _ => none
  else none

/-- Join a write to the gathered writes, latest first: one of the last n of another unit is passed over, one of its own unit takes it in
or stays behind it. So the writes of each of n interleaved walks come out in whole units, and writes to one unit keep their order. -/
def gather (n : Nat) (ws : List (Nat × List (Byte × Byte))) (l : Nat) (d : List (Byte × Byte)) : Option (List (Nat × List (Byte × Byte))) :=
  match n, ws with
  | n + 1, (b, x) :: t =>
    match joinWrite b x l d with
    | some y => some ((b, y) :: t)
    | none => if b / 64 = l / 64 then none else (gather n t l d).map fun u => (b, x) :: u
  | _, _ => none

/-- The bytes and masks of an element's bits (R42). -/
def elemBytes (e : Elem) (nib v : Nat) : List (Byte × Byte) :=
  if nib = 1 then [if e.half then (BitVec.ofNat 8 (v % 16 * 16), 0xF0#8) else (BitVec.ofNat 8 (v % 16), 0x0F#8)]
  else wholeBytes (bytesOfNat (nibBytes nib) v)

/-- Write an element at a located place, as one of n interleaved walks. -/
def XAcc.put (a : XAcc) (n k l : Nat) (e : Elem) (nib v : Nat) : XAcc :=
  let d := elemBytes e nib v
  ({ a with ws := (gather n a.ws l d).getD ((l, d) :: a.ws) }).count k l (nibBytes nib)

/-- Put the gathered writes on their way in walk order (R191). -/
def XAcc.flush (a : XAcc) (k : Nat) (c : Cmd) : State :=
  let d := coreDie k
  let s := a.homes.foldl (fun s h => s.observe d h) a.s
  a.ws.reverse.foldl (fun s w => s.emit (c.src.writer k) (some c.id) w.1 w.2) s

/-- Charge the bytes of a run (R191, R261). -/
def XAcc.charges (a : XAcc) (s : State) (k : Nat) : State :=
  ((((s.charge k 1 2 0xF a.near).charge k 1 3 0xF a.hbm).charge k 1 4 0xF a.hop).charge k 1 5 0xF a.cxl)

/-- The scale of an own-scratchpad element as a power of two's exponent plus 127, from memory (R44, R74). -/
def XAcc.scale (a : XAcc) (k : Nat) (bf : Vector (BitVec 15) 32) (e : Elem) (nib : Nat) : Option Nat :=
  (scaleOff bf e nib).map fun o => Memory.readNat a.s.mem (scratchLoc k + o) 1

/-- The exact value of an element with its block scale (R74); none where a scaled INT8 has the NaN scale, which faults FORMAT. -/
def scaledVal (f : Fmt) (bits : Nat) (scale : Option Nat) : Option Val :=
  match scale with
  | none => some (decodeElem f bits)
  | some e => if e = 255 then (if f == fINT8 then none else some .nan) else some ((decodeElem f bits).scale ((e : Int) - 127))

/-- conv of R166 and R189 for one element: bits of the source format with its scale into the destination format with its scale;
the pattern and the flags, or FORMAT. -/
def convElem (sf df : Fmt) (m : RMode) (draw bits : Nat) (ss ds : Option Nat) : Except Byte (Nat × Byte) :=
  if sf == df && ss.isNone && ds.isNone then .ok (bits, 0#8)
  else if (sf == fE8M0) != (df == fE8M0) then .error cFORMAT
  else match ds with
    | some 255 => .error cFORMAT
    | _ =>
      match scaledVal sf bits ss with
      | none => .error cFORMAT
      | some v => .ok (roundTo df m draw (v.scale (127 - ((ds.getD 127 : Nat) : Int))))

/-- A copy between these formats rounds, so SR draws (R83, R166). -/
def converts (sf df : Fmt) (scaled : Bool) : Bool := (sf != df || scaled) && sf != fRAW && df != fRAW

/-- Insert by address, keeping the order of equals. -/
def insertBy (x : Nat × Nat) : List (Nat × Nat) → List (Nat × Nat)
  | [] => [x]
  | y :: t => if x.1 < y.1 then x :: y :: t else y :: insertBy x t

/-- The draw of each walk index, taken in ascending destination address (R84); all zero for a mode other than SR. -/
def drawOrder (m : RMode) (gen : Dword) (dst : List Elem) : List Nat :=
  match m with
  | .sr =>
    let keys := dst.zipIdx.map fun (e, i) => (2 * e.addr.toNat + (if e.half then 1 else 0), i)
    let order := keys.foldl (fun l x => insertBy x l) []
    let ds := (draws gen dst.length).1
    let byIx : Map Nat := (order.zip ds).foldl (fun m p => mset m p.1.2 p.2) []
    (upto dst.length).map fun i => mget byIx i 0
  | .rne => dst.map fun _ => 0
  | .rtz => dst.map fun _ => 0
  | .rdn => dst.map fun _ => 0
  | .rup => dst.map fun _ => 0

end Sys2Proof.Machine
end

