-- ==== Sys2Proof/Machine/Xfer.lean ====
section
/-! DEFINITION. The words of XL, XS and the command queue at issue: what a command checks, samples, advances, locks and records
(R46, R59, R159 to R168, R181, R189 to R207), and the steps that move no data (R208 to R211). -/

namespace Sys2Proof.Machine

/-- A fault found at issue: the cause and its information where the spec names it. -/
abbrev XFail := Byte × Option Dword

/-- A format that a transfer may name. -/
def fmtUsable (f : Fmt) : Bool := !fmtReserved f

/-- An accumulator source is FP32 or INT32 (R166). -/
def accFmtOk (x : XSet) : Bool := spaceOf x.base != 4 || x.fmt == fFP32 || x.fmt == fINT32

/-- N and format of two walks fit (R166): equal N, or equal bytes when one of two unequal formats is raw. -/
def shapeOk (sf df : Fmt) (ns nd : Nat) : Bool :=
  if sf != df && (sf == fRAW || df == fRAW) then ns * nibbles sf == nd * nibbles df else ns == nd

/-- The banks of a tile obey R44 and R45. -/
def tileOk (bf : Vector (BitVec 15) 32) (es : List Elem) (nib : Nat) : Bool :=
  let b := banksOf es (nibBytes nib)
  sameBanks bf b && (bitsOf b).all (scaleOk bf)

/-- A check that fails with a cause. -/
def needs (ok : Bool) (cause : Byte) (info : Option Dword) : Except XFail Unit := if ok then .ok () else .error (cause, info)

/-- The core set of a multicast (R198): first, count, step; none where it is out of range. -/
def coreSet (aux : Dword) : Option (List Nat) :=
  let first := (aux.extractLsb' 0 8).toNat
  let count := (aux.extractLsb' 8 8).toNat
  let step := (aux.extractLsb' 16 8).toNat
  let cs := (upto count).map fun i => first + i * step
  if aux.extractLsb' 24 40 != 0#40 || step = 0 || 191 < step || count = 0 || 192 < count || cs.any (191 < ·) then none
  else some cs

/-- What the sets, formats and shapes of a command must satisfy at issue (R161, R166, R170, R172, R178, R192 to R207). The entries list the
fates without an order: where several checks fail at once, which cause is raised is the model's choice, the first in the order below
(DESIGN CHOICE, log 101). -/
def checkOp (o : XOp) (bf : Vector (BitVec 15) 32) (s d p : XSet) (operand : Option Dword) : Except XFail Unit := do
  let sf := setFmt bf s
  let df := setFmt bf d
  let w := walksOf o bf s d p operand
  let tiles : Except XFail Unit :=
    needs (tileOk bf w.src w.srcNib && tileOk bf w.dst w.dstNib && tileOk bf w.ix w.ixNib) cFORMAT none
  let copy : Except XFail Unit := do
    needs (fmtUsable sf && fmtUsable df && accFmtOk s) cFORMAT none
    needs (spaceOf d.base != 4) cADDR_SPACE (some d.base)
  let conv : Except XFail Unit :=
    needs ((sf == fE8M0) == (df == fE8M0) || sf == fRAW || df == fRAW) cFORMAT none
  match o.kind with
  | .copy =>
    needs (!s.bad && !d.bad) cXSET none
    copy
    conv
    needs (shapeOk sf df s.n d.n) cXSHAPE none
    tiles
  | .gather =>
    needs (!s.bad && !d.bad && !p.bad) cXSET none
    needs ((upto 4).all fun i => s.c (i + 2) == 1) cXSET none
    needs (o.pair != o.x.dst) cXSET none
    needs (setFmt bf p == fINT32 || setFmt bf p == fINT64) cFORMAT none
    copy
    conv
    needs (d.n == p.n * s.c 0 && shapeOk sf df d.n d.n) cXSHAPE none
    tiles
  | .scatter =>
    needs (!s.bad && !d.bad && !p.bad) cXSET none
    needs ((upto 4).all fun i => d.c (i + 2) == 1) cXSET none
    needs (o.pair != o.x.src) cXSET none
    needs (setFmt bf p == fINT32 || setFmt bf p == fINT64) cFORMAT none
    copy
    conv
    needs (s.n == p.n * d.c 0 && shapeOk sf df s.n s.n) cXSHAPE none
    tiles
  | .fill =>
    needs (!s.bad && !d.bad) cXSET none
    needs (fmtUsable s.fmt && fmtUsable df) cFORMAT none
    needs (spaceOf d.base != 4) cADDR_SPACE (some d.base)
    needs ((s.fmt == fE8M0) == (df == fE8M0) || s.fmt == fRAW || df == fRAW) cFORMAT none
    needs (!(df == fRAW && s.fmt != fRAW) || d.n * 2 % nibbles s.fmt == 0) cXSHAPE none
    tiles
  | .mcast =>
    needs (!s.bad && !d.bad) cXSET none
    needs (spaceOf d.base == 1) cADDR_SPACE (some d.base)
    needs (coreSet d.aux).isSome cXSET none
    copy
    conv
    needs (s.n == d.n && shapeOk sf df s.n d.n) cXSHAPE none
    tiles
  | .prefetch =>
    needs (!s.bad && !d.bad) cXSET none
    needs (spaceOf s.base == 0) cADDR_SPACE (some s.base)
    needs (spaceOf d.base == 0) cADDR_SPACE (some d.base)
    needs (fmtUsable sf && fmtUsable df) cFORMAT none
    needs ((sf == df || sf == fRAW || df == fRAW) && shapeOk sf df s.n d.n) cXSHAPE none
  | .writeback =>
    needs (!s.bad && !d.bad) cXSET none
    needs (spaceOf s.base == 0) cADDR_SPACE (some s.base)
    needs (spaceOf d.base == 0) cADDR_SPACE (some d.base)
    needs (fmtUsable sf && fmtUsable df) cFORMAT none
    needs ((sf == df || sf == fRAW || df == fRAW) && shapeOk sf df s.n d.n) cXSHAPE none
  | .put =>
    needs (!s.bad && !d.bad) cXSET none
    needs (spaceOf d.base == 0) cADDR_SPACE (some d.base)
    needs (d.aux.extractLsb' 8 56 == 0#56) cXSET none
    needs (fmtUsable sf && fmtUsable df && accFmtOk s) cFORMAT none
    needs ((sf == df || sf == fRAW || df == fRAW) && shapeOk sf df s.n d.n) cXSHAPE none
    needs (tileOk bf w.src w.srcNib) cFORMAT none
  | .get =>
    needs (!s.bad && !d.bad) cXSET none
    needs (spaceOf s.base == 0) cADDR_SPACE (some s.base)
    needs (spaceOf d.base != 4) cADDR_SPACE (some d.base)
    needs (s.aux.extractLsb' 8 56 == 0#56) cXSET none
    needs (fmtUsable sf && fmtUsable df) cFORMAT none
    needs ((sf == df || sf == fRAW || df == fRAW) && shapeOk sf df s.n d.n) cXSHAPE none
    needs (tileOk bf w.dst w.dstNib) cFORMAT none
  | .selk _ =>
    let k := (d.aux.extractLsb' 0 7).toNat
    needs (!s.bad && !d.bad && !p.bad) cXSET none
    needs (d.aux.extractLsb' 7 57 == 0#57 && 1 ≤ k && k ≤ 64) cXSET none
    needs (o.pair != o.x.src) cXSET none
    needs (sf == fFP32) cFORMAT none
    needs ((df == fFP32 || df == fRAW) && (setFmt bf p == fINT32 || setFmt bf p == fRAW)) cFORMAT none
    needs (spaceOf d.base != 4) cADDR_SPACE (some d.base)
    needs (spaceOf p.base != 4) cADDR_SPACE (some p.base)
    needs (d.n == s.n / s.c 0 * k && p.n == s.n / s.c 0 * k) cXSHAPE none
    needs (tileOk bf w.src 8 && tileOk bf (d.walk 8) 8 && tileOk bf (p.walk 8) 8) cFORMAT none
  | .cfg =>
    let a := operand.getD s.base
    needs (operand.isSome || !s.bad) cXSET none
    needs (spaceOf a == 1 && a.extractLsb' 0 6 == 0#6) cXSET (some a)
  | .acw op ret det =>
    let f := acwFmt op
    needs (!s.bad && !d.bad) cXSET none
    needs ((sf == f || sf == fRAW) && (df == f || df == fRAW) && accFmtOk s) cFORMAT none
    needs (s.n == d.n) cXSHAPE none
    needs (spaceOf d.base != 4) cADDR_SPACE (some d.base)
    needs (!ret || spaceOf s.base != 4) cADDR_SPACE (some s.base)
    needs (!det || spaceOf d.base == 0) cDET_GROUP none
    tiles
  | .combine =>
    needs (!s.bad && d.valid && d.clean) cXSET none
    needs (d.aux.extractLsb' 3 61 == 0#61) cXSET none
    needs (spaceOf d.base == 0) cADDR_SPACE (some d.base)
    needs (sf == fFP32) cCMB_RANK none
    needs (tileOk bf w.src 8) cFORMAT none
  | .close => needs (d.valid && d.clean) cXSET none

/-- The sets of a command in flight as fields. -/
def Cmd.sets (c : Cmd) : XSet × XSet × XSet := (setOf c.s, setOf c.d, setOf c.p)

/-- The register operand of a queue command, which `xcfg` alone uses (R190, R203). -/
def Cmd.op? (c : Cmd) : Option Dword := if c.src == .queue then some c.operand else none

/-- The walks of a command in flight. -/
def Cmd.walks (c : Cmd) : Walks :=
  match xopOfWord c.word with
  | none => {}
  | some o => walksOf o c.bf (setOf c.s) (setOf c.d) (setOf c.p) c.op?

/-- The bytes of the largest group record (R172). -/
def groupBytes : Nat := 0x20 + 4 * 64

/-- The address ranges a command reads (R167), the group record of a deterministic one among them (R172). -/
def Cmd.readRanges (c : Cmd) : List (Nat × Nat) :=
  let w := c.walks
  rangesOf w.src (nibBytes w.srcNib) ++ rangesOf w.ix (nibBytes w.ixNib) ++
  match xopOfWord c.word with
  | some ⟨.acw _ _ true, _, _⟩ => [((setOf c.d).aux.toNat, groupBytes)]
  | some ⟨.close, _, _⟩ => [((setOf c.d).aux.toNat, groupBytes)]
  | _ => []

/-- The address ranges a command writes (R167): its destination, the source of a returning update, the other cores of a
multicast. -/
def Cmd.writeRanges (c : Cmd) : List (Nat × Nat) :=
  let w := c.walks
  let r := rangesOf w.dst (nibBytes w.dstNib)
  match xopOfWord c.word with
  | none => []
  | some o =>
    match o.kind with
    | .acw _ true _ => r ++ rangesOf w.src (nibBytes w.srcNib)
    | .mcast =>
      r ++ ((coreSet (setOf c.d).aux).getD []).flatMap fun i =>
        r.map fun x => (0x2000000000000000 + i * 0x200000 + x.1 % 0x200000, x.2)
    | _ => r

/-- A command is an accumulate-on-write (R167). -/
def Cmd.isAcw (c : Cmd) : Bool :=
  match xopOfWord c.word with
  | some ⟨.acw _ _ _, _, _⟩ => true
  | _ => false

/-- c must wait for the earlier command e of its stream (R167). -/
def Cmd.waitsFor (c e : Cmd) : Bool :=
  !(c.isAcw && e.isAcw) &&
  (anyOverlap c.readRanges e.writeRanges || anyOverlap c.writeRanges e.readRanges || anyOverlap c.writeRanges e.writeRanges)

/-- The index and descriptor ranges of R168. -/
def indexRanges (o : XOp) (w : Walks) : List (Nat × Nat) :=
  match o.kind with
  | .gather => rangesOf w.ix (nibBytes w.ixNib)
  | .scatter => rangesOf w.ix (nibBytes w.ixNib)
  | .cfg => rangesOf w.src (nibBytes w.srcNib)
  | _ => []

/-- The output row that a ranked combine would write, by the entry as it stands (R177). -/
def State.combineOut (s : State) (k : Nat) (c : Cmd) : List (Nat × Nat) :=
  match xopOfWord c.word with
  | some ⟨.combine, _, _⟩ =>
    match s.hostRead (s.core k).funcOf (setOf c.d).base 8 with
    | .ok bs => [(natOfBytes bs, 4 * (setOf c.s).n)]
    | .error _ => []
  | _ => []

/-- An earlier `xcfg` that is not complete loads set n (R203). -/
def Cmd.loads (c : Cmd) (n : BitVec 4) : Bool :=
  match xopOfWord c.word with
  | some ⟨.cfg, x, _⟩ => x.dst == n
  | _ => false

/-- The draws of a command under SR (R84): a copy, gather or scatter draws for each element that it converts (R83, R166, log 59), a
multicast S.N times (R198), a fill once for each destination element that it converts, whatever the formats (R195). -/
def drawCount (o : XOp) (bf : Vector (BitVec 15) 32) (s d : XSet) : Nat :=
  let w := walksOf o bf s d s none
  let scaled (es : List Elem) (nib : Nat) := scaleBanks bf (banksOf es (nibBytes nib)) != 0#32
  let any := scaled w.src w.srcNib || scaled w.dst w.dstNib
  if o.m != .sr then 0
  else match o.kind with
    | .copy => if converts (setFmt bf s) (setFmt bf d) any then d.n else 0
    | .gather => if converts (setFmt bf s) (setFmt bf d) any then d.n else 0
    | .scatter => if converts (setFmt bf s) (setFmt bf d) any then s.n else 0
    | .mcast => s.n
    | .fill => if s.fmt == fRAW || setFmt bf d == fRAW then 0 else d.n
    | _ => 0

/-- The source a word is issued from. -/
def State.xsrc (s : State) : XSrc := if s.cur.entry.isSome then .queue else if s.cur.st == .xs then .xs else .xl

/-- A job fault of the transfer word that issues (R183, R457). -/
def State.xferFail (s : State) (f : XFail) : State :=
  let src := s.xsrc
  let pc := if src == .queue then 0#32 else (s.me.eng s.cur.st).pc
  match f.2 with
  | some a => s.jobFault s.cur.k.val f.1 a src.faultStream pc
  | none => s.jobFaultFree s.cur.k.val f.1 src.faultStream pc

/-- The raw descriptor of a set. -/
def Core.rawSet (c : Core) (n : BitVec 4) : BitVec 1024 := vget c.x.sets n.toNat 0#1024

/-- Advance the sets a command names (R162, R191); `xcfg` advances its source alone (R203). -/
def advanceSets (o : XOp) (queue : Bool) (sets : Vector (BitVec 1024) 16) : Vector (BitVec 1024) 16 :=
  let ns := match o.kind with
    | .cfg => if queue then [] else [o.x.src]
    | _ => (o.sets queue).dedup
  ns.foldl (fun v n => vset v n.toNat (advance (vget v n.toNat 0#1024))) sets

/-- The group of a deterministic command, if it is one (R172). -/
def Cmd.detGroup (c : Cmd) : Option Dword :=
  match xopOfWord c.word with
  | some ⟨.acw _ _ true, _, _⟩ => some (setOf c.d).aux
  | some ⟨.close, _, _⟩ => some (setOf c.d).aux
  | _ => none

/-- A round close. -/
def Cmd.isClose (c : Cmd) : Bool :=
  match xopOfWord c.word with
  | some ⟨.close, _, _⟩ => true
  | _ => false

/-- The group with a record address for a function. -/
def State.group (s : State) (f : Byte) (a : Dword) : DetGroup :=
  (s.groups.find? fun g => g.func == f && g.group == a).getD { func := f, group := a }

/-- The round that a command of a source on core k joins (R173): the open round, and one more for each of its own `xrcl` steps
of the group that still waits for its round. -/
def State.roundNow (s : State) (k : Nat) (src : XSrc) (a : Dword) : Nat :=
  let c := s.core k
  (s.group c.funcOf a).round +
    (c.x.cmds.filter fun e => e.src == src && e.isClose && e.detGroup == some a && e.st != .performed).length

/-- The banks and tiles that a command of core k locks (R59, R269): what it writes exclusively, what it reads, scale bytes and indices
among it, shared. A multicast writes banks of its own core only if its set names it (R198). -/
def opLocks (k : Nat) (o : XOp) (bf : Vector (BitVec 15) 32) (w : Walks) (aux : Dword) : Locks :=
  let sb := banksOf w.src (nibBytes w.srcNib) ||| banksOf w.ix (nibBytes w.ixNib)
  let db := banksOf w.dst (nibBytes w.dstNib)
  let wr := match o.kind with
    | .acw _ true _ => db ||| sb
    | .mcast => if ((coreSet aux).getD []).contains (k % 192) then db else 0#32
    | _ => db
  ⟨(sb ||| scaleBanks bf (sb ||| db)) &&& ~~~wr, wr, tilesOf w.src ||| tilesOf w.ix, 0#18⟩

/-- A command that writes no memory: it loads a set, or sends markers (R203, R207). -/
def XKind.quiet (k : XKind) : Bool := k == .cfg || k == .close

/-- Issue of a transfer command (R19, R46, R59, R159, R162, R167, R168, R181, R191, R203): a stall leaves the state as it is, but
for LODC, which counts an XL stall of R168 once. -/
def State.xferIssue (s : State) (i : Instr) : State :=
  match xopOf i with
  | none => s
  | some o =>
    let k := s.cur.k.val
    let c := s.me
    let src := s.xsrc
    let queue := src == .queue
    let word : Word := match encode i with
      | some (_, w) => w
      | none => 0#32
    let mine := c.x.cmds.filter fun e => e.src == src
    let bf := match s.cur.entry with
      | some e => e.bf
      | none => c.sys.bfmt
    let operand := s.cur.entry.map fun e => e.operand
    let rs := c.rawSet o.x.src
    let rd := c.rawSet o.x.dst
    let rp := c.rawSet o.pair
    let stalls := 16 ≤ mine.length
      || mine.any (fun e => (o.sets queue).any e.loads)
      || ((o.x.rel || o.x.tok.push != 0#2) && mine.any fun e => e.st == .resolution)
      || (!queue && !c.tokensOk s.cur.st o.x.tok)
    if stalls then s
    else match checkOp o bf (setOf rs) (setOf rd) (setOf rp) operand with
      | .error f => s.xferFail f
      | .ok () =>
        let w := walksOf o bf (setOf rs) (setOf rd) (setOf rp) operand
        let ix := indexRanges o w
        let pc := (c.eng s.cur.st).pc
        if mine.any fun e => anyOverlap ix (e.writeRanges ++ s.combineOut k e) then
          if src == .xl && c.x.lodcAt != some pc then
            s.modCore k fun c =>
              { c with
                sys := { c.sys with lodc := if c.sys.lodc == BitVec.allOnes 64 then c.sys.lodc else c.sys.lodc + 1#64 },
                x := { c.x with lodcAt := some pc } }
          else s
        else
          let l := opLocks k o bf w (setOf rd).aux
          if !c.grantable l then s
          else
            let seq := vget c.x.seq src.code 0#64
            let gen := s.gen k src.unit4
            let cmd : Cmd :=
              { id := c.next, src := src, q := (s.cur.entry.map fun e => e.q).getD 0, word := word,
                operand := operand.getD 0#64, seq := seq, s := rs, d := rd, p := rp, bf := bf, gen := gen,
                mark := (s.cur.entry.map fun e => e.mark).getD 0, rd := l.rd, wr := l.wr, trd := l.trd,
                pc := if queue then 0#32 else pc, round := s.roundNow k src (setOf rd).aux }
            let n := drawCount o bf (setOf rs) (setOf rd)
            let s := if n = 0 then s else s.setGen k src.unit4 (draws gen n).2
            let s := s.modCore k fun c =>
              let c := if queue then { c with next := c.next + 1, x := { c.x with queue := c.x.queue.drop 1 } }
                else ((c.takeTokens s.cur.st o.x.tok).begin_ s.cur.st
                  { id := 0, push := pushFifo s.cur.st o.x.tok.push, quiet := o.kind.quiet }).stepEng s.cur.st
              { c with x := { c.x with
                  sets := advanceSets o queue c.x.sets
                  cmds := c.x.cmds ++ [s.resolvePeers k cmd]
                  seq := vset c.x.seq src.code (seq + 1#64)
                  lodcAt := if src == .xl then none else c.x.lodcAt } }
            s.charge k 1 0 0xF 1

def execXcpy (x : XArgs) (m : RMode) (s : State) : Host.Outcome State Fault Refusal := .next (s.xferIssue (.xcpy x m))
def execXgat (x : XArgs) (m : RMode) (s : State) : Host.Outcome State Fault Refusal := .next (s.xferIssue (.xgat x m))
def execXsct (x : XArgs) (m : RMode) (s : State) : Host.Outcome State Fault Refusal := .next (s.xferIssue (.xsct x m))
def execXfil (x : XArgs) (m : RMode) (s : State) : Host.Outcome State Fault Refusal := .next (s.xferIssue (.xfil x m))
def execXmcs (x : XArgs) (m : RMode) (s : State) : Host.Outcome State Fault Refusal := .next (s.xferIssue (.xmcs x m))
def execXpf (x : XArgs) (s : State) : Host.Outcome State Fault Refusal := .next (s.xferIssue (.xpf x))
def execXwb (x : XArgs) (s : State) : Host.Outcome State Fault Refusal := .next (s.xferIssue (.xwb x))
def execXput (x : XArgs) (s : State) : Host.Outcome State Fault Refusal := .next (s.xferIssue (.xput x))
def execXget (x : XArgs) (s : State) : Host.Outcome State Fault Refusal := .next (s.xferIssue (.xget x))
def execSelk (x : XArgs) (k : Bool) (s : State) : Host.Outcome State Fault Refusal := .next (s.xferIssue (.selk x k))
def execXcfg (x : XArgs) (s : State) : Host.Outcome State Fault Refusal := .next (s.xferIssue (.xcfg x))
def execAcwAdd32 (x : XArgs) (r d : Bool) (s : State) : Host.Outcome State Fault Refusal := .next (s.xferIssue (.acwAdd32 x r d))
def execAcwAdd64 (x : XArgs) (r d : Bool) (s : State) : Host.Outcome State Fault Refusal := .next (s.xferIssue (.acwAdd64 x r d))
def execAcwAddf (x : XArgs) (r d : Bool) (s : State) : Host.Outcome State Fault Refusal := .next (s.xferIssue (.acwAddf x r d))
def execAcwMax32 (x : XArgs) (r d : Bool) (s : State) : Host.Outcome State Fault Refusal := .next (s.xferIssue (.acwMax32 x r d))
def execAcwMax64 (x : XArgs) (r d : Bool) (s : State) : Host.Outcome State Fault Refusal := .next (s.xferIssue (.acwMax64 x r d))
def execAcwMaxf (x : XArgs) (r d : Bool) (s : State) : Host.Outcome State Fault Refusal := .next (s.xferIssue (.acwMaxf x r d))
def execAcwMin32 (x : XArgs) (r d : Bool) (s : State) : Host.Outcome State Fault Refusal := .next (s.xferIssue (.acwMin32 x r d))
def execAcwMin64 (x : XArgs) (r d : Bool) (s : State) : Host.Outcome State Fault Refusal := .next (s.xferIssue (.acwMin64 x r d))
def execAcwMinf (x : XArgs) (r d : Bool) (s : State) : Host.Outcome State Fault Refusal := .next (s.xferIssue (.acwMinf x r d))
def execAcwAnd32 (x : XArgs) (r d : Bool) (s : State) : Host.Outcome State Fault Refusal := .next (s.xferIssue (.acwAnd32 x r d))
def execAcwAnd64 (x : XArgs) (r d : Bool) (s : State) : Host.Outcome State Fault Refusal := .next (s.xferIssue (.acwAnd64 x r d))
def execAcwOr32 (x : XArgs) (r d : Bool) (s : State) : Host.Outcome State Fault Refusal := .next (s.xferIssue (.acwOr32 x r d))
def execAcwOr64 (x : XArgs) (r d : Bool) (s : State) : Host.Outcome State Fault Refusal := .next (s.xferIssue (.acwOr64 x r d))
def execAcwXchg32 (x : XArgs) (r d : Bool) (s : State) : Host.Outcome State Fault Refusal := .next (s.xferIssue (.acwXchg32 x r d))
def execAcwXchg64 (x : XArgs) (r d : Bool) (s : State) : Host.Outcome State Fault Refusal := .next (s.xferIssue (.acwXchg64 x r d))
def execCmb (x : XArgs) (s : State) : Host.Outcome State Fault Refusal := .next (s.xferIssue (.cmb x))
def execXrcl (x : XArgs) (s : State) : Host.Outcome State Fault Refusal := .next (s.xferIssue (.xrcl x))

/-- R208. -/
def execXtok (t : Tok) (s : State) : Host.Outcome State Fault Refusal := .next (s.tokenWord t)

/-- R209: issues once TAGS holds the bit, and complete at once; the bit stays. -/
def execXtw (tag : BitVec 6) (t : Tok) (s : State) : Host.Outcome State Fault Refusal :=
  if s.me.sys.tags.getLsbD tag.toNat then .next (s.tokenWord t) else .next s

/-- R210; a command that waits on resolution, like every incomplete one, holds the arrival back. -/
def execXrdv (i : BitVec 2) (m : BitVec 8) (t : Tok) (s : State) : Host.Outcome State Fault Refusal := .next (s.rdvWord i m t)

/-- R211. -/
def execXnfy (t : Tok) (s : State) : Host.Outcome State Fault Refusal := .next (s.notifyWord t)

end Sys2Proof.Machine
end

