-- ==== Sys2Proof/Machine/Order.lean ====
section
/-! DEFINITION. The events of memory order (R62 to R67): what a release waits for and holds back (R64), a write applied at a home of
its own die, a write that reaches a home on another die and is applied or held, a held write applied, a close marker. An event that
the order forbids now does nothing. -/

namespace Sys2Proof.Machine

/-! ### Releases -/

/-- The identity of a command outside its core. -/
def State.cmdRef (s : State) (k : Nat) (c : Cmd) : CmdRef :=
  match (s.core k).job with
  | some j => ⟨j.team, j.rank.toNat, c.src, c.seq⟩
  | none => ⟨0, 0, c.src, c.seq⟩

/-- The scope of a command's word (R163). -/
def Cmd.scope (c : Cmd) : Scope :=
  match xopOfWord c.word with
  | some o => o.x.scope
  | none => .stream

/-- A command flagged release whose release is not performed yet: at stream scope a release holds nothing (R63, R64). -/
def Cmd.holding (c : Cmd) : Bool := c.word.getLsbD 10 && fld c.word 7 3 != 0#3

/-- A write of command c of core k is not visible at a scope (R63). -/
def State.writesHidden (s : State) (k : Nat) (c : Cmd) (sc : Scope) : Bool :=
  scopeHides sc && s.writes.any fun w => w.by_ == c.src.writer k && w.cmd == some c.id

/-- An update or combine of command c is not applied yet. -/
def State.updatesHidden (s : State) (k : Nat) (c : Cmd) : Bool :=
  (s.updates.any fun u => u.ref == s.cmdRef k c) || s.combines.any fun m => m.ref == s.cmdRef k c

/-- Command e of core k has nothing to write any more that scope sc would have to see (R63, R64): it writes nothing, or all its
accesses are done and visible, at stream scope as soon as they are issued; an unacknowledged put hides at fabric scope alone. -/
def State.settledAt (s : State) (k : Nat) (sc : Scope) (e : Cmd) : Bool :=
  match xopOfWord e.word with
  | none => true
  | some o =>
    o.kind == .cfg || o.kind == .close ||
    ((e.st == .performed || (e.st == .network && o.kind == .put && sc != .fabric))
      && !s.writesHidden k e sc && (!scopeHides sc || !s.updatesHidden k e))

/-- Every command of the stream of c that was issued before it is settled at a scope (R64). -/
def State.earlierSettled (s : State) (k : Nat) (c : Cmd) (sc : Scope) : Bool :=
  ((s.core k).x.cmds.filter fun e => e.src == c.src && e.id < c.id).all (s.settledAt k sc)

/-! ### Writes -/

/-- A write of the same issuer to the same bytes precedes it and is not applied (R62). -/
def State.overtakes (s : State) (w : Write) : Bool :=
  s.writes.any fun o => o.id < w.id && o.by_ == w.by_ && overlaps o.loc o.data.length w.loc w.data.length

/-- An update that is on its way and not deterministic. -/
def Update.plainFlying (u : Update) : Bool := u.det.isNone && u.st == .flying

/-- An update not yet accepted by its home. -/
def Update.unsettled (u : Update) : Bool :=
  match u.st with
  | .flying => true
  | .retry _ => true
  | .held => false
  | .answered _ => false

/-- A write, row or update sent earlier from die `src` to die `home` is not applied (R66). -/
def State.behindOf (s : State) (id src home : Nat) : Bool :=
  (s.writes.any fun o => o.id < id && o.src == src && o.home == home) ||
  (s.combines.any fun o => o.id < id && coreDie o.core == src && homeDie o.loc == home) ||
  s.updates.any fun o => o.id < id && coreDie o.core == src && o.home == home && o.plainFlying

/-- A write sent earlier from the same die to the same home is not applied (R66). -/
def State.behind (s : State) (w : Write) : Bool := s.behindOf w.id w.src w.home

/-- The home has applied what a stamp depends on (R66): C_h[k] at or above w[k] for every k other than the sender. -/
def State.stampOkOf (s : State) (home src : Nat) (stamp : Vector (BitVec 48) 8) : Bool :=
  let c := (s.die home).cclk
  (upto 8).all fun k => k == src || serialGe (vget c k 0#48) (vget stamp k 0#48)

/-- The home has applied what the write's stamp depends on (R66). -/
def State.stampOk (s : State) (w : Write) : Bool := s.stampOkOf w.home w.src w.stamp

/-- The scratchpad bank of a location, by 32 × core + bank. -/
def bankOf (l : Nat) : Nat := 32 * scratchCore l + scratchOff l / 0x10000

/-- Apply a write at its home: memory, the poison of lines written whole (R391), the stamps the home has applied (R66), and, at a bank of another core, who was served last
(R60). -/
def State.applyWrite (s : State) (w : Write) : State :=
  let s := s.mend w.loc w.data
  let s := { s with
    mem := Memory.writeMask s.mem w.loc w.data
    writes := s.writes.filter fun o => o.id != w.id
    served := if isScratch w.loc && scratchCore w.loc != w.by_.core then mset s.served (bankOf w.loc) w.by_.core else s.served }
  s.modDie w.home fun d => { d with applied := clkMax d.applied w.stamp }

/-- R62, R65: a write whose home is on its own die is applied there. -/
def execWriteApplied (id : Nat) (s : State) : Host.Outcome State Fault Refusal :=
  match s.writes.find? fun w => w.id == id with
  | none => .next s
  | some w =>
    if w.home == w.src && !s.overtakes w then .next (s.applyWrite w) else .next s

/-- A remote write may be applied now. -/
def State.arrivalOk (s : State) (w : Write) : Bool :=
  !s.overtakes w && !s.behind w && s.stampOk w

/-- R66: a write from another die reaches its home, which applies it or holds it. -/
def execWriteArrivalHome (id : Nat) (s : State) : Host.Outcome State Fault Refusal :=
  match s.writes.find? fun w => w.id == id with
  | none => .next s
  | some w =>
    if w.home == w.src || w.held then .next s
    else if s.arrivalOk w then .next (s.applyWrite w)
    else .next { s with writes := s.writes.map fun o => if o.id = id then { o with held := true } else o }

/-- R66: a held write whose predecessors have been applied is applied. -/
def execHeldWriteApply (id : Nat) (s : State) : Host.Outcome State Fault Refusal :=
  match s.writes.find? fun w => w.id == id with
  | none => .next s
  | some w => if w.held && s.arrivalOk w then .next (s.applyWrite w) else .next s

/-- R66: a close marker takes effect at its home once every write it counts is applied: C_h[j] := e + 1. Markers of one die take
effect in order. -/
def execCloseMarkerArrival (id : Nat) (s : State) : Host.Outcome State Fault Refusal :=
  match s.markers.find? fun m => m.id == id with
  | none => .next s
  | some m =>
    if vget (s.die m.dst).cclk m.src 0#48 == m.epoch &&
       !(s.writes.any fun w => w.src == m.src && w.home == m.dst && vget w.stamp m.src 0#48 == m.epoch) &&
       !(s.updates.any fun u => coreDie u.core == m.src && u.home == m.dst && vget u.stamp m.src 0#48 == m.epoch && u.unsettled) &&
       !(s.combines.any fun u => coreDie u.core == m.src && homeDie u.loc == m.dst && vget u.stamp m.src 0#48 == m.epoch)
    then
      .next ({ s with markers := s.markers.filter fun x => x.id != id }.modDie m.dst fun d =>
        { d with cclk := vset d.cclk m.src (m.epoch + 1#48) })
    else .next s

end Sys2Proof.Machine
end

