-- ==== Sys2Proof/Machine/SeqAlu.lean ====
section
/-! DEFINITION. Sequencer arithmetic, logic, shifts, constants, bit counts, bit fields, compares, predicates and select (R112 to
R122). None traps on its data; each charges the class of R111, writes its destination and goes to the next word. -/

namespace Sys2Proof.Machine

/-- A word that writes rd with v: charge class `cls` of the sequencer (R111, R261), rd, next word. -/
def State.putG (s : State) (cls : Nat) (d : BitVec 5) (v : Dword) : State :=
  (s.charge s.cur.k.val 0 cls 0xF 1).modBlk fun b => (b.setReg d v).step

/-- A word that writes predicate pD. -/
def State.putP (s : State) (d : BitVec 3) (v : Bool) : State :=
  (s.charge s.cur.k.val 0 0 0xF 1).modBlk fun b => (b.setPred d v).step

/-- The high 64 bits of the signed product (R112). -/
def mulHigh (x y : Dword) : Dword := BitVec.ofInt 64 (x.toInt * y.toInt / 2 ^ 64)
/-- The high 64 bits of the unsigned product (R112). -/
def mulHighU (x y : Dword) : Dword := BitVec.ofNat 64 (x.toNat * y.toNat / 2 ^ 64)
/-- The shift amount: bits [5:0] (R112). -/
def shamt (y : Dword) : Nat := y.toNat % 64

def execAdd (d a b : BitVec 5) (s : State) : Host.Outcome State Fault Refusal := .next (s.putG 0 d (s.g a + s.g b))
def execSub (d a b : BitVec 5) (s : State) : Host.Outcome State Fault Refusal := .next (s.putG 0 d (s.g a - s.g b))
def execMul (d a b : BitVec 5) (s : State) : Host.Outcome State Fault Refusal := .next (s.putG 1 d (s.g a * s.g b))
def execMulh (d a b : BitVec 5) (s : State) : Host.Outcome State Fault Refusal := .next (s.putG 1 d (mulHigh (s.g a) (s.g b)))
def execMulhu (d a b : BitVec 5) (s : State) : Host.Outcome State Fault Refusal := .next (s.putG 1 d (mulHighU (s.g a) (s.g b)))
def execAnd (d a b : BitVec 5) (s : State) : Host.Outcome State Fault Refusal := .next (s.putG 0 d (s.g a &&& s.g b))
def execOr (d a b : BitVec 5) (s : State) : Host.Outcome State Fault Refusal := .next (s.putG 0 d (s.g a ||| s.g b))
def execXor (d a b : BitVec 5) (s : State) : Host.Outcome State Fault Refusal := .next (s.putG 0 d (s.g a ^^^ s.g b))
def execAndn (d a b : BitVec 5) (s : State) : Host.Outcome State Fault Refusal := .next (s.putG 0 d (s.g a &&& ~~~(s.g b)))
def execSll (d a b : BitVec 5) (s : State) : Host.Outcome State Fault Refusal := .next (s.putG 0 d (s.g a <<< shamt (s.g b)))
def execSrl (d a b : BitVec 5) (s : State) : Host.Outcome State Fault Refusal := .next (s.putG 0 d (s.g a >>> shamt (s.g b)))
def execSra (d a b : BitVec 5) (s : State) : Host.Outcome State Fault Refusal :=
  .next (s.putG 0 d ((s.g a).sshiftRight (shamt (s.g b))))
def execRor (d a b : BitVec 5) (s : State) : Host.Outcome State Fault Refusal :=
  .next (s.putG 0 d ((s.g a).rotateRight (shamt (s.g b))))
def execMin (d a b : BitVec 5) (s : State) : Host.Outcome State Fault Refusal :=
  .next (s.putG 0 d (if (s.g a).slt (s.g b) then s.g a else s.g b))
def execMax (d a b : BitVec 5) (s : State) : Host.Outcome State Fault Refusal :=
  .next (s.putG 0 d (if (s.g a).slt (s.g b) then s.g b else s.g a))
def execMinu (d a b : BitVec 5) (s : State) : Host.Outcome State Fault Refusal :=
  .next (s.putG 0 d (if (s.g a).ult (s.g b) then s.g a else s.g b))
def execMaxu (d a b : BitVec 5) (s : State) : Host.Outcome State Fault Refusal :=
  .next (s.putG 0 d (if (s.g a).ult (s.g b) then s.g b else s.g a))
def execLea1 (d a b : BitVec 5) (s : State) : Host.Outcome State Fault Refusal := .next (s.putG 0 d (s.g a + s.g b <<< 1))
def execLea2 (d a b : BitVec 5) (s : State) : Host.Outcome State Fault Refusal := .next (s.putG 0 d (s.g a + s.g b <<< 2))
def execLea3 (d a b : BitVec 5) (s : State) : Host.Outcome State Fault Refusal := .next (s.putG 0 d (s.g a + s.g b <<< 3))

/-- R113. -/
def execAddi (d a : BitVec 5) (i : BitVec 16) (s : State) : Host.Outcome State Fault Refusal :=
  .next (s.putG 0 d (s.g a + sext i))
def execAndi (d a : BitVec 5) (i : BitVec 16) (s : State) : Host.Outcome State Fault Refusal :=
  .next (s.putG 0 d (s.g a &&& zext i))
def execOri (d a : BitVec 5) (i : BitVec 16) (s : State) : Host.Outcome State Fault Refusal :=
  .next (s.putG 0 d (s.g a ||| zext i))
def execXori (d a : BitVec 5) (i : BitVec 16) (s : State) : Host.Outcome State Fault Refusal :=
  .next (s.putG 0 d (s.g a ^^^ zext i))

/-- R114. -/
def execSlli (d a : BitVec 5) (h : BitVec 6) (s : State) : Host.Outcome State Fault Refusal :=
  .next (s.putG 0 d (s.g a <<< h.toNat))
def execSrli (d a : BitVec 5) (h : BitVec 6) (s : State) : Host.Outcome State Fault Refusal :=
  .next (s.putG 0 d (s.g a >>> h.toNat))
def execSrai (d a : BitVec 5) (h : BitVec 6) (s : State) : Host.Outcome State Fault Refusal :=
  .next (s.putG 0 d ((s.g a).sshiftRight h.toNat))
def execRori (d a : BitVec 5) (h : BitVec 6) (s : State) : Host.Outcome State Fault Refusal :=
  .next (s.putG 0 d ((s.g a).rotateRight h.toNat))

/-- R115. -/
def execMovi (d : BitVec 5) (i : BitVec 16) (s : State) : Host.Outcome State Fault Refusal := .next (s.putG 0 d (sext i))

/-- x with halfword h replaced by i (R115). -/
def setHalf (x : Dword) (h : BitVec 2) (i : BitVec 16) : Dword :=
  (x &&& ~~~(0xFFFF#64 <<< (16 * h.toNat))) ||| (zext i <<< (16 * h.toNat))

def execMovk (d : BitVec 5) (h : BitVec 2) (i : BitVec 16) (s : State) : Host.Outcome State Fault Refusal :=
  .next (s.putG 0 d (setHalf (s.g d) h i))

/-- Number of ones among bits 0 to n - 1 (R117). -/
def onesBelow (x : Dword) : Nat → Nat
  | 0 => 0
  | n + 1 => onesBelow x n + if x.getLsbD n then 1 else 0

/-- Zero bits above the highest 1 among bits 0 to n - 1 (R117). -/
def leadZeros (x : Dword) : Nat → Nat
  | 0 => 0
  | n + 1 => if x.getLsbD n then 0 else leadZeros x n + 1

/-- Zero bits below the lowest 1 from bit 64 - n on (R117). -/
def trailZeros (x : Dword) : Nat → Nat
  | 0 => 0
  | n + 1 => if x.getLsbD (63 - n) then 0 else trailZeros x n + 1

/-- Bits reversed (R117): bit i from bit 63 - i. -/
def bitRev (x : Dword) : Dword := x.reverse

/-- Bytes reversed (R117): byte i from byte 7 - i. -/
def byteRev (x : Dword) : Dword :=
  x.extractLsb' 0 8 ++ x.extractLsb' 8 8 ++ x.extractLsb' 16 8 ++ x.extractLsb' 24 8 ++ x.extractLsb' 32 8
    ++ x.extractLsb' 40 8 ++ x.extractLsb' 48 8 ++ x.extractLsb' 56 8

def execPopc (d a : BitVec 5) (s : State) : Host.Outcome State Fault Refusal :=
  .next (s.putG 1 d (BitVec.ofNat 64 (onesBelow (s.g a) 64)))
def execClz (d a : BitVec 5) (s : State) : Host.Outcome State Fault Refusal :=
  .next (s.putG 1 d (BitVec.ofNat 64 (leadZeros (s.g a) 64)))
def execCtz (d a : BitVec 5) (s : State) : Host.Outcome State Fault Refusal :=
  .next (s.putG 1 d (BitVec.ofNat 64 (trailZeros (s.g a) 64)))
def execBrev (d a : BitVec 5) (s : State) : Host.Outcome State Fault Refusal := .next (s.putG 0 d (bitRev (s.g a)))
def execBswap (d a : BitVec 5) (s : State) : Host.Outcome State Fault Refusal := .next (s.putG 0 d (byteRev (s.g a)))

/-- The field of width w at lsb l, zeros read above bit 63 (R118, R119). -/
def bitField (x : Dword) (w l : Nat) : Nat := x.toNat / 2 ^ l % 2 ^ w

/-- The field sign-extended from bit w - 1; 0 for width 0 (R118, R119). -/
def bitFieldS (x : Dword) (w l : Nat) : Dword :=
  let f := bitField x w l
  if w = 0 then 0#64 else if f < 2 ^ (w - 1) then BitVec.ofNat 64 f else BitVec.ofInt 64 ((f : Int) - 2 ^ w)

/-- y with its bits [l + w - 1 : l] replaced by the low w bits of x, those above bit 63 dropped (R118, R119). -/
def bitInsert (y x : Dword) (w l : Nat) : Dword :=
  let m := BitVec.ofNat 64 (2 ^ w - 1) <<< l
  (y &&& ~~~m) ||| (BitVec.ofNat 64 (x.toNat % 2 ^ w) <<< l)

def execBfx (d a : BitVec 5) (w : BitVec 7) (l : BitVec 6) (s : State) : Host.Outcome State Fault Refusal :=
  .next (s.putG 0 d (BitVec.ofNat 64 (bitField (s.g a) w.toNat l.toNat)))
def execBfxs (d a : BitVec 5) (w : BitVec 7) (l : BitVec 6) (s : State) : Host.Outcome State Fault Refusal :=
  .next (s.putG 0 d (bitFieldS (s.g a) w.toNat l.toNat))
def execBfi (d a : BitVec 5) (w : BitVec 7) (l : BitVec 6) (s : State) : Host.Outcome State Fault Refusal :=
  .next (s.putG 0 d (bitInsert (s.g d) (s.g a) w.toNat l.toNat))

/-- R120, R121. -/
def execCmp (p : BitVec 3) (a b : BitVec 5) (c : Cond) (s : State) : Host.Outcome State Fault Refusal :=
  .next (s.putP p (condHolds c (s.g a) (s.g b)))
def execCmpi (p : BitVec 3) (a : BitVec 5) (c : Cond) (i : BitVec 12) (s : State) : Host.Outcome State Fault Refusal :=
  .next (s.putP p (condHolds c (s.g a) (sext i)))

/-- R122. -/
def execSel (d a b : BitVec 5) (p : BitVec 3) (s : State) : Host.Outcome State Fault Refusal :=
  .next (s.putG 0 d (if s.p p then s.g a else s.g b))
def execPand (d a b : BitVec 3) (s : State) : Host.Outcome State Fault Refusal := .next (s.putP d (s.p a && s.p b))
def execPor (d a b : BitVec 3) (s : State) : Host.Outcome State Fault Refusal := .next (s.putP d (s.p a || s.p b))
def execPxor (d a b : BitVec 3) (s : State) : Host.Outcome State Fault Refusal := .next (s.putP d (s.p a ^^ s.p b))
def execPandn (d a b : BitVec 3) (s : State) : Host.Outcome State Fault Refusal := .next (s.putP d (s.p a && !s.p b))

/-- All predicates as a number, bit 0 set (R122). -/
def predWord (b : Block) : Dword := zext ((b.p &&& 0xFE#8) ||| 1#8)

def execPrd (d : BitVec 5) (s : State) : Host.Outcome State Fault Refusal := .next (s.putG 0 d (predWord s.blk))
def execPwr (a : BitVec 5) (s : State) : Host.Outcome State Fault Refusal :=
  let v := (s.g a).extractLsb' 0 8
  .next ((s.charge s.cur.k.val 0 0 0xF 1).modBlk fun b => { b with p := v &&& 0xFE#8 }.step)

end Sys2Proof.Machine
end

