-- ==== Sys2Proof/Machine/SeqMem.lean ====
section
/-! DEFINITION. Sequencer loads, stores, spill and fill (R123 to R127). A store is a write on its way to its home (R62, R65); a
load reads the stream's own latest store, else memory (R125). -/

namespace Sys2Proof.Machine

/-- The block stream that acts, as the issuer of a write. -/
def State.seqWriter (s : State) : Writer := ⟨s.cur.k.val, s.cur.q.val⟩

/-- The n bytes at a location as the acting block stream reads them (R125). -/
def State.seqBytes (s : State) (l : Nat) : Nat → List Byte
  | 0 => []
  | n + 1 => s.ownByte s.seqWriter l :: State.seqBytes s (l + 1) n

/-- A checked read of n bytes at address word a (R124): the value, or the cause; the reading die observes the home (R66). -/
def State.seqRead (s : State) (a : Dword) (n : Nat) : Except Byte Nat × State :=
  match s.seqLocate a n .read with
  | (.error e, t) => (.error e, t)
  | (.ok l, t) =>
    if isHbm l && t.poisoned l n then (.error cPOISON, t)
    else (.ok (natOfBytes (t.seqBytes l n)), t.observe (coreDie t.cur.k.val) (homeDie l))

/-- A checked write of n bytes at address word a (R124), or the cause. -/
def State.seqWrite (s : State) (a : Dword) (n : Nat) (v : Dword) : Except Byte Unit × State :=
  match s.seqLocate a n .write with
  | (.error e, t) => (.error e, t)
  | (.ok l, t) => (.ok (), t.emit t.seqWriter none l (wholeBytes (bytesOfNat n v.toNat)))

/-- A load of n bytes into rd (R123, R124): charged per instruction and per byte (R111). A trap of any cause is delivered
under R147. -/
def State.load (s : State) (d a : BitVec 5) (o : BitVec 16) (n : Nat) (ext : Nat → Dword) : State :=
  let k := s.cur.k.val
  let ad := s.mAddr a o
  let s := s.charge k 0 0 0xF 1
  match s.seqRead ad n with
  | (.error e, t) => t.trap e 0#8 ad
  | (.ok v, t) => (t.charge k 0 2 0xF n).modBlk fun b => (b.setReg d (ext v)).step

/-- A store of the low n bytes of rd (R123, R124). -/
def State.store (s : State) (r a : BitVec 5) (o : BitVec 16) (n : Nat) : State :=
  let k := s.cur.k.val
  let ad := s.mAddr a o
  let v := s.g r
  let s := s.charge k 0 0 0xF 1
  match s.seqWrite ad n v with
  | (.error e, t) => t.trap e 0#8 ad
  | (.ok _, t) => (t.charge k 0 2 0xF n).modBlk Block.step

/-- Zero-extension of a loaded value. -/
def loadZ (v : Nat) : Dword := BitVec.ofNat 64 v
/-- Sign-extension of a loaded value of n bits. -/
def loadS (n : Nat) (v : Nat) : Dword := (BitVec.ofNat n v).signExtend 64

def execLdBz (d a : BitVec 5) (o : BitVec 16) (s : State) : Host.Outcome State Fault Refusal := .next (s.load d a o 1 loadZ)
def execLdBs (d a : BitVec 5) (o : BitVec 16) (s : State) : Host.Outcome State Fault Refusal := .next (s.load d a o 1 (loadS 8))
def execLdHz (d a : BitVec 5) (o : BitVec 16) (s : State) : Host.Outcome State Fault Refusal := .next (s.load d a o 2 loadZ)
def execLdHs (d a : BitVec 5) (o : BitVec 16) (s : State) : Host.Outcome State Fault Refusal := .next (s.load d a o 2 (loadS 16))
def execLdWz (d a : BitVec 5) (o : BitVec 16) (s : State) : Host.Outcome State Fault Refusal := .next (s.load d a o 4 loadZ)
def execLdWs (d a : BitVec 5) (o : BitVec 16) (s : State) : Host.Outcome State Fault Refusal := .next (s.load d a o 4 (loadS 32))
def execLdDz (d a : BitVec 5) (o : BitVec 16) (s : State) : Host.Outcome State Fault Refusal := .next (s.load d a o 8 loadZ)
def execStB (r a : BitVec 5) (o : BitVec 16) (s : State) : Host.Outcome State Fault Refusal := .next (s.store r a o 1)
def execStH (r a : BitVec 5) (o : BitVec 16) (s : State) : Host.Outcome State Fault Refusal := .next (s.store r a o 2)
def execStW (r a : BitVec 5) (o : BitVec 16) (s : State) : Host.Outcome State Fault Refusal := .next (s.store r a o 4)
def execStD (r a : BitVec 5) (o : BitVec 16) (s : State) : Host.Outcome State Fault Refusal := .next (s.store r a o 8)

/-- Completion of a `spillm` or `fillm`: TRPROG zero, next word (R127). -/
def State.runDone (s : State) : State := s.modBlk fun b => { b with trprog := 0#5 }.step

/-- The i-th register of a run of n has been transferred (R126, R127): TRPROG counts it; after the last one the run is complete; else the
word stays at its pc and holds the pipeline, so that the next act goes on behind it (R110, R153, log 89). -/
def State.runNext (s : State) (i n : Nat) : State :=
  let s := s.charge s.cur.k.val 0 2 0xF 8
  if n ≤ i + 1 then s.runDone else s.modBlk fun b => { b with trprog := BitVec.ofNat 5 (i + 1), busy := true }

/-- The charge of a run's word, once when it issues (R111). -/
def State.runCharge (s : State) : State := if s.blk.busy then s else s.charge s.cur.k.val 0 0 0xF 1

/-- The registers of a run from f to l. -/
def runLength (f l : BitVec 5) : Nat := l.toNat - f.toNat + 1

/-- R126, R127: register F + TRPROG goes to memory; a TRPROG of n or more completes the word with no transfer. A trap leaves TRPROG as the
number of registers transferred. -/
def execSpillm (f b l : BitVec 5) (s : State) : Host.Outcome State Fault Refusal :=
  let i := s.blk.trprog.toNat
  let s := s.runCharge
  let a := s.g b + BitVec.ofNat 64 (8 * i)
  if runLength f l ≤ i then .next s.runDone
  else match s.seqWrite a 8 (s.g (f + BitVec.ofNat 5 i)) with
    | (.error e, t) => .next (t.trap e 0#8 a)
    | (.ok _, t) => .next (t.runNext i (runLength f l))

/-- R126, R127: register F + TRPROG from memory; a fill of g0 discards. -/
def execFillm (f b l : BitVec 5) (s : State) : Host.Outcome State Fault Refusal :=
  let i := s.blk.trprog.toNat
  let s := s.runCharge
  let a := s.g b + BitVec.ofNat 64 (8 * i)
  if runLength f l ≤ i then .next s.runDone
  else match s.seqRead a 8 with
    | (.error e, t) => .next (t.trap e 0#8 a)
    | (.ok v, t) => .next ((t.modBlk fun x => x.setReg (f + BitVec.ofNat 5 i) (loadZ v)).runNext i (runLength f l))

end Sys2Proof.Machine
end

