-- ==== Sys2Proof/Machine/SeqCtl.lean ====
section
/-! DEFINITION. Sequencer control: branches and jumps (R128, R129), stream control (R130 to R133), tag waits (R134, R135), fences
(R136), software traps and return (R142, R143), and the events of an unassigned word and of a fetch outside the section (R106,
R107). -/

namespace Sys2Proof.Machine

/-- The charge of one sequencer instruction (R111). -/
def State.seqCharge (s : State) : State := s.charge s.cur.k.val 0 0 0xF 1

/-- A branch is taken when pred xor neg is 1 (R104). -/
def State.taken (s : State) (p : BitVec 3) (n : Bool) : Bool := s.p p ^^ n

/-- R128. -/
def execBr (p : BitVec 3) (n : Bool) (o : BitVec 22) (s : State) : Host.Outcome State Fault Refusal :=
  let t := s.taken p n
  .next (s.seqCharge.modBlk fun b => { b with pc := if t then b.pc + sext o else b.pc + 1#64 })
def execCall (p : BitVec 3) (n : Bool) (o : BitVec 22) (s : State) : Host.Outcome State Fault Refusal :=
  let t := s.taken p n
  .next (s.seqCharge.modBlk fun b =>
    if t then { b.setReg 31#5 (b.pc + 1#64) with pc := b.pc + sext o } else b.step)

/-- R129: the target is read before the link is written; any target outside the section traps at its fetch. -/
def execJmp (a : BitVec 5) (s : State) : Host.Outcome State Fault Refusal :=
  let t := s.g a
  .next (s.seqCharge.modBlk fun b => { b with pc := t })
def execJmpl (d a : BitVec 5) (s : State) : Host.Outcome State Fault Refusal :=
  let t := s.g a
  .next (s.seqCharge.modBlk fun b => { b.setReg d (b.pc + 1#64) with pc := t })
def execRet (a : BitVec 5) (s : State) : Host.Outcome State Fault Refusal :=
  let t := s.g a
  .next (s.seqCharge.modBlk fun b => { b with pc := t })

/-- The done mask of the acting core's job with stream i's bit cleared (R130). -/
def Core.clearDone (c : Core) (i : Nat) : Core :=
  { c with job := c.job.map fun j => { j with done := j.done &&& ~~~(maskOf i) } }

/-- R130. -/
def execJstart (p : BitVec 3) (a b : BitVec 5) (q : BitVec 2) (s : State) : Host.Outcome State Fault Refusal :=
  let k := s.cur.k.val
  let i : Fin 4 := ⟨q.toNat, q.isLt⟩
  let x := s.me.q[i.val]
  let pc := s.g a
  let arg := s.g b
  let s := s.seqCharge
  if i = s.cur.q || x.st == .absent then .next (s.trap cILLEGAL 0x04#8 (zext q))
  else if x.st == .ended then
    .next (((s.modQ k i fun y => { y.setReg 1#5 arg with pc := pc, st := .ready }).modCore k fun c => c.clearDone i.val).modBlk
      fun y => (y.setPred p true).step)
  else .next (s.modBlk fun y => (y.setPred p false).step)

/-- R131: the stream arrives once its stores are performed, and holds the pipeline until then; its earlier `xcp` commands count as
accepted once they stand in the command queue (log 90). Arrival ends the block. -/
def execRdv (i : BitVec 2) (m : BitVec 8) (s : State) : Host.Outcome State Fault Refusal :=
  let w := rForm 0x24#6 (0#3 ++ i) 0#5 0#5 (1#3 ++ m)
  let k := s.cur.k.val
  let q := s.cur.q.val
  let t := if s.blk.busy then s else s.seqCharge
  if s.storing k s.cur.q then .next t.hold
  else match s.me.rdvMisuse q i m with
    | some e => .next (t.jobFaultFree k e q (s.blk.pc.setWidth 32))
    | none => .next ((t.modCore k fun c => c.arrive q i m).wait w 0#64)

/-- XL, M, V or XS of the job has not reached its end (R26, R132). -/
def Core.engineWork (c : Core) : Bool :=
  let busy (e : Eng) := e.st != .absent && e.st != .ended
  busy c.xl || busy c.m || busy c.v || busy c.xs

/-- R132: ended, or parked while an engine stream holds work; the done bit; in a handler, hnd and TRPROG are cleared (R148). -/
def execExit (s : State) : Host.Outcome State Fault Refusal :=
  let st := if s.me.engineWork then QState.parked else .ended
  let pc : Word := s.blk.pc.setWidth 32
  .next (((s.seqCharge.modBlk fun b =>
    { b with st := st, hnd := false, trprog := if b.hnd then 0#5 else b.trprog }.step).reachEnd s.cur.k.val s.cur.q.val
    pc).endBlock)

/-- R133: the stream stays ready and the block ends. -/
def execYield (s : State) : Host.Outcome State Fault Refusal := .next (s.seqCharge.modBlk Block.step).endBlock

/-- A tag wait (R134, R135): completed at once where its condition holds, else the block ends. -/
def State.tagWaitAt (s : State) (i : Instr) (w : Word) (m : Dword) : State :=
  let s := s.seqCharge
  match s.me.tryTag s.cur.q i m with
  | some c => s.setCore s.cur.k.val c
  | none => s.wait w m

def execTwany (d a : BitVec 5) (c : Bool) (s : State) : Host.Outcome State Fault Refusal :=
  .next (s.tagWaitAt (.twany d a c) (rForm 0x25#6 d a 0#5 (0#3 ++ 0#7 ++ BitVec.ofBool c)) (s.g a))
def execTwall (d a : BitVec 5) (c : Bool) (s : State) : Host.Outcome State Fault Refusal :=
  .next (s.tagWaitAt (.twall d a c) (rForm 0x25#6 d a 0#5 (1#3 ++ 0#7 ++ BitVec.ofBool c)) (s.g a))
def execTffr (d a : BitVec 5) (s : State) : Host.Outcome State Fault Refusal :=
  .next (s.tagWaitAt (.tffr d a) (rForm 0x25#6 d a 0#5 (2#3 ++ 0#8)) (s.g a))

/-- A scope of package or fabric, whose releases and acquires use the vector clocks (R66). -/
def scopeWide (sc : Scope) : Bool := sc == .package || sc == .fabric

/-- R136: waits, holding the pipeline, until the stream's earlier stores are visible at the scope (R63) and the clock lag allows a
release (R67); then releases and acquires. It is charged once, at issue (R111). -/
def execFence (sc : Scope) (s : State) : Host.Outcome State Fault Refusal :=
  let d := coreDie s.cur.k.val
  let t := if s.blk.busy then s else s.seqCharge
  if scopeHides sc && s.storing s.cur.k.val s.cur.q then .next t.hold
  else if scopeWide sc then
    if s.mayRelease d then .next (((t.release d).acquire d).modBlk Block.step) else .next t.hold
  else .next (t.modBlk Block.step)

/-- R142. -/
def execTrap (c : BitVec 16) (s : State) : Host.Outcome State Fault Refusal := .next (s.seqCharge.trap cSOFTWARE 0x00#8 (zext c))

/-- R143, R148: the return of a handler; outside a handler, ILLEGAL sub 0x03. -/
def execEret (s : State) : Host.Outcome State Fault Refusal :=
  if s.blk.hnd then .next s.seqCharge.eret else .next (s.seqCharge.trap cILLEGAL 0x03#8 0#64)

/-- R106: an unassigned word raises ILLEGAL sub 0x00 with the word. -/
def execUnassignedEncoding (w : Word) (s : State) : Host.Outcome State Fault Refusal := .next (s.trap cILLEGAL 0x00#8 (zext w))

end Sys2Proof.Machine
end

