-- ==== Sys2Proof/Machine/SeqSys.lean ====
section
/-! DEFINITION. System registers (R96 to R98, R141, R144), SEED and its generators (R85), TAGS, flag and bank-format writes (R98),
the meter read (R140) and `xcp` (R138, R139). -/

namespace Sys2Proof.Machine

/-- The generator states that a seed sets (R85): XL, M, V, XS; a zero state becomes 1. -/
def seedGens (z : Dword) : Vector Dword 4 :=
  let f (x : Dword) := if z ^^^ x = 0#64 then 1#64 else z ^^^ x
  #v[f 0x9E3779B97F4A7C15#64, f 0xBF58476D1CE4E5B9#64, f 0x94D049BB133111EB#64, f 0xD6E8FEB86659FD93#64]

/-- SEED := z and the four generators (R85). -/
def Sys.setSeed (y : Sys) (z : Dword) : Sys := { y with seed := z, gen := seedGens z }

/-- TRCAUSE as read (R144). -/
def Block.trCauseWord (b : Block) : Dword := zext (BitVec.ofBool b.hnd ++ b.trsub ++ b.trcause)

/-- JOBST as block stream q reads it (R97). -/
def State.jobst (s : State) (q : Fin 4) : Dword :=
  let y := s.me.sys
  zext (s.me.done ++ y.expect ++ y.vhi ++ y.vlo ++ 0#4 ++ BitVec.ofNat 2 q.val)

/-- A system register as the acting block stream reads it (R96); none for an unassigned number. That CYCLE counts from one clk on every core is
the model's choice (DESIGN CHOICE, log 94). -/
def State.sysRead (s : State) (r : BitVec 11) : Option Dword :=
  let c := s.me
  let b := s.blk
  let n := r.toNat
  if n = 0x000 then some (zext (s.coord s.cur.k.val))
  else if n = 0x001 then some c.sys.team
  else if n = 0x002 then some (zext c.sys.func)
  else if n = 0x003 then some c.sys.args
  else if n = 0x004 then some (s.jobst s.cur.q)
  else if n = 0x005 then some c.sys.seed
  else if n = 0x006 then some c.sys.tags
  else if n = 0x007 then some (BitVec.ofNat 64 s.dtime)
  else if n = 0x008 then some (BitVec.ofNat 64 (s.clk - s.upAt))
  else if n = 0x009 then some c.sys.lodc
  else if n = 0x00A then some (c.sys.rplcX ++ c.sys.rplcM)
  else if 0x010 ≤ n ∧ n ≤ 0x013 then some (zext (vget c.sys.flg (n - 0x010) 0#8))
  else if 0x020 ≤ n ∧ n ≤ 0x03F then some (zext (vget c.sys.bfmt (n - 0x020) 0#15))
  else if n = 0x040 then some (zext b.trvec)
  else if n = 0x041 then some b.trCauseWord
  else if n = 0x042 then some (zext b.trpc)
  else if n = 0x043 then some b.trinfo
  else if n = 0x044 then some (zext b.trprog)
  else none

/-- R141: the register's value, or ILLEGAL sub 0x02 with the number (R98). -/
def execSrd (d : BitVec 5) (r : BitVec 11) (s : State) : Host.Outcome State Fault Refusal :=
  match s.sysRead r with
  | some v => .next (s.putG 0 d v)
  | none => .next (s.seqCharge.trap cILLEGAL 0x02#8 (zext r))

/-- R98, R141, R144: the writable numbers that `swr` reaches beside those with rows of their own are TRVEC, TRPC and TRPROG;
every other number traps. -/
def execSwr (a : BitVec 5) (r : BitVec 11) (s : State) : Host.Outcome State Fault Refusal :=
  let v := s.g a
  let s := s.seqCharge
  if r = 0x040#11 then .next (s.modBlk fun b => { b with trvec := v.extractLsb' 0 34 }.step)
  else if r = 0x042#11 then .next (s.modBlk fun b => { b with trpc := v.extractLsb' 0 32 }.step)
  else if r = 0x044#11 then .next (s.modBlk fun b => { b with trprog := v.extractLsb' 0 5 }.step)
  else .next (s.trap cILLEGAL 0x02#8 (zext r))

/-- The words in progress of M and V put no generator state back any more (R86). -/
def Core.keepSeed (c : Core) : Core :=
  let f (o : Outst) : Outst := { o with undo := { o.undo with gen := none } }
  { c with
    m := { c.m with outst := c.m.outst.map f }
    v := { c.v with outst := c.v.outst.map f }
    mx := { c.mx with outst := c.mx.outst.map f } }

/-- R85, R86, R98: the new states stand, also where a word that has drawn from the old ones is taken back at a hard stop. -/
def execSeedWrite (a : BitVec 5) (s : State) : Host.Outcome State Fault Refusal :=
  let v := s.g a
  .next ((s.seqCharge.modCore s.cur.k.val fun c => { c with sys := c.sys.setSeed v }.keepSeed).modBlk Block.step)

/-- R98: bits written as 1 are cleared, but for those that a completion sets in the same clk (R23). -/
def execTagsClear (a : BitVec 5) (s : State) : Host.Outcome State Fault Refusal :=
  let v := s.g a
  .next ((s.seqCharge.modCore s.cur.k.val fun c => { c with sys := c.sys.clearTags v }).modBlk Block.step)

/-- R89, R98. -/
def execFlagsClear (a : BitVec 5) (f : BitVec 2) (s : State) : Host.Outcome State Fault Refusal :=
  let v := s.g a
  .next ((s.seqCharge.clearFlags s.cur.k.val f.toNat (v.extractLsb' 0 8)).modBlk Block.step)

/-- R46, R98: bits [14:0] are stored. -/
def execBfmtWrite (a : BitVec 5) (b : BitVec 5) (s : State) : Host.Outcome State Fault Refusal :=
  let v := s.g a
  .next ((s.seqCharge.modCore s.cur.k.val fun c =>
    { c with sys := { c.sys with bfmt := vset c.sys.bfmt b.toNat (v.extractLsb' 0 15) } }).modBlk Block.step)

/-- R140: pJ of the function on this core, of the job instance on this core, or µJ remaining; the instruction's own charge is
made at issue. -/
def execMrd (d : BitVec 5) (m : MeterSel) (s : State) : Host.Outcome State Fault Refusal :=
  let t := s.seqCharge
  let v : Dword := match m with
    | .func => BitVec.ofNat 64 (pJ t.me.meterFunc)
    | .job => BitVec.ofNat 64 (pJ t.me.meterJob)
    | .quota => BitVec.ofInt 64 (t.func t.me.funcOf).remain
  .next (t.modBlk fun b => (b.setReg d v).step)

/-- A transfer word that `xcp` may issue (R138, R165, R192, R212): assigned, without tokens, not a step that moves no data, not
SR, and `xcfg` with source 0. -/
def xcpWord (w : Word) : Bool :=
  w &&& 0xF#32 == 0#32 &&
  match decodeXfer w with
  | .error _ => false
  | .ok i =>
    match i with
    | .xtok _ => false
    | .xtw _ _ => false
    | .xrdv _ _ _ => false
    | .xnfy _ => false
    | .xcpy _ m => m != .sr
    | .xgat _ m => m != .sr
    | .xsct _ m => m != .sr
    | .xfil _ m => m != .sr
    | .xmcs _ m => m != .sr
    | .xcfg x => x.src == 0#4
    | _ => true

/-- R138, R139: ILLEGAL sub 0x05 with the command word; while the queue of 32 is full the issue waits; else the entry joins the
queue with the bank formats of now (R46). -/
def execXcp (a b : BitVec 5) (s : State) : Host.Outcome State Fault Refusal :=
  let w := s.g a
  let v := s.g b
  if w.extractLsb' 32 32 != 0#32 || !xcpWord (w.extractLsb' 0 32) then .next (s.seqCharge.trap cILLEGAL 0x05#8 w)
  else if 32 ≤ s.me.x.queue.length then .next s
  else
    let e : QEntry := ⟨w.extractLsb' 0 32, v, s.cur.q, s.me.sys.bfmt, s.next⟩
    .next ((s.seqCharge.modCore s.cur.k.val fun c => { c with x := { c.x with queue := c.x.queue ++ [e] } }).modBlk Block.step)

end Sys2Proof.Machine
end

