-- ==== Sys2Proof/Machine/Fetch.lean ====
section
/-! DEFINITION. Which act comes next (log 4), what a stream fetches (R14, R107), and the passing of a clk with what falls due in
it. -/

namespace Sys2Proof.Machine

/-- What an act comes to: an instruction to run in a state, or a state. -/
inductive Fetched where
  | run (i : Instr) (s : State)
  | done (s : State)

/-- The acts of the clk, then its end. -/
def State.selectRest (s : State) : Option (Act × State) :=
  match s.round with
  | a :: t => some (a, { s with round := t })
  | [] =>
    match s.phase with
    | .reset => some (.event .start, s)
    | .ready => some (.tick, s)
    | .fallow => some (.tick, s)
    | .off => if s.agenda.isEmpty then none else some (.tick, s)

/-- The next act: a consequence that is due, then the first planned act whose clk has come, then the acts of the clk, then the
passing of a clk; START while the part comes out of reset; none without power. -/
def State.select (s : State) : Option (Act × State) :=
  match s.due with
  | a :: t => some (a, { s with due := t })
  | [] =>
    match s.agenda with
    | p :: t => if p.at_ ≤ s.clk then some (p.act, { s with agenda := t }) else s.selectRest
    | [] => s.selectRest

/-- The word of a section at a program counter and its meaning in the map of its stream: a fetch outside the section (R107), an
unassigned word (R106, R165), or the instruction. -/
def fetchWord (m : OpMap) (code : List Word) (pc : Nat) : Instr :=
  match code[pc]? with
  | none => .fetchRangeError
  | some w =>
    match decodeWord m w with
    | .ok i => i
    | .error _ => match m with
      | .seq => .unassignedEncoding w
      | .xfer => .illstep w
      | .matrix => .illstep w
      | .vector => .illstep w

/-- Block stream q may issue: the core is live, or a soft pre-emption waits for a fence or `rdv` that has issued already (R153). A run
of registers under way has stopped at the register in progress. -/
def Core.canIssue (c : Core) (q : Fin 4) : Bool := c.live || (c.job.isSome && c.fault.isNone && c.q[q.val].busy)

/-- Stream st of core k fetches its next word, if it may issue. -/
def State.fetchStream (s : State) (k : CoreIx) (st : Stream) : Fetched :=
  let c := s.core k.val
  let code := vget c.code (streamIx st) []
  let block (q : Fin 4) : Fetched :=
    if c.canIssue q && c.curq == q && !c.idle && c.q[q.val].st == .ready then
      .run (fetchWord .seq code c.q[q.val].pc.toNat) { s with cur := { k := k, q := q, st := st } }
    else .done s
  match st with
  | .q0 => block 0
  | .q1 => block 1
  | .q2 => block 2
  | .q3 => block 3
  | .xl | .m | .v | .xs =>
    if c.live && (c.eng st).st == .running then
      .run (fetchWord st.opMap code (c.eng st).pc.toNat) { s with cur := { k := k, q := c.curq, st := st } }
    else .done s

/-- The command queue of core k starts its oldest entry, of at most 16 started (R139, R159). -/
def State.fetchQueue (s : State) (k : CoreIx) : Fetched :=
  let c := s.core k.val
  match c.x.queue with
  | [] => .done s
  | e :: _ =>
    if c.live && (c.x.cmds.filter fun x => x.src == .queue).length < 16 then
      match decodeXfer e.word with
      | .ok i => .run i { s with cur := { k := k, q := e.q, st := .xl, entry := some e } }
      | .error _ => .run (.illstep e.word) { s with cur := { k := k, q := e.q, st := .xl, entry := some e } }
    else .done s

/-- The next word of transfer stream st waits for a tag (R209). -/
def Core.atTagWait (c : Core) (st : Stream) : Bool :=
  (c.eng st).st == .running &&
  match fetchWord st.opMap (vget c.code (streamIx st) []) (c.eng st).pc.toNat with
  | .xtw _ _ => true
  | _ => false

/-- The streams of a core in the order of R60's engines, for the acts of a clk; a transfer stream at a tag wait comes at its end, once every
clear and completion of the clk has had its effect (R209). -/
def streamActs (k : CoreIx) (c : Core) : List Act :=
  ([Stream.xs, .xl].filter fun st => !c.atTagWait st).map (Act.issue k) ++ [.issue k .m, .issue k .v, .issue k (streamOf c.curq.val)]

/-- The transfer streams at a tag wait. -/
def tagWaitActs (k : CoreIx) (c : Core) : List Act := ([Stream.xs, .xl].filter c.atTagWait).map (Act.issue k)

end Sys2Proof.Machine
end

