-- ==== Sys2Proof/Machine/MNum.lean ====
section
/-! DEFINITION. The matrix engine's sums (R280, R284, R321): truncation, the group sum, the chunk result of profiles P1 and P2, the
residue chunk of P3, and the adds of the span tree (R281, R284, R312). -/

namespace Sys2Proof.Machine

/-- x cut toward zero to a multiple of 2^q, and whether that changed it (R7, R280). -/
def Val.trunc (v : Val) (q : Int) : Val × Bool :=
  match v with
  | .nan => (.nan, false)
  | .inf s => (.inf s, false)
  | .fin s m e k => if q ≤ e then (.fin s m e k, false)
    else let d := 2 ^ (q - e).toNat; (.fin s (m / d) q false, m % d != 0 || k)

/-- gsum of R280 over exact products with the flags of their forming: an FP32 pattern and flags. -/
def gsum (w : Nat) (ps : List (Val × Byte)) : Nat × Byte :=
  let fl := ps.foldl (fun f p => f ||| p.2) 0#8
  let nan := ps.any fun p => p.1.isNan
  let infP := ps.any fun p => p.1 == .inf false
  let infN := ps.any fun p => p.1 == .inf true
  if nan || (infP && infN) then (nan32, fl ||| (if infP && infN then fIV else 0#8))
  else if infP then (0x7F800000, fl)
  else if infN then (0xFF800000, fl)
  else
    let nz := ps.filter fun p => !p.1.isZero
    match nz with
    | [] => (0, fl)
    | p :: t =>
      let e := t.foldl (fun e p => if e < p.1.exponent then p.1.exponent else e) p.1.exponent
      let sum := nz.foldl (fun a p => (Val.add false a p.1).1) (.fin false 0 0 false)
      let (s, cut) := sum.trunc (e - w)
      let fl := fl ||| (if cut then fNX else 0#8)
      if s.isZero then (0, fl) else let (r, g) := rneF32 s; (r, fl ||| g)

/-- Groups of g products, summed in order from +0, one rounding each (R280); fuel is the number of products. -/
def dotGo (g w : Nat) (ps : List (Val × Byte)) (r : Nat) (fl : Byte) : Nat → Nat × Byte
  | 0 => (r, fl)
  | n + 1 =>
    if ps.isEmpty then (r, fl)
    else
      let (x, f) := gsum w (ps.take g)
      let (y, h) := Val.add false (f32 r) (f32 x)
      let (r', i) := rneF32 y
      dotGo g w (ps.drop g) r' (fl ||| f ||| h ||| i) n

/-- The chunk result of two runs of values under group size g and width w (R280). -/
def chunkDot (g w : Nat) (a b : List Val) : Nat × Byte :=
  let ps := List.zipWith Val.mul a b
  dotGo g w ps 0 0#8 ps.length

/-- p2dot (R321). -/
def p2dot (a b : List Val) : Nat × Byte := chunkDot 8 64 a b

/-- Sum of products of integers. -/
def intDot (a b : List Int) : Int := (List.zipWith (· * ·) a b).foldl (· + ·) 0

/-- The element kinds of a tile by code (R268). -/
def kFP32 : Nat := 1
def kINT32 : Nat := 2
def kRS24 : Nat := 3

/-- The tree's add for a kind (R281, R284): pattern and flags. -/
def treeAdd (kind x y : Nat) : Nat × Byte :=
  if kind = kINT32 then
    let (i, f) := satInt 32 (toSigned 32 x + toSigned 32 y)
    (ofSigned 32 i, f)
  else if kind = kRS24 then (rsEncode (rsDecode x + rsDecode y), 0#8)
  else
    let (v, f) := Val.add false (f32 x) (f32 y)
    let (r, g) := rneF32 v
    (r, f ||| g)

/-- The tree's add elementwise. -/
def treeAddAll (kind : Nat) (x y : List Nat) : List Nat × Byte :=
  (x.zip y).foldr (fun p (a : List Nat × Byte) => let (r, f) := treeAdd kind p.1 p.2; (r :: a.1, a.2 ||| f)) ([], 0#8)

end Sys2Proof.Machine
end

