-- ==== Sys2Proof/Machine/Matrix.lean ====
section
/-! DEFINITION. The matrix engine's tables, operands and control: nest tables (R275), operand sets (R270 to R272), tile bits
(R268), the issue of a word with its tokens and locks (R18, R19, R59, R269, R276), the walk of a nest (R277, R278) with its forced
drain (R289), and the control words (R302 to R307). -/

namespace Sys2Proof.Machine

/-- Matrix causes (R287, R334). -/
def cMNEST : Byte := 0x60#8
def cMTREE : Byte := 0x61#8
def cMACC : Byte := 0x62#8
def cMRAGGED : Byte := 0x63#8
def cMDRAIN : Byte := 0x64#8
def cMREPLAY : Byte := 0x65#8
def cOACAP : Byte := 0x66#8
def cOASTATE : Byte := 0x67#8

/-- A matrix or vector stop: the cause, and the information where the spec names it. -/
abbrev EStop := Byte × Option Dword

/-! ### Tables -/

/-- A nest table or other raw block of bytes. -/
abbrev Raw := List Byte

/-- An n-byte number at offset o of raw bytes. -/
def rawNat (t : Raw) (o n : Nat) : Nat := natOfBytes ((t.drop o).take n)

/-- Fields of a nest table (R275). -/
def tabPro (t : Raw) : Nat := rawNat t 1 1
def tabBody (t : Raw) : Nat := rawNat t 2 1
def tabEpi (t : Raw) : Nat := rawNat t 3 1
def tabPl (t : Raw) : Nat := rawNat t 4 1
def tabD (t : Raw) : Nat := rawNat t 5 1
def tabKl (t : Raw) : Nat := rawNat t 6 1
def tabLmax (t : Raw) : Nat := rawNat t 7 1
def tabKtail (t : Raw) : Nat := rawNat t 8 2
def tabRag (t : Raw) (l : Nat) : Nat := rawNat t (0xA + l) 1
def tabTc (t : Raw) (l : Nat) : Nat := rawNat t (0x10 + 4 * l) 4
def tabRbase (t : Raw) : Dword := BitVec.ofNat 64 (rawNat t 0x28 8)
def tabSpill (t : Raw) : Dword := BitVec.ofNat 64 (rawNat t 0x30 8)
def tabNsave (t : Raw) : Dword := BitVec.ofNat 64 (rawNat t 0x38 8)
/-- Word i of the prologue, body and epilogue slots. -/
def tabWord (t : Raw) (i : Nat) : Word := BitVec.ofNat 32 (rawNat t (0x40 + 4 * i) 4)

/-- The words in use: slots of prologue, body, epilogue. -/
def tabSlots (t : Raw) : List Nat :=
  upto (tabPro t) ++ (upto (tabBody t)).map (· + 4) ++ (upto (tabEpi t)).map (· + 8)

/-- A word that may not stand in a slot (R275). -/
def slotBarred (i : Instr) : Bool :=
  match i with
  | .mcfg _ _ => true
  | .mgo _ => true
  | .mwait _ => true
  | .mrdv _ _ _ => true
  | .mnfy _ => true
  | _ => false

/-- The checks of `mgo` (R275): MNEST, or ILLSTEP for an unassigned word in a slot. The operand sets are checked when a word names
them (R270). -/
def tabCheck (t : Raw) : Except EStop Unit :=
  let z (o n : Nat) := rawNat t o n = 0
  let ns := tabNsave t
  let nsOk := ns == 0#64 || (spaceOf ns == 1 && ns.extractLsb' 0 6 == 0#6 && ns.extractLsb' 21 39 == 0#39)
  let rag (l : Nat) := tabRag t l / 128 = 1
  let levelOk (l : Nat) :=
    tabRag t l / 8 % 16 = 0 &&
    (if rag l then l < tabRag t l % 8 && tabRag t l % 8 ≤ 5 && tabTc t l ≤ 65535
     else 1 ≤ tabTc t l && tabTc t l ≤ 16777216)
  let words := (tabSlots t).map fun i => decodeMatrix (tabWord t i)
  let ok := rawNat t 0 1 = 1 && tabPro t ≤ 4 && 1 ≤ tabBody t && tabBody t ≤ 4 && tabEpi t ≤ 4 && tabPl t ≤ 5 && tabD t ≤ 8 &&
    (tabKl t ≤ 5 || tabKl t = 0xFF) && tabLmax t ≤ 20 && tabKtail t ≤ 255 && (upto 6).all levelOk && nsOk && z 0x70 16
  if !ok then .error (cMNEST, none)
  else if words.any fun w => match w with
      | .ok i => slotBarred i
      | .error _ => false
    then .error (cMNEST, none)
  else if words.any fun w => match w with
      | .ok _ => false
      | .error _ => true
    then .error (cILLSTEP, none)
  else .ok ()

/-! ### Operands -/

/-- An operand set (R270). -/
structure MSet where
  base : Dword
  str : List Int
  pitch : Nat
  esz : Nat
  ok : Bool
  deriving DecidableEq, Repr

/-- Set ma i of a table. -/
def tabSet (t : Raw) (i : Nat) : MSet :=
  let o := 0x80 + 64 * i
  let esz := rawNat t (o + 0x3C) 1
  let pitch := rawNat t (o + 0x38) 4
  { base := BitVec.ofNat 64 (rawNat t o 8), str := (upto 6).map fun l => toSigned 64 (rawNat t (o + 8 + 8 * l) 8),
    pitch := pitch, esz := esz, ok := rawNat t (o + 0x3D) 1 = 0x80 && esz ≤ 3 && pitch ≤ 2097151 && rawNat t (o + 0x3E) 2 = 0 }

/-- The place k elements of `nib` half bytes after a place. -/
def Elem.shift (e : Elem) (nib : Nat) (p : Int) : Elem :=
  let h : Int := 2 * (e.addr.toNat : Int) + (if e.half then 1 else 0) + nib * p
  ⟨BitVec.ofInt 64 (h / 2), h % 2 == 1⟩

/-- What a matrix word runs under: core, active table, counters, trip counts, bank formats, and whether a nest runs it. -/
structure MCtx where
  k : Nat
  tab : Raw
  c : Vector Nat 6
  n : Vector Nat 6
  bf : Vector (BitVec 15) 32
  nest : Bool

/-- A resolved operand (R270, R272): origin, element size in half bytes, pitch, the issuing core, whether the origin lies in its own
scratchpad, the bank formats sampled for that, the element format. -/
structure MOper where
  e : Elem
  nib : Nat
  pitch : Nat
  k : Nat
  own : Bool
  bf : Vector (BitVec 15) 32
  fmt : Fmt
  deriving DecidableEq, Repr

/-- The scratchpad offset of a place. -/
def scOff (e : Elem) : Nat := (e.addr.extractLsb' 0 21).toNat

/-- The bank word at a scratchpad offset. -/
def bankWord (bf : Vector (BitVec 15) 32) (off : Nat) : BitVec 15 := vget bf (off / 65536 % 32) 0xF#15

/-- The origin of a set under counters (R270). -/
def MSet.origin (x : MSet) (c : Vector Nat 6) : Elem :=
  elemAt x.base (2 ^ x.esz) ((x.str.zipIdx.map fun (t, l) => t * (vget c l 0 : Nat)).foldl (· + ·) 0)

/-- The scratchpad and the offset in it of n bytes that a matrix operand of core k names: its own or one of the die window, any other
space being ADDR_SPACE whatever else the word holds (R270), then R39 and R47. -/
def State.engPlace (s : State) (k : Nat) (a : Dword) (n : Nat) : Except EStop (Nat × Nat) :=
  if spaceOf a != 1 && spaceOf a != 2 then .error (cADDR_SPACE, some a)
  else match placeOf a n with
    | .error z => .error (z, some a)
    | .ok (.own off) => .ok (k, off)
    | .ok (.window w off) => if s.windowOk k w then .ok (192 * coreDie k + w, off) else .error (cWINDOW, some a)
    | .ok (.virt _) => .error (cADDR_SPACE, some a)
    | .ok (.stage _ _) => .error (cADDR_SPACE, some a)
    | .ok (.acc _) => .error (cADDR_SPACE, some a)

/-- The bank formats that govern an element of an operand in the scratchpad of core c: those sampled, or in the die window those of that
core (R272). -/
def State.operFormats (s : State) (own : Bool) (bf : Vector (BitVec 15) 32) (c : Nat) : Vector (BitVec 15) 32 :=
  if own then bf else (s.core c).sys.bfmt

/-- Resolve an operand: the set's validity, the place of its origin, the bank format (R270, R272). -/
def State.mOper (s : State) (x : MCtx) (set : BitVec 3) : Except EStop MOper :=
  let m := tabSet x.tab set.toNat
  if !m.ok then .error (cMNEST, none)
  else
    let e := m.origin x.c
    (s.engPlace x.k e.addr 1).map fun p =>
      let own := spaceOf e.addr = 1
      ⟨e, 2 ^ m.esz, m.pitch, x.k, own, x.bf, (bankWord (s.operFormats own x.bf p.1) p.2).extractLsb' 0 4⟩

/-- The place of element offset p of an operand. -/
def MOper.at_ (o : MOper) (p : Nat) : Elem := o.e.shift o.nib p

/-- The scratchpad and offset of an element, which its own address word names, with its checks (R39, R41, R47, R270). -/
def State.mPlace (s : State) (o : MOper) (p : Nat) : Except EStop (Nat × Nat) :=
  let e := o.at_ p
  let n := nibBytes o.nib
  match s.engPlace o.k e.addr n with
  | .error z => .error z
  | .ok x => if x.2 % n = 0 then .ok x else .error (cMISALIGN, some e.addr)

/-- The location of an element. -/
def State.mLoc (s : State) (o : MOper) (p : Nat) : Except EStop Nat := (s.mPlace o p).map fun x => scratchLoc x.1 + x.2

/-- The bank of an element, with the bank formats that govern it; none for an address that fails its checks. -/
def State.mBank (s : State) (o : MOper) (p : Nat) : Option (Vector (BitVec 15) 32 × Nat) :=
  match s.mPlace o p with
  | .error _ => none
  | .ok x => some (s.operFormats o.own o.bf x.1, x.2 / 65536)

/-- The banks of the runs [p, p + len) of an operand: a run has at most two. -/
def State.mBanks (s : State) (o : MOper) (runs : List Nat) (len : Nat) : List (Vector (BitVec 15) 32 × Nat) :=
  runs.flatMap fun p => ((s.mBank o p).toList ++ (s.mBank o (p + len - 1)).toList)

/-- The banks of runs as a mask. -/
def State.mMask (s : State) (o : MOper) (runs : List Nat) (len : Nat) : BitVec 32 :=
  (s.mBanks o runs len).foldl (fun m b => m ||| 1#32 <<< b.2) 0#32

/-- The operand's banks agree and obey R44 and R45, its format may be decoded (or is raw where that is allowed), and its element
size is the set's (R270). -/
def State.mFit (s : State) (o : MOper) (runs : List Nat) (len : Nat) (raw : Bool) : Except EStop Unit :=
  let bs := s.mBanks o runs len
  let key (b : Vector (BitVec 15) 32 × Nat) : BitVec 15 := vget b.1 b.2 0xF#15 &&& 0x7F0F#15
  let same := match bs with
    | [] => true
    | b :: t => t.all fun x => key x == key b
  let f := o.fmt
  if raw && f == fRAW && same then .ok ()
  else if same && bs.all (fun b => scaleOk b.1 b.2) && !fmtReserved f && f != fRAW && f != fE8M0 && nibbles f = o.nib
  then .ok () else .error (cFORMAT, none)

/-- The banks an operand locks, its scale banks among those read; none in the die window (R59, R273). -/
def State.mLockR (s : State) (o : MOper) (runs : List Nat) (len : Nat) : BitVec 32 :=
  if o.own then let b := s.mMask o runs len; b ||| scaleBanks o.bf b else 0#32
/-- The banks an operand that is written locks. -/
def State.mLockW (s : State) (o : MOper) (runs : List Nat) (len : Nat) : BitVec 32 := if o.own then s.mMask o runs len else 0#32

/-- The bits of an element. -/
def State.mBits (s : State) (o : MOper) (p : Nat) : Except EStop Nat :=
  (s.mLoc o p).map fun l =>
    let v := Memory.readNat s.mem l (nibBytes o.nib)
    if o.nib = 1 then v / (if (o.at_ p).half then 16 else 1) % 16 else v

/-- Index of an element within its bank (R42). -/
def MOper.index (o : MOper) (p : Nat) : Nat :=
  let e := o.at_ p
  (scOff e % 65536 * 2 + (if e.half then 1 else 0)) / o.nib

/-- The operand's bank carries block scales. -/
def State.mScaled (s : State) (o : MOper) : Bool :=
  (s.mBank o 0).any fun b => (vget b.1 b.2 0xF#15).extractLsb' 13 2 == 1#2

/-- The location of an element's scale byte, if its bank is scaled (R44). -/
def State.mScaleLoc (s : State) (o : MOper) (p : Nat) : Option Nat :=
  match s.mPlace o p with
  | .error _ => none
  | .ok x =>
    let w := bankWord (s.operFormats o.own o.bf x.1) x.2
    if w.extractLsb' 13 2 == 1#2 then
      some (scratchLoc x.1 + (w.extractLsb' 8 5).toNat * 65536 + (w.extractLsb' 4 4).toNat * 4096 + o.index p / 32)
    else none

/-- The scale byte of an element. -/
def State.mScale (s : State) (o : MOper) (p : Nat) : Option Nat := (s.mScaleLoc o p).map fun l => Memory.readNat s.mem l 1

/-- The exact value of an element with its scale (R74). -/
def State.mVal (s : State) (o : MOper) (p : Nat) : Except EStop Val :=
  match s.mBits o p with
  | .error z => .error z
  | .ok b =>
    match scaledVal o.fmt b (s.mScale o p) with
    | some v => .ok v
    | none => .error (cFORMAT, none)

/-- A list of results, or the first failure. -/
def collect {α β : Type} (f : α → Except EStop β) : List α → Except EStop (List β)
  | [] => .ok []
  | a :: t =>
    match f a with
    | .error z => .error z
    | .ok b => (collect f t).map fun bs => b :: bs

/-! ### Tiles -/

/-- Location of tile t of core k (R268). -/
def tileLoc (k t : Nat) : Nat := accLoc k + 16384 * t

/-- n words of 32 bits at a location. -/
def words32 (m : Memory) (l : Nat) : Nat → List Nat
  | 0 => []
  | n + 1 => Memory.readNat m l 4 :: words32 m (l + 4) n

/-- The bits of words of 32 bits. -/
def wordBytes (ws : List Nat) : List Byte := ws.flatMap (bytesOfNat 4)

/-- The 4,096 elements of a tile, row ascending then column. -/
def State.tile (s : State) (k t : Nat) : List Nat := words32 s.mem (tileLoc k t) 4096

/-- A tile's bits written. -/
def State.putTile (s : State) (k t : Nat) (ws : List Nat) : State := { s with mem := Memory.blit s.mem (tileLoc k t) (wordBytes ws) }

/-- What tile t carries. -/
def Core.side (c : Core) (t : Nat) : TileSide := vget c.mx.side t {}

/-- What tile t carries, replaced. -/
def State.putSide (s : State) (k t : Nat) (x : TileSide) : State :=
  s.modCore k fun c => { c with mx := { c.mx with side := vset c.mx.side t x } }

/-- Row and column numbers of a 64 × 64 block as element offsets. -/
def rowStarts (pitch n : Nat) : List Nat := (upto n).map (· * pitch)

/-- Element offsets of a 64 × 64 block, row ascending then column. -/
def blockOffs (pitch : Nat) : List Nat := (upto 64).flatMap fun i => (upto 64).map fun j => i * pitch + j

/-! ### Issue -/

/-- The core with a nest's or stream's word issued: tokens taken, the word outstanding with its locks. -/
def Core.startM (c : Core) (nest : Bool) (t : Tok) (l : Locks) (own : Bool) (fl : Byte := 0#8) (u : Undo := {})
    (r : Option Redo := none) : Core :=
  let c := c.takeTokens .m t
  let c := if l.wr = 0#32 then c else c.syncM
  let o : Outst :=
    { id := c.next, push := pushFifo .m t.push, rd := l.rd, wr := l.wr, trd := l.trd, twr := l.twr, own := own, fl := fl, undo := u,
      redo := r }
  if nest then { c with next := c.next + 1, mx := { c.mx with outst := c.mx.outst ++ [o], slot := c.mx.slot + 1 } }
  else (c.begin_ .m o).stepEng .m

/-- The nest's outstanding words with complete ones shown and dropped (R19), and then M's own. -/
def Core.drainNest (c : Core) : Core :=
  let (c', l) := c.drainList .m (c.m.outst.filter fun o => !o.own) [] c.mx.outst
  { c' with mx := { c'.mx with outst := l } }.drain .m

/-- The nest's word with a number is complete. -/
def Core.finishNest (c : Core) (id : Nat) : Core :=
  let f := flagsAt c.mx.outst id
  let c := if f = 0#8 then c else { c with sys := c.sys.setFlags 1 f }
  { c with mx := { c.mx with outst := c.mx.outst.map fun (o : Outst) => if o.id = id then { o with done := true } else o } }.drainNest

/-- What a word of M that takes locks l finds before it, with further stretches of memory that it may change (R293): the tiles and
orthogonal accumulators it takes exclusively, where it stands, what it draws from. -/
def State.undoM (s : State) (t : Tok) (l : Locks) (more : List (Nat × Nat)) : Undo :=
  let k := s.cur.k.val
  let c := s.me
  let x := c.mx
  let ts := (upto 16).filter fun i => l.twr.getLsbD i
  { mem := (ts.map (fun i => (tileLoc k i, 16384)) ++ more).map fun (e : Nat × Nat) => (e.1, e.2, Memory.slice s.mem e.1 e.2)
    tiles := ts.map fun i => (i, vget x.side i {}, vget x.tree i {})
    oas := ((upto 2).filter fun i => l.twr.getLsbD (16 + i)).map fun i => (i, vget x.oa i {})
    pc := if s.cur.nest then none else some c.m.pc
    nest := if s.cur.nest then some ⟨x.phase, x.slot, x.c, x.n, x.full, x.from_⟩ else none
    pop := popFifo .m t.pop
    gen := some (vget c.sys.gen 1 0#64) }

/-- What a data word of M has done at its issue: the state, the flags that its completion sets (R89), what a replay needs. -/
structure MDone where
  s : State
  fl : Byte := 0#8
  redo : Option Redo := none

/-- A data word of M: waits while a nest that does not run it is active, while its tokens or locks cannot be served; a fault takes
no effect of the word; else its effect, complete later (R19, R276, R287). The model lets the effect happen at issue, under the
locks that last until completion, and keeps what was before it (log 9). `more` are stretches of memory that an abandoned word leaves as
they were, beside its tiles. -/
def State.dataM (s : State) (t : Tok) (locks : Except EStop Locks) (run : State → Except EStop MDone) (more : List (Nat × Nat) := []) : State :=
  let nest := s.cur.nest
  let c := s.me
  let fail (z : EStop) : State := match z.2 with
    | some i => s.engFault z.1 i
    | none => s.engFaultFree z.1
  if (c.mx.go && !nest) || !c.tokensOk .m t then s
  else match locks with
    | .error z => fail z
    | .ok l =>
      if !c.grantable l then s
      else match run s with
        | .error z => fail z
        | .ok u => u.s.modCore s.cur.k.val fun c => c.startM nest t l false u.fl (s.undoM t l more) u.redo

/-- The context of the word that acts: the nest's, or counters at 0 with no reduction level for a word of the stream (R277). -/
def State.mCtx (s : State) : Except EStop MCtx :=
  let c := s.me
  match c.mx.active with
  | none => .error (cMNEST, none)
  | some t =>
    if s.cur.nest then .ok ⟨s.cur.k.val, t, c.mx.c, c.mx.n.setIfInBounds (tabPl t) c.mx.full, c.mx.bf, true⟩
    else .ok ⟨s.cur.k.val, t, Vector.replicate 6 0, Vector.replicate 6 1, c.sys.bfmt, false⟩

/-- Chunk index and count of a context (R299). -/
def MCtx.chunk (x : MCtx) : Nat × Nat :=
  if x.nest && tabKl x.tab ≤ 5 then (vget x.c (tabKl x.tab) 0, vget x.n (tabKl x.tab) 1) else (0, 1)

/-- Charge n units of a matrix class (R288). -/
def State.mCharge (s : State) (k cls : Nat) (f : Fmt) (n : Nat) : State := s.charge k 2 cls f.toNat n

/-- Charge the bytes of a die-window operand received (R288). -/
def State.windowCharge (s : State) (k : Nat) (o : MOper) (elems : Nat) : State :=
  if o.own then s else s.charge k 2 3 0xF ((elems * o.nib + 1) / 2)

/-- Charge the owning core's read of a die-window B to the core that opened its multicast (R273), as bytes within the die (R261, log 98). -/
def State.openCharge (s : State) (k : Nat) (o : MOper) (elems : Nat) (opened : Bool) : State :=
  if opened then s.charge k 1 2 0xF ((elems * o.nib + 1) / 2) else s

/-! ### The nest -/

/-- The matrix state of a core changed. -/
def State.modMx (s : State) (k : Nat) (f : Matrix → Matrix) : State := s.modCore k fun c => { c with mx := f c.mx }

/-- A checked read of n bytes of a shape record (R225, R278). -/
def State.shapeNat (s : State) (f : Byte) (a : Dword) (n : Nat) : Option Nat :=
  match s.hostRead f a n with
  | .ok bs => some (natOfBytes bs)
  | .error _ => none

/-- Count i of a shape record, at most 16,777,216 (R225). -/
def State.shapeEntry (s : State) (f : Byte) (a : Dword) (i : Nat) : Option Nat :=
  (s.shapeNat f (a + BitVec.ofNat 64 (16 + 4 * i)) 4).filter fun v => v ≤ 16777216

/-- The whole record passes the check of R225: its place, n, the reserved bytes, every count. -/
def State.shapeOk (s : State) (f : Byte) (a : Dword) : Bool :=
  spaceOf a == 0 && a.extractLsb' 0 6 == 0#6 &&
  match s.shapeNat f a 4, s.shapeNat f (a + 4#64) 12 with
  | some n, some 0 => 1 ≤ n && n ≤ 65536 && (upto n).all fun i => (s.shapeEntry f a i).isSome
  | _, _ => false

/-- Entry i of a shape record (R278): none at or above its n, or where it cannot be read. -/
def State.shapeCount (s : State) (f : Byte) (a : Dword) (i : Nat) : Option Nat :=
  match s.shapeNat f a 4 with
  | some n => if i < n then s.shapeEntry f a i else none
  | none => none

/-- The shape record of a nest: the table's, else the item's (R225, R275). -/
def Core.shapeBase (c : Core) (t : Raw) : Dword := if tabRbase t = 0#64 then (c.job.map fun j => j.shape).getD 0#64 else tabRbase t

/-- The record has been checked: the item's at dispatch, another at its first use (R278). -/
def Core.shapeSeen (c : Core) (a : Dword) : Bool := c.job.any (fun j => j.shape == a) || c.mx.shapes.contains a

/-- The trip count of level l as its loop begins (R277, R278): none where the record fails. -/
def State.trip (s : State) (k : Nat) (t : Raw) (l : Nat) : Option Nat :=
  let c := s.core k
  if tabRag t l / 128 = 1 then
    if c.shapeSeen (c.shapeBase t) || s.shapeOk c.funcOf (c.shapeBase t) then
      s.shapeCount c.funcOf (c.shapeBase t) (tabTc t l + vget c.mx.c (tabRag t l % 8) 0)
    else none
  else some (tabTc t l)

/-- Counters of the levels at or below l at 0. -/
def zeroBelow (c : Vector Nat 6) (l : Nat) : Vector Nat 6 := (upto (l + 1)).foldl (fun v i => vset v i 0) c

/-- Where the body goes on once level pl has a counter value: to its words, or into the levels below. -/
def bodyPhase (pl : Nat) : NPhase := if pl = 0 then .body else .enter (pl - 1)

/-- Clamp the current pass at a forced drain (R289): n_pl := min(n_pl, cur + d), once. -/
def Matrix.clamp (x : Matrix) (t : Raw) : Matrix :=
  let pl := tabPl t
  let cur := match x.phase with
    | .prologue => x.from_
    | _ => vget x.c pl 0 + 1
  if x.clamped then x else { x with n := vset x.n pl (min (vget x.n pl 0) (cur + tabD t)), clamped := true }

/-- A nest that stands between passes, or whose pass a drain has ended short. -/
def Matrix.between (x : Matrix) (pl : Nat) : Bool :=
  match x.phase with
  | .enter l => pl ≤ l
  | .advance l => pl < l
  | .prologue => false
  | .body => false
  | .epilogue => false
  | .done => true

/-- No level above pl has a further value (R289). -/
def Matrix.lastPass (x : Matrix) (pl : Nat) : Bool :=
  (upto 6).all fun l => l ≤ pl || vget x.n l 0 ≤ vget x.c l 0 + 1

/-- One move of the nest that runs no word (R277): begin or advance a level, leave prologue, body or epilogue. A ragged count that
cannot be had faults MRAGGED. -/
def State.nestMove (s : State) (k : Nat) (t : Raw) : Except EStop State :=
  let x := (s.core k).mx
  let pl := tabPl t
  let n (l : Nat) := vget x.n l 0
  let c (l : Nat) := vget x.c l 0
  match x.phase with
  | .enter l =>
    match s.trip k t l with
    | none => .error (cMRAGGED, none)
    | some v =>
      let m := vset x.n l v
      let base := (s.core k).shapeBase t
      let seen := tabRag t l / 128 != 1 || (s.core k).shapeSeen base
      .ok <| s.modMx k fun x =>
        let x := if seen then x else { x with shapes := x.shapes ++ [base] }
        if pl < l then
          if v = 0 then { x with n := m, phase := .advance (l + 1) }
          else { x with n := m, c := vset x.c l 0, phase := .enter (l - 1) }
        else if l = pl then
          if v = 0 then { x with n := m, full := v, phase := .advance (l + 1) }
          else { x with n := m, full := v, c := zeroBelow x.c pl, phase := .prologue, slot := 0, clamped := false }
        else if v = 0 then { x with n := m, phase := .advance (l + 1) }
        else { x with n := m, c := vset x.c l 0, phase := if l = 0 then .body else .enter (l - 1), slot := 0 }
  | .advance l =>
    .ok <| s.modMx k fun x =>
      if 6 ≤ l then { x with phase := .done }
      else if c l + 1 < n l then
        let x := { x with c := vset x.c l (c l + 1), slot := 0 }
        if l = 0 then { x with phase := .body } else { x with phase := .enter (l - 1) }
      else if l = pl then { x with phase := .epilogue, slot := 0 }
      else { x with phase := .advance (l + 1) }
  | .prologue =>
    .ok <| s.modMx k fun x =>
      if x.from_ < n pl then { x with c := vset x.c pl x.from_, from_ := 0, slot := 0, phase := bodyPhase pl }
      else { x with from_ := 0, slot := 0, phase := .epilogue }
  | .body => .ok <| s.modMx k fun x => { x with slot := 0, phase := .advance 0 }
  | .epilogue =>
    .ok <| s.modMx k fun x =>
      if n pl < x.full then { x with slot := 0, from_ := n pl, phase := .enter pl }
      else { x with slot := 0, clamped := false, phase := .advance (pl + 1) }
  | .done => .ok s

/-- The table word that the nest runs next, if it stands at one. -/
def Matrix.word (x : Matrix) (t : Raw) : Option Word :=
  match x.phase with
  | .prologue => if x.slot < tabPro t then some (tabWord t x.slot) else none
  | .body => if x.slot < tabBody t then some (tabWord t (4 + x.slot)) else none
  | .epilogue => if x.slot < tabEpi t then some (tabWord t (8 + x.slot)) else none
  | .enter _ => none
  | .advance _ => none
  | .done => none

/-- The nest stands before a pass, or before what a drain has left of one (R289, R291). -/
def Matrix.atPass (x : Matrix) (t : Raw) : Bool := x.phase == .enter (tabPl t)

/-- The nest stands before what a drain has left of a pass that it clamped (R289, R291). -/
def Matrix.cutShort (x : Matrix) (t : Raw) : Bool := x.atPass t && x.clamped

/-- A nest that has not begun its first level. -/
def Matrix.fresh (x : Matrix) : Bool := x.phase == .enter 5 && x.n.all (· == 0) && !x.clamped

/-- The nest stands still at a soft pre-emption (R289): before its first pass, between passes, behind a pass cut short, or at its end. One
whose last pass has run goes on to its end. -/
def Matrix.parked (x : Matrix) (t : Raw) : Bool :=
  let pl := tabPl t
  x.atPass t || x.fresh ||
  match x.phase with
  | .advance l => pl < l && !x.lastPass pl
  | .done => true
  | .enter _ => false
  | .prologue => false
  | .body => false
  | .epilogue => false

/-- A nest word that cannot be served in a drain, whose neighbour can never serve it (R290): the neighbour is XL, XS or a V that has reached
its soft boundary, with no word in progress (R360), its FIFO is empty or full, and none of its commands in flight can push. -/
def Core.drainStuck (c : Core) (t : Tok) : Bool :=
  let pop := popFifo .m t.pop
  let push := pushFifo .m t.push
  let empty (i : Nat) := (vget c.fifo i {}).count = 0 && (vget c.fifo i {}).reserved = 0
  let full (i : Nat) := 8 ≤ (vget c.fifo i {}).count + (vget c.fifo i {}).reserved
  let vDone := c.v.outst.all fun o => o.done || o.own
  (!c.canPop pop && pop.any empty && (pop != popFifo .m 2#2 || vDone)) ||
  (!c.canPush push && push.any full && (push != pushFifo .m 2#2 || vDone))

/-! ### Control words -/

/-- R302. -/
def execMtok (t : Tok) (s : State) : Host.Outcome State Fault Refusal :=
  if s.cur.nest then
    if s.me.tokensOk .m t then
      .next (s.modCore s.cur.k.val fun c =>
        (c.startM true t {} false).finishNest c.next)
    else .next s
  else .next (s.tokenWord t)

/-- R303: 640 bytes of the own scratchpad into the shadow, read at issue under a shared bank lock; also while a nest is active. -/
def execMcfg (off : BitVec 15) (t : Tok) (s : State) : Host.Outcome State Fault Refusal :=
  let k := s.cur.k.val
  let o := 64 * off.toNat
  let c := s.me
  if !c.tokensOk .m t then .next s
  else if 0x200000 < o + 640 then .next (s.engFaultFree cMNEST)
  else
    let l : Locks := { rd := (1#32 <<< (o / 65536)) ||| (1#32 <<< ((o + 639) / 65536)) }
    if !c.grantable l then .next s
    else
      let raw := Memory.readN s.mem (scratchLoc k + o) 640
      let u : Undo := { shadow := some c.mx.shadow, pc := some c.m.pc, pop := popFifo .m t.pop }
      .next ((s.modMx k fun x => { x with shadow := some raw }).modCore k fun c => c.startM false t l false 0#8 u)

/-- R276, R304: with no nest active, the shadow becomes the active table, the bank formats are sampled, the go bit is set; the word
is complete when its nest is. -/
def execMgo (t : Tok) (s : State) : Host.Outcome State Fault Refusal :=
  let c := s.me
  if c.mx.go || !c.tokensOk .m t then .next s
  else match c.mx.shadow with
    | none => .next (s.engFaultFree cMNEST)
    | some raw =>
      match tabCheck raw with
      | .error z => .next (s.engFaultFree z.1)
      | .ok () =>
        .next (s.modCore s.cur.k.val fun c =>
          let id := c.next
          let c := c.startM false t {} true
          { c with mx := { c.mx with
              active := some raw, shadow := none, bf := c.sys.bfmt, go := true, goId := id, phase := .enter 5, slot := 0,
              c := Vector.replicate 6 0, n := Vector.replicate 6 0, full := 0, from_ := 0, clamped := false } })

/-- R305: complete once the go bit is clear. -/
def execMwait (t : Tok) (s : State) : Host.Outcome State Fault Refusal :=
  if s.me.mx.go then .next s else .next (s.tokenWord t)

/-- R306: an active nest is an earlier word that is not complete. -/
def execMrdv (i : BitVec 2) (m : BitVec 8) (t : Tok) (s : State) : Host.Outcome State Fault Refusal :=
  if s.me.mx.go then .next s else .next (s.rdvWord i m t)

/-- R307. -/
def execMnfy (t : Tok) (s : State) : Host.Outcome State Fault Refusal :=
  if s.me.mx.go then .next s else .next (s.notifyWord t)

/-- R276: the nest has ended and its words are complete: the go bit clears, `mgo` completes, its push is visible. -/
def execNestComplete (k : CoreIx) (s : State) : Host.Outcome State Fault Refusal :=
  let x := (s.core k.val).mx
  if x.go && x.phase == .done && x.outst.isEmpty then
    .next (((s.modMx k.val fun x => { x with go := false }).modCore k.val fun c => c.finish .m x.goId).progress k.val)
  else .next s

end Sys2Proof.Machine
end

