-- ==== Sys2Proof/Machine/MWords.lean ====
section
/-! DEFINITION. The matrix data words (R308 to R315): the chunk step with its span tree (R280 to R284, R309, R310), tile load, store
and zero, requantisation; and the replay of a step (R286). -/

namespace Sys2Proof.Machine

/-! ### The chunk step -/

/-- An MMA word's fields. -/
structure MmaOp where
  a : BitVec 3
  b : BitVec 3
  t : Nat
  p : Profile
  bt : Bool
  /-- `mmaz`: C is not added -/
  z : Bool

/-- Formats of profile P1 that pair (R272). -/
def isFp8 (f : Fmt) : Bool := f == fE4M3 || f == fE5M2
def isHalf (f : Fmt) : Bool := f == fBF16 || f == fFP16

/-- The kind of tile that a profile and a pair of formats give (R272, R309); none for a pair that is not accepted. -/
def pairKind (p : Profile) (a b : Fmt) : Option Nat :=
  let narrow (f : Fmt) := f == fFP4 || isFp8 f
  let int (f : Fmt) := f == fINT8 || f == fINT4
  match p with
  | .p1 => if (narrow a && narrow b) || (isHalf a && isHalf b) then some kFP32 else none
  | .p2 => if a == fFP32 && b == fFP32 then some kFP32 else none
  | .p3 => if int a && int b then some kINT32 else if a == fRS24 && b == fRS24 then some kRS24 else none

/-- Element offset of B's element (k, j) (R271). -/
def bOff (bt : Bool) (pitch k j : Nat) : Nat := if bt then k * pitch + j else j * pitch + k

/-- The contiguous runs of an operand: their starts and length (R271). -/
def aRuns (o : MOper) (_ : Nat) : List Nat := rowStarts o.pitch 64
def bRuns (o : MOper) (bt : Bool) (k : Nat) : List Nat := if bt then rowStarts o.pitch k else rowStarts o.pitch 64
def bLen (bt : Bool) (k : Nat) : Nat := if bt then 64 else k

/-- A scaled operand's runs start at multiples of 32 within their banks (R271). -/
def State.runsAligned (s : State) (o : MOper) (runs : List Nat) : Bool := !s.mScaled o || runs.all fun p => o.index p % 32 == 0

/-- The resolved operands of a step with their checks (R270 to R272). -/
structure MmaIn where
  x : MCtx
  a : MOper
  b : MOper
  kind : Nat
  kk : Nat
  c : Nat
  n : Nat

/-- Resolve a step under a context (R309): K, operands, formats. -/
def State.mmaAt (s : State) (o : MmaOp) (x : MCtx) : Except EStop MmaIn := do
  let (c, n) := x.chunk
  let kk := if c + 1 = n && tabKtail x.tab != 0 then tabKtail x.tab else 256
  let a ← s.mOper x o.a
  let b ← s.mOper x o.b
  s.mFit a (aRuns a kk) kk false
  s.mFit b (bRuns b o.bt kk) (bLen o.bt kk) false
  match pairKind o.p a.fmt b.fmt with
  | none => .error (cFORMAT, none)
  | some kind =>
    if !(s.runsAligned a (aRuns a kk) && s.runsAligned b (bRuns b o.bt kk)) then .error (cFORMAT, none)
    else .ok ⟨x, a, b, kind, kk, c, n⟩

/-- Resolve the step that acts. -/
def State.mmaIn (s : State) (o : MmaOp) : Except EStop MmaIn := s.mCtx >>= s.mmaAt o

/-- The banks of the spill area of tile t, when it lies in the own scratchpad (R282). -/
def spillBanks (tab : Raw) (t : Nat) : BitVec 32 :=
  let a := tabSpill tab
  let o := (a.extractLsb' 0 21).toNat + 16384 * (t * (tabLmax tab + 1))
  if spaceOf a != 1 then 0#32
  else ((upto 32).filter fun b => o < 65536 * (b + 1) && 65536 * b < o + 16384 * (tabLmax tab + 1)).foldl (fun m b => m ||| (1#32 <<< b)) 0#32

/-- The locks of a step: its operands' banks, its tile, the spill area once the reduction has more than one chunk. -/
def State.mmaLocks (s : State) (i : MmaIn) (o : MmaOp) : Locks :=
  let w := if 1 < i.n then spillBanks i.x.tab o.t else 0#32
  { rd := (s.mLockR i.a (aRuns i.a i.kk) i.kk ||| s.mLockR i.b (bRuns i.b o.bt i.kk) (bLen o.bt i.kk)) &&& ~~~w, wr := w,
    twr := 1#18 <<< o.t }

/-- The location of slot L of tile t's spill area (R282), or the failing cause. -/
def slotLoc (k : Nat) (tab : Raw) (t l : Nat) : Except EStop Nat :=
  let a := tabSpill tab + BitVec.ofNat 64 (16384 * (t * (tabLmax tab + 1) + l))
  if spaceOf (tabSpill tab) != 1 then .error (cADDR_SPACE, some (tabSpill tab))
  else match placeOf a 16384 with
    | .ok (.own off) => if off % 4 = 0 then .ok (scratchLoc k + off) else .error (cMISALIGN, some a)
    | .ok _ => .error (cADDR_SPACE, some a)
    | .error z => .error (z, some a)

/-- A reduction step in progress: memory with what has been spilled, the stack depth, flags, bytes of spill (R281, R282). -/
structure TreeAcc where
  mem : Memory
  depth : Nat
  fl : Byte := 0#8
  bytes : Nat := 0

/-- Pop the stack entry at the top and add V to it: add(pop(), V). -/
def TreeAcc.popAdd (r : TreeAcc) (k : Nat) (tab : Raw) (t kind : Nat) (v : List Nat) : Except EStop (List Nat × TreeAcc) :=
  (slotLoc k tab t r.depth).map fun l =>
    let (u, f) := treeAddAll kind (words32 r.mem l 4096) v
    (u, { r with depth := r.depth - 1, fl := r.fl ||| f, bytes := r.bytes + 16384 })

/-- Write a tile's bits to a slot. -/
def TreeAcc.put (r : TreeAcc) (k : Nat) (tab : Raw) (t l : Nat) (v : List Nat) : Except EStop TreeAcc :=
  (slotLoc k tab t l).map fun a => { r with mem := Memory.blit r.mem a (wordBytes v), bytes := r.bytes + 16384 }

/-- While b is odd: V := add(pop(), V) (R281). -/
def TreeAcc.popOdd (r : TreeAcc) (k : Nat) (tab : Raw) (t kind b : Nat) (v : List Nat) : Nat → Except EStop (List Nat × TreeAcc)
  | 0 => .ok (v, r)
  | n + 1 =>
    if b % 2 = 0 then .ok (v, r)
    else match r.popAdd k tab t kind v with
      | .error z => .error z
      | .ok (u, r) => TreeAcc.popOdd r k tab t kind (b / 2) u n

/-- While the stack is not empty: V := add(pop(), V) (R281). -/
def TreeAcc.popAll (r : TreeAcc) (k : Nat) (tab : Raw) (t kind : Nat) (v : List Nat) : Nat → Except EStop (List Nat × TreeAcc)
  | 0 => .ok (v, r)
  | n + 1 =>
    if r.depth = 0 then .ok (v, r)
    else match r.popAdd k tab t kind v with
      | .error z => .error z
      | .ok (u, r) => TreeAcc.popAll r k tab t kind u n

/-- The span tree's step (R281): a chunk that is not the tile's next is MTREE, chunk 0 of a tile whose reduction has begun too (log 60). The
tile's new bits, the tree record, memory with the spills, flags, bytes. -/
def treeStep (k : Nat) (tab : Raw) (t kind : Nat) (z : Bool) (c n : Nat) (tr0 : TreeRec) (mem : Memory) (tile v : List Nat) :
    Except EStop (List Nat × TreeRec × TreeAcc) := do
  if c != (if tr0.active then tr0.next else 0) then .error (cMTREE, none)
  let tr := if c = 0 then { active := true, n := n, spill := tabSpill tab : TreeRec } else tr0
  let r0 : TreeAcc := { mem := mem, depth := tr.depth }
  let keep := c = 0 && !z && 1 < n
  let r1 ← if keep then r0.put k tab t 0 tile else .ok r0
  let slot0 := tr.slot0 || keep
  let (t1, f1) := if c % 16 = 0 then (v, 0#8) else treeAddAll kind tile v
  let r1 := { r1 with fl := r1.fl ||| f1 }
  if !(c % 16 = 15 || c + 1 = n) then
    .ok (t1, { tr with next := c + 1, slot0 := slot0 }, r1)
  else
    let (vv, r2) ← r1.popOdd k tab t kind (c / 16) t1 32
    if c + 1 < n then
      if tabLmax tab < r2.depth + 1 then .error (cMTREE, none)
      else
        let r3 ← r2.put k tab t (r2.depth + 1) vv
        .ok (t1, { tr with next := c + 1, slot0 := slot0, depth := r2.depth + 1 }, r3)
    else
      let (vv, r3) ← r2.popAll k tab t kind vv 32
      if z then .ok (vv, {}, r3)
      else if 1 < n then
        let l ← slotLoc k tab t 0
        let (u, f) := treeAddAll kind (words32 r3.mem l 4096) vv
        .ok (u, {}, { r3 with fl := r3.fl ||| f, bytes := r3.bytes + 16384 })
      else
        let (u, f) := treeAddAll kind tile vv
        .ok (u, {}, { r3 with fl := r3.fl ||| f })

/-- Rows of A's values, and columns of B's (R271). -/
def MmaIn.rows {β : Type} (i : MmaIn) (f : MOper → Nat → Except EStop β) : Except EStop (List (List β)) :=
  collect (fun r => collect (fun k => f i.a (r * i.a.pitch + k)) (upto i.kk)) (upto 64)
def MmaIn.cols {β : Type} (i : MmaIn) (bt : Bool) (f : MOper → Nat → Except EStop β) : Except EStop (List (List β)) :=
  collect (fun j => collect (fun k => f i.b (bOff bt i.b.pitch k j)) (upto i.kk)) (upto 64)

/-- The scale byte that all of a row or column share within a chunk, 127 without scales (R284); none where they differ. -/
def oneScale (l : List (Option Nat)) : Option Nat :=
  match l with
  | [] => some 127
  | x :: t => if t.all (· == x) then some (x.getD 127) else none

/-- What one read of a step's die-window B takes: its runs and their scale bytes (R273). -/
def State.windowCells (s : State) (b : MOper) (bt : Bool) (kk : Nat) : List (Nat × Nat × Memory) :=
  let n := bLen bt kk
  let cell (l m : Nat) : Nat × Nat × Memory := (l, m, Memory.slice s.mem l m)
  (bRuns b bt kk).flatMap fun p =>
    (match s.mLoc b p, s.mLoc b (p + n - 1) with
      | .ok l, .ok m => [cell l (m + nibBytes b.nib - l)]
      | _, _ => []) ++
    (upto ((n + 31) / 32)).filterMap fun j => (s.mScaleLoc b (p + 32 * j)).map fun l => cell l 1

/-- R273: the state with the step's request for a die-window B noted, the state in which it reads B, and whether it opens a read: a
request that agrees in owner, origin, pitch, orientation and formats with one of at most 64 clk before gets the bits that one got. A
request that acquires itself or is replayed (`anew`), or whose M has acquired or stored since that read, opens one of its own, so that it
sees what it must see (R274, R286, log 98). -/
def State.multicast (s : State) (i : MmaIn) (bt anew : Bool) : State × State × Bool :=
  let b := i.b
  if b.own then (s, s, false)
  else
    let fmts := match s.mBank b 0 with
      | some w => vget w.1 w.2 0xF#15 &&& 0x7F0F#15
      | none => 0#15
    let x : Mcast := ⟨coreDie i.x.k, b.e.addr, b.e.half, b.nib, b.pitch, bt, fmts, s.clk, s.windowCells b bt i.kk⟩
    let live := s.mcasts.filter fun y => s.clk ≤ y.since + 64
    let m := (s.core i.x.k).mx
    let shares (y : Mcast) : Bool :=
      !anew && !m.synced && m.sync < y.since && { y with since := 0, cells := [] } == { x with since := 0, cells := [] }
    match live.find? shares with
    | some y => ({ s with mcasts := live }, { s with mem := Memory.restore s.mem y.cells }, false)
    | none => ({ s with mcasts := live ++ [x] }, s, true)

/-- The chunk result of a step: the 64 × 64 elements and flags (R280, R284); `sb` is the state in which B is read. -/
def State.chunk (s sb : State) (i : MmaIn) (o : MmaOp) : Except EStop (List Nat × Byte) :=
  match o.p with
  | .p3 => do
    let int (s : State) (q : MOper) (p : Nat) : Except EStop Int :=
      (s.mBits q p).map fun b => if q.fmt == fRS24 then rsDecode b else toSigned ((intBits q.fmt).getD 8) b
    let a ← i.rows (int s)
    let b ← i.cols o.bt (int sb)
    let val (x : Int) : Nat := if i.kind = kRS24 then rsEncode x else ofSigned 32 (rsDecode (rsEncode x))
    .ok (a.flatMap fun r => b.map fun q => val (intDot r q), 0#8)
  | p => do
    let a ← i.rows s.mVal
    let b ← i.cols o.bt sb.mVal
    let (g, w) := match p with
      | .p2 => (8, 64)
      | .p1 => (32, 40)
      | .p3 => (32, 40)
    let es := a.flatMap fun r => b.map fun q => chunkDot g w r q
    .ok (es.map fun e => e.1, es.foldl (fun f e => f ||| e.2) 0#8)

/-- The exponents that a P3 step carries on its scale bytes (R284, R310); FORMAT where they differ within a row or column. -/
def State.stepExps (s sb : State) (i : MmaIn) (o : MmaOp) : Except EStop (List Nat × List Nat) := do
  let sc (s : State) (q : MOper) (p : Nat) : Except EStop (Option Nat) :=
    match s.mScale q p with
    | some 255 => .error (cFORMAT, none)
    | x => .ok x
  let a ← i.rows (sc s)
  let b ← i.cols o.bt (sc sb)
  let one (l : List (Option Nat)) : Except EStop Nat := match oneScale l with
    | some e => .ok e
    | none => .error (cFORMAT, none)
  let er ← collect one a
  let ec ← collect one b
  .ok (er, ec)

/-- The tile side after a P3 step on integers (R310): recorded, or checked. -/
def sideExps (side : TileSide) (c : Nat) (z : Bool) (er ec : List Nat) : Except EStop TileSide :=
  let v (l : List Nat) : Vector Byte 64 := Vector.ofFn fun i => BitVec.ofNat 8 (l.getD i.val 127)
  if c = 0 && !(!z && side.kind == kINT32) then .ok { side with er := v er, ec := v ec }
  else if side.er == v er && side.ec == v ec then .ok side
  else .error (cFORMAT, none)

/-- The effect of `mma` and `mmaz` (R309), and what a replay of the step needs (R286); `anew` as for `multicast`. -/
def State.mmaRun (s : State) (i : MmaIn) (o : MmaOp) (anew : Bool) : Except EStop MDone := do
  let k := i.x.k
  let side := (s.core k).side o.t
  if side.kind != 0 && side.kind != i.kind then .error (cMACC, none)
  let (s, sb, opened) := s.multicast i o.bt anew
  let (v, fl) ← s.chunk sb i o
  let side ← if i.kind = kINT32 then do
      let (er, ec) ← s.stepExps sb i o
      sideExps side i.c o.z er ec
    else .ok side
  let tr := vget (s.core k).mx.tree o.t {}
  let (tile, tr, r) ← treeStep k i.x.tab o.t i.kind o.z i.c i.n tr s.mem (s.tile k o.t) v
  let s := ({ s with mem := r.mem }.putTile k o.t tile).putSide k o.t { side with kind := i.kind }
  let s := s.modMx k fun x => { x with tree := vset x.tree o.t tr }
  let s := (((s.mCharge k 0 i.a.fmt 1).windowCharge k i.a (64 * i.kk)).windowCharge k i.b (64 * i.kk)).openCharge k i.b (64 * i.kk) opened
  .ok { s := s.mCharge k 4 fRAW r.bytes, fl := fl ||| r.fl }

/-- The spill area of tile t, location and length, when the step's reduction has more than one chunk (R282). -/
def MmaIn.spill (i : MmaIn) (k t : Nat) : List (Nat × Nat) :=
  if i.n ≤ 1 then []
  else match slotLoc k i.x.tab t 0 with
    | .ok l => [(l, 16384 * (tabLmax i.x.tab + 1))]
    | .error _ => []

/-- Issue of an MMA word: what a replay needs is kept (R286). -/
def State.mmaWord (s : State) (o : MmaOp) (i : Instr) (t : Tok) : State :=
  let mi := s.mmaIn o
  let spill := match mi with
    | .error _ => []
    | .ok x => x.spill s.cur.k.val o.t
  s.dataM t (mi.map fun x => s.mmaLocks x o) (fun s =>
    mi >>= fun x => (s.mmaRun x o (t.pop != 0#2)).map fun u => { u with redo := some (.step i s.cur.nest x.x.c x.x.n x.x.bf) }) spill

/-- R308, R309, R311. -/
def execMma (a b : BitVec 3) (t : BitVec 4) (p : Profile) (bt : Bool) (k : Tok) (s : State) : Host.Outcome State Fault Refusal :=
  .next (s.mmaWord ⟨a, b, t.toNat, p, bt, false⟩ (.mma a b t p bt k) k)
def execMmaz (a b : BitVec 3) (t : BitVec 4) (p : Profile) (bt : Bool) (k : Tok) (s : State) : Host.Outcome State Fault Refusal :=
  .next (s.mmaWord ⟨a, b, t.toNat, p, bt, true⟩ (.mmaz a b t p bt k) k)

/-! ### Tile load, store, zero -/

/-- All flags of a list. -/
def flagsOf (fs : List Byte) : Byte := fs.foldl (fun f g => f ||| g) 0#8

/-- The code of a tile kind (R268). -/
def kindCode (k : TileKind) : Nat :=
  match k with
  | .fp32 => kFP32
  | .int32 => kINT32
  | .rs24 => kRS24

/-- The format of a tile kind. -/
def kindFmt (k : TileKind) : Fmt :=
  match k with
  | .fp32 => fFP32
  | .int32 => fINT32
  | .rs24 => fRS24

/-- A source format that `mld` takes for a kind (R312). -/
def loadable (k : TileKind) (f : Fmt) : Bool :=
  match k with
  | .fp32 => f == fFP32 || f == fBF16 || f == fFP16 || f == fE4M3 || f == fE5M2 || f == fFP4
  | .int32 => f == fINT32 || f == fINT8 || f == fINT4
  | .rs24 => f == fRS24

/-- A 64 × 64 operand with its checks (R312, R313). -/
def State.blockOper (s : State) (set : BitVec 3) (raw : Bool) : Except EStop (MCtx × MOper) := do
  let x ← s.mCtx
  let o ← s.mOper x set
  s.mFit o (rowStarts o.pitch 64) 64 raw
  .ok (x, o)

/-- `mld`'s element as tile bits: the value into the kind, with the flags of an overflow (R312, R81). -/
def State.loadElem (s : State) (k : TileKind) (o : MOper) (p : Nat) : Except EStop (Nat × Byte) :=
  match k with
  | .fp32 => (s.mVal o p).map rneF32
  | .int32 => (s.mBits o p).map fun b => (ofSigned 32 (toSigned ((intBits o.fmt).getD 32) b), 0#8)
  | .rs24 => (s.mBits o p).map fun b => (rsEncode (rsDecode b), 0#8)

/-- `mld`'s sum for `.add` (R312): a floating source is added exactly, one rounding. -/
def State.loadAdd (s : State) (k : TileKind) (o : MOper) (p y : Nat) : Except EStop (Nat × Byte) :=
  match k with
  | .fp32 => (s.mVal o p).map fun v =>
      let (x, f) := Val.add false (f32 y) v
      let (r, g) := rneF32 x
      (r, f ||| g)
  | .int32 => (s.loadElem k o p).map fun x => treeAdd kINT32 y x.1
  | .rs24 => (s.loadElem k o p).map fun x => treeAdd kRS24 y x.1

/-- R312. -/
def State.mldRun (s : State) (t : Nat) (k : TileKind) (add : Bool) (o : MOper) : Except EStop MDone := do
  let core := s.cur.k.val
  let side := s.me.side t
  if !loadable k o.fmt || (k == .int32 && s.mScaled o) then .error (cFORMAT, none)
  if add && side.kind != 0 && side.kind != kindCode k then .error (cMACC, none)
  let old := s.tile core t
  let rs ← collect (fun (p, y) => if add then s.loadAdd k o p y else s.loadElem k o p)
    ((blockOffs o.pitch).zip old)
  let s := s.putTile core t (rs.map fun r => r.1)
  let s := s.putSide core t (if add then { side with kind := kindCode k } else { kind := kindCode k })
  .ok { s := (s.mCharge core 1 o.fmt 4096).windowCharge core o 4096, fl := flagsOf (rs.map fun r => r.2) }

def execMld (set : BitVec 3) (t : BitVec 4) (k : TileKind) (add : Bool) (tk : Tok) (s : State) :
    Host.Outcome State Fault Refusal :=
  let o := s.blockOper set false
  .next (s.dataM tk
    (o.map fun x => { rd := s.mLockR x.2 (rowStarts x.2.pitch 64) 64, twr := 1#18 <<< t.toNat })
    fun s => match o with
      | .error z => .error z
      | .ok x => s.mldRun t.toNat k add x.2)

/-- The destination scale of an element, if its bank is scaled; FORMAT for the NaN scale (R166, R315). -/
def State.dstScale (s : State) (o : MOper) (p : Nat) : Except EStop (Option Nat) :=
  match s.mScale o p with
  | some 255 => .error (cFORMAT, none)
  | x => .ok x

/-- Write patterns at element offsets in order. -/
def State.writeAll (s : State) (o : MOper) (m : Memory) : List (Nat × Nat) → Except EStop Memory
  | [] => .ok m
  | (p, v) :: t =>
    match s.mLoc o p with
    | .error z => .error z
    | .ok l => State.writeAll s o (Memory.writeMask m l (elemBytes (o.at_ p) o.nib v)) t

/-- The draws of a word that writes n elements under a mode, and the generator after them (R84). -/
def State.mDraws (s : State) (k : Nat) (u : Unit4) (m : RMode) (n : Nat) : List Nat × State :=
  match m with
  | .sr => let (l, g) := draws (s.gen k u) n; (l, s.setGen k u g)
  | .rne => (List.replicate n 0, s)
  | .rtz => (List.replicate n 0, s)
  | .rdn => (List.replicate n 0, s)
  | .rup => (List.replicate n 0, s)

/-- R313. SR draws once per element written, whatever the destination (log 59). -/
def State.mstRun (s : State) (t : Nat) (k : TileKind) (m : RMode) (o : MOper) : Except EStop MDone := do
  let core := s.cur.k.val
  let side := s.me.side t
  let raw := o.fmt == fRAW
  if raw && o.nib != 8 then .error (cFORMAT, none)
  if side.kind != 0 && side.kind != kindCode k then .error (cMACC, none)
  let (ds, s) := s.mDraws core .m m 4096
  let offs := blockOffs o.pitch
  let rs : List ((Nat × Nat) × Byte) ← collect (fun ((p, v), d) =>
      if raw then .ok ((p, v), 0#8)
      else do
        let q ← s.dstScale o p
        match convElem (kindFmt k) o.fmt m d v none q with
        | .error z => .error (z, none)
        | .ok (y, f) => .ok ((p, y), f))
    ((offs.zip (s.tile core t)).zip ds)
  let mem ← s.writeAll o s.mem (rs.map fun r => r.1)
  .ok { s := { s with mem := mem }.mCharge core 1 o.fmt 4096, fl := flagsOf (rs.map fun r => r.2) }

def execMst (set : BitVec 3) (t : BitVec 4) (k : TileKind) (m : RMode) (tk : Tok) (s : State) :
    Host.Outcome State Fault Refusal :=
  let o := s.blockOper set true
  .next (s.dataM tk
    (o.map fun x =>
      let w := s.mLockW x.2 (rowStarts x.2.pitch 64) 64
      { rd := s.mLockR x.2 (rowStarts x.2.pitch 64) 64 &&& ~~~w, wr := w, trd := 1#18 <<< t.toNat })
    fun s => match o with
      | .error z => .error z
      | .ok x => s.mstRun t.toNat k m x.2)

/-- R314. -/
def execMzero (t : BitVec 4) (raw : Bool) (tk : Tok) (s : State) : Host.Outcome State Fault Refusal :=
  let k := s.cur.k.val
  .next (s.dataM tk (s.mCtx.map fun _ => { twr := 1#18 <<< t.toNat }) fun s =>
    .ok { s := ({ s with mem := Memory.clear s.mem (tileLoc k t.toNat) 16384 }.putSide k t.toNat
      { kind := if raw then 0 else kFP32 }).mCharge k 1 (if raw then fRAW else fFP32) 4096 })

/-! ### Requantisation -/

/-- The exact value of a tile element for `mrq`, with its exponents (R285, R315). -/
def rqVal (side : TileSide) (i j v : Nat) : Val :=
  let z : Int := (vget side.er i 127#8).toNat + (vget side.ec j 127#8).toNat - 254
  if side.kind = kINT32 then (Val.ofInt (toSigned 32 v)).scale z
  else if side.kind = kRS24 then (Val.ofInt (rsDecode v)).scale z
  else f32 v

/-- R315. -/
def State.mrqRun (s : State) (t : Nat) (f : Fmt) (m : RMode) (row : Bool) (d c : MOper) : Except EStop MDone := do
  let core := s.cur.k.val
  let side := s.me.side t
  if f == fRS24 || f == fE8M0 || f == fRAW || f != d.fmt || c.fmt != fFP32 || c.nib != 8 then .error (cFORMAT, none)
  let scales ← collect (fun i => s.mVal c i) (upto (if row then 64 else 1))
  let (ds, s) := s.mDraws core .m m 4096
  let idx := (upto 64).flatMap fun i => (upto 64).map fun j => (i, j)
  let rs : List ((Nat × Nat) × Byte) ← collect (fun ((ij, v), r) => do
      let p := ij.1 * d.pitch + ij.2
      let q ← s.dstScale d p
      let (x, fl) := Val.mul (rqVal side ij.1 ij.2 v) (scales.getD (if row then ij.1 else 0) .nan)
      let (y, g) := roundTo f m r (x.scale (127 - ((q.getD 127 : Nat) : Int)))
      (.ok ((p, y), fl ||| g) : Except EStop ((Nat × Nat) × Byte)))
    ((idx.zip (s.tile core t)).zip ds)
  let mem ← s.writeAll d s.mem (rs.map fun r => r.1)
  .ok { s := ({ s with mem := mem }.mCharge core 2 f 4096).windowCharge core c (if row then 64 else 1), fl := flagsOf (rs.map fun r => r.2) }

def execMrq (d c : BitVec 3) (t : BitVec 4) (f : BitVec 4) (m : RMode) (row : Bool) (tk : Tok) (s : State) :
    Host.Outcome State Fault Refusal :=
  let ops : Except EStop (MOper × MOper) := do
    let x ← s.mCtx
    let od ← s.mOper x d
    let oc ← s.mOper x c
    s.mFit od (rowStarts od.pitch 64) 64 false
    s.mFit oc [0] (if row then 64 else 1) false
    .ok (od, oc)
  .next (s.dataM tk
    (ops.map fun x =>
      let w := s.mLockW x.1 (rowStarts x.1.pitch 64) 64
      { rd := (s.mLockR x.1 (rowStarts x.1.pitch 64) 64 ||| s.mLockR x.2 [0] (if row then 64 else 1)) &&& ~~~w, wr := w,
        trd := 1#18 <<< t.toNat })
    fun s => match ops with
      | .error z => .error z
      | .ok x => s.mrqRun t.toNat f m row x.1 x.2)

/-! ### Replay -/

/-- RPLC[31:0] counts a replay, up to its largest value (R96, R286). -/
def State.countReplay (s : State) (k : Nat) : State :=
  s.modCore k fun c =>
    { c with sys := { c.sys with rplcM := if c.sys.rplcM == BitVec.allOnes 32 then c.sys.rplcM else c.sys.rplcM + 1#32 } }

/-- The oldest word of M in progress that can be replayed (R286, R335): the nest's words are behind no step of the stream. -/
def Core.replayable (c : Core) : Option Outst := (c.m.outst ++ c.mx.outst).find? fun o => !o.done && o.redo.isSome

/-- A word of M in progress replaced. -/
def State.putOutst (s : State) (k : Nat) (o : Outst) : State :=
  let f (x : Outst) : Outst := if x.id = o.id then o else x
  s.modCore k fun c => { c with m := { c.m with outst := c.m.outst.map f }, mx := { c.mx with outst := c.mx.outst.map f } }

/-- R287: a replay that cannot go on: nothing of the word, and of the words behind it, remains; the job faults. -/
def State.replayFail (s : State) (k : Nat) (z : Byte) : State :=
  let s := s.abandonM k
  s.jobFaultFree k z 5 (s.core k).m.pc

/-- R286: the tile comes back from its shadow, the step is read and computed again; the fourth failed attempt faults MREPLAY. -/
def State.replayStep (s : State) (k : Nat) (w : Outst) (i : Instr) (nest : Bool) (c n : Vector Nat 6) (bf : Vector (BitVec 15) 32) : State :=
  let back := s.undoData k w.undo
  let op : Option MmaOp := match i with
    | .mma a b t p bt _ => some ⟨a, b, t.toNat, p, bt, false⟩
    | .mmaz a b t p bt _ => some ⟨a, b, t.toNat, p, bt, true⟩
    | _ => none
  match op, (s.core k).mx.active with
  | some o, some tab =>
    if 4 ≤ w.fails + 1 then back.replayFail k cMREPLAY
    else
      let back := back.countReplay k
      match back.mmaAt o ⟨k, tab, c, n, bf, nest⟩ >>= fun x => back.mmaRun x o true with
      | .ok u => u.s.putOutst k { w with fl := u.fl, fails := w.fails + 1 }
      | .error z => back.replayFail k z.1
  | _, _ => s

end Sys2Proof.Machine
end

