-- ==== Sys2Proof/Machine/Oa.lean ====
section
/-! DEFINITION. The orthogonal accumulators (R317 to R336): their image, compact blocks and D applied to a vector, appending a
reflector with its overflow, and the oa words. A word reads everything it reads from the state before it (R320). -/

namespace Sys2Proof.Machine

/-! ### The image of a register (R317) -/

/-- A table from its words in order. -/
def tabOf (ws : List Nat) : Map Nat := (ws.zipIdx.filter fun p => p.1 != 0).map fun p => (p.2, p.1)

/-- The words 0 to n − 1 of a table. -/
def tabWords (m : Map Nat) (n : Nat) : List Nat := (upto n).map fun i => mget m i 0

/-- T(a, b) and Y(r, a). -/
def OaReg.tAt (x : OaReg) (a b : Nat) : Nat := mget x.t (32 * a + b) 0
def OaReg.yAt (x : OaReg) (r a : Nat) : Nat := mget x.y (32 * r + a) 0

/-- Bytes of an image. -/
def oaSize : Nat := 0x9100

/-- The layout of R317; an uninitialised register is all zero. -/
def OaReg.bytes (x : OaReg) : List Byte :=
  bytesOfNat 4 (if x.init then 1 else 0) ++ bytesOfNat 1 (if x.init then 1 else 0) ++ bytesOfNat 1 x.mode ++ bytesOfNat 1 x.k ++
  bytesOfNat 1 x.nseg ++ bytesOfNat 2 x.n ++ bytesOfNat 1 (if x.folded then 1 else 0) ++ zeroBytes 5 ++ bytesOfNat 8 x.area.toNat ++
  zeroBytes 8 ++ x.segk.toList ++ zeroBytes 208 ++ wordBytes (tabWords x.t 1024) ++ wordBytes (tabWords x.y 8192)

/-- The words of 32 bits of raw bytes from an offset. -/
def rawWords (b : Raw) (o n : Nat) : List Nat := words32 (Memory.cellsOf 0 ((b.drop o).take (4 * n))) 0 n

/-- Reading an image, unchecked. -/
def oaOf (b : Raw) : OaReg where
  init := rawNat b 4 1 == 1
  mode := rawNat b 5 1
  k := rawNat b 6 1
  nseg := rawNat b 7 1
  n := rawNat b 8 2
  folded := rawNat b 0xA 1 == 1
  area := BitVec.ofNat 64 (rawNat b 0x10 8)
  segk := Vector.ofFn fun i => BitVec.ofNat 8 (rawNat b (0x20 + i.val) 1)
  t := tabOf (rawWords b 0x100 1024)
  y := tabOf (rawWords b 0x1100 8192)

/-- T is upper triangular, and T and Y are +0 in columns at k and beyond and in rows of Y at n and beyond (R317). -/
def OaReg.regular (x : OaReg) : Bool :=
  x.t.all (fun e => e.1 / 32 ≤ e.1 % 32 && e.1 % 32 < x.k) && x.y.all fun e => e.1 % 32 < x.k && e.1 / 32 < x.n

/-- An image that `oa.fill` takes (R332). -/
def oaImageOk (b : Raw) : Bool :=
  let x := oaOf b
  let zero (o n : Nat) := ((b.drop o).take n).all (· == 0#8)
  zero 0 oaSize ||
  (rawNat b 0 4 == 1 && x.init && x.mode ≤ 2 && x.k ≤ 32 && x.nseg ≤ 16 && 1 ≤ x.n && x.n ≤ 256 &&
    rawNat b 0xA 1 ≤ 1 && (!x.folded || x.mode == 2) && zero 0xB 5 && zero 0x18 8 && zero 0x30 208 &&
    ((upto 16).all fun s =>
      let v := (vget x.segk s 0#8).toNat
      if s < x.nseg then 1 ≤ v && v ≤ 32 else v == 0) && x.regular)

/-! ### Blocks -/

/-- Flags and products of a word in progress (R322). -/
structure OaRun where
  fl : Byte := 0#8
  p : Nat := 0
  deriving DecidableEq, Repr

/-- p2dot of two runs of patterns (R321). -/
def OaRun.dot (r : OaRun) (u w : List Nat) : Nat × OaRun :=
  let (x, f) := p2dot (u.map f32) (w.map f32)
  (x, ⟨r.fl ||| f, r.p + min u.length w.length⟩)

/-- One rounding. -/
def OaRun.rne (r : OaRun) (v : Val × Byte) : Nat × OaRun :=
  let (x, f) := rneF32 v.1
  (x, { r with fl := r.fl ||| v.2 ||| f })

/-- A list of results in order. -/
def OaRun.each {α β : Type} (f : OaRun → α → β × OaRun) (r : OaRun) : List α → List β × OaRun
  | [] => ([], r)
  | a :: t =>
    let (b, r) := f r a
    let (bs, r) := OaRun.each f r t
    (b :: bs, r)

/-- What Q is made of: the register or a segment, or D by rows (R327). -/
inductive OaBlk where
  | refl (k : Nat) (t y : Map Nat)
  | dense (rows : List (List Nat))

/-- The rows of the n × n transpose. -/
def flip (n : Nat) (rows : List (List Nat)) : List (List Nat) := (upto n).map fun j => rows.map fun r => r.getD j 0

/-- A block applied to one vector x of n elements from the left, transposed with tr (R327). A row of X under a right block is this
with tr inverted: its products and their order are the same. -/
def OaBlk.vec (b : OaBlk) (n : Nat) (tr : Bool) (x : List Nat) (r : OaRun) : List Nat × OaRun :=
  match b with
  | .refl k t y =>
    let tAt (i j : Nat) := mget t (32 * i + j) 0
    let yAt (i a : Nat) := mget y (32 * i + a) 0
    let (w, r) := OaRun.each (fun r a => r.dot ((upto n).map fun i => yAt i a) x) r (upto k)
    let (v, r) := OaRun.each (fun r a => r.dot ((upto k).map fun b => if tr then tAt b a else tAt a b) w) r (upto k)
    OaRun.each (fun (r : OaRun) (p : Nat × Nat) =>
      let (z, r) := r.dot ((upto k).map fun a => yAt p.2 a) v
      r.rne (Val.add false (f32 p.1) (f32 z).neg)) r x.zipIdx
  | .dense rows => OaRun.each (fun r row => r.dot row x) r (if tr then flip n rows else rows)

/-- Blocks applied one after another (R328). -/
def oaChain (bs : List OaBlk) (n : Nat) (tr : Bool) (x : List Nat) (r : OaRun) : List Nat × OaRun :=
  bs.foldl (fun a b => b.vec n tr a.1 a.2) (x, r)

/-- The register as a block, if it holds a reflector. -/
def OaReg.blk (x : OaReg) : List OaBlk := if x.k = 0 then [] else [.refl x.k x.t x.y]

/-! ### Operands -/

/-- Location of n raw bytes at an address word of the own scratchpad, aligned to `al`; any other space is ADDR_SPACE whatever else the word
holds (R320). -/
def oaRaw (k : Nat) (a : Dword) (n al : Nat) : Except EStop Nat :=
  if spaceOf a != 1 then .error (cADDR_SPACE, some a)
  else match placeOf a n with
  | .error z => .error (z, some a)
  | .ok (.own off) => if off % al = 0 then .ok (scratchLoc k + off) else .error (cMISALIGN, some a)
  | .ok (.virt _) => .error (cADDR_SPACE, some a)
  | .ok (.window _ _) => .error (cADDR_SPACE, some a)
  | .ok (.stage _ _) => .error (cADDR_SPACE, some a)
  | .ok (.acc _) => .error (cADDR_SPACE, some a)

/-- A set of an oa word: valid, its origin in the own scratchpad, esz 3 (R320). -/
def MCtx.oaSet (x : MCtx) (set : BitVec 3) : Except EStop MOper :=
  let m := tabSet x.tab set.toNat
  let e := m.origin x.c
  if !m.ok then .error (cMNEST, none)
  else match oaRaw x.k e.addr 1 1 with
    | .error z => .error z
    | .ok _ => if m.esz = 3 then .ok ⟨e, 8, m.pitch, x.k, true, x.bf, (bankWord x.bf (scOff e)).extractLsb' 0 4⟩ else .error (cFORMAT, none)

/-- An operand of FP32 elements without block scales (R320). -/
def State.plainF32 (s : State) (o : MOper) (runs : List Nat) (len : Nat) : Except EStop Unit :=
  let b := s.mMask o runs len
  if sameBanks o.bf b && (bitsOf b).all fun b => vget o.bf b 0xF#15 &&& 0x600F#15 == 0#15 then .ok () else .error (cFORMAT, none)

/-- Banks of n bytes from an own-scratchpad address. -/
def byteBanks (a : Dword) (n : Nat) : BitVec 32 :=
  let o := (a.extractLsb' 0 21).toNat
  ((upto 32).filter fun b => o < 65536 * (b + 1) && 65536 * b < o + n).foldl (fun m b => m ||| (1#32 <<< b)) 0#32

/-- Bytes from the first to the last element of D (R323). -/
def oaExtent (n : Nat) : Nat := 1024 * (n - 1) + 4 * n

/-- An oa word in progress: context, register, what it writes in order, products and flags, bytes (R322). -/
structure OaAcc where
  x : MCtx
  reg : OaReg
  ws : List (Nat × List Byte) := []
  run : OaRun := {}
  bytes : Nat := 0

/-- Write bytes at a location, when the word has read all it reads. -/
def OaAcc.put (a : OaAcc) (l : Nat) (bs : List Byte) : OaAcc := { a with ws := a.ws ++ [(l, bs)], bytes := a.bytes + bs.length }

/-- Elements of an operand at offsets, counted. -/
def OaAcc.read (a : OaAcc) (s : State) (o : MOper) (ps : List Nat) : Except EStop (List Nat × OaAcc) :=
  (collect (s.mBits o) ps).map fun vs => (vs, { a with bytes := a.bytes + 4 * ps.length })

/-- Elements of an operand written. -/
def OaAcc.write (a : OaAcc) (s : State) (o : MOper) (pvs : List (Nat × Nat)) : Except EStop OaAcc :=
  (collect (fun pv => (s.mLoc o pv.1).map fun l => (l, bytesOfNat 4 pv.2)) pvs).map fun ws =>
    { a with ws := a.ws ++ ws, bytes := a.bytes + 4 * pvs.length }

/-- Segment s as a block, its header checked (R330). -/
def OaAcc.segment (a : OaAcc) (m : Memory) (s : Nat) : Except EStop (List OaBlk × OaAcc) :=
  (oaRaw a.x.k (a.reg.area + BitVec.ofNat 64 (oaSize * s)) oaSize 4) >>= fun l =>
    let b := Memory.readN m l oaSize
    let g := oaOf b
    if rawNat b 0 4 = 1 && g.init && g.k == (vget a.reg.segk s 0#8).toNat then .ok (g.blk, { a with bytes := a.bytes + oaSize })
    else .error (cOASTATE, none)

/-- Segments in a given order. -/
def OaAcc.segments (a : OaAcc) (m : Memory) : List Nat → Except EStop (List OaBlk × OaAcc)
  | [] => .ok ([], a)
  | s :: t =>
    match a.segment m s with
    | .error z => .error z
    | .ok (b, a) => (OaAcc.segments a m t).map fun r => (b ++ r.1, r.2)

/-- The rows of D (R323). -/
def OaAcc.readD (a : OaAcc) (m : Memory) : Except EStop (List (List Nat) × OaAcc) :=
  let n := a.reg.n
  (oaRaw a.x.k a.reg.area (oaExtent n) 4).map fun l =>
    ((upto n).map fun r => words32 m (l + 1024 * r) n, { a with bytes := a.bytes + 4 * n * n })

/-- The register emptied of reflectors (R330). -/
def OaReg.cleared (x : OaReg) : OaReg := { x with k := 0, t := [], y := [] }

/-- segment-out of R330. -/
def OaAcc.segmentOut (a : OaAcc) : Except EStop OaAcc :=
  let x := a.reg
  (oaRaw a.x.k (x.area + BitVec.ofNat 64 (oaSize * x.nseg)) oaSize 4).map fun l =>
    { (a.put l { x with nseg := 0, segk := Vector.replicate 16 0#8, folded := false }.bytes) with
      reg := { x.cleared with segk := vset x.segk x.nseg (BitVec.ofNat 8 x.k), nseg := x.nseg + 1 } }

/-- fold-out of R330: D := D · Q_reg. -/
def OaAcc.foldOut (a : OaAcc) (m : Memory) : Except EStop OaAcc :=
  let x := a.reg
  match a.readD m with
  | .error z => .error z
  | .ok (d, a) =>
    let (rows, run) := OaRun.each (fun r row => oaChain x.blk x.n true row r) a.run d
    (oaRaw a.x.k x.area (oaExtent x.n) 4).map fun l =>
      let a := (rows.zipIdx).foldl (fun (a : OaAcc) p => a.put (l + 1024 * p.2) (wordBytes p.1)) { a with run := run }
      { a with reg := { x.cleared with folded := true } }

/-- What makes room, or takes the reflectors out, under the mode (R324, R331). -/
def OaAcc.outFold (a : OaAcc) (m : Memory) : Except EStop OaAcc :=
  if a.reg.mode = 0 || (a.reg.mode = 1 && a.reg.nseg = 16) then .error (cOACAP, none)
  else if a.reg.mode = 1 then a.segmentOut
  else a.foldOut m

/-- A register with room, with the reflector (v, τ) appended (R324). -/
def OaReg.appended (x : OaReg) (v : List Nat) (tau : Nat) (r : OaRun) : OaReg × OaRun :=
  let k := x.k
  let (w, r) := OaRun.each (fun r c => r.dot ((upto x.n).map fun i => x.yAt i c) v) r (upto k)
  let (col, r) := OaRun.each (fun (r : OaRun) c =>
    let (u, r) := r.dot ((upto k).map fun b => x.tAt c b) w
    r.rne (Val.mul (f32 tau).neg (f32 u))) r (upto k)
  let t := (col ++ [tau]).zipIdx.foldl (fun t p => mset0 t (32 * p.2 + k) p.1) x.t
  let y := v.zipIdx.foldl (fun y p => mset0 y (32 * p.2 + k) p.1) x.y
  ({ x with t := t, y := y, k := k + 1 }, r)

/-- Append the reflector (v, τ), after making room (R324). -/
def OaAcc.append (a : OaAcc) (m : Memory) (v : List Nat) (tau : Nat) : Except EStop OaAcc :=
  (if a.reg.k = 32 then a.outFold m else .ok a).map fun a =>
    let (x, r) := a.reg.appended v tau a.run
    { a with reg := x, run := r }

/-! ### The words -/

/-- The banks an append or a fold takes: those read, those written (R320). -/
def OaReg.overflowBanks (x : OaReg) : BitVec 32 × BitVec 32 :=
  if x.mode = 1 then (0#32, byteBanks (x.area + BitVec.ofNat 64 (oaSize * x.nseg)) oaSize)
  else if x.mode = 2 then (0#32, byteBanks x.area (oaExtent x.n))
  else (0#32, 0#32)

/-- The banks that applying Q reads beside X (R328). -/
def OaReg.applyBanks (x : OaReg) : BitVec 32 :=
  if x.mode = 1 then (if x.nseg = 0 then 0#32 else byteBanks x.area (oaSize * x.nseg))
  else if x.mode = 2 && x.folded then byteBanks x.area (oaExtent x.n)
  else 0#32

/-- A register that an oa word names. -/
def Core.oa (c : Core) (o : BitVec 1) : OaReg := vget c.mx.oa o.toNat {}

/-- Locks of an oa word on register o. -/
def oaLocks (o : BitVec 1) (rd wr : BitVec 32) : Locks := { rd := rd &&& ~~~wr, wr := wr, twr := 1#18 <<< (16 + o.toNat) }

/-- The charges of an oa word of so many products and bytes (R288, R322). -/
def State.oaCharge (s : State) (k products bytes : Nat) : State :=
  (s.mCharge k 5 fFP32 (1 + (products + 255) / 256)).mCharge k 1 fFP32 (bytes / 4)

/-- A word's end: its writes, its register, flags and charges (R320, R322); and what a replay needs (R335). -/
def State.oaDone (s : State) (o : BitVec 1) (a : OaAcc) : MDone :=
  let k := a.x.k
  let mem := a.ws.foldl (fun m w => Memory.blit m w.1 w.2) s.mem
  let t := { s with mem := mem }.modMx k fun x => { x with oa := vset x.oa o.toNat a.reg }
  { s := t.oaCharge k a.run.p a.bytes
    fl := a.run.fl
    redo := some (.oa (a.ws.map fun w => (w.1, Memory.readN s.mem w.1 w.2.length)) a.run.p a.bytes) }

/-- An oa word: context, a register that is initialised where it must be, locks, effect. -/
def State.oaWord (s : State) (o : BitVec 1) (t : Tok) (needInit : Bool) (locks : MCtx → OaReg → Except EStop (BitVec 32 × BitVec 32))
    (run : State → OaAcc → Except EStop OaAcc) : State :=
  let x := s.me.oa o
  let ctx := s.mCtx >>= fun c => if needInit && !x.init then .error (cOASTATE, none) else .ok c
  s.dataM t (ctx >>= fun c => (locks c x).map fun l => oaLocks o l.1 l.2) fun s =>
    ctx >>= fun c => (run s { x := c, reg := x }).map (s.oaDone o)

/-- The sets and register of R323. -/
def oaModeCode (m : OaMode) : Nat :=
  match m with
  | .cap => 0
  | .seg => 1
  | .fold => 2

/-- The area that `oa.init` takes (R323): 0 in mode 0. -/
def MCtx.oaArea (x : MCtx) (set : BitVec 3) (mode n : Nat) : Except EStop Dword :=
  if mode = 0 then (if (tabSet x.tab set.toNat).ok then .ok 0#64 else .error (cMNEST, none))
  else
    x.oaSet set >>= fun o =>
      let a := o.e.addr
      if a.extractLsb' 0 6 != 0#6 then .error (cMISALIGN, some a)
      else if 0x200000 < (a.extractLsb' 0 21).toNat + (if mode = 1 then 16 * oaSize else 1024 * n) then .error (cADDR_RANGE, some a)
      else .ok a

/-- R323. -/
def execOaInit (o : BitVec 1) (set : BitVec 3) (m : OaMode) (n : BitVec 8) (t : Tok) (s : State) : Host.Outcome State Fault Refusal :=
  let mode := oaModeCode m
  let n := n.toNat + 1
  .next (s.oaWord o t false
    (fun x _ => (x.oaArea set mode n).map fun a => (0#32, if mode = 2 then byteBanks a (oaExtent n) else 0#32))
    fun _ a => (a.x.oaArea set mode n).map fun area =>
      let a := { a with reg := { init := true, mode := mode, n := n, area := area } }
      if mode = 2 then
        (upto n).foldl (fun (a : OaAcc) r =>
          a.put (scratchLoc a.x.k + (area.extractLsb' 0 21).toNat + 1024 * r)
            (wordBytes ((upto n).map fun q => if r = q then 0x3F800000 else 0))) a
      else a)

/-- Offsets of a column of n elements. -/
def colOffs (o : MOper) (n : Nat) : List Nat := (upto n).map (· * o.pitch)

/-- The numbers of `oa.house` for x_0 and the rest (R325): τ, β, t. -/
def houseOf (x0 : Nat) (xs : List Nat) (r : OaRun) : Nat × Nat × List Nat × OaRun :=
  let (s, r) := r.dot xs xs
  if s = 0 then (0, x0, xs.map fun _ => 0, r)
  else
    let v0 := f32 x0
    let sq := Val.mul v0 v0
    let sum := Val.add false sq.1 (f32 s)
    let (q, r) := r.rne (sum.1, sq.2 ||| sum.2)
    let (nrm, r) := r.rne (f32 q).sqrt
    let (beta, r) := if x0 / 2 ^ 31 % 2 = 0 then r.rne ((f32 nrm).neg, 0#8) else (nrm, r)
    let num := Val.add false (f32 beta) v0.neg
    let quo := Val.div num.1 (f32 beta)
    let (tau, r) := r.rne (quo.1, num.2 ||| quo.2)
    let (d, r) := r.rne (Val.add false v0 (f32 beta).neg)
    let (t, r) := OaRun.each (fun (r : OaRun) x => r.rne (Val.div (f32 x) (f32 d))) r xs
    (tau, beta, t, r)

/-- Row offset j of `oa.house` (R325): the counter of its level, 0 without one. -/
def MCtx.level (x : MCtx) (l : BitVec 3) : Nat := vget x.c l.toNat 0

/-- R325. -/
def execOaHouse (o : BitVec 1) (set l : BitVec 3) (t : Tok) (s : State) : Host.Outcome State Fault Refusal :=
  .next (s.oaWord o t true
    (fun x g => do
      if g.n ≤ x.level l then .error (cOASTATE, some (BitVec.ofNat 64 (x.level l)))
      let q ← x.oaSet set
      s.plainF32 q (colOffs q g.n) 1
      let ovf := if g.k = 32 then g.overflowBanks else (0#32, 0#32)
      .ok (s.mMask q (colOffs q g.n) 1, s.mMask q ((colOffs q g.n).drop (x.level l)) 1 ||| ovf.2))
    fun s a => do
      let j := a.x.level l
      let n := a.reg.n
      let q ← a.x.oaSet set
      let (col, a) ← a.read s q (colOffs q n)
      let (tau, beta, ts, run) := houseOf (col.getD j 0) (col.drop (j + 1)) a.run
      let a ← { a with run := run }.write s q (((colOffs q n).drop j).zip (beta :: ts.map fun _ => 0))
      a.append s.mem (List.replicate j 0 ++ 0x3F800000 :: ts) tau)

/-- R326. -/
def execOaApp (o : BitVec 1) (v u : BitVec 3) (t : Tok) (s : State) : Host.Outcome State Fault Refusal :=
  .next (s.oaWord o t true
    (fun x g => do
      let q ← x.oaSet v
      let w ← x.oaSet u
      s.plainF32 q (colOffs q g.n) 1
      s.plainF32 w [0] 1
      let ovf := if g.k = 32 then g.overflowBanks else (0#32, 0#32)
      .ok (s.mMask q (colOffs q g.n) 1 ||| s.mMask w [0] 1, ovf.2))
    fun s a => do
      let q ← a.x.oaSet v
      let w ← a.x.oaSet u
      let (vs, a) ← a.read s q (colOffs q a.reg.n)
      let (ts, a) ← a.read s w [0]
      a.append s.mem vs (ts.headD 0))

/-- Offsets of a matrix of so many rows and columns, row by row. -/
def gridOffs (o : MOper) (rows cols : Nat) : List Nat := (upto rows).flatMap fun i => (upto cols).map fun j => i * o.pitch + j

/-- The list cut into runs of n; fuel is its length. -/
def runsOf (n : Nat) (l : List Nat) : Nat → List (List Nat)
  | 0 => []
  | f + 1 => if l.isEmpty then [] else l.take n :: runsOf n (l.drop n) f

/-- The blocks of R328 in the order in which a left apply takes them, and a right apply with tr inverted. -/
def OaAcc.blocks (a : OaAcc) (m : Memory) (tr : Bool) : Except EStop (List OaBlk × OaAcc) :=
  let g := a.reg
  let rest : Except EStop (List OaBlk × OaAcc) :=
    if g.mode = 1 then a.segments m (if tr then upto g.nseg else (upto g.nseg).reverse)
    else if g.mode = 2 && g.folded then (a.readD m).map fun r => ([.dense r.1], r.2)
    else .ok ([], a)
  rest.map fun r => (if tr then r.1 ++ g.blk else g.blk ++ r.1, r.2)

/-- R327 to R329: X is read, all blocks are applied, X is written. -/
def State.oaApply (s : State) (o : BitVec 1) (set : BitVec 3) (tr left : Bool) (c : BitVec 8) (t : Tok) : State :=
  let c := c.toNat + 1
  let shape (g : OaReg) : Nat × Nat := if left then (g.n, c) else (c, g.n)
  s.oaWord o t true
    (fun x g => do
      let q ← x.oaSet set
      let runs := rowStarts q.pitch (shape g).1
      s.plainF32 q runs (shape g).2
      .ok (g.applyBanks, s.mMask q runs (shape g).2))
    fun s a => do
      let (rows, cols) := shape a.reg
      let q ← a.x.oaSet set
      let (xs, a) ← a.read s q (gridOffs q rows cols)
      let (bs, a) ← a.blocks s.mem (tr == left)
      let x := runsOf cols xs (rows * cols)
      let (y, run) := OaRun.each (fun r v => oaChain bs a.reg.n (tr == left) v r) a.run (if left then flip cols x else x)
      let y := if left then flip rows y else y
      { a with run := run }.write s q ((gridOffs q rows cols).zip y.flatten)

def execOaLeft (o : BitVec 1) (x : BitVec 3) (tr : Bool) (c : BitVec 8) (t : Tok) (s : State) : Host.Outcome State Fault Refusal :=
  .next (s.oaApply o x tr true c t)
def execOaRight (o : BitVec 1) (x : BitVec 3) (tr : Bool) (c : BitVec 8) (t : Tok) (s : State) : Host.Outcome State Fault Refusal :=
  .next (s.oaApply o x tr false c t)

/-- R331. -/
def execOaFold (o : BitVec 1) (t : Tok) (s : State) : Host.Outcome State Fault Refusal :=
  .next (s.oaWord o t true
    (fun _ g => .ok (0#32, if g.k = 0 then 0#32 else g.overflowBanks.2))
    fun s a => if a.reg.k = 0 then .ok a else a.outFold s.mem)

/-- The location of a raw image or record at a set's origin (R332, R333). -/
def MCtx.oaImage (x : MCtx) (set : BitVec 3) (n al : Nat) : Except EStop (Dword × Nat) :=
  x.oaSet set >>= fun q => (oaRaw x.k q.e.addr n al).map fun l => (q.e.addr, l)

/-- R332. -/
def execOaSpill (o : BitVec 1) (set : BitVec 3) (t : Tok) (s : State) : Host.Outcome State Fault Refusal :=
  .next (s.oaWord o t false
    (fun x _ => (x.oaImage set oaSize 64).map fun r => (0#32, byteBanks r.1 oaSize))
    fun _ a => (a.x.oaImage set oaSize 64).map fun r => a.put r.2 a.reg.bytes)

def execOaFill (o : BitVec 1) (set : BitVec 3) (t : Tok) (s : State) : Host.Outcome State Fault Refusal :=
  .next (s.oaWord o t false
    (fun x _ => (x.oaImage set oaSize 64).map fun r => (byteBanks r.1 oaSize, 0#32))
    fun s a => a.x.oaImage set oaSize 64 >>= fun r =>
      let b := Memory.readN s.mem r.2 oaSize
      if oaImageOk b then .ok { a with reg := oaOf b, bytes := a.bytes + oaSize } else .error (cOASTATE, none))

/-- The reflectors that Q holds (R333). -/
def OaReg.total (x : OaReg) : Nat := x.segk.toList.foldl (fun n b => n + b.toNat) x.k

/-- R333. -/
def execOaCnt (o : BitVec 1) (set : BitVec 3) (t : Tok) (s : State) : Host.Outcome State Fault Refusal :=
  .next (s.oaWord o t false
    (fun x _ => (x.oaImage set 16 4).map fun r => (0#32, byteBanks r.1 16))
    fun _ a => (a.x.oaImage set 16 4).map fun r =>
      a.put r.2 (wordBytes [a.reg.k, a.reg.nseg, a.reg.mode, a.reg.total]))

/-! ### Replay -/

/-- R335: an oa word starts again: it reads what it read, so only the count and the charge (R288) move; the fourth failure faults
MREPLAY, with the bytes it wrote as before the word too. -/
def State.replayOa (s : State) (k : Nat) (w : Outst) (cells : List (Nat × List Byte)) (products bytes : Nat) : State :=
  if 4 ≤ w.fails + 1 then
    { s with mem := cells.foldl (fun m (e : Nat × List Byte) => Memory.blit m e.1 e.2) s.mem }.replayFail k cMREPLAY
  else ((s.countReplay k).oaCharge k products bytes).putOutst k { w with fails := w.fails + 1 }

/-- R286, R335: an operand parity error or an exhausted die-network retry while a step or an oa word is in progress: of two, the older,
which the array or the tile port works on. -/
def execMatrixReplay (k : CoreIx) (s : State) : Host.Outcome State Fault Refusal :=
  match (s.core k.val).replayable with
  | none => .next s
  | some w =>
    match w.redo with
    | none => .next s
    | some (.step i nest c n bf) => .next (s.replayStep k.val w i nest c n bf)
    | some (.oa cells products bytes) => .next (s.replayOa k.val w cells products bytes)

end Sys2Proof.Machine
end

