-- ==== Sys2Proof/Machine/Trans.lean ====
section
/-! DEFINITION. The transcendental words' functions (R383, R384): the exact value in fixed point with 320 fraction bits, the FP32
values within the bound of it, and which of them the part returns (log 7). -/

namespace Sys2Proof.Machine

/-- Fraction bits of the fixed-point values. -/
def fixBits : Nat := 320
/-- 1 in fixed point. -/
def fixOne : Int := 2 ^ fixBits

/-- A finite value in fixed point, cut toward zero. -/
def Val.fix (v : Val) : Int :=
  match v with
  | .fin s m e _ => sgn s (if 0 ≤ e + fixBits then m * 2 ^ (e + fixBits).toNat else m / 2 ^ (-(e + fixBits)).toNat)
  | .nan => 0
  | .inf _ => 0

/-- Sum of z^(2k+1) / (2k+1) from a power on, with alternating signs if `alt`. -/
def oddSeries (z2 : Int) (alt : Bool) (p : Int) (k : Nat) : Nat → Int
  | 0 => 0
  | f + 1 => (if alt && k % 2 == 1 then -(p / (2 * k + 1)) else p / (2 * k + 1)) + oddSeries z2 alt (p * z2 / fixOne) (k + 1) f

/-- artanh z of a fixed-point z of at most 1/3. -/
def fixAtanh (z : Int) : Int := oddSeries (z * z / fixOne) false z 0 110
/-- arctan (1/n). -/
def fixAtan (n : Int) : Int := oddSeries (fixOne / (n * n)) true (fixOne / n) 0 80

/-- ln 2. -/
def fixLn2 : Int := 2 * fixAtanh (fixOne / 3)
/-- π / 2. -/
def fixHalfPi : Int := (16 * fixAtan 5 - 4 * fixAtan 239) / 2

/-- Sum of r^k / k! from a term on; with `step` 2 and alternating signs the sine and cosine series. -/
def expSeries (r t : Int) (k : Nat) : Nat → Int
  | 0 => 0
  | f + 1 => t + expSeries r (t * r / fixOne / (k + 1)) (k + 1) f
def trigSeries (r2 t : Int) (k : Nat) : Nat → Int
  | 0 => 0
  | f + 1 => t + trigSeries r2 (-(t * r2 / fixOne / ((k + 1) * (k + 2)))) (k + 2) f

/-- e^x of a fixed-point x. -/
def fixExp (x : Int) : Int :=
  let k := x / fixLn2
  let y := expSeries (x - k * fixLn2) fixOne 0 90
  if 0 ≤ k then y * 2 ^ k.toNat else y / 2 ^ (-k).toNat

/-- sin and cos of a fixed-point r from 0 to π/2. -/
def fixSin0 (r : Int) : Int := trigSeries (r * r / fixOne) r 1 60
def fixCos0 (r : Int) : Int := trigSeries (r * r / fixOne) fixOne 0 60

/-- sin of a fixed-point x ≥ 0, and cos. -/
def fixSin (x : Int) : Int :=
  let q := x / fixHalfPi
  let r := x - q * fixHalfPi
  match (q % 4).toNat with
  | 0 => fixSin0 r
  | 1 => fixCos0 r
  | 2 => -(fixSin0 r)
  | _ => -(fixCos0 r)
def fixCos (x : Int) : Int := fixSin (x + fixHalfPi)

/-- ln of m × 2^e, m above 0. -/
def fixLog (m : Nat) (e : Int) : Int :=
  let l := bitLen m - 1
  let y : Int := if l ≤ fixBits then m * 2 ^ (fixBits - l) else m / 2 ^ (l - fixBits)
  (e + l) * fixLn2 + 2 * fixAtanh ((y - fixOne) * fixOne / (y + fixOne))

/-- tanh of a fixed-point x ≥ 0. -/
def fixTanh (x : Int) : Int :=
  if 64 * fixOne ≤ x then fixOne - 1
  else let e := fixExp (2 * x); (e - fixOne) * fixOne / (e + fixOne)

/-- FP32's parameters (R72). -/
def fp32P : FP := ⟨8, 23, 127, true, 0x7F7FFFFF, some 0x7FC00000⟩

/-- A magnitude code of FP32 in fixed point; infinity stands at 2^128, the next step of the grid. -/
def fixCode (c : Nat) : Int := if 0x7F800000 ≤ c then 2 ^ (128 + fixBits) else (decodeFP fp32P c).fix

/-- Exponent of an ulp at a fixed-point magnitude (R383): that of the subnormals below 2^−126. -/
def ulpExp (a : Nat) : Int :=
  let top : Int := (bitLen a : Int) - 1 - fixBits
  (if top < -126 then -126 else top) - 23

/-- The FP32 patterns within `bound` ulp of a fixed-point value (R383). -/
def within (bound : Nat) (x : Int) : List Nat :=
  let a := x.natAbs
  let neg := decide (x < 0)
  if 2 ^ (128 + fixBits) ≤ a then [fp32P.sign neg 0x7F800000]
  else
    let c := (roundFP fp32P .rtz 0 (.fin false a (-(fixBits : Int)) false)).1
    let lim : Nat := bound * 2 ^ (ulpExp a + fixBits).toNat
    ((List.range 14).filterMap fun (i : Nat) =>
      let d : Int := (c : Int) - 6 + i
      if 0x7F800000 < d then none
      else
        let v := if d < 0 then -(fixCode d.natAbs) else fixCode d.toNat
        if (v - a).natAbs ≤ lim then some (fp32P.sign (if d < 0 then !neg else neg) d.natAbs) else none)

/-- A bounded result (R383): one of the patterns within the bound, NX, UF for an exact value below the smallest normal, OF with an
infinity. -/
def bounded (fn bound : Nat) (a : Val) (x : Int) : Nat × Byte :=
  let cs := within bound x
  let n := match a with
    | .fin s m e _ => Config.pick fn s m e
    | .nan => 0
    | .inf s => Config.pick fn s 0 0
  let r := cs.getD (n % cs.length) (rneF32 (.fin (decide (x < 0)) x.natAbs (-(fixBits : Int)) true)).1
  (r, fNX ||| (if (bitLen x.natAbs : Int) - 1 - fixBits < -126 then fUF else 0#8) ||| (if r % 2 ^ 31 = 0x7F800000 then fOF else 0#8))

/-- The functions of R383 with a bound, by opcode. -/
inductive BFn where
  | exp | exp2 | log | log2 | sin | cos | tanh
  deriving DecidableEq, Repr

/-- A function's number for the part's choice. -/
def BFn.ix (f : BFn) : Nat :=
  match f with
  | .exp => 0x50
  | .exp2 => 0x51
  | .log => 0x52
  | .log2 => 0x53
  | .sin => 0x54
  | .cos => 0x55
  | .tanh => 0x56

/-- 1.0. -/
def one32 : Nat := 0x3F800000

/-- m × 2^e with the significand odd, so that one operand has one form; fuel bounds the zeros. -/
def oddForm (m : Nat) (e : Int) : Nat → Nat × Int
  | 0 => (m, e)
  | f + 1 => if m % 2 = 0 then oddForm (m / 2) (e + 1) f else (m, e)

/-- e^x for an exact x (x = a, or a × ln 2): far out it overflows or is positive and below every FP32 value. It is never 0. -/
def expFix (a : Val) (x : Int) : Int :=
  if 9 ≤ a.exponent then (if a.sign then 1 else 2 ^ (129 + fixBits)) else max 1 (fixExp x)

/-- A finite non-zero operand of a bounded function, in odd form: pattern and flags (R383). -/
def BFn.fin (f : BFn) (s : Bool) (m : Nat) (e : Int) : Nat × Byte :=
  let a : Val := .fin s m e false
  match f with
  | .exp => bounded f.ix 1 a (expFix a a.fix)
  | .exp2 =>
    let i := sgn s (m * 2 ^ e.toNat)
    if 0 ≤ e && e < 16 && -149 ≤ i && i ≤ 127 then rneF32 (.fin false 1 i false)
    else bounded f.ix 1 a (expFix a (a.fix * fixLn2 / fixOne))
  | .log =>
    if s then (nan32, fIV) else if m = 1 && e = 0 then (0, 0#8) else bounded f.ix 1 a (fixLog m e)
  | .log2 =>
    if s then (nan32, fIV)
    else if m = 1 then rneF32 (.ofInt e)
    else bounded f.ix 1 a (fixLog m e * fixOne / fixLn2)
  | .sin =>
    if 24 ≤ a.exponent then (nan32, fRG)
    else
      -- a sine is smaller than its argument, however little
      let x := min (fixSin a.abs.fix) (a.abs.fix - 1)
      bounded f.ix 2 a (if s then -x else x)
  | .cos => if 24 ≤ a.exponent then (nan32, fRG) else bounded f.ix 2 a (fixCos a.abs.fix)
  | .tanh => let x := fixTanh a.abs.fix; bounded f.ix 2 a (if s then -x else x)

/-- A bounded function of any operand (R383): an FP32 pattern and flags. -/
def BFn.eval (f : BFn) (v : Val) : Nat × Byte :=
  match v with
  | .nan => (nan32, 0#8)
  | .inf s =>
    match f with
    | .exp => (if s then 0 else 0x7F800000, 0#8)
    | .exp2 => (if s then 0 else 0x7F800000, 0#8)
    | .log => if s then (nan32, fIV) else (0x7F800000, 0#8)
    | .log2 => if s then (nan32, fIV) else (0x7F800000, 0#8)
    | .sin => (nan32, fRG ||| fIV)
    | .cos => (nan32, fRG ||| fIV)
    | .tanh => (fp32P.sign s one32, 0#8)
  | .fin s m e _ =>
    if m = 0 then
      match f with
      | .exp => (one32, 0#8)
      | .exp2 => (one32, 0#8)
      | .log => (0xFF800000, fDZ)
      | .log2 => (0xFF800000, fDZ)
      | .sin => (fp32P.sign s 0, 0#8)
      | .cos => (one32, 0#8)
      | .tanh => (fp32P.sign s 0, 0#8)
    else
      let (m, e) := oddForm m e (bitLen m)
      f.fin s m e

/-- 1 ÷ √a (R383), to at least 128 bits with what is left below. -/
def Val.rsqrt (v : Val) : Val × Byte :=
  match v with
  | .nan => (.nan, 0#8)
  | .inf s => if s then (.nan, fIV) else (.fin false 0 0 false, 0#8)
  | .fin s m e _ =>
    if m = 0 then (.inf s, fDZ)
    else if s then (.nan, fIV)
    else
      let m := if e % 2 = 0 then m else 2 * m
      let e := if e % 2 = 0 then e else e - 1
      let k := (260 + bitLen m) / 2 + 1
      let r := isqrt (2 ^ (2 * k) / m)
      (.fin false r (-(k : Int) - e / 2) (r * r * m != 2 ^ (2 * k)), 0#8)

/-- 1 ÷ a (R383). -/
def Val.rcp (v : Val) : Val × Byte := Val.div (.ofInt 1) v

end Sys2Proof.Machine
end

