-- ==== Sys2Proof/Machine/Vector.lean ====
section
/-! DEFINITION. What the vector words share (R339 to R367): the shape register, positions and active lanes, ports with their walks,
run-ahead and locks, operand values, the write of a result, and the issue of a word with its precise faults; and the control
words (R368 to R373). -/

namespace Sys2Proof.Machine

/-- VSHAPE and VPORT (R358). -/
def cVSHAPE : Byte := 0x68#8
def cVPORT : Byte := 0x69#8

/-! ### Shape, positions, lanes -/

/-- The shape register's fields, rows and cols plus 1 (R341). -/
structure VShape where
  fmt : Fmt
  ms : Nat
  cstep : Bool
  rstep : Bool
  cc : Nat
  rc : Nat
  cols : Nat
  rows : Nat
  mode : RMode
  deriving DecidableEq, Repr

/-- The rounding mode of a legal code (R79). -/
def modeOf (b : BitVec 3) : RMode :=
  match b.toNat with
  | 0 => .rne
  | 1 => .rtz
  | 2 => .rdn
  | 3 => .rup
  | _ => .sr

/-- The shape register read (R341). -/
def shapeOf (w : Word) : VShape where
  fmt := w.extractLsb' 28 4
  ms := (w.extractLsb' 26 2).toNat
  cstep := w.getLsbD 25
  rstep := w.getLsbD 24
  cc := (w.extractLsb' 18 6).toNat
  rc := (w.extractLsb' 14 4).toNat
  cols := (w.extractLsb' 8 6).toNat + 1
  rows := (w.extractLsb' 4 4).toNat + 1
  mode := modeOf (w.extractLsb' 0 3)

/-- A value that the shape register may hold (R341). -/
def vShapeOk (w : Word) : Bool :=
  let x := shapeOf w
  (x.fmt == fFP32 || x.fmt == fINT32 || x.fmt == fRS24) && (w.extractLsb' 0 3).toNat ≤ 4 && x.rc < x.rows && x.cc < x.cols &&
    !w.getLsbD 3

/-- The shape of the acting core. -/
def State.shape (s : State) : VShape := shapeOf s.me.vx.shape

/-- The positions of a shape kind in row order (R346, R365). -/
def VShape.pos (x : VShape) (kind : BitVec 2) : List (Nat × Nat) :=
  match kind.toNat with
  | 1 => (upto x.cols).map fun c => (x.rc, c)
  | 2 => (upto x.rows).map fun r => (r, x.cc)
  | _ => (upto x.rows).flatMap fun r => (upto x.cols).map fun c => (r, c)

/-- The cursors after a word that names rows or columns (R342). -/
def stepCursors (w : Word) (row col : Bool) : Word :=
  let x := shapeOf w
  let w1 := if x.rstep && row then (w &&& 0xFFFC3FFF#32) ||| (BitVec.ofNat 32 ((x.rc + 1) % x.rows) <<< 14) else w
  if x.cstep && col then (w1 &&& 0xFF03FFFF#32) ||| (BitVec.ofNat 32 ((x.cc + 1) % x.cols) <<< 18) else w1

/-! ### Ports -/

/-- A va descriptor as the fields of a walk (R347). -/
def vaSet (r : BitVec 1024) : XSet where
  base := r.extractLsb' 0 64
  adv := 0#64
  str := (upto 6).map fun i => (r.extractLsb' (64 + 64 * i) 64).toInt
  cnt := (upto 6).map fun i => (r.extractLsb' (448 + 32 * i) 32).toNat
  valid := r.getLsbD 647
  zop := false
  fmt := fRAW
  clean := r.extractLsb' 640 7 == 0#7 && r.extractLsb' 648 376 == 0#376
  aux := 0#64

/-- The descriptor checks of binding (R347). -/
def vaOk (r : BitVec 1024) : Bool :=
  let x := vaSet r
  x.valid && x.clean && (x.cnt.all fun c => 1 ≤ c && c ≤ 16777216) && x.n ≤ 1048576 && (spaceOf x.base == 1 || spaceOf x.base == 2)

/-- A port element located: its place, location, whether it lies in the own scratchpad. -/
structure PElem where
  e : Elem
  loc : Nat
  own : Bool
  deriving DecidableEq, Repr

/-- A port's bank word at its set's base. -/
def VPort.word (p : VPort) (x : XSet) : BitVec 15 := bankWord p.bf (x.base.extractLsb' 0 21).toNat
/-- A port's element format. -/
def VPort.fmt (p : VPort) (x : XSet) : Fmt := (p.word x).extractLsb' 0 4

/-- The number of the die window in which an address word lies. -/
def windowOf (a : Dword) : Nat := (a.extractLsb' 0 48).toNat / 0x200000

/-- The sampled bank formats of the core in which an address word of a port's walk lies (R45, R46). -/
def VPort.bfAt (p : VPort) (a : Dword) : Vector (BitVec 15) 32 :=
  if spaceOf a = 2 then (mget? p.far (windowOf a)).getD p.bf else p.bf

/-- The location of a port element with its checks (R39 to R41, R47, R348), and one format for all banks of the operand (R45). -/
def State.portElem (s : State) (k : Nat) (p : VPort) (x : XSet) (i : Nat) : Except EStop PElem :=
  let nib := nibbles (p.fmt x)
  let n := nibBytes nib
  let e := elemAt x.base nib (walkPos x.cnt x.str i)
  let fit (off : Nat) (z : PElem) : Except EStop PElem :=
    if off % n != 0 then .error (cMISALIGN, some e.addr)
    else if (bankWord (p.bfAt e.addr) off &&& 0x7F0F#15) == (p.word x &&& 0x7F0F#15) && scaleOk (p.bfAt e.addr) (off / 65536) then .ok z
    else .error (cFORMAT, none)
  match placeOf e.addr n with
  | .error z => .error (z, some e.addr)
  | .ok (.own off) => fit off ⟨e, scratchLoc k + off, true⟩
  | .ok (.window w off) =>
    if s.windowOk k w then fit off ⟨e, scratchLoc (192 * coreDie k + w) + off, false⟩ else .error (cWINDOW, some e.addr)
  | .ok (.virt _) => .error (cADDR_SPACE, some e.addr)
  | .ok (.stage _ _) => .error (cADDR_SPACE, some e.addr)
  | .ok (.acc _) => .error (cADDR_SPACE, some e.addr)

/-- A port in use: its number, binding, set, and elements from `skip` past its position on. -/
structure PUse where
  port : Nat
  p : VPort
  x : XSet
  elems : List PElem
  /-- elements passed before these in the same word -/
  skip : Nat
  deriving DecidableEq, Repr

/-- The next n elements of a port's walk after `skip` (R348): VPORT for an unbound port or an exhausted walk. -/
def State.portUse (s : State) (k port skip n : Nat) : Except EStop PUse :=
  match vget (s.core k).vx.ports port none with
  | none => .error (cVPORT, none)
  | some p =>
    let x := vaSet (vget (s.core k).vx.sets p.set 0#1024)
    if x.n < p.pos + skip + n then .error (cVPORT, none)
    else (collect (s.portElem k p x) ((upto n).map fun i => p.pos + skip + i)).map fun es => ⟨port, p, x, es, skip⟩

/-- The own banks of elements, scale banks among them for a read (R59). -/
def PUse.banks (u : PUse) (scales : Bool) : BitVec 32 :=
  let b := u.elems.foldl (fun m e => if e.own then m ||| (1#32 <<< (scOff e.e / 65536)) else m) 0#32
  if scales then b ||| scaleBanks u.p.bf b else b

/-- The location of the scale byte of a port element, if its bank is scaled (R44). -/
def PUse.scaleLoc (u : PUse) (e : PElem) : Option Nat :=
  let w := bankWord (u.p.bfAt e.e.addr) (scOff e.e)
  if w.extractLsb' 13 2 == 0#2 then none
  else
    let i := (scOff e.e % 65536 * 2 + (if e.e.half then 1 else 0)) / nibbles (u.p.fmt u.x)
    some (e.loc - scOff e.e + (w.extractLsb' 8 5).toNat * 65536 + (w.extractLsb' 4 4).toNat * 4096 + i / 32)

/-- The scale byte of a port element, if its bank is scaled. -/
def PUse.scale (u : PUse) (m : Memory) (e : PElem) : Option Nat := (u.scaleLoc e).map fun l => Memory.readNat m l 1

/-- Bits and scale byte of each element, read now. -/
def PUse.read (u : PUse) (m : Memory) : List (Nat × Option Nat) :=
  let nib := nibbles (u.p.fmt u.x)
  u.elems.map fun e =>
    let v := Memory.readNat m e.loc (nibBytes nib)
    (if nib = 1 then v / (if e.e.half then 16 else 1) % 16 else v, u.scale m e)

/-- Bytes that a read receives from the die window (R359): those that its elements lie in, and their scale bytes. -/
def PUse.farBytes (u : PUse) : Nat :=
  let far := u.elems.filter fun e => !e.own
  let n := nibBytes (nibbles (u.p.fmt u.x))
  (far.flatMap fun e => (upto n).map fun i => e.loc + i).eraseDups.length + (far.filterMap u.scaleLoc).eraseDups.length

/-- Charge the elements an input port has fetched (R359). -/
def State.fetchCharge (s : State) (k : Nat) (u : PUse) : State :=
  (s.charge k 3 2 (u.p.fmt u.x).toNat u.elems.length).charge k 3 4 0xF u.farBytes

/-- The vector state of a core changed. -/
def State.modVx (s : State) (k : Nat) (f : Vec → Vec) : State := s.modCore k fun c => { c with vx := f c.vx }

/-! ### Operand values -/

/-- An operand element: its exact value, and its bits where a register gives them. -/
structure VElem where
  v : Val
  bits : Option Nat := none
  deriving DecidableEq, Repr

/-- Key of element (r, c) of vN. -/
def lane (n : Nat) (p : Nat × Nat) : Nat := 1024 * n + 64 * p.1 + p.2

/-- The register that an operand names. -/
def vopReg (o : VOp) : Option Nat :=
  match o with
  | .whole n => some n.toNat
  | .row n => some n.toNat
  | .col n => some n.toNat
  | .inp _ => none
  | .out _ => none
  | .zero => none
  | .ones => none

/-- Zero of a word's format (R344). -/
def vZero : Val := .fin false 0 0 false

/-- A register element read in a format (R365). -/
def Vec.elem (x : Vec) (f : Fmt) (n : Nat) (p : Nat × Nat) : VElem :=
  let b := mget x.regs (lane n p) 0
  ⟨decodeElem f b, some b⟩

/-- Flags and generator of a word in progress. -/
structure VRun where
  fl : Byte := 0#8
  gen : Dword
  deriving DecidableEq, Repr

/-- One rounding under a mode, with its draw under SR (R83, R84). -/
def VRun.round (r : VRun) (f : Fmt) (m : RMode) (v : Val) : Nat × VRun :=
  let g := if m == .sr then genStep r.gen else r.gen
  let (x, fl) := roundTo f m (if m == .sr then genDraw g else 0) v
  (x, ⟨r.fl ||| fl, g⟩)

/-- Flags set. -/
def VRun.set (r : VRun) (f : Byte) : VRun := { r with fl := r.fl ||| f }

/-! ### A word -/

/-- What a data word is, beside its effect: destination, sources in field order, kinds of the source and destination positions,
mask enable, whether the mask disables (R343), tokens, the shape formats it accepts (R366), the accepted ports of source a by shape
row (R349), the format in which register source a is read, its charge class. -/
structure VSpec where
  d : Option VOp
  srcs : List VOp
  skind : BitVec 2
  dkind : BitVec 2
  me : Bool
  t : Tok
  shapes : List Fmt := [fFP32, fINT32, fRS24]
  aRow : Option Fmt := none
  aFmt : Option Fmt := none
  cls : Nat := 0
  /-- the output port must be an RS24 bank (R380) -/
  rsOut : Bool := false
  /-- every position is written, whatever the mask (R379) -/
  all : Bool := false

/-- The input-port formats that a shape format accepts (R349). -/
def portRow (f : Fmt) : List Fmt :=
  if f == fRS24 then [fRS24]
  else if f == fINT32 then [fINT4, fINT8, fINT32, fINT64, fRS24]
  else [fFP32, fBF16, fFP16, fE4M3, fE5M2, fFP4, fINT8, fINT4, fINT32, fINT64, fRS24]

/-- A source as resolved: a register, a constant, or a port. -/
inductive VSrc where
  | reg (n : Nat) (f : Fmt)
  | const (one : Bool)
  | port (u : PUse)

/-- A word as resolved. -/
structure VIn where
  k : Nat
  sh : VShape
  x : Vec
  w : VSpec
  spos : List (Nat × Nat)
  dpos : List (Nat × Nat)
  srcs : List VSrc
  out : Option PUse

/-- Lane p is active for the word (R343). -/
def VIn.act (i : VIn) (p : Nat × Nat) : Bool :=
  p.1 < i.sh.rows && p.2 < i.sh.cols && (!i.w.me || (vget i.x.masks i.sh.ms 0#1024).getLsbD (64 * p.1 + p.2))

/-- Resolve the sources in field order: a port named twice gives its elements in order (R348). -/
def State.vSrcs (s : State) (w : VSpec) (sh : VShape) (n : Nat) (first : Bool) (used : List Nat) : List VOp → Except EStop (List VSrc)
  | [] => .ok []
  | o :: t =>
    let rf : Fmt := if first then w.aFmt.getD sh.fmt else sh.fmt
    let row : Fmt := if first then w.aRow.getD sh.fmt else sh.fmt
    let this : Except EStop VSrc :=
      match o with
      | .inp i =>
        match s.portUse s.cur.k.val i.toNat (n * used.count i.toNat) n with
        | .error z => .error z
        | .ok u => if (portRow row).contains (u.p.fmt u.x) then .ok (.port u) else .error (cFORMAT, none)
      | .zero => .ok (.const false)
      | .ones => .ok (.const true)
      | o => .ok (.reg ((vopReg o).getD 0) rf)
    let used' := match o with
      | .inp i => i.toNat :: used
      | _ => used
    match this with
    | .error z => .error z
    | .ok x => (State.vSrcs s w sh n false used' t).map fun xs => x :: xs

/-- A word's resolution with the checks at issue (R348, R349, R358, R366). -/
def State.vIn (s : State) (w : VSpec) : Except EStop VIn :=
  let sh := s.shape
  let spos := sh.pos w.skind
  let dpos := sh.pos w.dkind
  if !w.shapes.contains sh.fmt then .error (cFORMAT, none)
  else match s.vSrcs w sh spos.length true [] w.srcs with
    | .error z => .error z
    | .ok srcs =>
      match w.d with
      | some (.out i) =>
        match s.portUse s.cur.k.val (4 + i.toNat) 0 dpos.length with
        | .error z => .error z
        | .ok u => if w.rsOut && u.p.fmt u.x != fRS24 then .error (cFORMAT, none) else .ok ⟨s.cur.k.val, sh, s.me.vx, w, spos, dpos, srcs, some u⟩
      | _ => .ok ⟨s.cur.k.val, sh, s.me.vx, w, spos, dpos, srcs, none⟩

/-- The locks of a word's port operands (R59). -/
def VIn.locks (i : VIn) : Locks :=
  let rd := i.srcs.foldl (fun m x => match x with
    | .port u => m ||| u.banks true
    | .reg _ _ => m
    | .const _ => m) 0#32
  match i.out with
  | none => { rd := rd }
  | some u => { rd := (rd ||| u.banks true) &&& ~~~u.banks false, wr := u.banks false }

/-- An operand as read: bits and scales of a port's elements, from run-ahead where a whole operand of this size is held and the
word pops no token (R350), else now. -/
def VIn.fetched (i : VIn) (m : Memory) (u : PUse) : Except EStop (List (Nat × Option Nat)) × Bool :=
  match u.p.buf[u.skip / i.spos.length]? with
  | some f =>
    if i.w.t.pop == 0#2 && f.n == i.spos.length && u.p.buf.all (fun b => b.n == i.spos.length) then
      (match f.err with
        | some z => .error z
        | none => .ok f.elems, true)
    else (.ok (u.read m), false)
  | none => (.ok (u.read m), false)

/-- The values of a source by position (R365); FORMAT for a scaled INT8 element under the NaN scale (R74). -/
def VIn.vals (i : VIn) (m : Memory) (x : VSrc) : Except EStop (List VElem) :=
  match x with
  | .reg n f => .ok (i.spos.map (i.x.elem f n))
  | .const one => .ok (i.spos.map fun _ => ⟨.ofInt (if one then 1 else 0), none⟩)
  | .port u =>
    match (i.fetched m u).1 with
    | .error z => .error z
    | .ok es =>
      collect (fun (b : Nat × Option Nat) =>
        match scaledVal (u.p.fmt u.x) b.1 b.2 with
        | some v => .ok ⟨v, none⟩
        | none => .error (cFORMAT, none)) es

/-- A word in progress: registers, masks, what it writes through the output port, flags and generator, active lanes, elements
written. -/
structure VAcc where
  regs : Map Nat
  masks : Vector (BitVec 1024) 4
  mem : Memory
  r : VRun
  n : Nat := 0
  outs : Nat := 0
  /-- scale bytes received from the die window for the output port (R359) -/
  far : List Nat := []

/-- The write of a pattern to a register element. -/
def VAcc.putReg (a : VAcc) (n : Nat) (p : Nat × Nat) (v : Nat) : VAcc := { a with regs := mset0 a.regs (lane n p) v }

/-- The write of a value through the output port at element j (R349, R365): one rounding into the bank's format under its scale. -/
def VAcc.putPort (a : VAcc) (i : VIn) (u : PUse) (j : Nat) (y : Val) : Except EStop VAcc :=
  match u.elems[j]? with
  | none => .ok a
  | some e =>
    match u.scale a.mem e with
    | some 255 => .error (cFORMAT, none)
    | q =>
      let (v, r) := a.r.round (u.p.fmt u.x) i.sh.mode (y.scale (127 - ((q.getD 127 : Nat) : Int)))
      .ok { a with
        mem := Memory.writeMask a.mem e.loc (elemBytes e.e (nibbles (u.p.fmt u.x)) v), r := r, outs := a.outs + 1
        far := if e.own then a.far else (u.scaleLoc e).toList ++ a.far }

/-- An integer format keeps no sign of zero (R82). -/
def VIn.norm (i : VIn) (y : Val) : Val := if i.sh.fmt != fFP32 && y.isZero then vZero else y

/-- A value is an integer, so that it enters an integer format without rounding. -/
def Val.isInt (v : Val) : Bool :=
  match v with
  | .fin _ m e k => !k && (0 ≤ e || m % 2 ^ (-e).toNat == 0)
  | .nan => false
  | .inf _ => false

/-- out(p, y) of R365 at position number j. An integer that enters an INT32 or RS24 register takes no draw; a fraction, which only
a scaled INT8 port gives, is rounded under the shape's mode. -/
def VAcc.out (a : VAcc) (i : VIn) (j : Nat) (p : Nat × Nat) (y : Val) : Except EStop VAcc :=
  let y := i.norm y
  match i.out with
  | some u => a.putPort i u j y
  | none =>
    let m : RMode := if i.sh.fmt != fFP32 && y.isInt then .rne else i.sh.mode
    let (v, r) := a.r.round i.sh.fmt m y
    .ok ({ a with r := r }.putReg ((i.w.d.bind vopReg).getD 0) p v)

/-- The write of a pattern of the shape's format: itself to a register, rounded once to an output port (R376, R383). -/
def VAcc.outBits (a : VAcc) (i : VIn) (j : Nat) (p : Nat × Nat) (v : Nat) : Except EStop VAcc :=
  match i.out with
  | some u => a.putPort i u j (i.norm (decodeElem i.sh.fmt v))
  | none => .ok (a.putReg ((i.w.d.bind vopReg).getD 0) p v)

/-- A failure of V (R358): its earlier words complete first, then the job faults. -/
def State.vFail (s : State) (z : EStop) : State :=
  if s.me.v.outst.any fun o => !o.done then s
  else match z.2 with
    | some i => s.engFault z.1 i
    | none => s.engFaultFree z.1

/-- A port's position and run-ahead after a word took n elements in m operands (R348, R350). -/
def VPort.advance (p : VPort) (n m : Nat) (used : Bool) : VPort :=
  { p with pos := p.pos + n, buf := if used then p.buf.drop m else [] }

/-- The ports after a word: each named one advances (R348); a pop drops all run-ahead (R350). -/
def VIn.ports (i : VIn) (m : Memory) : Vector (Option VPort) 6 :=
  let uses := i.srcs.filterMap fun x => match x with
    | .port u => some u
    | .reg _ _ => none
    | .const _ => none
  let ps := if i.w.t.pop == 0#2 then i.x.ports else i.x.dropAhead.ports
  let ps := uses.foldl (fun ps u =>
    vset ps u.port ((vget ps u.port none).map fun p => p.advance u.elems.length 1 (i.fetched m u).2)) ps
  match i.out with
  | none => ps
  | some u => vset ps u.port ((vget ps u.port none).map fun p => p.advance u.elems.length 1 true)

/-- The charges of a word's fetches made at issue; those of run-ahead were made when it was fetched (R359). -/
def State.fetchCharges (s : State) (i : VIn) (m : Memory) : State :=
  i.srcs.foldl (fun s x => match x with
    | .port u => if (i.fetched m u).2 then s else s.fetchCharge i.k u
    | .reg _ _ => s
    | .const _ => s) s

/-- The operand fields of a word name a row, or a column (R342). -/
def VSpec.names (w : VSpec) (kind : BitVec 2) : Bool := (w.srcs ++ w.d.toList).any fun o => o.regKind == some kind

/-- The output port that a word pushes into has room: it holds fewer than two operands that are not written yet (R351). -/
def Core.portRoom (c : Core) (out : Option PUse) : Bool :=
  match out with
  | none => true
  | some u => (c.v.outst.filter fun o => !o.done && o.port == some u.port).length < 2

/-- A data word of V (R353, R358, R366): resolved and checked; it waits for its tokens, its locks and room in its output port (R351); its
effect on whole operands; ports, cursors, charges. Its flags are set and its token shown at completion (R357). The model lets the effect
happen at issue, under locks that last until completion, and keeps what was before it (log 9). -/
def State.dataV (s : State) (w : VSpec) (run : VIn → List (List VElem) → VAcc → Except EStop VAcc) : State :=
  let k := s.cur.k.val
  let c := s.me
  match s.vIn w with
  | .error z => s.vFail z
  | .ok i =>
    if !c.tokensOk .v w.t || !c.grantable i.locks || !c.portRoom i.out then s
    else
      match collect (i.vals s.mem) i.srcs >>= fun vs => run i vs ⟨c.vx.regs, c.vx.masks, s.mem, { gen := s.gen k .v }, 0, 0, []⟩ with
      | .error z => s.vFail z
      | .ok a =>
        let l := i.locks
        let next := stepCursors c.vx.shape (w.names 1#2) (w.names 2#2)
        let u : Undo := { vec := some (c.vx.regs, c.vx.masks), shape := some (c.vx.shape, next), gen := some (s.gen k .v) }
        let o : Outst :=
          { id := 0, push := pushFifo .v w.t.push, rd := l.rd, wr := l.wr, port := i.out.map fun u => u.port, fl := a.r.fl, undo := u }
        let t := (({ s with mem := a.mem }.setGen k .v a.r.gen).modVx k fun x =>
          { x with regs := a.regs, masks := a.masks, shape := next, ports := i.ports s.mem }).modCore k
            fun c => ((c.takeTokens .v w.t).begin_ .v o).stepEng .v
        let t := (t.charge k 3 w.cls i.sh.fmt.toNat a.n).fetchCharges i s.mem
        match i.out with
        | none => t
        | some u => (t.charge k 3 3 (u.p.fmt u.x).toNat a.outs).charge k 3 4 0xF a.far.eraseDups.length

/-- Run over the destination positions in order: active lanes only, or all where the mask chooses (R343, R379). -/
def VIn.each (i : VIn) (f : Nat → Nat × Nat → VAcc → Except EStop VAcc) (a : VAcc) : Except EStop VAcc :=
  i.dpos.zipIdx.foldlM (fun (a : VAcc) (p : (Nat × Nat) × Nat) => if i.w.all || i.act p.1 then f p.2 p.1 { a with n := a.n + 1 } else .ok a) a

/-! ### Control words -/

/-- R368. -/
def execVtok (t : Tok) (s : State) : Host.Outcome State Fault Refusal :=
  let u := s.tokenWord t
  .next (if t.pop == 0#2 || !s.me.tokensOk .v t then u else u.modVx s.cur.k.val Vec.dropAhead)

/-- A new shape, or VSHAPE (R341, R369). -/
def State.vshp (s : State) (t : Tok) (w : Word) : State :=
  if !vShapeOk w then s.vFail (cVSHAPE, none)
  else if !s.me.tokensOk .v t then s
  else
    let u := (s.tokenWord t).modVx s.cur.k.val fun x => { x with shape := w }
    if t.pop == 0#2 then u else u.modVx s.cur.k.val Vec.dropAhead

/-- R369. -/
def execVshpDim (r : BitVec 4) (c : BitVec 6) (t : Tok) (s : State) : Host.Outcome State Fault Refusal :=
  .next (s.vshp t ((s.me.vx.shape &&& 0xFF00000F#32) ||| (c.setWidth 32 <<< 8) ||| (r.setWidth 32 <<< 4)))
def execVshpCur (r : BitVec 4) (c : BitVec 6) (rs cs : Bool) (t : Tok) (s : State) : Host.Outcome State Fault Refusal :=
  .next (s.vshp t ((s.me.vx.shape &&& 0xFC003FFF#32) ||| ((BitVec.ofBool cs).setWidth 32 <<< 25) ||| ((BitVec.ofBool rs).setWidth 32 <<< 24)
    ||| (c.setWidth 32 <<< 18) ||| (r.setWidth 32 <<< 14)))
def execVshpFmt (f : BitVec 4) (m : BitVec 3) (g : BitVec 2) (t : Tok) (s : State) : Host.Outcome State Fault Refusal :=
  .next (s.vshp t ((s.me.vx.shape &&& 0x03FFFFF8#32) ||| (f.setWidth 32 <<< 28) ||| (g.setWidth 32 <<< 26) ||| m.setWidth 32))

/-- A descriptor as one number (R347). -/
def State.descriptor (s : State) (loc : Nat) : BitVec 1024 := BitVec.ofNat 1024 (Memory.readNat s.mem loc 128)

/-- The core in whose scratchpad a set's base lies, with the checks of its place (R347). -/
def State.vaCore (s : State) (k : Nat) (x : XSet) : Except EStop Nat :=
  match placeOf x.base 1 with
  | .error z => .error (z, some x.base)
  | .ok (.own _) => .ok k
  | .ok (.window w _) => if s.windowOk k w then .ok (192 * coreDie k + w) else .error (cWINDOW, some x.base)
  | .ok _ => .error (cVPORT, none)

/-- The bank formats of the die windows that a port's walk may enter beside that of its base (R45, R46): those from its lowest element's to its
highest's. -/
def State.farFormats (s : State) (k : Nat) (x : XSet) (nib : Nat) : Map (Vector (BitVec 15) 32) :=
  if spaceOf x.base != 2 then []
  else
    let ends := (x.cnt.zip x.str).map fun p => ((p.1 : Int) - 1) * p.2
    let win (p : Int) : Nat := windowOf (elemAt x.base nib p).addr
    let lo := win ((ends.map (min 0)).foldl (· + ·) 0)
    let hi := win ((ends.map (max 0)).foldl (· + ·) 0)
    ((upto 192).filter fun w => lo ≤ w && w ≤ hi && w != windowOf x.base).map fun w => (w, (s.core (192 * coreDie k + w)).sys.bfmt)

/-- R347, R370: the descriptor read and checked, every other port of the set unbound, the port bound at element 0 with the bank
formats of now. It waits while an output port it touches has elements to write (R363). -/
def execVbind (port set : BitVec 3) (off : BitVec 13) (t : Tok) (s : State) : Host.Outcome State Fault Refusal :=
  let k := s.cur.k.val
  let c := s.me
  let o := 64 * off.toNat
  let l : Locks := { rd := (1#32 <<< (o / 65536)) ||| (1#32 <<< ((o + 127) / 65536)) }
  let ofSet (p : Nat) := (vget c.vx.ports p none).any fun x => x.set == set.toNat
  let busy := c.v.outst.any fun w => !w.done && w.port.any fun p => p == port.toNat || ofSet p
  if busy || !c.tokensOk .v t || !c.grantable l then .next s
  else
    let r := s.descriptor (scratchLoc k + o)
    let x := vaSet r
    if !vaOk r then .next (s.vFail (cVPORT, none))
    else match s.vaCore k x with
      | .error z => .next (s.vFail z)
      | .ok h =>
        let bf := (s.core h).sys.bfmt
        let f := (bankWord bf (x.base.extractLsb' 0 21).toNat).extractLsb' 0 4
        if fmtReserved f || f == fRAW || f == fE8M0 then .next (s.vFail (cFORMAT, none))
        else
          .next ((s.modVx k fun y =>
            let y := if t.pop == 0#2 then y else y.dropAhead
            let ps := y.ports.map fun p => p.bind fun q => if q.set = set.toNat then none else some q
            { y with sets := vset y.sets set.toNat r, ports := vset ps port.toNat (some { set := set.toNat, pos := 0, bf := bf, far := s.farFormats k x (nibbles f) }) }).modCore k
              fun c => (((c.takeTokens .v t).begin_ .v { id := 0, push := pushFifo .v t.push, done := true }).drain .v).stepEng .v)

/-- R372. A granted pop drops the run-ahead (R350). -/
def execVrdv (i : BitVec 2) (m : BitVec 8) (t : Tok) (s : State) : Host.Outcome State Fault Refusal :=
  let s' := if t.pop == 0#2 || !s.me.tokensOk .v t then s else s.modVx s.cur.k.val Vec.dropAhead
  .next (s'.rdvWord i m t)

/-- R373. A granted pop drops the run-ahead (R350). -/
def execVnfy (t : Tok) (s : State) : Host.Outcome State Fault Refusal :=
  let s' := if t.pop == 0#2 || !s.me.tokensOk .v t then s else s.modVx s.cur.k.val Vec.dropAhead
  .next (s'.notifyWord t)

/-! ### Run-ahead -/

/-- The sources of a vector data word in field order, with the kind of their positions; none for the words that pop no port. -/
def vSources (i : Instr) : Option (List VOp × BitVec 2) :=
  let three (x : V3) := some ([x.a, x.b], wordKind x.d x.a x.b)
  let two (x : V2) := some ([x.a], wordKind x.d x.a .zero)
  let cmp (x : VC) := some ([x.a, x.b], wordKind .zero x.a x.b)
  let axis (x : VK) := some ([x.a], wordKind x.d x.a .zero)
  let red (x : V2) := some ([x.a], 0#2)
  match i with
  | .vadd x => three x
  | .vsub x => three x
  | .vmul x => three x
  | .vfma x => three x
  | .vmin x => three x
  | .vmax x => three x
  | .vdiv x => three x
  | .vand x => three x
  | .vor x => three x
  | .vxor x => three x
  | .vshl x => three x
  | .vshr x => three x
  | .vsra x => three x
  | .vqnt x => three x
  | .vqntr x => three x
  | .vdqnt x => three x
  | .vsel d a b _ => some ([a, b], wordKind d a b)
  | .vabs x => two x
  | .vneg x => two x
  | .vmov x => two x
  | .vsqrt x => two x
  | .vcvtf x => two x
  | .vcvti x => two x
  | .vexp x => two x
  | .vexp2 x => two x
  | .vlog x => two x
  | .vlog2 x => two x
  | .vsin x => two x
  | .vcos x => two x
  | .vtanh x => two x
  | .vrsqrt x => two x
  | .vrcp x => two x
  | .vrsenc x => two x
  | .vrsdec x => two x
  | .vceq x => cmp x
  | .vcne x => cmp x
  | .vclt x => cmp x
  | .vcle x => cmp x
  | .vcgt x => cmp x
  | .vcge x => cmp x
  | .vrotr x => axis x
  | .vrotc x => axis x
  | .vbcr x => axis x
  | .vbcc x => axis x
  | .vsumr x => red x
  | .vsumc x => red x
  | .vmaxr x => red x
  | .vmaxc x => red x
  | .vminr x => red x
  | .vminc x => red x
  | .vsamp x => some ([x.a], (x.a.regKind).getD 0#2)
  | _ => none

/-- The operand size for which a port runs ahead: that of the first word from V's program counter on that names the port, under the
shape of now (a choice of the part). -/
def Core.aheadSize (c : Core) (port : Nat) : Option Nat :=
  ((vget c.code 6 []).drop c.v.pc.toNat).findSome? fun w =>
    match decodeVector w with
    | .error _ => none
    | .ok i =>
      match vSources i with
      | some (os, kind) => if os.any fun o => o == .inp (BitVec.ofNat 2 port) then some ((shapeOf c.vx.shape).pos kind).length else none
      | none => none

/-- R350: a bound input port with fewer than two operands held fetches the next one of its walk; a fetch error stays with the
operand (R348). Nothing while its banks are locked. -/
def execPortFetch (k : CoreIx) (port : BitVec 3) (s : State) : Host.Outcome State Fault Refusal :=
  let c := s.core k.val
  let p := port.toNat
  match vget c.vx.ports p none, c.aheadSize p with
  | some q, some n =>
    if 4 ≤ p || !c.live || 2 ≤ q.buf.length then .next s
    else
      let put (f : VFetch) (s : State) := s.modVx k.val fun x =>
        { x with ports := vset x.ports p ((vget x.ports p none).map fun y => { y with buf := y.buf ++ [f] }) }
      match s.portUse k.val p (q.buf.foldl (fun a b => a + b.n) 0) n with
      | .error (cause, info) => if cause == cVPORT then .next s else .next (put ⟨n, [], some (cause, info)⟩ s)
      | .ok u =>
        if c.grantable { rd := u.banks true } then .next ((put ⟨n, u.read s.mem, none⟩ s).fetchCharge k.val u) else .next s
  | _, _ => .next s

end Sys2Proof.Machine
end

