-- ==== Sys2Proof/Machine/VWords.lean ====
section
/-! DEFINITION. The vector data words (R371, R374 to R387): elementwise arithmetic, bits and shifts, compares, masks and select,
conversions and quantisation, transcendentals, rotations, broadcasts, reductions, and the sampling word. -/

namespace Sys2Proof.Machine

/-- Element j of source n of a word. -/
def srcAt (vs : List (List VElem)) (n j : Nat) : VElem := (vs.getD n []).getD j ⟨vZero, none⟩

/-- The destination's own element (R365). -/
def VIn.own (i : VIn) (a : VAcc) (p : Nat × Nat) : Val := decodeElem i.sh.fmt (mget a.regs (lane ((i.w.d.bind vopReg).getD 0) p) 0)

/-- A word with two sources as a specification. -/
def spec3 (x : V3) : VSpec :=
  let k := wordKind x.d x.a x.b
  { d := some x.d, srcs := [x.a, x.b], skind := k, dkind := k, me := x.me, t := x.tok }
/-- A word with one source. -/
def spec2 (x : V2) : VSpec :=
  let k := wordKind x.d x.a .zero
  { d := some x.d, srcs := [x.a], skind := k, dkind := k, me := x.me, t := x.tok }

/-- FP32 and INT32 only; FP32 only; INT32 only. -/
def onlyFI : List Fmt := [fFP32, fINT32]
def onlyF : List Fmt := [fFP32]
def onlyI : List Fmt := [fINT32]

/-- An elementwise word of two sources whose result is exact (R374, R375, R381). -/
def State.vEw2 (s : State) (w : VSpec) (f : RMode → Val → Val → Val × Byte) : State :=
  s.dataV w fun i vs a => i.each (fun j p a =>
    let (y, fl) := f i.sh.mode (srcAt vs 0 j).v (srcAt vs 1 j).v
    { a with r := a.r.set fl }.out i j p y) a

/-- An elementwise word of one source whose result is exact. -/
def State.vEw1 (s : State) (w : VSpec) (f : Val → Val × Byte) : State :=
  s.dataV w fun i vs a => i.each (fun j p a =>
    let (y, fl) := f (srcAt vs 0 j).v
    { a with r := a.r.set fl }.out i j p y) a

/-- R374. -/
def execVadd (x : V3) (s : State) : Host.Outcome State Fault Refusal :=
  .next (s.vEw2 (spec3 x) fun m a b => Val.add (m == .rdn) a b)
def execVsub (x : V3) (s : State) : Host.Outcome State Fault Refusal :=
  .next (s.vEw2 (spec3 x) fun m a b => Val.add (m == .rdn) a b.neg)
def execVmul (x : V3) (s : State) : Host.Outcome State Fault Refusal :=
  .next (s.vEw2 (spec3 x) fun _ a b => Val.mul a b)
/-- A product 0 × ∞ sets IV also when the addend is a NaN: the spec does not say which of the two decides (R73; DESIGN CHOICE, log 93). -/
def execVfma (x : V3) (s : State) : Host.Outcome State Fault Refusal :=
  .next (s.dataV (spec3 x) fun i vs a => i.each (fun j p a =>
    let (m, f) := Val.mul (srcAt vs 0 j).v (srcAt vs 1 j).v
    let (y, g) := Val.add (i.sh.mode == .rdn) m (i.own a p)
    { a with r := a.r.set (f ||| g) }.out i j p y) a)
def execVmin (x : V3) (s : State) : Host.Outcome State Fault Refusal :=
  .next (s.vEw2 { spec3 x with shapes := onlyFI } fun _ a b => (a.minOf b, 0#8))
def execVmax (x : V3) (s : State) : Host.Outcome State Fault Refusal :=
  .next (s.vEw2 { spec3 x with shapes := onlyFI } fun _ a b => (a.maxOf b, 0#8))
def execVabs (x : V2) (s : State) : Host.Outcome State Fault Refusal :=
  .next (s.vEw1 { spec2 x with shapes := onlyFI } fun a => (a.abs, 0#8))
def execVneg (x : V2) (s : State) : Host.Outcome State Fault Refusal :=
  .next (s.vEw1 (spec2 x) fun a => (a.neg, 0#8))

/-- A register source into a register keeps its bits; anything else is written by out (R374, R379). -/
def VAcc.move (a : VAcc) (i : VIn) (j : Nat) (p : Nat × Nat) (e : VElem) : Except EStop VAcc :=
  match e.bits, i.out with
  | some b, none => a.outBits i j p b
  | _, _ => a.out i j p e.v

def execVmov (x : V2) (s : State) : Host.Outcome State Fault Refusal :=
  .next (s.dataV (spec2 x) fun i vs a => i.each (fun j p a => a.move i j p (srcAt vs 0 j)) a)

/-- R375. -/
def execVdiv (x : V3) (s : State) : Host.Outcome State Fault Refusal :=
  .next (s.vEw2 { spec3 x with shapes := onlyF, cls := 1 } fun _ a b => Val.div a b)
def execVsqrt (x : V2) (s : State) : Host.Outcome State Fault Refusal :=
  .next (s.vEw1 { spec2 x with shapes := onlyF, cls := 1 } fun a => a.sqrt)

/-! ### Bits and shifts -/

/-- The 32-bit pattern of an operand (R376): a register's bits, else its value rounded into the shape's format. -/
def VRun.pattern (r : VRun) (sh : VShape) (e : VElem) : Nat × VRun :=
  match e.bits with
  | some b => (b, r)
  | none => r.round sh.fmt sh.mode e.v

/-- A pattern as written: an FP32 NaN becomes the canonical one (R376). -/
def canonBits (f : Fmt) (v : Nat) : Nat := if f == fFP32 && (f32 v).isNan then nan32 else v

/-- R376. -/
def State.vBits (s : State) (w : VSpec) (f : Word → Word → Word) : State :=
  s.dataV w fun i vs a => i.each (fun j p a =>
    let (x, r) := a.r.pattern i.sh (srcAt vs 0 j)
    let (y, r) := r.pattern i.sh (srcAt vs 1 j)
    { a with r := r }.outBits i j p (canonBits i.sh.fmt (f (BitVec.ofNat 32 x) (BitVec.ofNat 32 y)).toNat)) a

/-- b[4:0]. -/
def count5 (b : Word) : Nat := b.toNat % 32

def execVand (x : V3) (s : State) : Host.Outcome State Fault Refusal :=
  .next (s.vBits { spec3 x with shapes := onlyFI } fun a b => a &&& b)
def execVor (x : V3) (s : State) : Host.Outcome State Fault Refusal :=
  .next (s.vBits { spec3 x with shapes := onlyFI } fun a b => a ||| b)
def execVxor (x : V3) (s : State) : Host.Outcome State Fault Refusal :=
  .next (s.vBits { spec3 x with shapes := onlyFI } fun a b => a ^^^ b)
def execVshl (x : V3) (s : State) : Host.Outcome State Fault Refusal :=
  .next (s.vBits { spec3 x with shapes := onlyI } fun a b => a <<< count5 b)
def execVshr (x : V3) (s : State) : Host.Outcome State Fault Refusal :=
  .next (s.vBits { spec3 x with shapes := onlyI } fun a b => a >>> count5 b)
def execVsra (x : V3) (s : State) : Host.Outcome State Fault Refusal :=
  .next (s.vBits { spec3 x with shapes := onlyI } fun a b => a.sshiftRight (count5 b))

/-! ### Compares, masks, select -/

/-- A mask with bit p set or cleared. -/
def putBit (m : BitVec 1024) (p : Nat × Nat) (v : Bool) : BitVec 1024 :=
  let b := 1#1024 <<< (64 * p.1 + p.2)
  if v then m ||| b else m &&& ~~~b

/-- A mask register of a word in progress, with bit p replaced. -/
def VAcc.putMask (a : VAcc) (k : BitVec 2) (p : Nat × Nat) (v : Bool) : VAcc :=
  { a with masks := vset a.masks k.toNat (putBit (vget a.masks k.toNat 0#1024) p v) }

/-- Equality of values: real numbers, or residue classes modulo M (R377). -/
def vEq (f : Fmt) (a b : Val) : Bool :=
  if f == fRS24 then rsEncode (sgnVal a) == rsEncode (sgnVal b) else a.eqv b
where
  /-- An integer value as an integer. -/
  sgnVal (v : Val) : Int :=
    match v with
    | .fin s m e _ => sgn s (m * 2 ^ e.toNat)
    | .nan => 0
    | .inf _ => 0

/-- R377. -/
def State.vCmp (s : State) (x : VC) (shapes : List Fmt) (f : Fmt → Val → Val → Bool) : State :=
  let kind := wordKind .zero x.a x.b
  s.dataV { d := none, srcs := [x.a, x.b], skind := kind, dkind := kind, me := x.me, t := x.tok, shapes := shapes } fun i vs a =>
    i.each (fun j p a => .ok (a.putMask x.k p (f i.sh.fmt (srcAt vs 0 j).v (srcAt vs 1 j).v))) a

def allFmts : List Fmt := [fFP32, fINT32, fRS24]

def execVceq (x : VC) (s : State) : Host.Outcome State Fault Refusal := .next (s.vCmp x allFmts vEq)
def execVcne (x : VC) (s : State) : Host.Outcome State Fault Refusal := .next (s.vCmp x allFmts fun f a b => !vEq f a b)
def execVclt (x : VC) (s : State) : Host.Outcome State Fault Refusal := .next (s.vCmp x onlyFI fun _ a b => a.lt b)
def execVcle (x : VC) (s : State) : Host.Outcome State Fault Refusal := .next (s.vCmp x onlyFI fun _ a b => a.lt b || a.eqv b)
def execVcgt (x : VC) (s : State) : Host.Outcome State Fault Refusal := .next (s.vCmp x onlyFI fun _ a b => b.lt a)
def execVcge (x : VC) (s : State) : Host.Outcome State Fault Refusal := .next (s.vCmp x onlyFI fun _ a b => b.lt a || a.eqv b)

/-- R378: on the active positions of the whole tile. -/
def State.vMask (s : State) (k : BitVec 2) (me : Bool) (t : Tok) (f : (BitVec 2 → Bool) → Bool) : State :=
  s.dataV { d := none, srcs := [], skind := 0#2, dkind := 0#2, me := me, t := t } fun i _ a =>
    i.each (fun _ p a => .ok (a.putMask k p (f fun n => (vget i.x.masks n.toNat 0#1024).getLsbD (64 * p.1 + p.2)))) a

def execVmand (x : VM) (s : State) : Host.Outcome State Fault Refusal := .next (s.vMask x.k x.me x.tok fun m => m x.x && m x.y)
def execVmor (x : VM) (s : State) : Host.Outcome State Fault Refusal := .next (s.vMask x.k x.me x.tok fun m => m x.x || m x.y)
def execVmxor (x : VM) (s : State) : Host.Outcome State Fault Refusal := .next (s.vMask x.k x.me x.tok fun m => m x.x ^^ m x.y)
def execVmnot (k x : BitVec 2) (me : Bool) (t : Tok) (s : State) : Host.Outcome State Fault Refusal :=
  .next (s.vMask k me t fun m => !m x)

/-- R379: the active mask chooses; every position of the shape is written. -/
def execVsel (d x y : VOp) (t : Tok) (s : State) : Host.Outcome State Fault Refusal :=
  .next (s.dataV { (spec3 ⟨d, x, y, false, t⟩) with all := true } fun i vs a => i.each (fun j p a =>
    let m := (vget i.x.masks i.sh.ms 0#1024).getLsbD (64 * p.1 + p.2)
    a.move i j p (srcAt vs (if m then 0 else 1) j)) a)

/-! ### Conversions and quantisation -/

/-- R380. -/
def execVcvtf (x : V2) (s : State) : Host.Outcome State Fault Refusal :=
  .next (s.vEw1 { spec2 x with shapes := onlyF, aRow := some fINT32, aFmt := some fINT32 } fun a => (a, 0#8))

/-- `vcvti`'s rounding to an integer (R380, R87, R88): one draw under SR; an infinity saturates in the word's own format. -/
def VRun.toInt (r : VRun) (m : RMode) (v : Val) : Val × VRun :=
  let g := if m == .sr then genStep r.gen else r.gen
  match v with
  | .nan => (.ofInt 0, ⟨r.fl ||| fIV, g⟩)
  | .inf s => (.ofInt (if s then -0x80000000 else 0x7FFFFFFF), ⟨r.fl ||| fSAT ||| fNX, g⟩)
  | .fin s a e k =>
    let (i, f) := roundInt m (if m == .sr then genDraw g else 0) s a e k
    (.ofInt i, ⟨r.fl ||| f, g⟩)

def execVcvti (x : V2) (s : State) : Host.Outcome State Fault Refusal :=
  .next (s.dataV { spec2 x with shapes := onlyI, aRow := some fFP32, aFmt := some fFP32 } fun i vs a => i.each (fun j p a =>
    let (y, r) := a.r.toInt i.sh.mode (srcAt vs 0 j).v
    { a with r := r }.out i j p y) a)
def execVrsenc (x : V2) (s : State) : Host.Outcome State Fault Refusal :=
  .next (s.vEw1 { spec2 x with shapes := [fRS24], aRow := some fINT32, aFmt := some fINT32, rsOut := true } fun a => (a, 0#8))
def execVrsdec (x : V2) (s : State) : Host.Outcome State Fault Refusal :=
  .next (s.vEw1 { spec2 x with shapes := onlyI, aRow := some fRS24, aFmt := some fRS24 } fun a => (a, 0#8))

/-- R381: the exact quotient; the product with the reciprocal rounded RNE. -/
def execVqnt (x : V3) (s : State) : Host.Outcome State Fault Refusal :=
  .next (s.vEw2 { spec3 x with shapes := onlyF } fun _ a b => Val.div a b)
def execVqntr (x : V3) (s : State) : Host.Outcome State Fault Refusal :=
  .next (s.vEw2 { spec3 x with shapes := onlyF } fun _ a b =>
    let (q, f) := b.rcp
    let (c, g) := rneF32 q
    let (y, h) := Val.mul a (f32 c)
    (y, f ||| g ||| h))
/-- R382. -/
def execVdqnt (x : V3) (s : State) : Host.Outcome State Fault Refusal :=
  .next (s.vEw2 { spec3 x with shapes := onlyF, aRow := some fFP32, aFmt := some fINT32 } fun _ a b => Val.mul a b)

/-! ### Transcendentals -/

/-- A bounded function (R383): its pattern to a register, converted once more to an output port. -/
def State.vBounded (s : State) (x : V2) (f : BFn) : State :=
  s.dataV { spec2 x with shapes := onlyF, cls := 1 } fun i vs a => i.each (fun j p a =>
    let (v, fl) := f.eval (srcAt vs 0 j).v
    { a with r := a.r.set fl }.outBits i j p v) a

def execVexp (x : V2) (s : State) : Host.Outcome State Fault Refusal := .next (s.vBounded x .exp)
def execVexp2 (x : V2) (s : State) : Host.Outcome State Fault Refusal := .next (s.vBounded x .exp2)
def execVlog (x : V2) (s : State) : Host.Outcome State Fault Refusal := .next (s.vBounded x .log)
def execVlog2 (x : V2) (s : State) : Host.Outcome State Fault Refusal := .next (s.vBounded x .log2)
def execVsin (x : V2) (s : State) : Host.Outcome State Fault Refusal := .next (s.vBounded x .sin)
def execVcos (x : V2) (s : State) : Host.Outcome State Fault Refusal := .next (s.vBounded x .cos)
def execVtanh (x : V2) (s : State) : Host.Outcome State Fault Refusal := .next (s.vBounded x .tanh)
def execVrsqrt (x : V2) (s : State) : Host.Outcome State Fault Refusal :=
  .next (s.vEw1 { spec2 x with shapes := onlyF, cls := 1 } Val.rsqrt)
def execVrcp (x : V2) (s : State) : Host.Outcome State Fault Refusal :=
  .next (s.vEw1 { spec2 x with shapes := onlyF, cls := 1 } Val.rcp)

/-! ### Axis words -/

/-- lane(a, r, c) of R365: zero where the lane is inactive (R344); a register's element; a port's element by its position. -/
def VIn.laneOf (i : VIn) (a : VOp) (vs : List (List VElem)) (p : Nat × Nat) : Val :=
  if !i.act p then vZero
  else match vopReg a with
    | some n => (i.x.elem i.sh.fmt n p).v
    | none => (srcAt vs 0 (i.spos.findIdx (· == p))).v

/-- An axis word: destination lane p takes the lane that `f` gives (R385, R386). -/
def State.vAxis (s : State) (x : VK) (dkind : BitVec 2) (f : VShape → Nat × Nat → Nat × Nat) : State :=
  let k := wordKind x.d x.a .zero
  let sk := match x.a.regKind with
    | some j => j
    | none => k
  s.dataV { d := some x.d, srcs := [x.a], skind := sk, dkind := dkind, me := x.me, t := x.tok } fun i vs a =>
    i.each (fun j p a => a.out i j p (i.laneOf x.a vs (f i.sh p))) a

/-- R385. -/
def execVrotr (x : VK) (s : State) : Host.Outcome State Fault Refusal :=
  .next (s.vAxis x (wordKind x.d x.a .zero) fun sh p => (p.1, (p.2 + x.k.toNat) % sh.cols))
def execVrotc (x : VK) (s : State) : Host.Outcome State Fault Refusal :=
  .next (s.vAxis x (wordKind x.d x.a .zero) fun sh p => ((p.1 + x.k.toNat) % sh.rows, p.2))

/-- R386: along the row from column k, or from the column operand; and the other way round. -/
def execVbcr (x : VK) (s : State) : Host.Outcome State Fault Refusal :=
  .next (s.vAxis x (wordKind x.d x.a .zero) fun sh p => (p.1, if x.a.regKind == some 2#2 then sh.cc else x.k.toNat))
def execVbcc (x : VK) (s : State) : Host.Outcome State Fault Refusal :=
  .next (s.vAxis x (wordKind x.d x.a .zero) fun sh p => (if x.a.regKind == some 1#2 then sh.rc else x.k.toNat, p.2))

/-- A reduction of each line (R387); `line` gives the lanes of a destination lane's line. -/
def State.vReduce (s : State) (x : V2) (dkind : BitVec 2) (shapes : List Fmt) (line : VShape → Nat × Nat → List (Nat × Nat))
    (f : RMode → List Val → Val × Byte) : State :=
  s.dataV { d := some x.d, srcs := [x.a], skind := 0#2, dkind := dkind, me := x.me, t := x.tok, shapes := shapes } fun i vs a =>
    i.each (fun j p a =>
      let (y, fl) := f i.sh.mode ((line i.sh p).map (i.laneOf x.a vs))
      { a with r := a.r.set fl }.out i j p y) a

/-- The lanes of a row, and of a column. -/
def rowLine (sh : VShape) (p : Nat × Nat) : List (Nat × Nat) := (upto sh.cols).map fun c => (p.1, c)
def colLine (sh : VShape) (p : Nat × Nat) : List (Nat × Nat) := (upto sh.rows).map fun r => (r, p.2)

/-- The largest and the smallest of a line (R374, R387). -/
def lineMax (vs : List Val) : Val :=
  match vs with
  | [] => vZero
  | v :: t => t.foldl Val.maxOf v
def lineMin (vs : List Val) : Val :=
  match vs with
  | [] => vZero
  | v :: t => t.foldl Val.minOf v

def execVsumr (x : V2) (s : State) : Host.Outcome State Fault Refusal :=
  .next (s.vReduce x 2#2 allFmts rowLine fun m vs => sumExact (m == .rdn) vs)
def execVsumc (x : V2) (s : State) : Host.Outcome State Fault Refusal :=
  .next (s.vReduce x 1#2 allFmts colLine fun m vs => sumExact (m == .rdn) vs)
def execVmaxr (x : V2) (s : State) : Host.Outcome State Fault Refusal :=
  .next (s.vReduce x 2#2 onlyFI rowLine fun _ vs => (lineMax vs, 0#8))
def execVmaxc (x : V2) (s : State) : Host.Outcome State Fault Refusal :=
  .next (s.vReduce x 1#2 onlyFI colLine fun _ vs => (lineMax vs, 0#8))
def execVminr (x : V2) (s : State) : Host.Outcome State Fault Refusal :=
  .next (s.vReduce x 2#2 onlyFI rowLine fun _ vs => (lineMin vs, 0#8))
def execVminc (x : V2) (s : State) : Host.Outcome State Fault Refusal :=
  .next (s.vReduce x 1#2 onlyFI colLine fun _ vs => (lineMin vs, 0#8))

/-! ### Sampling -/

/-- R371: counts and exponents of the active elements of the source into elements 0 to 3 of a row; only SAT is set. -/
def execVsamp (x : V2) (s : State) : Host.Outcome State Fault Refusal :=
  let kind := match x.a.regKind with
    | some k => k
    | none => 0#2
  .next (s.dataV { d := some x.d, srcs := [x.a], skind := kind, dkind := kind, me := x.me, t := x.tok } fun i vs a =>
    let ps := (i.spos.zipIdx.filter fun p => i.act p.1).map fun p => (srcAt vs 0 p.2).v
    let nz := ps.filter fun v => !v.isZero
    let es := (nz.filter Val.isFin).map Val.exponent
    let d := (vopReg x.d).getD 0
    let key (n : Nat) := lane d (i.sh.rc, n)
    let old (n : Nat) := toSigned 32 (mget a.regs (key n) 0)
    let (w0, f0) := satInt 32 (old 0 + nz.length)
    let (w1, f1) := satInt 32 (old 1 + ps.length)
    let w2 := es.foldl max (old 2)
    let w3 := es.foldl min (old 3)
    let regs := [(key 0, w0), (key 1, w1), (key 2, w2), (key 3, w3)].foldl (fun m (e : Nat × Int) => mset0 m e.1 (ofSigned 32 e.2)) a.regs
    .ok { a with regs := regs, n := ps.length, r := a.r.set ((f0 ||| f1) &&& fSAT) })

end Sys2Proof.Machine
end

