-- ==== Sys2Proof/Machine/Catalog.lean ====
section
/-! DEFINITION. The tensor catalog of a die's plan engine (R392 to R398): entries, staleness of handles (R412), freeing (R417), the
sampler's intake and fold (R397), and the catalog's part of a tier move (R396). -/

namespace Sys2Proof.Machine

/-- The plan engine of die d. -/
def State.peng (s : State) (d : Nat) : PlanEng := (s.die d).plan
/-- The state with a plan engine changed. -/
def State.modPlan (s : State) (d : Nat) (f : PlanEng → PlanEng) : State := s.modDie d fun x => { x with plan := f x.plan }
/-- Entry e of a catalog. -/
def PlanEng.entry (p : PlanEng) (e : Nat) : Entry := mget p.catalog e {}
/-- Entry e replaced. -/
def PlanEng.setEntry (p : PlanEng) (e : Nat) (x : Entry) : PlanEng := { p with catalog := mset p.catalog e x }

/-- Dimensions of an entry. -/
def Entry.ndim (e : Entry) : Nat := e.dims.length
/-- Elements of an entry (R394). -/
def Entry.elems (e : Entry) : Nat := prod e.dims
/-- Pin count (R416). -/
def Entry.pins (e : Entry) : Nat := e.soft + e.plan
/-- Bytes of the entry's elements, packed (R394). -/
def Entry.bytes (e : Entry) : Nat := (e.elems * nibbles e.fmt + 1) / 2
/-- The desc word (R394). -/
def Entry.desc (e : Entry) : Word :=
  e.fmt ++ BitVec.ofNat 2 e.tier ++ BitVec.ofNat 2 e.state ++ BitVec.ofNat 3 e.ndim ++ BitVec.ofBool e.trk ++ 0#2 ++ e.perm
/-- The 64 bytes of an entry (R393). -/
def Entry.image (e : Entry) : List Byte :=
  bytesOfNat 4 e.id.toNat ++ bytesOfNat 4 e.version.toNat ++ (upto 6).flatMap (fun i => bytesOfNat 4 (e.dims.getD i 0))
    ++ bytesOfNat 8 e.loc.toNat ++ bytesOfNat 4 e.desc.toNat ++ bytesOfNat 2 e.dens ++ bytesOfNat 2 (BitVec.ofInt 16 e.emin).toNat
    ++ bytesOfNat 2 (BitVec.ofInt 16 e.emax).toNat ++ bytesOfNat 2 e.pins ++ [e.owner] ++ zeroBytes 3 ++ bytesOfNat 4 e.scount
    ++ bytesOfNat 4 e.nzc

/-- Saturation of a statistic at all ones (R393). -/
def satN (x : Nat) : Nat := min x 0xFFFFFFFF
/-- Saturation of an exponent (R397). -/
def satE (x : Int) : Int := max (-32768) (min 32767 x)

/-- dens from the counts (R397, R432). -/
def densOf (scount nzc : Nat) : Nat := if scount = 0 then 0 else 65535 * nzc / scount

/-- The handles for which a condition holds become stale with a reason; the first reason stays (R412). -/
def PlanEng.stale (p : PlanEng) (hit : PHandle → Bool) (reason : Nat) : PlanEng :=
  { p with handles := p.handles.map fun h =>
      (h.1, if h.2.stale = 0 && hit h.2 then { h.2 with stale := reason } else h.2) }

/-- The version of an entry goes up (R395), and the handles that depend on it are stale with VERSION (R412). -/
def PlanEng.bumpVersion (p : PlanEng) (e : Nat) : PlanEng :=
  let x := p.entry e
  (p.setEntry e { x with version := x.version + 1#32 }).stale (fun h => h.deps.contains e) 1

/-- A draining entry without pins becomes free (R417). -/
def PlanEng.settle (p : PlanEng) (e : Nat) : PlanEng :=
  let x := p.entry e
  if x.state = 2 && x.pins = 0 then (p.setEntry e { x with state := 0 }).bumpVersion e else p

/-- Fold a value into an entry's statistics (R397). -/
def Entry.fold (e : Entry) (v : Val) : Entry :=
  let sc := satN (e.scount + 1)
  let nz := if v.isZero then e.nzc else satN (e.nzc + 1)
  let e := { e with scount := sc, nzc := nz, dens := densOf sc nz }
  match v with
  | .fin _ m x _ =>
    if m = 0 then e else
    let l := satE (x + ((Nat.log2 m : Nat) : Int))
    { e with emin := min e.emin l, emax := max e.emax l }
  | .inf _ => e
  | .nan => e

/-- The address word under which the catalog of a die knows a place written by core k: virtual addresses as they are, scratchpads of
the die's cores as windows (R393). -/
def State.catAddr (_ : State) (k : Nat) (c : Cmd) (a : Dword) : Option Dword :=
  let win (i off : Nat) : Dword := BitVec.ofNat 64 (0x2000000000000000 + i % 192 * 0x200000 + off)
  match placeOf a 1 with
  | .ok (.virt _) => some a
  | .ok (.own off) => some (win k off)
  | .ok (.window w off) => some (win w off)
  | .ok (.stage up off) =>
    match (if up then c.up else c.dn) with
    | .core p => if coreDie p = coreDie k then some (win p off) else none
    | .failed _ => none
  | .ok (.acc _) => none
  | .error _ => none

/-- An element write of function f on die d at an address word, of walk index ix, is taken by the sampler, if it is one of 64, for every
tracked entry of f's in which it lies; a full queue of 64 skips it (R397). -/
def State.sample (s : State) (d : Nat) (f : Byte) (a : Dword) (ix : Nat) (fmt : BitVec 4) (bits : Nat) : State :=
  let p := s.peng d
  if ix % 64 != 0 || fmt == fRAW then s
  else
    let hit := p.catalog.filter fun e => e.2.state == 1 && e.2.trk && e.2.owner == f && e.2.loc ≤ a && (a - e.2.loc).toNat < e.2.bytes
    s.modPlan d fun p => { p with samples := (p.samples ++ hit.map fun e => (⟨e.1, f, fmt, bits⟩ : Sample)).take 64 }

/-- R397: the oldest sample is folded into its entry's statistics, if the entry is still live, tracked and of the function that wrote. -/
def execSamplerSample (d : DieIx) (s : State) : Host.Outcome State Fault Refusal :=
  .next (s.modPlan d.val fun p =>
    match p.samples with
    | [] => p
    | x :: t =>
      let e := p.entry x.entry
      let p := { p with samples := t }
      if e.state = 1 && e.trk && e.owner == x.func then p.setEntry x.entry (e.fold (decodeElem x.fmt x.bits)) else p)

/-- A walk is contiguous: element j at position j. -/
def XSet.contiguous (x : XSet) : Bool := (upto x.n).all fun j => walkPos x.cnt x.str j == (j : Int)

/-- Entry i moves to a base and a tier: plans that read a pinned one are stale with MOVED (R396, R412), and a new tier is a new version (R395). -/
def PlanEng.moveEntry (p : PlanEng) (i : Nat) (e : Entry) (base : Dword) (t : Nat) : PlanEng :=
  let p := p.setEntry i { e with loc := base, tier := t }
  let p := if e.pins = 0 then p else p.stale (fun h => h.deps.contains i) 2
  if e.tier = t then p else p.bumpVersion i

/-- R396: a completed `xpf` or `xwb` of core k moves every catalog entry that its source is. -/
def State.tierMove (s : State) (k : Nat) (c : Cmd) (toHbm : Bool) : State :=
  let x := setOf c.s
  let f := (s.core k).funcOf
  let n := (x.n * nibbles (setFmt c.bf x) + 1) / 2
  let base := (setOf c.d).base
  let d := coreDie k
  if !x.contiguous then s
  else
    let hit := (s.peng d).catalog.filter fun e => e.2.state == 1 && e.2.owner == f && e.2.loc == x.base && e.2.bytes == n
    hit.foldl (fun s e => s.modPlan d fun p => p.moveEntry e.1 e.2 base (if toHbm then 0 else 1)) s

end Sys2Proof.Machine
end

