-- ==== Sys2Proof/Machine/XPerform.lean ====
section
/-! DEFINITION. A command in flight performs its accesses in walk order (R64, R65, R167, R170 to R173, R178, R184, R191 to R207):
copies and fills with conversion, raw moves, gathers and scatters, multicast, tier moves, network puts and gets, select in transit,
set loading, and the updates, combines and round markers that it sends. An access that faults leaves the command at its progress
with its cause and address, and COMMAND_FAULT follows (R181). -/

namespace Sys2Proof.Machine

/-- A failed access: cause and address word; no address where the spec names none. -/
abbrev XStop := Byte × Option Dword

/-- What has been done of a command when it stops or ends. -/
structure XEnd where
  a : XAcc
  progress : Nat
  stop : Option XStop := none

/-- A source of a copied element: a place, or given bits (`xfil`). -/
inductive XIn where
  | place (e : Elem)
  | bits (n : Nat)

/-- Which tier a command may touch (R199). -/
inductive Tier where
  | any | first | second
  deriving DecidableEq, Repr

/-- A location lies in the tier. -/
def Tier.holds (t : Tier) (l : Nat) : Bool :=
  match t with
  | .any => true
  | .first => isHbm l
  | .second => isCxl l

/-- What a copy needs to know. -/
structure XCopy where
  k : Nat
  c : Cmd
  sf : Fmt
  df : Fmt
  m : RMode
  zop : Bool
  st : Tier := .any
  dt : Tier := .any
  /-- bits move unchanged whatever the scales (R199, R200) -/
  plain : Bool := false
  /-- cores of a multicast (R198) -/
  cores : Option (List Nat) := none

/-- Read the source of an element: its bits and its scale. -/
def XCopy.fetch (x : XCopy) (a : XAcc) (i : XIn) : Except XStop (Nat × Option Nat) × XAcc :=
  match i with
  | .bits n => (.ok (n, none), a)
  | .place e =>
    match a.get x.k x.c e (nibbles x.sf) x.zop .read with
    | (.error z, a) => (.error (z, some e.addr), a)
    | (.ok (v, l), a) =>
      if x.st.holds l then (.ok (v, if x.plain then none else a.scale x.k x.c.bf e (nibbles x.sf)), a)
      else (.error (cADDR_SPACE, some e.addr), a)

/-- Write an element: at its place, or at its offset in every core of a multicast. -/
def XCopy.store (x : XCopy) (a : XAcc) (e : Elem) (l v : Nat) : XAcc :=
  match x.cores with
  | none => a.put 1 x.k l e (nibbles x.df) v
  | some cs =>
    cs.foldl (fun a i => a.put cs.length x.k (scratchLoc (192 * coreDie x.k + i) + scratchOff l) e (nibbles x.df) v) a

/-- Copy elements with conversion, in walk order (R166, R194). -/
def XCopy.loop (x : XCopy) (a : XAcc) (n : Nat) : List (XIn × Elem × Nat) → XEnd
  | [] => ⟨a, n, none⟩
  | (i, e, r) :: t =>
    match x.fetch a i with
    | (.error z, a) => ⟨a, n, some z⟩
    | (.ok (v, ss), a) =>
      match a.s.xLocate x.k x.c e.addr (nibBytes (nibbles x.df)) .write with
      | (.error z, u) => ⟨{ a with s := u }, n, some (z, some e.addr)⟩
      | (.ok l, u) =>
        let a := { a with s := u }
        if !x.dt.holds l then ⟨a, n, some (cADDR_SPACE, some e.addr)⟩
        else
          let ds := if x.plain then none else a.scale x.k x.c.bf e (nibbles x.df)
          match convElem x.sf x.df x.m r v ss ds with
          | .error z => ⟨a, n, some (z, some e.addr)⟩
          | .ok (y, fl) => XCopy.loop x (x.store { a with flags := a.flags ||| fl } e l y) (n + 1) t

/-- The half bytes of a value of `nib` of them, low first. -/
def nibsOf (v : Nat) : Nat → List Nat
  | 0 => []
  | n + 1 => v % 16 :: nibsOf (v / 16) n

/-- The value of half bytes, low first. -/
def ofNibs : List Nat → Nat
  | [] => 0
  | x :: t => x + 16 * ofNibs t

/-- Read all source elements as half bytes, for a raw move (R166). -/
def XCopy.readAll (x : XCopy) (a : XAcc) (acc : List Nat) : List Elem → Except XStop (List Nat) × XAcc
  | [] => (.ok acc.reverse, a)
  | e :: t =>
    match x.fetch a (.place e) with
    | (.error z, a) => (.error z, a)
    | (.ok (v, _), a) => XCopy.readAll x a ((nibsOf v (nibbles x.sf)).reverse ++ acc) t

/-- Write destination elements from half bytes (R166, R195). -/
def XCopy.writeAll (x : XCopy) (a : XAcc) (n : Nat) (ns : List Nat) : List Elem → XEnd
  | [] => ⟨a, n, none⟩
  | e :: t =>
    match a.s.xLocate x.k x.c e.addr (nibBytes (nibbles x.df)) .write with
    | (.error z, u) => ⟨{ a with s := u }, n, some (z, some e.addr)⟩
    | (.ok l, u) =>
      let a := { a with s := u }
      if !x.dt.holds l then ⟨a, n, some (cADDR_SPACE, some e.addr)⟩
      else XCopy.writeAll x (x.store a e l (ofNibs (ns.take (nibbles x.df)))) (n + 1) (ns.drop (nibbles x.df)) t

/-- Bytes move unchanged between a raw and a typed side (R166), from destination element `progress` on (R179): the source elements from
the one on that holds its first half byte are read, then the destination elements written. -/
def XCopy.raw (x : XCopy) (a : XAcc) (progress : Nat) (src dst : List Elem) : XEnd :=
  let from_ := progress * nibbles x.df
  match x.readAll a [] (src.drop (from_ / nibbles x.sf)) with
  | (.error z, a) => ⟨a, progress, some z⟩
  | (.ok ns, a) => x.writeAll a progress (ns.drop (from_ % nibbles x.sf)) (dst.drop progress)

/-- A copy from the command's progress on (R179): with conversion, or raw. -/
def XCopy.run (x : XCopy) (a : XAcc) (src : List XIn) (srcE dst : List Elem) : XEnd :=
  if x.sf != x.df && (x.sf == fRAW || x.df == fRAW) then x.raw a x.c.progress srcE dst
  else x.loop a x.c.progress ((src.zip (dst.zip (drawOrder x.m x.c.gen dst))).drop x.c.progress)

/-- Indices of a list of places of an integer format (R196). -/
def readIndices (k : Nat) (c : Cmd) (f : Fmt) (zop : Bool) (a : XAcc) (acc : List Int) : List Elem → Except XStop (List Int) × XAcc
  | [] => (.ok acc.reverse, a)
  | e :: t =>
    match a.get k c e (nibbles f) zop .read with
    | (.error z, a) => (.error (z, some e.addr), a)
    | (.ok (v, _), a) => readIndices k c f zop a (toSigned ((intBits f).getD 32) v :: acc) t

/-- The position of the first index outside 0 to n − 1. -/
def badIndex (n : Nat) (j : Nat) : List Int → Option Nat
  | [] => none
  | x :: t => if x < 0 ∨ (n : Int) ≤ x then some j else badIndex n (j + 1) t

/-- The rows of a table that indices choose, as places (R196, R197). -/
def XSet.rows (x : XSet) (nib : Nat) (is : List Int) : List Elem :=
  is.flatMap fun r => (upto (x.c 0)).map fun i => x.rowElem nib r.toNat i

/-- The bits of a fill's value in the size of its format (R195). -/
def fillBits (s : XSet) : Nat := s.aux.toNat % 16 ^ nibbles s.fmt

/-- `xfil` (R195). -/
def runFill (x : XCopy) (a : XAcc) (s d : XSet) : XEnd :=
  let dst := d.walk (nibbles x.df)
  if x.sf == fRAW && x.df != fRAW then
    let b := s.aux.toNat % 256
    let ns (e : Elem) := if nibbles x.df = 1 then [if e.half then b / 16 else b % 16]
      else (List.replicate (nibBytes (nibbles x.df)) [b % 16, b / 16]).flatten
    x.writeAll a x.c.progress ((dst.flatMap ns).drop (x.c.progress * nibbles x.df)) (dst.drop x.c.progress)
  else if x.df == fRAW && x.sf != fRAW then
    let z := nibbles x.sf
    let v := fillBits s
    let pat := if z = 1 then [v, v] else nibsOf v z
    let ns := (List.replicate (d.n * 2 / pat.length + 1) pat).flatten
    x.writeAll a x.c.progress (ns.drop (2 * x.c.progress)) (dst.drop x.c.progress)
  else
    x.loop a x.c.progress
      ((dst.zip (drawOrder x.m x.c.gen dst)).map (fun p => (XIn.bits (fillBits s), p.1, p.2)) |>.drop x.c.progress)

/-- `xgat` and `xsct` (R196, R197): indices first, whole, then the rows. -/
def runIndexed (x : XCopy) (a : XAcc) (gatherK : Bool) (s d p : XSet) : XEnd × Option (List Int) :=
  let fi := setFmt x.c.bf p
  let table := if gatherK then s else d
  let got : Except XStop (List Int) × XAcc := match x.c.ixs with
    | some l => (.ok l, a)
    | none => readIndices x.k x.c fi p.zop a [] (p.walk (nibbles fi))
  match got with
  | (.error z, a) => (⟨a, 0, some z⟩, none)
  | (.ok is, a) =>
    match badIndex (table.c 1) 0 is with
    | some j => (⟨a, 0, some (cXINDEX, some (BitVec.ofNat 64 j))⟩, some is)
    | none =>
      let src := if gatherK then s.rows (nibbles x.sf) is else s.walk (nibbles x.sf)
      let dst := if gatherK then d.walk (nibbles x.df) else d.rows (nibbles x.df) is
      (x.run a (src.map XIn.place) src dst, some is)

/-! ### Select in transit -/

/-- a ranks before b in `selk` (R178): numbers by value, equal ones by index, NaN last. -/
def selBefore (min : Bool) (a b : Nat × Nat) : Bool :=
  let x := f32 a.2
  let y := f32 b.2
  if x.isNan then y.isNan && a.1 < b.1
  else if y.isNan then true
  else if (if min then x.lt y else y.lt x) then true
  else if (if min then y.lt x else x.lt y) then false
  else a.1 < b.1

/-- Insertion by rank. -/
def selInsert (min : Bool) (x : Nat × Nat) : List (Nat × Nat) → List (Nat × Nat)
  | [] => [x]
  | y :: t => if selBefore min x y then x :: y :: t else y :: selInsert min x t

/-- The k selected (index, bits) of a row, padded (R178). -/
def selRow (min : Bool) (k : Nat) (row : List Nat) : List (Nat × Nat) :=
  let ranked := (row.zipIdx.map fun (v, i) => (i, v)).foldl (fun l x => selInsert min x l) []
  (ranked.take k) ++ List.replicate (k - row.length) (0xFFFFFFFF, nan32)

/-- Rows of n elements; fuel is the number of elements. -/
def rowsOf (n : Nat) (l : List Nat) : Nat → List (List Nat)
  | 0 => []
  | f + 1 => if l.isEmpty then [] else l.take n :: rowsOf n (l.drop n) f

/-- `selk` (R178, R202). -/
def runSelk (k : Nat) (c : Cmd) (min : Bool) (a : XAcc) (s d p : XSet) : XEnd :=
  let x : XCopy := { k := k, c := c, sf := fFP32, df := fFP32, m := .rne, zop := s.zop, plain := true }
  let kk := (d.aux.extractLsb' 0 7).toNat
  match x.readAll a [] (s.walk 8) with
  | (.error z, a) => ⟨a, c.progress, some z⟩
  | (.ok ns, a) =>
    let vals := (rowsOf 8 ns (s.n)).map ofNibs
    let sel := (rowsOf (s.c 0) vals s.n).flatMap (selRow min kk)
    x.writeAll a c.progress ((sel.flatMap (fun y => nibsOf y.2 8) ++ sel.flatMap fun y => nibsOf y.1 8).drop (8 * c.progress))
      ((d.walk 8 ++ p.walk 8).drop c.progress)

/-! ### Network -/

/-- The cells a put writes at its peer: remote element places with their bits (R200), a half-byte element with its half of the byte
(R42). -/
def putCells (nib : Nat) (ns : List Nat) : List Elem → List (Dword × List (Byte × Byte))
  | [] => []
  | e :: t => (e.addr, elemBytes e nib (ofNibs (ns.take nib))) :: putCells nib (ns.drop nib) t

/-- n bytes that a peer returns, free values (log 18). -/
def State.peerBytes (s : State) (n : Nat) : List Nat × State :=
  ((upto n).map fun i => (Config.peerByte (s.fresh + i)).toNat, { s with fresh := s.fresh + n })

/-- Charge a network command's packets and bytes, uncalibrated, at its issuing core (R191, R261, R262). -/
def State.netCharge (s : State) (k : Nat) (bytes : Nat) : State :=
  let p := Config.packets s.fresh bytes
  { s with fresh := s.fresh + 1 }.meter k ((p * s.rate 5 0 0xF + bytes * s.rate 5 1 0xF) * 0x4000)

/-- The network context that a remote set names (R200). -/
def State.netCtx (s : State) (k : Nat) (x : XSet) : Option NetCtx :=
  mget? (s.func (s.core k).funcOf).ctxs (x.aux.extractLsb' 0 8).toNat

/-- `xput` (R200). Its peer acknowledges it whole: until then none of its elements is done (R187), and after an interruption it is sent again
from the first one (R185). -/
def runPut (k : Nat) (c : Cmd) (a : XAcc) (s d : XSet) : XEnd :=
  let x : XCopy := { k := k, c := c, sf := setFmt c.bf s, df := d.fmt, m := .rne, zop := s.zop, plain := true }
  match a.s.netCtx k d with
  | none => ⟨a, 0, some (cNET_REFUSED, some d.base)⟩
  | some ctx =>
    match x.readAll a [] (s.walk (nibbles x.sf)) with
    | (.error z, a) => ⟨a, 0, some z⟩
    | (.ok ns, a) =>
      let cells := putCells (nibbles d.fmt) ns (d.walk (nibbles d.fmt))
      let s := ((a.s.send (.put ctx cells)).netCharge k (ns.length / 2)).charge k 1 1 0xF d.n
      ⟨{ a with s := s }, 0, none⟩

/-- The request of an `xget` (R200) for what it has not written yet. -/
def runGet (k : Nat) (c : Cmd) (a : XAcc) (s d : XSet) : XEnd :=
  match a.s.netCtx k s with
  | none => ⟨a, c.progress, some (cNET_REFUSED, some s.base)⟩
  | some ctx =>
    let dn := nibbles (setFmt c.bf d)
    let cells := ((s.walk (nibbles s.fmt)).drop (c.progress * dn / nibbles s.fmt)).map fun e => (e.addr, nibBytes (nibbles s.fmt))
    let t := (a.s.send (.get ctx cells)).netCharge k (((d.n - c.progress) * dn + 1) / 2)
    ⟨{ a with s := t }, c.progress, none⟩

/-- The peer's answer to an `xget` (R200): its bytes, free values (log 18), are written from the command's progress on. -/
def runGot (k : Nat) (c : Cmd) (a : XAcc) (s d : XSet) : XEnd :=
  let x : XCopy := { k := k, c := c, sf := s.fmt, df := setFmt c.bf d, m := .rne, zop := false, plain := true }
  let (bs, t) := a.s.peerBytes (((d.n - c.progress) * nibbles x.df + 1) / 2)
  x.writeAll { a with s := t } c.progress (bs.flatMap fun b => [b % 16, b / 16]) ((d.walk (nibbles x.df)).drop c.progress)

/-! ### Accumulate-on-write, combine, round close -/

/-- The issuer word of a source on core k (R172). -/
def issuerWord (k : Nat) (src : XSrc) : Word := BitVec.ofNat 32 (1024 * coreDie k + 4 * (k % 192) + src.code)

/-- The core of an issuer word (R172). -/
def issuerCore (w : Word) : Nat := 192 * (w.extractLsb' 10 3).toNat + (w.extractLsb' 2 8).toNat

/-- A group record as read (R172). -/
structure GroupRec where
  dmask : Byte
  issuers : List Word
  deriving DecidableEq, Repr

/-- Ascending as unsigned words. -/
def rising : List Word → Bool
  | a :: b :: t => a.ult b && rising (b :: t)
  | _ => true

/-- The layout of R172. That an issuer's core number of 192 to 255, which no core has, breaks it is the model's choice (DESIGN CHOICE,
log 91). -/
def parseGroup (bs : List Byte) : Option GroupRec :=
  let at_ (o n : Nat) := natOfBytes ((bs.drop o).take n)
  let n := at_ 0 1
  let is := (upto n).map fun i => BitVec.ofNat 32 (at_ (0x20 + 4 * i) 4)
  if 1 ≤ n && n ≤ 64 && at_ 2 6 = 0 && at_ 0x14 12 = 0 && rising is &&
     is.all (fun w => w.extractLsb' 13 19 == 0#19 && w.extractLsb' 0 2 != 3#2 && (w.extractLsb' 2 8).toNat < 192)
  then some ⟨BitVec.ofNat 8 (at_ 1 1), is⟩
  else none

/-- Check the record's address as an accumulate-on-write over its bytes (R172), then its layout and the issuer: the record, or the
failing cause with its address. -/
def XAcc.groupCheck (a : XAcc) (k : Nat) (c : Cmd) (g : Dword) : Except XStop GroupRec × XAcc :=
  if spaceOf g != 0 then (.error (cADDR_SPACE, some g), a)
  else
    let locate (a : XAcc) (e : Dword) := a.s.xLocate k c e 64 .aow
    match locate a g with
    | (.error z, t) => (.error (z, some g), { a with s := t })
    | (.ok l, t) =>
      let a := { a with s := t }
      let n := Memory.readNat a.s.mem l 1
      let last := g + BitVec.ofNat 64 (64 * ((32 + 4 * n - 1) / 64))
      match locate a last with
      | (.error z, t) => (.error (z, some last), { a with s := t })
      | (.ok _, t) =>
        let a := { a with s := t }
        match a.s.hostRead (a.s.core k).funcOf g (32 + 4 * n) with
        | .error z => (.error (z, some g), a)
        | .ok bs =>
          match parseGroup bs with
          | none => (.error (cDET_GROUP, none), a)
          | some r =>
            if r.issuers.contains (issuerWord k c.src) then (.ok r, a) else (.error (cDET_GROUP, none), a)

/-- The group replaced. -/
def State.setGroup (s : State) (g : DetGroup) : State :=
  { s with groups := (s.groups.filter fun x => !(x.func == g.func && x.group == g.group)) ++ [g] }

/-- The job of core k took part in an aborted round of the group (R175). -/
def State.isDoomed (s : State) (k : Nat) (g : Dword) : Bool :=
  match (s.core k).job with
  | none => false
  | some j => (s.group j.func g).doomed.contains (j.team, j.rank.toNat)

/-- The next ordinal of an issuer for a round and MSU, counted up (R173). -/
def DetGroup.ordinal (g : DetGroup) (w : Word) (r m : Nat) : Nat × DetGroup :=
  let n := ((g.ords.find? fun x => x.1 == (w, r, m)).map fun x => x.2).getD 0
  (n, { g with ords := (g.ords.filter fun x => x.1 != (w, r, m)) ++ [((w, r, m), n + 1)] })

/-- The unit that applies updates of a location: an MSU, or the ALU of a scratchpad bank (R55, R62). -/
def unitOf (l : Nat) : Nat := if isHbm l then msuOf l else 10000 + (if isScratch l then bankOf l else 0)

/-- Send the updates of an accumulate-on-write command from its progress on (R170, R204, R205). That a deterministic command whose target
lies in the second tier faults AOW_TIER (R52, R170), and not DET_GROUP (R172), is the model's choice (DESIGN CHOICE, log 91). -/
def acwLoop (k : Nat) (c : Cmd) (op : BitVec 6) (ret : Bool) (det : Option GroupRec) (s d : XSet) (a : XAcc) (n : Nat) :
    List (Elem × Elem) → XEnd
  | [] => ⟨a, n, none⟩
  | (e, f) :: t =>
    let nib := nibbles (acwFmt op)
    match a.get k c e nib s.zop (if ret then .write else .read) with
    | (.error z, a) => ⟨a, n, some (z, some e.addr)⟩
    | (.ok (v, back), a) =>
      match a.s.xLocate k c f.addr (nibBytes nib) .aow with
      | (.error z, u) => ⟨{ a with s := u }, n, some (z, some f.addr)⟩
      | (.ok l, u) =>
        let a := { a with s := u }
        if isHbm l && a.s.poisoned l (nibBytes nib) && !d.zop then ⟨a, n, some (cPOISON, some f.addr)⟩
        else if det.any fun r => !(isHbm l && maskHas r.dmask (homeDie l)) then ⟨a, n, some (cDET_GROUP, some f.addr)⟩
        else
          let s0 := a.s
          let func := (s0.core k).funcOf
          let w := issuerWord k c.src
          let (o, s1) := if det.isSome then
              let (o, g) := (s0.group func d.aux).ordinal w c.round (unitOf l)
              (o, s0.setGroup g)
            else (0, s0)
          let u : Update :=
            { id := s1.next, ref := s1.cmdRef k c, func := func, ix := n, core := k, home := homeDie l, unit := unitOf l, loc := l, addr := f.addr,
              op := op, v := v, back := if ret then some back else none, zop := d.zop, stamp := (s1.die (coreDie k)).vclk,
              word := c.word, det := if det.isSome then some ⟨func, d.aux, w, c.round, o⟩ else none }
          let s2 := { s1 with next := s1.next + 1, updates := s1.updates ++ [u] }.countSent (coreDie k) (homeDie l)
          let a := ({ a with s := s2.charge k 1 6 0xF 1 }).count k l (nibBytes nib)
          acwLoop k c op ret det s d a (n + 1) t

/-- An accumulate-on-write command (R170 to R173, R204, R205). -/
def runAcw (k : Nat) (c : Cmd) (op : BitVec 6) (ret det : Bool) (a : XAcc) (s d : XSet) : XEnd :=
  let nib := nibbles (acwFmt op)
  let pairs := ((s.walk nib).zip (d.walk nib)).drop c.progress
  if !det then acwLoop k c op ret none s d a c.progress pairs
  else if a.s.isDoomed k d.aux then ⟨a, c.progress, some (cDET_ABORT, none)⟩
  else match a.groupCheck k c d.aux with
    | (.error z, a) => ⟨a, c.progress, some z⟩
    | (.ok r, a) => acwLoop k c op ret (some r) s d a c.progress pairs

/-- `cmb` (R206): the row goes to the MSU of the entry's first line. -/
def runCombine (k : Nat) (c : Cmd) (a : XAcc) (s d : XSet) : XEnd :=
  let x : XCopy := { k := k, c := c, sf := fFP32, df := fFP32, m := .rne, zop := s.zop, plain := true }
  match x.readAll a [] (s.walk 8) with
  | (.error z, a) => ⟨a, 0, some z⟩
  | (.ok ns, a) =>
    match a.s.xLocate k c d.base 64 .aow with
    | (.error z, u) => ⟨{ a with s := u }, 0, some (z, some d.base)⟩
    | (.ok l, u) =>
      let m : Combine :=
        ⟨u.next, u.cmdRef k c, k, l, (d.aux.extractLsb' 0 3).toNat, (rowsOf 8 ns s.n).map ofNibs, (u.die (coreDie k)).vclk⟩
      let u := { u with next := u.next + 1, combines := u.combines ++ [m] }.countSent (coreDie k) (homeDie l)
      ⟨({ a with s := u.charge k 1 6 0xF s.n }).count k l (4 * s.n), s.n, none⟩

/-- `xrcl` (R173, R175, R207): a marker to every MSU of the dies in dmask; the issuer's ordinals start anew. -/
def runClose (k : Nat) (c : Cmd) (a : XAcc) (d : XSet) : XEnd :=
  if a.s.isDoomed k d.aux then ⟨a, 0, some (cDET_ABORT, none)⟩
  else match a.groupCheck k c d.aux with
    | (.error z, a) => ⟨a, 0, some z⟩
    | (.ok r, a) =>
      let s := a.s
      let func := (s.core k).funcOf
      let w := issuerWord k c.src
      let msus := (upto 8).flatMap fun i => if maskHas r.dmask i then (upto 256).map fun j => 256 * i + j else []
      let ms := msus.zipIdx.map fun (m, i) => RoundMark.mk (s.next + i) func d.aux w c.round m
      let g := s.group func d.aux
      let g := { g with
        waiting := g.waiting ++ [(s.cmdRef k c, c.round)]
        ords := g.ords.filter fun x => !(x.1.1 == w && x.1.2.1 == c.round) }
      ⟨{ a with s := ({ s with next := s.next + ms.length, roundMarks := s.roundMarks ++ ms }).setGroup g }, 0, none⟩

/-! ### Performing -/

/-- An `xrcl` waits until every earlier deterministic update of its stream in the group has been accepted (R173). -/
def State.closeBlocked (s : State) (k : Nat) (c : Cmd) (g : Dword) : Bool :=
  let me := s.cmdRef k c
  ((s.core k).x.cmds.any fun e => e.src == c.src && e.id < c.id && e.isAcw && e.detGroup == some g
    && (e.st == .issued || e.st == .resolution)) ||
  s.updates.any fun u => u.ref.team == me.team && u.ref.rank == me.rank && u.ref.src == c.src && u.ref.seq.ult c.seq &&
    (u.det.any fun x => x.group == g) && (match u.st with
      | .flying => true
      | .retry _ => true
      | .held => false
      | .answered _ => false)

/-- A command that loads a set, the one kind that writes no memory and sends no marker. -/
def Cmd.isCfg (c : Cmd) : Bool :=
  match xopOfWord c.word with
  | some ⟨.cfg, _, _⟩ => true
  | _ => false

/-- c must wait for the earlier command e of its stream (R167), the output rows of ranked combines among what they write. -/
def State.waitsFor (s : State) (k : Nat) (c e : Cmd) : Bool :=
  let co := s.combineOut k c
  let eo := s.combineOut k e
  c.waitsFor e || anyOverlap c.readRanges eo || anyOverlap c.writeRanges eo || anyOverlap co e.readRanges || anyOverlap co e.writeRanges
    || anyOverlap co eo

/-- Command c of core k may not perform yet (R65, R167, R170, R173). A release that an earlier command of its stream still has to make
holds back what it would write (R64); and the accesses of a releasing command wait for the writes of the earlier ones, at stream scope for
their issue, since its tag and who sees its writes must see these (R64, R274). -/
def State.performBlocked (s : State) (k : Nat) (c : Cmd) : Bool :=
  let earlier := (s.core k).x.cmds.filter fun e => e.src == c.src && e.id < c.id
  earlier.any (s.waitsFor k c) ||
  (!c.isCfg && earlier.any Cmd.holding) ||
  (c.word.getLsbD 10 && !c.isClose && !s.earlierSettled k c c.scope) ||
  (c.isAcw && earlier.any fun e => e.isAcw && (e.st == .issued ||
    (e.st == .resolution && c.detGroup.isSome && c.detGroup == e.detGroup))) ||
  (c.src == .queue && s.writes.any fun w => w.by_ == ⟨k, c.q.val⟩ && w.id < c.mark) ||
  (c.isClose && s.closeBlocked k c (setOf c.d).aux)

/-- The run of a command by its kind, and the indices and descriptor it has read. -/
def runKind (k : Nat) (c : Cmd) (o : XOp) (a : XAcc) : XEnd × Option (List Int) × Option (BitVec 1024) :=
  let s := setOf c.s
  let d := setOf c.d
  let p := setOf c.p
  let x : XCopy := { k := k, c := c, sf := setFmt c.bf s, df := setFmt c.bf d, m := o.m, zop := s.zop }
  let src := s.walk (nibbles x.sf)
  let dst := d.walk (nibbles x.df)
  match o.kind with
  | .copy => (x.run a (src.map XIn.place) src dst, none, none)
  | .gather => let r := runIndexed x a true s d p; (r.1, r.2, none)
  | .scatter => let r := runIndexed x a false s d p; (r.1, r.2, none)
  | .fill => (runFill { x with sf := s.fmt } a s d, none, none)
  | .mcast =>
    let cs := (coreSet d.aux).getD []
    if cs.all fun i => a.s.windowOk k i then ({ x with cores := some cs }.run a (src.map XIn.place) src dst, none, none)
    else (⟨a, 0, some (cWINDOW, some d.base)⟩, none, none)
  | .prefetch => ({ x with st := .second, dt := .first, plain := true }.run a (src.map XIn.place) src dst, none, none)
  | .writeback => ({ x with st := .first, dt := .second, plain := true }.run a (src.map XIn.place) src dst, none, none)
  | .put => (runPut k c a s d, none, none)
  | .get => (runGet k c a s d, none, none)
  | .selk min => (runSelk k c min a s d p, none, none)
  | .cfg =>
    let e := c.op?.getD s.base
    match placeOf e 128 with
    | .error z => (⟨a, 0, some (z, some e)⟩, none, none)
    | .ok _ => match a.s.xLocate k c e 64 .read with
    | (.error z, u) => (⟨{ a with s := u }, 0, some (z, some e)⟩, none, none)
    | (.ok l, u) =>
      let r := BitVec.ofNat 1024 (u.ownNat (c.src.writer k) l 128)
      (⟨({ a with s := u }).count k l 128, 0, none⟩, none, some r)
  | .acw op ret det => (runAcw k c op ret det a s d, none, none)
  | .combine => (runCombine k c a s d, none, none)
  | .close => (runClose k c a d, none, none)

/-- A command replaced in its core. -/
def State.modCmd (s : State) (k id : Nat) (f : Cmd → Cmd) : State :=
  s.modCore k fun c => { c with x := { c.x with cmds := c.x.cmds.map fun e => if e.id = id then f e else e } }

/-- The command of core k with a number. -/
def State.cmd? (s : State) (k id : Nat) : Option Cmd := (s.core k).x.cmds.find? fun c => c.id == id

/-- Set a tag and complete the waits that it satisfies (R23, R134). -/
def State.setTag (s : State) (k : Nat) (tag : BitVec 6) : State :=
  let b := 1#64 <<< tag.toNat
  (s.modCore k fun c => { c with sys := { c.sys with tags := c.sys.tags ||| b, tagsNew := c.sys.tagsNew ||| b } }).wake k

/-- An element that a command writes, as the sampler sees it (R397): its place, its walk index, where it stands in the command's progress,
its format. -/
structure Sampled1 where
  elem : Elem
  ix : Nat
  at_ : Nat
  fmt : Fmt

/-- The elements that a command writes, as the sampler sees them (R397): those of a multicast once for each core; the values and then the
indices that `selk` writes. -/
def Cmd.sampled (c : Cmd) (o : XOp) (ixs : Option (List Int)) : List Sampled1 :=
  let d := setOf c.d
  let f := setFmt c.bf d
  let nib := nibbles f
  let of_ (f : Fmt) (n : Nat) (es : List Elem) : List Sampled1 := es.zipIdx.map fun e => ⟨e.1, e.2, n + e.2, f⟩
  let walk := of_ f 0 (d.walk nib)
  match o.kind with
  | .copy => walk
  | .gather => walk
  | .fill => walk
  | .get => walk
  | .prefetch => walk
  | .writeback => walk
  | .scatter => of_ f 0 (d.rows nib (ixs.getD []))
  | .selk _ => let p := setOf c.p; of_ f 0 (d.walk 8) ++ of_ (setFmt c.bf p) d.n (p.walk 8)
  | .mcast =>
    ((coreSet d.aux).getD []).flatMap fun i =>
      walk.map fun e => { e with elem := { e.elem with addr := BitVec.ofNat 64 (0x2000000000000000 + i * 0x200000 + e.elem.addr.toNat % 0x200000) } }
  | _ => []

/-- The location of an element the sampler looks at. -/
def State.sampleLoc (s : State) (k : Nat) (a : Dword) : Option Nat :=
  match placeOf a 1 with
  | .ok (.virt _) =>
    match s.hostCheck (s.core k).funcOf a .read false with
    | .ok l => some l
    | .error _ => none
  | .ok (.window w off) => some (scratchLoc (192 * coreDie k + w) + off)
  | _ => none

/-- The sampler's look at the elements [lo, hi) that a command has written (R397). -/
def State.samples (s : State) (k : Nat) (c : Cmd) (o : XOp) (ixs : Option (List Int)) (lo hi : Nat) : State :=
  if (s.peng (coreDie k)).catalog.all fun e => !e.2.trk then s
  else
    ((c.sampled o ixs).filter fun e => e.ix % 64 == 0 && lo ≤ e.at_ && e.at_ < hi).foldl (fun s e =>
      match s.catAddr k c e.elem.addr with
      | none => s
      | some a =>
        match s.sampleLoc k a with
        | none => s
        | some l =>
          let nib := nibbles e.fmt
          let bits := natOfBytes ((upto (nibBytes nib)).map fun i => s.ownByte (c.src.writer k) (l + i))
          s.sample (coreDie k) (s.core k).funcOf a e.ix e.fmt (if nib = 1 then bits / (if e.elem.half then 16 else 1) % 16 else bits)) s

/-- What a run of command c leaves: its writes on their way, flags and charges; a fault is recorded and comes next (R181); else the command
is in state st, and with `tag` its tag is set (R23). -/
def ranCmd (k : Nat) (c : Cmd) (o : XOp) (r : XEnd × Option (List Int) × Option (BitVec 1024)) (st : CmdState)
    (tag : Bool) : State :=
  let (e, ixs, new) := r
  let t := e.a.charges (e.a.flush k c) k
  let t := t.charge k 1 1 0xF (e.progress - c.progress)
  let t := t.setFlags k c.src.unit4 e.a.flags
  let ixs := if ixs.isSome then ixs else c.ixs
  let t := t.samples k c o ixs c.progress e.progress
  match e.stop with
  | some (z, info) =>
    let (i, t) := match info with
      | some i => (i, t)
      | none => (Config.info t.fresh, { t with fresh := t.fresh + 1 })
    (t.modCmd k c.id fun x =>
      { x with progress := e.progress, cause := z, addr := i, lines := e.a.lines, ixs := ixs, st := .failed }).after
      [.event (.commandFault (Fin.ofNat 1536 k) c.id)]
  | none =>
    let t := t.modCmd k c.id fun x =>
      { x with progress := e.progress, lines := e.a.lines, ixs := ixs, new := new, st := st, tagged := tag }
    if tag then t.setTag k o.x.tag else t

/-- The tag of a command is set once its accesses are made (R23): at stream scope, for one that has nothing to wait for: no round, no old
values to write back (R205), and no poisoned line to report first (R184). -/
def XOp.tagsEarly (o : XOp) (d : XSet) : Bool :=
  o.x.scope == .stream &&
  match o.kind with
  | .close => false
  | .acw _ ret _ => !ret && !d.zop
  | _ => true

/-- The state of a command whose accesses are made: it awaits its peer, its round, or its completion. -/
def XKind.after (k : XKind) : CmdState :=
  match k with
  | .put => .network
  | .get => .network
  | .close => .round
  | _ => .performed

/-- A command performs its accesses: acquire (R64), then its walk from its progress on. -/
def State.perform (s : State) (k id : Nat) : State :=
  match s.cmd? k id with
  | none => s
  | some c =>
    match xopOfWord c.word with
    | none => s
    | some o =>
      if c.st != .issued || s.performBlocked k c || (s.core k).fault.isSome then s
      else
        let wide := o.x.scope == .package || o.x.scope == .fabric
        let s := if o.x.acq && wide && c.progress = 0 then s.acquire (coreDie k) else s
        ranCmd k c o (runKind k c o { s := s, lines := c.lines }) o.kind.after (o.tagsEarly (setOf c.d))

/-- The peer of an `xget` has answered: its bytes are written (R200). -/
def State.got (s : State) (k : Nat) (c : Cmd) (o : XOp) : State :=
  ranCmd k c o (runGot k c { s := s, lines := c.lines } (setOf c.s) (setOf c.d), none, none) .performed false

end Sys2Proof.Machine
end

