-- ==== Sys2Proof/Machine/Msu.lean ====
section
/-! DEFINITION. Memory-side units and bank ALUs: applying an accumulate-on-write update once (R170, R171, R180, R184, R205), the
deterministic rounds (R172 to R175) and ranked combines (R176, R177). -/

namespace Sys2Proof.Machine

/-- The FP32 pattern chosen by max or min: canonical NaN if either is NaN, +0 above −0 (R170). -/
def pickF (max : Bool) (a b : Nat) : Nat :=
  let x := f32 a
  let y := f32 b
  if x.isNan || y.isNan then nan32
  else if x.lt y then (if max then b else a)
  else if y.lt x then (if max then a else b)
  else if x.sign == max then b else a

/-- The new value of an update (R170). -/
def acwNew (op : BitVec 6) (old v : Nat) : Nat :=
  let s32 := toSigned 32
  let s64 := toSigned 64
  match op.toNat with
  | 0x10 => (old + v) % 2 ^ 32
  | 0x11 => (old + v) % 2 ^ 64
  | 0x12 => (rneF32 (Val.add false (f32 old) (f32 v)).1).1
  | 0x13 => if s32 old < s32 v then v else old
  | 0x14 => if s64 old < s64 v then v else old
  | 0x15 => pickF true old v
  | 0x16 => if s32 v < s32 old then v else old
  | 0x17 => if s64 v < s64 old then v else old
  | 0x18 => pickF false old v
  | 0x19 => old &&& v
  | 0x1A => old &&& v
  | 0x1B => old ||| v
  | 0x1C => old ||| v
  | _ => v

/-- The core on which the job of a command reference runs. -/
def State.refCore (s : State) (r : CmdRef) : Option Nat :=
  (s.cores.find? fun e => e.2.job.any fun j => j.team == r.team && j.rank.toNat == r.rank).map fun e => e.1

/-- The command of a reference, with its core, while it is in flight on a core. -/
def State.refCmd (s : State) (r : CmdRef) : Option (Nat × Cmd) :=
  match s.refCore r with
  | none => none
  | some k => ((s.core k).x.cmds.find? fun c => c.src == r.src && c.seq == r.seq).map fun c => (k, c)

/-- Write an old value back to the source element (R205). -/
def State.writeBack (s : State) (k : Nat) (c : Cmd) (loc n old : Nat) : State :=
  s.emit (c.src.writer k) (some c.id) loc (wholeBytes (bytesOfNat n old))

/-- A team changed, whether it runs, is suspended, or travels in a hamper. -/
def State.changeTeam (s : State) (team : Nat) (f : Team → Team) : State :=
  let g (c : Cand) : Cand := if c.kind == .suspended && c.team.id == team then { c with team := f c.team } else c
  { s with
    dies := s.dies.map fun d =>
      { d with
        teams := d.teams.map fun t => if t.id == team then f t else t
        cands := d.cands.map g }
    hampers := s.hampers.map fun h => { h with cand := g h.cand } }

/-- A team's item is marked POISONED (R184). -/
def State.markPoisoned (s : State) (team : Nat) : State := s.changeTeam team fun t => { t with poisoned := true }

/-- The teams that run, are suspended or travel in a hamper. -/
def State.allTeams (s : State) : List Team :=
  ((upto 8).flatMap fun d => ((s.die d).cands.filter fun c => c.kind == .suspended).map fun c => c.team) ++
    ((upto 8).flatMap fun d => (s.die d).teams) ++ (s.hampers.filter fun h => h.cand.kind == .suspended).map fun h => h.cand.team

/-- A saved command keeps one more entry at a unit (R180). -/
def Team.keepHit (t : Team) (r : CmdRef) (unit : Nat) : Team :=
  let one (e : CmdKept) : CmdKept :=
    if e.src == r.src && e.seq == r.seq then { e with hits := mset e.hits unit (mget e.hits unit 0 + 1) } else e
  { t with saves := t.saves.map fun v => if v.rank = r.rank then { v with bf := { v.bf with cmds := v.bf.cmds.map one } } else v }

/-- The event record of R184 for a poisoned target line that a unit has written as zeros, whether the update's job runs or is saved; the
item is marked POISONED. -/
def State.updatePoison (s : State) (u : Update) : State :=
  (s.event u.func (bytesOfNat 2 1 ++ [BitVec.ofNat 8 u.ref.src.code, 0#8] ++ bytesOfNat 4 (s.coord u.core).toNat
    ++ bytesOfNat 4 u.word.toNat ++ bytesOfNat 4 u.ref.seq.toNat ++ bytesOfNat 8 (u.addr - BitVec.ofNat 64 (u.loc % 64)).toNat
    ++ bytesOfNat 8 s.dtime)).markPoisoned u.ref.team

/-- Apply an update at its home, once, a bank's core noting who was served (R60): a poisoned target line is written as zeros first (R184); its command counts the entry that the unit
keeps (R180); the old value of a returning form goes to the source element, its response bringing the home's clocks (R66), or waits while
the command is saved (R185). -/
def State.applyUpdate (s : State) (u : Update) : State :=
  let n := nibBytes (nibbles (acwFmt u.op))
  let line := u.loc / 64
  let bad := isHbm u.loc && s.poison.contains line
  let s := if bad then
      { s with poison := s.poison.filter (· != line), mended := mdel s.mended line, mem := Memory.clear s.mem (64 * line) 64 }.updatePoison u
    else s
  let old := Memory.readNat s.mem u.loc n
  let s := { s with mem := Memory.writeN s.mem u.loc (bytesOfNat n (acwNew u.op old u.v)) }
  let s := match s.refCmd u.ref with
    | some (k, c) =>
      match s.catAddr k c u.addr with
      | some a => s.sample (coreDie k) (s.core k).funcOf a u.ix (acwFmt u.op) (acwNew u.op old u.v)
      | none => s
    | none => s
  let s := { s.modDie u.home fun d => { d with applied := clkMax d.applied u.stamp } with
    served := if isScratch u.loc && scratchCore u.loc != u.core then mset s.served (bankOf u.loc) u.core else s.served }
  let s := match s.refCmd u.ref with
    | some (k, c) => s.modCmd k c.id fun c => { c with hits := mset c.hits u.unit (mget c.hits u.unit 0 + 1) }
    | none => s.changeTeam u.ref.team fun t => t.keepHit u.ref u.unit
  match u.back with
  | none => { s with updates := s.updates.filter fun x => x.id != u.id }
  | some b =>
    match s.refCmd u.ref with
    | some (k, c) =>
      (({ s with updates := s.updates.filter fun x => x.id != u.id }).writeBack k c b n old).observe (coreDie k) u.home
    | none => { s with updates := s.updates.map fun x => if x.id = u.id then { x with st := .answered old } else x }

/-- An update is still to reach its home: on its way, or refused and not deterministic, so that none of its stream may pass it. -/
def Update.coming (u : Update) : Bool :=
  match u.st with
  | .flying => true
  | .retry _ => u.det.isNone
  | .held => false
  | .answered _ => false

/-- An update may reach its home now (R62, R66, R167). -/
def State.updateOk (s : State) (u : Update) : Bool :=
  let src := coreDie u.core
  !(s.updates.any fun o => o.id < u.id && o.ref.team == u.ref.team && o.ref.rank == u.ref.rank && o.ref.src == u.ref.src
      && o.unit == u.unit && o.coming) &&
  (u.home == src || (s.stampOkOf u.home src u.stamp && (u.det.isSome || !s.behindOf u.id src u.home)))

/-- The entries that a unit keeps for commands in flight and saved (R180). -/
def State.entriesAt (s : State) (unit : Nat) : Nat :=
  s.allTeams.foldl (fun n t => t.saves.foldl (fun n v => v.bf.cmds.foldl (fun n c => n + mget c.hits unit 0) n) n)
    (s.cores.foldl (fun n e => e.2.x.cmds.foldl (fun n c => n + mget c.hits unit 0) n) 0)

/-- A unit without a free entry has answered update u with retry: its engine retires the entries there of the elements of its command that
have been acknowledged (R180, log 50). -/
def State.retireHits (s : State) (u : Update) : State :=
  match s.refCmd u.ref with
  | some (k, c) => s.modCmd k c.id fun c => { c with hits := mdel c.hits u.unit }
  | none => s

/-- The entries that a unit has, as an MSU or a bank ALU (R180). -/
def unitCap (unit : Nat) : Nat := if unit < 2048 then 512 else 64

/-- An update to be sent again no earlier than 64 clk later (R174). -/
def State.retry (s : State) (id : Nat) : State :=
  { s with updates := s.updates.map fun u => if u.id = id then { u with st := .retry (s.clk + 64) } else u }

/-- R171: an element update reaches its home and is applied once. A unit whose entries are all kept answers with retry (R180). -/
def execAcwUpdateArrival (id : Nat) (s : State) : Host.Outcome State Fault Refusal :=
  match s.updates.find? fun u => u.id == id with
  | none => .next s
  | some u =>
    if u.plainFlying && s.updateOk u then
      .next (if unitCap u.unit ≤ s.entriesAt u.unit then (s.retry id).retireHits u else s.applyUpdate u)
    else .next s

/-! ### Deterministic rounds -/

/-- Key of a round at an MSU. -/
def roundKey (r m : Nat) : Nat := 4096 * r + m

/-- The round that MSU m has open: the first from the group's round on that is not closed there; fuel bounds the search. -/
def DetGroup.openAt (g : DetGroup) (m r : Nat) : Nat → Nat
  | 0 => r
  | n + 1 => if (mget? g.msus (roundKey r m)).any (·.closed) then DetGroup.openAt g m (r + 1) n else r

/-- The round of MSU m as it stands: at first contact dmask and the issuers are read from the record (R172). -/
def State.contact (s : State) (g : DetGroup) (r m : Nat) : MsuRound :=
  match mget? g.msus (roundKey r m) with
  | some x => x
  | none =>
    let gr := match s.hostRead g.func g.group 0x20 with
      | .error _ => none
      | .ok h =>
        match s.hostRead g.func g.group (0x20 + 4 * natOfBytes (h.take 1)) with
        | .error _ => none
        | .ok bs => parseGroup bs
    match gr with
    | some r => { dmask := r.dmask, issuers := r.issuers, x := r.issuers.map fun _ => 0 }
    | none => { issuers := [], x := [] }

/-- The lowest issuer index whose marker has not arrived, n if none (R174). -/
def MsuRound.lowest (x : MsuRound) : Nat :=
  ((upto x.issuers.length).find? fun i => !x.marked.contains i).getD x.issuers.length

/-- An issuer's index (R173). -/
def MsuRound.index (x : MsuRound) (w : Word) : Nat := x.issuers.findIdx (· == w)

/-- The held updates of a group's round at MSU m. -/
def State.heldAt (s : State) (g : DetGroup) (r m : Nat) : List Update :=
  s.updates.filter fun u => u.st == .held && u.unit == m && u.det.any fun d => d.func == g.func && d.group == g.group && d.round == r

/-- The held update that is applied next (R174): of the lowest issuer below j, the lowest ordinal; or that of j with ordinal x_j. -/
def nextHeld (x : MsuRound) (us : List Update) : Option Update :=
  let j := x.lowest
  let key (u : Update) : Nat × Nat := match u.det with
    | some d => (x.index d.issuer, d.ordinal)
    | none => (0, 0)
  let can := us.filter fun u => (key u).1 < j || ((key u).1 == j && (key u).2 == x.x.getD j 0)
  can.foldl (fun b u => match b with
    | none => some u
    | some v => if (key u).1 < (key v).1 || ((key u).1 == (key v).1 && (key u).2 < (key v).2) then some u else some v) none

/-- Apply an update of a round and count its issuer's ordinal (R174). -/
def State.applyDet (s : State) (x : MsuRound) (u : Update) : State × MsuRound :=
  match u.det with
  | none => (s, x)
  | some d => (s.applyUpdate u, { x with x := x.x.set (x.index d.issuer) (d.ordinal + 1) })

/-- Apply the held updates that can be, in order; fuel is their number (R174). -/
def State.drainHeld (s : State) (g : DetGroup) (r m : Nat) (x : MsuRound) : Nat → State × MsuRound
  | 0 => (s, x)
  | n + 1 =>
    match nextHeld x (s.heldAt g r m) with
    | none => (s, x)
    | some u => let (s, x) := s.applyDet x u; State.drainHeld s g r m x n

/-- Store the round of an MSU, closed once all markers are there and nothing is held (R174, R175). -/
def State.putRound (s : State) (f : Byte) (a : Dword) (r m : Nat) (x : MsuRound) : State :=
  let g := s.group f a
  let (s, x) := s.drainHeld g r m x 17
  let g := s.group f a
  let x := { x with closed := x.lowest == x.issuers.length && (s.heldAt g r m).isEmpty }
  s.setGroup { g with msus := mset g.msus (roundKey r m) x }

/-- R173, R174: a deterministic update reaches its MSU: applied, held, or answered with retry, also by an MSU whose entries are all kept
(R180). -/
def execDetUpdateArrival (id : Nat) (s : State) : Host.Outcome State Fault Refusal :=
  match s.updates.find? fun u => u.id == id with
  | none => .next s
  | some u =>
    match u.det with
    | none => .next s
    | some d =>
      if u.st != .flying || !s.updateOk u then .next s
      else
        let g := s.group d.func d.group
        let m := u.unit
        let r := g.openAt m g.round (g.msus.length + 1)
        let x := s.contact g r m
        if r < d.round then
          .next ((s.retry id).putRound d.func d.group r m { x with retries := x.retries + 1 })
        else if unitCap m ≤ s.entriesAt m then
          .next (((s.retry id).retireHits u).putRound d.func d.group r m { x with retries := x.retries + 1 })
        else
          let i := x.index d.issuer
          let j := x.lowest
          if i < j || (i == j && d.ordinal == x.x.getD j 0) then
            let (s, x) := s.applyDet x u
            .next (s.putRound d.func d.group r m x)
          else if !x.serial && ((s.updates.filter fun o => o.st == .held && o.unit == m).length < 16) then
            .next (({ s with updates := s.updates.map fun (o : Update) => if o.id = id then { o with st := .held } else o }).putRound
              d.func d.group r m x)
          else
            .next ((s.retry id).putRound d.func d.group r m { x with serial := true, retries := x.retries + 1 })

/-- R173 to R175: a round-close marker reaches an MSU whose open round is the marker's. -/
def execRoundCloseMarkerArrival (id : Nat) (s : State) : Host.Outcome State Fault Refusal :=
  match s.roundMarks.find? fun m => m.id == id with
  | none => .next s
  | some k =>
    let g := s.group k.func k.group
    if g.openAt k.msu g.round (g.msus.length + 1) != k.round then .next s
    else
      let x := s.contact g k.round k.msu
      let i := x.index k.issuer
      .next (({ s with roundMarks := s.roundMarks.filter fun m => m.id != id }).putRound k.func k.group k.round k.msu
        { x with marked := i :: x.marked })

/-- R174, R185: an update answered with retry is sent again once 64 clk have passed and its job is on a core that is not being
pre-empted. -/
def execDetRetryResend (id : Nat) (s : State) : Host.Outcome State Fault Refusal :=
  match s.updates.find? fun u => u.id == id with
  | none => .next s
  | some u =>
    match u.st with
    | .retry c =>
      if c ≤ s.clk && ((s.refCore u.ref).any fun k => (s.core k).preempt.isNone) then
        .next { s with updates := s.updates.map fun o => if o.id = id then { o with st := .flying } else o }
      else .next s
    | .flying => .next s
    | .held => .next s
    | .answered _ => .next s

/-- Add to a 4-byte counter of a group record, modulo 2^32 (R172, R175). -/
def State.bump (s : State) (f : Byte) (a : Dword) (o n : Nat) : State :=
  match s.hostRead f (a + BitVec.ofNat 64 o) 4 with
  | .error _ => s
  | .ok bs =>
    match s.hostWrite f (a + BitVec.ofNat 64 o) (bytesOfNat 4 (natOfBytes bs + n)) false with
    | .error _ => s
    | .ok t => t

/-- The MSUs of a die mask (R175). -/
def maskMsus (m : Byte) : List Nat := (upto 8).flatMap fun i => if maskHas m i then (upto 256).map fun j => 256 * i + j else []

/-- R175: the round has closed at every MSU of dmask: the record counts it, and the `xrcl` commands of the round have their round. Of a dmask
of 0, which R172 allows and which names no MSU, the round completes at the first `xrcl` (DESIGN CHOICE, log 100).
The group is named by its place in the list of groups. -/
def execRoundComplete (id : Nat) (s : State) : Host.Outcome State Fault Refusal :=
  match s.groups[id]? with
  | none => .next s
  | some g =>
    let at_ (m : Nat) := mget? g.msus (roundKey g.round m)
    let seen := g.msus.find? fun e => e.1 / 4096 == g.round
    let ms := maskMsus ((seen.map fun e => e.2.dmask).getD 0#8)
    let sent := s.roundMarks.any fun m => m.func == g.func && m.group == g.group && m.round == g.round
    if (g.waiting.any fun w => w.2 == g.round) && (seen.isSome || !sent) && (ms.all fun m => (at_ m).any (·.closed)) then
      let xs := ms.filterMap at_
      let s := s.bump g.func g.group 0x08 1
      let s := s.bump g.func g.group 0x0C (xs.filter (·.serial)).length
      let s := s.bump g.func g.group 0x10 (xs.foldl (fun n x => n + x.retries) 0)
      let s := (g.waiting.filter fun w => w.2 == g.round).foldl (fun s w =>
        match s.refCmd w.1 with
        | some (k, c) => s.modCmd k c.id fun c => { c with st := .performed }
        | none => s) s
      .next (s.setGroup { g with
        round := g.round + 1
        msus := g.msus.filter fun e => e.1 / 4096 != g.round
        waiting := g.waiting.filter fun w => w.2 != g.round })
    else .next s

/-- A round of the group is open (R175). -/
def DetGroup.isOpen (g : DetGroup) : Bool := g.msus.any fun e => e.1 / 4096 == g.round

/-- The suspended jobs, as team and rank, that were saved on one of some cores. -/
def State.savedOn (s : State) (cores : List Nat) : List (Nat × Nat) :=
  s.allTeams.flatMap fun t => (t.saves.filter fun v => cores.contains v.core).map fun v => (t.id, v.rank)

/-- Abort the open rounds that list an issuer of core k, whose job is hard-stopped (R175): held updates and those on their way go,
jobs with a command of the group in flight fault DET_ABORT, saved ones when they resume, and the jobs of the listed issuers may not send
in it again. -/
def State.abortRounds (s : State) (k : Nat) : State :=
  let f := (s.core k).funcOf
  let mine := [issuerWord k .queue, issuerWord k .xl, issuerWord k .xs]
  s.groups.foldl (fun s g =>
    let issuers := ((g.msus.find? fun e => e.1 / 4096 == g.round).map fun e => e.2.issuers).getD []
    if g.func != f || !g.isOpen || !(mine.any issuers.contains) then s
    else
      let inGroup (u : Update) := u.det.any fun d => d.func == g.func && d.group == g.group
      let cores := (issuers.map issuerCore).dedup.filter (· != k)
      let me := (s.core k).job.map fun j => (j.team, j.rank.toNat)
      let jobs := ((cores.filterMap fun i => (s.core i).job.map fun j => (j.team, j.rank.toNat)) ++ s.savedOn cores ++
        g.waiting.map (fun w => (w.1.team, w.1.rank)) ++ (s.updates.filter inGroup).map fun u => (u.ref.team, u.ref.rank)).filter
          fun j => some j != me
      let hit (i : Nat) := (s.core i).funcOf == f && (s.core i).x.cmds.any fun c => c.detGroup == some g.group
      let s' := { s with
        updates := s.updates.filter fun u => !inGroup u
        roundMarks := s.roundMarks.filter fun m => !(m.func == g.func && m.group == g.group) }
      let s' := s'.setGroup { g with round := g.round + 1, msus := [], waiting := [], ords := [], doomed := (g.doomed ++ jobs).dedup }
      (cores.filter hit).foldl (fun t i =>
        match (s.core i).x.cmds.find? fun c => c.detGroup == some g.group with
        | some c => t.jobFaultFree i cDET_ABORT c.src.faultStream c.pc
        | none => t) s') s

/-! ### Ranked combine -/

/-- A command stopped by a fault found at its home (R181). -/
def State.failCmd (s : State) (k : Nat) (c : Cmd) (cause : Byte) (addr : Dword) : State :=
  (s.modCmd k c.id fun x => { x with st := .failed, cause := cause, addr := addr }).after
    [.event (.commandFault (Fin.ofNat 1536 k) c.id)]

/-- The locations of n elements of an output row, or the failing cause with its address (R206). -/
def State.rowLocs (s : State) (k : Nat) (c : Cmd) (a : Dword) : Nat → Except (Byte × Dword) (List Nat) × State
  | 0 => (.ok [], s)
  | n + 1 =>
    match s.xLocate k c a 4 .write with
    | (.error e, t) => (.error (e, a), t)
    | (.ok l, t) =>
      match State.rowLocs t k c (a + 4#64) n with
      | (.error e, t) => (.error e, t)
      | (.ok ls, t) => (.ok (l :: ls), t)

/-- Bits 0 to n − 1. -/
def lowBits (n : Nat) : Nat := 2 ^ n - 1

/-- The sum of ranks 0 to n − 1 of element e, each step rounded, with its flags (R81, R177). -/
def combineStep (m : Memory) (loc d e : Nat) : Nat → Nat × Byte
  | 0 => (Memory.readNat m (loc + 0x40 + 4 * e) 4, 0#8)
  | k + 1 =>
    let (s, f) := combineStep m loc d e k
    let (x, g) := Val.add false (f32 s) (f32 (Memory.readNat m (loc + 0x40 + 4 * d * (k + 1) + 4 * e) 4))
    let (y, h) := rneF32 x
    (y, f ||| g ||| h)

/-- The sum of ranks 0 to n − 1 of element e (R177). -/
def combineSum (m : Memory) (loc d e n : Nat) : Nat := (combineStep m loc d e n).1

/-- A row may reach its MSU now (R66): from another die, once what its stamp depends on and what its die sent before it are applied. -/
def State.combineOk (s : State) (m : Combine) : Bool :=
  let src := coreDie m.core
  let home := homeDie m.loc
  home == src || (s.stampOkOf home src m.stamp && !s.behindOf m.id src home)

/-- R177: the atomic step of a `cmb` at the MSU of the entry's first line; the output row's locations are checked before anything
is written (R206); the sums set the flags of the command's stream (R81, R165). Reserved bytes of the entry are ignored (DESIGN CHOICE, log 92). The spec names no fate for an entry with nr or len out of range or one that runs past its 64 KiB page (R176), nor for a
poisoned line of it: the model faults CMB_RANK and POISON (DESIGN CHOICE, log 92). -/
def execCmbApply (id : Nat) (s : State) : Host.Outcome State Fault Refusal :=
  match s.combines.find? fun m => m.id == id with
  | none => .next s
  | some m =>
    let gone := { s with combines := s.combines.filter fun x => x.id != id }
    match s.refCmd m.ref with
    | none => .next gone
    | some (k, c) =>
      if !s.combineOk m then .next s
      else
        let d := m.row.length
        let s := gone.modDie (homeDie m.loc) fun x => { x with applied := clkMax x.applied m.stamp }
        let rd (o n : Nat) := Memory.readNat s.mem (m.loc + o) n
        let fill := rd 8 1
        let nr := rd 9 1
        let size := 0x40 + 4 * d * nr
        let fill' := fill + 2 ^ m.rank
        let last := fill' % 2 ^ nr == lowBits nr
        let fails (z : Byte) := Host.Outcome.next (s.failCmd k c z (setOf c.d).base)
        if s.poisoned m.loc 64 then fails cPOISON
        else if nr ≤ m.rank || rd 0xC 4 != d || 8 < nr || 4096 < d || 0x10000 < m.loc % 0x10000 + size then fails cCMB_RANK
        else if fill / 2 ^ m.rank % 2 = 1 then
          let dup := rd 0xA 2
          .next { s with mem := Memory.writeN s.mem (m.loc + 0xA) (bytesOfNat 2 (if dup = 65535 then dup else dup + 1)) }
        else if last && s.poisoned m.loc size then fails cPOISON
        else
          let (ls, s) := if last then s.rowLocs k c (BitVec.ofNat 64 (rd 0 8)) d else (.ok [], s)
          match ls with
          | .error (e, a) => .next (s.failCmd k c e a)
          | .ok ls =>
            let mem := Memory.writeN s.mem (m.loc + 0x40 + 4 * d * m.rank) (m.row.flatMap (bytesOfNat 4))
            let mem := Memory.writeN mem (m.loc + 8) (bytesOfNat 1 (if last then 0 else fill'))
            let s := { s with mem := mem }.mend (m.loc + 0x40 + 4 * d * m.rank) (wholeBytes (m.row.flatMap (bytesOfNat 4)))
            let s := ls.zipIdx.foldl (fun s x =>
              s.sample (coreDie k) (s.core k).funcOf (BitVec.ofNat 64 (rd 0 8 + 4 * x.2)) x.2 fFP32 (combineSum mem m.loc d x.2 (nr - 1))) s
            let s := s.setFlags k c.src.unit4 ((upto ls.length).foldl (fun f e => f ||| (combineStep mem m.loc d e (nr - 1)).2) 0#8)
            .next (ls.zipIdx.foldl (fun s (l, e) =>
              s.emit (c.src.writer k) (some c.id) l (wholeBytes (bytesOfNat 4 (combineSum mem m.loc d e (nr - 1))))) s)

end Sys2Proof.Machine
end

