-- ==== Sys2Proof/Machine/XEvents.lean ====
section
/-! DEFINITION. The events of transfer commands in flight: completion (R23, R159, R191), a transient error (R179), a fault of its own
accesses (R181), a peer's refusal (R201). -/

namespace Sys2Proof.Machine

/-- The wider of core scope and the command's own, at which its writes must be visible (R159). -/
def doneScope (sc : Scope) : Scope :=
  match sc with
  | .stream => .core
  | .core => .core
  | .die => .die
  | .package => .package
  | .fabric => .fabric

/-- Command c of core k is complete but for its own steps at completion (R159): all its accesses are done, its writes are visible,
its release can be performed (R64, R67). -/
def State.completable (s : State) (k : Nat) (c : Cmd) (x : XArgs) : Bool :=
  let sc := doneScope x.scope
  (c.st == .performed || c.st == .network) &&
  !s.writesHidden k c sc && !s.updatesHidden k c && (!x.rel || s.earlierSettled k c x.scope) &&
  (!x.rel || !(x.scope == .package || x.scope == .fabric) || s.mayRelease (coreDie k))

/-- The completion of command c (R23, R159, R191, R203): release, descriptor, tag, locks and record gone, token, waits. -/
def State.completeCmd (s : State) (k : Nat) (c : Cmd) (o : XOp) : State :=
  let x := o.x
  let s := if x.rel && (x.scope == .package || x.scope == .fabric) then s.release (coreDie k) else s
  let s := s.modCore k fun y =>
    let sets := match c.new with
      | some r => vset y.x.sets x.dst.toNat r
      | none => y.x.sets
    let y := { y with x := { y.x with sets := sets, cmds := y.x.cmds.filter fun e => e.id != c.id } }
    match c.src with
    | .queue => y
    | .xl => y.finish .xl c.id
    | .xs => y.finish .xs c.id
  let s := match o.kind with
    | .prefetch => s.tierMove k c true
    | .writeback => s.tierMove k c false
    | _ => s
  let s := if c.tagged then s else s.setTag k x.tag
  (s.progress k).wake k

/-- R159: a command completes; nothing while it cannot. For a network command this is first the peer's acknowledgement (R200, log 18),
with which an `xget` gets its data. -/
def execCommandComplete (k : CoreIx) (id : Nat) (s : State) : Host.Outcome State Fault Refusal :=
  match s.cmd? k.val id with
  | none => .next s
  | some c =>
    match xopOfWord c.word with
    | none => .next s
    | some o =>
      if c.st == .network && o.kind == .get then .next (s.got k.val c o)
      else if s.completable k.val c o.x then .next (s.completeCmd k.val c o) else .next s

/-- R179, R180: a transient error replays what is not acknowledged, with the generator state restored; its effects are those already
had, so only RPLC counts. -/
def execTransientReplay (k : CoreIx) (id : Nat) (s : State) : Host.Outcome State Fault Refusal :=
  match s.cmd? k.val id with
  | none => .next s
  | some _ =>
    .next (s.modCore k.val fun c =>
      { c with sys := { c.sys with rplcX := if c.sys.rplcX == BitVec.allOnes 32 then c.sys.rplcX else c.sys.rplcX + 1#32 } })

/-- A cause that ends in replay once it is resolved (R58, R181). -/
def resolvable (cause : Byte) : Bool := cause == cXLATE || cause == cPERM || cause == cSTAGE_ABSENT

/-- R181: a command that has met a fault posts it and waits, or faults the job. -/
def execCommandFault (k : CoreIx) (id : Nat) (s : State) : Host.Outcome State Fault Refusal :=
  match s.cmd? k.val id with
  | none => .next s
  | some c =>
    if c.st != .failed then .next s
    else if resolvable c.cause then
      let y := s.core k.val
      let stream := BitVec.ofNat 8 c.src.faultStream
      .next ((s.modCmd k.val id fun x => { x with st := .resolution }).postFault
        ⟨0#32, y.jobFunc, k.val, stream, y.jobTeam, y.jobRank, some (s.cmdRef k.val c), c.cause, c.addr, none⟩)
    else .next (s.jobFault k.val c.cause c.addr c.src.faultStream c.pc)

/-- R201: the peer refuses a network command; its cause and the address word stand in the fault record. -/
def execPeerRefusal (k : CoreIx) (id : Nat) (cause : Byte) (addr : Dword) (s : State) : Host.Outcome State Fault Refusal :=
  match s.cmd? k.val id with
  | none => .next s
  | some c =>
    if c.st != .network then .next s
    else
      .next ((s.jobFault k.val cNET_REFUSED addr c.src.faultStream c.pc).modCore k.val fun y =>
        { y with fault := y.fault.map fun f => if f.cause == cNET_REFUSED then { f with peer := cause } else f })

end Sys2Proof.Machine
end

