-- ==== Sys2Proof/Machine/CoreEvents.lean ====
section
/-! DEFINITION. The events of a core's engines and job: completion of a matrix or vector word (R19), the nest's next act with its
forced drain at a pre-emption (R277, R289, R290), no progress (R28), completion of a job (R22, R27, R182), a pre-emption request
(R153); and the running teams of a die (R30). -/

namespace Sys2Proof.Machine

/-! ### Teams -/

/-- The running team with a number on die d. -/
def State.team? (s : State) (d id : Nat) : Option Team := (s.die d).teams.find? fun t => t.id == id
/-- A running team changed. -/
def State.modTeam (s : State) (d id : Nat) (f : Team → Team) : State :=
  s.modDie d fun x => { x with teams := x.teams.map fun t => if t.id = id then f t else t }
/-- Core k runs a job of team id. -/
def State.runs (s : State) (id k : Nat) : Bool := (s.core k).job.any fun j => j.team == id
/-- No core runs a job of the team any more. -/
def State.settled (s : State) (t : Team) : Bool := t.cores.all fun k => !s.runs t.id k

/-- Request soft pre-emption of every core on which a team of die d still runs (R153). -/
def State.preemptTeam (s : State) (t : Team) (reason : Byte) : State :=
  s.after ((t.cores.filter fun k => s.runs t.id k).map fun k => .event (.softPreemptRequest (Fin.ofNat 1536 k) reason))

/-- What a team comes to once no core runs a job of it: suspended if images stand for some ranks and nothing stops it (R226), else
its work item completes (R27). -/
def State.settleTeam (s : State) (d id : Nat) : State :=
  match s.team? d id with
  | none => s
  | some t =>
    if !s.settled t then s
    else if t.saves.isEmpty || t.stop.isSome || !t.faults.isEmpty then s.after [.event (.workItemComplete (Fin.ofNat 8 d) id)]
    else
      let n := s.next
      let s := { s with next := n + 1 }
      s.modDie d fun x =>
        { x with
          teams := x.teams.filter fun o => o.id != id
          cands := x.cands ++ [{ id := n, kind := .suspended, team := t, since := s.dtime }] }

/-! ### Words and nests -/

/-- The oldest word in progress, other than `mgo`, rendezvous and notify. -/
def oldest (os : List Outst) : Option Nat := (os.find? fun o => !o.done && !o.own).map fun o => o.id

/-- R19: the oldest word in progress of M or V is complete. -/
def execWordComplete (k : CoreIx) (st : Stream) (s : State) : Host.Outcome State Fault Refusal :=
  let c := s.core k.val
  match st with
  | .m =>
    match oldest c.m.outst with
    | some i => .next ((s.modCore k.val fun c => c.finish .m i).progress k.val)
    | none =>
      match oldest c.mx.outst with
      | some i => .next ((s.modCore k.val fun c => c.finishNest i).progress k.val)
      | none => .next s
  | .v =>
    match oldest c.v.outst with
    | some i => .next ((s.modCore k.val fun c => c.finish .v i).progress k.val)
    | none => .next s
  | .q0 | .q1 | .q2 | .q3 | .xl | .xs => .next s

/-- The nest's next act: a word of its table, or a move between its words (R277). At a pre-emption it first clamps the pass (R289),
stands still where R289 lets it, and faults MDRAIN at a word that nothing can serve any more (R290). -/
def State.fetchNest (s : State) (k : CoreIx) : Fetched :=
  let c := s.core k.val
  let x := c.mx
  match x.active with
  | none => .done s
  | some t =>
    if !x.go || c.job.isNone || c.fault.isSome || x.phase == .done then .done s
    else if c.preempt.isSome && x.parked t then .done s
    else
      let s := if c.preempt.isSome && !x.between (tabPl t) && x.phase != .enter (tabPl t) then s.modMx k.val fun y => y.clamp t else s
      let x := (s.core k.val).mx
      let s := { s with cur := { k := k, q := c.curq, st := .m, nest := true } }
      match x.word t with
      | some w =>
        if c.preempt.isSome && c.drainStuck (tokOf w) then .done (s.engFaultFree cMDRAIN)
        else match decodeMatrix w with
          | .ok i => .run i s
          | .error _ => .run (.illstep w) s
      | none =>
        match s.nestMove k.val t with
        | .ok u => .done u
        | .error z => .done (match z.2 with
          | some i => s.engFault z.1 i
          | none => s.engFaultFree z.1)

/-! ### Job events -/

/-- The word at an engine stream's program counter. -/
def Core.nextWord (c : Core) (st : Stream) : Option Word := (vget c.code (streamIx st) [])[(c.eng st).pc.toNat]?

/-- A rendezvous at which some participant is still to arrive (R24). -/
def Core.rdvOpen (c : Core) (id : BitVec 2) : Bool := let r := vget c.rdv id.toNat {}; r.mask != r.arrived

/-- A block stream that is stalled in a state of R28: a tag wait, or a rendezvous that lacks an arrival. -/
def Core.blockStalled (c : Core) (b : Block) : Bool :=
  b.st == .waiting && !b.resol &&
  match decodeSeq b.wword with
  | .ok (.twany _ _ _) => true
  | .ok (.twall _ _ _) => true
  | .ok (.tffr _ _) => true
  | .ok (.rdv id _) => c.rdvOpen id
  | _ => false

/-- The token fields of a word of stream st name an empty FIFO to pop or a full one to reserve in, as they stand now (R28). -/
def Core.tokensStuck (c : Core) (st : Stream) (t : Tok) : Bool :=
  ((popFifo st t.pop).any fun i => (vget c.fifo i {}).count == 0) ||
  (pushFifo st t.push).any fun i => 8 ≤ (vget c.fifo i {}).count + (vget c.fifo i {}).reserved

/-- An engine stream that is stalled in a state of R28: a pop from an empty FIFO, a reservation in a full one, a rendezvous, a tag wait; with
no word in progress. -/
def Core.engStalled (c : Core) (st : Stream) : Bool :=
  let e := c.eng st
  (e.outst.all fun o => o.done || o.own) &&
  match e.st with
  | .rendezvous id _ => c.rdvOpen id
  | .running =>
    match c.nextWord st with
    | none => false
    | some w =>
      c.tokensStuck st (tokOf w) ||
      match decodeWord st.opMap w with
      | .ok (.xtw tag _) => !c.sys.tags.getLsbD tag.toNat
      | _ => false
  | .absent => false
  | .notify => false
  | .ended => false

/-- Stream i of the job is stalled in a state of R28. -/
def Core.stalledAt (c : Core) (i : Nat) : Bool :=
  if i < 4 then c.blockStalled (vget c.q i {}) else c.engStalled (streamOf i)

/-- The pc of stream i. -/
def Core.pcAt (c : Core) (i : Nat) : Word := if i < 4 then (vget c.q i {}).pc.setWidth 32 else (c.eng (streamOf i)).pc

/-- R28, R457: every stream ended, parked or stalled, at least one of them stalled, nothing in flight: the job faults, for the lowest
stalled stream. -/
def execNoProgress (k : CoreIx) (s : State) : Host.Outcome State Fault Refusal :=
  let c := s.core k.val
  match c.job with
  | none => .next s
  | some j =>
    let open_ := (upto 8).filter fun i => maskHas j.expect i && !maskHas j.done i
    if c.live && c.x.cmds.isEmpty && c.x.queue.isEmpty && !c.mx.go && c.mx.outst.isEmpty && open_.all c.stalledAt then
      match open_ with
      | [] => .next s
      | i :: _ => .next (s.jobFaultFree k.val cNO_PROGRESS i (c.pcAt i))
    else .next s

/-- A token is visible or reserved in some FIFO (R22). -/
def Core.tokensLeft (c : Core) : Bool := c.fifo.any fun f => f.count != 0 || f.reserved != 0

/-- The job on a core is over (R27): its done mask is complete and no command of it is left. -/
def Core.jobOver (c : Core) : Bool :=
  c.job.any (fun j => j.done == j.expect) && c.fault.isNone && c.x.cmds.isEmpty && c.x.queue.isEmpty

/-- The writes of core k that are on their way, by number. -/
def State.writesOf (s : State) (k : Nat) : List Nat := (s.writes.filter fun w => w.by_.core == k).map fun w => w.id

/-- R27: the done mask is complete and no command of the job is: the job is over on this core; tokens left are discarded (R22); with
the last core of its team, the work item completes. An internal item keeps which writes of it are still on their way (R447). -/
def execJobComplete (k : CoreIx) (s : State) : Host.Outcome State Fault Refusal :=
  let c := s.core k.val
  match c.job with
  | none => .next s
  | some j =>
    if c.jobOver then
      let d := coreDie k.val
      let s := s.modTeam d j.team fun t =>
        { t with
          done := k.val :: t.done, tokensLeft := t.tokensLeft || c.tokensLeft, fine := t.fine + c.meterJob
          trail := if t.plan.isSome then t.trail ++ s.writesOf k.val else t.trail }
      let s := s.setCore k.val
        { c with job := none, preempt := none, kept := none, last := some j.func, fifo := Vector.replicate 10 {} }
      .next ((s.unstop k.val).settleTeam d j.team)
    else .next s

/-- A `spillm` or `fillm`. -/
def isRun (w : Word) : Bool :=
  match decodeSeq w with
  | .ok (.spillm _ _ _) => true
  | .ok (.fillm _ _ _) => true
  | _ => false

/-- A block stream whose run of registers is under way stops at the register in progress: TRPROG has its progress, TRPC its address
(R153). -/
def Block.stopRun (b : Block) (code : List Word) : Block :=
  if b.busy && ((code[b.pc.toNat]?).map isRun).getD false then { b with busy := false, trpc := b.pc.setWidth 32 } else b

/-- R153: from now on no stream of the core issues, and its queue starts nothing. -/
def execSoftPreemptRequest (k : CoreIx) (reason : Byte) (s : State) : Host.Outcome State Fault Refusal :=
  let c := s.core k.val
  if c.live then
    .next (s.setCore k.val { c with
      preempt := some { reason := reason, since := s.dtime }
      q := Vector.ofFn fun i => c.q[i.val].stopRun (vget c.code i.val []) })
  else .next s

end Sys2Proof.Machine
end

