-- ==== Sys2Proof/Machine/SaveImage.lean ====
section
/-! DEFINITION. The layout of a save image (R257): its header, the sequencer, transfer, matrix and vector regions (R157, R187, R294,
R335, R362), accumulator memory and own scratchpad, as cells by offset; and what a core becomes when an image is restored (R37, R158,
R291, R362). -/

namespace Sys2Proof.Machine

/-- Bytes with zeros behind them up to n. -/
def padTo (n : Nat) (bs : List Byte) : List Byte := bs ++ zeroBytes (n - bs.length)

/-- Size of a save image (R257). -/
def imageSize : Nat := 0x280000

/-! ### Sequencer region -/

/-- The state code of a block stream (R157); one waiting on resolution is ready (R153), in the snapshot of a hard stop too, for which the
spec names no code (DESIGN CHOICE, log 95). -/
def Block.code (b : Block) : Nat :=
  match b.st with
  | .absent => 0
  | .ready => 1
  | .waiting => if b.resol then 1 else 2
  | .parked => 3
  | .ended => 4

/-- The record of a block stream (R157), 0x140 bytes; the volatile range as zero in a soft save (R102). -/
def Block.record (b : Block) (soft : Bool) (vlo vhi : Nat) : List Byte :=
  let wait := b.code = 2
  let g (i : Nat) : Dword := if soft && vlo ≤ i && i ≤ vhi && vlo != 0 then 0#64 else vget b.g i 0#64
  padTo 0x140 (bytesOfNat 4 (b.pc.toNat % 2 ^ 32) ++ [BitVec.ofNat 8 b.code, (b.p &&& 0xFE#8) ||| 1#8, BitVec.ofNat 8 b.hnd.toNat, 0#8]
    ++ bytesOfNat 4 (if wait then b.wword.toNat else 0) ++ zeroBytes 4
    ++ bytesOfNat 8 (if wait then b.wmask.toNat else 0)
    ++ bytesOfNat 8 b.trvec.toNat ++ bytesOfNat 8 (zext (BitVec.ofBool b.hnd ++ b.trsub ++ b.trcause)).toNat
    ++ bytesOfNat 8 b.trpc.toNat ++ bytesOfNat 8 b.trinfo.toNat ++ bytesOfNat 8 b.trprog.toNat
    ++ (upto 31).flatMap fun i => bytesOfNat 8 (g (i + 1)).toNat)

/-- The sequencer region (R157), 0x600 bytes. -/
def Core.seqRegion (c : Core) (kind : Nat) : List Byte :=
  let y := c.sys
  bytesOfNat 4 1 ++ [BitVec.ofNat 8 kind, c.done, y.expect, 0#8] ++ bytesOfNat 8 y.seed.toNat
    ++ y.gen.toList.flatMap (fun g => bytesOfNat 8 g.toNat) ++ bytesOfNat 8 y.tags.toNat ++ y.flg.toList ++ zeroBytes 4
    ++ bytesOfNat 8 y.lodc.toNat ++ bytesOfNat 8 (y.rplcX ++ y.rplcM).toNat
    ++ c.fifo.toList.map (fun f => BitVec.ofNat 8 (f.count + 16 * f.reserved)) ++ zeroBytes 6
    ++ c.rdv.toList.flatMap (fun r => [r.mask, r.arrived, 0#8, 0#8]) ++ zeroBytes 16
    ++ y.bfmt.toList.flatMap (fun b => bytesOfNat 4 b.toNat)
    ++ c.q.toList.flatMap fun b => b.record (kind == 0) y.vlo.toNat y.vhi.toNat

/-! ### Transfer region -/

/-- The state code of an engine stream in a region: 0 absent, 1 running, 2 ended (R187, R294, R362). -/
def Eng.code (e : Eng) : Nat :=
  match e.st with
  | .absent => 0
  | .ended => 2
  | .running => 1
  | .rendezvous _ _ => 1
  | .notify => 1

/-- The record of a command (R187), 128 bytes, saved in a state. -/
def Cmd.record (c : Cmd) (st : Nat) : List Byte :=
  let base (r : BitVec 1024) := bytesOfNat 8 (r.extractLsb' 0 64).toNat
  padTo 128 (bytesOfNat 4 c.word.toNat ++ [BitVec.ofNat 8 c.src.code, BitVec.ofNat 8 st, if st = 1 then c.cause else 0#8, 0#8]
    ++ bytesOfNat 4 c.progress ++ zeroBytes 4 ++ bytesOfNat 8 c.seq.toNat ++ bytesOfNat 8 c.operand.toNat
    ++ bytesOfNat 8 (if st = 1 then c.addr.toNat else 0) ++ bytesOfNat 8 c.gen.toNat ++ base c.s ++ base c.d ++ base c.p)

/-- The transfer region (R187), 0x2240 bytes, with the commands to save and their states. Of the 16 bytes of a queue entry, for which R187
gives the order word, operand, the word takes the first 4 and the operand the last 8, the rest zero (DESIGN CHOICE, log 103). -/
def Core.xferRegion (c : Core) (saved : List (Cmd × Nat)) : List Byte :=
  let x := c.x
  padTo 0x40 (bytesOfNat 4 1 ++ bytesOfNat 4 c.xl.pc.toNat ++ bytesOfNat 4 c.xs.pc.toNat
    ++ [BitVec.ofNat 8 c.xl.code, BitVec.ofNat 8 c.xs.code, BitVec.ofNat 8 x.queue.length, BitVec.ofNat 8 saved.length]
    ++ x.seq.toList.flatMap fun v => bytesOfNat 8 v.toNat)
    ++ x.sets.toList.flatMap (fun r => bytesOfNat 128 r.toNat)
    ++ padTo 0x200 (x.queue.flatMap fun e => padTo 16 (bytesOfNat 4 e.word.toNat ++ zeroBytes 4 ++ bytesOfNat 8 e.operand.toNat))
    ++ padTo 0x1800 (saved.flatMap fun e => e.1.record e.2)

/-! ### Matrix region -/

/-- The phase code of a nest (R294). -/
def Matrix.phaseCode (x : Matrix) (t : Raw) : Nat :=
  if x.cutShort t then 0
  else match x.phase with
    | .prologue => 0
    | .body => 1
    | .epilogue => 2
    | .enter l => if l < tabPl t then 1 else 3
    | .advance l => if l ≤ tabPl t then 1 else 3
    | .done => 3

/-- n_pl as saved (R291, R294): that of a pass cut short is where its body goes on; between passes, 0 says that the next pass has begun
nothing yet (log 99). -/
def Matrix.savedTrip (x : Matrix) (t : Raw) : Nat :=
  if x.cutShort t then x.from_ else if x.atPass t then 0 else vget x.n (tabPl t) 0

/-- The matrix region (R294, R335) as cells by offset in the region. -/
def Core.matrixRegion (c : Core) (kind : Nat) : List (Nat × List Byte) :=
  let x := c.mx
  let t := x.active.getD []
  let cut := x.go && x.cutShort t
  let pl := tabPl t
  let n (l : Nat) := if l = pl then x.savedTrip t else vget x.n l 0
  let nstate := if !x.go then 0 else if cut then 2 else 1
  let cnt (l : Nat) := vget x.c l 0
  let spill (i : Nat) : Dword := let r := vget x.tree i {}; r.spill
  [(0, bytesOfNat 4 1 ++ [BitVec.ofNat 8 kind, BitVec.ofNat 8 c.m.code, BitVec.ofNat 8 nstate, BitVec.ofNat 8 x.shadow.isSome.toNat]
      ++ bytesOfNat 4 c.m.pc.toNat ++ zeroBytes 4 ++ (upto 6).flatMap (fun l => bytesOfNat 4 (cnt l))
      ++ (upto 6).flatMap (fun l => bytesOfNat 4 (n l))
      ++ [BitVec.ofNat 8 (if x.go then x.phaseCode t else 0), BitVec.ofNat 8 x.slot]),
   (0x100, padTo 0x280 (t.take 0x280)),
   (0x380, padTo 0x280 ((x.shadow.getD []).take 0x280)),
   (0x600, (upto 16).flatMap fun i =>
      let r := vget x.tree i {}
      padTo 32 ([BitVec.ofNat 8 r.active.toNat, BitVec.ofNat 8 r.depth, BitVec.ofNat 8 r.slot0.toNat, 0#8]
        ++ bytesOfNat 4 r.next ++ bytesOfNat 4 r.n ++ zeroBytes 4 ++ bytesOfNat 8 (spill i).toNat)),
   (0x800, (upto 16).flatMap fun i =>
      let r := vget x.side i {}
      padTo 0x100 (padTo 0x40 [BitVec.ofNat 8 r.kind] ++ r.er.toList ++ r.ec.toList)),
   (0x1800, if x.go then x.bf.toList.flatMap fun b => bytesOfNat 4 b.toNat else []),
   (0x2000, (vget x.oa 0 {}).bytes),
   (0xC000, (vget x.oa 1 {}).bytes)]

/-! ### Vector region -/

/-- The vector region (R362) as cells by offset in the region. -/
def Core.vectorRegion (c : Core) (kind : Nat) : List (Nat × List Byte) :=
  let x := c.vx
  let port (i : Nat) : List Byte :=
    match vget x.ports i none with
    | none => padTo 32 [0xFF#8]
    | some p =>
      let base := (setOf (vget x.sets p.set 0#1024)).base
      padTo 32 ([BitVec.ofNat 8 p.set, 0#8, 0#8, 0#8] ++ bytesOfNat 4 p.pos ++ bytesOfNat 4 (bankAt p.bf base).toNat)
  [(0, bytesOfNat 4 1 ++ [BitVec.ofNat 8 kind, BitVec.ofNat 8 c.v.code, 0#8, 0#8] ++ bytesOfNat 4 c.v.pc.toNat ++ bytesOfNat 4 x.shape.toNat),
   (0x40, x.masks.toList.flatMap fun m => bytesOfNat 128 m.toNat),
   (0x240, x.sets.toList.flatMap fun r => bytesOfNat 128 r.toNat),
   (0x640, (upto 6).flatMap port)]
  ++ x.regs.map fun e => (0x1000 + 4 * e.1, bytesOfNat 4 e.2)

/-! ### The image -/

/-- The header (R257), its valid word zero. -/
def State.imageHeader (s : State) (k kind : Nat) (reason : Byte) : List Byte :=
  let c := s.core k
  let j := c.job.getD {}
  padTo 0x40 (zeroBytes 8 ++ bytesOfNat 4 1 ++ [BitVec.ofNat 8 kind, reason, j.func, 0#8] ++ bytesOfNat 4 (s.coord k).toNat
    ++ bytesOfNat 4 (c.sys.team.extractLsb' 0 32).toNat ++ bytesOfNat 8 (pJ c.meterJob)
    ++ bytesOfNat 8 (match c.preempt with
      | some p => p.since
      | none => s.dtime)
    ++ bytesOfNat 4 j.wid.toNat ++ bytesOfNat 2 j.queue.toNat)

/-- Cells of pieces laid at an offset. -/
def layPieces (o : Nat) (ps : List (Nat × List Byte)) : Memory := ps.flatMap fun p => Memory.cellsOf (o + p.1) p.2

/-- Cells of memory moved to an offset. -/
def moveCells (cs : Memory) (src dst : Nat) : Memory := cs.map fun c => (c.1 - src + dst, c.2)

/-- The image of core k (R257) as cells by offset. -/
def State.image (s : State) (k kind : Nat) (reason : Byte) (saved : List (Cmd × Nat)) : Memory :=
  let c := s.core k
  Memory.cellsOf 0 (s.imageHeader k kind reason) ++ Memory.cellsOf 0x40 (c.seqRegion kind)
    ++ Memory.cellsOf 0x640 (c.xferRegion saved) ++ layPieces 0x4000 (c.matrixRegion kind)
    ++ moveCells (Memory.slice s.mem (accLoc k) 0x40000) (accLoc k) 0x24000
    ++ layPieces 0x64000 (c.vectorRegion kind)
    ++ moveCells (Memory.slice s.mem (scratchLoc k) 0x200000) (scratchLoc k) 0x80000

/-! ### The save area -/

/-- Address of slot i of function f (R258). -/
def State.slotAddr (s : State) (f : Byte) (i : Nat) : Dword := (s.func f).save + BitVec.ofNat 64 (0x10000 + imageSize * i)

/-- The locations of n 64 KiB pages from a, each checked as the part's access (R52, R258), or the failing cause and address. -/
def State.partPages (s : State) (f : Byte) (a : Dword) (acc : Access) : Nat → Except (Byte × Dword) (List Nat)
  | 0 => .ok []
  | n + 1 =>
    match s.hostCheck f a acc true with
    | .error e => .error (e, a)
    | .ok l => (State.partPages s f (a + 0x10000#64) acc n).map fun t => l :: t

/-- The pages of slot i of function f, for an access. -/
def State.slotPages (s : State) (f : Byte) (i : Nat) (acc : Access) : Except (Byte × Dword) (List Nat) :=
  s.partPages f (s.slotAddr f i) acc 40

/-- Slot i's state in the slot map: 0 free, 1 in use, 2 dead (R258). -/
def State.slotState (s : State) (f : Byte) (i : Nat) : Option Nat :=
  match s.hostRead f ((s.func f).save + BitVec.ofNat 64 i) 1 with
  | .ok bs => some (natOfBytes bs)
  | .error _ => none

/-- Slot i's state written; nothing where the map cannot be written. -/
def State.setSlot (s : State) (f : Byte) (i v : Nat) : State :=
  match s.hostWrite f ((s.func f).save + BitVec.ofNat 64 i) [BitVec.ofNat 8 v] true with
  | .ok t => t
  | .error _ => s

/-- The slot that a save takes: the lowest free one, else the lowest dead one (R258). -/
def State.takeSlot (s : State) (f : Byte) : Option Nat :=
  let all := upto (min (s.func f).nslots 65536)
  match all.find? fun i => s.slotState f i == some 0 with
  | some i => some i
  | none => all.find? fun i => s.slotState f i == some 2

/-- Slots in use (R258). -/
def State.slotsUsed (s : State) (f : Byte) : Nat :=
  ((upto (min (s.func f).nslots 65536)).filter fun i => s.slotState f i == some 1).length

/-- The image in the pages of a slot. -/
def putImage (m : Memory) (pages : List Nat) (img : Memory) : Memory :=
  pages.zipIdx.foldl (fun m p =>
    Memory.put (Memory.clear m p.1 0x10000) (moveCells (Memory.slice img (0x10000 * p.2) 0x10000) (0x10000 * p.2) p.1)) m

/-- The image read back from the pages of a slot. -/
def getImage (m : Memory) (pages : List Nat) : Memory :=
  pages.zipIdx.flatMap fun p => moveCells (Memory.slice m p.1 0x10000) p.1 (0x10000 * p.2)

/-- The event of a failed ownership check of the part's access (R58). -/
def State.slotEvent (s : State) (k : Nat) (f cause : Byte) (a : Dword) : State :=
  if cause == cOWNER then s.ownerEvent f (s.coord k) a (s.walkPa f a.toNat) else s

/-- Write the image of core k into a slot: the slot's valid word cleared first, its save count, which a poisoned line does not give (R57), raised,
valid last (R257, R258). Every line of its pages is written whole (R391). The slot and the state, or the cause and address of the failure. -/
def State.writeImage (s : State) (k kind : Nat) (reason : Byte) (saved : List (Cmd × Nat)) (mark : Nat) :
    Except (Byte × Dword) (Nat × State) :=
  let f := (s.core k).jobFunc
  match s.takeSlot f with
  | none => .error (0#8, (s.func f).save)
  | some i =>
    match s.slotPages f i .write with
    | .error e => .error e
    | .ok pages =>
      let first := pages.getD 0 0
      if s.poisoned first 8 then .error (cPOISON, s.slotAddr f i)
      else
      let count := (Memory.readNat s.mem (first + 4) 4 + 1) % 2 ^ 32
      let img := s.image k kind reason saved
      let mem := Memory.writeN (putImage s.mem pages img) first (bytesOfNat 4 1 ++ bytesOfNat 4 count)
      .ok (i, { s with mem := mem, poison := s.poison.filter fun l => !pages.contains (64 * l / 0x10000 * 0x10000) }.setSlot f i mark)

/-- Charge the bytes of an image on core k to its function and its item, not to the job value; at the factor of core `at_`, which was saved
(R262, R337). -/
def State.imageCharge (s : State) (k at_ : Nat) : State :=
  let x := imageSize * s.rate 1 7 0xF * s.calib at_
  let c := s.core k
  match c.job with
  | none => s
  | some j =>
    ((s.setCore k { c with meterFunc := c.meterFunc + x }).account j.func x).modTeam (coreDie k) j.team fun t => { t with fine := t.fine + x }

end Sys2Proof.Machine
end

