-- ==== Sys2Proof/Machine/SaveEvents.lean ====
section
/-! DEFINITION. Soft pre-emption to its end (R153, R185, R257), hard stops (R155), scrubs (R254, R259), the restore of a saved job
(R37, R158, R291, R362), and answers to fault-queue entries (R149, R150, R181, R182). -/

namespace Sys2Proof.Machine

/-- SAVE_AREA, ESCALATED and FLR (R256). -/
def cESCALATED : Byte := 0x53#8
def cSAVE_AREA : Byte := 0x54#8
def cFLR : Byte := 0x55#8

/-! ### The boundary -/

/-- t_acc in ns, rounded up (R61, R185). -/
def tAccNs : Nat := 3724

/-- An update on its way that will reach its home: none of its stream before it has been refused there (R62). -/
def State.landing (s : State) (u : Update) : Bool :=
  u.st == .flying && !(s.updates.any fun o => o.id < u.id && o.ref.team == u.ref.team && o.ref.rank == u.ref.rank && o.ref.src == u.ref.src
    && o.unit == u.unit && o.st != .flying && o.coming)

/-- The state in which command c of core k is saved (R185), given that every earlier command is; none while it still runs. A command
that only waits for earlier saved ones is saved like a refused one. Updates on their way reach their homes first, so that the image has
what they do to the own scratchpad. -/
def State.cmdSave (s : State) (k since : Nat) (earlier : List (Cmd × Nat)) (c : Cmd) : Option Nat :=
  let r := s.cmdRef k c
  let own := s.updates.filter fun u => u.ref == r
  let landing := own.any s.landing
  let blocked := earlier.any fun e => e.1.src == c.src
  match c.st with
  | .resolution => if landing then none else some 1
  | .round => some 3
  | .network => if since + tAccNs ≤ s.dtime then some 4 else none
  | .issued => if blocked && s.performBlocked k c then some 2 else none
  | .failed => none
  | .performed =>
    if landing || s.combines.any (fun m => m.ref == r) then none
    else if own.any fun u => u.st != .held then some 2
    else if !own.isEmpty then some 3
    else none

/-- The commands to save with their states, in order; none while one still runs. -/
def State.cmdsSave (s : State) (k since : Nat) (done : List (Cmd × Nat)) : List Cmd → Option (List (Cmd × Nat))
  | [] => some done
  | c :: t =>
    match s.cmdSave k since done c with
    | none => none
    | some x => State.cmdsSave s k since (done ++ [(c, x)]) t

/-- What core k saves once it is at its boundary (R153, R185, R289, R360): no store on its way, no command running, no fence or `rdv`
waiting that has issued, no word in progress, the nest standing still. -/
def State.boundary (s : State) (k : Nat) : Option (Preempt × List (Cmd × Nat)) :=
  let c := s.core k
  let nestOk := !c.mx.go || (match c.mx.active with
    | some t => c.mx.parked t && c.mx.phase != .done
    | none => false)
  let idle (os : List Outst) := os.all fun o => o.done || o.own
  match c.preempt with
  | none => none
  | some p =>
    if c.job.isSome && c.fault.isNone && !(s.writes.any fun w => w.by_.core == k) && c.q.all (fun b => !b.busy) && idle c.m.outst && idle c.v.outst &&
        c.mx.outst.isEmpty && nestOk
    then (s.cmdsSave k p.since [] c.x.cmds).map fun cs => (p, cs)
    else none

/-- An engine stream at a notify, or at a rendezvous at which it has not arrived, takes its word back: it issues again at the resume
(R37), so its token is returned and its reservation ends. -/
def Core.unissue (c : Core) (st : Stream) : Core :=
  let e := c.eng st
  let back := match e.st with
    | .notify => true
    | .rendezvous id _ => !maskHas (vget c.rdv id.toNat {}).arrived (streamIx st)
    | .absent => false
    | .running => false
    | .ended => false
  match back, c.nextWord st with
  | true, some w =>
    let f := match popFifo st (tokOf w).pop with
      | none => c.fifo
      | some i => let x := vget c.fifo i {}; vset c.fifo i { x with count := x.count + 1 }
    let f := match pushFifo st (tokOf w).push with
      | none => f
      | some i => let x := vget f i {}; vset f i { x with reserved := x.reserved - 1 }
    { c with fifo := f }.modEng st fun e => { e with st := .running, outst := e.outst.dropLast }
  | _, _ => c

/-- The core as it is saved: words that have had no effect taken back, run-ahead dropped (R350). -/
def Core.quiesce (c : Core) : Core :=
  let c := (((c.unissue .xl).unissue .m).unissue .v).unissue .xs
  { c with vx := c.vx.dropAhead }

/-- The nest save record of core k (R295), if a nest is active and its table names one. -/
def State.nestRecord (s : State) (k : Nat) (reason : Byte) : State :=
  let x := (s.core k).mx
  match x.active with
  | none => s
  | some t =>
    let a := tabNsave t
    if !x.go || a == 0#64 then s
    else
      let n := x.savedTrip t
      let c (l : Nat) := vget x.c l 0
      let bs := padTo 64 (bytesOfNat 4 1 ++ bytesOfNat 4 n ++ (upto 6).flatMap (fun l => bytesOfNat 4 (c l)) ++ [reason, 1#8])
      { s with mem := Memory.writeN s.mem (scratchLoc k + (a.extractLsb' 0 21).toNat) bs }

/-! ### Leaving a core -/

/-- Core k without its job. -/
def Core.vacate (c : Core) (f : Byte) (kept : Option (Nat × Nat)) : Core :=
  { c with job := none, preempt := none, fault := none, last := some f, kept := kept }

/-- What core c has sampled or reported and a save with the commands cs must keep (R46, R180, R390). -/
def Core.sampledFormats (c : Core) (cs : List (Cmd × Nat)) : Sampled where
  cmds := cs.map fun e => ⟨e.1.src, e.1.seq, e.1.bf, e.1.lines, e.1.hits⟩
  queue := c.x.queue.map fun e => e.bf
  ports := c.vx.ports.toList.map fun p => p.map fun y => (y.bf, y.far)

/-- R153, R257, R258: the core is at its boundary: its image is written, valid last, and the core is free; if no image can be written
the job faults SAVE_AREA (R258). -/
def execSaveComplete (k : CoreIx) (s : State) : Host.Outcome State Fault Refusal :=
  let c := s.core k.val
  match s.boundary k.val, c.job with
  | some (p, cs), some j =>
    let q := (s.nestRecord k.val p.reason).modCore k.val Core.quiesce
    match q.writeImage k.val 0 p.reason cs 1 with
    | .error (z, a) => .next (((if z = 0#8 then s else s.slotEvent k.val j.func z a)).jobFaultFree k.val cSAVE_AREA 0xFF 0#32)
    | .ok (slot, q) =>
      let q := q.imageCharge k.val k.val
      let q := q.modTeam (coreDie k.val) j.team fun t =>
        { t with saves := t.saves ++ [⟨j.rank.toNat, slot, k.val, (q.core k.val).meterJob, (q.core k.val).sampledFormats cs, none⟩] }
      let q := q.modCore k.val fun c => { c.vacate j.func (some (j.team, j.rank.toNat)) with x := { c.x with queue := [], cmds := [] } }
      .next ((q.unstop k.val).settleTeam (coreDie k.val) j.team)
  | _, _ => .next s

/-- The snapshot of core k with the slot it took (R155, R258): none after SAVE_AREA on it, none when an FLR meets its soft save (R259); its slot is dead at
once, since a snapshot is never resumed. -/
def State.snapshot (s : State) (k : Nat) : Option Nat × State :=
  let c := s.core k
  let flr := (s.func c.jobFunc).state == 3#8 && c.preempt.isSome
  if (c.fault.any fun f => f.cause == cSAVE_AREA) || flr then (none, s)
  else match s.writeImage k 1 5#8 [] 2 with
    | .error _ => (none, s)
    | .ok (i, t) => (some i, t.imageCharge k k)

/-- Updates, combines and round markers that the job of core k still has under way, and its waits for rounds, go; so do its faults
that have no entry yet (R185, R149). -/
def State.abandon (s : State) (k : Nat) : State :=
  match (s.core k).job with
  | none => s
  | some j =>
    let mine (r : CmdRef) := r.team == j.team && r.rank == j.rank.toNat
    let words := [issuerWord k .queue, issuerWord k .xl, issuerWord k .xs]
    let s := s.abortRounds k
    { s with
      updates := s.updates.filter fun u => !mine u.ref
      combines := s.combines.filter fun m => !mine m.ref
      roundMarks := s.roundMarks.filter fun m => !(m.func == j.func && words.contains m.issuer)
      groups := s.groups.map fun (g : DetGroup) => { g with waiting := g.waiting.filter fun w => !mine w.1 } }.modDie (coreDie k) fun d =>
        { d with fqWait := d.fqWait.filter fun e => !(e.team == j.team && e.rank == j.rank.toNat) }

/-- The job on core k ends where it stands (R155): the words of M and V in progress abandoned (R293, R335, R361), the snapshot, commands
abandoned, the fault kept for the item's record. -/
def State.hardStop (s : State) (k : Nat) : State :=
  let c := s.core k
  match c.job with
  | none => s
  | some j =>
    let d := coreDie k
    let t := (((s.abandonM k).abandonV k).snapshot k).2.abandon k
    let t := t.modTeam d j.team fun t =>
      { t with
        fine := t.fine + c.meterJob
        tokensLeft := t.tokensLeft || c.tokensLeft
        faults := t.faults ++ (match c.fault with
          | some f => [(k, f)]
          | none => []) }
    let t := t.modCore k fun c => { c.vacate j.func none with x := { c.x with queue := [], cmds := [] } }
    (t.unstop k).settleTeam d j.team

/-- R155. -/
def execHardStop (k : CoreIx) (s : State) : Host.Outcome State Fault Refusal := .next (s.hardStop k.val)

/-! ### Scrubs -/

/-- The scrub of a core (R254, R259): scratchpad, accumulator memory with kinds and exponents, vector registers and masks, orthogonal
accumulators, general registers and predicates, TAGS, FIFOs and TLB. -/
def State.scrubCore (s : State) (k : Nat) : State :=
  { s with mem := Memory.clear (Memory.clear s.mem (scratchLoc k) 0x200000) (accLoc k) 0x40000 }.modCore k fun c =>
    { c with
      q := c.q.map fun (b : Block) => { b with g := Vector.replicate 32 0#64, p := 0#8 }
      sys := { c.sys with tags := 0#64, tagsNew := 0#64, tagsHid := 0#64 }
      fifo := Vector.replicate 10 {}
      mx := { c.mx with side := Vector.replicate 16 { er := Vector.replicate 64 0#8, ec := Vector.replicate 64 0#8 }, oa := Vector.replicate 2 {} }
      vx := { c.vx with regs := [], masks := Vector.replicate 4 0#1024 }
      tlb := [], kept := none }

/-- Before core k runs a job of function f it is scrubbed if its last job was another function's, or it has had none (R254); its meter
starts for f (R262). The scrub is charged to the commons account, by an amount that the spec does not give (log 21). -/
def State.readyCore (s : State) (k : Nat) (f : Byte) : State :=
  if (s.core k).last == some f then s
  else
    ({ s with commons := s.commons + Config.scrub s.fresh, fresh := s.fresh + 1 }.scrubCore k).modCore k fun c =>
      { c with meterFunc := 0, last := some f }

/-! ### Answers to fault-queue entries -/

/-- Drop the cached translations of function f that a condition names, at every core (R54). -/
def State.tlbDrop (s : State) (f : Byte) (hit : TlbEntry → Bool) : State :=
  { s with cores := s.cores.map fun e => (e.1, { e.2 with tlb := e.2.tlb.filter fun x => !(x.func == f && hit x) }) }

/-- A non-returning accumulate-on-write. -/
def Cmd.isPlainAcw (c : Cmd) : Bool :=
  match xopOfWord c.word with
  | some ⟨.acw _ ret _, _, _⟩ => !ret
  | _ => false

/-- The next word of a stream is its notify. -/
def Core.atNotify (c : Core) (st : Stream) : Bool :=
  match c.nextWord st with
  | none => false
  | some w =>
    match decodeWord st.opMap w with
    | .ok (.xnfy _) => true
    | _ => false

/-- Every stream of the job on the core but the command's own has ended, and its own has reached its notify or ended (R182); at a resume
the notify stands before it again (R37). -/
def Core.othersEnded (c : Core) (src : XSrc) : Bool :=
  let own : Byte := match src with
    | .queue => 0#8
    | .xl => maskOf 4
    | .xs => maskOf 7
  let reached (e : Eng) (st : Stream) : Bool := e.st == .notify || e.st == .ended || (e.st == .running && c.atNotify st)
  c.done ||| own == c.expect ||| own &&
  match src with
  | .queue => true
  | .xl => reached c.xl .xl
  | .xs => reached c.xs .xs

/-- An aborted update whose job has otherwise ended is dropped; the job will complete DEFERRED_FAULT (R182). -/
def State.dropCmd (s : State) (k : Nat) (c : Cmd) : State :=
  let s := s.modTeam (coreDie k) (s.core k).jobTeam fun t =>
    if t.deferred.isSome then t
    else { t with deferred := some c.addr, dcause := c.cause, dcore := k, dstream := BitVec.ofNat 8 c.src.faultStream }
  let s := s.modCore k fun y =>
    let y := { y with x := { y.x with cmds := y.x.cmds.filter fun e => e.id != c.id } }
    match c.src with
    | .queue => y
    | .xl => y.finish .xl c.id
    | .xs => y.finish .xs c.id
  s.progress k

/-- An answer reaches the job of an entry on core k (R149, R181, R182). -/
def State.applyAnswer (s : State) (k : Nat) (e : FaultEntry) (ok : Bool) : State :=
  match e.cmd with
  | none =>
    let q : Fin 4 := Fin.ofNat 4 e.stream.toNat
    let b := (s.core k).q[q.val]
    if b.st == .waiting && b.resol then
      if ok then s.modQ k q fun b => { b with st := .ready, resol := false, pc := b.trpc.setWidth 64 }
      else s.jobFault k e.cause e.addr q.val b.trpc
    else s
  | some r =>
    match (s.core k).x.cmds.find? fun c => c.src == r.src && c.seq == r.seq && c.st == .resolution with
    | none => s
    | some c =>
      if ok then s.modCmd k c.id fun c => { s.resolvePeers k c with st := .issued, cause := 0#8, addr := 0#64 }
      else if c.isPlainAcw && (s.core k).othersEnded c.src then s.dropCmd k c
      else s.jobFault k e.cause e.addr c.src.faultStream c.pc

/-- The core on which the job of a team and rank runs. -/
def State.jobCore (s : State) (team rank : Nat) : Option Nat :=
  (s.cores.find? fun e => e.2.job.any fun j => j.team == team && j.rank.toNat == rank).map fun e => e.1

/-- An entry of an internal item whose jobs are over is answered: the item makes its accesses again, or faults (R58, R419). -/
def State.itemAnswer (s : State) (d : Nat) (t : Team) (e : FaultEntry) (ok : Bool) : State :=
  let s := if ok then s else s.modTeam d t.id fun t => { t with faults := t.faults ++ [(e.core, ⟨e.cause, e.addr, e.stream, 0#32, 0#8⟩)] }
  s.after [.event (.workItemComplete (Fin.ofNat 8 d) t.id)]

/-- A team keeps an answer for a rank of it that is saved (R153). -/
def Team.keepAnswer (t : Team) (e : FaultEntry) (ok : Bool) : Team :=
  if t.saves.any fun v => v.rank = e.rank then { t with held := t.held ++ [{ e with answer := some ok }] } else t

/-- An entry is answered (R149): on the core of its job, or, once that is saved, kept for its resume (R153), also while other ranks of its
team still save. The entries of a job that has ended come to nothing. -/
def State.deliver (s : State) (e : FaultEntry) (ok : Bool) : State :=
  match s.jobCore e.team e.rank, (s.team? (coreDie e.core) e.team).filter fun t => t.plan.isSome && s.settled t with
  | some k, _ => s.applyAnswer k e ok
  | none, some t => s.itemAnswer (coreDie e.core) t e ok
  | none, none => s.changeTeam e.team fun t => t.keepAnswer e ok

/-- The 64 KiB page of an address word. That one resolution covers this page, and not the leaf's, is the model's choice (DESIGN CHOICE,
log 71). -/
def pageOf (a : Dword) : Nat := a.toNat / 0x10000

/-- The answer to entry e of die d: resolved serves every faulting access of the function to the page, on every die, entries in posting
order and then the accesses that wait for a free entry, after the page is invalidated at every core (R54, R149, R150); an abort serves
the entry alone. Faults that wait for a free entry follow. -/
def State.answer (s : State) (d : Nat) (e : FaultEntry) (ok : Bool) : State :=
  if ok then
    let hit (x : FaultEntry) := x.func == e.func && pageOf x.addr == pageOf e.addr
    let es := ((upto 8).flatMap fun i => (s.die i).fq.filter hit) ++ (upto 8).flatMap fun i => (s.die i).fqWait.filter hit
    let drop (x : Die) : Die := { x with fq := x.fq.filter (!hit ·), fqWait := x.fqWait.filter (!hit ·) }
    let s := { s with dies := s.dies.map drop }
    let s := s.tlbDrop e.func fun x => x.covers (pageOf e.addr) 1
    let s := es.foldl (fun s x => s.deliver x true) s
    (upto 8).foldl (fun s i => s.refillFaults i (s.die i).fqWait.length) s
  else
    let s := s.modDie d fun x => { x with fq := x.fq.filter fun y => y.id != e.id }
    let s := s.deliver e false
    s.refillFaults d (s.die d).fqWait.length

/-! ### Restore -/

/-- A number of n bytes at offset o of an image. -/
def rd (im : Memory) (o n : Nat) : Nat := Memory.readNat im o n

/-- The state of a block stream by its code (R157). -/
def qStateOf (n : Nat) : QState :=
  match n with
  | 0 => .absent
  | 1 => .ready
  | 2 => .waiting
  | 3 => .parked
  | _ => .ended

/-- A block stream from its record at offset o (R157, R158); `keep` gives each volatile register. -/
def blockOf (im : Memory) (o : Nat) (keep : Nat → Option Dword) : Block :=
  let cause := rd im (o + 0x20) 8
  { pc := BitVec.ofNat 64 (rd im o 4)
    g := Vector.ofFn fun i => match keep i.val with
      | some v => v
      | none => if i.val = 0 then 0#64 else BitVec.ofNat 64 (rd im (o + 0x40 + 8 * (i.val - 1)) 8)
    p := BitVec.ofNat 8 (rd im (o + 5) 1) &&& 0xFE#8
    st := qStateOf (rd im (o + 4) 1)
    wword := BitVec.ofNat 32 (rd im (o + 8) 4)
    wmask := BitVec.ofNat 64 (rd im (o + 0x10) 8)
    trvec := BitVec.ofNat 34 (rd im (o + 0x18) 8)
    hnd := rd im (o + 6) 1 == 1
    trsub := BitVec.ofNat 8 (cause / 256)
    trcause := BitVec.ofNat 8 cause
    trpc := BitVec.ofNat 32 (rd im (o + 0x28) 8)
    trinfo := BitVec.ofNat 64 (rd im (o + 0x30) 8)
    trprog := BitVec.ofNat 5 (rd im (o + 0x38) 8) }

/-- The state of an engine stream by its code. -/
def engStateOf (n : Nat) : EngState :=
  match n with
  | 0 => .absent
  | 1 => .running
  | _ => .ended

/-- Outstanding words of stream st in program order, less those whose tokens have been shown already or that show none (R19, R37). -/
def unshown (st : Stream) (left : List Outst) : List Outst → List Outst
  | [] => left
  | o :: t =>
    if o.done && (o.push.isNone || !left.any fun e => e.hides st o) then unshown st left t else unshown st (left ++ [o]) t

/-- The outstanding words of a stream resumed at pc: the words before it in its section, those of `opens` (index in the section,
number, whether it completes by itself) incomplete. -/
def reopen (st : Stream) (code : List Word) (pc : Nat) (opens : List (Nat × Nat × Bool)) : List Outst :=
  unshown st [] ((code.take pc).zipIdx.map fun (w, i) =>
    match opens.find? fun x => x.1 == i with
    | some x =>
      { id := x.2.1, push := pushFifo st (tokOf w).push, own := x.2.2, quiet := (xopOfWord w).any fun o => o.kind.quiet }
    | none => { id := 0, push := pushFifo st (tokOf w).push, done := true })

/-- A stream that had arrived at a rendezvous stands there again (R37). -/
def Core.rearrive (c : Core) (st : Stream) (id : Nat) : Core :=
  let at_ (i : BitVec 2) (m : Byte) (t : Tok) : Core :=
    if maskHas (vget c.rdv i.toNat {}).arrived (streamIx st) && (c.eng st).st == .running then
      c.modEng st fun e => { e with st := .rendezvous i m, outst := e.outst ++ [{ id := id, push := pushFifo st t.push, own := true }] }
    else c
  match c.nextWord st with
  | none => c
  | some w =>
    match decodeWord st.opMap w with
    | .ok (.xrdv i m t) => at_ i m t
    | .ok (.mrdv i m t) => at_ i m t
    | .ok (.vrdv i m t) => at_ i m t
    | _ => c

/-- A bank format table of 32 words of 4 bytes. -/
def bfmtOf (im : Memory) (o : Nat) : Vector (BitVec 15) 32 := Vector.ofFn fun i => BitVec.ofNat 15 (rd im (o + 4 * i.val) 4)

/-- The matrix engine from its region at 0x4000 (R291, R294, R335). -/
def matrixOf (im : Memory) (goId : Nat) : Matrix :=
  let o := 0x4000
  let nstate := rd im (o + 6) 1
  let raw (a : Nat) : Raw := Memory.readN im (o + a) 0x280
  let t := raw 0x100
  let pl := tabPl t
  let n : Vector Nat 6 := Vector.ofFn fun i => rd im (o + 0x28 + 4 * i.val) 4
  let fresh := n.all (· == 0)
  { side := Vector.ofFn fun i =>
      let a := o + 0x800 + 0x100 * i.val
      { kind := rd im a 1
        er := Vector.ofFn fun j => Memory.read im (a + 0x40 + j.val)
        ec := Vector.ofFn fun j => Memory.read im (a + 0x80 + j.val) }
    tree := Vector.ofFn fun i =>
      let a := o + 0x600 + 32 * i.val
      { active := rd im a 1 == 1, depth := rd im (a + 1) 1, slot0 := rd im (a + 2) 1 == 1, next := rd im (a + 4) 4, n := rd im (a + 8) 4,
        spill := BitVec.ofNat 64 (rd im (a + 16) 8) }
    oa := Vector.ofFn fun i => oaOf (Memory.readN im (o + 0x2000 + 0xA000 * i.val) 0x9100)
    shadow := if rd im (o + 7) 1 % 2 = 1 then some (raw 0x380) else none
    active := if rawNat t 0 1 = 1 then some t else none
    go := nstate != 0
    goId := goId
    phase := if nstate = 2 then .enter pl else if fresh then .enter 5
      else if vget n pl 0 = 0 && ((upto 6).all fun l => l ≤ pl || vget n l 0 != 0) then .enter pl else .advance (pl + 1)
    slot := 0
    c := Vector.ofFn fun i => rd im (o + 0x10 + 4 * i.val) 4
    n := n
    full := vget n pl 0
    from_ := if nstate = 2 then vget n pl 0 else 0
    clamped := nstate == 2
    bf := bfmtOf im (o + 0x1800) }

/-- The vector engine from its region at 0x64000 (R362): each port is bound again with the bank formats that it sampled (R46). -/
def vecOf (im : Memory) (bfmt : Vector (BitVec 15) 32)
    (sampled : List (Option (Vector (BitVec 15) 32 × Map (Vector (BitVec 15) 32)))) : Vec :=
  let o := 0x64000
  let sets : Vector (BitVec 1024) 8 := Vector.ofFn fun i => BitVec.ofNat 1024 (rd im (o + 0x240 + 128 * i.val) 128)
  { regs := ((upto 16384).map fun i => (i, rd im (o + 0x1000 + 4 * i) 4)).filter fun e => e.2 != 0
    masks := Vector.ofFn fun i => BitVec.ofNat 1024 (rd im (o + 0x40 + 128 * i.val) 128)
    shape := BitVec.ofNat 32 (rd im (o + 0xC) 4)
    sets := sets
    ports := Vector.ofFn fun i =>
      let a := o + 0x640 + 32 * i.val
      let set := rd im a 1
      if set = 0xFF then none
      else
        let base := (setOf (vget sets set 0#1024)).base
        let (bf, far) := (sampled.getD i.val none).getD (bfmt, [])
        some { set := set, pos := rd im (a + 4) 4, far := far, bf := vset bf (base.extractLsb' 16 5).toNat (BitVec.ofNat 15 (rd im (a + 8) 4)) } }

/-- The source of a record's stream code (R187). -/
def srcOf (n : Nat) : XSrc :=
  match n with
  | 0 => .queue
  | 1 => .xl
  | _ => .xs

/-- Indices in a section of its command words. -/
def cmdIxs (code : List Word) : List Nat := (code.zipIdx.filter fun p => (xopOfWord p.1).isSome).map fun p => p.2

/-- The updates of a command that resumes on core k are to its elements there: one still to reach a scratchpad goes to its destination
element, and a returning one writes its old value to its source element (R205). Where the element cannot be located on that core (WINDOW,
STAGE_ABSENT, XLATE), for which R214 names no fate, the place stays the old one (DESIGN CHOICE, log 68). -/
def State.rebase (s : State) (k : Nat) (c : Cmd) (r : CmdRef) : State :=
  let w := c.walks
  let at_ (es : List Elem) (nib : Nat) (acc : Access) (u : Update) : Option Nat :=
    (es[u.ix]?).bind fun e => (s.xLocate k c e.addr (nibBytes nib) acc).1.toOption
  let move (u : Update) : Update :=
    let u := match (if isScratch u.loc && u.coming then at_ w.dst w.dstNib .aow u else none) with
      | some l => { u with loc := l, home := homeDie l, unit := unitOf l }
      | none => u
    match (if u.back.isSome then at_ w.src w.srcNib .write u else none) with
    | some l => { u with back := some l }
    | none => u
  { s with updates := s.updates.map fun u => if u.ref == r then move u else u }

/-- Command i of a saved transfer region put back on core k, whose job and sets are restored (R179, R185, R187). The record has the bases at
issue and no more of the descriptors: the strides, counts and other fields are those of the set as it stands, also where an `xcfg` has loaded
it after the issue (DESIGN CHOICE, log 68); the bank formats are those sampled at issue (R46), and peers are resolved anew (R32). Old values of its updates
that are still to come go to its source elements as they lie on this core (R205). -/
def State.restoreCmd (s : State) (k : Nat) (im : Memory) (bfs : Sampled) (id i : Nat) : State :=
  let a := 0x640 + 0xA40 + 128 * i
  let c := s.core k
  let word := BitVec.ofNat 32 (rd im a 4)
  match xopOfWord word with
  | none => s
  | some o =>
    let src := srcOf (rd im (a + 4) 1)
    let st := rd im (a + 5) 1
    let progress := rd im (a + 8) 4
    let seq : Dword := BitVec.ofNat 64 (rd im (a + 0x10) 8)
    let operand : Dword := BitVec.ofNat 64 (rd im (a + 0x18) 8)
    let base (j : Nat) : Dword := BitVec.ofNat 64 (rd im (a + 0x30 + 8 * j) 8)
    let rs := withBase (c.rawSet o.x.src) (base 0)
    let rd_ := withBase (c.rawSet o.x.dst) (base 1)
    let rp := withBase (c.rawSet o.pair) (base 2)
    let keep := (bfs.cmds.find? fun e => e.src == src && e.seq == seq).getD ⟨src, seq, c.sys.bfmt, [], []⟩
    let bf := keep.bf
    let l := opLocks k o bf (walksOf o bf (setOf rs) (setOf rd_) (setOf rp) (if src == .queue then some operand else none)) (setOf rd_).aux
    let pc := match src with
      | .queue => 0#32
      | .xl => BitVec.ofNat 32 ((cmdIxs (vget c.code 4 [])).getD seq.toNat 0)
      | .xs => BitVec.ofNat 32 ((cmdIxs (vget c.code 7 [])).getD seq.toNat 0)
    let all := progress = (setOf rs).n
    let cmd : Cmd :=
      { id := id, src := src, word := word, operand := operand, seq := seq, s := rs, d := rd_, p := rp, bf := bf,
        gen := BitVec.ofNat 64 (rd im (a + 0x28) 8), progress := progress, lines := keep.lines, hits := keep.hits, cause := BitVec.ofNat 8 (rd im (a + 6) 1),
        addr := BitVec.ofNat 64 (rd im (a + 0x20) 8), rd := l.rd, wr := l.wr, trd := l.trd, pc := pc,
        round := s.roundNow k src (setOf rd_).aux }
    let cmd := s.resolvePeers k cmd
    let ref := s.cmdRef k cmd
    let waits := match cmd.detGroup with
      | some g => (s.group c.funcOf g).waiting.any fun w => w.1 == ref
      | none => false
    let doomed := match cmd.detGroup with
      | some g => s.isDoomed k g
      | none => false
    let st' : CmdState :=
      if doomed then .failed
      else if st = 1 then .resolution
      else if st = 3 then (if cmd.isClose && waits then .round else .performed)
      else if st = 2 && cmd.isAcw && all then .performed
      else .issued
    let tagged := o.x.scope == .stream && cmd.isPlainAcw && st' == .performed
    let cmd := { cmd with st := st', tagged := tagged, cause := if doomed then cDET_ABORT else cmd.cause }
    let s := s.modCore k fun c => { c with x := { c.x with cmds := c.x.cmds ++ [cmd] } }
    let s := if doomed then s.after [.event (.commandFault (Fin.ofNat 1536 k) id)] else s
    let s := s.rebase k cmd ref
    let late := s.updates.filter fun u => u.ref == ref
    late.foldl (fun s u =>
      match u.st, u.back with
      | .answered old, some b =>
        { s with updates := s.updates.filter fun x => x.id != u.id }.writeBack k cmd b (nibBytes (nibbles (acwFmt u.op))) old
      | _, _ => s) s

/-- Saved answers take effect on the job of a rank that resumes on core k (R153): a block stream was saved ready, so it re-executes
if its entry is resolved; an abort faults the job. -/
def State.takeHeld (s : State) (k : Nat) (es : List FaultEntry) : State :=
  es.foldl (fun s e => match e.answer with
    | some ok =>
      if e.cmd.isNone then
        if ok then s else s.jobFault k e.cause e.addr e.stream.toNat (vget (s.core k).q e.stream.toNat {}).trpc
      else s.applyAnswer k e ok
    | none => s) s

/-- The volatile register i of block stream q at a resume on core k: its old value or zero, at the part's choice, if the core kept the
job's; else the zero of the image (R102, R158). -/
def Core.volatile (c : Core) (y : Sys) (kept : Bool) (fresh q i : Nat) : Option Dword :=
  if y.vlo.toNat ≤ i && i ≤ y.vhi.toNat && y.vlo != 0#5 then
    some (if kept && Config.choice (fresh + 32 * q + i) then vget (vget c.q q {}).g i 0#64 else 0#64)
  else none

/-- A job as it starts or resumes on core k as a rank of a team (R29, R97). -/
def Team.job (t : Team) (rank expect done : Nat) : Job where
  func := t.func
  team := t.id
  rank := BitVec.ofNat 8 rank
  size := t.item.team
  pipe := t.item.pipe
  stage := t.item.stage
  expect := BitVec.ofNat 8 expect
  done := BitVec.ofNat 8 done
  vlo := t.vlo
  vhi := t.vhi
  args := t.item.args
  shape := t.item.shape
  wid := t.item.wid
  queue := t.queue

/-- TEAM (R97). -/
def Team.word (t : Team) (rank : Nat) : Dword := zext (t.item.pipe ++ t.item.team ++ BitVec.ofNat 8 rank)

/-- Core k with the job of a saved rank restored from its image (R37, R158, R291, R362). The image does not say which block stream held the
issue pipeline: q0 takes it, else the lowest-numbered ready stream (DESIGN CHOICE, log 102). -/
def State.restoreImage (s : State) (k : Nat) (t : Team) (sv : Saved) (im : Memory) : State :=
  let c := s.core k
  let y := 0x40
  let x := 0x640
  let n := c.next
  let expect := rd im (y + 6) 1
  let kept := c.kept == some (t.id, sv.rank)
  let sys : Sys :=
    { seed := BitVec.ofNat 64 (rd im (y + 8) 8)
      gen := Vector.ofFn fun i => BitVec.ofNat 64 (rd im (y + 0x10 + 8 * i.val) 8)
      tags := BitVec.ofNat 64 (rd im (y + 0x30) 8)
      lodc := BitVec.ofNat 64 (rd im (y + 0x40) 8)
      rplcM := BitVec.ofNat 32 (rd im (y + 0x48) 4), rplcX := BitVec.ofNat 32 (rd im (y + 0x4C) 4)
      flg := Vector.ofFn fun i => Memory.read im (y + 0x38 + i.val)
      bfmt := bfmtOf im (y + 0x80)
      team := t.word sv.rank, func := t.func, args := t.item.args, expect := BitVec.ofNat 8 expect
      vlo := t.vlo, vhi := t.vhi, stage := t.item.stage }
  let nrec := rd im (x + 0xF) 1
  let seqs (code : Nat) := ((upto nrec).filter fun i => rd im (x + 0xA40 + 128 * i + 4) 1 == code).map fun i =>
    (rd im (x + 0xA40 + 128 * i + 0x10) 8, n + i)
  let opens (code : Nat) (sec : List Word) : List (Nat × Nat × Bool) :=
    (seqs code).map fun e => ((cmdIxs sec).getD e.1 sec.length, e.2, false)
  let eng (st : Stream) (pc code : Nat) (os : List (Nat × Nat × Bool)) : Eng :=
    { pc := BitVec.ofNat 32 pc, st := engStateOf code, outst := reopen st (vget t.code (streamIx st) []) pc os }
  let mcode := vget t.code 5 []
  let mpc := rd im 0x4008 4
  let isGo (w : Word) := match decodeMatrix w with
    | .ok (.mgo _) => true
    | _ => false
  let go := if rd im 0x4006 1 = 0 then []
    else (((mcode.take mpc).zipIdx.filter fun p => isGo p.1).map fun p => (p.2, n + 50, true)).reverse.take 1
  let c : Core :=
    { c with
      job := some (t.job sv.rank expect (rd im (y + 5) 1))
      code := t.code
      curq := 0, idle := true
      q := Vector.ofFn fun i => blockOf im (y + 0x100 + 0x140 * i.val) (c.volatile sys kept s.fresh i.val)
      xl := eng .xl (rd im (x + 4) 4) (rd im (x + 0xC) 1) (opens 1 (vget t.code 4 []))
      xs := eng .xs (rd im (x + 8) 4) (rd im (x + 0xD) 1) (opens 2 (vget t.code 7 []))
      m := eng .m mpc (rd im 0x4005 1) go
      v := eng .v (rd im 0x64008 4) (rd im 0x64005 1) []
      sys := sys
      fifo := Vector.ofFn fun i => let b := rd im (y + 0x50 + i.val) 1; { count := b % 16, reserved := b / 16 }
      rdv := Vector.ofFn fun i => ⟨Memory.read im (y + 0x60 + 4 * i.val), Memory.read im (y + 0x61 + 4 * i.val)⟩
      x := {
        sets := Vector.ofFn fun i => BitVec.ofNat 1024 (rd im (x + 0x40 + 128 * i.val) 128)
        queue := (upto (rd im (x + 0xE) 1)).map fun i =>
          let a := x + 0x840 + 16 * i
          ⟨BitVec.ofNat 32 (rd im a 4), BitVec.ofNat 64 (rd im (a + 8) 8), 0, sv.bf.queue.getD i sys.bfmt, s.next⟩
        seq := Vector.ofFn fun i => BitVec.ofNat 64 (rd im (x + 0x10 + 8 * i.val) 8) }
      mx := matrixOf im (n + 50)
      vx := vecOf im sys.bfmt sv.bf.ports
      tlb := if sv.core = k then c.tlb else []
      meterJob := sv.jpj
      next := n + 60
      preempt := none, fault := none, kept := none }
  let c := (((c.rearrive .xl (n + 51)).rearrive .m (n + 52)).rearrive .v (n + 53)).rearrive .xs (n + 54)
  let mem := Memory.clear (Memory.clear s.mem (scratchLoc k) 0x200000) (accLoc k) 0x40000
  let mem := Memory.put (Memory.put mem (moveCells (Memory.slice im 0x24000 0x40000) 0x24000 (accLoc k)))
    (moveCells (Memory.slice im 0x80000 0x200000) 0x80000 (scratchLoc k))
  let s := { s with mem := mem, fresh := s.fresh + 128 }.setCore k c
  (((upto nrec).foldl (fun s i => s.restoreCmd k im sv.bf (n + i) i) s).takeHeld k (t.held.filter fun e => e.rank == sv.rank)).modCore k Core.settle

/-- A saved rank of a team resumes on core k, scrubbed first where R254 says so; the image's valid bit is cleared and its slot free once
it is restored (R257). The sequencer and transfer regions that came in a hamper stand in for those of the image (R236). From an image that is not valid, or cannot be read, nothing resumes: the job faults
SAVE_AREA; POISON where a line of it is poisoned (R57). -/
def State.resumeCore (s : State) (k : Nat) (t : Team) (sv : Saved) : State :=
  let s := s.readyCore k t.func
  let lost (s : State) (z : Byte) : State :=
    (s.modCore k fun c => { c with job := some (t.job sv.rank 0 0), fault := none, preempt := none, meterJob := sv.jpj }).jobFaultFree k z 0xFF 0#32
  match s.slotPages t.func sv.slot .read with
  | .error _ => lost s cSAVE_AREA
  | .ok pages =>
    if pages.any fun p => s.poisoned p 0x10000 then lost s cPOISON
    else
    let im := getImage s.mem pages
    let im := match sv.region with
      | some bs => Memory.blit im 0x40 bs
      | none => im
    if rd im 0 4 % 2 = 0 then lost s cSAVE_AREA
    else
      let s := s.restoreImage k t sv im
      let s := match s.hostWrite t.func (s.slotAddr t.func sv.slot) (bytesOfNat 4 0) true with
        | .ok u => u
        | .error _ => s
      (s.setSlot t.func sv.slot 0).imageCharge k sv.core

end Sys2Proof.Machine
end

