-- ==== Sys2Proof/Machine/Boot.lean ====
section
/-! DEFINITION. Starts of the part (R448, R449, R454, R456), the check of its image (R450), power loss, heat and the thermal trip
(R455). -/

namespace Sys2Proof.Machine

/-! ### The image in flash -/

/-- Bytes of the RSA-3072 and of the SLH-DSA signature (R450). -/
def rsaBytes : Nat := 384
def slhBytes : Nat := 16224

/-- Header and payload of the image in flash, as its length field says (R450). -/
def imageSigned (flash : List Byte) : List Byte := flash.take (64 + rawNat flash 0xC 4)

/-- The whole image: header, payload and both signatures. -/
def imageWhole (flash : List Byte) : List Byte := flash.take (64 + rawNat flash 0xC 4 + rsaBytes + slhBytes)

/-- The security version of the image in flash. -/
def imageSvn (flash : List Byte) : Nat := rawNat flash 8 4

/-- R450: both verifications of the flash image in full, then the decision: the svn, or the reason and the flags. -/
def verifyImage (flash : List Byte) (fuse : Word) : Except (Byte × Byte) Word :=
  let whole := imageWhole flash
  let rsa := Config.rsaOk whole
  let slh := Config.slhOk whole
  if !(rawNat flash 0 4 == 0x47524F47 && rawNat flash 4 4 == 1 && rawNat flash 0x10 48 == 0 &&
       64 + rawNat flash 0xC 4 + rsaBytes + slhBytes ≤ flash.length) then .error (3#8, 0#8)
  else if !rsa && !slh then .error (1#8, 3#8)
  else if !rsa then .error (1#8, 1#8)
  else if !slh then .error (2#8, 2#8)
  else if imageSvn flash < fuse.toNat then .error (4#8, 0#8)
  else .ok (BitVec.ofNat 32 (imageSvn flash))

/-- The 64 bytes of the boot status sector (R449). -/
def Boot.bytes (b : Boot) : List Byte :=
  padTo 64 (bytesOfNat 4 b.magic.toNat ++ [b.count, b.stage, b.reason, b.flags] ++ bytesOfNat 8 b.dtime.toNat ++ bytesOfNat 4 b.svn.toNat)

/-! ### Starts -/

/-- Everything but flash and fuses is lost (R448): the module as after a reset, in a phase. The model's own count of clk, its plan of
what comes from outside and its free-value counter go on. -/
def State.reborn (s : State) (p : Phase) : State :=
  { State.reset with
    clk := s.clk, dtBase := s.dtBase, dtAhead := s.dtAhead, dtPrev := s.dtPrev, phase := p, boot := s.boot, flash := s.flash, fuse := s.fuse, env := s.env, out := s.out,
    fresh := s.fresh, agenda := s.agenda }

/-- A start that ended before stage 0x9 without a reason of its own failed with reason 0x07 (R448). -/
def Boot.settle (b : Boot) : Boot := if b.closed then b else { b with reason := 7#8, closed := true }

/-- A failed start: its stage and reason stand in the sector. -/
def Boot.fail (b : Boot) (stage reason flags : Byte) : Boot := { b with stage := stage, reason := reason, flags := flags, closed := true }

/-- Every core of some die failed its self-test (R448). -/
def deadDie (failed : List Nat) : Bool := (upto 8).any fun d => (upto 192).all fun i => failed.contains (192 * d + i)

/-- How a start ends (R448): in which phase, and with what in the sector. -/
structure Started where
  phase : Phase
  boot : Boot
  deriving DecidableEq, Repr

/-- The stages of a start (R448) with the sector as stage 0x1 leaves it: a failed start is followed by another (log 26); power lost in
a stage leaves that stage in the sector. -/
def startStages (b : Boot) (e : Env) (flash : List Byte) (fuse : Word) (now : Nat) : Started :=
  let cut (n : Nat) : Bool := e.cutStage = n
  let lost (b : Boot) (n : Nat) : Started :=
    if e.trip then ⟨.reset, b.fail (BitVec.ofNat 8 n) 0xA#8 b.flags⟩ else ⟨.off, { b with stage := BitVec.ofNat 8 n, closed := false }⟩
  if b.magic != 0x42535354#32 || 3 ≤ b.count.toNat then ⟨.fallow, b⟩
  else if cut 1 then lost b 1
  else if cut 2 then lost b 2
  else if e.failStage = 2 then ⟨.reset, b.fail 2#8 0xB#8 b.flags⟩
  else
    let b := { b with count := b.count + 1#8 }
    if cut 3 then lost b 3
    else match verifyImage flash fuse with
      | .error (r, fl) => ⟨.reset, b.fail 3#8 r fl⟩
      | .ok svn =>
        let b := { b with svn := svn }
        if cut 4 then lost b 4
        else if e.failStage = 4 then ⟨.reset, b.fail 4#8 5#8 b.flags⟩
        else if cut 5 then lost b 5
        else if e.failStage = 5 then ⟨.reset, b.fail 5#8 6#8 b.flags⟩
        else if cut 6 then lost b 6
        else if deadDie e.failedCores then ⟨.reset, b.fail 6#8 8#8 b.flags⟩
        else if cut 7 then lost b 7
        else if cut 8 then lost b 8
        else if e.failStage = 8 then ⟨.reset, b.fail 8#8 9#8 b.flags⟩
        else ⟨.ready, { b with stage := 9#8, count := 0#8, dtime := BitVec.ofNat 64 now, closed := true }⟩

/-- The calibration table of a start (R262, R454): as measured, 0 for a failed core. -/
def calibTable (e : Env) : Map (BitVec 16) := e.failedCores.foldl (fun m k => mset m k 0#16) e.calib

/-- R448 to R454: a start from ROM. Connections that were there during it, whose messages it has refused, stay when the part is ready. Every core's CYCLE begins at 0 in the clk in which the part is ready (R96, log 94). Stage 0x1 leaves the sector's stage as it stands when it enters fallow mode (log 26). -/
def execStart (s : State) : Host.Outcome State Fault Refusal :=
  let b := s.boot.settle
  let r := startStages b s.env s.flash s.fuse (s.dtime + s.env.ahead)
  let t := { s with boot := r.boot }.reborn r.phase
  match r.phase with
  | .ready =>
    .next { t with
      upAt := s.clk
      conns := s.conns
      dtBase := t.dtBase + s.env.ahead
      failed := s.env.failedCores
      cxl := s.env.cxl
      fuse := if t.fuse.toNat < r.boot.svn.toNat then r.boot.svn else t.fuse
      mg := { t.mg with calib := calibTable s.env } }
  | .fallow => .next t
  | .reset => .next t
  | .off => .next t

/-- The supply is lost (R448): only flash and fuse state survive; a start under way before stage 0x9 has failed (R448). -/
def execPowerLoss (s : State) : Host.Outcome State Fault Refusal := .next (s.reborn .off)

/-- R455: every job is hard-stopped and the module resets. Before stage 0x9, which a part in fallow mode has not reached, it is a failed start
with reason 0x0A (R448). -/
def execThermalTrip (s : State) : Host.Outcome State Fault Refusal :=
  let jobs := (s.cores.filter fun e => e.2.job.isSome).map fun e => e.1
  let t := jobs.foldl State.hardStop s
  match s.phase with
  | .off => .next s
  | .reset => .next ({ t with boot := { t.boot with reason := 0xA#8, closed := true } }.reborn .reset)
  | .fallow => .next ({ t with boot := { t.boot with reason := 0xA#8, closed := true } }.reborn .reset)
  | .ready => .next (t.reborn .reset)

/-- The factor of R455 in tenths for a junction temperature. -/
def heatOf (tj : Int) : Int := if tj ≤ 95 then 10 else if 105 ≤ tj then 0 else 105 - tj

/-- DTIME has reached a multiple of n ns in this clk (R252, R263, R264, R455). -/
def State.reached (s : State) (n : Nat) : Bool := s.dtPrev / n != s.dtime / n

/-- The monitor of die d reports Tj; at 110 °C the module trips (R455). -/
def State.thermal (s : State) (d : Nat) (tj : Int) : State :=
  let t := s.modDie d fun x => { x with heat := heatOf tj }
  if 110 ≤ tj then t.after [.event .thermalTrip] else t

/-- R455: at a 1 ms tick a die's monitor finds a junction temperature and reports it; between ticks it reports nothing. -/
def execThermalTick (d : DieIx) (tj : Int) (s : State) : Host.Outcome State Fault Refusal :=
  if s.reached 1000000 then .next ({ s with env := { s.env with tj := vset s.env.tj d.val tj } }.thermal d.val tj) else .next s

end Sys2Proof.Machine
end

