-- ==== Sys2Proof/Machine/PlanCost.lean ====
section
/-! DEFINITION. How the plan engine reads a query and plans it (R399 to R410, R435, R443 to R446): parsing with the refusals of R402,
shapes, hints, candidates with their exact costs, the orders of a chain, and the bytes that `qexpl` writes (R437). -/

namespace Sys2Proof.Machine

/-- A refusal: its code of R427 and the node at fault, 0xFF for none. -/
abbrev PStop := Nat × Nat

def rMALFORMED : Nat := 1
def rNOT_OWNER : Nat := 2
def rFULL : Nat := 3
def rBUSY : Nat := 4
def rNOT_LIVE : Nat := 5
def rSHAPE : Nat := 6
def rNO_CANDIDATE : Nat := 7
def rDUPLICATE : Nat := 8
def rPINS : Nat := 9
def rIDLE : Nat := 10

/-- The value of a finite, non-negative FP32 pattern, exactly; none for any other (R399, R403). −0 counts as 0. -/
def ratOf (b : Nat) : Option Rat :=
  match f32 b with
  | .fin neg m e _ =>
    if neg && m != 0 then none
    else some (if e < 0 then (m : Rat) / ((2 ^ (-e).toNat : Nat) : Rat) else ((m * 2 ^ e.toNat : Nat) : Rat))
  | .inf _ => none
  | .nan => none

/-- A coefficient, known to be finite. -/
def coefOf (b : Nat) : Rat := (ratOf b).getD 0

/-- A non-negative rational rounded RNE into FP32 (R437). -/
def ratF32 (q : Rat) : Nat := (rneF32 (Val.div (.ofInt q.num) (.ofInt q.den)).1).1

/-- The smallest natural number not below a non-negative rational. -/
def ratCeil (q : Rat) : Nat := (q.num.toNat + q.den - 1) / q.den

/-- The largest natural number not above a non-negative rational. -/
def ratFloor (q : Rat) : Nat := q.num.toNat / q.den

/-! ### Reading a query -/

def opCONTRACT : Nat := 1
def opEWISE : Nat := 2
def opREDUCE : Nat := 3
def opGATHER : Nat := 4
def opSCATTER : Nat := 5
def opCOMBINE : Nat := 6
def opTOPK : Nat := 7
def opCONVERT : Nat := 8
def opORTHAPPLY : Nat := 9
def opLEAF : Nat := 10

/-- The least and largest number of children, and the bits of `a` that an operator uses (R401). -/
def opForm (op : Nat) : Option (Nat × Nat × Nat) :=
  match op with
  | 1 => some (2, 8, 0xF)
  | 2 => some (1, 2, 0xFF)
  | 3 => some (1, 1, 0x3FFFF)
  | 4 => some (2, 2, 0xF)
  | 5 => some (3, 3, 0x1FF)
  | 6 => some (2, 2, 0x7)
  | 7 => some (1, 1, 0xFFF)
  | 8 => some (1, 1, 0)
  | 9 => some (2, 2, 0x3)
  | 10 => some (0, 0, 0)
  | _ => none

/-- The arguments that an operator takes (R401). -/
def opArgOk (op a nin : Nat) : Bool :=
  match op with
  | 1 => 1 ≤ a && a ≤ 3
  | 2 => a ≤ 0xA && nin == (if a == 5 || a == 6 || a == 0xA then 1 else 2)
  | 3 => a / 65536 ≤ 2
  | 5 => 0x10 ≤ a % 256 && a % 256 ≤ 0x1E
  | 7 => 1 ≤ a % 128 && a % 128 ≤ 64
  | _ => true

/-- SCATTER with det: its c is a group record's address (R400). -/
def QNode.detScatter (n : QNode) : Bool := n.op == opSCATTER && n.a / 256 % 2 == 1

/-- No element twice. -/
def noRepeat (l : List Nat) : Bool := l.dedup.length == l.length

/-- Node i of n from its 32 bytes (R400, R401, R402); none for a field out of range, a reserved field that is not zero, a child index
not below i, a label named twice. -/
def qNode (b : Raw) (i n : Nat) : Option QNode :=
  let op := rawNat b 0 1
  let fl := rawNat b 1 1
  let fb := rawNat b 2 1
  let nin := rawNat b 3 1
  let ch := (upto 8).map fun j => rawNat b (4 + j) 1
  let lab := rawNat b 0xC 4
  let a := rawNat b 0x10 4
  let c := rawNat b 0x18 8
  let nd := lab / 0x1000000 % 8
  let labels := (upto nd).map fun j => lab / 16 ^ j % 16
  let x : QNode := ⟨op, fl == 1, BitVec.ofNat 4 fb, BitVec.ofNat 3 (fb / 16), ch.take nin, labels, a, BitVec.ofNat 64 c⟩
  match opForm op with
  | none => none
  | some (lo, hi, bits) =>
    let cOk :=
      if op == opLEAF then c < 4096 && fl == 0
      else if x.detScatter then true
      else if fl == 1 || i + 1 == n then c < 4096
      else c == 0
    if fl ≤ 1 && fb < 128 && fb % 16 ≤ 0xA && fb / 16 ≤ 4 && rawNat b 0x14 4 == 0 && lo ≤ nin && nin ≤ hi && a &&& bits == a &&
       lab < 0x8000000 && nd ≤ 6 && lab % 0x1000000 / 16 ^ nd == 0 && opArgOk op a nin && noRepeat labels &&
       (ch.take nin).all (· < i) && (ch.drop nin).all (· == 0xFF) && cOk
    then some x else none

/-- Nodes i, i + 1, … of n from their bytes. -/
def qNodes (b : Raw) (n : Nat) (i : Nat) : Nat → Except PStop (List QNode)
  | 0 => .ok []
  | m + 1 =>
    match qNode (b.take 32) i n with
    | none => .error (rMALFORMED, i)
    | some x => (qNodes (b.drop 32) n (i + 1) m).map fun t => x :: t

/-- A query from its bytes (R399), or MALFORMED; a node other than the last without a parent is (R402). -/
def parseQuery (b : Raw) : Except PStop Query :=
  let n := rawNat b 2 1
  let al := rawNat b 0xC 4
  let be := rawNat b 8 4
  if rawNat b 0 2 != 1 || n < 1 || 64 < n || 4 ≤ rawNat b 3 1 || rawNat b 4 4 != 0 || 4 ≤ rawNat b 0x18 1 || rawNat b 0x19 7 != 0 ||
     (ratOf al).isNone || (ratOf be).isNone then .error (rMALFORMED, 0xFF)
  else
    match qNodes (b.drop 32) n 0 n with
    | .error z => .error z
    | .ok ns =>
      match (upto (n - 1)).find? fun i => !ns.any fun x => x.child.contains i with
      | some i => .error (rMALFORMED, i)
      | none => .ok ⟨(rawNat b 3 1) % 2 == 1, (rawNat b 3 1) / 2 == 1, al, be, BitVec.ofNat 64 (rawNat b 0x10 8),
          BitVec.ofNat 2 (rawNat b 0x18 1), ns, []⟩

/-- Node i. -/
def Query.node (q : Query) (i : Nat) : QNode := q.nodes.getD i ⟨opLEAF, false, 0xF#4, 0#3, [], [], 0, 0#64⟩
/-- The root. -/
def Query.root (q : Query) : Nat := q.nodes.length - 1
/-- The entry that a node's c names. -/
def QNode.entry (x : QNode) : Nat := x.c.toNat % 4096
/-- Node i writes an output entry at a break (R402, R413): a det SCATTER updates its target in place and names none. -/
def Query.isBreak (q : Query) (i : Nat) : Bool :=
  let x := q.node i
  x.op != opLEAF && (x.brk || i == q.root) && !x.detScatter
/-- The node whose entry holds what node i leaves (R415, R444): a leaf and a break output their own; a SCATTER with det at a break, which
updates its target in place and names no entry, its target's. Children lie below their parents; fuel bounds the way down. -/
def Query.homeFrom (q : Query) : Nat → Nat → Option Nat
  | 0, _ => none
  | n + 1, i =>
    let x := q.node i
    if x.op == opLEAF || q.isBreak i then some i
    else if x.detScatter && (x.brk || i == q.root) then Query.homeFrom q n (x.child.getD 2 0) else none
def Query.home (q : Query) (i : Nat) : Option Nat := q.homeFrom 64 i
/-- The entry that holds what node i leaves, none for an intermediate (R444). -/
def Query.heldBy (q : Query) (i : Nat) : Option Nat := (q.home i).map fun j => (q.node j).entry
/-- The entries that a query names (R392): leaves and outputs. -/
def Query.entries (q : Query) : List Nat := (((upto q.nodes.length).filterMap fun i => q.heldBy i)).dedup
/-- The extent of a label. -/
def Query.extent (q : Query) (l : Nat) : Nat := q.ext.getD l 0
/-- Elements over labels. -/
def Query.count (q : Query) (ls : List Nat) : Nat := prod (ls.map q.extent)

/-- Labels in one list and not in another; all labels of lists, in order of first appearance. -/
def minus (a b : List Nat) : List Nat := a.filter fun x => !b.contains x
def union (ls : List (List Nat)) : List Nat := ls.foldl (fun a l => a ++ minus l a) []
/-- The same labels. -/
def sameSet (a b : List Nat) : Bool := (minus a b).isEmpty && (minus b a).isEmpty

/-- The entry of a node of a query of function f: NOT_OWNER, NOT_LIVE or the entry (R402, R427). -/
def PlanEng.owned (p : PlanEng) (f : Byte) (x : QNode) (i : Nat) : Except PStop Entry :=
  let e := p.entry x.entry
  if e.state != 0 && e.owner != f then .error (rNOT_OWNER, i)
  else if e.state != 1 then .error (rNOT_LIVE, i)
  else .ok e

/-- Set the extent of labels, or SHAPE where one has another extent (R443). -/
def putExts (i : Nat) (ext : List Nat) : List (Nat × Nat) → Except PStop (List Nat)
  | [] => .ok ext
  | (l, x) :: t =>
    let old := ext.getD l 0
    if old = 0 || old = x then putExts i (ext.set l x) t else .error (rSHAPE, i)

/-- The leaves of a query fix the extents of its labels (R402, R443). -/
def PlanEng.leafExts (p : PlanEng) (f : Byte) : List (QNode × Nat) → List Nat → Except PStop (List Nat)
  | [], ext => .ok ext
  | (x, i) :: t, ext =>
    if x.op != opLEAF then PlanEng.leafExts p f t ext
    else
      match p.owned f x i with
      | .error z => .error z
      | .ok e =>
        if e.fmt != x.fmt || e.ndim != x.lab.length then .error (rSHAPE, i)
        else match putExts i ext (x.lab.zip e.dims) with
          | .error z => .error z
          | .ok ext => PlanEng.leafExts p f t ext

/-- The output labels fit the operator and its children (R401, R402). The spec names the labels of GATHER, SCATTER, COMBINE and TOPK only
in part; how they are read is the model's (log 37). -/
def Query.labelsOk (q : Query) (x : QNode) : Bool :=
  let cl := x.child.map fun j => (q.node j).lab
  let at_ (j : Nat) := cl.getD j []
  let out := x.lab
  match x.op with
  | 1 => (minus out (union cl)).isEmpty
  | 2 => sameSet out (union cl)
  | 8 => sameSet out (union cl)
  | 3 =>
    let red := (upto 16).filter fun l => x.a / 2 ^ l % 2 == 1
    (minus red (at_ 0)).isEmpty && sameSet out (minus (at_ 0) red)
  | 4 => (at_ 0).contains (x.a % 16) && sameSet out (union [at_ 1, minus (at_ 0) [x.a % 16]])
  | 5 =>
    (minus (at_ 2) (at_ 0)).length == 1 && (minus (at_ 1) (at_ 0)).isEmpty && sameSet out (at_ 2) &&
      (minus (at_ 0) (union [at_ 1, at_ 2])).isEmpty
  | 6 => (minus (minus out (at_ 0)) (at_ 1)).all fun l => q.extent l != 0
  | 7 => (at_ 0).contains (x.a / 256 % 16) && (minus (minus (at_ 0) [x.a / 256 % 16]) out).isEmpty && out.length == (at_ 0).length
  | 9 =>
    let r := (at_ 0).map q.extent
    let n := (r.getD 0 0) - 1
    let k := r.getD 1 0
    r.length == 2 && (at_ 1).length == 2 && 1 ≤ n && n ≤ 256 && 1 ≤ k && k ≤ 544 &&
      q.extent ((at_ 1).getD (x.a / 2 % 2) 0) == n && sameSet out (at_ 1)
  | _ => true

/-- The label that TOPK puts in the place of the one it searches (R401). -/
def Query.topkLabel (q : Query) (x : QNode) : Option Nat :=
  let cl := (q.node (x.child.getD 0 0)).lab
  (minus x.lab (minus cl [x.a / 256 % 16])).head?

/-- 16 MiB (R444). -/
def maxInter : Nat := 0x1000000

/-- Bytes of so many elements, exactly. -/
def sizeOf_ (f : Fmt) (n : Nat) : Rat := ((n * nibbles f : Nat) : Rat) / 2

/-- The operators' shapes, node by node (R402, R443, R444). -/
def PlanEng.opShapes (p : PlanEng) (f : Byte) (q : Query) : List (QNode × Nat) → Except PStop Query
  | [] => .ok q
  | (x, i) :: t =>
    if x.op == opLEAF then PlanEng.opShapes p f q t
    else
      let ext := match x.op == opTOPK, q.topkLabel x with
        | true, some l => putExts i q.ext [(l, x.a % 128)]
        | _, _ => .ok q.ext
      match ext with
      | .error z => .error z
      | .ok ext =>
        let q := { q with ext := ext }
        if !q.labelsOk x then .error (rSHAPE, i)
        else if !x.brk && i != q.root && 2 * maxInter < q.count x.lab * nibbles x.fmt then .error (rSHAPE, i)
        else if !q.isBreak i then PlanEng.opShapes p f q t
        else match p.owned f x i with
          | .error z => .error z
          | .ok e => if e.elems < q.count x.lab then .error (rSHAPE, i) else PlanEng.opShapes p f q t

/-- The query with the extents of its labels, or its refusal (R402). -/
def PlanEng.shapes (p : PlanEng) (f : Byte) (q : Query) : Except PStop Query :=
  match p.leafExts f q.nodes.zipIdx (List.replicate 16 0) with
  | .error z => .error z
  | .ok ext => p.opShapes f { q with ext := ext } q.nodes.zipIdx

/-! ### Hints -/

def hintNode (h : Dword) : Nat := h.toNat / 2 ^ 56
def hintKind (h : Dword) : Nat := h.toNat / 2 ^ 48 % 256
def hintValue (h : Dword) : Nat := h.toNat % 2 ^ 48

/-- A hint word that a query takes (R435). -/
def Query.hintOk (q : Query) (h : Dword) : Bool :=
  let x := q.node (hintNode h)
  let v := hintValue h
  let l := x.child.length
  hintNode h < q.nodes.length &&
  match hintKind h with
  | 0 => x.op == opCONTRACT && (upto 12).all fun t => if t + 1 < l then v / 16 ^ t % 16 ≤ l - 2 - t else v / 16 ^ t % 16 == 0xF
  | 1 => 1 ≤ v && v ≤ 0xFFFF
  | 2 => v ≤ 3
  | 3 => v ≤ 1
  | 4 => v ≤ 7
  | 5 => v ≤ 7
  | _ => false

/-- The last hint of a kind on a node (R435). -/
def hintOf (hs : List Dword) (i kind : Nat) : Option Nat :=
  (hs.reverse.find? fun h => hintNode h == i && hintKind h == kind).map hintValue

/-- A hint does not forbid a value. -/
def hintAllows (hs : List Dword) (i kind v : Nat) : Bool :=
  match hintOf hs i kind with
  | some w => w == v
  | none => true

/-- The hints of a query: MALFORMED for one it cannot take; a hint on a leaf leaves it without a candidate (R402, R435). -/
def Query.checkHints (q : Query) : List Dword → Except PStop Unit
  | [] => .ok ()
  | h :: t =>
    if !q.hintOk h then .error (rMALFORMED, if hintNode h < q.nodes.length then hintNode h else 0xFF)
    else if (q.node (hintNode h)).op == opLEAF then .error (rNO_CANDIDATE, hintNode h)
    else Query.checkHints q t

/-! ### Costing -/

/-- An operand as the cost sees it (R405, R406, R444): elements, format, labels, density, whether it is an intermediate, tier, hops, the
label stored contiguously. -/
structure Opnd where
  el : Nat
  fmt : Fmt
  lab : List Nat
  dens : Rat
  inter : Bool := true
  tier : Nat := 0
  hops : Nat := 0
  contig : Option Nat := none

/-- What costing takes from the part (R406): charge rates e by class 2 to 5, cbar, team sizes, templates by tid, estimates. -/
structure PCtx where
  rates : List (Nat × Nat)
  cbar : Rat
  sizes : List Nat
  tmpl : List Template
  q : Query
  hints : List Dword
  /-- by node: elements, non-zeros, density -/
  est : List (Nat × Nat × Rat)
  /-- operands by node -/
  ops : List Opnd

/-- Planning rates in bytes per clk by charge class (R407). -/
def planRate (cls : Nat) : Nat :=
  match cls with
  | 2 => 4096
  | 3 => 4840
  | 4 => 2048
  | _ => 116

/-- The charge class of a tier (R406). -/
def tierClass (t : Nat) : Nat :=
  match t with
  | 0 => 3
  | 1 => 5
  | _ => 2

/-- The bytes of an operand by path, with the charge class of each term (R405, R444). -/
def Opnd.terms (o : Opnd) (path : Nat) (m : Rat) (s : Nat) : List (Nat × Rat) :=
  let z := sizeOf_ o.fmt o.el
  let h : Rat := o.hops
  if o.inter then [(3, z * m)]
  else match path with
    | 0 => [(tierClass o.tier, z * m), (4, z * m * h)]
    | 3 => [(5, z), (3, z + z * m)]
    | 1 => [(tierClass o.tier, z), (4, z * h), (2, z * m)]
    | _ => [(tierClass o.tier, z), (4, z * h), (2, z * m / s)]

/-- Sum of rationals. -/
def ratSum (l : List Rat) : Rat := l.foldl (· + ·) 0
/-- Product of rationals. -/
def ratProd (l : List Rat) : Rat := l.foldl (· * ·) 1

/-- Splits of a contracted extent into p pieces, each a node of the span tree over spans of 16 chunks of 256 (R283, R404): a node with two
present children may be two pieces in place of one, so there is a split into every number of pieces up to that of the spans. -/
def splits (kext : Nat) : List Nat :=
  let spans := ((kext + 255) / 256 + 15) / 16
  ((upto (Nat.log2 spans + 1)).map fun j => 2 ^ j).filter fun p => p ≤ max 1 spans

/-- The base-2 logarithm of a power of two. -/
def log2n (n : Nat) : Nat := Nat.log2 n

/-- Whether a template fits a node and the formats of its operands (R403, R404). -/
def Template.fits (t : Template) (x : QNode) (fs : List Fmt) : Bool :=
  let ok (f : BitVec 4) (i : Nat) := f == 0xF#4 || match fs[i]? with
    | some g => g == f
    | none => true
  t.op == x.op && (x.op != opCONTRACT || t.profile == x.a) && ok t.f0 0 && ok t.f1 1

/-- A coefficient of a template: 0 eF, 1 eM, 2 eE, 3 tF, 4 tM, 5 tE, 6 mA, 7 mB, 8 mO. -/
def Template.co (t : Template) (i : Nat) : Rat := coefOf (t.coef.getD i 0)
def Template.cap (t : Template) (i : Nat) : Bool := t.caps.getLsbD i

/-- The larger of two rationals. -/
def ratMax (a b : Rat) : Rat := if a < b then b else a

/-- One candidate with its exact cost (R405): a template, path, orientation, s, p over operands and output. `kl` holds the contracted labels. -/
def PCtx.candidate (x : PCtx) (t : Template) (con : Bool) (ops : List Opnd) (out : Opnd) (macs : Nat) (kl : List Nat)
    (path orient s p : Nat) : Choice :=
  let least : Rat := 1 / 65535
  let d := ratProd (ops.map fun o => ratMax o.dens least)
  let me : Rat := if t.cap 7 then macs * d else macs
  let io : Rat := ((ops.map fun o => o.el).foldl (· + ·) out.el : Nat)
  let role (i : Nat) : Rat := if i = 0 then t.co 6 else t.co 7
  let moved := (ops.zipIdx.flatMap fun (o, i) => o.terms path (role i) s) ++ out.terms 0 (t.co 8) s
  let copy := match con, ops[1]? with
    | true, some b =>
      match b.contig with
      | some l => if (if kl.contains l then 0 else 1) == orient then [] else b.terms 1 (t.co 7) s
      | none => []
    | _, _ => []
  let terms := moved ++ copy
  let rate (c : Nat) : Rat := ((x.rates.find? fun r => r.1 == c).map fun r => r.2).getD 0
  let e := t.co 0 + t.co 1 * me + t.co 2 * io + x.cbar * ratSum (terms.map fun y => y.2 * rate y.1) / 256
  let tm := ratMax (ratMax (t.co 3 + t.co 4 * me / s) (t.co 5 * io / s)) (ratSum (terms.map fun y => y.2 / planRate y.1))
  ⟨t.tid, path, orient, log2n s, log2n p, 0xFFFFFFFF#32, macs, ratCeil (ratSum (terms.map fun y => y.2)), e, tm,
    coefOf x.q.alpha * e + coefOf x.q.beta * tm, [t.tid], [(t.image, log2n s, log2n p)]⟩

/-- All candidates of a node, or of one join of a chain, in costing order (R404), less those that a hint forbids (R409). -/
def PCtx.candidates (x : PCtx) (i : Nat) (nd : QNode) (ops : List Opnd) (out : Opnd) (macs : Nat) (kl : List Nat) : List Choice :=
  let con := nd.op == opCONTRACT
  let h := hintAllows x.hints i
  (x.tmpl.filter fun t => t.fits nd (ops.map fun o => o.fmt) && h 1 t.tid).flatMap fun t =>
    let orients := if con then ([0, 1] : List Nat).filter fun o => t.cap (4 + o) else [0]
    let ps := if con && t.cap 6 then splits (x.q.count kl) else [1]
    ((upto 4).filter fun p => t.cap p && h 2 p).flatMap fun path =>
      (orients.filter (h 3)).flatMap fun o =>
        (x.sizes.filter fun s => s ≤ t.smax && h 4 (log2n s)).flatMap fun s =>
          (ps.filter fun p => h 5 (log2n p)).map fun p => x.candidate t con ops out macs kl path o s p

/-- Insertion after what does not cost more: ties keep costing order (R404). -/
def insCost (c : Choice) : List Choice → List Choice
  | [] => [c]
  | d :: t => if c.cost < d.cost then c :: d :: t else d :: insCost c t

/-- In order of cost. -/
def byCost (l : List Choice) : List Choice := l.foldl (fun a c => insCost c a) []

/-! ### Chains -/

/-- A join of a chain (R443): operands a to m on the left, m + 1 to b on the right. -/
abbrev Join := Nat × Nat × Nat

/-- The labels of the join of children a to b: those that another child or the node's output has, in order of first appearance (R443). -/
def chainLabels (nd : QNode) (kids : List (List Nat)) (a b : Nat) : List Nat :=
  let others := nd.lab ++ ((kids.zipIdx.filter fun k => k.2 < a || b < k.2).flatMap fun k => k.1)
  (union ((kids.drop a).take (b + 1 - a))).filter others.contains

/-- The operand that the join of children a to b leaves. -/
def PCtx.joined (x : PCtx) (i : Nat) (nd : QNode) (a b : Nat) : Opnd :=
  let kids := nd.child.map fun j => x.ops.getD j ⟨0, nd.fmt, [], 1, true, 0, 0, none⟩
  if a = b then kids.getD a ⟨0, nd.fmt, [], 1, true, 0, 0, none⟩
  else if a = 0 && b + 1 = kids.length then x.ops.getD i ⟨0, nd.fmt, [], 1, true, 0, 0, none⟩
  else
    let lab := chainLabels nd (kids.map fun o => o.lab) a b
    { el := x.q.count lab, fmt := nd.fmt, lab := lab, dens := ratProd (((kids.drop a).take (b + 1 - a)).map fun o => ratMax o.dens (1 / 65535)) }

/-- The candidates of one join (R404, R443). -/
def PCtx.joinCands (x : PCtx) (i : Nat) (nd : QNode) (j : Join) : List Choice :=
  let (a, m, b) := j
  let l := x.joined i nd a m
  let r := x.joined i nd (m + 1) b
  let o := x.joined i nd a b
  let all := union [l.lab, r.lab]
  x.candidates i nd [l, r] o (x.q.count all) (minus all o.lab)

/-- The orders of children a to a + n (R408), as joins in the order in which they are made: by the split of the last join, then the order on its
left, then the order on its right. -/
def chainOrders (a : Nat) : Nat → Nat → List (List Join)
  | _, 0 => [[]]
  | 0, _ + 1 => []
  | f + 1, n + 1 =>
    (upto (n + 1)).flatMap fun d =>
      (chainOrders a f d).flatMap fun l => (chainOrders (a + d + 1) f (n - d)).map fun r => l ++ r ++ [(a, a + d, a + n + 1)]

/-- The joins of an order given as places in the current list (R435). -/
def hintedJoins (v : Nat) (cur : List (Nat × Nat)) : Nat → List Join
  | 0 => []
  | n + 1 =>
    let j := v % 16
    match cur[j]?, cur[j + 1]? with
    | some l, some r => (l.1, l.2, r.2) :: hintedJoins (v / 16) (cur.take j ++ (l.1, r.2) :: cur.drop (j + 2)) n
    | _, _ => []

/-- The join list of an order (R437). -/
def joinNibbles (cur : List (Nat × Nat)) (w t : Nat) : List Join → Nat
  | [] => w
  | (a, m, b) :: js =>
    let p := cur.findIdx (· == (a, m))
    joinNibbles (cur.take p ++ (a, b) :: cur.drop (p + 2)) (w - (0xF - p) * 16 ^ t) (t + 1) js

/-- The orders to cost for a chain: the hinted one, all under REASSOC, else left to right (R408, R409). -/
def PCtx.orders (x : PCtx) (i : Nat) (nd : QNode) : List (List Join) :=
  let l := nd.child.length
  match hintOf x.hints i 0 with
  | some v => [hintedJoins v ((upto l).map fun k => (k, k)) (l - 1)]
  | none => if x.q.reassoc then chainOrders 0 l (l - 1) else [(upto (l - 1)).map fun m => (0, m, m + 1)]

/-- A complete order of a chain with each join at its best candidate (R408, R437); none where a join has no candidate. -/
def orderChoice (l : Nat) (best : List (Join × Option Choice)) (js : List Join) : Option Choice :=
  let cs := js.map fun j => ((best.find? fun e => e.1 == j).map fun e => e.2).join
  if cs.any Option.isNone then none
  else
    let cs := cs.filterMap fun c => c
    match cs with
    | [] => none
    | c :: _ =>
      let sum (f : Choice → Rat) := ratSum (cs.map f)
      some { c with
        joins := BitVec.ofNat 32 (joinNibbles ((upto l).map fun k => (k, k)) 0xFFFFFFFF 0 js)
        macs := (cs.map fun d => d.macs).foldl (· + ·) 0
        bytes := (cs.map fun d => d.bytes).foldl (· + ·) 0
        e := sum fun d => d.e
        t := sum fun d => d.t
        cost := sum fun d => d.cost
        tids := (cs.flatMap fun d => d.tids).dedup
        parts := cs.flatMap fun d => d.parts }

/-- A join of an order of chain node i leaves an intermediate of more than 16 MiB (R444). -/
def PCtx.tooBig (x : PCtx) (i : Nat) (nd : QNode) (js : List Join) : Bool :=
  js.any fun j => !(j.1 == 0 && j.2.2 + 1 == nd.child.length) && 2 * maxInter < (x.joined i nd j.1 j.2.2).el * nibbles nd.fmt

/-- Node i is a chain whose one order passes that limit, whatever it costs (R402, R444). -/
def PCtx.oversize (x : PCtx) (i : Nat) : Bool :=
  let nd := x.q.node i
  nd.op == opCONTRACT && match x.orders i nd with
    | [js] => x.tooBig i nd js
    | _ => false

/-- The plan of a chain: its orders in order of cost, and how many candidates were costed; SHAPE where the chosen order's
intermediates pass 16 MiB (R408, R444). -/
def PCtx.chain (x : PCtx) (i : Nat) (nd : QNode) : Except PStop (List Choice × Nat) :=
  let orders := x.orders i nd
  let joins : List Join := orders.flatten.dedup
  let all := joins.map fun j => (j, x.joinCands i nd j)
  let best := all.map fun e => (e.1, (byCost e.2).head?)
  let ranked := byCost (orders.filterMap (orderChoice nd.child.length best))
  let count := (all.map fun e => e.2.length).foldl (· + ·) 0
  match ranked with
  | [] => .error (rNO_CANDIDATE, i)
  | c :: _ =>
    let js := hintedJoins c.joins.toNat ((upto nd.child.length).map fun k => (k, k)) (nd.child.length - 1)
    if x.tooBig i nd js then .error (rSHAPE, i)
    else .ok (ranked, count)

/-! ### The plan of a query -/

/-- Insertion by key. -/
def insKey {α : Type} (key : α → Nat) (x : α) : List α → List α
  | [] => [x]
  | y :: t => if key x < key y then x :: y :: t else y :: insKey key x t

/-- In ascending order of a key, ties as they stand. -/
def byKey {α : Type} (key : α → Nat) (l : List α) : List α := l.foldl (fun a x => insKey key x a) []

/-- The free in-service cores of a function's partition on a die (R226, R246): no job, not being scrubbed. -/
def State.freeCores (s : State) (f : Byte) (d : Nat) : List Nat :=
  (s.partCores f d).filter fun k => (s.core k).job.isNone && (s.core k).scrub.isNone

/-- Hops from the home die of an entry's element 0 to the planning die (R405): 0 for a scratchpad, 4 where it cannot be translated. -/
def State.entryHops (s : State) (d : Nat) (f : Byte) (e : Entry) : Nat :=
  if e.loc.extractLsb' 60 4 != 0#4 then 0
  else match s.hostCheck f e.loc .read false with
    | .ok pa => hops (homeDie pa) d
    | .error _ => 4

/-- Estimates by node (R446); at a re-plan a break output already written counts by its actual statistics (R414). -/
def PlanEng.estimates (p : PlanEng) (q : Query) (done : Option Nat) : List (Nat × Nat × Rat) :=
  let leavesOf (i : Nat) : List (Nat × List (Nat × Rat)) → List (Nat × Rat) := fun acc =>
    (acc.find? fun e => e.1 == i).elim [] fun e => e.2
  let step (acc : List (Nat × Nat × Rat) × List (Nat × List (Nat × Rat))) (xi : QNode × Nat) :=
    let (x, i) := xi
    let el := q.count x.lab
    let known := x.op == opLEAF || (q.isBreak i && done.any fun n => decide (i ≤ n))
    if known then
      let e := p.entry x.entry
      let nz := if e.scount = 0 then el else el * e.nzc / e.scount
      (acc.1 ++ [(el, nz, (e.dens : Rat) / 65535)], acc.2 ++ [(i, [(i, (nz : Rat) / el)])])
    else
      let ls := (x.child.flatMap fun j => leavesOf j acc.2).dedup
      let nz := ratFloor (ratProd (ls.map fun l => l.2) * el)
      (acc.1 ++ [(el, nz, (nz : Rat) / el)], acc.2 ++ [(i, ls)])
  (q.nodes.zipIdx.foldl step ([], [])).1

/-- Node i as an operand (R405, R444, R415). -/
def State.opnd (s : State) (d : Nat) (f : Byte) (q : Query) (est : List (Nat × Nat × Rat)) (i : Nat) : Opnd :=
  let x := q.node i
  let (el, _, dn) := est.getD i (0, 0, 1)
  match q.home i with
  | some j =>
    let y := q.node j
    let e := (s.peng d).entry y.entry
    { el := el, fmt := y.fmt, lab := y.lab, dens := dn, inter := false, tier := e.tier, hops := s.entryHops d f e
      contig := if y.op == opLEAF then y.lab[e.perm.toNat % 8]? else y.lab.getLast? }
  | none => { el := el, fmt := x.fmt, lab := x.lab, dens := dn }

/-- What costing a query takes from the part (R406). -/
def State.planCtx (s : State) (d : Nat) (f : Byte) (q : Query) (hints : List Dword) (done : Option Nat) : PCtx :=
  let p := s.peng d
  let est := p.estimates q done
  let cores := ((upto 192).map fun i => 192 * d + i).filter fun k => !s.failed.contains k
  let sum : Nat := (cores.map s.calib).foldl (· + ·) 0
  let free := max 1 (s.freeCores f d).length
  { rates := ([2, 3, 4, 5] : List Nat).map fun c => (c, s.rate 1 c 0xF)
    cbar := if cores.isEmpty then 1 else (sum : Rat) / (16384 * cores.length : Nat)
    sizes := ((upto 8).map fun j => 2 ^ j).filter fun x => x ≤ free
    tmpl := byKey (fun t => t.tid) ((p.templates.map fun e => e.2).filter fun t => t.func == f)
    q := q, hints := hints, est := est
    ops := (upto q.nodes.length).map fun i => s.opnd d f q est i }

/-- The plan of node i. -/
def PCtx.nodePlan (x : PCtx) (i : Nat) : Except PStop NodePlan :=
  let nd := x.q.node i
  let (el, nz, _) := x.est.getD i (0, 0, 1)
  if nd.op == opLEAF then .ok ⟨[], 0, el, nz⟩
  else if nd.op == opCONTRACT then (x.chain i nd).map fun r => ⟨r.1.take 16, r.2, el, nz⟩
  else
    let kid (j : Nat) := x.ops.getD j ⟨0, nd.fmt, [], 1, true, 0, 0, none⟩
    let cs := x.candidates i nd (nd.child.map kid) (kid i) 0 []
    if cs.isEmpty then .error (rNO_CANDIDATE, i) else .ok ⟨(byCost cs).take 16, cs.length, el, nz⟩

/-- Plans of nodes in order. -/
def PCtx.planAll (x : PCtx) (old : List NodePlan) (done : Option Nat) : List Nat → Except PStop (List NodePlan)
  | [] => .ok []
  | i :: t =>
    let here : Except PStop NodePlan := match done with
      | some n => if i ≤ n then .ok (old.getD i {}) else x.nodePlan i
      | none => x.nodePlan i
    match here with
    | .error z => .error z
    | .ok p => (PCtx.planAll x old done t).map fun r => p :: r

/-- Plan a query of function f on die d (R404 to R409), or at the break of node `done` the nodes after it (R414). A chain of one order is
checked for its size before anything is costed, with the other checks of R402 (R434). -/
def State.planQuery (s : State) (d : Nat) (f : Byte) (q : Query) (hints : List Dword) (old : List NodePlan) (done : Option Nat) :
    Except PStop (List NodePlan) :=
  match q.checkHints hints with
  | .error z => .error z
  | .ok _ =>
    let x := s.planCtx d f q hints done
    match (upto q.nodes.length).find? x.oversize with
    | some i => .error (rSHAPE, i)
    | none => x.planAll old done (upto q.nodes.length)

/-- Candidates costed over nodes. -/
def costedAll (p : List NodePlan) : Nat := (p.map fun n => n.costed).foldl (· + ·) 0

/-- The templates that a plan uses (R412). -/
def planTids (p : List NodePlan) : List Nat := (p.flatMap fun n => (n.ranked.head?).elim [] fun c => c.tids).dedup

/-- The entries that a query depends on: its leaves', less those it writes itself at its breaks (R412). -/
def Query.deps (q : Query) : List Nat :=
  let own := ((upto q.nodes.length).filter q.isBreak).map fun i => (q.node i).entry
  minus ((q.nodes.filter fun x => x.op == opLEAF).map fun x => x.entry).dedup own

/-! ### The explanation -/

/-- Saturation at 32 bits. -/
def sat32 (n : Nat) : Nat := min n 0xFFFFFFFF

/-- A candidate record (R437). -/
def Choice.bytes_ (c : Choice) (i : Nat) : List Byte :=
  bytesOfNat 2 i ++ bytesOfNat 2 c.tid ++ bytesOfNat 1 c.path ++ bytesOfNat 1 c.orient ++ bytesOfNat 1 c.logs ++ bytesOfNat 1 c.logp
    ++ bytesOfNat 4 c.joins.toNat ++ bytesOfNat 4 (sat32 c.macs) ++ bytesOfNat 4 (sat32 c.bytes) ++ bytesOfNat 4 (ratF32 c.e)
    ++ bytesOfNat 4 (ratF32 c.t) ++ bytesOfNat 4 (ratF32 c.cost)

/-- The record of a leaf (R446). -/
def leafRecord (i : Nat) : List Byte := bytesOfNat 2 i ++ zeroBytes 6 ++ bytesOfNat 4 0xFFFFFFFF ++ zeroBytes 20

/-- The node records from an offset of their candidate records, and those records (R437). -/
def explainNodes (off i : Nat) : List NodePlan → List Byte × List Byte
  | [] => ([], [])
  | p :: t =>
    let m := max 1 p.ranked.length
    let rec_ := bytesOfNat 1 i ++ bytesOfNat 1 m ++ zeroBytes 2 ++ bytesOfNat 4 (sat32 p.costed) ++ bytesOfNat 4 off ++ zeroBytes 4
      ++ bytesOfNat 8 p.elems ++ bytesOfNat 8 p.nz
    let cs := if p.ranked.isEmpty then leafRecord i else p.ranked.flatMap fun c => c.bytes_ i
    let (a, b) := explainNodes (off + 32 * m) (i + 1) t
    (rec_ ++ a, cs ++ b)

/-- What `qexpl` writes (R437). -/
def PHandle.explain (h : PHandle) : List Byte :=
  let n := h.plan.length
  let cost := ratSum (h.plan.map fun p => (p.ranked.head?).elim 0 fun c => c.cost)
  let (a, b) := explainNodes (0x40 + 32 * n) 0 h.plan
  bytesOfNat 2 1 ++ bytesOfNat 1 n ++ bytesOfNat 1 (if h.stale = 0 then 0 else 1) ++ bytesOfNat 4 (sat32 (costedAll h.plan))
    ++ bytesOfNat 4 (ratF32 cost) ++ bytesOfNat 4 (sat32 h.replans) ++ zeroBytes 48 ++ a ++ b

end Sys2Proof.Machine
end

