-- ==== Sys2Proof/Machine/PlanExec.lean ====
section
/-! DEFINITION. The results of the nodes of a query (R401, R420 to R423, R443): tensors by label, reading and writing catalog entries
(R394, R415), and each operator's value, which depends on its inputs and its logical order only (R420). -/

namespace Sys2Proof.Machine

/-- A tensor: labels, their extents, format, element patterns with the last label fastest. -/
structure Ten where
  lab : List Nat
  dims : List Nat
  fmt : Fmt
  data : Array Nat

/-- An assignment of indices to labels 0 to 15. -/
abbrev Asg := List Nat

/-- No label assigned. -/
def asg0 : Asg := List.replicate 16 0

/-- All assignments of labels with their extents, over one given, the last label fastest. -/
def assigns (e : Asg) : List (Nat × Nat) → List Asg
  | [] => [e]
  | (l, n) :: t => (upto n).flatMap fun v => assigns (e.set l v) t

/-- The assignments of labels of a query. -/
def Query.each (q : Query) (e : Asg) (ls : List Nat) : List Asg := assigns e (ls.map fun l => (l, q.extent l))

/-- Flat place of an assignment in labels with extents. -/
def flatIx (e : Asg) (lab dims : List Nat) : Nat := (lab.zip dims).foldl (fun a p => a * p.2 + e.getD p.1 0) 0

/-- The element at an assignment. -/
def Ten.bits (t : Ten) (e : Asg) : Nat := t.data.getD (flatIx e t.lab t.dims) 0
/-- Its value: catalog leaves carry no block scales (R402). -/
def Ten.val (t : Ten) (e : Asg) : Val := decodeElem t.fmt (t.bits e)
/-- As an integer. -/
def Ten.int (t : Ten) (e : Asg) : Int := if t.fmt == fRS24 then rsDecode (t.bits e) else toSigned ((intBits t.fmt).getD 32) (t.bits e)

/-! ### Catalog entries in memory -/

/-- Storage stride of dimension d (R394). -/
def permStride (dims : List Nat) (perm d : Nat) : Nat :=
  let order := (upto dims.length).map fun i => perm / 8 ^ i % 8
  prod ((order.takeWhile (· != d)).map fun j => dims.getD j 1)

/-- The places of the elements of an entry, the last dimension fastest (R394). -/
def entryPlaces (dims : List Nat) (perm : Nat) : List Nat :=
  let ds := dims.zipIdx.map fun p => (p.1, permStride dims perm p.2)
  ds.foldl (fun acc p => acc.flatMap fun o => (upto p.1).map fun i => o + i * p.2) [0]

/-- The locations of n bytes from an address word of a catalog entry of function f on die d (R393), or the failing cause. -/
def State.planLocs (s : State) (d : Nat) (f : Byte) (a : Dword) (n : Nat) (acc : Access) : Except Byte (List Nat) :=
  match placeOf a n with
  | .error e => .error e
  | .ok (.virt _) =>
    match s.hostLocs f a acc false n with
    | .error e => .error e
    | .ok ls => if acc == .read && ls.any fun l => s.poisoned l 1 then .error cPOISON else .ok ls
  | .ok (.window c off) =>
    if (s.partCores f d).contains (192 * d + c) then .ok ((upto n).map fun i => scratchLoc (192 * d + c) + off + i) else .error cWINDOW
  | .ok (.own _) => .error cADDR_SPACE
  | .ok (.stage _ _) => .error cADDR_SPACE
  | .ok (.acc _) => .error cADDR_SPACE

/-- Element j of packed bytes (R42). -/
def packedElem (b : Array Byte) (nib j : Nat) : Nat :=
  let at_ (i : Nat) := (b.getD i 0#8).toNat
  if nib = 1 then at_ (j / 2) / 16 ^ (j % 2) % 16
  else (upto (nib / 2)).foldr (fun i v => at_ (j * nib / 2 + i) + 256 * v) 0

/-- Read the tensor of an entry under labels (R394). -/
def State.readEntry (s : State) (d : Nat) (f : Byte) (e : Entry) (lab : List Nat) : Except Byte Ten :=
  (s.planLocs d f e.loc e.bytes .read).map fun ls =>
    let b := (ls.map (Memory.read s.mem)).toArray
    ⟨lab, e.dims, e.fmt, ((entryPlaces e.dims e.perm.toNat).map (packedElem b (nibbles e.fmt))).toArray⟩

/-- Write elements of an entry at their places, the last dimension fastest (R394, R42), under the checks of an access: a SCATTER's are those
of an accumulate-on-write (R204). -/
def State.writeEntry (s : State) (d : Nat) (f : Byte) (e : Entry) (vs : List Nat) (acc : Access) : Except Byte State :=
  (s.planLocs d f e.loc e.bytes acc).map fun ls =>
    let la := ls.toArray
    let nib := nibbles e.fmt
    let mem := ((entryPlaces e.dims e.perm.toNat).zip vs).foldl (fun m (p : Nat × Nat) =>
      let ds := elemBytes ⟨0#64, p.1 % 2 == 1⟩ nib p.2
      ds.zipIdx.foldl (fun m x => Memory.writeMask m (la.getD (p.1 * nib / 2 + x.2) 0) [x.1]) m) s.mem
    { s with mem := mem }.mendAll ls

/-! ### Rounding at a node's output -/

/-- A node's value rounded into its format under its mode (R401). Under SR the cores that run the node's items draw from their generators
(R400), set from the seed of the template's job image; which words of that image draw, and in what order, the spec does not say, so each
draw is a free value (DESIGN CHOICE, log 44). -/
def cvtOut (fresh i : Nat) (x : QNode) (v : Val) : Nat :=
  (roundTo x.fmt (modeOf x.mode) (if modeOf x.mode == .sr then (Config.info (fresh + i)).toNat % 65536 else 0) v).1

/-- An element moved into a node's output: in its own format its bits as they are (R166, R178), else its value rounded. -/
def moveOut (fresh i : Nat) (x : QNode) (f : Fmt) (bits : Nat) : Nat :=
  if f == x.fmt then bits else cvtOut fresh i x (decodeElem f bits)

/-- Elements of a format, moved, as a node's output. -/
def movedTen (q : Query) (lab : List Nat) (x : QNode) (fresh : Nat) (f : Fmt) (bs : List Nat) : Ten :=
  ⟨lab, lab.map q.extent, x.fmt, (bs.zipIdx.map fun p => moveOut fresh p.2 x f p.1).toArray⟩

/-- Values as a node's output. -/
def outTen (q : Query) (lab : List Nat) (x : QNode) (fresh : Nat) (vs : List Val) : Ten :=
  ⟨lab, lab.map q.extent, x.fmt, (vs.zipIdx.map fun p => cvtOut fresh p.2 x p.1).toArray⟩

/-! ### CONTRACT and REDUCE -/

/-- Adjacent pairs combined, one left over as it is. -/
def pairUp (add : Nat → Nat → Nat) : List Nat → List Nat
  | a :: b :: t => add a b :: pairUp add t
  | l => l

/-- Pairs combined until one value is left. -/
def foldPairs (add : Nat → Nat → Nat) (l : List Nat) : Nat → Nat
  | 0 => l.headD 0
  | n + 1 => if l.length ≤ 1 then l.headD 0 else foldPairs add (pairUp add l) n

/-- The span tree of R281 over chunk results: spans of 16 summed left to right, spans combined in a perfect binary tree. -/
def spanTree (add : Nat → Nat → Nat) (cs : List Nat) : Nat :=
  let spans := (runsOf 16 cs cs.length).map fun r => r.tail.foldl add (r.headD 0)
  foldPairs add spans spans.length

/-- A profile by its number (R401). -/
def profileOf (n : Nat) : Profile :=
  match n with
  | 1 => .p1
  | 2 => .p2
  | _ => .p3

/-- One output element of a contraction over a k sequence (R280, R284, R421): a value of the profile's kind. -/
def contractElem (p : Profile) (kind : Nat) (a b : Ten) (ks : List Asg) : Val :=
  let chunks (n : Nat) := (ks.length + n - 1) / n
  let part (i : Nat) := (ks.drop (256 * i)).take 256
  let res (i : Nat) : Nat :=
    match p with
    | .p3 =>
      let x := intDot ((part i).map a.int) ((part i).map b.int)
      if kind = kRS24 then rsEncode x else ofSigned 32 (rsDecode (rsEncode x))
    | .p2 => (chunkDot 8 64 ((part i).map a.val) ((part i).map b.val)).1
    | .p1 => (chunkDot 32 40 ((part i).map a.val) ((part i).map b.val)).1
  let r := spanTree (fun x y => (treeAdd kind x y).1) ((upto (chunks 256)).map res)
  if kind = kRS24 then .ofInt (rsDecode r) else if kind = kINT32 then .ofInt (toSigned 32 r) else f32 r

/-- Labels in ascending order. -/
def ascending (l : List Nat) : List Nat := byKey (fun x => x) l

/-- A join of two tensors into labels (R421, R443): k over the contracted labels, the lowest slowest. -/
def contract (q : Query) (x : QNode) (fresh : Nat) (a b : Ten) (out : List Nat) : Except Byte Ten :=
  let p := profileOf x.a
  match pairKind p a.fmt b.fmt with
  | none => .error cFORMAT
  | some kind =>
    let kl := ascending (minus (union [a.lab, b.lab]) out)
    .ok (outTen q out x fresh ((q.each asg0 out).map fun e => contractElem p kind a b (q.each e kl)))

/-- The joins of a chain in their order (R408, R422, R443): the current list of tensors with their children. -/
def chainRun (q : Query) (x : QNode) (kids : List (List Nat)) (fresh : Nat) (cur : List (Nat × Nat × Ten)) : List Join → Except Byte Ten
  | [] => match cur with
    | (_, _, t) :: _ => .ok t
    | [] => .error cFORMAT
  | (a, m, b) :: js =>
    let p := cur.findIdx fun c => c.1 == a && c.2.1 == m
    match cur[p]?, cur[p + 1]? with
    | some l, some r =>
      let out := if js.isEmpty then x.lab else chainLabels x kids a b
      match contract q x fresh l.2.2 r.2.2 out with
      | .error z => .error z
      | .ok t => chainRun q x kids (fresh + t.data.size) (cur.take p ++ (a, b, t) :: cur.drop (p + 2)) js
    | _, _ => .error cFORMAT

/-- REDUCE of one output element (R423). A sum of INT4, INT8 or INT64 elements is taken by the FP32 rule, which excepts INT32 alone; one of
RS24 elements is reduced modulo M, as R387 has it (DESIGN CHOICE, log 107). -/
def reduceElem (kind : Nat) (f : Fmt) (vs : List Val) : Val :=
  match kind with
  | 0 =>
    if f == fINT32 || f == fRS24 then
      match (sumExact false vs).1 with
      | .fin n m e _ =>
        let t := sgn n (m * 2 ^ e.toNat)
        .ofInt (if f == fINT32 then (satInt 32 t).1 else rsDecode (rsEncode t))
      | v => v
    else
      let runs := (upto ((vs.length + 255) / 256)).map fun i => (rneF32 (sumExact false ((vs.drop (256 * i)).take 256)).1).1
      f32 (spanTree (fun x y => (treeAdd kFP32 x y).1) runs)
  | 1 => lineMax vs
  | _ => lineMin vs

/-! ### The other operators -/

/-- EWISE of one element (R374, R381 to R383). -/
def ewiseElem (fn : Nat) (m : RMode) (a b : Val) : Val :=
  match fn with
  | 0 => (Val.add (m == .rdn) a b).1
  | 1 => (Val.add (m == .rdn) a b.neg).1
  | 2 => (Val.mul a b).1
  | 3 => a.maxOf b
  | 4 => a.minOf b
  | 5 => f32 (BFn.exp.eval a).1
  | 6 => f32 (BFn.tanh.eval a).1
  | 7 => (Val.div a b).1
  | 8 => (Val.mul a (f32 (rneF32 b.rcp.1).1)).1
  | 9 => (Val.mul a b).1
  | _ => a.abs

/-- An index tensor's elements must be INT32 or INT64 and lie below n (R196). -/
def indexOk (t : Ten) (n : Nat) (es : List Asg) : Except Byte Unit :=
  if t.fmt != fINT32 && t.fmt != fINT64 then .error cFORMAT
  else if es.any fun e => t.int e < 0 || (n : Int) ≤ t.int e then .error cXINDEX
  else .ok ()

/-- GATHER (R196, R166): each output element is the table's, its row taken from the index. -/
def gatherTen (q : Query) (x : QNode) (fresh : Nat) (tab ix : Ten) : Except Byte Ten :=
  let row := x.a % 16
  (indexOk ix (q.extent row) (q.each asg0 ix.lab)).map fun _ =>
    movedTen q x.lab x fresh tab.fmt ((q.each asg0 x.lab).map fun e => tab.bits (e.set row (ix.int e).toNat))

/-- A list put into an order that the part chooses, by insertion (R174: without det the updates arrive in any order). -/
def anyOrder {α : Type} (fresh : Nat) : List α → List α
  | [] => []
  | a :: t =>
    let r := anyOrder (fresh + t.length + 1) t
    let p := ((upto r.length).takeWhile fun i => Config.choice (fresh + i)).length
    r.take p ++ a :: r.drop p

/-- The updates of a SCATTER in row-major order of the rows (R197): the flat place in the target and the value. -/
def scatterUps (q : Query) (rows ix tgt : Ten) : List (Nat × Nat) :=
  let row := (minus tgt.lab rows.lab).headD 0
  (q.each asg0 rows.lab).map fun e => (flatIx (e.set row (ix.int e).toNat) tgt.lab tgt.dims, rows.bits e)

/-- SCATTER (R197, R204): the target's elements after the updates, in row-major order of the rows with det, else in any order. -/
def scatterTen (q : Query) (x : QNode) (fresh : Nat) (rows ix tgt : Ten) : Except Byte Ten :=
  let op := BitVec.ofNat 6 x.a
  let row := (minus tgt.lab rows.lab).headD 0
  if rows.fmt != acwFmt op || tgt.fmt != acwFmt op then .error cFORMAT
  else (indexOk ix (q.extent row) (q.each asg0 ix.lab)).map fun _ =>
    let ups := scatterUps q rows ix tgt
    let ups := if x.detScatter then ups else anyOrder fresh ups
    { tgt with data := ups.foldl (fun d u => d.setIfInBounds u.1 (acwNew op (d.getD u.1 0) u.2)) tgt.data }

/-- COMBINE (R177, R418): rows by token and rank, the first of each kept; how many were dropped. The elements of a token without all its
ranks are free values that the inputs fix (R420). -/
def combineTen (q : Query) (x : QNode) (fresh : Nat) (rows rmap : Ten) : Except Byte (Ten × Nat) :=
  let nr := x.a + 1
  let tok := minus x.lab rows.lab
  let inner := x.lab.filter rows.lab.contains
  let src := minus rows.lab x.lab
  let ntok := prod (tok.map q.extent)
  let tokOf (e : Asg) := flatIx e tok (tok.map q.extent)
  let sent := (q.each asg0 src).map fun e =>
    let m := Config.rankMap ((q.each e (minus rmap.lab src)).map rmap.bits)
    ((m.1 % ntok, m.2), e)
  if rows.fmt != fFP32 || sent.any fun r => nr ≤ r.1.2 then .error cCMB_RANK
  else
    let kept := sent.foldl (fun (k : List ((Nat × Nat) × Asg)) r => if k.any fun o => o.1 == r.1 then k else k ++ [r]) []
    let elem (e : Asg) (i : Nat) : Val :=
      let parts := (upto nr).map fun k => (kept.find? fun r => r.1 == (tokOf e, k)).map fun r =>
        rows.val (inner.foldl (fun a l => a.set l (e.getD l 0)) r.2)
      if parts.any Option.isNone then
        f32 (Config.combineHole nr (x.lab.map q.extent) rows.data.toList rmap.data.toList i).toNat
      else
        let vs := parts.filterMap fun v => v
        vs.tail.foldl (fun a v => f32 (rneF32 (Val.add false a v).1).1) (vs.headD vZero)
    let es := q.each asg0 x.lab
    .ok (outTen q x.lab x fresh (es.zipIdx.map fun p => elem p.1 p.2), sent.length - kept.length)

/-- TOPK (R178): along the searched label the k selected values, or their indices (log 37). -/
def topkTen (q : Query) (x : QNode) (fresh : Nat) (t : Ten) : Except Byte Ten :=
  let l := x.a / 256 % 16
  let new := (q.topkLabel x).getD l
  if t.fmt != fFP32 then .error cFORMAT
  else
    let sel (e : Asg) := selRow (x.a / 128 % 2 == 1) (x.a % 128) ((upto (t.dims.getD (t.lab.findIdx (· == l)) 0)).map fun i => t.bits (e.set l i))
    let elem (e : Asg) : Nat :=
      let y := (sel e).getD (e.getD new 0) (0, 0)
      if Config.topkIndices then y.1 else y.2
    .ok (movedTen q x.lab x fresh (if Config.topkIndices then fINT32 else fFP32) ((q.each asg0 x.lab).map elem))

/-- The blocks of reflectors appended in ascending column order, in segments of 32 (R324, mode 1). -/
def reflectorBlocks (n : Nat) (cols : List (List Nat)) (r : OaRun) : List OaBlk × OaReg × OaRun :=
  cols.foldl (fun (acc : List OaBlk × OaReg × OaRun) c =>
    let (segs, g, r) := acc
    let (segs, g) := if g.k = 32 then (segs ++ g.blk, { g with k := 0, t := [], y := [] }) else (segs, g)
    let (g, r) := g.appended (c.take n) (c.getD n 0) r
    (segs, g, r)) ([], { init := true, mode := 1, n := n }, r)

/-- ORTHAPPLY (R324, R327, R328): X with the reflectors applied from the left or the right. -/
def orthTen (q : Query) (x : QNode) (fresh : Nat) (rf xt : Ten) : Except Byte Ten :=
  let tr := x.a % 2 == 1
  let right := x.a / 2 == 1
  if rf.fmt != fFP32 || xt.fmt != fFP32 then .error cFORMAT
  else
    let n1 := rf.dims.getD 0 0
    let k := rf.dims.getD 1 0
    let col (j : Nat) := (upto n1).map fun i => rf.data.getD (i * k + j) 0
    let (segs, g, r) := reflectorBlocks (n1 - 1) ((upto k).map col) {}
    let fwd := tr != right
    let bs := if fwd then segs ++ g.blk else g.blk ++ segs.reverse
    let rows := xt.dims.getD 0 0
    let cols := xt.dims.getD 1 0
    let m := (upto rows).map fun i => (upto cols).map fun j => xt.data.getD (i * cols + j) 0
    let (y, _) := OaRun.each (fun r v => oaChain bs (n1 - 1) fwd v r) r (if right then m else flip cols m)
    let y := if right then y else flip rows y
    let res : Ten := { xt with data := y.flatten.toArray }
    .ok (outTen q x.lab x fresh ((q.each asg0 x.lab).map res.val))

/-! ### A node -/

/-- What a node leaves (R415, R418): its output, dropped combine rows, and the elements that SCATTER writes in place to its target. -/
structure NodeOut where
  ten : Ten
  dup : Nat := 0
  target : Option Ten := none

/-- The value of node i from its children's (R401); the order of a chain is that of its plan. -/
def evalNode (q : Query) (plan : List NodePlan) (fresh i : Nat) (kids : List Ten) : Except Byte NodeOut :=
  let x := q.node i
  let none_ : Ten := ⟨[], [], fRAW, #[]⟩
  let k (j : Nat) := kids.getD j none_
  let m := modeOf x.mode
  match x.op with
  | 1 =>
    let l := x.child.length
    let v := ((plan.getD i {}).ranked.head?).elim 0 fun c => c.joins.toNat
    (chainRun q x (kids.map fun t => t.lab) fresh (kids.zipIdx.map fun p => (p.2, p.2, p.1))
      (hintedJoins v ((upto l).map fun k => (k, k)) (l - 1))).map fun t => { ten := t }
  | 2 => .ok { ten := outTen q x.lab x fresh ((q.each asg0 x.lab).map fun e => ewiseElem x.a m ((k 0).val e) ((k 1).val e)) }
  | 3 =>
    let red := (upto 16).filter fun l => x.a / 2 ^ l % 2 == 1
    .ok { ten := outTen q x.lab x fresh ((q.each asg0 x.lab).map fun e =>
      reduceElem (x.a / 65536) (k 0).fmt ((q.each e red).map (k 0).val)) }
  | 4 => (gatherTen q x fresh (k 0) (k 1)).map fun t => { ten := t }
  | 5 => (scatterTen q x fresh (k 0) (k 1) (k 2)).map fun t =>
      { ten := movedTen q x.lab x fresh t.fmt ((q.each asg0 x.lab).map t.bits), target := some t }
  | 6 => (combineTen q x fresh (k 0) (k 1)).map fun t => { ten := t.1, dup := t.2 }
  | 7 => (topkTen q x fresh (k 0)).map fun t => { ten := t }
  | 8 => .ok { ten := outTen q x.lab x fresh ((q.each asg0 x.lab).map (k 0).val) }
  | _ => (orthTen q x fresh (k 0) (k 1)).map fun t => { ten := t }

/-- Child j as a tensor: a leaf or what a break has left from its entry, another node from what it left (R415, R444). -/
def State.childTen (s : State) (d : Nat) (f : Byte) (q : Query) (vals : Map (List Nat)) (j : Nat) : Except Byte Ten :=
  let x := q.node j
  match q.home j with
  | some i => s.readEntry d f ((s.peng d).entry (q.node i).entry) (q.node i).lab
  | none => .ok ⟨x.lab, x.lab.map q.extent, x.fmt, (mget vals j []).toArray⟩

/-- All children. -/
def State.childTens (s : State) (d : Nat) (f : Byte) (q : Query) (vals : Map (List Nat)) : List Nat → Except Byte (List Ten)
  | [] => .ok []
  | j :: t =>
    match s.childTen d f q vals j with
    | .error z => .error z
    | .ok x => (State.childTens s d f q vals t).map fun r => x :: r

/-! ### SCATTER with det -/

/-- What the group record of a det SCATTER of function f breaks (R172): checked as an accumulate-on-write over its bytes, then its layout and
the issuers: the cause and the address. Which stream of which core of the team issues is the template's; that one of the team's cores must
be listed is the model's choice (DESIGN CHOICE, log 109). -/
def State.groupFail (s : State) (f : Byte) (g : Dword) (cores : List Nat) : Option (Byte × Dword) :=
  let at_ (a : Dword) : Option (Byte × Dword) := match s.hostCheck f a .aow false with
    | .error z => some (z, a)
    | .ok l => if l % 64 = 0 then none else some (cMISALIGN, a)
  match at_ g, s.hostRead f g 1 with
  | some z, _ => some z
  | none, .error z => some (z, g)
  | none, .ok h =>
    let n := natOfBytes h
    match at_ (g + BitVec.ofNat 64 (64 * ((32 + 4 * n - 1) / 64))), s.hostRead f g (32 + 4 * n) with
    | some z, _ => some z
    | none, .error z => some (z, g)
    | none, .ok bs =>
      match parseGroup bs with
      | none => some (cDET_GROUP, g)
      | some r => if r.issuers.any fun w => cores.contains (issuerCore w) then none else some (cDET_GROUP, g)

/-- The updates of a det SCATTER stay in HBM4E on the dies of the group's dmask (R172), and its round is counted (R175). -/
def State.scatterRound (s : State) (d : Nat) (q : Query) (x : QNode) (f : Byte) (kids : List Ten) : Except Byte State :=
  let e := (q.heldBy (x.child.getD 2 0)).map (s.peng d).entry
  match e, s.hostRead f x.c 32, kids with
  | some e, .ok h, [rows, ix, tgt] =>
    match s.planLocs d f e.loc e.bytes .aow with
    | .error z => .error z
    | .ok ls =>
      let la := ls.toArray
      let ps := (entryPlaces e.dims e.perm.toNat).toArray
      let at_ (i : Nat) : Nat := la.getD (ps.getD i 0 * nibbles e.fmt / 2) 0
      let ok (u : Nat × Nat) : Bool := isHbm (at_ u.1) && maskHas (h.getD 1 0#8) (homeDie (at_ u.1))
      if (scatterUps q rows ix tgt).all ok then .ok (s.bump f x.c 0x08 1) else .error cDET_GROUP
  | none, _, _ => .error cDET_GROUP
  | some _, .error z, _ => .error z
  | some _, .ok _, _ => .ok s

/-- The free values that a node may take. -/
def freeBound (kids : List Ten) (q : Query) (x : QNode) : Nat :=
  let n := (kids.map fun t => t.data.size).foldl (· + ·) (q.count x.lab)
  8 * (n + 1) * (n + 1)

/-- The entry a node's output leaves at its break (R415): dims, fmt, ndim, perm of the node, version + 1, exact statistics, live. -/
def Entry.broke (e : Entry) (x : QNode) (t : Ten) : Entry :=
  let n := t.dims.length
  let perm := (upto 6).foldl (fun p i => p + (if i < n then n - 1 - i else 7) * 8 ^ i) 0
  let base : Entry := { e with dims := t.dims, fmt := x.fmt, perm := BitVec.ofNat 18 perm, state := 1, scount := 0, nzc := 0, dens := 0, emin := 32767, emax := -32768 }
  t.data.toList.foldl (fun e b => e.fold (decodeElem x.fmt b)) base

end Sys2Proof.Machine
end

