-- ==== Sys2Proof/Machine/Plan.lean ====
section
/-! DEFINITION. The plan words of the sequencer (R426 to R440), runs of queries node by node with their breaks and ends (R413 to R419,
R436, R447), the answers on their way to block streams (R426, R441), and what an FLR or a shrink does to the plan engine (R441, R412). A
request is applied whole when its word is issued (R398, log 33). -/

namespace Sys2Proof.Machine

/-! ### Memory operands -/

/-- How a request of a plan word ends: a trap, a refusal, an answer, a wait for the end of a run. -/
inductive PRes where
  | trap (cause sub : Byte) (info : Dword)
  | refuse (z : PStop)
  | answer (v : Nat)
  | later
  deriving DecidableEq, Repr

/-- A check of a memory operand of alignment `al` (R428): it lies in space 0x0 or 0x1, else ADDR_SPACE (R40); then the first cause of R52 at
its first byte, else MISALIGN. -/
def State.planAlign (s : State) (a : Dword) (al : Nat) (acc : Access) : Except Byte Unit × State :=
  if 2 ≤ spaceOf a then (.error cADDR_SPACE, s)
  else if a.toNat % al = 0 then (.ok (), s)
  else match s.seqLocate a 1 acc with
    | (.error e, t) => (.error e, t)
    | (.ok _, t) => (.error cMISALIGN, t)

/-- Read c pieces of n bytes from an address word (R428), or the failing cause with its address word. -/
def State.planPieces (s : State) (a : Dword) (n : Nat) : Nat → Except (Byte × Dword) (List Byte) × State
  | 0 => (.ok [], s)
  | c + 1 =>
    match s.seqRead a n with
    | (.error e, t) => (.error (e, a), t)
    | (.ok v, t) =>
      match State.planPieces t (a + BitVec.ofNat 64 n) n c with
      | (.error e, u) => (.error e, u)
      | (.ok bs, u) => (.ok (bytesOfNat n v ++ bs), u)

/-- Read an aligned memory operand (R428). -/
def State.planRead (s : State) (a : Dword) (al n c : Nat) : Except (Byte × Dword) (List Byte) × State :=
  match s.planAlign a al .read with
  | (.error e, t) => (.error (e, a), t)
  | (.ok _, t) => t.planPieces a n c

/-- The locations of pieces of 64 bytes, the last maybe shorter, checked as writes (R428). -/
def State.planPlaces (s : State) (a : Dword) (n : Nat) : Nat → Except (Byte × Dword) (List Nat) × State
  | 0 => (.ok [], s)
  | f + 1 =>
    if n = 0 then (.ok [], s)
    else
      match s.seqLocate a (min n 64) .write with
      | (.error e, t) => (.error (e, a), t)
      | (.ok l, t) =>
        match State.planPlaces t (a + 64#64) (n - 64) f with
        | (.error e, u) => (.error e, u)
        | (.ok ls, u) => (.ok (l :: ls), u)

/-- Bytes as ordinary stores of the block stream at checked places (R428). -/
def State.planStore (s : State) (ls : List Nat) (bs : List Byte) : State :=
  (ls.foldl (fun (x : State × List Byte) l => (x.1.emit x.1.seqWriter none l (wholeBytes (x.2.take 64)), x.2.drop 64)) (s, bs)).1

/-- Write a memory operand aligned to 64 (R428). -/
def State.planWrite (s : State) (a : Dword) (bs : List Byte) : Except (Byte × Dword) State × State :=
  match s.planAlign a 64 .write with
  | (.error e, t) => (.error (e, a), t)
  | (.ok _, t) =>
    match t.planPlaces a bs.length bs.length with
    | (.error e, u) => (.error e, u)
    | (.ok ls, u) => (.ok (u.planStore ls bs), u)

/-- A failing access as a trap. -/
def accTrap (z : Byte × Dword) : PRes := .trap z.1 0#8 z.2

/-! ### Requests and answers -/

/-- The die that acts. -/
def State.myDie (s : State) : Nat := coreDie s.cur.k.val

/-- Charge a request at the submitting core (R410). -/
def State.planCharge (s : State) (cls n : Nat) : State := s.charge s.cur.k.val 4 cls 0xF n

/-- An answer for a block stream of a job (R426). -/
def State.planAnswer (s : State) (d : Nat) (team rank : Nat) (q : Fin 4) (v : Dword) : State :=
  s.modPlan d fun p => { p with answers := p.answers ++ [(team, rank, q, v)] }

/-- A plan word (R426): its request, then the wait for its answer; a trap instead leaves nothing requested. -/
def State.planWord (s : State) (w : Word) (req : State → PRes × State) : State :=
  let d := s.myDie
  let reply (t : State) (v : Dword) : State := (t.planAnswer d t.me.jobTeam t.me.jobRank t.cur.q v).wait w 0#64
  match req s.seqCharge with
  | (.trap c sub i, t) => t.trap c sub i
  | (.refuse z, t) => reply t (BitVec.ofNat 64 (2 ^ 63 + 256 * z.2 + z.1))
  | (.answer v, t) => reply t (BitVec.ofNat 64 v)
  | (.later, t) => t.wait w 0#64

/-- Team and rank are those of a job that runs, or is saved, somewhere (R441). -/
def State.jobLives (s : State) (team : Nat) : Bool :=
  (upto 8).any fun d => (s.die d).teams.any (fun t => t.id == team) || (s.die d).cands.any (fun c => c.team.id == team) ||
    s.hampers.any fun h => h.cand.team.id == team

/-- R426, R441: the oldest answer whose job is on a core reaches its block stream; an answer to a job that is no more is discarded, one to
a saved job stays. -/
def execPlanResponse (d : DieIx) (s : State) : Host.Outcome State Fault Refusal :=
  let as := (s.peng d.val).answers
  let core (a : Nat × Nat × Fin 4 × Dword) := s.refCore ⟨a.1, a.2.1, .queue, 0#64⟩
  match as.find? fun a => (core a).isSome || !s.jobLives a.1 with
  | none => .next s
  | some a =>
    let s := s.modPlan d.val fun p => { p with answers := p.answers.erase a }
    match core a with
    | none => .next s
    | some k => .next ((s.modQ k a.2.2.1 fun b => { b with answer := some a.2.2.2 }).wake k)

/-! ### Catalog words -/

/-- Entry number of a request; MALFORMED above 4,095; NOT_OWNER for a free entry or another function's (R392, R427). -/
def PlanEng.named (p : PlanEng) (f : Byte) (v : Dword) : Except PStop (Nat × Entry) :=
  if 4096 ≤ v.toNat then .error (rMALFORMED, 0xFF)
  else
    let e := p.entry v.toNat
    if e.state = 0 || e.owner != f then .error (rNOT_OWNER, 0xFF) else .ok (v.toNat, e)

/-- The used fields of a catalog image (R393, R394, R431), or none where they are out of range. -/
def catalogImage (b : Raw) : Option Entry :=
  let desc := rawNat b 0x28 4
  let nd := desc / 2 ^ 21 % 8
  let dims := (upto 6).map fun i => rawNat b (8 + 4 * i) 4
  let perm := (upto 6).map fun i => desc / 8 ^ i % 8
  let fmt := BitVec.ofNat 4 (desc / 2 ^ 28)
  let tier := desc / 2 ^ 26 % 4
  let loc : Dword := BitVec.ofNat 64 (rawNat b 0x20 8)
  let locOk := match placeOf loc 1 with
    | .ok (.virt _) => tier != 2
    | .ok (.window _ _) => tier == 2
    | _ => false
  if fmt.toNat ≤ 0xA && tier != 3 && 1 ≤ nd && nd ≤ 6 &&
     (dims.take nd).all (fun x => 1 ≤ x && x ≤ 0x1000000) && (dims.drop nd).all (· == 0) &&
     (upto nd).all (fun i => (perm.take nd).contains i) && (perm.drop nd).all (· == 7) && locOk
  then some { id := BitVec.ofNat 32 (rawNat b 0 4), dims := dims.take nd, loc := loc, fmt := fmt, tier := tier, state := 1,
              trk := desc / 2 ^ 20 % 2 == 1, perm := BitVec.ofNat 18 desc, emin := 32767, emax := -32768 }
  else none

/-- The lowest free entry. -/
def PlanEng.freeEntry (p : PlanEng) : Option Nat := (upto 4096).find? fun i => (p.entry i).state == 0

/-- Tracked entries other than e (R397). -/
def PlanEng.tracked (p : PlanEng) (e : Nat) : Nat := (p.catalog.filter fun x => x.1 != e && x.2.state != 0 && x.2.trk).length

/-- `qcat` on the entry with a valid image (R431). -/
def PlanEng.register (p : PlanEng) (f : Byte) (v : Dword) (img : Entry) : Except PStop (Nat × PlanEng) :=
  let which : Except PStop Nat :=
    if v == BitVec.allOnes 64 then (match p.freeEntry with
      | some e => .ok e
      | none => .error (rFULL, 0xFF))
    else if v.toNat < 4096 then .ok v.toNat else .error (rMALFORMED, 0xFF)
  which >>= fun e =>
    let old := p.entry e
    if old.state != 0 && old.owner != f then .error (rNOT_OWNER, 0xFF)
    else if old.state = 2 then .error (rBUSY, 0xFF)
    else if img.trk && 256 ≤ p.tracked e then .error (rFULL, 0xFF)
    else
      let kept := if old.state = 0 then { img with owner := f } else { img with owner := f, soft := old.soft, plan := old.plan }
      .ok (e, (p.setEntry e { kept with version := old.version }).bumpVersion e)

/-- A request on the catalog: what the engine answers and how it changes. -/
def State.catReq (s : State) (r : PlanEng → Byte → Except PStop (Nat × PlanEng)) : PRes × State :=
  match r (s.peng s.myDie) s.me.jobFunc with
  | .error z => (.refuse z, s)
  | .ok (v, p) => (.answer v, (s.modPlan s.myDie fun _ => p).planCharge 2 1)

/-- R431. -/
def execQcat (rd ra rb : BitVec 5) (s : State) : Host.Outcome State Fault Refusal :=
  .next (s.planWord (rForm 0x38#6 rd ra rb 0#11) fun s =>
    match s.planRead (s.g ra) 64 64 1 with
    | (.error z, t) => (accTrap z, t)
    | (.ok b, t) =>
      match catalogImage b with
      | none => (.refuse (rMALFORMED, 0xFF), t)
      | some img => t.catReq fun p f => p.register f (t.g rb) img)

/-- R432: the entry's 64 bytes. -/
def execQstr (rd ra rb : BitVec 5) (s : State) : Host.Outcome State Fault Refusal :=
  .next (s.planWord (rForm 0x38#6 rd ra rb 0x100#11) fun s =>
    match (s.peng s.myDie).named s.me.jobFunc (s.g rb) with
    | .error z => (.refuse z, s)
    | .ok (_, e) =>
      match s.planWrite (s.g ra) e.image with
      | (.error z, t) => (accTrap z, t)
      | (.ok u, _) => (.answer e.version.toNat, u.planCharge 2 1))

/-- The fold of four INT32 into an entry (R432). -/
def Entry.statWrite (e : Entry) (rst : Bool) (w : List Int) : Entry :=
  let e := if rst then { e with scount := 0, nzc := 0, emin := 32767, emax := -32768 } else e
  let w (i : Nat) := w.getD i 0
  let sc := satN (e.scount + (w 1).toNat)
  let nz := min (satN (e.nzc + (w 0).toNat)) sc
  let e := { e with scount := sc, nzc := nz, dens := densOf sc nz }
  if w 3 ≤ w 2 then { e with emin := min e.emin (satE (w 3)), emax := max e.emax (satE (w 2)) } else e

/-- R432. -/
def execQstw (rd ra rb : BitVec 5) (rst : Bool) (s : State) : Host.Outcome State Fault Refusal :=
  .next (s.planWord (rForm 0x38#6 rd ra rb (0x200#11 ||| BitVec.ofNat 11 (if rst then 1 else 0))) fun s =>
    match (s.peng s.myDie).named s.me.jobFunc (s.g rb) with
    | .error z => (.refuse z, s)
    | .ok (i, e) =>
      if e.state = 2 then (.refuse (rBUSY, 0xFF), s)
      else match s.planRead (s.g ra) 4 4 4 with
        | (.error z, t) => (accTrap z, t)
        | (.ok b, t) =>
          let e := e.statWrite rst ((upto 4).map fun j => toSigned 32 (rawNat b (4 * j) 4))
          t.catReq fun p _ => .ok (e.scount, p.setEntry i e))

/-- `qpin`, `qunpin`, `qevict` on their entry (R433): the pin count after. -/
def PlanEng.pinEntry (p : PlanEng) (f : Byte) (v : Dword) : Except PStop (Nat × PlanEng) :=
  p.named f v >>= fun (i, e) =>
    if e.state = 2 then .error (rBUSY, 0xFF)
    else if 65535 ≤ e.pins then .error (rPINS, 0xFF)
    else .ok (e.pins + 1, p.setEntry i { e with soft := e.soft + 1 })
def PlanEng.unpinEntry (p : PlanEng) (f : Byte) (v : Dword) : Except PStop (Nat × PlanEng) :=
  p.named f v >>= fun (i, e) =>
    if e.soft = 0 then .error (rPINS, 0xFF)
    else .ok (e.pins - 1, (p.setEntry i { e with soft := e.soft - 1 }).settle i)
/-- Entry i is being evicted: the runs whose queries name it know that it has gone (R417). -/
def PlanEng.evicted (p : PlanEng) (i : Nat) : PlanEng :=
  { p with handles := p.handles.map fun h =>
      (h.1, if h.2.query.entries.contains i then { h.2 with run := h.2.run.map fun r => { r with gone := i :: r.gone } } else h.2) }
def PlanEng.evictEntry (p : PlanEng) (f : Byte) (v : Dword) : Except PStop (Nat × PlanEng) :=
  p.named f v >>= fun (i, e) =>
    if e.state = 1 then .ok (e.pins, (((p.setEntry i { e with state := 2 }).stale (fun h => h.deps.contains i) 5).evicted i).settle i)
    else .ok (e.pins, p)

def execQpin (rd rb : BitVec 5) (s : State) : Host.Outcome State Fault Refusal :=
  .next (s.planWord (rForm 0x38#6 rd 0#5 rb 0x300#11) fun s => s.catReq fun p f => p.pinEntry f (s.g rb))
def execQunpin (rd rb : BitVec 5) (s : State) : Host.Outcome State Fault Refusal :=
  .next (s.planWord (rForm 0x38#6 rd 0#5 rb 0x400#11) fun s => s.catReq fun p f => p.unpinEntry f (s.g rb))
def execQevict (rd rb : BitVec 5) (s : State) : Host.Outcome State Fault Refusal :=
  .next (s.planWord (rForm 0x38#6 rd 0#5 rb 0x500#11) fun s => s.catReq fun p f => p.evictEntry f (s.g rb))

/-! ### Handles -/

/-- PLAN sub-codes beside the reasons of R412. -/
def subDROPPED : Nat := 6
def subFOREIGN : Nat := 7

/-- What a handle operand names (R411, R429): slot and handle, or the sub-code of its PLAN trap. -/
def PlanEng.handle (p : PlanEng) (f : Byte) (v : Dword) : Except Nat (Nat × PHandle) :=
  if 0x10000 ≤ v.toNat then .error subDROPPED
  else
    let i := v.toNat % 1024
    match mget? p.handles i with
    | none => .error subDROPPED
    | some h =>
      if h.func != f then .error subFOREIGN
      else if v.toNat / 1024 = 0 || h.gen != v.toNat / 1024 then .error subDROPPED
      else .ok (i, h)

/-- A handle slot replaced. -/
def PlanEng.setHandle (p : PlanEng) (i : Nat) (h : PHandle) : PlanEng := { p with handles := mset p.handles i h }

/-- A handle changed in place. -/
def PlanEng.modHandle (p : PlanEng) (i : Nat) (f : PHandle → PHandle) : PlanEng :=
  match mget? p.handles i with
  | some h => p.setHandle i (f h)
  | none => p

/-- A PLAN trap on a handle operand (R429). -/
def planTrap (sub : Nat) (v : Dword) : PRes := .trap cPLAN (BitVec.ofNat 8 sub) v

/-- A request on the handle in a register, which traps where R429 says. -/
def State.handleReq (s : State) (r : BitVec 5) (k : Nat → PHandle → PRes × State) : PRes × State :=
  match (s.peng s.myDie).handle s.me.jobFunc (s.g r) with
  | .error sub => (planTrap sub (s.g r), s)
  | .ok (i, h) => k i h

/-! ### Runs -/

/-- Plan pins of entries changed by f; a draining entry without pins becomes free (R416, R417). -/
def PlanEng.planPins (p : PlanEng) (es : List Nat) (f : Nat → Nat) : PlanEng :=
  es.foldl (fun p e => (p.setEntry e { p.entry e with plan := f (p.entry e).plan }).settle e) p

/-- The outcome word of R436. -/
def outcomeWord (r : QRun) (outcome reason cause : Nat) : Dword :=
  BitVec.ofNat 64 (min r.dup 0x7FFFFFFF * 2 ^ 32 + min r.replans 255 * 2 ^ 24 + cause * 2 ^ 16 + reason * 2 ^ 8 + outcome)

/-- The run of handle slot h of die d ends with an outcome (R419, R436): pins are released, its waiters answered. -/
def State.endRun (s : State) (d h : Nat) (outcome reason cause : Nat) : State :=
  match mget? (s.peng d).handles h with
  | none => s
  | some x =>
    match x.run with
    | none => s
    | some r =>
      let w := outcomeWord r outcome reason cause
      let s := s.modPlan d fun p => (p.planPins r.pins fun n => n - 1).modHandle h fun x => { x with run := none, last := some w }
      r.waiters.foldl (fun s a => s.planAnswer d a.1 a.2.1 a.2.2 w) s

/-- Entries that node i reads (R416, R444). -/
def Query.reads (q : Query) (i : Nat) : List Nat :=
  ((q.node i).child.filterMap q.heldBy).dedup

/-- Entries that the items of node i still read when the first j parts of its plan are done: for a chain, those of the operands of its later
joins (R417, R443). -/
def Query.readsFrom (q : Query) (plan : List NodePlan) (i j : Nat) : List Nat :=
  let nd := q.node i
  if nd.op != opCONTRACT then q.reads i
  else
    let l := nd.child.length
    let v := ((plan.getD i {}).ranked.head?).elim 0 fun c => c.joins.toNat
    let js := (hintedJoins v ((upto l).map fun k => (k, k)) (l - 1)).drop j
    let kids := js.flatMap fun t => (if t.1 = t.2.1 then [t.1] else []) ++ if t.2.1 + 1 = t.2.2 then [t.2.2] else []
    ((kids.map fun t => nd.child.getD t 0).filterMap q.heldBy).dedup

/-- The next node after `i` that has an item. -/
def Query.nextNode (q : Query) (i : Nat) : Option Nat := (upto q.nodes.length).find? fun k => i ≤ k && (q.node k).op != opLEAF

/-- An internal item of a node (R35, R226). -/
def planItem (q : Query) (size : Nat) (image args : Dword) : Item :=
  { image := image, args := args, deadline := q.deadline, team := BitVec.ofNat 8 size, prio := q.prio }

/-- The internal items of part j of node k's plan go to the dispatch slice (R35): one for each piece of the split, of the plan's team size,
with the image of the plan's template, also where that has been dropped since, which the next break finds (R412, R440).
Their argument pointers are free (log 15). -/
def State.planHand (s : State) (d h k j : Nat) : State :=
  match mget? (s.peng d).handles h with
  | none => s
  | some x =>
    let (image, ls, lp) := (((x.plan.getD k {}).ranked.head?).bind fun c => c.parts[j]?).getD (0#64, 0, 0)
    let n := 2 ^ lp
    let cand (i : Nat) : Cand :=
      { id := s.next + i, kind := .internal, since := s.dtime
        team := { id := s.next + i, item := planItem x.query (2 ^ ls) image (Config.planArgs (s.fresh + i)), func := x.func, plan := some (h, k, i) } }
    let s := s.modPlan d fun p => p.modHandle h fun x =>
      { x with run := x.run.map fun r => { r with node := k, part := j, items := (upto n).map fun i => s.next + i } }
    { s with next := s.next + n, fresh := s.fresh + n }.modDie d fun y => { y with cands := y.cands ++ (upto n).map cand }

/-- Entry e is free or another function's than f's (R392). -/
def State.lost (s : State) (d : Nat) (f : Byte) (e : Nat) : Bool :=
  let y := (s.peng d).entry e
  y.state = 0 || y.owner != f

/-- Entry e is not the live one of the function that the run's query named (R392, R417): it drains, has been evicted since, or is another's. -/
def State.drained (s : State) (d : Nat) (x : PHandle) (r : QRun) (e : Nat) : Bool :=
  let y := (s.peng d).entry e
  r.gone.contains e || y.state != 1 || y.owner != x.func

/-- The items of the next node, from node i on, go to the dispatch slice (R35, R413, R416, R417); after the last the run is OK. An entry whose
pin count stands at 65,535 refuses the plan pin (R416); that the node then runs without it is the model's choice (DESIGN CHOICE, log 97). -/
def State.planAdvance (s : State) (d h i : Nat) : State :=
  match mget? (s.peng d).handles h with
  | none => s
  | some x =>
    match x.run, x.query.nextNode i with
    | none, _ => s
    | some _, none => s.endRun d h 0 0 0
    | some r, some k =>
      let es := x.query.reads k
      if r.cancel then s.endRun d h 4 0 0
      else if es.any (s.drained d x r) then s.endRun d h 1 5 0
      else
        let es := es.filter fun e => ((s.peng d).entry e).pins < 65535
        (s.modPlan d fun p => (p.planPins es fun n => n + 1).modHandle h fun x => { x with run := some { r with pins := es } }).planHand d h k 0

/-- Element count and non-zeros lie in the band of R414. -/
def inBand (a e : Nat) : Bool := if a = 0 || e = 0 then a == e else e ≤ 2 * a && a ≤ 2 * e

/-- The entries that planning nodes from k on reads (R410): those of leaves and break outputs among these nodes and their children. -/
def Query.planReads (q : Query) (k : Nat) : List Nat :=
  let used (i : Nat) : Bool := k ≤ i || q.nodes.zipIdx.any fun x => k ≤ x.2 && x.1.child.contains i
  (((upto q.nodes.length).filter used).filterMap q.heldBy).dedup

/-- Charge to function f what a run of it costs at its submitting core (R410): to the meters of that core as far as they are still those of
the function and of the submitting job (R111), and to the function's account. -/
def State.planAccount (s : State) (f : Byte) (r : QRun) (cls n : Nat) : State :=
  let x := n * s.rate 4 cls 0xF * s.calib r.core
  (s.modCore r.core fun c =>
    { c with
      meterFunc := if c.last == some f || c.job.any (fun j => j.func == f) then c.meterFunc + x else c.meterFunc
      meterJob := if c.job.any fun j => j.team == r.team then c.meterJob + x else c.meterJob }).account f x

/-- The ratio check of R414 at the break of node i: where a ratio leaves the band and REPLAN is set, the later nodes are planned again. A query
of which an entry is no longer the function's is not planned again, since no function reads another's statistics (R392; DESIGN CHOICE, log
106). -/
def State.ratioCheck (s : State) (d h i : Nat) (n nz : Nat) : State :=
  match mget? (s.peng d).handles h with
  | none => s
  | some x =>
    match x.run with
    | none => s
    | some r =>
      let est := x.plan.getD i {}
      if !x.query.replan || i = x.query.root || (inBand n est.elems && inBand nz est.nz) || x.query.entries.any (s.lost d x.func) then s
      else match s.planQuery d x.func x.query x.hints x.plan (some i) with
        | .error _ => s
        | .ok p =>
          let s := (s.planAccount x.func r 1 (costedAll (p.drop (i + 1)))).planAccount x.func r 2 (x.query.planReads (i + 1)).length
          s.modPlan d fun e => e.modHandle h fun x => { x with plan := p, tids := planTids p, replans := x.replans + 1, run := some { r with replans := r.replans + 1 } }

/-- A pipeline break of the run of handle slot h (R413 to R415): the output entry is written, then staleness stops the run, else the ratio
check; a cancelled run ends without writing it (R425). An output entry that is the function's no more (R392) is not written, and the run ends
as for an entry that it reads (R417; DESIGN CHOICE, log 106). -/
def execPipelineBreak (d : DieIx) (h : Nat) (s : State) : Host.Outcome State Fault Refusal :=
  let d := d.val
  match mget? (s.peng d).handles h with
  | none => .next s
  | some x =>
    match x.run with
    | none => .next s
    | some r =>
      let i := r.node
      let q := x.query
      let nd := q.node i
      match mget? r.vals i with
      | none => .next s
      | some vs =>
        if r.cancel then .next (s.endRun d h 4 0 0)
        else if q.isBreak i && s.lost d x.func nd.entry then .next (s.endRun d h 1 5 0)
        else
          let t : Ten := ⟨nd.lab, nd.lab.map q.extent, nd.fmt, vs.toArray⟩
          let e := ((s.peng d).entry nd.entry).broke nd t
          let wrote : Except Byte State :=
            if q.isBreak i then (s.writeEntry d x.func e vs .write).map fun s =>
              (s.modPlan d fun p => ((p.setEntry nd.entry e).bumpVersion nd.entry).modHandle h fun x =>
                { x with run := x.run.map fun r => { r with gone := r.gone.filter fun g => g != nd.entry } }).planAccount x.func r 2 1
            else .ok s
          match wrote with
          | .error z => .next (s.endRun d h 3 0 z.toNat)
          | .ok s =>
            let s := s.planAccount x.func r 3 1
            let stale := ((mget? (s.peng d).handles h).map fun y => y.stale).getD 0
            if stale != 0 then .next (s.endRun d h 1 stale 0)
            else
              let nz := (vs.filter fun b => !(decodeElem nd.fmt b).isZero).length
              .next ((s.ratioCheck d h i vs.length nz).planAdvance d h (i + 1))

/-- The values of a node whose item has completed (R420): then its break, or the next node. A fault ends the run (R419). -/
def State.nodeDone (s : State) (d h i : Nat) : State :=
  match mget? (s.peng d).handles h with
  | none => s
  | some x =>
    match x.run with
    | none => s
    | some r =>
      let q := x.query
      let nd := q.node i
      let res := s.childTens d x.func q r.vals nd.child >>= fun kids =>
        (evalNode q x.plan s.fresh i kids).map fun o => (kids, o)
      match res with
      | .error z => s.endRun d h 3 0 z.toNat
      | .ok (kids, o) =>
        let s := { s with fresh := s.fresh + freeBound kids q nd }
        let tj := nd.child.getD 2 0
        let put : Except Byte State := match o.target, q.heldBy tj with
          | some t, some e => s.writeEntry d x.func ((s.peng d).entry e) t.data.toList .aow
          | _, _ => .ok s
        let put := if nd.detScatter then put >>= fun s => s.scatterRound d q nd x.func kids else put
        match put with
        | .error z => s.endRun d h 3 0 z.toNat
        | .ok s =>
          let vals := match o.target, q.heldBy tj with
            | some t, none => mset r.vals tj t.data.toList
            | _, _ => r.vals
          let s := s.modPlan d fun p => (p.planPins r.pins fun n => n - 1).modHandle h fun x =>
            { x with run := some { r with vals := mset vals i o.ten.data.toList, pins := [], dup := r.dup + o.dup } }
          if nd.brk || i = q.root then s.after [.event (.pipelineBreak (Fin.ofNat 8 d) h)] else s.planAdvance d h (i + 1)

/-- The outcome of R419 that an item's status (R239) gives its run, none for OK: 3 is LATE, 5 CANCELLED, any other a fault with its cause. -/
def runFail (status cause : Nat) : Option (Nat × Nat) :=
  match status with
  | 0 => none
  | 3 => some (2, 0)
  | 5 => some (4, 0)
  | _ => some (3, cause)

/-- Item `id` of the run of handle slot h has ended with a status (R35, R419). With the last item that is out the run ends if one has failed
or the run is cancelled, else the node is done, or ends where the entries of its later parts drain (R417), or hands over its next part. -/
def State.planDone (s : State) (d h id status cause : Nat) : State :=
  match mget? (s.peng d).handles h with
  | none => s
  | some x =>
    match x.run with
    | none => s
    | some r =>
      if !r.items.contains id then s
      else
        let left := r.items.erase id
        let fail := r.fail.orElse fun _ => runFail status cause
        let s := s.modPlan d fun p => p.modHandle h fun x => { x with run := some { r with items := left, fail := fail } }
        if !left.isEmpty then s
        else if r.cancel then s.endRun d h 4 0 0
        else match fail with
          | some (o, z) => s.endRun d h o 0 z
          | none =>
            let parts := (((x.plan.getD r.node {}).ranked.head?).map fun c => c.parts.length).getD 1
            if parts ≤ r.part + 1 then s.nodeDone d h r.node
            else if (x.query.readsFrom x.plan r.node (r.part + 1)).any (s.drained d x r) then s.endRun d h 1 5 0
            else s.planHand d h r.node (r.part + 1)

/-- The first byte of an entry of function f that an access of the plan engine's items fails at, with its cause. -/
def State.entryFail (s : State) (d : Nat) (f : Byte) (acc : Access) (e : Entry) : Option (Byte × Dword) :=
  match s.planLocs d f e.loc e.bytes acc with
  | .ok _ => none
  | .error z =>
    let bad (i : Nat) : Bool := match s.planLocs d f (e.loc + BitVec.ofNat 64 i) 1 acc with
      | .error y => y == z
      | .ok _ => false
    some (z, e.loc + BitVec.ofNat 64 (((upto e.bytes).find? bad).getD 0))

/-- The access at which item `id` of handle slot h fails, when it is the last that its node waits for: the entries that the node reads, the
entry of a break, the target of a SCATTER, the group record of one with det (R58, R172). -/
def State.itemFail (s : State) (d h id : Nat) : Option (Byte × Dword) :=
  match mget? (s.peng d).handles h with
  | none => none
  | some x =>
    match x.run with
    | none => none
    | some r =>
      let q := x.query
      let parts := (((x.plan.getD r.node {}).ranked.head?).map fun c => c.parts.length).getD 1
      if r.items != [id] || r.cancel || r.fail.isSome || r.part + 1 < parts then none
      else
        let nd := q.node r.node
        let ent (i : Nat) : Entry := (s.peng d).entry (q.node i).entry
        let reads := (q.reads r.node).map (s.peng d).entry
        let out := if q.isBreak r.node && !s.lost d x.func nd.entry then [(ent r.node).broke nd ⟨nd.lab, nd.lab.map q.extent, nd.fmt, #[]⟩] else []
        let tj := nd.child.getD 2 0
        let tgt := if nd.op == opSCATTER then ((q.heldBy tj).map (s.peng d).entry).toList else []
        let group := if nd.detScatter then (s.groupFail x.func nd.c (((s.team? d id).map fun t => t.cores).getD [])).toList else []
        ((reads.filterMap (s.entryFail d x.func .read)) ++ out.filterMap (s.entryFail d x.func .write)
          ++ tgt.filterMap (s.entryFail d x.func .aow) ++ group).head?

/-! ### Query words -/

/-- The query and hint list of `qsub` (R434). -/
def State.readQuery (s : State) (a : Dword) : Except (Byte × Dword) (List Byte) × State :=
  match s.planRead a 32 32 1 with
  | (.error z, t) => (.error z, t)
  | (.ok b, t) =>
    match t.planPieces (a + 32#64) 32 (if 64 < rawNat b 2 1 then 0 else rawNat b 2 1) with
    | (.error z, u) => (.error z, u)
    | (.ok c, u) => (.ok (b ++ c), u)

/-- A hint list (R434): none where its count is above 16. -/
def State.readHints (s : State) (a : Dword) : Except (Byte × Dword) (Option (List Dword)) × State :=
  if a = 0#64 then (.ok (some []), s)
  else match s.planRead a 8 8 1 with
    | (.error z, t) => (.error z, t)
    | (.ok b, t) =>
      let c := rawNat b 0 8
      if 16 < c then (.ok none, t)
      else match t.planPieces (a + 8#64) 8 c with
        | (.error z, u) => (.error z, u)
        | (.ok bs, u) => (.ok (some ((upto c).map fun i => BitVec.ofNat 64 (rawNat bs (8 * i) 8))), u)

/-- A query planned for the acting core's function (R402, R404 to R409). -/
def State.planNew (s : State) (q : Query) (hs : List Dword) : Except PStop (Query × List NodePlan) :=
  (s.peng s.myDie).shapes s.me.jobFunc q >>= fun q => (s.planQuery s.myDie s.me.jobFunc q hs [] none).map fun p => (q, p)

/-- The charges of a planning (R410): nodes, candidates, entries read. -/
def State.planningCharge (s : State) (q : Query) (p : List NodePlan) : State :=
  ((s.planCharge 0 q.nodes.length).planCharge 1 (costedAll p)).planCharge 2 (q.planReads 0).length

/-- A hint put into a set (R435): it replaces an earlier one of its node and kind. -/
def addHint (hs : List Dword) (h : Dword) : List Dword := (hs.filter fun x => !(hintNode x == hintNode h && hintKind x == hintKind h)) ++ [h]

/-- R434, R411, R445. The handle keeps the hints that no later one of the list replaces (R435). -/
def execQsub (rd ra rb : BitVec 5) (s : State) : Host.Outcome State Fault Refusal :=
  .next (s.planWord (rForm 0x39#6 rd ra rb 0#11) fun s =>
    match s.readQuery (s.g ra) with
    | (.error z, t) => (accTrap z, t)
    | (.ok b, t) =>
      match t.readHints (t.g rb) with
      | (.error z, u) => (accTrap z, u)
      | (.ok none, u) => (.refuse (rMALFORMED, 0xFF), u)
      | (.ok (some hs), u) =>
        match parseQuery b >>= fun q => u.planNew q hs with
        | .error z => (.refuse z, u)
        | .ok (q, p) =>
          let e := u.peng u.myDie
          match (upto 1024).find? fun i => (mget? e.handles i).isNone with
          | none => (.refuse (rFULL, 0xFF), u)
          | some i =>
            let g := mget e.gens i 0 % 63 + 1
            let h : PHandle := { func := u.me.jobFunc, gen := g, query := q, hints := hs.foldl addHint [], plan := p, deps := q.deps, tids := planTids p, replans := 0 }
            (.answer (1024 * g + i), (u.modPlan u.myDie fun e => { e.setHandle i h with gens := mset e.gens i g }).planningCharge q p))

/-- R436, R413. -/
def execQrun (rd ra : BitVec 5) (s : State) : Host.Outcome State Fault Refusal :=
  .next (s.planWord (rForm 0x39#6 rd ra 0#5 0x100#11) fun s => s.handleReq ra fun i h =>
    if h.stale != 0 then (planTrap h.stale (s.g ra), s)
    else if h.run.isSome then (.refuse (rBUSY, 0xFF), s)
    else
      let s := s.modPlan s.myDie fun p => p.setHandle i { h with run := some { core := s.cur.k.val, team := s.me.jobTeam, node := 0 } }
      (.answer 0, s.planAdvance s.myDie i 0))

/-- R436. -/
def execQwait (rd ra : BitVec 5) (s : State) : Host.Outcome State Fault Refusal :=
  .next (s.planWord (rForm 0x39#6 rd ra 0#5 0x200#11) fun s => s.handleReq ra fun i h =>
    match h.run, h.last with
    | some r, _ => (.later, s.modPlan s.myDie fun p => p.setHandle i
        { h with run := some { r with waiters := r.waiters ++ [(s.me.jobTeam, s.me.jobRank, s.cur.q)] } })
    | none, some w => (.answer w.toNat, s)
    | none, none => (.refuse (rIDLE, 0xFF), s))

/-- R437. -/
def execQexpl (rd ra rb : BitVec 5) (s : State) : Host.Outcome State Fault Refusal :=
  .next (s.planWord (rForm 0x39#6 rd ra rb 0x300#11) fun s => s.handleReq ra fun _ h =>
    match s.planWrite (s.g rb) h.explain with
    | (.error z, t) => (accTrap z, t)
    | (.ok u, _) => (.answer h.explain.length, u))

/-- R438. -/
def execQhint (rd ra rb : BitVec 5) (s : State) : Host.Outcome State Fault Refusal :=
  .next (s.planWord (rForm 0x39#6 rd ra rb 0x400#11) fun s => s.handleReq rb fun i h =>
    let hs := addHint h.hints (s.g ra)
    if h.run.isSome then (.refuse (rBUSY, 0xFF), s)
    else if 16 < hs.length then (.refuse (rFULL, 0xFF), s)
    else match s.planNew h.query hs with
      | .error z => (.refuse z, s)
      | .ok (q, p) =>
        let stale := if h.stale = subDROPPED then subDROPPED else 0
        let h := { h with query := q, hints := hs, plan := p, deps := q.deps, tids := planTids p, replans := 0, stale := stale }
        (.answer (s.g rb).toNat, (s.modPlan s.myDie fun e => e.setHandle i h).planningCharge q p))

/-- R439, R419: the run of handle slot h is cancelled: items that have not started and suspended ones are retired, those that run are
pre-empted to complete CANCELLED (R233), one that only waits on a fault-queue entry completes so at once; the run ends with the last of
them. -/
def State.cancelRun (s : State) (d h : Nat) : State :=
  match ((mget? (s.peng d).handles h).bind fun x => x.run) with
  | none => s
  | some r =>
    let mine (t : Team) : Bool := t.plan.isSome && r.items.contains t.id
    let cs := (s.die d).cands.filter fun c => mine c.team
    let s := s.modPlan d fun p => p.modHandle h fun y => { y with run := some { r with cancel := true } }
    let s := s.modDie d fun x => { x with cands := x.cands.filter fun c => !mine c.team }
    let s := cs.foldl (fun (s : State) c => c.team.saves.foldl (fun (s : State) v => s.setSlot c.team.func v.slot 2) s) s
    let run := (s.die d).teams.filter mine
    let s := run.foldl (fun (s : State) t =>
      let s := s.modTeam d t.id fun t => { t with stop := some 5#16 }
      if s.settled t then s.after [.event (.workItemComplete (Fin.ofNat 8 d) t.id)] else s.preemptTeam t 3#8) s
    cs.foldl (fun (s : State) c => s.planDone d h c.team.id 5 0) s

/-- R439. -/
def execQinv (rd ra : BitVec 5) (can : Bool) (s : State) : Host.Outcome State Fault Refusal :=
  .next (s.planWord (rForm 0x39#6 rd ra 0#5 (0x500#11 ||| BitVec.ofNat 11 (if can then 1 else 0))) fun s => s.handleReq ra fun i h =>
    let s := s.modPlan s.myDie fun p => p.setHandle i { h with stale := if h.stale = 0 then subDROPPED else h.stale }
    (.answer 0, if can then s.cancelRun s.myDie i else s))

/-- R439, R429: a handle that is no longer there is no effect. -/
def execQdrop (rd ra : BitVec 5) (s : State) : Host.Outcome State Fault Refusal :=
  .next (s.planWord (rForm 0x39#6 rd ra 0#5 0x600#11) fun s =>
    match (s.peng s.myDie).handle s.me.jobFunc (s.g ra) with
    | .error sub => (if sub = subFOREIGN then planTrap sub (s.g ra) else .answer 0, s)
    | .ok (i, h) =>
      if h.run.isSome then (.refuse (rBUSY, 0xFF), s)
      else (.answer 0, s.modPlan s.myDie fun p => { p with handles := mdel p.handles i }))

/-! ### Templates -/

/-- A template record of function f (R403, R440), or none where a field is out of range. -/
def templateOf (f : Byte) (b : Raw) : Option Template :=
  let op := rawNat b 2 1
  let fm := rawNat b 3 1
  let pr := rawNat b 5 1
  let smax := rawNat b 6 2
  let coef := (upto 9).map fun i => rawNat b (0x10 + 4 * i) 4
  let fok (x : Nat) := x ≤ 0xB || x == 0xF
  if rawNat b 0 2 != 0 && 1 ≤ op && op ≤ 10 && fok (fm % 16) && fok (fm / 16) && (if op = opCONTRACT then 1 ≤ pr && pr ≤ 3 else pr == 0) &&
     1 ≤ smax && smax ≤ 192 && coef.all (fun c => (ratOf c).isSome) && rawNat b 0x34 12 == 0
  then some ⟨f, rawNat b 0 2, op, BitVec.ofNat 4 fm, BitVec.ofNat 4 (fm / 16), BitVec.ofNat 8 (rawNat b 4 1), pr, smax,
    BitVec.ofNat 64 (rawNat b 8 8), coef⟩
  else none

/-- R440, R445. -/
def execQtld (rd ra : BitVec 5) (s : State) : Host.Outcome State Fault Refusal :=
  .next (s.planWord (rForm 0x3A#6 rd ra 0#5 0#11) fun s =>
    match s.planRead (s.g ra) 64 64 1 with
    | (.error z, t) => (accTrap z, t)
    | (.ok b, t) =>
      let p := t.peng t.myDie
      match templateOf t.me.jobFunc b with
      | none => (.refuse (rMALFORMED, 0xFF), t)
      | some x =>
        if p.templates.any fun e => e.2.func == x.func && e.2.tid == x.tid then (.refuse (rDUPLICATE, 0xFF), t)
        else match (upto 256).find? fun i => (mget? p.templates i).isNone with
          | none => (.refuse (rFULL, 0xFF), t)
          | some i => (.answer i, t.modPlan t.myDie fun p => { p with templates := mset p.templates i x }))

/-- R440, R412. -/
def execQtdrop (rd rb : BitVec 5) (s : State) : Host.Outcome State Fault Refusal :=
  .next (s.planWord (rForm 0x3A#6 rd 0#5 rb 0x100#11) fun s =>
    let f := s.me.jobFunc
    match (s.peng s.myDie).templates.find? fun e => e.2.func == f && e.2.tid == (s.g rb).toNat with
    | none => (.refuse (rNOT_OWNER, 0xFF), s)
    | some (i, x) => (.answer i, s.modPlan s.myDie fun p =>
        { p with templates := mdel p.templates i }.stale (fun h => h.func == f && h.tids.contains x.tid) 3))

/-! ### What befalls a function -/

/-- R441: an FLR of f ends its runs CANCELLED, drops its handles and templates, and frees its entries with version + 1. Its items go with
its other items. -/
def State.planFlr (s : State) (f : Byte) : State :=
  (upto 8).foldl (fun s d =>
    let runs := ((s.peng d).handles.filter fun h => h.2.func == f && h.2.run.isSome).map fun h => h.1
    let s := runs.foldl (fun s h => s.endRun d h 4 0 0) s
    s.modPlan d fun p =>
      let mine := (p.catalog.filter fun e => e.2.owner == f && e.2.state != 0).map fun e => e.1
      let p := { p with handles := p.handles.filter fun h => h.2.func != f, templates := p.templates.filter fun t => t.2.func != f }
      mine.foldl (fun p e => (p.setEntry e { p.entry e with state := 0, soft := 0, plan := 0 }).bumpVersion e) p) s

/-- R412: a partition that loses a core group on die d makes the handles of its functions there stale with SHRUNK. -/
def State.planShrunk (s : State) (d : Nat) (part : Byte) : State :=
  s.modPlan d fun p => p.stale (fun h => (s.func h.func).part == part) 4

end Sys2Proof.Machine
end

