-- ==== Sys2Proof/Machine/Launch.lean ====
section
/-! DEFINITION. Job images (R99 to R102) and the start of a team's jobs on its cores (R29, R93, R97, R100, R162, R254); completion records
and events (R238, R239, R242), the start, the resume and the end of a team on a die (R30, R226, R258). -/

namespace Sys2Proof.Machine

/-! ### Job images -/

/-- A job image that has passed its checks: sections in mask-bit order, segments in descriptor order. -/
structure Image where
  expect : Byte
  vlo : BitVec 5
  vhi : BitVec 5
  seed : Dword
  banks : Vector (BitVec 15) 32
  code : Vector (List Word) 8
  /-- segments: offset in the image, own-scratchpad offset, bytes -/
  segs : List (Nat × Nat × List Byte)
  deriving DecidableEq, Repr

/-- Words of 4 bytes each (R2). -/
def wordsOf : List Byte → List Word
  | a :: b :: c :: d :: t => (d ++ c ++ b ++ a) :: wordsOf t
  | _ => []

/-- The checks of R101 on the header and the descriptors, and the image they describe. That a section offset which is not a multiple of 4
(R99), a descriptor list that passes size, an nseg above 256, and a segment of length 0 or with a reserved field set (R100) fail them too is
the model's choice (DESIGN CHOICE, log 74). -/
def imageOf (b : Raw) : Option Image :=
  let g (o n : Nat) : Nat := rawNat b o n
  let expect : Byte := BitVec.ofNat 8 (g 6 1)
  let size := g 0xC 4
  let sec (i : Nat) : Nat × Nat := (g (0x20 + 8 * i) 4, g (0x24 + 8 * i) 4)
  let secOk (i : Nat) : Bool :=
    if maskHas expect i then (sec i).1 % 4 == 0 && 1 ≤ (sec i).2 && (sec i).1 + 4 * (sec i).2 ≤ size else sec i == (0, 0)
  let seg (i : Nat) : Nat × Nat × Nat := (g (0x100 + 16 * i) 4, g (0x104 + 16 * i) 4, g (0x108 + 16 * i) 4)
  let nseg := g 0xA 2
  let segOk (i : Nat) : Bool :=
    let (src, dst, len) := seg i
    g (0x10C + 16 * i) 4 == 0 && 1 ≤ len && src + len ≤ size && dst + len ≤ 0x200000
  let vlo := g 8 1
  let vhi := g 9 1
  if g 0 4 == 0x4D594A42 && g 4 2 == 1 && maskHas expect 0 && g 7 1 == 0 && g 0x18 8 == 0 && g 0xE0 32 == 0 &&
     ((vlo == 0 && vhi == 0) || (1 ≤ vlo && vlo ≤ vhi && vhi ≤ 31)) && 0x100 + 16 * nseg ≤ size && nseg ≤ 256 &&
     (upto 8).all secOk && (upto 32).all (fun i => g (0x60 + 4 * i) 4 < 0x8000) && (upto nseg).all segOk
  then some
    { expect := expect, vlo := BitVec.ofNat 5 vlo, vhi := BitVec.ofNat 5 vhi, seed := BitVec.ofNat 64 (g 0x10 8)
      banks := Vector.ofFn fun i => BitVec.ofNat 15 (g (0x60 + 4 * i.val) 4)
      code := Vector.ofFn fun i => wordsOf ((b.drop (sec i.val).1).take (4 * (sec i.val).2))
      segs := (upto nseg).map fun i => ((seg i).1, (seg i).2.1, (b.drop (seg i).1).take (seg i).2.2) }
  else none

/-- The OWNER event of a read or write by the part that fails its checks: R58 at the first byte that fails; no core stands behind the
access (log 22). -/
def State.partOwner (s : State) (f : Byte) (va : Dword) (acc : Access) (n : Nat) : State :=
  let bad (i : Nat) : Bool := match s.hostCheck f (va + BitVec.ofNat 64 i) acc false with
    | .error _ => true
    | .ok _ => false
  match (upto n).find? bad with
  | none => s
  | some i =>
    let a := va + BitVec.ofNat 64 i
    match s.hostCheck f a acc false with
    | .error e => if e == cOWNER then s.ownerEvent f 0xFFFFFFFF#32 a (s.walkPa f a.toNat) else s
    | .ok _ => s

/-- The image at an address of function f (R101): the cause of an unreadable one, none for one that fails a check. -/
def State.readImage (s : State) (f : Byte) (a : Dword) : Except Byte (Option Image) :=
  match s.hostRead f a 0x100 with
  | .error e => .error e
  | .ok h =>
    let size := rawNat h 0xC 4
    if size < 0x100 then .ok none
    else (s.hostRead f a size).map imageOf

/-! ### Starting jobs -/

/-- What the copy of n bytes at virtual address va of function f into the scratchpad of core k costs there, as a copy at that core (R100,
R191, R261): a command, its elements of one byte, and its bytes by where they lie. -/
def State.copyCost (s : State) (k : Nat) (f : Byte) (va : Dword) (n : Nat) : Nat :=
  let ls := match s.hostLocs f va .read false n with
    | .ok ls => ls
    | .error _ => []
  let hop := (ls.map fun l => hops (homeDie l) (coreDie k)).foldl (· + ·) 0
  (s.rate 1 0 0xF + n * s.rate 1 1 0xF + n * s.rate 1 2 0xF + (ls.filter isHbm).length * s.rate 1 3 0xF + hop * s.rate 1 4 0xF
    + (ls.filter isCxl).length * s.rate 1 5 0xF) * s.calib k

/-- Charge the segments of an image at `va` copied at core k to its function, not to a job (R100, R337). -/
def State.segmentCharge (s : State) (k : Nat) (f : Byte) (va : Dword) (segs : List (Nat × Nat × List Byte)) : State :=
  let x := (segs.map fun g => s.copyCost k f (va + BitVec.ofNat 64 g.1) g.2.2.length).foldl (· + ·) 0
  (s.modCore k fun c => { c with meterFunc := c.meterFunc + x }).account f x

/-- Core k runs a job of a team's image as a rank: scrubbed where R254 says so, its segments copied (R100), then everything of R29, R93,
R97, R162, R268, R318 and R339 at once. Bits of accumulator memory stay. -/
def State.startCore (s : State) (t : Team) (im : Image) (k rank : Nat) : State :=
  let s := s.readyCore k t.func
  let s := im.segs.foldl (fun (s : State) g => { s with mem := Memory.blit s.mem (scratchLoc k + g.2.1) g.2.2 }) s
  let s := s.segmentCharge k t.func t.item.image im.segs
  let c := s.core k
  let on (i : Nat) : Bool := maskHas im.expect i
  let eng (i : Nat) : Eng := { pc := 0#32, st := if on i then .running else .absent, outst := [] }
  let block (i : Nat) : Block :=
    if on i then { pc := 0#64, g := (Vector.replicate 32 0#64).set 1 t.item.args, p := 0#8, st := .ready } else {}
  let sys : Sys :=
    { c.sys.setSeed im.seed with
      tags := 0#64, tagsNew := 0#64, tagsHid := 0#64, flgNew := Vector.replicate 4 0#8, lodc := 0#64, rplcX := 0#32, rplcM := 0#32, flg := Vector.replicate 4 0#8, bfmt := im.banks
      team := t.word rank, func := t.func, args := t.item.args, expect := im.expect, vlo := im.vlo, vhi := im.vhi
      stage := t.item.stage }
  s.setCore k
    { c with
      job := some (t.job rank im.expect.toNat 0)
      code := im.code
      curq := 0, idle := false
      q := Vector.ofFn fun i => block i.val
      xl := eng 4, m := eng 5, v := eng 6, xs := eng 7
      sys := sys
      fifo := Vector.replicate 10 {}
      rdv := Vector.replicate 4 {}
      x := { sets := Vector.ofFn fun i => BitVec.ofNat 1024 (Memory.readNat s.mem (scratchLoc k + 0x1FF800 + 128 * i.val) 128) }
      mx := {}
      vx := {}
      meterJob := 0
      preempt := none, fault := none, kept := none }

/-! ### Completion records -/

/-- The address of a function's save area. -/
def State.saveArea (s : State) (f : Byte) : Dword := (s.func f).save

/-- What a completion record holds beside the item's own fields (R238). -/
structure Result where
  status : Nat
  flags : Nat := 0
  team : Nat := 0
  ndone : Nat := 0
  cause : Byte := 0#8
  stream : Byte := 0#8
  core : Nat := 0
  start : Nat := 0
  energy : Nat := 0
  info : Dword := 0#64
  deriving DecidableEq, Repr

/-- The 64 bytes of a completion record (R238) of an item that ends on die d. -/
def State.recordBytes (s : State) (d : Nat) (i : Item) (r : Result) : List Byte :=
  bytesOfNat 2 r.status ++ bytesOfNat 2 r.flags ++ [BitVec.ofNat 8 d, BitVec.ofNat 8 r.team] ++ bytesOfNat 2 r.ndone
    ++ bytesOfNat 8 i.user.toNat ++ bytesOfNat 4 i.wid.toNat ++ [r.cause, r.stream] ++ bytesOfNat 2 r.core ++ bytesOfNat 8 r.start
    ++ bytesOfNat 8 s.dtime ++ bytesOfNat 8 r.energy ++ bytesOfNat 8 r.info.toNat ++ zeroBytes 8

/-- Write the completion record of an item of function f, then its event if it asks for one (R238, R242). Where compl cannot be written
there is neither (log 23). -/
def State.complete (s : State) (d : Nat) (f : Byte) (q : BitVec 16) (i : Item) (r : Result) : State :=
  match s.hostWrite f i.compl (s.recordBytes d i r) false with
  | .error _ => s
  | .ok t =>
    if i.evt then
      t.event f (bytesOfNat 2 2 ++ bytesOfNat 2 q.toNat ++ bytesOfNat 4 i.wid.toNat ++ bytesOfNat 2 r.status ++ [BitVec.ofNat 8 d]
        ++ zeroBytes 5 ++ bytesOfNat 8 i.compl.toNat ++ bytesOfNat 8 t.dtime)
    else t

/-- Flags of a team's record (R238). -/
def Team.flags (t : Team) : Nat := 8 * t.poisoned.toNat + 4 * t.migrated.toNat + 2 * t.tokensLeft.toNat

/-- The fault reported of a team (R151): of those of one clk, that of the lowest core. -/
def Team.fault (t : Team) : Option (Nat × FaultRec) :=
  t.faults.foldl (fun a f => match a with
    | none => some f
    | some b => if f.1 < b.1 then some f else some b) none

/-- The exact charge of a team's item (R238, R337): with what ranks that will not resume had been charged. -/
def Team.energy (t : Team) : Nat := pJ (t.fine + (t.saves.map fun v => v.jpj).foldl (· + ·) 0)

/-- How a team's run ends (R238, R239): a fault, else why it was stopped, else an aborted deferred access, else OK. `area` is its save
area's address. -/
def Team.result (t : Team) (area : Dword) : Result :=
  let r : Result :=
    { status := 0, flags := t.flags, team := t.item.team.toNat, ndone := t.done.length, start := t.start, energy := t.energy }
  match t.fault, t.stop, t.deferred with
  | some (k, f), _, _ => { r with status := 2, cause := f.cause, stream := f.stream, core := k % 192, info := f.info }
  | none, some st, _ => { r with status := st.toNat, info := area }
  | none, none, some a => { r with status := 1, cause := t.dcause, stream := t.dstream, core := t.dcore % 192, info := a }
  | none, none, none => r

/-! ### Queues of a die -/

/-- The descriptor's head and tail as the part writes them (R219); a descriptor that cannot be written keeps its old ones. -/
def State.writeDesc (s : State) (q : Nat) : State :=
  let x := s.queue q
  match x.desc with
  | none => s
  | some a =>
    match s.hostWrite x.owner (a + 0x10#64) (bytesOfNat 4 x.head.toNat ++ bytesOfNat 4 x.tail.toNat) false with
    | .ok t => t
    | .error _ => s

/-- The queue has items between head and tail. -/
def HQueue.nonEmpty (q : HQueue) : Bool := q.head != q.tail

/-- Slot i of die d leaves its queue (R222); with `again` the queue is pending again at the tail of the order. -/
def State.unmapSlot (s : State) (d i : Nat) (again : Bool) : State :=
  s.modDie d fun x =>
    { x with
      slots := mdel x.slots i
      pendq := if again then x.pendq ++ ((mget? x.slots i).elim [] fun e => [e.queue]) else x.pendq }

/-- The head item of a queue is consumed (R219). Dispatched from its slot on die d it counts there (R222). -/
def State.consume (s : State) (d slot q : Nat) (sent : Bool) : State :=
  let s := (s.modQueue q fun x => { x with head := x.head + 1#32, cancelled := x.cancelled.filter fun i => i != x.head.toNat }).writeDesc q
  match mget? (s.die d).slots slot with
  | none => s
  | some e =>
    if e.queue != q then s
    else
      let n := e.sent + sent.toNat
      s.modDie d fun x =>
        { x with slots := mset x.slots slot { e with sent := n, emptyAt := if (s.queue q).nonEmpty then e.emptyAt else s.clk } }

/-- Candidate c of die d leaves it, its queue's head consumed if it stood there. -/
def State.takeCand (s : State) (d : Nat) (c : Cand) (sent : Bool) : State :=
  let s := s.modDie d fun x => { x with cands := x.cands.filter fun o => o.id != c.id }
  match c.kind with
  | .queue => s.consume d c.slot c.team.queue.toNat sent
  | .internal => s
  | .hamper => s
  | .suspended => s

/-- An item of queue q still runs, is suspended or travels (R218). -/
def State.queueBusy (s : State) (q : Nat) : Bool :=
  let mine (t : Team) := t.queue.toNat == q && t.plan.isNone
  (upto 8).any (fun d =>
    (s.die d).teams.any mine || (s.die d).cands.any fun c => mine c.team && c.kind != .queue) ||
  s.hampers.any fun h => mine h.cand.team

/-- A destroyed queue whose dispatched items are done leaves its slot (R218). -/
def State.closeQueue (s : State) (q : Nat) : State :=
  if (s.queue q).closing && !s.queueBusy q then
    let s := s.modQueue q fun x => { x with closing := false }
    { s with dies := s.dies.map fun (x : Die) => { x with slots := x.slots.filter fun e => e.2.queue != q } }
  else s

/-! ### The end of a team -/

/-- A team that no longer stands on die d ends with a result: its record and event (R238), its images dead (R258), its queue closed if
it was the last one (R218); an internal item reports to the plan engine (R226). -/
def State.endTeam (s : State) (d : Nat) (t : Team) (r : Result) : State :=
  let dead (s : State) : State := t.saves.foldl (fun (s : State) sv => s.setSlot t.func sv.slot 2) s
  match t.plan with
  | some (h, _, _) => (dead s).planDone d h t.id r.status r.cause.toNat
  | none => (dead (s.complete d t.func t.queue t.item r)).closeQueue t.queue.toNat

/-- An internal item's access to memory fails (R58): XLATE and PERM post a fault-queue entry, on which the item waits; any other cause
faults it, OWNER after its event. The entry names rank 0's core and the command queue (log 15). -/
def State.itemFault (s : State) (d : Nat) (t : Team) (z : Byte) (a : Dword) : State :=
  let k := t.cores.headD (192 * d)
  if z == cXLATE || z == cPERM then s.postFault ⟨0#32, t.func, k, 0xFF#8, t.id, 0, none, z, a, none⟩
  else
    let s := if z == cOWNER then s.ownerEvent t.func (s.coord k) a (s.walkPa t.func a.toNat) else s
    s.itemAnswer d t ⟨0#32, t.func, k, 0xFF#8, t.id, 0, none, z, a, none⟩ false

/-- Writes of an internal item's jobs are still on their way: they are visible to the package before its run can end (R447). -/
def State.trailing (s : State) (t : Team) : Bool := s.writes.any fun w => t.trail.contains w.id

/-- R27, R238: the jobs of all cores of a running team are over: its item completes, its team slot and cores are free. The last internal
item of a node also makes the node's accesses, which may fault (R58); the node is then computed (log 15). An internal item waits until the
writes of its jobs have reached their homes (R447). -/
def execWorkItemComplete (d : DieIx) (team : Nat) (s : State) : Host.Outcome State Fault Refusal :=
  match s.team? d.val team with
  | none => .next s
  | some t =>
    if !s.settled t || s.trailing t then .next s
    else
      let r := t.result (s.saveArea t.func)
      match (if r.status = 0 then t.plan.bind fun p => s.itemFail d.val p.1 team else none) with
      | some (z, a) => .next ((s.modTeam d.val team fun t => { t with trail := [] }).itemFault d.val t z a)
      | none => .next ((s.modDie d.val fun x => { x with teams := x.teams.filter fun o => o.id != team }).endTeam d.val t r)

/-- A candidate is retired without starting again (R224, R231 to R233): its record, none of its fields a fault's. -/
def State.retire (s : State) (d : Nat) (c : Cand) (status : Nat) : State :=
  let s := s.takeCand d c false
  let t := c.team
  if t.saves.isEmpty then
    s.endTeam d t { status := status, flags := t.flags, team := t.item.team.toNat, ndone := t.done.length, start := t.start, energy := t.energy }
  else s.endTeam d { t with stop := some (BitVec.ofNat 16 status) } ({ t with stop := some (BitVec.ofNat 16 status) }.result (s.saveArea t.func))

/-! ### The start of a team -/

/-- Cores that a candidate needs (R30): for a suspended team those of its saved ranks. -/
def Cand.need (c : Cand) : Nat := if c.team.saves.isEmpty then c.team.item.team.toNat else c.team.saves.length

/-- The predicted power of a team in mW (R228). -/
def Team.power (t : Team) : Nat := t.item.team.toNat * (if t.item.pwr = 0#16 then 1823 else 4 * t.item.pwr.toNat)

/-- A suspended team runs again on die d (R30, R158): its saved ranks on the lowest free cores in rank order. -/
def State.resumeTeam (s : State) (d : Nat) (c : Cand) : State :=
  let s := s.takeCand d c true
  let t := c.team
  let at_ := (byKey Saved.rank t.saves).zip (s.freeCores t.func d)
  let cores := t.cores.zipIdx.map fun (k, r) => ((at_.find? fun e => e.1.rank == r).map fun e => e.2).getD k
  let run : Team := { t with cores := cores, saves := [], held := [], order := s.next }
  let s := { s with next := s.next + 1 }.modDie d fun x => { x with teams := x.teams ++ [run] }
  at_.foldl (fun (s : State) e => s.resumeCore e.2 t e.1) s

/-- Candidate c starts on die d (R227, R101): its image checked, a team slot and the lowest free cores taken, its jobs started. An image
failure retires it with BADIMAGE. -/
def State.startCand (s : State) (d : Nat) (c : Cand) : State :=
  if !c.team.saves.isEmpty then s.resumeTeam d c
  else
    let t := c.team
    let bad (s : State) (cause : Byte) : State :=
      s.endTeam d t { status := 6, flags := t.flags, team := t.item.team.toNat, cause := cause }
    let im := s.readImage t.func t.item.image
    let s := s.takeCand d c true
    match im with
    | .error e => bad (s.partOwner t.func t.item.image .read 0x100) e
    | .ok none => bad s 0#8
    | .ok (some im) =>
      let cores := (s.freeCores t.func d).take c.need
      let id := if t.plan.isSome then t.id else s.next
      let run : Team :=
        { t with id := id, cores := cores, code := im.code, vlo := im.vlo, vhi := im.vhi, start := s.dtime, order := s.next }
      let s := { s with next := s.next + 1 }.modDie d fun x => { x with teams := x.teams ++ [run] }
      cores.zipIdx.foldl (fun (s : State) e => s.startCore run im e.1 e.2) s

end Sys2Proof.Machine
end

