-- ==== Sys2Proof/Machine/Slices.lean ====
section
/-! DEFINITION. The dispatch slices of the dies: queue slots and the reading of items (R221 to R225), selection (R226 to R231),
priority pre-emption (R230), hard deadlines (R232), overload and hampers (R235 to R237). -/

namespace Sys2Proof.Machine

/-! ### Queue slots -/

/-- A queue's descriptor in memory (R219): ring, lsize, die, pmax, head, or none where a field is out of range. -/
def parseDesc (b : Raw) : Option (Dword × Nat × Nat × Nat × Word) :=
  let ring : Dword := BitVec.ofNat 64 (rawNat b 0 8)
  let lsize := rawNat b 8 1
  let die := rawNat b 9 1
  let pmax := rawNat b 0xA 1
  if ring.toNat % 64 = 0 && 6 ≤ lsize && lsize ≤ 16 && die ≤ 7 && pmax ≤ 3 && rawNat b 0xB 5 == 0 && rawNat b 0x18 40 == 0
  then some (ring, lsize, die, pmax, BitVec.ofNat 32 (rawNat b 0x10 4)) else none

/-- An item that has been read and whose queue has lost its slot: no candidate until the queue is mapped again (R221, R226). -/
def Cand.unmapped (c : Cand) : Bool := c.kind == .queue && c.slot == 32

/-- While queues are pending, those that have dispatched 64 items give up their slots (R222): the item of such a slot that has been read
(R221) is no candidate meanwhile, its wait as a candidate kept; one that stands aside for its hamper keeps the slot (log 24). -/
def State.rotateSlots (s : State) (d : Nat) : State :=
  let x := s.die d
  if x.pendq.isEmpty then s
  else
    let of_ (i : Nat) (c : Cand) : Bool := c.kind == .queue && c.slot == i
    let full := (x.slots.filter fun e => 64 ≤ e.2.sent && !x.cands.any fun c => of_ e.1 c && c.away).map fun e => e.1
    let off (i : Nat) (c : Cand) : Cand := if of_ i c then { c with slot := 32, since := s.dtime - c.since } else c
    full.foldl (fun (s : State) i => (s.modDie d fun x => { x with cands := x.cands.map (off i) }).unmapSlot d i true) s

/-- The item of queue q that has been read is a candidate again in the slot to which the queue is mapped. -/
def State.remap (s : State) (d q i : Nat) : State :=
  let on (c : Cand) : Cand :=
    if c.unmapped && c.team.queue.toNat == q then { c with slot := i, since := s.dtime - c.since } else c
  s.modDie d fun x => { x with cands := x.cands.map on }

/-- R222: the first pending queue of the die is mapped to its lowest free slot; the descriptor is read, and where it cannot be read or
no longer holds valid fields the queue keeps those of its creation (log 24). -/
def execQueueMapped (d : DieIx) (s : State) : Host.Outcome State Fault Refusal :=
  let s := s.rotateSlots d.val
  let x := s.die d.val
  match x.pendq, (upto 32).find? fun i => (mget? x.slots i).isNone with
  | q :: rest, some i =>
    let s := s.modDie d.val fun x => { x with pendq := rest, slots := mset x.slots i { queue := q, sent := 0, emptyAt := s.clk } }
    let s := s.remap d.val q i
    let h := s.queue q
    match h.desc with
    | none => .next s
    | some a =>
      match s.hostRead h.owner a 64 with
      | .error _ => .next s
      | .ok b => match parseDesc b with
        | none => .next s
        | some (ring, lsize, _, pmax, _) => .next (s.modQueue q fun h => { h with ring := ring, lsize := lsize, pmax := pmax })
  | _, _ => .next s

/-- The queue of a slot has no candidate of it. -/
def Die.slotIdle (x : Die) (slot : Nat) : Bool := !(x.cands.any fun c => c.kind == .queue && c.slot == slot)

/-- R222: a queue empty for 2,048 clk is unmapped. -/
def execQueueSlotIdle (d : DieIx) (slot : Nat) (s : State) : Host.Outcome State Fault Refusal :=
  match mget? (s.die d.val).slots slot with
  | none => .next s
  | some e =>
    if !(s.queue e.queue).nonEmpty && !(s.queue e.queue).closing && e.emptyAt + 2048 ≤ s.clk then .next (s.unmapSlot d.val slot false)
    else .next s

/-! ### Reading an item -/

/-- The 64 bytes of a work item (R223). -/
def itemOf (b : Raw) : Item where
  image := BitVec.ofNat 64 (rawNat b 0 8)
  args := BitVec.ofNat 64 (rawNat b 8 8)
  deadline := BitVec.ofNat 64 (rawNat b 0x10 8)
  compl := BitVec.ofNat 64 (rawNat b 0x18 8)
  shape := BitVec.ofNat 64 (rawNat b 0x20 8)
  pipe := BitVec.ofNat 16 (rawNat b 0x28 2)
  team := BitVec.ofNat 8 (rawNat b 0x2A 1)
  stage := BitVec.ofNat 4 (rawNat b 0x2B 1)
  prio := BitVec.ofNat 2 (rawNat b 0x2C 1)
  evt := rawNat b 0x2D 1 / 4 % 2 == 1
  nomig := rawNat b 0x2D 1 / 2 % 2 == 1
  hd := rawNat b 0x2D 1 % 2 == 1
  pwr := BitVec.ofNat 16 (rawNat b 0x2E 2)
  user := BitVec.ofNat 64 (rawNat b 0x30 8)
  wid := BitVec.ofNat 32 (rawNat b 0x38 4)

/-- A reserved bit of a work item is set (R223). -/
def itemReserved (b : Raw) : Bool :=
  rawNat b 0x2B 1 ≥ 16 || rawNat b 0x2C 1 ≥ 4 || rawNat b 0x2D 1 ≥ 8 || rawNat b 0x3C 4 != 0

/-- The ragged shape record at an address breaks R225, or cannot be read. -/
def State.badShape (s : State) (f : Byte) (a : Dword) : Bool :=
  if a.toNat % 64 != 0 then true
  else match s.hostRead f a 16 with
    | .error _ => true
    | .ok h =>
      let n := rawNat h 0 4
      if n < 1 || 65536 < n || rawNat h 4 12 != 0 then true
      else match s.hostRead f (a + 16#64) (4 * n) with
        | .error _ => true
        | .ok b => (wordsOf b).any fun w => 16777216 < w.toNat

/-- compl is aligned and writable (R224, step 1). -/
def State.complOk (s : State) (f : Byte) (a : Dword) : Bool :=
  a.toNat % 64 = 0 && match s.hostCheck f a .write false with
    | .ok _ => true
    | .error _ => false

/-- The status with which an item that has read is retired at once, none for a candidate (R224, R233). -/
def State.itemStatus (s : State) (d : Nat) (f : Byte) (pmax : Nat) (cancelled : Bool) (b : Raw) : Option Nat :=
  let i := itemOf b
  if cancelled then some 5
  else if itemReserved b || i.team = 0#8 || pmax < i.prio.toNat || (i.hd && i.deadline == 0#64) || i.image.toNat % 64 != 0 then some 7
  else if (s.partCores f d).length < i.team.toNat then some 9
  else if i.shape != 0#64 && s.badShape f i.shape then some 8
  else none

/-- R221, R224, R225: the head item of a slot's queue is read once and checked: skipped, dropped, retired or a candidate. A function
that is held presents none (R222, R226). -/
def execItemRead (d : DieIx) (slot : Nat) (s : State) : Host.Outcome State Fault Refusal :=
  match mget? (s.die d.val).slots slot with
  | none => .next s
  | some e =>
    let q := e.queue
    let h := s.queue q
    let f := h.owner
    if !h.nonEmpty || h.desc.isNone || !(s.die d.val).slotIdle slot || (s.func f).state == 2#8 then .next s
    else
      let a := h.ring + BitVec.ofNat 64 (64 * (h.head.toNat % 2 ^ h.lsize))
      match s.hostRead f a 64 with
      | .error _ => .next (((s.partOwner f a .read 64).refusedEvent f 9 f q h.head.toNat).consume d.val slot q false)
      | .ok b =>
        let i := itemOf b
        if !s.complOk f i.compl then
          .next (((s.partOwner f i.compl .write 1).refusedEvent f 5 f q i.compl.toNat).consume d.val slot q false)
        else
          let t : Team := { id := 0, item := i, func := f, queue := BitVec.ofNat 16 q }
          match s.itemStatus d.val f h.pmax (h.cancelled.contains h.head.toNat) b with
          | some st =>
            .next ((s.consume d.val slot q false).endTeam d.val t { status := st, team := i.team.toNat })
          | none =>
            let c : Cand := { id := s.next, kind := .queue, team := t, slot := slot, since := s.dtime }
            .next ({ s with next := s.next + 1 }.modDie d.val fun x => { x with cands := x.cands ++ [c] })

/-! ### Selection -/

/-- Work of function f may start or resume on its partition's cores (R226, R252, R253): enabled, current there, no tick in progress. -/
def State.eligible (s : State) (f : Byte) : Bool :=
  let r := s.func f
  let p := s.part r.part.toNat
  r.state == 1#8 && r.part != 0xFF#8 && p.cur == f && p.tick.isNone

/-- t_age in ns (R229). -/
def State.tage (s : State) : Nat := 100000 * s.mg.tage

/-- Time a candidate has waited. -/
def State.waited (s : State) (c : Cand) : Nat := s.dtime - c.since

/-- Effective priority (R229). -/
def State.effPrio (s : State) (c : Cand) : Nat := min 3 (c.team.item.prio.toNat + s.waited c / s.tage)

/-- The function's remaining quota fraction; 1 without a quota (R227). -/
def Func.fraction (r : Func) : Rat := if r.quotaNow = 0 then 1 else (r.remain : Rat) / (r.quotaNow : Rat)

/-- Candidate a stands before b in the ranking (R227). -/
def State.ranksBefore (s : State) (a b : Cand) : Bool :=
  let dl (c : Cand) : Nat := if c.team.item.deadline = 0#64 then 2 ^ 64 else c.team.item.deadline.toNat
  let fr (c : Cand) : Rat := (s.func c.team.func).fraction
  let cls (c : Cand) : Nat := if c.kind = .queue then 0 else 1
  let arr (c : Cand) : Nat := if c.kind = .queue then c.slot else c.id
  if s.effPrio a != s.effPrio b then s.effPrio b < s.effPrio a
  else if dl a != dl b then dl a < dl b
  else if fr a != fr b then fr b < fr a
  else if a.team.power != b.team.power then a.team.power < b.team.power
  else if cls a != cls b then cls a < cls b
  else arr a < arr b

/-- Insertion into a ranking. -/
def State.insRank (s : State) (c : Cand) : List Cand → List Cand
  | [] => [c]
  | x :: t => if s.ranksBefore c x then c :: x :: t else x :: State.insRank s c t

/-- The ranked candidates of die d. Those of a function that may not start now stand aside (log 25). -/
def State.ranking (s : State) (d : Nat) : List Cand :=
  ((s.die d).cands.filter fun c => !c.away && !c.unmapped && s.eligible c.team.func).foldl (fun l c => s.insRank c l) []

/-- The die's headroom in mW is at least n (R228, R455). -/
def State.headroom (s : State) (d n : Nat) : Bool :=
  let x := s.die d
  let used := (x.teams.map Team.power).foldl (· + ·) 0
  ((used + n : Nat) : Int) ≤ (x.budget : Int) * 100 * x.heat

/-- The candidates for which cores and a slot are being freed, in the order in which that began, as far as they are still there (R230). -/
def State.holders (s : State) (d : Nat) : List Cand := (s.die d).held.filterMap fun id => (s.die d).cands.find? fun c => c.id == id

/-- What is held for others than candidate c, for those before it if some is held for it: team slots, and cores of its partition (R230). -/
def State.heldFor (s : State) (d : Nat) (c : Cand) : Nat × Nat :=
  let hs := (s.holders d).takeWhile fun h => h.id != c.id
  let mine (h : Cand) := (s.func h.team.func).part == (s.func c.team.func).part
  (hs.length, ((hs.filter mine).map Cand.need).foldl (· + ·) 0)

/-- A team slot and cores are free for candidate c, beside what is held for others (R230). -/
def State.room (s : State) (d : Nat) (c : Cand) : Bool :=
  let h := s.heldFor d c
  (s.die d).teams.length + h.1 < 24 && c.need + h.2 ≤ (s.freeCores c.team.func d).length

/-- Candidate c fits (R227). -/
def State.fits (s : State) (d : Nat) (c : Cand) : Bool := s.room d c && s.headroom d c.team.power

/-- Cores that a pre-emption of a team would save. -/
def State.live (s : State) (t : Team) : Nat := (t.cores.filter fun k => s.runs t.id k).length

/-- Core k is being soft-pre-empted. -/
def State.leaving (s : State) (k : Nat) : Bool :=
  (s.core k).preempt.isSome || s.due.any fun a => match a with
    | .event (.softPreemptRequest i _) => i.val == k
    | _ => false

/-- Cores of function f's partition on die d, and teams there, that a soft pre-emption under way will free. -/
def State.freeing (s : State) (f : Byte) (d : Nat) : Nat × Nat :=
  (((s.partCores f d).filter fun k => (s.core k).job.isSome && s.leaving k).length,
   ((s.die d).teams.filter fun t => !s.settled t && t.cores.all fun k => !s.runs t.id k || s.leaving k).length)

/-- The least number of victims, lowest priority first and latest started first, that make room for candidate c beside what is free or being
freed, or none (R230). The candidate's priority is its effective one (R229), a running team's that of its item, which the spec does not say
(DESIGN CHOICE, log 104). -/
def State.victims (s : State) (d : Nat) (c : Cand) : Option (List Team) :=
  let x := s.die d
  let ok (t : Team) : Bool :=
    t.func == c.team.func && t.stop.isNone && t.faults.isEmpty && !(t.cores.any fun k => s.runs t.id k && s.leaving k) &&
    ((s.die d).reserving == some c.id || t.item.prio.toNat < s.effPrio c)
  let later (a b : Team) : Bool :=
    if a.item.prio != b.item.prio then a.item.prio.toNat < b.item.prio.toNat else b.order < a.order
  let ins (t : Team) (l : List Team) : List Team := (l.takeWhile fun y => !later t y) ++ t :: l.dropWhile fun y => !later t y
  let order := (x.teams.filter ok).foldl (fun l t => ins t l) []
  let free := (s.freeCores c.team.func d).length
  let h := s.heldFor d c
  let w := s.freeing c.team.func d
  let enough (vs : List Team) : Bool :=
    x.teams.length + h.1 - w.2 - vs.length < 24 && c.need + h.2 ≤ free + w.1 + (vs.map s.live).foldl (· + ·) 0
  let n := (upto (order.length + 1)).find? fun n => enough (order.take n)
  n.map fun n => order.take n

/-- The cores of partition p by the core-group map, failed ones among them (R245, R246). -/
def State.groupCores (s : State) (p : Byte) : Nat := 8 * (s.mg.groups.filter fun g => g.2 == p).length

/-- Pre-emption for a candidate (R229, R230), if the save slots allow it (R258). -/
def State.makeRoom (s : State) (d : Nat) (c : Cand) : State :=
  if s.room d c then s
  else match s.victims d c with
    | none => s
    | some vs =>
      let f := c.team.func
      let cores := s.groupCores (s.func f).part
      if vs.isEmpty || (s.func f).nslots < s.slotsUsed f + (s.freeing f d).1 + (vs.map s.live).foldl (· + ·) 0 + cores then s
      else vs.foldl (fun (s : State) t => s.preemptTeam t 2#8) (s.modDie d fun x =>
        { x with held := if x.held.contains c.id then x.held else x.held ++ [c.id] })

/-- The walk of a ranking (R227, R229): at most n starts; below the reserving candidate, if that does not fit, nothing starts. The candidates
that do not fit for lack of cores or a slot while nothing has started above them come back (R235). -/
def State.scanWalk (s : State) (d n : Nat) (top : Bool) : List Cand → State × List Cand
  | [] => (s, [])
  | c :: t =>
    if n = 0 then (s, [])
    else if s.fits d c then
      State.scanWalk ((s.startCand d c).modDie d fun x =>
        { x with held := x.held.filter fun i => i != c.id, reserving := if x.reserving = some c.id then none else x.reserving })
        d (n - 1) false t
    else
      let short := !s.room d c
      let rest := if (s.die d).reserving = some c.id then (s, if top then t.filter fun o => !s.room d o else []) else State.scanWalk s d n top t
      if top && short then (rest.1, c :: rest.2) else rest

/-- Candidates whose deadline has passed end at the scan (R231, R232): LATE for one that has never started, a queue item only while its queue
presents it (R222, R226), LATE_STOPPED for a suspended one of an item with hd. -/
def State.lateScan (s : State) (d : Nat) : State :=
  let late (c : Cand) : Bool := c.team.item.deadline != 0#64 && c.team.item.deadline.toNat < s.dtime && !c.away && !c.unmapped
  let shown (c : Cand) : Bool := c.kind != .queue || (s.func c.team.func).state != 2#8
  ((s.die d).cands.filter late).foldl (fun (s : State) c =>
    if c.team.saves.isEmpty then (if shown c then s.retire d c 3 else s)
    else if c.team.item.hd then s.retire d c 4 else s) s

/-- The reserving candidate of die d (R229): the old one while it stands in the ranking, else the first that has waited long enough. That it
keeps its role although one above it has since waited that long is the model's choice (DESIGN CHOICE, log 104). -/
def State.reserve (s : State) (d : Nat) (l : List Cand) : State :=
  let old := (s.die d).reserving.filter fun id => l.any fun c => c.id == id
  let new := (l.find? fun c => 4 * s.tage ≤ s.waited c).map fun c => c.id
  s.modDie d fun x => { x with reserving := old.orElse fun _ => new }

/-- R226 to R231: a scan of the slice of die d. Room is made for the top candidate, and for the reserving one, if they lack it. -/
def execDispatchScan (d : DieIx) (s : State) : Host.Outcome State Fault Refusal :=
  let d := d.val
  let s := s.lateScan d
  let s := s.modDie d fun x => { x with held := (s.holders d).map fun c => c.id }
  let l := s.ranking d
  let s := s.reserve d l
  let (s, short) := s.scanWalk d s.mg.width true l
  let res := (s.die d).reserving.bind fun id => (s.die d).cands.find? fun c => c.id == id
  let top := l.head?.filter fun c => (s.die d).cands.any fun o => o.id == c.id
  let s := (top.toList ++ res.toList).foldl (fun s c => s.makeRoom d c) s
  .next (s.modDie d fun x =>
    let l := short.map fun c => (c.id, ((x.overload.find? fun o => o.1 == c.id).map fun o => o.2).getD s.clk)
    { x with overload := l, overloaded := x.overloaded && l.any fun o => o.2 + 4096 ≤ s.clk })

/-! ### Deadlines, overload, hampers -/

/-- R232: a running item with hd whose deadline has passed is pre-empted on every core of its team, to complete LATE_STOPPED. -/
def execHardDeadline (d : DieIx) (team : Nat) (s : State) : Host.Outcome State Fault Refusal :=
  match s.team? d.val team with
  | none => .next s
  | some t =>
    if t.item.hd && t.item.deadline.toNat < s.dtime && t.stop.isNone && t.faults.isEmpty && !s.settled t then
      .next ((s.modTeam d.val team fun t => { t with stop := some 4#16 }).preemptTeam t 4#8)
    else .next s

/-- A die on which a candidate has stood unfitting above every one that started for 4,096 clk is overloaded (R235). -/
def State.overloadDie (s : State) (d : Nat) : State :=
  s.modDie d fun x => { x with overloaded := x.overloaded || x.overload.any fun o => o.2 + 4096 ≤ s.clk }

/-- R235: a die that has not fitted a candidate for 4,096 clk is overloaded. -/
def execDieOverload (d : DieIx) (s : State) : Host.Outcome State Fault Refusal := .next (s.overloadDie d.val)

/-- What a die advertises: free team slots, and free cores by partition (R235). -/
def State.advertise (s : State) (d : Nat) : State :=
  let cores (p : Nat) : Nat :=
    ((upto 192).filter fun i =>
      let k := 192 * d + i
      s.corePart k == BitVec.ofNat 8 p && !s.failed.contains k && (s.core k).job.isNone && (s.core k).scrub.isNone).length
  s.modDie d fun x =>
    { x with adSlots := 24 - x.teams.length, adCores := (upto 32).foldl (fun m p => mset0 m p (cores p)) [] }

/-- The nearest other die that advertises room for candidate c (R235). -/
def State.hamperTo (s : State) (d : Nat) (c : Cand) : Option Nat :=
  let p := (s.func c.team.func).part.toNat
  let ok := (upto 8).filter fun e => e != d && 1 ≤ (s.die e).adSlots && c.need ≤ mget (s.die e).adCores p 0
  (byKey (hops d) ok).head?

/-- Candidate id of die d stands aside while its hamper travels, or comes back (R237). -/
def State.markAway (s : State) (d id : Nat) (away : Bool) : State :=
  let f (c : Cand) : Cand := if c.id = id then { c with away := away } else c
  s.modDie d fun x => { x with cands := x.cands.map f }

/-- The 64 bytes of a work item (R223). -/
def Item.bytes (i : Item) : List Byte :=
  bytesOfNat 8 i.image.toNat ++ bytesOfNat 8 i.args.toNat ++ bytesOfNat 8 i.deadline.toNat ++ bytesOfNat 8 i.compl.toNat
    ++ bytesOfNat 8 i.shape.toNat ++ bytesOfNat 2 i.pipe.toNat
    ++ [i.team, BitVec.ofNat 8 i.stage.toNat, BitVec.ofNat 8 i.prio.toNat, BitVec.ofNat 8 (4 * i.evt.toNat + 2 * i.nomig.toNat + i.hd.toNat)]
    ++ bytesOfNat 2 i.pwr.toNat ++ bytesOfNat 8 i.user.toNat ++ bytesOfNat 4 i.wid.toNat ++ zeroBytes 4

/-- The first flit of a hamper from die d (R236). -/
def State.hamperHead (s : State) (d : Nat) (c : Cand) : List Byte :=
  let susp := !c.team.saves.isEmpty
  padTo 256 (c.team.item.bytes ++ bytesOfNat 2 c.team.queue.toNat
    ++ [BitVec.ofNat 8 susp.toNat, if susp then c.team.item.team else 0#8, BitVec.ofNat 8 d, 0#8, 0#8, 0#8] ++ bytesOfNat 8 c.since
    ++ bytesOfNat 8 (if susp then (s.saveArea c.team.func).toNat else 0))

/-- Bytes of the sequencer and transfer regions, and what they fill of 41 flits (R236). -/
def regionBytes : Nat := 0x2840
def regionFlits : Nat := 41

/-- The regions of the saved ranks of a team in rank order (R236), none where an image cannot be read. -/
def State.hamperRegions (s : State) (f : Byte) : List Saved → Option (List (List Byte))
  | [] => some []
  | v :: t =>
    match s.slotPages f v.slot .read with
    | .error _ => none
    | .ok ps =>
      if v.region.isNone && s.poisoned (ps.headD 0 + 0x40) regionBytes then none
      else (State.hamperRegions s f t).map fun r =>
        padTo (256 * regionFlits) ((v.region).getD (Memory.readN s.mem (ps.headD 0 + 0x40) regionBytes)) :: r

/-- Bytes as flits; fuel is their number. -/
def flitsOf (bs : List Byte) : Nat → List (List Byte)
  | 0 => []
  | n + 1 => bs.take 256 :: flitsOf (bs.drop 256) n

/-- The flits of candidate c as a hamper from die d (R236). -/
def State.hamperFlits (s : State) (d : Nat) (c : Cand) : Option (List (List Byte)) :=
  (s.hamperRegions c.team.func (byKey Saved.rank c.team.saves)).map fun rs =>
    s.hamperHead d c :: rs.flatMap fun r => flitsOf r regionFlits

/-- Candidate c may migrate (R235): an undispatched item, or a suspended team of at most 8 cores; no internal item, none with nomig. -/
def Cand.movable (c : Cand) : Bool :=
  !c.away && c.team.plan.isNone && !c.team.item.nomig && (c.team.saves.isEmpty || c.team.item.team.toNat ≤ 8)

/-- An overloaded die may send its top unfitting candidate as a hamper (R235, R236); whether it does is the part's choice (log 8). -/
def State.sendHamper (s : State) (d : Nat) : State :=
  let x := s.die d
  match (x.overload.head?.filter fun _ => x.overloaded).bind fun o => x.cands.find? fun c => c.id == o.1 with
  | none => s
  | some c =>
    if !c.movable then s
    else match s.hamperTo d c, s.hamperFlits d c with
      | some e, some fs =>
        let u := { s with fresh := s.fresh + 1 }
        let h : Hamper := { id := s.next, src := d, dst := e, cand := c, flits := fs }
        if Config.choice s.fresh then
          ({ u with next := s.next + 1, hampers := s.hampers ++ [h] }.markAway d c.id true).modDie d fun x =>
            { x with overload := x.overload.drop 1, overloaded := false }
        else u
      | _, _ => s

/-- R235, R236: at a frame every die advertises; overloaded dies may send hampers. -/
def execFreeSlotBroadcast (s : State) : Host.Outcome State Fault Refusal :=
  let s := (upto 8).foldl State.advertise s
  .next ((upto 8).foldl State.sendHamper s)

/-- The hamper with a number. -/
def State.hamper? (s : State) (id : Nat) : Option Hamper := s.hampers.find? fun h => h.id == id

/-- The team of a hamper as its receiver has it: marked MIGRATED (R237), each saved rank with the regions that came (R236). -/
def Hamper.team (h : Hamper) : Team :=
  let t := h.cand.team
  let saves := (byKey Saved.rank t.saves).zipIdx.map fun (v, i) =>
    { v with region := some ((((h.flits.drop (1 + regionFlits * i)).take regionFlits).flatten).take regionBytes) }
  { t with migrated := true, saves := saves }

/-- R237, R233: the receiver refuses a hamper without a free slot and cores; else the item is a candidate there, its wait kept, or is
retired if it was cancelled on the way. -/
def execHamperArrival (id : Nat) (s : State) : Host.Outcome State Fault Refusal :=
  match s.hamper? id with
  | none => .next s
  | some h =>
    if h.answer.isSome then .next s
    else
      let c := h.cand
      let fit := (s.die h.dst).teams.length < 24 && c.need ≤ (s.freeCores c.team.func h.dst).length
      let ok := fit || h.cancelled
      let s := { s with hampers := s.hampers.map fun x => if x.id = id then { x with answer := some ok } else x }
      if h.cancelled then .next (s.retire h.dst { c with id := s.next, kind := .hamper } 5)
      else if fit then
        let kind : CandKind := if c.team.saves.isEmpty then .hamper else .suspended
        let new : Cand := { c with id := s.next, kind := kind, away := false, team := h.team }
        .next ({ s with next := s.next + 1 }.modDie h.dst fun x => { x with cands := x.cands ++ [new] })
      else .next s

/-- R237: the sender drops an accepted candidate, or ranks a refused one again. -/
def execHamperAnswer (id : Nat) (s : State) : Host.Outcome State Fault Refusal :=
  match s.hamper? id with
  | none => .next s
  | some h =>
    match h.answer with
    | none => .next s
    | some ok =>
      let s := { s with hampers := s.hampers.filter fun x => x.id != id }
      if ok then .next ((s.takeCand h.src h.cand false).closeQueue h.cand.team.queue.toNat)
      else .next (s.markAway h.src h.cand.id false)

end Sys2Proof.Machine
end

