-- ==== Sys2Proof/Machine/Gang.lean ====
section
/-! DEFINITION. Gang switching (R252 to R256, R260), quotas (R264) and shared charges (R263), as events that the part's clock brings to
every partition and function whose time has come. -/

namespace Sys2Proof.Machine

/-! ### The clock -/

/-- DTIME of the multiple of n ns last reached. -/
def State.multiple (s : State) (n : Nat) : Nat := s.dtime / n * n

/-! ### Choosing -/

/-- The owner codes of VFs. -/
def vfCodes : List Byte := (upto 64).map fun i => BitVec.ofNat 8 i

/-- The functions of a partition's gang (R252) that may run: enabled, not held. -/
def State.gang (s : State) (p : Nat) : List Byte := vfCodes.filter fun f => (s.func f).part.toNat == p && (s.func f).state == 1#8

/-- Function f has a candidate or a suspended team (R252). -/
def State.hasWork (s : State) (f : Byte) : Bool :=
  (upto 8).any fun d => (s.die d).cands.any fun c => c.team.func == f && !c.away && !c.unmapped

/-- Codes after cur in ascending order, wrapping. -/
def codesAfter (cur : Byte) (l : List Byte) : List Byte :=
  (l.filter fun f => cur.toNat < f.toNat) ++ l.filter fun f => f.toNat ≤ cur.toNat

/-- The incoming function of a tick (R252): with credit first, else the next one with work; none but cur is no switch. -/
def State.incoming (s : State) (p : Nat) : Option Byte :=
  let cur := (s.part p).cur
  let g := (s.gang p).filter fun f => f != cur
  match g.find? fun f => 0 < (s.func f).credit with
  | some f => some f
  | none => (codesAfter cur g).find? s.hasWork

/-- A die has saved (R253, R260): no core of it runs a job of the outgoing function or is being scrubbed of it. -/
def State.dieSaved (s : State) (f : Byte) (d : Nat) : Bool :=
  (upto 192).all fun i =>
    let c := s.core (192 * d + i)
    !(c.job.any fun j => j.func == f) && !(c.scrub.any fun x => x.1 == f)

/-- The dies that have not saved. -/
def State.unsaved (s : State) (f : Byte) : List Nat := (upto 8).filter fun d => !s.dieSaved f d

/-- The event of R255 to the PF's ring. -/
def State.lateEvent (s : State) (p : Nat) (t : Tick) (d outcome : Nat) : State :=
  s.event pfCode (bytesOfNat 2 7 ++ [BitVec.ofNat 8 p, BitVec.ofNat 8 d, vget (s.part p).voids d 0#8, BitVec.ofNat 8 outcome, t.outgoing,
    t.incoming] ++ bytesOfNat 8 t.at_ ++ zeroBytes 16)

/-- The tick of partition p completes (R253, R255): the incoming function is current, its credit spent on further slices; a tick is owed
only if it has become held meanwhile (R252). -/
def State.tickDone (s : State) (p : Nat) (t : Tick) : State :=
  let c := (s.func t.incoming).credit
  let held := (s.func t.incoming).state == 2#8
  let s := s.modFunc t.incoming fun r => { r with credit := 0 }
  s.modPart p fun x => { x with cur := t.incoming, tick := none, voids := Vector.replicate 8 0#8, extra := c, late := [], owed := held }

/-- Request soft pre-emption of the teams of function f on every die (R253, R264). -/
def State.preemptFunc (s : State) (f : Byte) (reason : Byte) : State :=
  (upto 8).foldl (fun (s : State) d =>
    ((s.die d).teams.filter fun t => t.func == f).foldl (fun s t => s.preemptTeam t reason) s) s

/-- Whether the tick that a held function owes is due: its saves are complete (R252). -/
def State.owedDue (s : State) (x : Part) : Bool := x.owed && (s.unsaved x.cur).isEmpty

/-- A tick of partition p (R252, R253): within credit slices nothing, else the choice and the saves of the outgoing function. A tick
that falls while another is in progress is not taken (log 27). -/
def State.tickPart (s : State) (p : Nat) : State :=
  let x := s.part p
  match x.tick with
  | some t => if (s.unsaved t.outgoing).isEmpty then s.tickDone p t else s
  | none =>
    if !(s.reached (1000 * x.slice) || s.owedDue x) then s
    else
      let owed := s.owedDue x
      let s := s.modPart p fun y => { y with owed := y.owed && !owed }
      if 0 < x.extra && !owed then s.modPart p fun y => { y with extra := y.extra - 1 }
      else match s.incoming p with
        | none => s
        | some f =>
          let t : Tick := { at_ := if owed then s.dtime else s.multiple (1000 * x.slice), outgoing := x.cur, incoming := f }
          let s := s.modPart p fun y => { y with tick := some t, extra := 0, late := [] }
          if (s.unsaved x.cur).isEmpty then s.tickDone p t else s.preemptFunc x.cur 0#8

/-- R252, R253: gang ticks on every partition, and the completion of those whose dies have saved. -/
def execGangTick (s : State) : Host.Outcome State Fault Refusal := .next ((upto 32).foldl State.tickPart s)

/-- The suspended teams of function f on die d that were saved at or after a DTIME run again (R255). -/
def State.restoreDie (s : State) (f : Byte) (since d : Nat) : State :=
  let mine (c : Cand) : Bool := c.kind == .suspended && c.team.func == f && since ≤ c.since && !c.away
  ((s.die d).cands.filter mine).foldl (fun (s : State) c => if s.room d c then s.resumeTeam d c else s) s

/-- A tick in progress of partition p with dies that have not saved by a DTIME. -/
def State.lateTick (s : State) (p after : Nat) : Option (Tick × List Nat) :=
  match (s.part p).tick with
  | none => none
  | some t =>
    let l := s.unsaved t.outgoing
    if !t.escalated && t.at_ + after ≤ s.dtime && !l.isEmpty then some (t, l) else none

/-- R255: at tsd a die that is late has the deadline extended once. -/
def execGangSaveDeadline (s : State) : Host.Outcome State Fault Refusal :=
  .next ((upto 32).foldl (fun (s : State) p =>
    match s.lateTick p (1000 * (s.part p).tsd) with
    | none => s
    | some (t, l) =>
      if t.extended then s
      else
        let s := s.modPart p fun x => { x with tick := some { t with extended := true } }
        l.foldl (fun s d => s.lateEvent p t d 0) s) s)

/-- Every job of function f on die d is hard-stopped with cause ESCALATED (R255); a hard stop takes its whole team (R151). -/
def State.escalate (s : State) (f : Byte) (d : Nat) : State :=
  ((s.die d).teams.filter fun t => t.func == f).foldl (fun (s : State) t =>
    match t.cores.find? fun k => s.runs t.id k with
    | none => s
    | some k => s.jobFaultFree k cESCALATED 0xFF 0#32) s

/-- A die whose voids have just reached 3 (R255). -/
def State.worn (s : State) (p d : Nat) : Bool := 3 ≤ (vget (s.part p).voids d 0#8).toNat

/-- R255: at 1.5 tsd a die is still late: the tick is void, or, where a die has been late three times, that die is escalated and the
tick waits for its saves and those of other late dies (log 27). -/
def State.voidPart (s : State) (p : Nat) : State :=
  match s.lateTick p (1500 * (s.part p).tsd) with
  | none => s
  | some (t, l) =>
    let s := s.modPart p fun x =>
      { x with voids := Vector.ofFn fun d => if l.contains d.val then vget x.voids d.val 0#8 + 1#8 else 0#8 }
    let worn := l.filter fun d => s.worn p d
    if worn.isEmpty then
      let s := s.modPart p fun x => { x with tick := none, late := l, lateAt := t.at_ }
      let s := s.modFunc t.incoming fun r => { r with credit := r.credit + 1 }
      let s := l.foldl (fun s d => s.lateEvent p t d 1) s
      ((upto 8).filter fun d => !l.contains d).foldl (fun s d => s.restoreDie t.outgoing t.at_ d) s
    else
      let s := worn.foldl (fun (s : State) d => s.escalate t.outgoing d) s
      let s := s.modPart p fun x =>
        { x with
          tick := some { t with extended := true, escalated := true }
          voids := Vector.ofFn fun d => if worn.contains d.val then 0#8 else vget x.voids d.val 0#8 }
      worn.foldl (fun s d => s.lateEvent p t d 2) s

/-- R255. -/
def execGangVoidDeadline (s : State) : Host.Outcome State Fault Refusal := .next ((upto 32).foldl State.voidPart s)

/-- R255: after a void, a late die whose saves have become valid restores from them. -/
def execLateSaveRestore (s : State) : Host.Outcome State Fault Refusal :=
  .next ((upto 32).foldl (fun (s : State) p =>
    let x := s.part p
    if x.tick.isSome then s
    else
      let ok := x.late.filter fun d => s.dieSaved x.cur d
      let s := s.modPart p fun y => { y with late := y.late.filter fun d => !ok.contains d }
      ok.foldl (fun s d => s.restoreDie x.cur x.lateAt d) s) s)

/-! ### Quotas -/

/-- R264: a function at or below zero is held, its jobs pre-empted. -/
def State.quotaOf (s : State) (f : Byte) : State :=
  let r := s.func f
  if r.quotaNow != 0 && r.state == 1#8 && r.remain ≤ 0 then
    let s := s.modFunc f fun r => { r with state := 2#8, heldAt := s.dtime }
    let s := s.modPart r.part.toNat fun x => if x.cur = f then { x with owed := true } else x
    s.preemptFunc f 1#8
  else s

/-- R264. -/
def execQuotaCheck (s : State) : Host.Outcome State Fault Refusal := .next (vfCodes.foldl State.quotaOf s)

/-- What a window start makes of a record (R245, R264): debt carried, changed fields in force, the hold lifted above 0. -/
def Func.newWindow (r : Func) : Func :=
  let r := { r with debt := min 0 r.remain, spent := 0, quotaNow := r.quota.toNat, windowNow := r.window }
  if r.state = 2#8 && (r.quota == 0#64 || 0 < r.remain) then { r with state := 1#8 } else r

/-- A candidate's start of waiting once its function is released: the time of the hold is not time as a candidate (R226, R229). -/
def Cand.released (c : Cand) (heldAt now : Nat) : Cand := { c with since := if c.since < heldAt then c.since + (now - heldAt) else now }

/-- The candidates of function f become candidates again at the end of its hold. -/
def State.releaseCands (s : State) (f : Byte) : State :=
  let g (c : Cand) : Cand := if c.team.func = f && !c.unmapped then c.released (s.func f).heldAt s.dtime else c
  { s with dies := s.dies.map fun d => { d with cands := d.cands.map g } }

/-- R264: windows start for every function whose window has ended. -/
def execQuotaWindowStart (s : State) : Host.Outcome State Fault Refusal :=
  .next (vfCodes.foldl (fun (s : State) f =>
    let r := s.func f
    if (r.state == 1#8 || r.state == 2#8) && s.reached (1000000 * r.windowNow) then
      let t := s.modFunc f Func.newWindow
      if r.state == 2#8 && (t.func f).state == 1#8 then t.releaseCands f else t
    else s) s)

/-! ### Shared charges -/

/-- A function's meters run: it is a VF that an FLR has not stopped (R259). -/
def State.meters (s : State) (f : Byte) : Bool := f.toNat < 64 && (s.func f).state != 3#8

/-- Charge an exact amount to a function whose meters run, or to the commons account (R245, R259, R262). -/
def State.bill (s : State) (f : Byte) (x : Nat) : State := if s.meters f then s.account f x else { s with commons := s.commons + x }

/-- Charge the packets and bytes of n bytes over a connection, uncalibrated, to its function (R261, R262). -/
def State.etherCharge (s : State) (f : Byte) (n : Nat) : State :=
  ({ s with fresh := s.fresh + 1 }).bill f ((Config.packets s.fresh n * s.rate 5 0 0xF + n * s.rate 5 1 0xF) * 0x4000)

/-- Split a shared cost, in 1/256 pJ, among functions by units of a capacity (R263): whole pJ each, the rest to the commons. -/
def State.split (s : State) (cost cap : Nat) (units : Byte → Nat) : State :=
  let share (f : Byte) : Nat := cost * units f / (256 * cap) * 0x400000
  let run := vfCodes.filter s.meters
  let sum := (run.map share).foldl (· + ·) 0
  let s := run.foldl (fun (s : State) f => s.account f (share f)) s
  { s with commons := s.commons + (cost * 0x4000 - sum) }

/-- In-service cores of die d. -/
def State.inService (s : State) (d : Nat) : List Nat := ((upto 192).map fun i => 192 * d + i).filter fun k => !s.failed.contains k

/-- R263: the shared costs of a 1 ms tick. -/
def execSharedChargeTick (s : State) : Host.Outcome State Fault Refusal :=
  let cur (p : Byte) : Byte := if p = 0xFF#8 then 0xFF#8 else (s.part p.toNat).cur
  let owned (d : Nat) (f : Byte) : Nat :=
    (s.rot.filter fun e => e.1 < 0x800000 && e.1 / 0x100000 == d && e.2.getLsbD 8 && (e.2.extractLsb' 0 7).toNat == f.toNat).length
  let cores (d : Nat) (f : Byte) : Nat := ((s.inService d).filter fun k => cur (s.corePart k) == f).length
  let slots (f : Byte) : Nat := ((upto 256).filter fun i => cur (mget s.mg.hedge i 0xFF#8) == f).length
  let queues (d : Nat) (f : Byte) : Nat := (s.queues.filter fun q => q.2.owner == f && q.2.desc.isSome && q.2.die == d).length
  let s := (upto 8).foldl (fun (t : State) d => t.split (s.rate 6 0 0xF) 0x100000 (owned d)) s
  let s' := (upto 8).foldl (fun (t : State) d => t.split (s.rate 6 1 0xF) (max 1 (s.inService d).length) (cores d)) s
  let s'' := s'.split (s.rate 6 2 0xF) 256 slots
  .next ((upto 8).foldl (fun (t : State) d => t.split (s.rate 6 3 0xF) 4096 (queues d)) s'')

end Sys2Proof.Machine
end

