-- ==== Sys2Proof/Machine/Mgmt.lean ====
section
/-! DEFINITION. The management window (R244 to R251, R261): its fields as bytes, the checks and the effects of a write, the status; and
the function-level reset (R259, R260). -/

namespace Sys2Proof.Machine

/-! ### Bytes of the window -/

/-- Bytes with data laid over them from an offset. -/
def merge (old : List Byte) (o : Nat) (data : List Byte) : List Byte := old.take o ++ data ++ old.drop (o + data.length)

/-- A field: offset, length, writable. -/
abbrev Field := Nat × Nat × Bool

/-- A write from offset o keeps to writable fields, and to zero in reserved ones `rs` (R244). -/
def fieldsOk (fs : List Field) (rs : List (Nat × Nat)) (o : Nat) (data : List Byte) : Bool :=
  data.zipIdx.all fun (b, i) =>
    (fs.any fun f => f.2.2 && f.1 ≤ o + i && o + i < f.1 + f.2.1) ||
    (b == 0#8 && rs.any fun r => r.1 ≤ o + i && o + i < r.1 + r.2)

/-- A write of n bytes from o reaches a field. -/
def touches (o n : Nat) (f : Field) : Bool := overlaps o n f.1 f.2.1

/-- The registers of the first 0x30 bytes (R244). -/
def miscFields : List Field := [(0, 4, false), (8, 1, true), (0x10, 1, true), (0x12, 2, true), (0x20, 16, true)]
/-- The bytes of R244's first registers. -/
def State.miscBytes (s : State) : List Byte :=
  bytesOfNat 4 s.mg.status.toNat ++ zeroBytes 12 ++ bytesOfNat 1 s.mg.width ++ [0#8] ++ bytesOfNat 2 s.mg.tage ++ zeroBytes 12
    ++ (upto 8).flatMap fun d => bytesOfNat 2 (s.die d).budget

/-- A function record (R245). -/
def funcFields : List Field :=
  [(0, 1, true), (1, 1, true), (2, 2, true), (4, 4, false), (8, 8, true), (0x10, 8, true), (0x18, 8, true), (0x20, 4, true),
   (0x28, 8, false), (0x30, 8, false), (0x38, 8, false)]
/-- The reserved bytes of a function record (R245). -/
def funcReserved : List (Nat × Nat) := [(0x24, 4), (0x40, 64)]
/-- The PF's record uses only troot and total (R245). -/
def pfFields : List Field := [(8, 8, true), (0x28, 8, false)]
/-- The owner code of record i. -/
def recCode (i : Nat) : Byte := if i < 64 then BitVec.ofNat 8 i else pfCode
/-- The bytes of the record of function f; the PF's total is the commons account (R245). -/
def State.funcBytes (s : State) (f : Byte) : List Byte :=
  let r := s.func f
  if f = pfCode then padTo 128 (zeroBytes 8 ++ bytesOfNat 8 r.troot.toNat ++ zeroBytes 24 ++ bytesOfNat 8 (pJ s.commons))
  else
    padTo 128 ([r.state, r.part] ++ bytesOfNat 2 r.window ++ bytesOfNat 4 r.credit ++ bytesOfNat 8 r.troot.toNat
      ++ bytesOfNat 8 r.quota.toNat ++ bytesOfNat 8 r.save.toNat ++ bytesOfNat 4 r.nslots ++ zeroBytes 4 ++ bytesOfNat 8 (pJ r.total)
      ++ bytesOfNat 8 (BitVec.ofInt 64 r.remain).toNat ++ bytesOfNat 8 r.frozen.toNat)

/-- A partition record (R250). -/
def partFields : List Field := [(0, 4, true), (4, 4, true), (8, 1, false), (0x10, 8, false)]
/-- The reserved bytes of a partition record (R250). -/
def partReserved : List (Nat × Nat) := [(9, 7), (0x18, 40)]
/-- The bytes of a partition record. -/
def State.partBytes (s : State) (p : Nat) : List Byte :=
  let x := s.part p
  padTo 64 (bytesOfNat 4 x.slice ++ bytesOfNat 4 x.tsd ++ [x.cur] ++ zeroBytes 7 ++ x.voids.toList)

/-- The ROT port (R251). -/
def rotFields : List Field := [(0, 8, true), (8, 4, true)]
/-- The bytes of the ROT port. -/
def State.rotBytes (s : State) : List Byte := padTo 16 (bytesOfNat 8 s.mg.rotAddr.toNat ++ bytesOfNat 4 s.mg.rotEntry.toNat)

/-- Byte o of the window (R244); an undefined one reads as zero. -/
def State.mgByte (s : State) (o : Nat) : Byte :=
  let nth (l : List Byte) (i : Nat) : Byte := l.getD i 0#8
  if o < 0x30 then nth s.miscBytes o
  else if 0x1000 ≤ o && o < 0x1000 + 65 * 128 then nth (s.funcBytes (recCode ((o - 0x1000) / 128))) ((o - 0x1000) % 128)
  else if 0x4000 ≤ o && o < 0x4100 then
    if o % 32 < 24 then mget s.mg.groups (24 * ((o - 0x4000) / 32) + o % 32) 0xFF#8 else 0#8
  else if 0x4100 ≤ o && o < 0x4200 then mget s.mg.hedge (o - 0x4100) 0xFF#8
  else if 0x4200 ≤ o && o < 0x4A00 then nth (s.partBytes ((o - 0x4200) / 64)) ((o - 0x4200) % 64)
  else if 0x4A00 ≤ o && o < 0x4A10 then nth s.rotBytes (o - 0x4A00)
  else if 0x5000 ≤ o && o < 0x6000 then (s.queue (o - 0x5000)).owner
  else if 0x6000 ≤ o && o < 0x6C00 then nth (bytesOfNat 2 (s.calib ((o - 0x6000) / 2))) (o % 2)
  else if 0x8000 ≤ o && o < 0x10000 then nth (bytesOfNat 8 (mget s.mg.charge ((o - 0x8000) / 8) 0#64).toNat) (o % 8)
  else 0#8

/-- n bytes of the window from o. -/
def State.mgRead (s : State) (o n : Nat) : List Byte := (upto n).map fun i => s.mgByte (o + i)

/-! ### Function-level reset -/

/-- The slots of f's save area become free (R259, step 4); its snapshots are written after that, when its jobs are stopped. -/
def State.freeSlots (s : State) (f : Byte) : State :=
  (upto (min (s.func f).nslots 65536)).foldl (fun (s : State) i =>
    if s.slotState f i == some 0 || s.slotState f i == none then s else s.setSlot f i 0) s

/-- Every job of f faults with cause FLR, and is hard-stopped in the next clk (R259, step 2, R155). One that has faulted already stops for
that. -/
def State.flrStops (s : State) (f : Byte) : State :=
  let mine := (s.cores.filter fun e => e.2.job.any fun j => j.func == f).map fun e => e.1
  mine.foldl (fun (s : State) k =>
    (s.modCore k fun c => { c with fault := if c.fault.isSome then c.fault else some ⟨cFLR, 0#64, 0xFF#8, 0#32, 0#8⟩ }).later
      [.event (.hardStop (Fin.ofNat 1536 k))]) s

/-- The candidates of f are retired without records (R259, step 3): an item that came from a ring is consumed. -/
def State.flrCands (s : State) (f : Byte) : State :=
  (upto 8).foldl (fun (s : State) d =>
    ((s.die d).cands.filter fun c => c.team.func == f).foldl (fun (s : State) c => s.takeCand d c false) s) s

/-- A tick of partition p that f was to come in with chooses again (R260). -/
def State.rechoose (s : State) (p : Nat) (f : Byte) : State :=
  match (s.part p).tick with
  | none => s
  | some t =>
    if t.incoming != f then s
    else match s.incoming p with
      | some g => s.modPart p fun x => { x with tick := some { t with incoming := g } }
      | none => s.modPart p fun x => { x with tick := none }

/-- The reset of function f (R259). Its cores are free 2,048 clk later; ranks of its running items that were saved already have no image
any more. An internal item that runs on no core, since it waits on a fault-queue entry, goes with that entry. -/
def State.flr (s : State) (f : Byte) : State :=
  if (s.func f).state = 3#8 then s
  else
    let s := s.modFunc f fun r => { r with state := 3#8, frozen := BitVec.ofNat 64 s.dtime }
    let s := ((s.flrStops f).planFlr f).flrCands f
    let mine (t : Team) : Bool := t.func == f
    let queues := (s.queues.filter fun q => q.2.owner == f).map fun q => q.1
    let s := { s with
      hampers := s.hampers.filter fun h => !mine h.cand.team
      dies := s.dies.map fun (x : Die) =>
        { x with
          teams := (x.teams.filter fun t => !(mine t && t.plan.isSome && s.settled t)).map fun t => if mine t then { t with saves := [], fine := t.fine + (t.saves.map fun v => v.jpj).foldl (· + ·) 0 } else t
          slots := x.slots.filter fun e => !queues.contains e.2.queue
          pendq := x.pendq.filter fun q => !queues.contains q
          fq := x.fq.filter fun e => e.func != f
          fqWait := x.fqWait.filter fun e => e.func != f } }
    let s := (upto 8).foldl (fun (s : State) d => s.refillFaults d (s.die d).fqWait.length) s
    let s := s.freeSlots f
    let s := { s with cores := s.cores.map fun (e : Nat × Core) => (e.1, { e.2 with scrub := if e.2.last == some f then some (f, s.clk + 2048) else e.2.scrub }) }
    let s := s.rechoose (s.func f).part.toNat f
    s.event pfCode (bytesOfNat 2 8 ++ [f] ++ zeroBytes 5 ++ bytesOfNat 8 (pJ (s.func f).total) ++ bytesOfNat 8 (s.func f).frozen.toNat
      ++ bytesOfNat 8 s.dtime)

/-- Core k is at the end of a scrub (R259). -/
def Core.scrubbed (c : Core) (clk : Nat) : Bool := c.scrub.any fun x => x.2 ≤ clk

/-- R259, step 5: scrubs that have taken their 2,048 clk end; their cores are free. -/
def execFlrScrubComplete (s : State) : Host.Outcome State Fault Refusal :=
  let mine := (s.cores.filter fun e => e.2.scrubbed s.clk).map fun e => e.1
  .next (mine.foldl (fun (s : State) k => (s.scrubCore k).modCore k fun c => { c with scrub := none }) s)

/-! ### Writes -/

/-- Registers of R244's first 0x30 bytes. -/
def State.miscWrite (s : State) (o : Nat) (data : List Byte) : State × Nat :=
  let b := merge s.miscBytes o data
  let hit (f : Field) : Bool := touches o data.length f
  let w := rawNat b 0x10 1
  let t := rawNat b 0x12 2
  let f : Byte := BitVec.ofNat 8 (rawNat b 8 1)
  if !fieldsOk miscFields [] o data || w < 1 || 4 < w || t < 1 || 1000 < t || (hit (8, 1, true) && 64 ≤ f.toNat) then (s, 2)
  else
    let s := { s with
      mg := { s.mg with width := w, tage := t }
      dies := Vector.ofFn fun d => let x := s.die d.val; { x with budget := rawNat b (0x20 + 2 * d.val) 2 } }
    (if hit (8, 1, true) then s.flr f else s, 0)

/-- The partition of a function that is enabled has a current function: f where it had none that is enabled there (log 28). -/
def State.giveCur (s : State) (p f : Byte) : State :=
  let x := s.part p.toNat
  let r := s.func x.cur
  if x.cur != 0xFF#8 && r.part == p && (r.state == 1#8 || r.state == 2#8) then s else s.modPart p.toNat fun x => { x with cur := f }

/-- A write to a function record (R245). -/
def State.funcWrite (s : State) (o : Nat) (data : List Byte) : State × Nat :=
  let f := recCode (o / 128)
  let o := o % 128
  let b := merge (s.funcBytes f) o data
  let hit (x : Nat) (n : Nat) : Bool := touches o data.length (x, n, true)
  let st : Byte := BitVec.ofNat 8 (rawNat b 0 1)
  let part : Byte := BitVec.ofNat 8 (rawNat b 1 1)
  let win := rawNat b 2 2
  let troot : Dword := BitVec.ofNat 64 (rawNat b 8 8)
  let quota : Dword := BitVec.ofNat 64 (rawNat b 0x10 8)
  let save : Dword := BitVec.ofNat 64 (rawNat b 0x18 8)
  let nslots := rawNat b 0x20 4
  let r := s.func f
  if 128 < o + data.length then (s, 2)
  else if f = pfCode then
    if fieldsOk pfFields [] o data then (s.modFunc f fun r => { r with troot := troot }, 0) else (s, 2)
  else if !fieldsOk funcFields funcReserved o data || (hit 0 1 && 1 < st.toNat) || (hit 1 1 && 31 < part.toNat && part != 0xFF#8) ||
      (hit 2 2 && (win < 1 || 1000 < win)) || (hit 0x18 8 && save.toNat % 0x10000 != 0) || (hit 0x20 4 && (nslots < 1 || 65536 < nslots))
  then (s, 2)
  else
    let on := r.state == 1#8 || r.state == 2#8
    let enabling := hit 0 1 && st == 1#8 && !on
    if on && (hit 1 1 || hit 8 8 || hit 0x18 8 || hit 0x20 4) then (s, 1)
    else if enabling && (part == 0xFF#8 || nslots < 2 * s.groupCores part) then (s, 1)
    else
      let s := s.modFunc f fun r => { r with part := part, window := win, troot := troot, quota := quota, save := save, nslots := nslots }
      if enabling then
        ((s.modFunc f fun r =>
            { r with state := 1#8, credit := 0, total := 0, spent := 0, debt := 0, quotaNow := quota.toNat, windowNow := win }).giveCur part f, 0)
      else (s.modFunc f fun r => { r with state := if hit 0 1 && st == 0#8 then 0#8 else r.state }, 0)

/-- A core of group g of die d runs a job, has a saved job or is being scrubbed (R247). -/
def State.groupBusy (s : State) (d g : Nat) : Bool :=
  let mine (k : Nat) : Bool := k / 8 == 24 * d + g
  let saved (t : Team) : Bool := t.saves.any fun v => mine v.core
  (upto 8).any (fun i =>
    let c := s.core (192 * d + 8 * g + i)
    c.job.isSome || c.scrub.isSome) ||
  (upto 8).any (fun e => (s.die e).cands.any (fun c => saved c.team) || (s.die e).teams.any saved) ||
  s.hampers.any fun h => saved h.cand.team

/-- A write to the core-group map (R246, R247). -/
def State.groupWrite (s : State) (o : Nat) (data : List Byte) : State × Nat :=
  let ws := data.zipIdx.map fun (b, i) => ((o + i) / 32, (o + i) % 32, b)
  let old (d g : Nat) : Byte := mget s.mg.groups (24 * d + g) 0xFF#8
  let ch := ws.filter fun (d, g, b) => g < 24 && old d g != b
  if ws.any fun (_, g, b) => 24 ≤ g || (31 < b.toNat && b != 0xFF#8) then (s, 2)
  else if ch.any fun (d, g, _) => old d g != 0xFF#8 && s.groupBusy d g then (s, 1)
  else if ch.any fun (d, g, b) => b != 0xFF#8 && (upto 8).all fun i => s.failed.contains (192 * d + 8 * g + i) then (s, 3)
  else
    (ch.foldl (fun (s : State) (d, g, b) =>
      let s := if old d g != 0xFF#8 then s.planShrunk d (old d g) else s
      { s with mg := { s.mg with groups := if b = 0xFF#8 then mdel s.mg.groups (24 * d + g) else mset s.mg.groups (24 * d + g) b } }) s, 0)

/-- A write to the hedgerow slot table (R248). -/
def State.hedgeWrite (s : State) (o : Nat) (data : List Byte) : State × Nat :=
  let new := data.zipIdx.foldl (fun m (b, i) => if b = 0xFF#8 then mdel m (o + i) else mset m (o + i) b) s.mg.hedge
  if data.any fun b => 31 < b.toNat && b != 0xFF#8 then (s, 2)
  else if 240 < new.length then (s, 1)
  else ({ s with mg := { s.mg with hedge := new } }, 0)

/-- A write to a partition record (R250). -/
def State.partWrite (s : State) (o : Nat) (data : List Byte) : State × Nat :=
  let p := o / 64
  let o := o % 64
  let b := merge (s.partBytes p) o data
  let slice := rawNat b 0 4
  let tsd := rawNat b 4 4
  if 64 < o + data.length || !fieldsOk partFields partReserved o data || slice < 100 || 100000 < slice || tsd < 10 || 10000 < tsd then (s, 2)
  else (s.modPart p fun x => { x with slice := slice, tsd := tsd }, 0)

/-- A ROT entry whose reserved bits and owner codes are clear (R51). -/
def rotOk (e : Word) : Bool :=
  e.extractLsb' 11 21 == 0#21 && !e.getLsbD 7 && ((e.extractLsb' 0 7).toNat < 0x40 || (e.extractLsb' 0 7).toNat == 0x7F)

/-- A write to the ROT port (R251, R54): one that reaches the entry commits it, and every cached translation of the page goes. -/
def State.rotWrite (s : State) (o : Nat) (data : List Byte) : State × Nat :=
  let b := merge s.rotBytes o data
  let pa := rawNat b 0 8
  let e : Word := BitVec.ofNat 32 (rawNat b 8 4)
  if !fieldsOk rotFields [] o data then (s, 2)
  else
    let t := { s with mg := { s.mg with rotAddr := BitVec.ofNat 64 pa, rotEntry := e } }
    if !touches o data.length (8, 4, true) then (t, 0)
    else if pa % 0x10000 != 0 || !s.populated pa 0x10000 || !rotOk e then (s, 2)
    else
      ({ t with
         rot := mset t.rot (pa / 0x10000) e
         cores := t.cores.map fun c => (c.1, { c.2 with tlb := c.2.tlb.filter fun x => !x.maps (pa / 0x10000) }) }, 0)

/-- A write to the queue owners (R244). A queue that is bound keeps its owner (log 29). -/
def State.ownerWrite (s : State) (o : Nat) (data : List Byte) : State × Nat :=
  let ws := data.zipIdx.map fun (b, i) => (o + i, b)
  if data.any fun b => 0x3F < b.toNat && b != 0x7F#8 && b != 0xFF#8 then (s, 2)
  else if ws.any fun (q, b) => (s.queue q).owner != b && ((s.queue q).desc.isSome || (s.queue q).closing) then (s, 1)
  else (ws.foldl (fun (s : State) (q, b) => s.modQueue q fun x => { x with owner := b }) s, 0)

/-- A write to the charge table (R261). -/
def State.chargeWrite (s : State) (o : Nat) (data : List Byte) : State × Nat :=
  (data.zipIdx.foldl (fun (s : State) (b, i) =>
    let k := (o + i) / 8
    let e := bytesOfNat 8 (mget s.mg.charge k 0#64).toNat
    { s with mg := { s.mg with charge := mset s.mg.charge k (BitVec.ofNat 64 (natOfBytes (merge e ((o + i) % 8) [b]))) } }) s, 0)

/-- [o, o + n) lies in [lo, lo + size). -/
def inRegion (o n lo size : Nat) : Bool := lo ≤ o && o + n ≤ lo + size

/-- A write to the window by the PF and its status (R244). -/
def State.mgStore (s : State) (o : Nat) (data : List Byte) : State × Nat :=
  let n := data.length
  if n = 0 then (s, 2)
  else if inRegion o n 0 0x30 then s.miscWrite o data
  else if inRegion o n 0x1000 (65 * 128) then s.funcWrite (o - 0x1000) data
  else if inRegion o n 0x4000 0x100 then s.groupWrite (o - 0x4000) data
  else if inRegion o n 0x4100 0x100 then s.hedgeWrite (o - 0x4100) data
  else if inRegion o n 0x4200 0x800 then s.partWrite (o - 0x4200) data
  else if inRegion o n 0x4A00 16 then s.rotWrite (o - 0x4A00) data
  else if inRegion o n 0x5000 0x1000 then s.ownerWrite (o - 0x5000) data
  else if inRegion o n 0x8000 0x8000 then s.chargeWrite (o - 0x8000) data
  else (s, 2)

/-- An access to the management window through a connection that is not the PF's (R244). -/
def State.mgRefuse (s : State) (conn : Nat) (f : Byte) (value : Nat) : State :=
  (s.refusedEvent pfCode 6 f 0xFFFF value).send (.rma conn false [])

/-- An RMA write to the management window (R244): its effect, the status, then its completion. -/
def State.mgAccess (s : State) (w : WinWrite) : State :=
  match mget? s.conns w.conn with
  | none => s
  | some c =>
    if s.phase != .ready then s.send (.rma w.conn false [])
    else if c.func != pfCode then (s.etherCharge c.func w.data.length).mgRefuse w.conn c.func (rawNat w.data 0 8)
    else
      let s := s.etherCharge c.func w.data.length
      let (s, st) := s.mgStore w.off w.data
      { s with mg := { s.mg with status := BitVec.ofNat 32 st } }.send (.rma w.conn true [])

/-- R244: a write to a field without behaviour of its own. -/
def execMgWrite (w : WinWrite) (s : State) : Host.Outcome State Fault Refusal := .next (s.mgAccess w)
/-- R259. -/
def execFlr (w : WinWrite) (s : State) : Host.Outcome State Fault Refusal := .next (s.mgAccess w)
/-- R245. -/
def execFunctionRecordWrite (w : WinWrite) (s : State) : Host.Outcome State Fault Refusal := .next (s.mgAccess w)
/-- R246, R247. -/
def execCoreGroupMapWrite (w : WinWrite) (s : State) : Host.Outcome State Fault Refusal := .next (s.mgAccess w)
/-- R248. -/
def execSlotTableWrite (w : WinWrite) (s : State) : Host.Outcome State Fault Refusal := .next (s.mgAccess w)
/-- R251. -/
def execRotPortWrite (w : WinWrite) (s : State) : Host.Outcome State Fault Refusal := .next (s.mgAccess w)

end Sys2Proof.Machine
end

