-- ==== Sys2Proof/Machine/Host.lean ====
section
/-! DEFINITION. The host interface: UET connections and RMA (R216), Falig messages (R217, R218, R452, R453), doorbells and the notify
window (R220, R241), event rings (R241), cancel (R233). -/

namespace Sys2Proof.Machine

/-! ### Connections and packets -/

/-- R218, R448, R451: a connection is bound to one function; one that stands during a start has its messages refused. In fallow mode only
Ethernet port 0 is up, it accepts the connections authenticated with the fused provisioning key, and they act as the PF. -/
def execUetConnectionSetup (conn : Nat) (func : Byte) (s : State) : Host.Outcome State Fault Refusal :=
  let bind (f : Byte) : State := { s with conns := mset s.conns conn ⟨f⟩ }
  let named : State := if func.toNat < 64 || func == pfCode then bind func else s
  match s.phase with
  | .ready => .next named
  | .fallow => .next (if Config.port conn = 0 && Config.provisioned conn then bind pfCode else s)
  | .reset => .next named
  | .off => .next s

/-! ### Event rings and doorbells -/

/-- A record of type 0x0005 once space has returned to the ring of f (R241). -/
def State.flushRing (s : State) (f : Byte) : State :=
  match (s.func f).ring with
  | none => s
  | some r =>
    if r.pend = 0 || 2 ^ r.lsize ≤ (r.tail - r.head).toNat then s
    else
      (s.modFunc f fun x => { x with ring := some { r with pend := 0 } }).event f
        (bytesOfNat 2 5 ++ zeroBytes 2 ++ bytesOfNat 4 r.pend ++ zeroBytes 16 ++ bytesOfNat 8 s.dtime)

/-- A queue that its doorbell leaves non-empty is pending at its die unless it is mapped (R222). -/
def State.makePending (s : State) (q : Nat) : State :=
  let h := s.queue q
  let x := s.die h.die
  if !h.nonEmpty || x.pendq.contains q || x.slots.any fun e => e.2.queue == q then s
  else s.modDie h.die fun x => { x with pendq := x.pendq ++ [q] }

/-- A write of 8 bytes to the doorbell of queue q by function f (R220). -/
def State.queueBell (s : State) (f : Byte) (q v : Nat) : State :=
  let h := s.queue q
  if h.owner != f then s.refusedEvent f 1 f q v
  else if h.desc.isNone then s.refusedEvent f 8 f q v
  else if 2 ^ 32 ≤ v then s.refusedEvent f 2 f q v
  else if v = h.tail.toNat then s
  else if 2 ^ h.lsize < (BitVec.ofNat 32 v - h.head).toNat then s.refusedEvent f 3 f q v
  else ((s.modQueue q fun h => { h with tail := BitVec.ofNat 32 v }).writeDesc q).makePending q

/-- A write of 8 bytes to the event-ring doorbell of owner code o by function f (R220, R241). -/
def State.ringBell (s : State) (f : Byte) (o v : Nat) : State :=
  if 0x40 ≤ o && o ≤ 0x7E then s.refusedEvent f 4 f 0xFFFF v
  else if o != f.toNat then s.refusedEvent f 7 f 0xFFFF v
  else if 2 ^ 32 ≤ v then s.refusedEvent f 2 f 0xFFFF v
  else
    (s.modFunc f fun x => { x with ring := x.ring.map fun r => { r with head := BitVec.ofNat 32 v } }).flushRing f

/-- The 8-byte units of a write to the notify window, in ascending offset (R220). -/
def State.bells (s : State) (f : Byte) (o : Nat) (data : List Byte) : Nat → State
  | 0 => s
  | n + 1 =>
    let v := rawNat data 0 8
    let s := if o < 0x8000 then s.queueBell f (o / 8) v
      else if o < 0x8400 then s.ringBell f ((o - 0x8000) / 8) v
      else s.refusedEvent f 4 f 0xFFFF v
    State.bells s f (o + 8) (data.drop 8) n

/-- An RMA write to the notify window (R220): dropped whole unless it is aligned 8-byte units. -/
def State.notify (s : State) (w : WinWrite) : State :=
  match mget? s.conns w.conn with
  | none => s
  | some c =>
    if s.phase != .ready then s.send (.rma w.conn false [])
    else
      let s := s.etherCharge c.func w.data.length
      let n := w.data.length
      let s := if n < 8 || n % 8 != 0 || w.off % 8 != 0 then s.refusedEvent c.func 4 c.func 0xFFFF (rawNat w.data 0 8)
        else s.bells c.func w.off w.data (n / 8)
      s.send (.rma w.conn true [])

/-- R220. -/
def execQueueDoorbell (w : WinWrite) (s : State) : Host.Outcome State Fault Refusal := .next (s.notify w)
/-- R241. -/
def execEventRingDoorbell (w : WinWrite) (s : State) : Host.Outcome State Fault Refusal := .next (s.notify w)

/-! ### RMA -/

/-- Reads the bytes at checked locations, none where a poisoned line is touched (R216). -/
def State.rmaBytes (s : State) (ls : List Nat) : Option (List Byte) :=
  if ls.any fun l => s.poisoned l 1 then none else some (ls.map (Memory.read s.mem))

/-- An RMA access to device memory under the translation of function f (R216, R52), whole or not at all. -/
def State.rmaMemory (s : State) (f : Byte) (a : Rma) : State :=
  if a.write then
    match s.hostWrite f a.addr a.data false with
    | .ok t => t.send (.rma a.conn true [])
    | .error _ => (s.partOwner f a.addr .write a.data.length).send (.rma a.conn false [])
  else
    match s.hostLocs f a.addr .read false a.len with
    | .error _ => (s.partOwner f a.addr .read a.len).send (.rma a.conn false [])
    | .ok ls => match s.rmaBytes ls with
      | none => s.send (.rma a.conn false [])
      | some bs => s.send (.rma a.conn true bs)

/-- R216, R244: a host RMA access of at most 64 KiB; where the part is not ready device memory does not exist (R451). -/
def execUetRmaAccess (a : Rma) (s : State) : Host.Outcome State Fault Refusal :=
  match mget? s.conns a.conn with
  | none => .next s
  | some c =>
    let n := if a.write then a.data.length else a.len
    if s.phase != .ready || 0x10000 < n then .next (s.send (.rma a.conn false []))
    else
      match a.target with
      | .memory => .next ((s.etherCharge c.func n).rmaMemory c.func a)
      | .notify =>
        if a.write then .next (s.notify ⟨a.conn, a.addr.toNat, a.data⟩) else .next (s.send (.rma a.conn false []))
      | .management =>
        if a.write then .next (s.mgAccess ⟨a.conn, a.addr.toNat, a.data⟩)
        else if c.func != pfCode then .next ((s.etherCharge c.func 0).mgRefuse a.conn c.func 0)
        else .next ((s.etherCharge c.func n).send (.rma a.conn true (s.mgRead a.addr.toNat n)))

/-! ### Falig messages -/

/-- The header breaks R217. -/
def badHeader (m : Falig) : Bool :=
  m.version != 1#8 || m.len.toNat != m.body.length || m.len.toNat % 8 != 0 || 4032 < m.len.toNat || m.rsvd != 0#24

/-- The units of a body (R218): each 8 bytes, its value in the low `w` bytes; none where it is short or a high byte is set. -/
def unitsOf (body : List Byte) : List Nat → Option (List Nat)
  | [] => some []
  | w :: t =>
    if body.length < 8 || 256 ^ w ≤ rawNat body 0 8 then none
    else (unitsOf (body.drop 8) t).map fun l => rawNat body 0 8 :: l

/-- A response to a message of a type over a connection of function f (R217, R218): the header, whose type has bit 7 set and whose func is
the connection's function (log 96), then status, 4 bytes, result. -/
def faligBytes (type : Nat) (f : Byte) (corr : Dword) (status : Nat) (four rest : List Byte) : List Byte :=
  let body := bytesOfNat 4 status ++ four ++ rest
  [1#8, BitVec.ofNat 8 type ||| 0x80#8] ++ bytesOfNat 2 body.length ++ [f, 0#8, 0#8, 0#8] ++ bytesOfNat 8 corr.toNat ++ body

/-- Answer a message (R217, R218). -/
def State.replyWith (s : State) (m : Falig) (type : Nat) (f : Byte) (status : Nat) (four rest : List Byte) : State :=
  let msg := faligBytes type f m.corr status four rest
  (s.etherCharge f msg.length).send (.falig m.conn msg)

/-- A response with a status only. -/
def State.reply (s : State) (m : Falig) (type : Nat) (f : Byte) (status : Nat) : State := s.replyWith m type f status (zeroBytes 4) []

/-- In which modes a message is served (R218, R452). -/
inductive Served where
  | normal | both | fallow
  deriving DecidableEq, Repr

/-- A Falig message of a type (R217, R218, R448, R451, R452): during a start refused; its header, the mode, its function, its units checked;
then its effect, given the function and the units, which answers. That a message with both a bad header and a wrong function is malformed
is the model's choice (DESIGN CHOICE, log 105). -/
def State.falig (s : State) (m : Falig) (type : Nat) (served : Served) (pf : Bool) (ws : List Nat)
    (act : State → Byte → List Nat → State) : State :=
  match mget? s.conns m.conn with
  | none => s
  | some c =>
    let f := c.func
    let s := s.etherCharge f (16 + m.body.length)
    let up : Bool := match s.phase with
      | .ready => served != Served.fallow
      | .fallow => served != Served.normal
      | .reset => false
      | .off => false
    if s.phase = .off then s
    else if s.phase = .reset then s.reply m type f 1
    else if badHeader m then s.reply m type f 3
    else if !up || m.func != f || (pf && f != pfCode) then s.reply m type f 1
    else match unitsOf m.body ws with
      | none => s.reply m type f 3
      | some us => act s f us

/-- R218: every type outside the tables is answered with malformed; in fallow mode port 0 refuses what R452 does not allow. -/
def State.otherType (s : State) (type : Byte) (m : Falig) : State :=
  match mget? s.conns m.conn with
  | none => s
  | some c =>
    let s := s.etherCharge c.func (16 + m.body.length)
    match s.phase with
    | .off => s
    | .reset => s.reply m type.toNat c.func 1
    | .fallow => s.reply m type.toNat c.func (if badHeader m then 3 else 1)
    | .ready => s.reply m type.toNat c.func 3

/-- Unit i of a body. -/
def unit (us : List Nat) (i : Nat) : Nat := us.getD i 0

/-- R218, R31: the PF sets the module number. -/
def execModuleSet (m : Falig) (s : State) : Host.Outcome State Fault Refusal :=
  .next (s.falig m 1 .normal true [2] fun s f us => { s with module := BitVec.ofNat 16 (unit us 0) }.reply m 1 f 0)

/-- R219: the descriptor is read and the queue bound, with no doorbell accepted (R220): its tail is its head. A queue that is bound already, or
still closes, is bound anew: what has not been dispatched from its old ring is no candidate any more, and it has no slot (DESIGN CHOICE, log
31). -/
def State.createQueue (s : State) (f : Byte) (q : Nat) (a : Dword) : State × Nat :=
  let h := s.queue q
  if 4096 ≤ q || h.owner != f then (s, 1)
  else match s.hostRead f a 64 with
    | .error _ => (s.partOwner f a .read 64, 1)
    | .ok b => match (if a.toNat % 64 = 0 then parseDesc b else none) with
      | none => (s, 3)
      | some (ring, lsize, die, pmax, head) =>
        let old (c : Cand) : Bool := c.kind == .queue && c.team.queue.toNat == q
        let s := { s with
          hampers := s.hampers.filter fun h => !old h.cand
          dies := s.dies.map fun (x : Die) =>
            { x with
              cands := x.cands.filter fun c => !old c
              slots := x.slots.filter fun e => e.2.queue != q
              pendq := x.pendq.filter fun p => p != q } }
        (s.modQueue q fun h =>
          { h with
            desc := some a, ring := ring, lsize := lsize, die := die, pmax := pmax, head := head, tail := head, cancelled := []
            closing := false }, 0)

/-- R218, R219. -/
def execQueueCreate (m : Falig) (s : State) : Host.Outcome State Fault Refusal :=
  .next (s.falig m 2 .normal false [2, 8] fun s f us =>
    let r := s.createQueue f (unit us 0) (BitVec.ofNat 64 (unit us 1))
    r.1.reply m 2 f r.2)

/-- R218: what has not been dispatched, here, as a candidate on another die or in a hamper, is discarded without records; the queue is
unmapped once what it has dispatched is done. A queue of the function's without a descriptor is not found (DESIGN CHOICE, log 105). -/
def State.destroyQueue (s : State) (f : Byte) (q : Nat) : State × Nat :=
  let h := s.queue q
  if 4096 ≤ q || h.owner != f then (s, 1)
  else if h.desc.isNone then (s, 2)
  else
    let gone (c : Cand) : Bool := (c.kind == .queue || c.kind == .hamper) && c.team.queue.toNat == q
    let s := { s with
      hampers := s.hampers.filter fun h => !gone h.cand
      dies := s.dies.map fun (x : Die) => { x with cands := x.cands.filter fun c => !gone c, pendq := x.pendq.filter fun p => p != q } }
    ((s.modQueue q fun h => { h with desc := none, tail := h.head, cancelled := [], closing := true }).closeQueue q, 0)

/-- R218. -/
def execQueueDestroy (m : Falig) (s : State) : Host.Outcome State Fault Refusal :=
  .next (s.falig m 3 .normal false [2] fun s f us =>
    let r := s.destroyQueue f (unit us 0)
    r.1.reply m 3 f r.2)

/-- The ring indices of queue q, from its head (past a candidate there) to its tail, of items with a work id (R233). -/
def State.ringItems (s : State) (q wid : Nat) : List Nat :=
  let h := s.queue q
  let busy := (upto 8).any fun d => (s.die d).cands.any fun c => c.kind == .queue && c.team.queue.toNat == q
  let first : Nat := busy.toNat
  (((upto (h.tail - h.head).toNat).drop first).map fun i => (h.head + BitVec.ofNat 32 i).toNat).filter fun i =>
    match s.hostRead h.owner (h.ring + BitVec.ofNat 64 (64 * (i % 2 ^ h.lsize) + 0x38)) 4 with
    | .ok b => natOfBytes b == wid
    | .error _ => false

/-- R233, R234: candidates are retired, hampers on their way marked, running teams pre-empted to complete CANCELLED, ring items noted. A team
of which no rank is saved and whose last jobs complete in this clk has completed. -/
def State.cancelItems (s : State) (q wid : Nat) : State × Bool :=
  let mine (t : Team) : Bool := t.queue.toNat == q && t.plan.isNone && t.item.wid.toNat == wid
  let here (d : Nat) : List Cand := (s.die d).cands.filter fun c => mine c.team && !c.away
  let gone := s.hampers.filter fun h => mine h.cand.team && h.answer != some true
  let done (t : Team) : Bool := t.saves.isEmpty && t.cores.all fun k => !s.runs t.id k || (s.core k).jobOver
  let run (d : Nat) : List Team := (s.die d).teams.filter fun t => mine t && t.faults.isEmpty && !done t
  let found1 := (upto 8).any fun d => !(here d).isEmpty || !(run d).isEmpty
  let s1 := (upto 8).foldl (fun (t : State) d => (here d).foldl (fun (t : State) c => t.retire d c 5) t) s
  let s2 := gone.foldl (fun (t : State) h =>
    if h.answer = some false then { t with hampers := t.hampers.filter fun x => x.id != h.id }.retire h.src h.cand 5
    else { t with hampers := t.hampers.map fun x => if x.id = h.id then { x with cancelled := true } else x }) s1
  let s3 := (upto 8).foldl (fun (t : State) d =>
    (run d).foldl (fun (t : State) r => (t.modTeam d r.id fun r => { r with stop := some 5#16 }).preemptTeam r 3#8) t) s2
  let ring := s3.ringItems q wid
  (s3.modQueue q fun h => { h with cancelled := h.cancelled ++ ring.filter fun i => !h.cancelled.contains i },
   found1 || !gone.isEmpty || !ring.isEmpty)

/-- A scan of a slice, which starts items. -/
def Act.isScan : Act → Bool
  | .event (.dispatchScan _) => true
  | _ => false

/-- A CANCEL takes effect (R218, R233). -/
def State.cancel (m : Falig) (s : State) : State :=
  s.falig m 4 .normal false [2, 4] fun s f us =>
    let q := unit us 0
    if 4096 ≤ q || (s.queue q).owner != f then s.reply m 4 f 1
    else
      let r := s.cancelItems q (unit us 1)
      r.1.reply m 4 f (if r.2 then 0 else 2)

/-- R218, R233. A CANCEL that arrives in a clk takes effect after what completes in it and before its scans (R234). -/
def execCancel (m : Falig) (s : State) : Host.Outcome State Fault Refusal :=
  .next (if s.round.all Act.isScan then s.cancel m
    else { s with round := s.round.takeWhile (fun a => !a.isScan) ++ .cancelLate m :: s.round.dropWhile fun a => !a.isScan })

/-- R149, R150, R181, R218: the answer to an entry of the fault queue that its id names. -/
def execFaultAnswer (m : Falig) (s : State) : Host.Outcome State Fault Refusal :=
  .next (s.falig m 5 .normal false [4, 1] fun s f us =>
    let d := unit us 0 % 8
    if 1 < unit us 1 then s.reply m 5 f 3
    else match (s.die d).fq.find? fun e => e.id.toNat == unit us 0 with
      | none => s.reply m 5 f 2
      | some e => if e.func != f then s.reply m 5 f 1 else (s.answer d e (unit us 1 == 0)).reply m 5 f 0)

/-- R54, R218: the translations of a range, or all of the function's, are dropped at every core. -/
def execTlbInval (m : Falig) (s : State) : Host.Outcome State Fault Refusal :=
  .next (s.falig m 6 .normal false [8, 8] fun s f us =>
    let a := unit us 0
    let n := unit us 1
    if n = 0 && a != 0 then s.reply m 6 f 3
    else (s.tlbDrop f fun x => n = 0 || overlaps (0x10000 * x.leaf) (0x10000 * x.pages) a n).reply m 6 f 0)

/-- R200, R218. -/
def execNetctxSet (m : Falig) (s : State) : Host.Outcome State Fault Refusal :=
  .next (s.falig m 7 .normal false [1, 2, 1, 8] fun s f us =>
    let x : NetCtx := ⟨BitVec.ofNat 16 (unit us 1), BitVec.ofNat 8 (unit us 2), BitVec.ofNat 64 (unit us 3)⟩
    (s.modFunc f fun r => { r with ctxs := mset r.ctxs (unit us 0) x }).reply m 7 f 0)

/-- R218, R241: the function's ring, empty; records dropped before it are told there. That an address off 64 bytes and a size outside 6 to 16
are malformed is the model's choice (DESIGN CHOICE, log 105). -/
def execEvringSet (m : Falig) (s : State) : Host.Outcome State Fault Refusal :=
  .next (s.falig m 8 .normal false [8, 1] fun s f us =>
    let a : Dword := BitVec.ofNat 64 (unit us 0)
    let k := unit us 1
    if a.toNat % 64 != 0 || k < 6 || 16 < k then s.reply m 8 f 3
    else
      let pend := ((s.func f).ring.map fun r => r.pend).getD 0
      (((s.modFunc f fun r => { r with ring := some { base := a, lsize := k, pend := pend } }).flushRing f)).reply m 8 f 0)

/-! ### Attestation and the flash image -/

/-- The body of an attestation report (R453). -/
def State.reportBody (s : State) (nonce : List Byte) : List Byte :=
  bytesOfNat 4 1 ++ [if s.phase = .fallow then 1#8 else 0#8] ++ zeroBytes 3 ++ nonce.take 32
    ++ bytesOfNat 48 (Config.sha384 (imageSigned s.flash)).toNat ++ bytesOfNat 4 (imageSvn s.flash) ++ bytesOfNat 4 s.fuse.toNat
    ++ bytesOfNat 16 Config.deviceId.toNat ++ (s.boot.bytes.drop 4).take 8 ++ bytesOfNat 8 s.failed.length

/-- The report with both signatures (R453). -/
def State.report (s : State) (nonce : List Byte) : List Byte :=
  let b := s.reportBody nonce
  b ++ bytesOfNat rsaBytes (Config.rsaSign b).toNat ++ bytesOfNat slhBytes (Config.slhSign b).toNat

/-- R453: the report in five responses of ascending offset. -/
def execAttest (m : Falig) (s : State) : Host.Outcome State Fault Refusal :=
  .next (s.falig m 9 .both false [8, 8, 8, 8] fun s f _ =>
    let r := s.report m.body
    [0, 4000, 8000, 12000, 16000].foldl (fun (s : State) o => s.replyWith m 9 f 0 (bytesOfNat 4 o) ((r.drop o).take 4000)) s)

/-- R449, R452. -/
def execBootRecord (m : Falig) (s : State) : Host.Outcome State Fault Refusal :=
  .next (s.falig m 0xA .both false [] fun s f _ => s.replyWith m 0xA f 0 (zeroBytes 4) s.boot.bytes)

/-- R452, R456: bytes into the flash image; past its end it is malformed. What flash holds between is zero. Refused while an IMAGE_COMMIT
verifies. -/
def execImageLoad (m : Falig) (s : State) : Host.Outcome State Fault Refusal :=
  .next (s.falig m 0xB .fallow false [8] fun s f us =>
    let o := unit us 0
    let data := m.body.drop 8
    if s.verify.isSome then s.reply m 0xB f 1
    else if 4016 < data.length || Config.imageArea < o + data.length then s.reply m 0xB f 3
    else { s with flash := merge (padTo o s.flash) o data }.reply m 0xB f 0)

/-- R452, R456: the verification of the flash image begins; it is done in the next clk (DESIGN CHOICE, log 108). A second commit meanwhile is
refused. -/
def execImageCommit (m : Falig) (s : State) : Host.Outcome State Fault Refusal :=
  .next (s.falig m 0xC .fallow false [] fun s f _ =>
    if s.verify.isSome then s.reply m 0xC f 1 else { s with verify := some m }.later [.verified])

/-- The verification of an IMAGE_COMMIT is done (R450, R452): on success the count is cleared in a sector whose magic is right, the sector's
svn is that of the image just verified (R449), and the part resets, else the failure stays in the sector. -/
def State.verified (s : State) : State :=
  match s.verify with
  | none => s
  | some m =>
    let s := { s with verify := none }
    let answer (s : State) (st : Nat) : State := ((mget? s.conns m.conn).map fun c => s.reply m 0xC c.func st).getD s
    match verifyImage s.flash s.fuse with
    | .error (r, fl) => answer { s with boot := { s.boot with reason := r, flags := fl } } 1
    | .ok v => (answer { s with boot := { s.boot with magic := 0x42535354#32, count := 0#8, svn := v } } 0).reborn .reset

end Sys2Proof.Machine
end

