-- ==== Sys2Proof/Machine/Clock.lean ====
section
/-! DEFINITION. The passing of a clk (R4): the acts of a clk, which are everything that may happen in it, each tried once in a fixed order
(log 4), and what an act comes to. An act whose moment has not come leaves the state as it is. -/

namespace Sys2Proof.Machine

/-- A core's number as an index. -/
def coreIx (k : Nat) : CoreIx := Fin.ofNat 1536 k
/-- A die's number as an index. -/
def dieIx (d : Nat) : DieIx := Fin.ofNat 8 d

/-- Acts of a command in flight: its accesses, its completion (R159). -/
def cmdActs (k : CoreIx) (c : Cmd) : List Act :=
  (if c.st = .issued then [.perform k c.id] else []) ++ [.event (.commandComplete k c.id)]

/-- The acts of a clk of core k that runs a job: meetings, whose id is free again in that clk (R24), issue (R14), the nest, commands, ports that fetch ahead (R350),
completions, tag waits of transfer streams (R209), ends, saves. -/
def coreActs (clk k : Nat) (c : Core) : List Act :=
  let k := coreIx k
  let when_ (b : Bool) (i : Instr) : List Act := if b then [.event i] else []
  if c.job.isNone then []
  else
    ([0#2, 1#2, 2#2, 3#2].filter fun i =>
        let r := vget c.rdv i.toNat {}
        r.mask != 0#8 && r.mask == r.arrived).map (fun i => Act.event (.rendezvousLeave k i))
    ++ streamActs k c ++ (if c.mx.go then [.nest k] else []) ++ (if c.x.queue.isEmpty then [] else [.startCmd k])
    ++ c.x.cmds.flatMap (cmdActs k)
    ++ ((upto 4).filter fun p => (vget c.vx.ports p none).isSome).map (fun p => Act.event (.portFetch k (BitVec.ofNat 3 p)))
    ++ when_ ((oldest c.m.outst).isSome || (oldest c.mx.outst).isSome) (.wordComplete k .m)
    ++ when_ (oldest c.v.outst).isSome (.wordComplete k .v)
    ++ when_ (c.mx.go && c.mx.phase == .done) (.nestComplete k)
    ++ tagWaitActs k c
    ++ when_ (c.done == c.expect) (.jobComplete k)
    ++ when_ (clk % 64 == 0) (.noProgress k)
    ++ when_ c.preempt.isSome (.saveComplete k)

/-- The act of a write on its way (R62, R66). -/
def writeAct (w : Write) : Act :=
  if w.home = w.src then .event (.writeApplied w.id)
  else if w.held then .event (.heldWriteApply w.id)
  else .event (.writeArrivalHome w.id)

/-- The act of an update on its way or to be sent again (R170, R174). -/
def updateActs (u : Update) : List Act :=
  match u.st with
  | .flying => if u.det.isSome then [.event (.detUpdateArrival u.id)] else [.event (.acwUpdateArrival u.id)]
  | .retry _ => [.event (.detRetryResend u.id)]
  | .held => []
  | .answered _ => []

/-- The place of a writer in the order in which a bank of core k, which has served core `last` last, serves the requests of a clk (R60):
XS, XL and the command queue, M, V, the sequencer; then the other cores in ascending order from the one after `last`, around. -/
def serveRank (k last : Nat) (w : Writer) : Nat :=
  if w.core = k then
    match w.stream with
    | 7 => 0
    | 4 => 1
    | 8 => 2
    | 5 => 3
    | 6 => 4
    | _ => 5
  else 6 + (w.core + 1535 - last) % 1536

/-- What is on its way to a home: a write, row, update or marker by its number, its issuer, where it lies, whether it still has to cross the
hedgerow as traffic of a core (R248), and its act. -/
structure Request where
  id : Nat
  by_ : Writer
  loc : Nat
  flit : Bool
  act : Act

/-- Everything that is on its way, in the order in which it was sent. Close markers are no traffic of a core (R248). -/
def State.requests (s : State) : List Request :=
  byKey Request.id <|
    s.writes.map (fun w => ⟨w.id, w.by_, w.loc, w.home != w.src && !w.held && w.by_.core < 1536, writeAct w⟩)
    ++ s.updates.flatMap (fun u =>
        (updateActs u).map fun a => ⟨u.id, u.ref.src.writer u.core, u.loc, u.home != coreDie u.core && u.st == .flying, a⟩)
    ++ s.combines.map (fun m =>
        ⟨m.id, m.ref.src.writer m.core, m.loc, homeDie m.loc != coreDie m.core, .event (.cmbApply m.id)⟩)
    ++ s.roundMarks.map (fun m =>
        ⟨m.id, ⟨issuerCore m.issuer, 4⟩, 0, m.msu / 256 != coreDie (issuerCore m.issuer), .event (.roundCloseMarkerArrival m.id)⟩)
    ++ s.markers.map fun m => ⟨m.id, ⟨1536, 0⟩, 0, false, .event (.closeMarkerArrival m.id)⟩

/-- A request waits at the hedgerow for a slot that is reserved to the partition of its issuing core (R248). -/
def State.reservedFlit (s : State) (r : Request) : Bool :=
  let p := mget s.mg.hedge (s.clk % 256) 0xFF#8
  p != 0xFF#8 && r.flit && s.corePart r.by_.core == p

/-- Requests of a clk in the order in which they are served: those to scratchpad banks by bank and R60; then all the others, those of the
partition that owns the hedgerow slot of the clk first (R248), else in the order in which they were sent (log 6). When an operand of M or V, or
a window's read, reaches its bank within the clk is timing (log 4). -/
def State.serveOrder (s : State) : List Request :=
  let last (r : Request) := (mget? s.served (bankOf r.loc)).getD 1535
  let bank (r : Request) : Bool := isScratch r.loc
  let rs := s.requests
  byKey (fun r => 10000 * bankOf r.loc + serveRank (scratchCore r.loc) (last r) r.by_) (rs.filter bank)
    ++ rs.filter (fun r => !bank r && s.reservedFlit r) ++ rs.filter fun r => !bank r && !s.reservedFlit r

/-- The acts of memory. -/
def State.memActs (s : State) : List Act :=
  s.serveOrder.map Request.act ++ (upto s.groups.length).map fun i => Act.event (.roundComplete i)

/-- The acts of die d: plan answers and samples, queue slots and items, deadlines (R222, R226, R232), internal items whose last writes have
reached their homes (R447). -/
def State.dieActs (s : State) (d : Nat) : List Act :=
  let x := s.die d
  let i := dieIx d
  let when_ (b : Bool) (e : Instr) : List Act := if b then [.event e] else []
  when_ (!x.plan.answers.isEmpty) (.planResponse i) ++ when_ (!x.plan.samples.isEmpty) (.samplerSample i)
    ++ (x.teams.filter fun t => t.item.hd && t.item.deadline.toNat < s.dtime).map (fun t => Act.event (.hardDeadline i t.id))
    ++ x.slots.map (fun e => Act.event (.queueSlotIdle i e.1))
    ++ when_ (!x.pendq.isEmpty) (.queueMapped i)
    ++ x.slots.map (fun e => Act.event (.itemRead i e.1))
    ++ (x.teams.filter fun t => !t.trail.isEmpty && s.settled t && !s.trailing t).map fun t => Act.event (.workItemComplete i t.id)

/-- The acts that the part's clock brings (R235, R252, R255, R259, R263, R264, R455), quotas and ticks before the scan that they may forbid
(R234, R260). -/
def State.clockActs (s : State) : List Act :=
  let when_ (b : Bool) (e : Instr) : List Act := if b then [.event e] else []
  let quota (f : Byte) : Bool := s.reached (1000000 * (s.func f).windowNow)
  when_ (s.parts.any fun p => p.2.tick.isSome || p.2.owed || s.reached (1000 * p.2.slice)) .gangTick
    ++ when_ (s.parts.any fun p => p.2.tick.isSome) .gangSaveDeadline
    ++ when_ (s.parts.any fun p => p.2.tick.isSome) .gangVoidDeadline
    ++ when_ (s.parts.any fun p => !p.2.late.isEmpty) .lateSaveRestore
    ++ when_ (vfCodes.any quota) .quotaWindowStart
    ++ when_ (s.clk % 1024 == 0) .quotaCheck
    ++ (if s.reached 1000000 then (upto 8).map fun d => Act.heat (dieIx d) else [])
    ++ when_ (s.reached 1000000) .sharedChargeTick
    ++ when_ (s.cores.any fun e => e.2.scrubbed s.clk) .flrScrubComplete
    ++ ((upto 8).filter fun d => (s.die d).overload.any fun o => o.2 + 4096 ≤ s.clk).map (fun d => Act.overload (dieIx d))
    ++ when_ (s.clk % 256 == 0) .freeSlotBroadcast

/-- The acts of a clk. -/
def State.clkActs (s : State) : List Act :=
  s.clockActs
    ++ s.hampers.map (fun h => Act.event (if h.answer.isSome then .hamperAnswer h.id else .hamperArrival h.id))
    ++ s.memActs ++ s.cores.flatMap (fun e => coreActs s.clk e.1 e.2) ++ (upto 8).flatMap s.dieActs
    ++ (if s.clk % 64 = 0 then (upto 8).map fun d => Act.event (.dispatchScan (dieIx d)) else [])

/-- A clk passes: its start on every core, then its acts. -/
def State.tick (s : State) : State :=
  let s := { s with
    clk := s.clk + 1, dtPrev := s.dtime, dtBase := s.dtBase + s.dtAhead, dtAhead := 0
    cores := s.cores.map fun (e : Nat × Core) => (e.1, e.2.newClk (s.clk + 1)) }
  match s.phase with
  | .ready => { s with round := s.clkActs }
  | .fallow => s
  | .reset => s
  | .off => s

/-- What an act comes to in a state. -/
def State.fetch (s : State) (a : Act) : Fetched :=
  match a with
  | .issue k st => s.fetchStream k st
  | .nest k => s.fetchNest k
  | .startCmd k => s.fetchQueue k
  | .perform k id => .done (s.perform k.val id)
  | .event i => .run i s
  | .otherMessage t m => .done (s.otherType t m)
  | .timeSync ns => .done { s with dtAhead := s.dtAhead + ns }
  | .overload d => .done (s.overloadDie d.val)
  | .heat d => .done (s.thermal d.val (vget s.env.tj d.val 25))
  | .verified => .done s.verified
  | .cancelLate m => .done (s.cancel m)
  | .tick => .done s.tick

end Sys2Proof.Machine
end

