-- ==== Sys2Proof/Machine/Dispatch.lean ====
section
/-! DEFINITION. The dispatch of an instruction to its meaning: one arm per constructor of Instr, one meaning per arm. -/

namespace Sys2Proof.Machine

/-- What an instruction or event does in a state. -/
def exec (i : Instr) (s : State) : Host.Outcome State Fault Refusal :=
  match i with
  | .add d a b => Sys2Proof.Machine.execAdd d a b s
  | .sub d a b => Sys2Proof.Machine.execSub d a b s
  | .mul d a b => Sys2Proof.Machine.execMul d a b s
  | .mulh d a b => Sys2Proof.Machine.execMulh d a b s
  | .mulhu d a b => Sys2Proof.Machine.execMulhu d a b s
  | .and d a b => Sys2Proof.Machine.execAnd d a b s
  | .or d a b => Sys2Proof.Machine.execOr d a b s
  | .xor d a b => Sys2Proof.Machine.execXor d a b s
  | .andn d a b => Sys2Proof.Machine.execAndn d a b s
  | .sll d a b => Sys2Proof.Machine.execSll d a b s
  | .srl d a b => Sys2Proof.Machine.execSrl d a b s
  | .sra d a b => Sys2Proof.Machine.execSra d a b s
  | .ror d a b => Sys2Proof.Machine.execRor d a b s
  | .min d a b => Sys2Proof.Machine.execMin d a b s
  | .max d a b => Sys2Proof.Machine.execMax d a b s
  | .minu d a b => Sys2Proof.Machine.execMinu d a b s
  | .maxu d a b => Sys2Proof.Machine.execMaxu d a b s
  | .lea1 d a b => Sys2Proof.Machine.execLea1 d a b s
  | .lea2 d a b => Sys2Proof.Machine.execLea2 d a b s
  | .lea3 d a b => Sys2Proof.Machine.execLea3 d a b s
  | .addi d a ix => Sys2Proof.Machine.execAddi d a ix s
  | .andi d a ix => Sys2Proof.Machine.execAndi d a ix s
  | .ori d a ix => Sys2Proof.Machine.execOri d a ix s
  | .xori d a ix => Sys2Proof.Machine.execXori d a ix s
  | .slli d a sx => Sys2Proof.Machine.execSlli d a sx s
  | .srli d a sx => Sys2Proof.Machine.execSrli d a sx s
  | .srai d a sx => Sys2Proof.Machine.execSrai d a sx s
  | .rori d a sx => Sys2Proof.Machine.execRori d a sx s
  | .movi d ix => Sys2Proof.Machine.execMovi d ix s
  | .movk d h ix => Sys2Proof.Machine.execMovk d h ix s
  | .popc d a => Sys2Proof.Machine.execPopc d a s
  | .clz d a => Sys2Proof.Machine.execClz d a s
  | .ctz d a => Sys2Proof.Machine.execCtz d a s
  | .brev d a => Sys2Proof.Machine.execBrev d a s
  | .bswap d a => Sys2Proof.Machine.execBswap d a s
  | .bfx d a w l => Sys2Proof.Machine.execBfx d a w l s
  | .bfxs d a w l => Sys2Proof.Machine.execBfxs d a w l s
  | .bfi d a w l => Sys2Proof.Machine.execBfi d a w l s
  | .cmp p a b c => Sys2Proof.Machine.execCmp p a b c s
  | .cmpi p a c ix => Sys2Proof.Machine.execCmpi p a c ix s
  | .sel d a b sx => Sys2Proof.Machine.execSel d a b sx s
  | .pand d a b => Sys2Proof.Machine.execPand d a b s
  | .por d a b => Sys2Proof.Machine.execPor d a b s
  | .pxor d a b => Sys2Proof.Machine.execPxor d a b s
  | .pandn d a b => Sys2Proof.Machine.execPandn d a b s
  | .prd d => Sys2Proof.Machine.execPrd d s
  | .pwr a => Sys2Proof.Machine.execPwr a s
  | .ldBz d a o => Sys2Proof.Machine.execLdBz d a o s
  | .ldBs d a o => Sys2Proof.Machine.execLdBs d a o s
  | .ldHz d a o => Sys2Proof.Machine.execLdHz d a o s
  | .ldHs d a o => Sys2Proof.Machine.execLdHs d a o s
  | .ldWz d a o => Sys2Proof.Machine.execLdWz d a o s
  | .ldWs d a o => Sys2Proof.Machine.execLdWs d a o s
  | .ldDz d a o => Sys2Proof.Machine.execLdDz d a o s
  | .stB sx a o => Sys2Proof.Machine.execStB sx a o s
  | .stH sx a o => Sys2Proof.Machine.execStH sx a o s
  | .stW sx a o => Sys2Proof.Machine.execStW sx a o s
  | .stD sx a o => Sys2Proof.Machine.execStD sx a o s
  | .spillm f b l => Sys2Proof.Machine.execSpillm f b l s
  | .fillm f b l => Sys2Proof.Machine.execFillm f b l s
  | .br p n o => Sys2Proof.Machine.execBr p n o s
  | .call p n o => Sys2Proof.Machine.execCall p n o s
  | .jmp a => Sys2Proof.Machine.execJmp a s
  | .jmpl d a => Sys2Proof.Machine.execJmpl d a s
  | .ret a => Sys2Proof.Machine.execRet a s
  | .jstart p a b q => Sys2Proof.Machine.execJstart p a b q s
  | .rdv ix m => Sys2Proof.Machine.execRdv ix m s
  | .twany d a c => Sys2Proof.Machine.execTwany d a c s
  | .twall d a c => Sys2Proof.Machine.execTwall d a c s
  | .tffr d a => Sys2Proof.Machine.execTffr d a s
  | .fence sx => Sys2Proof.Machine.execFence sx s
  | .xcp a b => Sys2Proof.Machine.execXcp a b s
  | .mrd d sx => Sys2Proof.Machine.execMrd d sx s
  | .srd d r => Sys2Proof.Machine.execSrd d r s
  | .swr a r => Sys2Proof.Machine.execSwr a r s
  | .seedWrite a => Sys2Proof.Machine.execSeedWrite a s
  | .tagsClear a => Sys2Proof.Machine.execTagsClear a s
  | .flagsClear a f => Sys2Proof.Machine.execFlagsClear a f s
  | .bfmtWrite a b => Sys2Proof.Machine.execBfmtWrite a b s
  | .trap c => Sys2Proof.Machine.execTrap c s
  | .qcat d a b => Sys2Proof.Machine.execQcat d a b s
  | .qstr d a b => Sys2Proof.Machine.execQstr d a b s
  | .qstw d a b r => Sys2Proof.Machine.execQstw d a b r s
  | .qpin d b => Sys2Proof.Machine.execQpin d b s
  | .qunpin d b => Sys2Proof.Machine.execQunpin d b s
  | .qevict d b => Sys2Proof.Machine.execQevict d b s
  | .qsub d a b => Sys2Proof.Machine.execQsub d a b s
  | .qrun d a => Sys2Proof.Machine.execQrun d a s
  | .qwait d a => Sys2Proof.Machine.execQwait d a s
  | .qexpl d a b => Sys2Proof.Machine.execQexpl d a b s
  | .qhint d a b => Sys2Proof.Machine.execQhint d a b s
  | .qinv d a c => Sys2Proof.Machine.execQinv d a c s
  | .qdrop d a => Sys2Proof.Machine.execQdrop d a s
  | .qtld d a => Sys2Proof.Machine.execQtld d a s
  | .qtdrop d b => Sys2Proof.Machine.execQtdrop d b s
  | .xtok t => Sys2Proof.Machine.execXtok t s
  | .xcpy x m => Sys2Proof.Machine.execXcpy x m s
  | .xgat x m => Sys2Proof.Machine.execXgat x m s
  | .xsct x m => Sys2Proof.Machine.execXsct x m s
  | .xfil x m => Sys2Proof.Machine.execXfil x m s
  | .xmcs x m => Sys2Proof.Machine.execXmcs x m s
  | .xpf x => Sys2Proof.Machine.execXpf x s
  | .xwb x => Sys2Proof.Machine.execXwb x s
  | .xput x => Sys2Proof.Machine.execXput x s
  | .xget x => Sys2Proof.Machine.execXget x s
  | .selk x k => Sys2Proof.Machine.execSelk x k s
  | .xcfg x => Sys2Proof.Machine.execXcfg x s
  | .acwAdd32 x ret det => Sys2Proof.Machine.execAcwAdd32 x ret det s
  | .acwAdd64 x ret det => Sys2Proof.Machine.execAcwAdd64 x ret det s
  | .acwAddf x ret det => Sys2Proof.Machine.execAcwAddf x ret det s
  | .acwMax32 x ret det => Sys2Proof.Machine.execAcwMax32 x ret det s
  | .acwMax64 x ret det => Sys2Proof.Machine.execAcwMax64 x ret det s
  | .acwMaxf x ret det => Sys2Proof.Machine.execAcwMaxf x ret det s
  | .acwMin32 x ret det => Sys2Proof.Machine.execAcwMin32 x ret det s
  | .acwMin64 x ret det => Sys2Proof.Machine.execAcwMin64 x ret det s
  | .acwMinf x ret det => Sys2Proof.Machine.execAcwMinf x ret det s
  | .acwAnd32 x ret det => Sys2Proof.Machine.execAcwAnd32 x ret det s
  | .acwAnd64 x ret det => Sys2Proof.Machine.execAcwAnd64 x ret det s
  | .acwOr32 x ret det => Sys2Proof.Machine.execAcwOr32 x ret det s
  | .acwOr64 x ret det => Sys2Proof.Machine.execAcwOr64 x ret det s
  | .acwXchg32 x ret det => Sys2Proof.Machine.execAcwXchg32 x ret det s
  | .acwXchg64 x ret det => Sys2Proof.Machine.execAcwXchg64 x ret det s
  | .cmb x => Sys2Proof.Machine.execCmb x s
  | .xrcl x => Sys2Proof.Machine.execXrcl x s
  | .xtw tag t => Sys2Proof.Machine.execXtw tag t s
  | .xrdv ix m t => Sys2Proof.Machine.execXrdv ix m t s
  | .xnfy t => Sys2Proof.Machine.execXnfy t s
  | .mtok t => Sys2Proof.Machine.execMtok t s
  | .mcfg off t => Sys2Proof.Machine.execMcfg off t s
  | .mgo t => Sys2Proof.Machine.execMgo t s
  | .mwait t => Sys2Proof.Machine.execMwait t s
  | .mrdv ix m t => Sys2Proof.Machine.execMrdv ix m t s
  | .mnfy t => Sys2Proof.Machine.execMnfy t s
  | .mma a b tile f bt t => Sys2Proof.Machine.execMma a b tile f bt t s
  | .mmaz a b tile f bt t => Sys2Proof.Machine.execMmaz a b tile f bt t s
  | .mld sx tile k add t => Sys2Proof.Machine.execMld sx tile k add t s
  | .mst sx tile k m t => Sys2Proof.Machine.execMst sx tile k m t s
  | .mzero tile raw t => Sys2Proof.Machine.execMzero tile raw t s
  | .mrq d sx tile f m row t => Sys2Proof.Machine.execMrq d sx tile f m row t s
  | .oaInit o a m n t => Sys2Proof.Machine.execOaInit o a m n t s
  | .oaHouse o sx l t => Sys2Proof.Machine.execOaHouse o sx l t s
  | .oaApp o v u t => Sys2Proof.Machine.execOaApp o v u t s
  | .oaLeft o x tr c t => Sys2Proof.Machine.execOaLeft o x tr c t s
  | .oaRight o x tr c t => Sys2Proof.Machine.execOaRight o x tr c t s
  | .oaFold o t => Sys2Proof.Machine.execOaFold o t s
  | .oaSpill o sx t => Sys2Proof.Machine.execOaSpill o sx t s
  | .oaFill o sx t => Sys2Proof.Machine.execOaFill o sx t s
  | .oaCnt o sx t => Sys2Proof.Machine.execOaCnt o sx t s
  | .vtok t => Sys2Proof.Machine.execVtok t s
  | .vshpDim r c t => Sys2Proof.Machine.execVshpDim r c t s
  | .vshpCur r c rs cs t => Sys2Proof.Machine.execVshpCur r c rs cs t s
  | .vshpFmt f m sx t => Sys2Proof.Machine.execVshpFmt f m sx t s
  | .vbind port set off t => Sys2Proof.Machine.execVbind port set off t s
  | .vsamp x => Sys2Proof.Machine.execVsamp x s
  | .vrdv ix m t => Sys2Proof.Machine.execVrdv ix m t s
  | .vnfy t => Sys2Proof.Machine.execVnfy t s
  | .vadd x => Sys2Proof.Machine.execVadd x s
  | .vsub x => Sys2Proof.Machine.execVsub x s
  | .vmul x => Sys2Proof.Machine.execVmul x s
  | .vfma x => Sys2Proof.Machine.execVfma x s
  | .vmin x => Sys2Proof.Machine.execVmin x s
  | .vmax x => Sys2Proof.Machine.execVmax x s
  | .vabs x => Sys2Proof.Machine.execVabs x s
  | .vneg x => Sys2Proof.Machine.execVneg x s
  | .vmov x => Sys2Proof.Machine.execVmov x s
  | .vdiv x => Sys2Proof.Machine.execVdiv x s
  | .vsqrt x => Sys2Proof.Machine.execVsqrt x s
  | .vand x => Sys2Proof.Machine.execVand x s
  | .vor x => Sys2Proof.Machine.execVor x s
  | .vxor x => Sys2Proof.Machine.execVxor x s
  | .vshl x => Sys2Proof.Machine.execVshl x s
  | .vshr x => Sys2Proof.Machine.execVshr x s
  | .vsra x => Sys2Proof.Machine.execVsra x s
  | .vceq x => Sys2Proof.Machine.execVceq x s
  | .vcne x => Sys2Proof.Machine.execVcne x s
  | .vclt x => Sys2Proof.Machine.execVclt x s
  | .vcle x => Sys2Proof.Machine.execVcle x s
  | .vcgt x => Sys2Proof.Machine.execVcgt x s
  | .vcge x => Sys2Proof.Machine.execVcge x s
  | .vmand x => Sys2Proof.Machine.execVmand x s
  | .vmor x => Sys2Proof.Machine.execVmor x s
  | .vmxor x => Sys2Proof.Machine.execVmxor x s
  | .vmnot k x me t => Sys2Proof.Machine.execVmnot k x me t s
  | .vsel d a b t => Sys2Proof.Machine.execVsel d a b t s
  | .vcvtf x => Sys2Proof.Machine.execVcvtf x s
  | .vcvti x => Sys2Proof.Machine.execVcvti x s
  | .vqnt x => Sys2Proof.Machine.execVqnt x s
  | .vqntr x => Sys2Proof.Machine.execVqntr x s
  | .vdqnt x => Sys2Proof.Machine.execVdqnt x s
  | .vexp x => Sys2Proof.Machine.execVexp x s
  | .vexp2 x => Sys2Proof.Machine.execVexp2 x s
  | .vlog x => Sys2Proof.Machine.execVlog x s
  | .vlog2 x => Sys2Proof.Machine.execVlog2 x s
  | .vsin x => Sys2Proof.Machine.execVsin x s
  | .vcos x => Sys2Proof.Machine.execVcos x s
  | .vtanh x => Sys2Proof.Machine.execVtanh x s
  | .vrsqrt x => Sys2Proof.Machine.execVrsqrt x s
  | .vrcp x => Sys2Proof.Machine.execVrcp x s
  | .vrotr x => Sys2Proof.Machine.execVrotr x s
  | .vrotc x => Sys2Proof.Machine.execVrotc x s
  | .vbcr x => Sys2Proof.Machine.execVbcr x s
  | .vbcc x => Sys2Proof.Machine.execVbcc x s
  | .vsumr x => Sys2Proof.Machine.execVsumr x s
  | .vsumc x => Sys2Proof.Machine.execVsumc x s
  | .vmaxr x => Sys2Proof.Machine.execVmaxr x s
  | .vmaxc x => Sys2Proof.Machine.execVmaxc x s
  | .vminr x => Sys2Proof.Machine.execVminr x s
  | .vminc x => Sys2Proof.Machine.execVminc x s
  | .vrsenc x => Sys2Proof.Machine.execVrsenc x s
  | .vrsdec x => Sys2Proof.Machine.execVrsdec x s
  | .unassignedEncoding w => Sys2Proof.Machine.execUnassignedEncoding w s
  | .illstep w => Sys2Proof.Machine.execIllstep w s
  | .wordComplete k sx => Sys2Proof.Machine.execWordComplete k sx s
  | .nestComplete k => Sys2Proof.Machine.execNestComplete k s
  | .commandComplete k id => Sys2Proof.Machine.execCommandComplete k id s
  | .commandFault k id => Sys2Proof.Machine.execCommandFault k id s
  | .rendezvousLeave k id => Sys2Proof.Machine.execRendezvousLeave k id s
  | .noProgress k => Sys2Proof.Machine.execNoProgress k s
  | .jobComplete k => Sys2Proof.Machine.execJobComplete k s
  | .softPreemptRequest k reason => Sys2Proof.Machine.execSoftPreemptRequest k reason s
  | .saveComplete k => Sys2Proof.Machine.execSaveComplete k s
  | .hardStop k => Sys2Proof.Machine.execHardStop k s
  | .portFetch k port => Sys2Proof.Machine.execPortFetch k port s
  | .writeApplied id => Sys2Proof.Machine.execWriteApplied id s
  | .writeArrivalHome id => Sys2Proof.Machine.execWriteArrivalHome id s
  | .heldWriteApply id => Sys2Proof.Machine.execHeldWriteApply id s
  | .closeMarkerArrival id => Sys2Proof.Machine.execCloseMarkerArrival id s
  | .acwUpdateArrival id => Sys2Proof.Machine.execAcwUpdateArrival id s
  | .detUpdateArrival id => Sys2Proof.Machine.execDetUpdateArrival id s
  | .roundCloseMarkerArrival id => Sys2Proof.Machine.execRoundCloseMarkerArrival id s
  | .detRetryResend id => Sys2Proof.Machine.execDetRetryResend id s
  | .roundComplete id => Sys2Proof.Machine.execRoundComplete id s
  | .cmbApply id => Sys2Proof.Machine.execCmbApply id s
  | .planResponse d => Sys2Proof.Machine.execPlanResponse d s
  | .samplerSample d => Sys2Proof.Machine.execSamplerSample d s
  | .pipelineBreak d h => Sys2Proof.Machine.execPipelineBreak d h s
  | .itemRead d slot => Sys2Proof.Machine.execItemRead d slot s
  | .queueMapped d => Sys2Proof.Machine.execQueueMapped d s
  | .queueSlotIdle d slot => Sys2Proof.Machine.execQueueSlotIdle d slot s
  | .dispatchScan d => Sys2Proof.Machine.execDispatchScan d s
  | .hardDeadline d team => Sys2Proof.Machine.execHardDeadline d team s
  | .hamperArrival id => Sys2Proof.Machine.execHamperArrival id s
  | .hamperAnswer id => Sys2Proof.Machine.execHamperAnswer id s
  | .workItemComplete d team => Sys2Proof.Machine.execWorkItemComplete d team s
  | .dieOverload d => Sys2Proof.Machine.execDieOverload d s
  | .freeSlotBroadcast => Sys2Proof.Machine.execFreeSlotBroadcast s
  | .gangTick => Sys2Proof.Machine.execGangTick s
  | .gangSaveDeadline => Sys2Proof.Machine.execGangSaveDeadline s
  | .gangVoidDeadline => Sys2Proof.Machine.execGangVoidDeadline s
  | .lateSaveRestore => Sys2Proof.Machine.execLateSaveRestore s
  | .quotaCheck => Sys2Proof.Machine.execQuotaCheck s
  | .quotaWindowStart => Sys2Proof.Machine.execQuotaWindowStart s
  | .sharedChargeTick => Sys2Proof.Machine.execSharedChargeTick s
  | .flrScrubComplete => Sys2Proof.Machine.execFlrScrubComplete s
  | .exit => Sys2Proof.Machine.execExit s
  | .yield => Sys2Proof.Machine.execYield s
  | .eret => Sys2Proof.Machine.execEret s
  | .fetchRangeError => Sys2Proof.Machine.execFetchRangeError s
  | .thermalTrip => Sys2Proof.Machine.execThermalTrip s
  | .powerLoss => Sys2Proof.Machine.execPowerLoss s
  | .start => Sys2Proof.Machine.execStart s
  | .matrixReplay k => Sys2Proof.Machine.execMatrixReplay k s
  | .transientReplay k id => Sys2Proof.Machine.execTransientReplay k id s
  | .peerRefusal k id cause addr => Sys2Proof.Machine.execPeerRefusal k id cause addr s
  | .moduleSet m => Sys2Proof.Machine.execModuleSet m s
  | .queueCreate m => Sys2Proof.Machine.execQueueCreate m s
  | .queueDestroy m => Sys2Proof.Machine.execQueueDestroy m s
  | .cancel m => Sys2Proof.Machine.execCancel m s
  | .faultAnswer m => Sys2Proof.Machine.execFaultAnswer m s
  | .tlbInval m => Sys2Proof.Machine.execTlbInval m s
  | .netctxSet m => Sys2Proof.Machine.execNetctxSet m s
  | .evringSet m => Sys2Proof.Machine.execEvringSet m s
  | .attest m => Sys2Proof.Machine.execAttest m s
  | .bootRecord m => Sys2Proof.Machine.execBootRecord m s
  | .imageLoad m => Sys2Proof.Machine.execImageLoad m s
  | .imageCommit m => Sys2Proof.Machine.execImageCommit m s
  | .uetRmaAccess a => Sys2Proof.Machine.execUetRmaAccess a s
  | .queueDoorbell w => Sys2Proof.Machine.execQueueDoorbell w s
  | .eventRingDoorbell w => Sys2Proof.Machine.execEventRingDoorbell w s
  | .mgWrite w => Sys2Proof.Machine.execMgWrite w s
  | .flr w => Sys2Proof.Machine.execFlr w s
  | .functionRecordWrite w => Sys2Proof.Machine.execFunctionRecordWrite w s
  | .coreGroupMapWrite w => Sys2Proof.Machine.execCoreGroupMapWrite w s
  | .slotTableWrite w => Sys2Proof.Machine.execSlotTableWrite w s
  | .rotPortWrite w => Sys2Proof.Machine.execRotPortWrite w s
  | .uetConnectionSetup conn func => Sys2Proof.Machine.execUetConnectionSetup conn func s
  | .thermalTick d tj => Sys2Proof.Machine.execThermalTick d tj s

end Sys2Proof.Machine
end

