-- ==== Sys2Proof/Machine/Step.lean ====
section
/-! DEFINITION. One step of the module, and placing an instruction where the next step fetches it (log 12). -/

namespace Sys2Proof.Machine

/-- One step: the next act, and the instruction or event it comes to. -/
def step (s : State) : Host.Outcome State Fault Refusal :=
  match s.select with
  | none => .fault .noPower
  | some (a, t) =>
    match t.fetch a with
    | .run i u => exec i u
    | .done u => .next u

/-- The stream whose map a word is read in. -/
def mapStream (m : OpMap) : Stream :=
  match m with
  | .seq => .q0
  | .xfer => .xl
  | .matrix => .m
  | .vector => .v

/-- Core 0 of die 0 with a job that holds one word as the section of the stream whose map assigns it, all streams at word 0. -/
def wordCore (c : Core) (st : Stream) (w : Word) : Core :=
  let run (e : Eng) : Eng := { e with pc := 0#32, st := .running, outst := [] }
  { c with
    job := some (c.job.getD { expect := 0xFF#8, size := 1#8 }),
    code := vset c.code (streamIx st) [w],
    curq := 0, idle := false,
    q := c.q.set 0 { c.q[0] with pc := 0#64, st := .ready, resol := false },
    xl := run c.xl, m := run c.m, v := run c.v, xs := run c.xs,
    preempt := none, fault := none }

/-- s with the instruction stored where step fetches it: the first word of a stream of core 0, which issues next. -/
def State.withFetchWord (s : State) (nbits w : Nat) : State :=
  let bs := tableBytes nbits w
  let m := match firstMap bs with
    | some (m, _) => m
    | none => .seq
  let st := mapStream m
  let s := s.setCore 0 (wordCore (s.core 0) st (BitVec.ofNat 32 (natOfBytes bs)))
  { s with phase := .ready, due := [], agenda := [⟨s.clk, .issue 0 st⟩], round := [] }

end Sys2Proof.Machine
end

