-- ==== Sys2Proof/Safety.lean ====
section
/-! DEFINITION. What a safe run is, the invariant of the state that every step keeps, and the terms in which claims say what a
step changes and what it leaves: a core's step, a block stream's step, a register or predicate written. The energy accounts (R140,
R262) stand apart: every instruction charges them. -/

namespace Sys2Proof.Safety

open Sys2Proof.Machine

/-- Runs of the module: states that steps lead to. -/
inductive Reach (s : State) : State → Prop where
  | here : Reach s s
  | next (t u : State) : Reach s t → step t = .next u → Reach s u

/-- A state from which no run stops in a fault or a refusal. -/
def Safe (s : State) : Prop := ∀ t, Reach s t → ∃ u, step t = .next u

/-- The memory of a state is in its canonical form. -/
def MemInv (s : State) : Prop := Memory.wf s.mem = true

/-- A core but for its energy account (R140). -/
def coreRest (c : Core) : Core := { c with meterFunc := 0, meterJob := 0 }
/-- A function's record but for its energy account (R262, R264). -/
def funcRest (r : Func) : Func := { r with total := 0, spent := 0 }

/-- From s to t core k becomes c, and energy is charged. Nothing else changes: no other core, no other part of a function's record,
no byte of memory, no other field of the module. -/
structure CoreStep (s t : State) (k : Nat) (c : Core) : Prop where
  rest : t = { s with cores := t.cores, funcs := t.funcs }
  core : coreRest (t.core k) = coreRest c
  cores : ∀ j, j ≠ k → t.core j = s.core j
  funcs : ∀ f, funcRest (t.func f) = funcRest (s.func f)
  mem : ∀ a, Memory.read t.mem a = Memory.read s.mem a

/-- The acting core with its acting block stream replaced by b. -/
def blkCore (s : State) (b : Block) : Core := { s.me with q := s.me.q.set s.cur.q.val b }

/-- From s to t the acting block stream becomes b, and nothing else but energy accounts changes. -/
def BlockStep (s t : State) (b : Block) : Prop := CoreStep s t s.cur.k.val (blkCore s b)

/-- A block stream at its next word. That a word has issued before (`busy`, the model's own mark of a word that holds the pipeline) ends. -/
def after (b : Block) : Block := { b with pc := b.pc + 1#64, busy := false }

/-- From s to t the acting block stream goes to its next word and does nothing else. -/
def NextWord (s t : State) : Prop := BlockStep s t (after s.blk)

/-- The block stream b' is b with general register d holding v (g0 discards it, R92) and the next word's pc. -/
def RegPut (b b' : Block) (d : BitVec 5) (v : Dword) : Prop :=
  (∀ n, b'.reg n = if n = d ∧ d ≠ 0#5 then v else b.reg n) ∧ (∀ n, b'.pred n = b.pred n) ∧ { b' with g := b.g } = after b

/-- The block stream b' is b with predicate d holding v (p0 discards it, R92) and the next word's pc. -/
def PredPut (b b' : Block) (d : BitVec 3) (v : Bool) : Prop :=
  (∀ n, b'.pred n = if n = d ∧ d ≠ 0#3 then v else b.pred n) ∧ (∀ n, b'.reg n = b.reg n) ∧ { b' with p := b.p } = after b

/-- From s to t the acting block stream writes v to general register d and goes to its next word; nothing else changes. -/
def PutsReg (s t : State) (d : BitVec 5) (v : Dword) : Prop := ∃ b, BlockStep s t b ∧ RegPut s.blk b d v

/-- From s to t the acting block stream writes v to predicate d and goes to its next word; nothing else changes. -/
def PutsPred (s t : State) (d : BitVec 3) (v : Bool) : Prop := ∃ b, BlockStep s t b ∧ PredPut s.blk b d v

/-- The instruction answers a next state in which d holds v and the rest is as PutsReg says. -/
def GivesReg (i : Instr) (s : State) (d : BitVec 5) (v : Dword) : Prop := ∃ t, exec i s = .next t ∧ PutsReg s t d v

/-- The instruction answers a next state in which d holds v, its die has observed home h (R66), and the rest is as PutsReg says. -/
def LoadsReg (i : Instr) (s : State) (h : Nat) (d : BitVec 5) (v : Dword) : Prop :=
  ∃ t, exec i s = .next t ∧ PutsReg (s.observe (s.cur.k.val / 192) h) t d v

/-- The instruction answers a next state in which predicate d holds v and the rest is as PutsPred says. -/
def GivesPred (i : Instr) (s : State) (d : BitVec 3) (v : Bool) : Prop := ∃ t, exec i s = .next t ∧ PutsPred s t d v

/-- The plan word i is answered in s: its die's plan engine becomes p with the answer v for the acting block stream on its way, the stream
waits with a word that is i's, and the pipeline goes on. Beyond that the state becomes u, s with what else the word does; nothing
else changes. -/
def PlanAnswers (i : Instr) (s u : State) (p : PlanEng) (v : Nat) : Prop :=
  ∃ t w, exec i s = .next t ∧ decodeWord .seq w = .ok i ∧
    CoreStep (u.modDie (s.cur.k.val / 192) fun x =>
        { x with plan := { p with answers := p.answers ++ [(s.me.jobTeam, s.me.jobRank, s.cur.q, BitVec.ofNat 64 v)] } })
      t s.cur.k.val (Core.switch (blkCore s { s.blk with st := .waiting, wword := w, wmask := 0#64, busy := false }))

/-- The plan engine q is p with catalog entry e holding y. -/
def EntryPut (p q : PlanEng) (e : Nat) (y : Entry) : Prop :=
  q.entry e = y ∧ (∀ j, j ≠ e → q.entry j = p.entry j) ∧ { q with catalog := p.catalog } = p

/-- The plan engine p with every handle that depends on entry e, and was not stale, stale for reason r (R412). -/
def staleOn (p : PlanEng) (e r : Nat) : PlanEng :=
  { p with handles := p.handles.map fun h => (h.1, if h.2.stale = 0 ∧ e ∈ h.2.deps then { h.2 with stale := r } else h.2) }

/-- The bytes of the own scratchpad from offset o on, as the acting block stream reads them (R125). -/
def ownBytes (s : State) (o n : Nat) : List Byte :=
  (List.range n).map fun j => s.ownByte ⟨s.cur.k.val, s.cur.q.val⟩ (0x200000000000 + s.cur.k.val * 0x200000 + o + j)

/-- s with bytes sent from the acting block stream to offset o of its own scratchpad in writes of 64 bytes, the last maybe shorter. -/
def sendBytes (s : State) (o : Nat) (bs : List Byte) : State :=
  { s with next := s.next + (bs.length + 63) / 64, writes := s.writes ++ (List.range ((bs.length + 63) / 64)).map fun j =>
      { id := s.next + j, by_ := ⟨s.cur.k.val, s.cur.q.val⟩, cmd := none, src := s.cur.k.val / 192, home := s.cur.k.val / 192,
        loc := 0x200000000000 + s.cur.k.val * 0x200000 + o + 64 * j,
        data := ((bs.drop (64 * j)).take 64).map fun b => (b, 0xFF#8), stamp := (s.die (s.cur.k.val / 192)).vclk, held := false } }

/-- From s to t core k becomes c, memory may change, and energy is charged. Nothing else changes. -/
structure MemStep (s t : State) (k : Nat) (c : Core) : Prop where
  rest : t = { s with cores := t.cores, funcs := t.funcs, mem := t.mem }
  core : coreRest (t.core k) = coreRest c
  cores : ∀ j, j ≠ k → t.core j = s.core j
  funcs : ∀ f, funcRest (t.func f) = funcRest (s.func f)

/-- In t the bytes from location l on are bs, and every other byte of memory is as in s. -/
def Wrote (s t : State) (l : Nat) (bs : List Byte) : Prop :=
  Memory.readN t.mem l bs.length = bs ∧ ∀ a, a < l ∨ l + bs.length ≤ a → Memory.read t.mem a = Memory.read s.mem a

/-- The word i faults the job of the acting core: its fault record has this cause, hard stops follow in the next clk, and nothing else changes. -/
def FaultsJob (i : Instr) (s : State) (cause : Byte) : Prop :=
  ∃ t r l, exec i s = .next t ∧ r.cause = cause ∧ .event (.hardStop s.cur.k) ∈ l ∧
    CoreStep { s.later l with fresh := t.fresh } t s.cur.k.val { s.me with fault := some r }

/-- 64 rows of 64 numbers, row by row. -/
def grid {α : Type} (f : Nat → Nat → α) : List α := (upto 64).flatMap fun i => (upto 64).map fun j => f i j

/-- Element (i, j) of tile t of the acting core, as bits. -/
def tileAt (s : State) (t : BitVec 4) (i j : Nat) : Nat := Memory.readNat s.mem (tileLoc s.cur.k.val t.toNat + 4 * (64 * i + j)) 4

/-- A word of M with these tokens and locks may issue: no nest runs that is not running it, its tokens and its locks can be had. -/
def mReady (s : State) (t : Tok) (l : Locks) : Prop :=
  (s.me.mx.go = true → s.cur.nest = true) ∧ s.me.tokensOk .m t = true ∧ s.me.grantable l = true

/-- The acting core of s with its matrix state y and a word of M issued that takes tokens tk and locks l and sets flags fl at its completion.
Its record keeps what a stop or a replay puts back, stretches of memory `more` among it, and what a replay computes again. -/
def mIssued (s : State) (y : Matrix) (fl : Byte) (tk : Tok) (l : Locks) (more : List (Nat × Nat)) (r : Option Redo) : Core :=
  { s.me with mx := y }.startM s.cur.nest tk l false fl (s.undoM tk l more) r

/-- The acting core of s with what tile t carries and a word of M issued that sets flags fl at its completion. -/
def tileCore (s : State) (t : BitVec 4) (x : TileSide) (fl : Byte) (tk : Tok) (l : Locks) : Core :=
  mIssued s { s.me.mx with side := s.me.mx.side.set t.toNat x } fl tk l [] none

/-- Each value rounded once, in order; under SR each takes the next draw of generator g (R83, R84). Patterns with flags, and the
generator after them. -/
def roundAll (f : Fmt) (m : RMode) (g : Dword) : List Val → List (Nat × Byte) × Dword
  | [] => ([], g)
  | y :: t =>
    let h := if m = .sr then genStep g else g
    let r := roundAll f m h t
    (roundTo f m (if m = .sr then genDraw h else 0) y :: r.1, r.2)

/-- The destination positions that the vector word n writes, in order, with their numbers in its shape (R343, R379). -/
def vLanes (n : VIn) : List ((Nat × Nat) × Nat) := n.dpos.zipIdx.filter fun p => n.w.all || n.act p.1

/-- The vector word w may issue: it resolves as n, its tokens, its locks and room in its output port are available, and its sources hold the
elements vs. -/
def vReady (s : State) (w : VSpec) (n : VIn) (vs : List (List VElem)) : Prop :=
  s.vIn w = .ok n ∧ s.me.tokensOk .v w.t = true ∧ s.me.grantable n.locks = true ∧ s.me.portRoom n.out = true ∧
    collect (n.vals s.mem) n.srcs = .ok vs

/-- The acting core of s with V's generator g, registers and masks, cursors and ports moved on, and the vector word n issued, which
sets flags fl at its completion; its record keeps what a stop puts back. -/
def vIssued (s : State) (n : VIn) (fl : Byte) (g : Dword) (regs : Map Nat) (masks : Vector (BitVec 1024) 4) : Core :=
  let c := s.me
  let y := { c with
    sys := { c.sys with gen := c.sys.gen.set 2 g }
    vx := { c.vx with regs := regs, masks := masks, shape := stepCursors c.vx.shape (n.w.names 1#2) (n.w.names 2#2), ports := n.ports s.mem } }
  let back : Undo := { vec := some (c.vx.regs, c.vx.masks), shape := some (c.vx.shape, y.vx.shape), gen := some c.sys.gen[2] }
  let o : Outst :=
    { id := 0, push := pushFifo .v n.w.t.push, rd := n.locks.rd, wr := n.locks.wr, port := n.out.map fun u => u.port, fl := fl, undo := back }
  ((y.takeTokens .v n.w.t).begin_ .v o).stepEng .v

/-- The vector word i, resolved as n, answers: the lanes it writes of vector register r hold the patterns ps in order, no other
register element, mask or byte of memory changes, V's generator is g, and its flags are fl. -/
def VPuts (i : Instr) (s : State) (n : VIn) (r : Nat) (ps : List Nat) (fl : Byte) (g : Dword) : Prop :=
  ∃ u d, exec i s = .next u ∧ CoreStep s u s.cur.k.val d ∧
    (∀ j < (vLanes n).length, mget d.vx.regs (lane r ((vLanes n).getD j ((0, 0), 0)).1) 0 = ps.getD j 0) ∧
    (∀ q, q ∉ (vLanes n).map (fun p => lane r p.1) → mget d.vx.regs q 0 = mget s.me.vx.regs q 0) ∧
    d = vIssued s n fl g d.vx.regs s.me.vx.masks

/-- The vector word i, resolved as n with an output port of elements es, answers: the elements at the numbers of the lanes it
writes hold the patterns ps, written in order, no other byte of memory and no register or mask changes. -/
def VSends (i : Instr) (s : State) (n : VIn) (es : PUse) (ps : List Nat) (fl : Byte) (g : Dword) : Prop :=
  let nib := nibbles (es.p.fmt es.x)
  let ws : List (PElem × Nat) := ((vLanes n).zip ps).filterMap fun e => es.elems[e.1.2]?.map fun x => (x, e.2)
  ∃ u, exec i s = .next u ∧ MemStep s u s.cur.k.val (vIssued s n fl g s.me.vx.regs s.me.vx.masks) ∧
    u.mem = ws.foldl (fun m e => Memory.writeMask m e.1.loc (elemBytes e.1.e nib e.2)) s.mem ∧
    ∀ a, (∀ e ∈ ws, a < e.1.loc ∨ e.1.loc + nibBytes nib ≤ a) → Memory.read u.mem a = Memory.read s.mem a

/-- t is s once what the streams of core k wait for has been looked at (R15, R24, R134): only that core's block streams, TAGS, rendezvous,
current block stream (or none) and fault record may differ, a block stream that does not wait stays, and hard stops may have become due. -/
def Woken (s t : State) (k : Nat) : Prop :=
  t = { s with cores := t.cores, due := t.due, fresh := t.fresh } ∧ (∀ j, j ≠ k → t.core j = s.core j) ∧
  (let c := s.core k
   let d := t.core k
   { d with q := c.q, rdv := c.rdv, curq := c.curq, idle := c.idle, fault := c.fault, sys := { d.sys with tags := c.sys.tags } } = c) ∧
  ∀ q : Fin 4, (s.core k).q[q.val].st ≠ .waiting → (t.core k).q[q.val] = (s.core k).q[q.val]

/-- The command with a number of core k changed by f. -/
def cmdPut (s : State) (k id : Nat) (f : Cmd → Cmd) : Core :=
  let c := s.core k
  { c with x := { c.x with cmds := c.x.cmds.map fun e => if e.id = id then f e else e } }

/-- t is s but for energy accounts, the free-value counter and messages to the outside. -/
def Billed (s t : State) : Prop :=
  t = { s with funcs := t.funcs, commons := t.commons, fresh := t.fresh, out := t.out } ∧ ∀ f, funcRest (t.func f) = funcRest (s.func f)

/-- A response to message m of a type from function f (R217): its header, then a body of a status and more bytes. -/
def response (m : Falig) (f : Byte) (type status : Nat) (more : List Byte) : Out :=
  .falig m.conn ([1#8, BitVec.ofNat 8 type ||| 0x80#8] ++ bytesOfNat 2 (4 + more.length) ++ [f, 0#8, 0#8, 0#8] ++ bytesOfNat 8 m.corr.toNat
    ++ bytesOfNat 4 status ++ more)

/-- The instruction answers a next state that is u but for energy accounts, and the message m of a type from function f is answered with a
status. -/
def Replies (i : Instr) (s u : State) (m : Falig) (f : Byte) (type status : Nat) : Prop :=
  ∃ t, exec i s = .next t ∧ Billed u t ∧ t.out = s.out ++ [response m f type status (zeroBytes 4)]

/-- The write of the management window is answered with a status in MG_STATUS and a completion; the next state is u but for them and
for energy accounts. -/
def MgDone (i : Instr) (s u : State) (conn status : Nat) : Prop :=
  ∃ t, exec i s = .next t ∧ Billed { u with mg := { u.mg with status := BitVec.ofNat 32 status } } t ∧ t.out = s.out ++ [.rma conn true []]

end Sys2Proof.Safety
end

