-- ==== Sys2Proof/Certificates/Slice0/Obligations.lean ====
section
/-! DEFINITION. The statements about the machine that the provers prove, one `def Obligations.<Name> : Prop` each, family by family:
decoding, the step, the sequencer, the transfer engine, the matrix engine, the vector engine, and the events of the part. What a step
leaves is said in the terms of Sys2Proof.Safety. -/

section

open Sys2Proof Sys2Proof.Machine Sys2Proof.Safety

/-- Words of each map, as the spec writes them out in its examples (chapters 04, 05, 08, 14, 15, 18 and 21), decode to the instructions
they stand for, and three words that the spec calls unassigned are refused. -/
def Obligations.SpecExampleWordsDecode : Prop :=
  decodeWord .seq 0x50A40010#32 = .ok (.ldWz 5#5 4#5 16#16) ∧
  decodeWord .seq 0x813FFFFD#32 = .ok (.br 2#3 false 0x3FFFFD#22) ∧
  decodeWord .seq 0xA8030005#32 = .ok (.seedWrite 3#5) ∧
  decodeWord .seq 0x98000002#32 = .ok (.fence .die) ∧
  decodeWord .seq 0xE5656300#32 = .ok (.qexpl 11#5 5#5 12#5) ∧
  decodeWord .xfer 0x04485006#32 = .ok (.xcpy ⟨1#4, 2#4, 5#6, false, false, .stream, ⟨1#2, 2#2⟩⟩ .rne) ∧
  decodeWord .matrix 0x20131807#32 = .ok (.mma 0#3 1#3 3#4 .p1 true ⟨1#2, 3#2⟩) ∧
  decodeWord .vector 0x08698627#32 = .ok (.vadd ⟨.out 0#1, .inp 0#2, .inp 1#2, false, ⟨1#2, 3#2⟩⟩) ∧
  decodeWord .seq 0x98000005#32 = .error .scope ∧
  decodeWord .seq 0xA4E10000#32 = .error .field ∧
  decodeWord .seq 0x02000005#32 = .error .opcode

/-- Decoding and encoding agree. Every well-formed instruction that has an encoding is what its word decodes to in its map, with every
operand at every value; and every word that decodes to an instruction is that instruction's only word, so no bit of a word is dropped
(R104, R106, R163, R165, R296, R297, R354, R356). -/
def Obligations.DecodeAndEncodeAgree : Prop :=
  (∀ (i : Instr) (m : OpMap) (w : Word), i.wf = true → encode i = some (m, w) → decodeWord m w = .ok i) ∧
  (∀ (i : Instr) (m : OpMap) (w : Word), decodeWord m w = .ok i → i.wf = true ∧ encode i = some (m, w))

/-- A step runs the decoded instruction (R14, R95, R107, log 4). When nothing is due, the first planned act is that stream st of core k
issues, its clk has come, the core runs a job that has neither faulted nor been asked to stop, the stream is the ready block stream that
holds the pipeline, or a running engine stream, and the word at its pc decodes to i in its map, the step is exec of i with that stream
acting and the act taken from the plan. An unassigned word and a pc past the section come as their events. The step adds
nothing else: the pc is advanced by the instruction itself. -/
def Obligations.StepRunsTheDecodedInstruction : Prop :=
  ∀ (s : State) (k : CoreIx) (st : Stream) (n : Nat) (rest : List Planned), s.due = [] → s.agenda = ⟨n, .issue k st⟩ :: rest → n ≤ s.clk →
    let c := s.core k.val
    let code (i : Nat) : List Word := vget c.code i []
    let gives (q : Fin 4) (i : Instr) : Prop :=
      step s = exec i { s with agenda := rest, cur := { k := k, q := q, st := st, entry := none, nest := false } }
    c.job.isSome → c.fault = none → c.preempt = none →
    (∀ q : Fin 4, [Stream.q0, .q1, .q2, .q3][q.val]? = some st → c.curq = q → c.idle = false → c.q[q.val].st = .ready →
      (∀ w i, (code q.val)[c.q[q.val].pc.toNat]? = some w → decodeWord .seq w = .ok i → gives q i) ∧
      (∀ w e, (code q.val)[c.q[q.val].pc.toNat]? = some w → decodeWord .seq w = .error e → gives q (.unassignedEncoding w)) ∧
      ((code q.val).length ≤ c.q[q.val].pc.toNat → gives q .fetchRangeError)) ∧
    (∀ (e : Eng) (j : Nat) (m : OpMap),
      (st, e, j, m) ∈ [(Stream.xl, c.xl, 4, OpMap.xfer), (.m, c.m, 5, .matrix), (.v, c.v, 6, .vector), (.xs, c.xs, 7, .xfer)] →
      e.st = .running →
      (∀ w i, (code j)[e.pc.toNat]? = some w → decodeWord m w = .ok i → gives c.curq i) ∧
      (∀ w r, (code j)[e.pc.toNat]? = some w → decodeWord m w = .error r → gives c.curq (.illstep w)) ∧
      ((code j).length ≤ e.pc.toNat → gives c.curq .fetchRangeError))

/-- The state after reset (R448, R31, R66, R51, R50): the part is in reset, the module number is 0xFFFF, every vector clock is zero, no
page of the ownership table is owned, every core is without a job with all its block streams absent and its trap registers zero,
memory is in its canonical form, and the first step is the start. -/
def Obligations.ResetState : Prop :=
  State.reset.phase = .reset ∧ State.reset.module = 0xFFFF#16 ∧ MemInv State.reset ∧
  (∀ d : DieIx, (State.reset.die d.val).vclk = Vector.replicate 8 0#48 ∧ (State.reset.die d.val).cclk = Vector.replicate 8 0#48) ∧
  (∀ pa, State.reset.rotOf pa = 0#32) ∧
  (∀ k : CoreIx, (State.reset.core k.val).job = none ∧ ∀ q : Fin 4,
    let b := (State.reset.core k.val).q[q.val]
    b.st = .absent ∧ b.trvec = 0#34 ∧ b.trcause = 0#8 ∧ b.trsub = 0#8 ∧ b.hnd = false ∧ b.trpc = 0#32 ∧ b.trinfo = 0#64 ∧
    b.trprog = 0#5) ∧
  step State.reset = exec .start State.reset

/-- The canonical form of memory is kept by every step: addresses strictly rising, no listed byte equal to what an unlisted one reads as. It
holds in every state in which it held, whatever the step does, so equal memories stay equal data. -/
def Obligations.EveryStepKeepsMemoryCanonical : Prop :=
  ∀ s t : State, MemInv s → step s = .next t → MemInv t

/-- The integer words of major 0x00 (R112). Each minor of the table decodes to its operation, and every other minor is unassigned
(R106). In every state the operation answers a next state in which rd holds the value of the table (nothing, where rd is g0),
computed here on natural numbers and integers; the pc is at the next word; every other register, predicate, flag, special register and
byte of memory is unchanged, energy accounts apart. -/
def Obligations.IntegerWordsFollowR112 : Prop :=
  (∀ d a b : BitVec 5, ∀ m : BitVec 11, decodeWord .seq (0x00#6 ++ d ++ a ++ b ++ m) =
    if m = 0x000#11 then .ok (.add d a b) else if m = 0x001#11 then .ok (.sub d a b)
    else if m = 0x002#11 then .ok (.mul d a b) else if m = 0x003#11 then .ok (.mulh d a b)
    else if m = 0x004#11 then .ok (.mulhu d a b) else if m = 0x008#11 then .ok (.and d a b)
    else if m = 0x009#11 then .ok (.or d a b) else if m = 0x00A#11 then .ok (.xor d a b)
    else if m = 0x00B#11 then .ok (.andn d a b) else if m = 0x010#11 then .ok (.sll d a b)
    else if m = 0x011#11 then .ok (.srl d a b) else if m = 0x012#11 then .ok (.sra d a b)
    else if m = 0x013#11 then .ok (.ror d a b) else if m = 0x018#11 then .ok (.min d a b)
    else if m = 0x019#11 then .ok (.max d a b) else if m = 0x01A#11 then .ok (.minu d a b)
    else if m = 0x01B#11 then .ok (.maxu d a b) else if m = 0x021#11 then .ok (.lea1 d a b)
    else if m = 0x022#11 then .ok (.lea2 d a b) else if m = 0x023#11 then .ok (.lea3 d a b)
    else .error .opcode) ∧
  ∀ (s : State) (d a b : BitVec 5),
    let x := s.g a
    let y := s.g b
    let sh := y.toNat % 64
    GivesReg (.add d a b) s d (BitVec.ofNat 64 (x.toNat + y.toNat)) ∧
    GivesReg (.sub d a b) s d (BitVec.ofInt 64 (x.toInt - y.toInt)) ∧
    GivesReg (.mul d a b) s d (BitVec.ofNat 64 (x.toNat * y.toNat)) ∧
    GivesReg (.mulh d a b) s d (BitVec.ofInt 64 (x.toInt * y.toInt / 2 ^ 64)) ∧
    GivesReg (.mulhu d a b) s d (BitVec.ofNat 64 (x.toNat * y.toNat / 2 ^ 64)) ∧
    GivesReg (.and d a b) s d (x &&& y) ∧
    GivesReg (.or d a b) s d (x ||| y) ∧
    GivesReg (.xor d a b) s d (x ^^^ y) ∧
    GivesReg (.andn d a b) s d (x &&& ~~~y) ∧
    GivesReg (.sll d a b) s d (BitVec.ofNat 64 (x.toNat * 2 ^ sh)) ∧
    GivesReg (.srl d a b) s d (BitVec.ofNat 64 (x.toNat / 2 ^ sh)) ∧
    GivesReg (.sra d a b) s d (BitVec.ofInt 64 (x.toInt / 2 ^ sh)) ∧
    GivesReg (.ror d a b) s d (BitVec.ofNat 64 (x.toNat / 2 ^ sh + x.toNat % 2 ^ sh * 2 ^ (64 - sh))) ∧
    GivesReg (.min d a b) s d (BitVec.ofInt 64 (min x.toInt y.toInt)) ∧
    GivesReg (.max d a b) s d (BitVec.ofInt 64 (max x.toInt y.toInt)) ∧
    GivesReg (.minu d a b) s d (BitVec.ofNat 64 (min x.toNat y.toNat)) ∧
    GivesReg (.maxu d a b) s d (BitVec.ofNat 64 (max x.toNat y.toNat)) ∧
    GivesReg (.lea1 d a b) s d (BitVec.ofNat 64 (x.toNat + y.toNat * 2)) ∧
    GivesReg (.lea2 d a b) s d (BitVec.ofNat 64 (x.toNat + y.toNat * 4)) ∧
    GivesReg (.lea3 d a b) s d (BitVec.ofNat 64 (x.toNat + y.toNat * 8))

/-- The immediate words of R113 to R115. Each word of majors 0x01 to 0x07 decodes to its operation, or is unassigned where the
rules require zero or give no op. In every state each operation answers a next state in which rd holds the value of its rule, and all
else is as for the integer words: addi adds the signed immediate, andi, ori and xori take it unsigned, the shifts shift by 0 to 63,
movi writes the signed immediate, movk replaces one halfword of rd and keeps the other 48 bits. -/
def Obligations.ImmediateWordsFollowTheirRules : Prop :=
  (∀ (d a : BitVec 5) (i : BitVec 16),
    decodeWord .seq (0x01#6 ++ d ++ a ++ i) = .ok (.addi d a i) ∧
    decodeWord .seq (0x02#6 ++ d ++ a ++ i) = .ok (.andi d a i) ∧
    decodeWord .seq (0x03#6 ++ d ++ a ++ i) = .ok (.ori d a i) ∧
    decodeWord .seq (0x04#6 ++ d ++ a ++ i) = .ok (.xori d a i) ∧
    (∀ (op : BitVec 8) (z : BitVec 2) (h : BitVec 6), decodeWord .seq (0x05#6 ++ d ++ a ++ op ++ z ++ h) =
      if z ≠ 0#2 then .error .opcode else if op = 0#8 then .ok (.slli d a h) else if op = 1#8 then .ok (.srli d a h)
      else if op = 2#8 then .ok (.srai d a h) else if op = 3#8 then .ok (.rori d a h) else .error .opcode) ∧
    decodeWord .seq (0x06#6 ++ d ++ a ++ i) = (if a = 0#5 then .ok (.movi d i) else .error .field) ∧
    (∀ (z : BitVec 3) (h : BitVec 2),
      decodeWord .seq (0x07#6 ++ d ++ z ++ h ++ i) = if z = 0#3 then .ok (.movk d h i) else .error .field)) ∧
  ∀ (s : State) (d a : BitVec 5) (i : BitVec 16) (h : BitVec 6) (w : BitVec 2),
    let x := s.g a
    let n := h.toNat
    GivesReg (.addi d a i) s d (BitVec.ofInt 64 (x.toInt + i.toInt)) ∧
    GivesReg (.andi d a i) s d (x &&& BitVec.ofNat 64 i.toNat) ∧
    GivesReg (.ori d a i) s d (x ||| BitVec.ofNat 64 i.toNat) ∧
    GivesReg (.xori d a i) s d (x ^^^ BitVec.ofNat 64 i.toNat) ∧
    GivesReg (.slli d a h) s d (BitVec.ofNat 64 (x.toNat * 2 ^ n)) ∧
    GivesReg (.srli d a h) s d (BitVec.ofNat 64 (x.toNat / 2 ^ n)) ∧
    GivesReg (.srai d a h) s d (BitVec.ofInt 64 (x.toInt / 2 ^ n)) ∧
    GivesReg (.rori d a h) s d (BitVec.ofNat 64 (x.toNat / 2 ^ n + x.toNat % 2 ^ n * 2 ^ (64 - n))) ∧
    GivesReg (.movi d i) s d (BitVec.ofInt 64 i.toInt) ∧
    (∃ v, GivesReg (.movk d w i) s d v ∧ ∀ j, j < 64 →
      v.getLsbD j = if j / 16 = w.toNat then i.getLsbD (j % 16) else (s.g d).getLsbD j)

/-- The bit counts, reversals and bit fields of R117 to R119, bit by bit, with their encodings and fates. popc counts ones; clz and
ctz count the zeros above the highest and below the lowest one, 64 for 0; brev and bswap reverse bits and bytes. bfx takes a field,
reading zeros above bit 63, bfxs sign-extends it from its bit width - 1 and gives 0 for width 0, bfi replaces bits of rd and drops
what would land above bit 63. A width above 64, op 3 and a set bit 13 are unassigned. All else is as for the integer words. -/
def Obligations.BitWordsFollowTheirRules : Prop :=
  (∀ (d a : BitVec 5) (b : BitVec 5) (m : BitVec 11), decodeWord .seq (0x08#6 ++ d ++ a ++ b ++ m) =
    if b ≠ 0#5 then .error .opcode else if m = 0#11 then .ok (.popc d a) else if m = 1#11 then .ok (.clz d a)
    else if m = 2#11 then .ok (.ctz d a) else if m = 3#11 then .ok (.brev d a) else if m = 4#11 then .ok (.bswap d a)
    else .error .opcode) ∧
  (∀ (d a : BitVec 5) (op : BitVec 2) (z : BitVec 1) (w : BitVec 7) (l : BitVec 6),
    decodeWord .seq (0x09#6 ++ d ++ a ++ op ++ z ++ w ++ l) =
    if op = 3#2 ∨ z = 1#1 then .error .opcode else if 64 < w.toNat then .error .field
    else if op = 0#2 then .ok (.bfx d a w l) else if op = 1#2 then .ok (.bfxs d a w l) else .ok (.bfi d a w l)) ∧
  ∀ (s : State) (d a : BitVec 5),
    let x := s.g a
    GivesReg (.popc d a) s d (BitVec.ofNat 64 ((List.range 64).countP fun j => x.getLsbD j)) ∧
    (∃ n ≤ 64, GivesReg (.clz d a) s d (BitVec.ofNat 64 n) ∧ (∀ j, 64 - n ≤ j → x.getLsbD j = false) ∧
      (n < 64 → x.getLsbD (63 - n) = true)) ∧
    (∃ n ≤ 64, GivesReg (.ctz d a) s d (BitVec.ofNat 64 n) ∧ (∀ j, j < n → x.getLsbD j = false) ∧
      (n < 64 → x.getLsbD n = true)) ∧
    (∃ v, GivesReg (.brev d a) s d v ∧ ∀ j, j < 64 → v.getLsbD j = x.getLsbD (63 - j)) ∧
    (∃ v, GivesReg (.bswap d a) s d v ∧ ∀ j, j < 64 → v.getLsbD j = x.getLsbD (8 * (7 - j / 8) + j % 8)) ∧
    ∀ (w : BitVec 7) (l : BitVec 6), w.toNat ≤ 64 →
      (∃ v, GivesReg (.bfx d a w l) s d v ∧ ∀ j, j < 64 → v.getLsbD j = (decide (j < w.toNat) && x.getLsbD (l.toNat + j))) ∧
      (∃ v, GivesReg (.bfxs d a w l) s d v ∧ ∀ j, j < 64 →
        v.getLsbD j = (decide (w ≠ 0#7) && x.getLsbD (l.toNat + min j (w.toNat - 1)))) ∧
      (∃ v, GivesReg (.bfi d a w l) s d v ∧ ∀ j, j < 64 →
        v.getLsbD j = if l.toNat ≤ j ∧ j < l.toNat + w.toNat then x.getLsbD (j - l.toNat) else (s.g d).getLsbD j)

/-- The compares of R120 and R121, with their encodings. In every state a compare answers a next state in which predicate pD (nothing
for p0) is the truth of the condition on ra and rb, or on ra and the sign-extended immediate; the pc is at the next word; every
register, other predicate, flag, special register and byte of memory is unchanged. Codes 7 to 15 and set reserved bits are
unassigned. -/
def Obligations.ComparesFollowTheirRules : Prop :=
  (∀ (z : BitVec 2) (p : BitVec 3) (a b : BitVec 5) (r : BitVec 7) (c : BitVec 4),
    decodeWord .seq (0x0A#6 ++ z ++ p ++ a ++ b ++ r ++ c) =
      match condOf c with
      | .error e => .error e
      | .ok k => if z = 0#2 ∧ r = 0#7 then .ok (.cmp p a b k) else .error .field) ∧
  (∀ (z : BitVec 2) (p : BitVec 3) (a : BitVec 5) (c : BitVec 4) (i : BitVec 12),
    decodeWord .seq (0x0B#6 ++ z ++ p ++ a ++ c ++ i) =
      match condOf c with
      | .error e => .error e
      | .ok k => if z = 0#2 then .ok (.cmpi p a k i) else .error .field) ∧
  [0#4, 1#4, 2#4, 3#4, 4#4, 5#4, 6#4].map condOf =
    [.ok .eq, .ok .ne, .ok .lt, .ok .ge, .ok .ltu, .ok .geu, .ok .tst] ∧
  (∀ c : BitVec 4, 7 ≤ c.toNat → condOf c = .error .opcode) ∧
  ∀ (s : State) (p : BitVec 3) (a b : BitVec 5) (i : BitVec 12),
    let holds (c : Cond) (x y : Dword) : Bool :=
      match c with
      | .eq => decide (x.toNat = y.toNat)
      | .ne => decide (x.toNat ≠ y.toNat)
      | .lt => decide (x.toInt < y.toInt)
      | .ge => decide (y.toInt ≤ x.toInt)
      | .ltu => decide (x.toNat < y.toNat)
      | .geu => decide (y.toNat ≤ x.toNat)
      | .tst => (List.range 64).any fun j => x.getLsbD j && y.getLsbD j
    (∀ c, GivesPred (.cmp p a b c) s p (holds c (s.g a) (s.g b))) ∧
    (∀ c, GivesPred (.cmpi p a c i) s p (holds c (s.g a) (BitVec.ofInt 64 i.toInt)))

/-- Select and the predicate words (R122). sel writes ra or rb by a predicate; pand, por, pxor and pandn combine two predicates; prd
writes the eight predicates as a number with bit 0 set; pwr sets p1 to p7 from the low byte of ra, p0 staying true. Each answers a
next state in every state and changes nothing else. -/
def Obligations.SelectAndPredicateWords : Prop :=
  ∀ (s : State) (d a b : BitVec 5) (p q r : BitVec 3),
    GivesReg (.sel d a b p) s d (if s.p p then s.g a else s.g b) ∧
    GivesPred (.pand p q r) s p (s.p q && s.p r) ∧
    GivesPred (.por p q r) s p (s.p q || s.p r) ∧
    GivesPred (.pxor p q r) s p (s.p q ^^ s.p r) ∧
    GivesPred (.pandn p q r) s p (s.p q && !s.p r) ∧
    (∃ v, GivesReg (.prd d) s d v ∧ ∀ j, j < 64 →
      v.getLsbD j = (decide (j < 8) && s.p (BitVec.ofNat 3 j))) ∧
    (∃ t n, exec (.pwr a) s = .next t ∧ BlockStep s t n ∧ { n with p := s.blk.p } = after s.blk ∧
      ∀ j : BitVec 3, n.pred j = if j = 0#3 then true else (s.g a).getLsbD j.toNat)

/-- Loads from the own scratchpad (R123 to R125, R38, R2). Where the address ra + sext(off16) is 0x1000_0000_0000_0000 + o with o
a multiple of the size and the access inside the 2 MiB, each load answers a next state: rd holds the bytes there as the block stream
reads them (its own writes still on their way over memory), little-endian, zero- or sign-extended. Its die observes the die of the
scratchpad, which is itself (R66; that a read of the own die observes it is the model's reading of shape S4, log 47); nothing else changes.
Where the stream has no write on its way these bytes are memory's. -/
def Obligations.LoadsReadTheOwnScratchpad : Prop :=
  (∀ (s : State) (d a : BitVec 5) (i : BitVec 16) (o : Nat),
    (s.g a).toInt + i.toInt = 0x1000000000000000 + o →
    let l := 0x200000000000 + s.cur.k.val * 0x200000 + o
    let v (n : Nat) := natOfBytes ((List.range n).map fun j => s.ownByte ⟨s.cur.k.val, s.cur.q.val⟩ (l + j))
    let rd (i : Instr) (x : Dword) : Prop := LoadsReg i s (s.cur.k.val / 192) d x
    (o + 1 ≤ 0x200000 → rd (.ldBz d a i) (BitVec.ofNat 64 (v 1)) ∧
      rd (.ldBs d a i) (BitVec.ofInt 64 (BitVec.ofNat 8 (v 1)).toInt)) ∧
    (o + 2 ≤ 0x200000 → o % 2 = 0 → rd (.ldHz d a i) (BitVec.ofNat 64 (v 2)) ∧
      rd (.ldHs d a i) (BitVec.ofInt 64 (BitVec.ofNat 16 (v 2)).toInt)) ∧
    (o + 4 ≤ 0x200000 → o % 4 = 0 → rd (.ldWz d a i) (BitVec.ofNat 64 (v 4)) ∧
      rd (.ldWs d a i) (BitVec.ofInt 64 (BitVec.ofNat 32 (v 4)).toInt)) ∧
    (o + 8 ≤ 0x200000 → o % 8 = 0 → rd (.ldDz d a i) (BitVec.ofNat 64 (v 8)))) ∧
  ∀ (s : State) (w : Writer) (l : Nat), (∀ x ∈ s.writes, x.by_ ≠ w) → s.ownByte w l = Memory.read s.mem l

/-- Stores to the own scratchpad (R123, R62, R65). Under the address conditions of the loads, each store answers a next state in which
one write of the low bytes of the source register, little-endian, for the stored location is on its way to its home; the pc is at the
next word. No register, flag or special register changes, and every byte of memory reads as before: the write is applied later
(WritesReachTheirHomes). -/
def Obligations.StoresSendOneWrite : Prop :=
  ∀ (s : State) (r a : BitVec 5) (i : BitVec 16) (o : Nat),
    (s.g a).toInt + i.toInt = 0x1000000000000000 + o →
    let k := s.cur.k.val
    let sent (n : Nat) : State := { s with next := s.next + 1, writes := s.writes ++
      [{ id := s.next, by_ := ⟨k, s.cur.q.val⟩, cmd := none, src := k / 192, home := k / 192,
         loc := 0x200000000000 + k * 0x200000 + o,
         data := (List.range n).map fun j => (BitVec.ofNat 8 ((s.g r).toNat / 256 ^ j), 0xFF#8),
         stamp := (s.die (k / 192)).vclk, held := false }] }
    (o + 1 ≤ 0x200000 → ∃ t, exec (.stB r a i) s = .next t ∧ NextWord (sent 1) t) ∧
    (o + 2 ≤ 0x200000 → o % 2 = 0 → ∃ t, exec (.stH r a i) s = .next t ∧ NextWord (sent 2) t) ∧
    (o + 4 ≤ 0x200000 → o % 4 = 0 → ∃ t, exec (.stW r a i) s = .next t ∧ NextWord (sent 4) t) ∧
    (o + 8 ≤ 0x200000 → o % 8 = 0 → ∃ t, exec (.stD r a i) s = .next t ∧ NextWord (sent 8) t)

/-- spillm and fillm on the own scratchpad (R126, R127, R110). One act moves one register (log 89). With the base at
0x1000_0000_0000_0000 + o, o a multiple of 8 and the run inside the 2 MiB, spillm sends one write of 8 bytes of register F + TRPROG to
8 × TRPROG bytes past the base, and fillm loads that register from there (g0 discards), its die observing itself (log 47, the model's reading). While registers are
left TRPROG is one higher and the word keeps its pc and the pipeline; after the last TRPROG is 0 and the pc at the next word. A run that
starts at or past its end moves nothing and completes. Nothing else changes, and no byte of memory changes at this step. -/
def Obligations.SpillAndFillMoveARun : Prop :=
  ∀ (s : State) (f b l : BitVec 5) (o : Nat), f.toNat ≤ l.toNat →
    let k := s.cur.k.val
    let n := l.toNat - f.toNat + 1
    let i := s.blk.trprog.toNat
    let r : BitVec 5 := BitVec.ofNat 5 (f.toNat + i)
    let loc := 0x200000000000 + k * 0x200000 + o + 8 * i
    let next (x : Block) : Block := if n ≤ i + 1 then { after x with trprog := 0#5 } else { x with trprog := BitVec.ofNat 5 (i + 1), busy := true }
    ((s.g b).toNat = 0x1000000000000000 + o → o % 8 = 0 → o + 8 * n ≤ 0x200000 → i < n →
      (∃ t, exec (.spillm f b l) s = .next t ∧ BlockStep { s with next := s.next + 1, writes := s.writes ++
        [⟨s.next, ⟨k, s.cur.q.val⟩, none, k / 192, k / 192, loc,
          (List.range 8).map fun n => (BitVec.ofNat 8 ((s.g r).toNat / 256 ^ n), 0xFF#8), (s.die (k / 192)).vclk, false⟩] } t (next s.blk)) ∧
      (∃ t x, exec (.fillm f b l) s = .next t ∧ BlockStep (s.observe (k / 192) (k / 192)) t (next x) ∧ { x with g := s.blk.g } = s.blk ∧
        ∀ q, x.reg q = if q = r ∧ q ≠ 0#5 then
          BitVec.ofNat 64 (natOfBytes ((List.range 8).map fun m => s.ownByte ⟨k, s.cur.q.val⟩ (loc + m))) else s.blk.reg q)) ∧
    (n ≤ i → ∀ w ∈ [Instr.spillm f b l, .fillm f b l], ∃ t, exec w s = .next t ∧ BlockStep s t { after s.blk with trprog := 0#5 })

/-- Branches and jumps (R104, R128, R129). br and call go to pc + sext(off22) when the predicate differs from neg, else to the next
word; a taken call first puts the next word's address in g31, one not taken writes nothing. jmp, jmpl and ret go to the value that ra had;
jmpl puts the next word's address in rd, discarded for g0. Each answers a next state in every state and changes nothing else. -/
def Obligations.BranchesAndJumps : Prop :=
  ∀ (s : State) (p : BitVec 3) (n : Bool) (o : BitVec 22) (d a : BitVec 5),
    let link (r : BitVec 5) (b : Block) : Prop := (∀ i, b.reg i = if i = r ∧ r ≠ 0#5 then s.blk.pc + 1#64 else s.blk.reg i)
      ∧ { b with g := s.blk.g, pc := s.blk.pc } = s.blk
    let goes (i : Instr) (b : Block) : Prop := ∃ t, exec i s = .next t ∧ BlockStep s t b
    let target := BitVec.ofInt 64 (s.blk.pc.toInt + o.toInt)
    goes (.br p n o) { s.blk with pc := if s.p p = n then s.blk.pc + 1#64 else target } ∧
    (if s.p p = n then goes (.call p n o) (after s.blk)
     else ∃ b, goes (.call p n o) b ∧ link 31#5 b ∧ b.pc = target) ∧
    goes (.jmp a) { s.blk with pc := s.g a } ∧
    (∃ b, goes (.jmpl d a) b ∧ link d b ∧ b.pc = s.g a) ∧
    goes (.ret a) { s.blk with pc := s.g a }

/-- jstart (R130). For an ended stream other than the own one: that stream has g1 holding rb and the pc holding ra and is ready, its
other registers and predicates unchanged, its bit of the done mask is clear, and pD is 1. For a ready, waiting or parked one nothing
but pD := 0 happens. The pc is at the next word and nothing else changes. -/
def Obligations.JstartRestartsAnEndedStream : Prop :=
  ∀ (s : State) (p : BitVec 3) (a b : BitVec 5) (i : Fin 4), i ≠ s.cur.q →
    let x := s.me.q[i.val]
    let q := BitVec.ofNat 2 i.val
    (x.st = .ended → ∃ t n m, exec (.jstart p a b q) s = .next t ∧
      CoreStep s t s.cur.k.val { s.me with q := (s.me.q.set i.val m).set s.cur.q.val n,
                                           job := s.me.job.map fun j => { j with done := j.done &&& ~~~(1#8 <<< i.val) } } ∧
      PredPut s.blk n p true ∧ (∀ r, m.reg r = if r = 1#5 then s.g b else x.reg r) ∧
      { m with g := x.g } = { x with pc := s.g a, st := .ready }) ∧
    (x.st = .ready ∨ x.st = .waiting ∨ x.st = .parked → GivesPred (.jstart p a b q) s p false)

/-- Ends of a block (R94, R132, R133, R15). yield leaves its stream ready at the next word and gives the pipeline to the next ready
stream after it, itself last; where none is ready the pipeline is idle. exit ends its stream (parked while XL, M, V or XS is neither absent nor at its end), sets its done bit,
clears hnd and in a handler TRPROG (R148), keeps the registers and gives the pipeline on; where no stream waits at a rendezvous for it nothing else
changes. -/
def Obligations.YieldAndExitEndTheBlock : Prop :=
  (∀ (s : State), ∃ t, exec .yield s = .next t ∧
    CoreStep s t s.cur.k.val (Core.switch (blkCore s (after s.blk)))) ∧
  (∀ (s : State),
    let bit : Byte := 1#8 <<< s.cur.q.val
    let busy := [s.me.xl.st, s.me.m.st, s.me.v.st, s.me.xs.st].any fun e => e != .absent && e != .ended
    (∀ i < 4, (vget s.me.rdv i {}).mask = 0#8 ∨ (vget s.me.rdv i {}).mask.getLsbD s.cur.q.val = false) →
    ∃ t, exec .exit s = .next t ∧
      CoreStep s t s.cur.k.val (Core.switch { s.me with
        job := s.me.job.map fun j => { j with done := j.done ||| bit },
        q := s.me.q.set s.cur.q.val { after s.blk with hnd := false, trprog := if s.blk.hnd then 0#5 else s.blk.trprog,
                                                       st := if busy then .parked else .ended } })) ∧
  (∀ (c : Core) (i : Fin 4), c.q[i.val].st = .ready →
    (∀ j : Fin 4, (j - c.curq).val ≠ 0 → (j - c.curq).val < (i - c.curq).val → c.q[j.val].st ≠ .ready) → i ≠ c.curq →
    Core.switch c = { c with curq := i, idle := false }) ∧
  (∀ c : Core, (∀ j : Fin 4, j ≠ c.curq → c.q[j.val].st ≠ .ready) →
    Core.switch c = { c with idle := decide (c.q[c.curq.val].st ≠ .ready) })

/-- Tag waits (R134, R135, R23). Where the condition holds at once, twany and twall put TAGS and m in rd and with clr clear those
bits, tffr puts the lowest set index in rd and clears it (64 and no clear for m = 0), the pc is at the next word; bits that a completion sets in
the same clk stay set, but no other clearing wait of that clk sees them (log 39). Where it does not hold, the stream waits with its word and
its mask and the pipeline goes on. Nothing else changes. -/
def Obligations.TagWaits : Prop :=
  ∀ (s : State) (d a : BitVec 5) (c : Bool), s.blk.st = .ready → s.blk.wword = 0#32 → s.blk.wmask = 0#64 → s.blk.answer = none →
    let y := s.me.sys
    let m := s.g a
    let seen (c : Bool) : Dword := if c then y.tags &&& ~~~y.tagsHid else y.tags
    let clear (z : Dword) : Sys := { y with tags := y.tags &&& (~~~z ||| y.tagsNew), tagsHid := y.tagsHid ||| (z &&& y.tagsNew) }
    let done (i : Instr) (v : Dword) (y' : Sys) : Prop := ∃ t b, exec i s = .next t ∧ RegPut s.blk b d v ∧
      CoreStep s t s.cur.k.val { s.me with sys := y', q := s.me.q.set s.cur.q.val b }
    let waits (i : Instr) : Prop := ∃ t w, exec i s = .next t ∧ decodeWord .seq w = .ok i ∧
      CoreStep s t s.cur.k.val (Core.switch (blkCore s
        { s.blk with st := .waiting, wword := w, wmask := m, busy := false }))
    let x := seen c &&& m
    let z := seen true &&& m
    let y' := if c then clear x else y
    (if x ≠ 0#64 ∨ m = 0#64 then done (.twany d a c) x y' else waits (.twany d a c)) ∧
    (if x = m then done (.twall d a c) x y' else waits (.twall d a c)) ∧
    (if m = 0#64 then done (.tffr d a) 64#64 y
     else if z = 0#64 then waits (.tffr d a)
     else ∃ i < 64, z.getLsbD i = true ∧ (∀ j < i, z.getLsbD j = false) ∧ done (.tffr d a) (BitVec.ofNat 64 i) (clear (1#64 <<< i)))

/-- rdv (R131, R24, R25). While a store of the stream is on its way the word holds the pipeline and nothing else happens. Else, where the
mask names the stream and only streams of the job that have not ended and agrees with the mask already pending at the id, the stream is
waiting with the id's mask set and its arrival recorded, and the pipeline goes on; it leaves in an event of its own. Where the mask
leaves the stream out or differs from the pending one the job faults RDV_MISMATCH, and where it alone names a stream that is absent or has
ended, RDV_ABSENT (where both hold the model takes RDV_MISMATCH, log 87). -/
def Obligations.RdvRecordsTheArrival : Prop :=
  ∀ (s : State) (n : Fin 4) (m : BitVec 8) (j : Job), s.me.job = some j →
    let i : Instr := .rdv (BitVec.ofNat 2 n.val) m
    let q := s.cur.q.val
    let stores := ∃ w ∈ s.writes, w.by_ = ⟨s.cur.k.val, q⟩
    let differs := m.getLsbD q = false ∨ (s.me.rdv[n.val].mask ≠ 0#8 ∧ s.me.rdv[n.val].mask ≠ m)
    let absent := m &&& ~~~j.expect ≠ 0#8 ∨ m &&& j.done ≠ 0#8
    (stores → ∃ t, exec i s = .next t ∧ BlockStep s t { s.blk with busy := true }) ∧
    (¬ stores → ¬ differs → ¬ absent → ∃ t w, exec i s = .next t ∧ decodeWord .seq w = .ok i ∧
      CoreStep s t s.cur.k.val
        { Core.switch (blkCore s { s.blk with st := .waiting, wword := w, wmask := 0#64, busy := false }) with
          rdv := s.me.rdv.set n.val ⟨m, s.me.rdv[n.val].arrived ||| (1#8 <<< q)⟩ }) ∧
    (¬ stores → s.me.fault = none → (differs → FaultsJob i s 0x50#8) ∧ (¬ differs → absent → FaultsJob i s 0x51#8))

/-- fence (R136, R63, R66, R67). While a store of the stream is on its way, at core scope and wider, or at package and fabric scope while the
clock lag forbids a release, the fence holds the pipeline at its word and nothing else happens; once it is applied at its home a store is
visible at every scope (that a home accepts a store by applying it is the model's choice, log 86). Otherwise the fence goes to the next word; at
package and fabric scope it releases, eight close markers and the die's own epoch one higher, and then acquires. -/
def Obligations.FenceWaitsThenReleases : Prop :=
  ∀ (s : State) (sc : Scope),
    let d := s.cur.k.val / 192
    let blocked := sc ≠ .stream ∧ ∃ w ∈ s.writes, w.by_ = ⟨s.cur.k.val, s.cur.q.val⟩
    let wide := sc = .package ∨ sc = .fabric
    (blocked ∨ (wide ∧ s.mayRelease d = false) → ∃ t, exec (.fence sc) s = .next t ∧ BlockStep s t { s.blk with busy := true }) ∧
    (¬ blocked → ¬ wide → ∃ t, exec (.fence sc) s = .next t ∧ NextWord s t) ∧
    (¬ blocked → wide → s.mayRelease d = true →
      ∃ t, exec (.fence sc) s = .next t ∧ NextWord ((s.release d).acquire d) t ∧ t.markers.length = s.markers.length + 8 ∧
        (t.die d).vclk[d]? = some (serialMax (vget (s.die d).vclk d 0#48 + 1#48) (vget (s.die d).obs d 0#48)))

/-- xcp (R138, R139, R46). With ra[63:32] zero, the word in ra[31:0] assigned in the transfer map and one that moves data without
tokens, and the queue below 32 entries, the entry joins the core's command queue with the word, rb and the bank formats of now; the
pc is at the next word. With a full queue the state stays. Nothing else changes. A word naming the mode sr, or an xcfg whose source
is not 0, is no such word either (R165, R192). -/
def Obligations.XcpQueuesACommand : Prop :=
  (∀ w : Word, xcpWord w = true → ∃ i, decodeWord .xfer w = .ok i ∧ w.toNat % 16 = 0 ∧
    (∀ t, i ≠ .xtok t) ∧ (∀ g t, i ≠ .xtw g t) ∧ (∀ r m t, i ≠ .xrdv r m t) ∧ (∀ t, i ≠ .xnfy t)) ∧
  (∀ (w : Word) (x : XArgs) (m : RMode), w.toNat % 16 = 0 → decodeWord .xfer w = .ok (.xcpy x m) →
    xcpWord w = decide (m ≠ .sr)) ∧
  (∀ (w : Word) (x : XArgs), w.toNat % 16 = 0 → decodeWord .xfer w = .ok (.xcfg x) → xcpWord w = decide (x.src = 0#4)) ∧
  ∀ (s : State) (a b : BitVec 5), (s.g a).toNat < 2 ^ 32 → xcpWord ((s.g a).setWidth 32) = true →
    (32 ≤ s.me.x.queue.length → exec (.xcp a b) s = .next s) ∧
    (s.me.x.queue.length < 32 → ∃ t, exec (.xcp a b) s = .next t ∧
      CoreStep s t s.cur.k.val { s.me with
        x := { s.me.x with queue := s.me.x.queue ++ [⟨(s.g a).setWidth 32, s.g b, s.cur.q, s.me.sys.bfmt, s.next⟩] },
        q := s.me.q.set s.cur.q.val (after s.blk) })

/-- srd (R96, R97, R141). Each register of R96 reads as its fields, zero-extended, into rd and nothing else changes; JOBST is the
done and expected masks, the volatile range and the stream's index. CYCLE counts clk from the part's bring-up, on every core from the same
clk (log 94), and DTIME is the device time (log 16). -/
def Obligations.SystemRegisterReads : Prop :=
  ∀ (s : State) (d : BitVec 5),
    let y := s.me.sys
    let b := s.blk
    let rd (r : BitVec 11) (n : Nat) : Prop := GivesReg (.srd d r) s d (BitVec.ofNat 64 n)
    rd 0x000#11 (s.module.toNat * 65536 + y.stage.toNat * 4096 + s.cur.k.val / 192 * 256 + s.cur.k.val % 192) ∧
    rd 0x001#11 y.team.toNat ∧ rd 0x002#11 y.func.toNat ∧ rd 0x003#11 y.args.toNat ∧
    rd 0x004#11 (((s.me.job.map fun j => j.done.toNat).getD 0) * 2 ^ 24 + y.expect.toNat * 2 ^ 16 + y.vhi.toNat * 2 ^ 11
      + y.vlo.toNat * 2 ^ 6 + s.cur.q.val) ∧
    rd 0x005#11 y.seed.toNat ∧ rd 0x006#11 y.tags.toNat ∧ rd 0x007#11 (s.dtBase + (s.clk * 10 + 10) / 11) ∧
    rd 0x008#11 (s.clk - s.upAt) ∧ rd 0x009#11 y.lodc.toNat ∧ rd 0x00A#11 (y.rplcX.toNat * 2 ^ 32 + y.rplcM.toNat) ∧
    (∀ i : Fin 4, rd (0x010#11 + BitVec.ofNat 11 i.val) y.flg[i.val].toNat) ∧
    (∀ i : Fin 32, rd (0x020#11 + BitVec.ofNat 11 i.val) y.bfmt[i.val].toNat) ∧
    rd 0x040#11 b.trvec.toNat ∧ rd 0x041#11 (b.hnd.toNat * 2 ^ 16 + b.trsub.toNat * 2 ^ 8 + b.trcause.toNat) ∧
    rd 0x042#11 b.trpc.toNat ∧ rd 0x043#11 b.trinfo.toNat ∧ rd 0x044#11 b.trprog.toNat

/-- swr (R98, R144, R85, R46, R89). TRVEC, TRPC and TRPROG take the low 34, 32 and 5 bits of ra; SEED takes ra and sets the four
generators, each ra xor a constant, or 1 where that is 0; TAGS and a flag register lose the bits written as 1 (bits that are set in the
same clk stay set: the clear applies first, R23, R89); BFMTn takes the low 15 bits. The pc is at the next word and nothing else changes, but
that after a SEED write no word in progress of M or V puts an older generator state back at a hard stop (R86). -/
def Obligations.SystemRegisterWrites : Prop :=
  ∀ (s : State) (a : BitVec 5) (f : Fin 4) (n : Fin 32),
    let v := s.g a
    let y := s.me.sys
    let b := s.blk
    let blk (r : BitVec 11) (b' : Block) : Prop := ∃ t, exec (.swr a r) s = .next t ∧ BlockStep s t (after b')
    let sys (i : Instr) (y' : Sys) : Prop := ∃ t, exec i s = .next t ∧ CoreStep s t s.cur.k.val
      { s.me with sys := y', q := s.me.q.set s.cur.q.val (after b) }
    let gen (x : Dword) : Dword := if v = x then 1#64 else v ^^^ x
    blk 0x040#11 { b with trvec := v.setWidth 34 } ∧
    blk 0x042#11 { b with trpc := v.setWidth 32 } ∧
    blk 0x044#11 { b with trprog := v.setWidth 5 } ∧
    (∃ t, exec (.seedWrite a) s = .next t ∧ CoreStep s t s.cur.k.val
      { Core.keepSeed { s.me with sys := { y with seed := v, gen := #v[gen 0x9E3779B97F4A7C15#64, gen 0xBF58476D1CE4E5B9#64,
          gen 0x94D049BB133111EB#64, gen 0xD6E8FEB86659FD93#64] } } with q := s.me.q.set s.cur.q.val (after b) }) ∧
    (∀ c : Core, (∀ o ∈ (Core.keepSeed c).m.outst ++ (Core.keepSeed c).v.outst ++ (Core.keepSeed c).mx.outst, o.undo.gen = none) ∧
      (Core.keepSeed c).sys = c.sys ∧ (Core.keepSeed c).q = c.q) ∧
    sys (.tagsClear a) { y with tags := y.tags &&& (~~~v ||| y.tagsNew) } ∧
    sys (.flagsClear a (BitVec.ofNat 2 f.val)) { y with flg := y.flg.set f.val (y.flg[f.val] &&& (~~~(v.setWidth 8) ||| y.flgNew[f.val])) } ∧
    sys (.bfmtWrite a (BitVec.ofNat 5 n.val)) { y with bfmt := y.bfmt.set n.val (v.setWidth 15) }

/-- Energy charged and read (R111, R140, R262, R264). At issue an instruction charges the rate of its class in the charge table times the core's
calibration factor to the core's meters of function and job and to the function's total and window; here the integer words of class 0 and the multiplies of
class 1. mrd answers in every state: it puts in rd the whole pJ charged on this core to the function or to the job, or the µJ left of the window's quota,
its own charge included; nothing else changes. -/
def Obligations.EnergyIsChargedAndRead : Prop :=
  (∀ (s : State) (d : BitVec 5),
    (∃ t, exec (.mrd d .func) s = .next t ∧ PutsReg s t d (BitVec.ofNat 64 (t.me.meterFunc / 2 ^ 22))) ∧
    (∃ t, exec (.mrd d .job) s = .next t ∧ PutsReg s t d (BitVec.ofNat 64 (t.me.meterJob / 2 ^ 22))) ∧
    (∃ t, exec (.mrd d .quota) s = .next t ∧
      let r := t.func t.me.funcOf
      PutsReg s t d (BitVec.ofInt 64 (r.quotaNow - (r.spent / (2 ^ 22 * 1000000) : Nat) + r.debt)))) ∧
  ∀ (s : State) (d a b : BitVec 5) (j : Job), s.me.job = some j →
    let x := s.rate 0 0 15 * s.calib s.cur.k.val
    let r := s.func j.func
    let charged (i : Instr) (x : Nat) : Prop := ∃ t, exec i s = .next t ∧
      t.me.meterFunc = s.me.meterFunc + x ∧ t.me.meterJob = s.me.meterJob + x ∧
      (t.func j.func).total = r.total + x ∧ (t.func j.func).spent = r.spent + x ∧
      (∀ f, f ≠ j.func → t.func f = s.func f) ∧ t.commons = s.commons
    charged (.add d a b) x ∧
    charged (.mul d a b) (s.rate 0 1 15 * s.calib s.cur.k.val) ∧
    GivesReg (.mrd d .func) s d (BitVec.ofNat 64 ((s.me.meterFunc + x) / 2 ^ 22)) ∧
    GivesReg (.mrd d .job) s d (BitVec.ofNat 64 ((s.me.meterJob + x) / 2 ^ 22)) ∧
    GivesReg (.mrd d .quota) s d (BitVec.ofInt 64 (r.quotaNow - ((r.spent + x) / (2 ^ 22 * 1000000) : Nat) + r.debt))

/-- Trap delivery to a handler (R147, R145, R142, R106, R107, R98, R143, R130, R138). With a handler installed and not running, each
of these traps puts cause, sub-code and information in the trap registers and the pc in TRPC, sets hnd, continues at TRVEC's address
and ends the block: a software trap, an unassigned word, a fetch outside the section, srd and swr of every number that has no such access,
eret outside a handler, jstart of the own or of an absent stream, xcp of a word that is no command. No general register, predicate,
other register or byte of memory changes. -/
def Obligations.TrapsGoToTheHandler : Prop :=
  ∀ (s : State) (a b d : BitVec 5) (p : BitVec 3), s.blk.trvec.getLsbD 32 = true → s.blk.hnd = false →
    let traps (i : Instr) (cause sub : Byte) (info : Nat) : Prop := ∃ t, exec i s = .next t ∧
      CoreStep s t s.cur.k.val (Core.switch (blkCore s
        { s.blk with trcause := cause, trsub := sub, trinfo := BitVec.ofNat 64 info, trpc := BitVec.ofNat 32 s.blk.pc.toNat,
                     hnd := true, pc := BitVec.ofNat 64 (s.blk.trvec.toNat % 2 ^ 32), busy := false }))
    (∀ c, traps (.trap c) 0x02#8 0x00#8 c.toNat) ∧
    (∀ w, traps (.unassignedEncoding w) 0x01#8 0x00#8 w.toNat) ∧
    (s.cur.st.opMap = .seq → traps .fetchRangeError 0x01#8 0x01#8 s.blk.pc.toNat) ∧
    (∀ r : BitVec 11, (0x00A < r.toNat ∧ r.toNat < 0x010) ∨ (0x013 < r.toNat ∧ r.toNat < 0x020) ∨ 0x044 < r.toNat →
      traps (.srd d r) 0x01#8 0x02#8 r.toNat) ∧
    (∀ r : BitVec 11, r.toNat ∉ [5, 6, 0x010, 0x011, 0x012, 0x013, 0x040, 0x042, 0x044] → ¬ (0x020 ≤ r.toNat ∧ r.toNat < 0x040) →
      decodeWord .seq (0x2A#6 ++ 0#5 ++ a ++ 0#5 ++ r) = .ok (.swr a r) ∧ traps (.swr a r) 0x01#8 0x02#8 r.toNat) ∧
    traps .eret 0x01#8 0x03#8 0 ∧
    (∀ q : Fin 4, q = s.cur.q ∨ s.me.q[q.val].st = .absent →
      traps (.jstart p a b (BitVec.ofNat 2 q.val)) 0x01#8 0x04#8 q.val) ∧
    (2 ^ 32 ≤ (s.g a).toNat ∨ xcpWord ((s.g a).setWidth 32) = false → traps (.xcp a b) 0x01#8 0x05#8 (s.g a).toNat)

/-- Memory traps of loads and stores (R39, R58, R123, R124, R147, R109). At an address ra + sext(off16), a space code of 5 or more or
the accumulator and stage spaces give ADDR_SPACE, a set must-be-zero bit or an end past the own scratchpad ADDR_RANGE, a misaligned own-scratchpad
access MISALIGN; each is delivered to an installed handler with the address in TRINFO, and no register and no byte of memory
changes. -/
def Obligations.LoadsAndStoresTrapOnBadAddresses : Prop :=
  ∀ (s : State) (d a : BitVec 5) (i : BitVec 16), s.blk.trvec.getLsbD 32 = true → s.blk.hnd = false →
    let ad : Dword := BitVec.ofInt 64 ((s.g a).toInt + i.toInt)
    let space := ad.toNat / 2 ^ 60
    let mbz := ad.toNat / 2 ^ 48 % 2 ^ 12
    let low := ad.toNat % 2 ^ 48
    ∀ x ∈ [(1, Instr.ldBz d a i), (1, .ldBs d a i), (2, .ldHz d a i), (2, .ldHs d a i), (4, .ldWz d a i), (4, .ldWs d a i),
           (8, .ldDz d a i), (1, .stB d a i), (2, .stH d a i), (4, .stW d a i), (8, .stD d a i)],
      let traps (cause : Byte) : Prop := ∃ t, exec x.2 s = .next t ∧
        CoreStep s t s.cur.k.val (Core.switch (blkCore s
          { s.blk with trcause := cause, trsub := 0#8, trinfo := ad, trpc := BitVec.ofNat 32 s.blk.pc.toNat,
                       hnd := true, pc := BitVec.ofNat 64 (s.blk.trvec.toNat % 2 ^ 32), busy := false }))
      (5 ≤ space → traps 0x10#8) ∧
      (space < 5 → mbz ≠ 0 → traps 0x11#8) ∧
      (space = 3 → mbz = 0 → low % 0x200000 + x.1 ≤ 0x200000 → low < 0x400000 → traps 0x10#8) ∧
      (space = 4 → mbz = 0 → low + x.1 ≤ 0x40000 → traps 0x10#8) ∧
      (space = 1 → mbz = 0 → 0x200000 < low + x.1 → traps 0x11#8) ∧
      (space = 1 → mbz = 0 → low + x.1 ≤ 0x200000 → low % x.1 ≠ 0 → traps 0x12#8)

/-- Traps without a handler (R147, R151). With no handler installed, or in the handler, a software trap, an unassigned word and a
fetch outside the section fault the job: the trap registers and the core's fault record hold cause and information with the stream and its pc, and
hard stops of this core and of the team's other cores follow in the next clk (R155). Nothing else changes. -/
def Obligations.TrapsWithoutAHandlerFaultTheJob : Prop :=
  ∀ (s : State) (j : Job), s.blk.trvec.getLsbD 32 = false ∨ s.blk.hnd = true → s.me.job = some j → s.me.fault = none →
    let k := s.cur.k.val
    let team := ((s.die (k / 192)).teams.find? fun t => t.id == j.team).map fun t => t.cores
    let others := (team.getD []).filter fun i => i != k && (s.core i).job.any fun o => o.team == j.team
    let faults (i : Instr) (cause sub : Byte) (info : Nat) : Prop := ∃ t, exec i s = .next t ∧
      CoreStep (s.later ((k :: others).map fun c => .event (.hardStop (Fin.ofNat 1536 c)))) t k
        { s.me with
          fault := some ⟨cause, BitVec.ofNat 64 info, BitVec.ofNat 8 s.cur.q.val, BitVec.ofNat 32 s.blk.pc.toNat, 0#8⟩,
          q := s.me.q.set s.cur.q.val { s.blk with trcause := cause, trsub := sub, trinfo := BitVec.ofNat 64 info,
                                                   trpc := BitVec.ofNat 32 s.blk.pc.toNat, busy := false } }
    (∀ c, faults (.trap c) 0x02#8 0x00#8 c.toNat) ∧
    (∀ w, faults (.unassignedEncoding w) 0x01#8 0x00#8 w.toNat) ∧
    (s.cur.st.opMap = .seq → faults .fetchRangeError 0x01#8 0x01#8 s.blk.pc.toNat)

/-- Resolvable traps (R147, R149, R52, R53). A load or store whose page the walk does not find (XLATE), or a store to a page that its leaf
(W = 0) or its owner (ro) forbids to write (PERM), with mres 0, no TLB entry, a free fault-queue entry and no event ring, posts one entry with
function, core, stream, job, cause and address to its die's fault queue; the trap registers are set, the stream waits on resolution and the
block ends. No general register, predicate or byte of memory changes. The entry's id, eight times a count plus the die, is the model's reading
(log 70). -/
def Obligations.ResolvableTrapsArePosted : Prop :=
  ∀ (s : State) (d a : BitVec 5) (i : BitVec 16) (j : Job) (va : Nat), s.me.job = some j → s.blk.trvec.getLsbD 33 = false →
    (s.g a).toInt + i.toInt = va → (∀ e ∈ s.me.tlb, ¬ (e.func = j.func ∧ e.vpage = va / 0x10000)) →
    (s.die (s.cur.k.val / 192)).fq.length < 256 → (s.func j.func).ring = none →
    let k := s.cur.k.val
    let x := s.die (k / 192)
    let id := BitVec.ofNat 32 (8 * x.nextEntry.toNat + k / 192)
    let posts (w : Instr) (cause : Byte) : Prop := ∃ t, exec w s = .next t ∧
      (t.die (k / 192)).fq = x.fq ++ [⟨id, j.func, k, BitVec.ofNat 8 s.cur.q.val, j.team, j.rank.toNat, none, cause,
        BitVec.ofNat 64 va, none⟩] ∧
      coreRest (t.core k) = coreRest (Core.switch (blkCore s
        { s.blk with trcause := cause, trsub := 0#8, trinfo := BitVec.ofNat 64 va, trpc := BitVec.ofNat 32 s.blk.pc.toNat,
                     st := .waiting, resol := true, busy := false })) ∧
      (∀ n, n ≠ k → t.core n = s.core n) ∧ (∀ l, Memory.read t.mem l = Memory.read s.mem l)
    let stores : List (Instr × Nat) := [(.stB d a i, 1), (.stH d a i, 2), (.stW d a i, 4), (.stD d a i, 8)]
    (∀ w ∈ [(Instr.ldBz d a i, 1), (.ldBs d a i, 1), (.ldHz d a i, 2), (.ldHs d a i, 2), (.ldWz d a i, 4), (.ldWs d a i, 4),
        (.ldDz d a i, 8)] ++ stores, va + w.2 ≤ 2 ^ 48 → s.walk j.func va = .error 0x13#8 → posts w.1 0x13#8) ∧
    ∀ w ∈ stores, ∀ lf, va + w.2 ≤ 2 ^ 48 → s.walk j.func va = .ok lf →
      let pa := lf.base + va % lf.size
      let r := s.rotOf pa
      (lf.w = false → posts w.1 0x14#8) ∧
      (lf.w = true → s.populated lf.base lf.size = true → isCxl pa = false → r.getLsbD 8 = true → r.getLsbD 10 = false →
        (r.extractLsb' 0 7).toNat = j.func.toNat → r.getLsbD 9 = true → posts w.1 0x14#8)

/-- Return from a handler (R143, R148). eret in a handler continues at TRPC, clears hnd, and keeps TRPROG only if the word at TRPC is a
spillm or a fillm; nothing else changes. -/
def Obligations.EretReturns : Prop :=
  ∀ (s : State), s.blk.hnd = true →
    let w := s.me.code[s.cur.q.val][s.blk.trpc.toNat]?
    let run := ∃ f b l, (w.map (decodeWord .seq) = some (.ok (.spillm f b l)) ∨ w.map (decodeWord .seq) = some (.ok (.fillm f b l)))
    ∃ t n, exec .eret s = .next t ∧ BlockStep s t { s.blk with pc := BitVec.ofNat 64 s.blk.trpc.toNat, hnd := false, trprog := n } ∧
      (run → n = s.blk.trprog) ∧ (¬ run → n = 0#5)

/-- A word that an engine's map does not assign, and a fetch past an engine's section (R165, R190, R276, R297, R300, R356, R358). A word on M
while a nest runs, and either on V while an earlier word is incomplete, waits and nothing happens; otherwise, and at M's fetch past its section
also in a nest, the job faults
with ILLSTEP, hard stops of the job's cores follow in the next clk, and no register, tag, token or byte of memory changes. The information of the
record is free: the spec gives none (log 20). -/
def Obligations.UnassignedEngineWordsFaultTheJob : Prop :=
  ∀ (s : State) (j : Job) (w : Word), s.me.job = some j → s.me.fault = none →
    ∀ i ∈ [Instr.illstep w, .fetchRangeError], s.cur.st.opMap ≠ .seq →
      let waits := (i = .illstep w ∧ s.cur.st = .m ∧ s.me.mx.go = true ∧ s.cur.nest = false) ∨ (s.cur.st = .v ∧ ∃ o ∈ s.me.v.outst, o.done = false)
      (waits → exec i s = .next s) ∧ (¬ waits → FaultsJob i s 0x40#8)

/-- Loads and stores outside the own scratchpad (R39, R47, R48, R52, R53, R66, R123, R124). At a window of a core of the function's partition on the
die, or at a virtual address whose page no cached translation covers and whose walk and checks succeed, with the access aligned: a load answers
rd, holding the bytes of its location little-endian and extended, of HBM4E no poisoned line, and its die has observed the home, its own too (log 47, the model's reading). A store sends one
write of the low bytes to the location. A walk has observed the homes of the entries that it read, and its leaf's translation is cached, in the place that log 13 gives it (the model's choice); the
pc is at the next word and nothing else changes. -/
def Obligations.LoadsAndStoresElsewhere : Prop :=
  ∀ (s : State) (d a : BitVec 5) (i : BitVec 16),
    let k := s.cur.k.val
    let q := s.cur.q.val
    let f := s.me.funcOf
    let ad : Dword := BitVec.ofInt 64 ((s.g a).toInt + i.toInt)
    let va := ad.toNat
    let page := va / 0x10000
    let seen (hs : List Nat) : State := hs.foldl (fun s h => s.observe (k / 192) h) s
    let lands (acc : Access) (n l : Nat) (c : Core) (hs : List Nat) : Prop :=
      (∃ x o, va = 0x2000000000000000 + 0x200000 * x + o ∧ x < 192 ∧ o + n ≤ 0x200000 ∧ o % n = 0 ∧
        192 * (k / 192) + x ∈ s.partCores f (k / 192) ∧ l = 0x200000000000 + (192 * (k / 192) + x) * 0x200000 + o ∧ c = s.me ∧ hs = []) ∨
      (∃ lf w ro, va + n ≤ 2 ^ 48 ∧ l % n = 0 ∧ (∀ e ∈ s.me.tlb, ¬ (e.func = f ∧ e.vpage = page)) ∧ s.walk f va = .ok lf ∧
        s.check f va acc true false = .ok (l, w, ro) ∧ hs = (s.walkReads f va).map homeDie ∧
        c = { s.me with tlb := tlbPut s.me.tlb ⟨f, page, l / 0x10000, w, ro, va / lf.size * (lf.size / 0x10000), lf.size / 0x10000⟩ })
    (∀ x ∈ [(Instr.ldBz d a i, 1, false), (.ldBs d a i, 1, true), (.ldHz d a i, 2, false), (.ldHs d a i, 2, true), (.ldWz d a i, 4, false),
        (.ldWs d a i, 4, true), (.ldDz d a i, 8, false)], ∀ l c hs, lands .read x.2.1 l c hs → (isHbm l = true → s.poisoned l x.2.1 = false) →
      let v := natOfBytes ((List.range x.2.1).map fun j => s.ownByte ⟨k, q⟩ (l + j))
      ∃ t b, exec x.1 s = .next t ∧ RegPut s.blk b d (if x.2.2 then BitVec.ofInt 64 (BitVec.ofNat (8 * x.2.1) v).toInt else BitVec.ofNat 64 v) ∧
        CoreStep (seen (hs ++ [homeDie l])) t k { c with q := c.q.set q b }) ∧
    (∀ x ∈ [(Instr.stB d a i, 1), (.stH d a i, 2), (.stW d a i, 4), (.stD d a i, 8)], ∀ l c hs, lands .write x.2 l c hs →
      ∃ t, exec x.1 s = .next t ∧
        CoreStep ((seen hs).emit ⟨k, q⟩ none l ((List.range x.2).map fun j => (BitVec.ofNat 8 ((s.g d).toNat / 256 ^ j), 0xFF#8))) t k
          { c with q := c.q.set q (after s.blk) })

/-- The catalog words on an entry of the running function (R431 to R433, R416, R417, R412, R426). qpin answers the pin count plus one and
adds a pin; qunpin answers one less and takes one away, and frees a draining entry with its last pin; qevict makes the entry draining, or free
with its version one higher when it has no pins, the handles that depend on it stale, and of a draining one answers the pin count; qstr sends
the entry's 64 bytes to memory and answers its version; qstw folds four words into the statistics, the counts saturating, and answers scount; qcat
registers an image in the lowest free entry, or in the entry that it names, whose pins stay, with its version one higher, the handles that
depend on it stale. In each case the stream waits for its answer, and no other entry, register or byte of memory changes at this step, but that
a read of the operand has been observed (R66, log 47) and that a run knows which entries of its query were evicted. -/
def Obligations.CatalogWordsAnswer : Prop :=
  ∀ (s : State) (rd ra rb : BitVec 5),
    let d := s.cur.k.val / 192
    let p := (s.die d).plan
    let f := s.me.jobFunc
    let e := (s.g rb).toNat
    let x := p.entry e
    (e < 4096 → x.state = 1 ∨ x.state = 2 → x.owner = f →
      (x.state = 1 → x.soft + x.plan < 65535 → ∃ q, EntryPut p q e { x with soft := x.soft + 1 } ∧
        PlanAnswers (.qpin rd rb) s s q (x.soft + x.plan + 1)) ∧
      (0 < x.soft → x.state = 1 ∨ 1 < x.soft + x.plan → ∃ q, EntryPut p q e { x with soft := x.soft - 1 } ∧
        PlanAnswers (.qunpin rd rb) s s q (x.soft + x.plan - 1)) ∧
      (x.soft = 1 → x.plan = 0 → x.state = 2 →
        ∃ q, EntryPut (staleOn p e 1) q e { x with soft := 0, state := 0, version := x.version + 1#32 } ∧
          PlanAnswers (.qunpin rd rb) s s q 0) ∧
      (x.state = 1 → ∃ q, EntryPut ((staleOn p e 5).evicted e) q e
          (if x.soft + x.plan = 0 then { x with state := 0, version := x.version + 1#32 } else { x with state := 2 }) ∧
        PlanAnswers (.qevict rd rb) s s q (x.soft + x.plan)) ∧
      (x.state = 2 → PlanAnswers (.qevict rd rb) s s p (x.soft + x.plan))) ∧
    ∀ (o : Nat), (s.g ra).toNat = 0x1000000000000000 + o →
      (o % 64 = 0 → o + 64 ≤ 0x200000 → e < 4096 → x.state = 1 ∨ x.state = 2 → x.owner = f →
        PlanAnswers (.qstr rd ra rb) s (sendBytes s o x.image) p x.version.toNat) ∧
      (o % 4 = 0 → o + 16 ≤ 0x200000 → e < 4096 → x.state = 1 → x.owner = f → ∀ rst : Bool,
        let w (j : Nat) : Int := (BitVec.ofNat 32 (natOfBytes (ownBytes s (o + 4 * j) 4))).toInt
        let sc := min ((if rst then 0 else x.scount) + (w 1).toNat) (2 ^ 32 - 1)
        let nz := min (min ((if rst then 0 else x.nzc) + (w 0).toNat) (2 ^ 32 - 1)) sc
        let lo : Int := if rst then 32767 else x.emin
        let hi : Int := if rst then -32768 else x.emax
        let sat (v : Int) : Int := max (-32768) (min 32767 v)
        ∃ q, EntryPut p q e { x with scount := sc, nzc := nz, dens := if sc = 0 then 0 else 65535 * nz / sc,
                                     emin := if w 3 ≤ w 2 then min lo (sat (w 3)) else lo,
                                     emax := if w 3 ≤ w 2 then max hi (sat (w 2)) else hi } ∧
          PlanAnswers (.qstw rd ra rb rst) s (s.observe d d) q sc) ∧
      ∀ (n : Nat) (img : Entry), o % 64 = 0 → o + 64 ≤ 0x200000 → catalogImage (ownBytes s o 64) = some img → n < 4096 →
        let y := p.entry n
        (s.g rb = BitVec.allOnes 64 ∧ y.state = 0 ∧ ∀ j < n, (p.entry j).state ≠ 0) ∨ (e = n ∧ (y.state = 0 ∨ (y.state = 1 ∧ y.owner = f))) →
        img.trk = false ∨ p.tracked n < 256 →
        ∃ q, EntryPut (staleOn p n 1) q n { img with
            owner := f, version := y.version + 1#32, soft := if y.state = 0 then 0 else y.soft, plan := if y.state = 0 then 0 else y.plan } ∧
          PlanAnswers (.qcat rd ra rb) s (s.observe d d) q n

/-- The words on a plan handle of the running function (R434 to R439, R411, R419, R429, R435). qsub plans a valid query under its hints, of
which a later one replaces an earlier of its node and kind, and answers a new handle, its slot the lowest free one and its generation the
next; qrun of a handle that is neither stale nor running answers 0 and begins its run: the items of the first node with an item, whose
entries are live, are candidates of the die's dispatch slice; qwait answers the last outcome, or, while the query runs, lists the stream among
those the end will answer; qexpl sends the plan's explanation to memory and answers its length; qhint plans again with the hint and answers
the handle; qinv makes the handle stale, and with can cancels what runs of it, its items that no core runs leaving the slice, and qdrop
removes it, both answering 0. The stream waits, and nothing else changes, but that a read of the operand has been observed (R66, log 47). Each
of these words answers a next state in every state, and touches no other core. -/
def Obligations.HandleWordsAnswer : Prop :=
  (∀ (s : State) (rd ra rb : BitVec 5) (can : Bool),
    ∀ i ∈ [Instr.qsub rd ra rb, .qrun rd ra, .qwait rd ra, .qexpl rd ra rb, .qhint rd ra rb, .qinv rd ra can, .qdrop rd ra],
      ∃ t, exec i s = .next t ∧ ∀ k, k ≠ s.cur.k.val → t.core k = s.core k) ∧
  (∀ (s : State) (rd ra rb : BitVec 5) (h : PHandle) (o : Nat),
    let d := s.cur.k.val / 192
    let p := (s.die d).plan
    let a := (s.g ra).toNat
    let i := a % 1024
    let put (n : PHandle) : State := s.seqCharge.modDie d fun x => { x with plan := p.setHandle i n }
    a < 65536 → a / 1024 ≠ 0 → mget? p.handles i = some h → h.gen = a / 1024 → h.func = s.me.jobFunc →
    let gone : PHandle := { h with stale := if h.stale = 0 then 6 else h.stale }
    (h.run = none → PlanAnswers (.qdrop rd ra) s s { p with handles := mdel p.handles i } 0) ∧
    PlanAnswers (.qinv rd ra false) s s (p.setHandle i gone) 0 ∧
    (let u := (put gone).cancelRun d i
     PlanAnswers (.qinv rd ra true) s u (u.die d).plan 0 ∧
     (∀ y, mget? (u.die d).plan.handles i = some y → y.stale ≠ 0 ∧ ∀ r, y.run = some r → r.cancel = true) ∧
     ∀ r, h.run = some r → ∀ c ∈ (u.die d).cands, ¬ (c.team.plan.isSome = true ∧ c.team.id ∈ r.items)) ∧
    (h.run = none → ∀ w, h.last = some w → PlanAnswers (.qwait rd ra) s s p w.toNat) ∧
    (∀ r, h.run = some r → ∃ t w, exec (.qwait rd ra) s = .next t ∧ decodeWord .seq w = .ok (.qwait rd ra) ∧
      let n := { h with run := some { r with waiters := r.waiters ++ [(s.me.jobTeam, s.me.jobRank, s.cur.q)] } }
      CoreStep (s.modDie d fun x => { x with plan := p.setHandle i n })
        t s.cur.k.val (Core.switch (blkCore s { s.blk with st := .waiting, wword := w, wmask := 0#64, busy := false }))) ∧
    (h.run = none → h.stale = 0 →
      let u := (put { h with run := some { core := s.cur.k.val, team := s.me.jobTeam, node := 0 } }).planAdvance d i 0
      PlanAnswers (.qrun rd ra) s u (u.die d).plan 0 ∧
      ∀ k, h.query.nextNode 0 = some k → (∀ e ∈ h.query.reads k, (p.entry e).state = 1 ∧ (p.entry e).owner = h.func) →
        ∃ l, (u.die d).cands = (s.die d).cands ++ l ∧ l ≠ [] ∧
          ∀ c ∈ l, c.kind = .internal ∧ c.team.func = h.func ∧ ∃ j, c.team.plan = some (i, k, j)) ∧
    ((s.g rb).toNat = 0x1000000000000000 + o → o % 64 = 0 → o + h.explain.length ≤ 0x200000 →
      PlanAnswers (.qexpl rd ra rb) s (sendBytes s o h.explain) p h.explain.length)) ∧
  (∀ (s : State) (rd ra rb : BitVec 5) (h : PHandle) (q : Query) (np : List NodePlan),
    let p := (s.die (s.cur.k.val / 192)).plan
    let b := (s.g rb).toNat
    let hs := addHint h.hints (s.g ra)
    b < 65536 → b / 1024 ≠ 0 → mget? p.handles (b % 1024) = some h → h.gen = b / 1024 → h.func = s.me.jobFunc → h.run = none →
    hs.length ≤ 16 → s.seqCharge.planNew h.query hs = .ok (q, np) →
    PlanAnswers (.qhint rd ra rb) s s (p.setHandle (b % 1024)
      { h with query := q, hints := hs, plan := np, deps := q.deps, tids := planTids np, replans := 0,
               stale := if h.stale = 6 then 6 else 0 }) b) ∧
  (∀ (s : State) (rd ra rb : BitVec 5) (o i : Nat) (hs : List Dword) (q0 q : Query) (np : List NodePlan),
    let d := s.cur.k.val / 192
    let p := (s.die d).plan
    let n := min (natOfBytes (ownBytes s (o + 2) 1)) 64
    let g := mget p.gens i 0 % 63 + 1
    (s.g ra).toNat = 0x1000000000000000 + o → o % 32 = 0 → o + 32 + 32 * n ≤ 0x200000 →
    (s.g rb = 0#64 ∧ hs = []) ∨ (∃ x c, (s.g rb).toNat = 0x1000000000000000 + x ∧ x % 8 = 0 ∧ natOfBytes (ownBytes s x 8) = c ∧ c ≤ 16 ∧
      x + 8 + 8 * c ≤ 0x200000 ∧ hs = (List.range c).map fun j => BitVec.ofNat 64 (natOfBytes (ownBytes s (x + 8 + 8 * j) 8))) →
    i < 1024 → mget? p.handles i = none → (∀ j < i, (mget? p.handles j).isSome) →
    parseQuery (ownBytes s o (32 + 32 * n)) = .ok q0 → (s.seqCharge.observe d d).planNew q0 hs = .ok (q, np) →
    let n : PHandle := { func := s.me.jobFunc, gen := g, query := q, hints := hs.foldl addHint [], plan := np, deps := q.deps, tids := planTids np }
    PlanAnswers (.qsub rd ra rb) s (s.observe d d) { p.setHandle i n with gens := mset p.gens i g } (1024 * g + i))

/-- The template words, and what the plan engine refuses (R440, R427, R429, R431 to R433, R436, R438). qtld of a valid record whose id the
function has not loaded takes the lowest free slot and answers it; qtdrop removes a template of the function, answers its slot, and makes the
function's handles that use it stale. A catalog word on an entry number past 4,095 is refused MALFORMED, on a free or foreign entry NOT_OWNER, on
a draining one BUSY; the words that a state of their operand forbids answer BUSY, FULL, DUPLICATE, PINS or IDLE. A handle word on what is
no handle, its generation included, raises PLAN with sub-code DROPPED (qdrop answers 0 instead), on another function's handle FOREIGN, and qrun of
a stale one with its reason, delivered to the installed handler. Each of these words answers a next state in every state, and touches no other core.
That a read of the own scratchpad has been observed is log 47 (the model's reading). -/
def Obligations.TemplatesRefusalsAndPlanTraps : Prop :=
  ∀ (s : State) (rd ra rb : BitVec 5),
    let d := s.cur.k.val / 192
    let p := (s.die d).plan
    let f := s.me.jobFunc
    let refuses (i : Instr) (u : State) (code : Nat) : Prop := PlanAnswers i s u p (2 ^ 63 + 256 * 255 + code)
    (∀ i ∈ [Instr.qtld rd ra, .qtdrop rd rb, .qcat rd ra rb, .qpin rd rb, .qunpin rd rb, .qevict rd rb, .qstr rd ra rb, .qstw rd ra rb true, .qstw rd ra rb false],
      ∃ t, exec i s = .next t ∧ ∀ k, k ≠ s.cur.k.val → t.core k = s.core k) ∧
    (∀ (o : Nat), (s.g ra).toNat = 0x1000000000000000 + o → o % 64 = 0 → o + 64 ≤ 0x200000 →
      (∀ x, templateOf f (ownBytes s o 64) = some x →
        let same := ∃ e ∈ p.templates, e.2.func = x.func ∧ e.2.tid = x.tid
        (same → refuses (.qtld rd ra) (s.observe d d) 8) ∧
        (¬ same → (∀ j < 256, (mget? p.templates j).isSome) → refuses (.qtld rd ra) (s.observe d d) 3) ∧
        (¬ same → ∀ i < 256, mget? p.templates i = none → (∀ j < i, (mget? p.templates j).isSome) →
          PlanAnswers (.qtld rd ra) s (s.observe d d) { p with templates := mset p.templates i x } i)) ∧
      (templateOf f (ownBytes s o 64) = none → refuses (.qtld rd ra) (s.observe d d) 1) ∧
      (catalogImage (ownBytes s o 64) = none → refuses (.qcat rd ra rb) (s.observe d d) 1) ∧
      ∀ img, catalogImage (ownBytes s o 64) = some img →
        let n := (s.g rb).toNat
        let y := p.entry n
        let cat (code : Nat) : Prop := refuses (.qcat rd ra rb) (s.observe d d) code
        (s.g rb = BitVec.allOnes 64 → (∀ j < 4096, (p.entry j).state ≠ 0) → cat 3) ∧
        (s.g rb ≠ BitVec.allOnes 64 → 4096 ≤ n → cat 1) ∧
        (n < 4096 → y.state ≠ 0 → y.owner ≠ f → cat 2) ∧
        (n < 4096 → y.state = 2 → y.owner = f → cat 4) ∧
        (n < 4096 → y.state = 0 ∨ (y.state = 1 ∧ y.owner = f) → img.trk = true → 256 ≤ p.tracked n → cat 3)) ∧
    (∀ (i : Nat) (x : Template),
      (p.templates.find? fun e => e.2.func == f && e.2.tid == (s.g rb).toNat) = some (i, x) →
      let hs := p.handles.map fun h =>
        (h.1, if h.2.stale = 0 ∧ h.2.func = f ∧ x.tid ∈ h.2.tids then { h.2 with stale := 3 } else h.2)
      PlanAnswers (.qtdrop rd rb) s s { p with templates := mdel p.templates i, handles := hs } i) ∧
    ((∀ e ∈ p.templates, ¬ (e.2.func = f ∧ e.2.tid = (s.g rb).toNat)) → refuses (.qtdrop rd rb) s 2) ∧
    (let e := (s.g rb).toNat
     let x := p.entry e
     (∀ i ∈ [Instr.qpin rd rb, .qunpin rd rb, .qevict rd rb, .qstr rd ra rb, .qstw rd ra rb true, .qstw rd ra rb false],
       (4096 ≤ e → refuses i s 1) ∧ (e < 4096 → x.state = 0 ∨ x.owner ≠ f → refuses i s 2)) ∧
     (e < 4096 → x.owner = f →
       (x.state = 2 → ∀ i ∈ [Instr.qpin rd rb, .qstw rd ra rb true, .qstw rd ra rb false], refuses i s 4) ∧
       (x.state = 1 → 65535 ≤ x.soft + x.plan → refuses (.qpin rd rb) s 9) ∧
       (x.state ≠ 0 → x.soft = 0 → refuses (.qunpin rd rb) s 9))) ∧
    (∀ h, (s.g ra).toNat < 65536 → (s.g ra).toNat / 1024 ≠ 0 → mget? p.handles ((s.g ra).toNat % 1024) = some h →
      h.gen = (s.g ra).toNat / 1024 → h.func = f →
      (h.run.isSome = true → h.stale = 0 → refuses (.qrun rd ra) s 4) ∧
      (h.run.isSome = true → refuses (.qdrop rd ra) s 4 ∧ refuses (.qhint rd rb ra) s 4) ∧
      (h.run = none → h.last = none → refuses (.qwait rd ra) s 10) ∧
      (h.run = none → 16 < (addHint h.hints (s.g rb)).length → refuses (.qhint rd rb ra) s 3)) ∧
    (let v := s.g ra
     let slot := mget? p.handles (v.toNat % 1024)
     let dead := 65536 ≤ v.toNat ∨ slot = none ∨ ∃ h, slot = some h ∧ h.func = f ∧ (v.toNat / 1024 = 0 ∨ h.gen ≠ v.toNat / 1024)
     let foreign := v.toNat < 65536 ∧ ∃ h, slot = some h ∧ h.func ≠ f
     (dead → PlanAnswers (.qdrop rd ra) s s p 0) ∧
     (s.blk.trvec.getLsbD 32 = true → s.blk.hnd = false →
      let traps (i : Instr) (sub : Nat) : Prop := ∃ t, exec i s = .next t ∧
        CoreStep s t s.cur.k.val (Core.switch (blkCore s
          { s.blk with trcause := 0x20#8, trsub := BitVec.ofNat 8 sub, trinfo := v, trpc := BitVec.ofNat 32 s.blk.pc.toNat,
                       hnd := true, pc := BitVec.ofNat 64 (s.blk.trvec.toNat % 2 ^ 32), busy := false }))
      (∀ i ∈ [Instr.qrun rd ra, .qwait rd ra, .qexpl rd ra rb, .qhint rd rb ra, .qinv rd ra true, .qinv rd ra false],
        (dead → traps i 6) ∧ (foreign → traps i 7)) ∧
      (foreign → traps (.qdrop rd ra) 7) ∧
      (∀ h, slot = some h → v.toNat < 65536 → v.toNat / 1024 ≠ 0 → h.gen = v.toNat / 1024 → h.func = f → h.stale ≠ 0 →
        traps (.qrun rd ra) h.stale)))
/-- The transfer words issue (R159, R160, R162, R163, R179, R187, R190, R192 to R207). In XL or XS, or from the command queue, with no command
of the core in flight, no bank or tile held, the tokens that a stream's word names available and its sets, formats and shapes passing the checks of its
entry, each transfer word answers a next state: one command is in flight with the word, the three sets as they stood, the bank formats of
now or of the queue entry, its operand, and the next sequence number; each set it names is advanced (xcfg advances its source alone, and none from
the queue); a stream's tokens are popped and reserved and the stream is at its next word, the queue's entry is gone. A generator moves only under sr. Block streams, flags, tags, other units and every byte of memory stay: the data move when the
command performs its accesses, which is a later act (R65). -/
def Obligations.TransferWordsIssue : Prop :=
  ∀ (s : State) (x : XArgs) (m : RMode) (k ret det : Bool),
    ∀ i ∈ [Instr.xcpy x m, .xgat x m, .xsct x m, .xfil x m, .xmcs x m, .xpf x, .xwb x, .xput x, .xget x, .selk x k, .xcfg x,
           .acwAdd32 x ret det, .acwAdd64 x ret det, .acwAddf x ret det, .acwMax32 x ret det, .acwMax64 x ret det,
           .acwMaxf x ret det, .acwMin32 x ret det, .acwMin64 x ret det, .acwMinf x ret det, .acwAnd32 x ret det,
           .acwAnd64 x ret det, .acwOr32 x ret det, .acwOr64 x ret det, .acwXchg32 x ret det, .acwXchg64 x ret det,
           .cmb x, .xrcl x],
    ∀ o, xopOf i = some o → i.wf = true →
    s.cur.st = .xl ∨ s.cur.st = .xs → s.me.x.cmds = [] → s.me.m.outst = [] → s.me.v.outst = [] → s.me.mx.outst = [] →
    let queue := s.cur.entry.isSome
    queue = true ∨ s.me.tokensOk s.cur.st x.tok = true →
    let set (n : BitVec 4) := s.me.x.sets[n.toNat]
    let bf := (s.cur.entry.map fun e => e.bf).getD s.me.sys.bfmt
    let operand := s.cur.entry.map fun e => e.operand
    checkOp o bf (setOf (set x.src)) (setOf (set x.dst)) (setOf (set o.pair)) operand = .ok () →
    ∃ t c cmd, exec i s = .next t ∧ CoreStep s t s.cur.k.val c ∧
      c.x.cmds = [cmd] ∧ decodeWord .xfer cmd.word = .ok i ∧ cmd.st = .issued ∧ cmd.progress = 0 ∧
      cmd.s = set x.src ∧ cmd.d = set x.dst ∧ cmd.p = set o.pair ∧ cmd.bf = bf ∧ cmd.operand = operand.getD 0#64 ∧
      cmd.src = (if queue then .queue else if s.cur.st = .xs then .xs else .xl) ∧
      (∀ j : Fin 3, cmd.src.code = j.val → cmd.seq = s.me.x.seq[j.val] ∧
        c.x.seq = s.me.x.seq.set j.val (s.me.x.seq[j.val] + 1#64)) ∧
      (∀ n : Fin 16, c.x.sets[n.val] =
        if BitVec.ofNat 4 n.val ∈ (match i with
          | .xcfg _ => if queue then [] else [x.src]
          | _ => o.sets queue) then advance s.me.x.sets[n.val] else s.me.x.sets[n.val]) ∧
      (if queue then c.fifo = s.me.fifo ∧ c.eng s.cur.st = s.me.eng s.cur.st
       else c.fifo = (s.me.takeTokens s.cur.st x.tok).fifo ∧ (c.eng s.cur.st).pc = (s.me.eng s.cur.st).pc + 1#32 ∧
         (c.eng s.cur.st).st = (s.me.eng s.cur.st).st) ∧
      c.sys = { s.me.sys with gen := c.sys.gen } ∧ (m ≠ .sr → c.sys.gen = s.me.sys.gen) ∧
      { c with x := s.me.x, fifo := s.me.fifo, sys := s.me.sys, next := s.me.next, xl := s.me.xl, xs := s.me.xs } = s.me ∧
      c.x.queue = if queue then s.me.x.queue.drop 1 else s.me.x.queue

/-- What holds a transfer word back, and what faults it (R159, R19, R161, R181, R183, R151). With 16 commands of its stream in flight, a token it
would pop or put not to be had, or a command of its stream waiting on resolution before a release or a push, a word of XL or XS stays where it
is and nothing changes; so it does behind an xcfg of its stream that is to load a set it names (R203). Where it would issue but a set it
names, its pair included and for xcfg the source alone, is not valid, the job faults with XSET and hard stops of the job's cores follow in the next
clk; no set, tag, token or byte of memory changes. -/
def Obligations.TransferWordsStallOrFault : Prop :=
  ∀ (s : State) (x : XArgs) (m : RMode) (k ret det : Bool) (j : Job),
    ∀ i ∈ [Instr.xcpy x m, .xgat x m, .xsct x m, .xfil x m, .xmcs x m, .xpf x, .xwb x, .xput x, .xget x, .selk x k, .xcfg x,
           .acwAdd32 x ret det, .acwAdd64 x ret det, .acwAddf x ret det, .acwMax32 x ret det, .acwMax64 x ret det,
           .acwMaxf x ret det, .acwMin32 x ret det, .acwMin64 x ret det, .acwMinf x ret det, .acwAnd32 x ret det,
           .acwAnd64 x ret det, .acwOr32 x ret det, .acwOr64 x ret det, .acwXchg32 x ret det, .acwXchg64 x ret det,
           .cmb x, .xrcl x], ∀ o, xopOf i = some o →
    s.cur.st = .xl ∨ s.cur.st = .xs → s.cur.entry = none →
    let mine := s.me.x.cmds.filter fun c => c.src == (if s.cur.st = .xs then .xs else .xl)
    let named : List (BitVec 4) := match i with
      | .xcfg _ => [x.src]
      | _ => o.sets false
    (16 ≤ mine.length ∨ s.me.tokensOk s.cur.st x.tok = false ∨ ((x.rel = true ∨ x.tok.push ≠ 0#2) ∧ ∃ c ∈ mine, c.st = .resolution) ∨
        (∃ c ∈ mine, ∃ y, decodeWord .xfer c.word = .ok (.xcfg y) ∧ y.dst ∈ o.sets false) →
      exec i s = .next s) ∧
    (s.me.x.cmds = [] → s.me.tokensOk s.cur.st x.tok = true → s.me.job = some j → s.me.fault = none →
      (∃ n ∈ named, (setOf s.me.x.sets[n.toNat]).valid = false) → FaultsJob i s cXSET)

/-- Token-only and tag-wait words (R16 to R20, R181, R208, R209, R302, R350, R368). Where the tokens that its fields name can be had, and in a
transfer stream no command of the stream waits on resolution before a push, xtok, mtok and vtok complete, and xtw does once TAGS holds its
tag. With no earlier word of the stream outstanding each pops one token from the FIFO of its pop field and puts one, visible from the next clk on, into
that of its push field, and the stream, or the nest that runs an mtok, goes to its next word; behind earlier words each does the same but for its own token,
which the order of the stream may hold back; no tag changes. Otherwise the state stays.
Nothing else changes, but vtok with a pop drops what V's ports have fetched ahead, and M, with a pop, has acquired what other streams wrote
(R21, R274: it reads the die window anew). -/
def Obligations.TokenWords : Prop :=
  ∀ (s : State) (t : Tok) (g : BitVec 6), t.xwf = true ∨ s.cur.st = .m ∨ s.cur.st = .v →
    let st := s.cur.st
    let c := s.me
    let moved (n : Nat) : Fifo :=
      let x := vget c.fifo n {}
      let pop := if popFifo st t.pop = some n then 1 else 0
      let push := if pushFifo st t.push = some n then 1 else 0
      ⟨x.count - pop + push, x.reserved, x.shown + push, x.freed + pop⟩
    let acq : Matrix := { c.mx with synced := c.mx.synced || (decide (st = .m) && t.pop != 0#2) }
    let held := t.push ≠ 0#2 ∧ ∃ e ∈ c.x.cmds, e.st = .resolution ∧ (e.src = .xl ∧ st = .xl ∨ e.src = .xs ∧ st = .xs)
    let served := c.tokensOk st t = true ∧ ¬ held
    let gives (i : Instr) (drop : Bool) : Prop := ∃ u d, exec i s = .next u ∧ CoreStep s u s.cur.k.val d ∧
      (∀ n < 10, vget d.fifo n {} = moved n) ∧
      (d.eng st).pc = (c.eng st).pc + 1#32 ∧ (d.eng st).st = (c.eng st).st ∧ (d.eng st).outst = [] ∧
      { d with fifo := c.fifo, xl := c.xl, m := c.m, v := c.v, xs := c.xs, next := c.next, vx := c.vx } = { c with mx := acq } ∧
      d.vx = if drop then { c.vx with ports := c.vx.ports.map fun p => p.map fun y => { y with buf := [] } } else c.vx
    (served → s.cur.nest = false → (c.eng st).outst = [] → (st = .m → c.mx.outst = []) →
      (st = .xl ∨ st = .xs → gives (.xtok t) false ∧ (c.sys.tags.getLsbD g.toNat = true → gives (.xtw g t) false)) ∧
      (st = .m → gives (.mtok t) false) ∧ (st = .v → gives (.vtok t) (t.pop != 0#2))) ∧
    (served → s.cur.nest = false → ∀ i, (st = .xl ∨ st = .xs) ∧ (i = .xtok t ∨ i = .xtw g t ∧ c.sys.tags.getLsbD g.toNat = true) ∨
        st = .m ∧ i = .mtok t ∨ st = .v ∧ i = .vtok t →
      ∃ u d, exec i s = .next u ∧ CoreStep s u s.cur.k.val d ∧ (d.eng st).pc = (c.eng st).pc + 1#32 ∧ (d.eng st).st = (c.eng st).st ∧
        (∀ n, popFifo st t.pop = some n → vget d.fifo n {} = { vget c.fifo n {} with count := (vget c.fifo n {}).count - 1, freed := (vget c.fifo n {}).freed + 1 }) ∧
        { d with fifo := c.fifo, xl := c.xl, m := c.m, v := c.v, xs := c.xs, next := c.next, vx := c.vx } = { c with mx := acq }) ∧
    (c.tokensOk st t = true → s.cur.nest = true → st = .m → c.mx.outst = [] → (∀ o ∈ c.m.outst, o.own = true ∧ o.done = false) →
      ∃ u d, exec (.mtok t) s = .next u ∧ CoreStep s u s.cur.k.val d ∧ (∀ n < 10, vget d.fifo n {} = moved n) ∧
        { d with fifo := c.fifo, next := c.next } = { c with mx := { acq with slot := c.mx.slot + 1 } }) ∧
    (¬ served → exec (.xtok t) s = .next s ∧ exec (.xtw g t) s = .next s ∧ (c.tokensOk st t = false →
      exec (.mtok t) s = .next s ∧ exec (.vtok t) s = .next s)) ∧
    (c.sys.tags.getLsbD g.toNat = false → exec (.xtw g t) s = .next s)

/-- Notify and rendezvous words of the engine streams (R24, R26, R210, R211, R306, R307, R372, R373). With its tokens available, no
earlier word of the stream outstanding and, in M, no nest active, xnfy, mnfy or vnfy ends its stream and sets its bit of the done mask, and xrdv, mrdv or vrdv
arrives: the id's mask is the word's, the stream's arrival is recorded, and the stream stands at the rendezvous. No block stream,
register, tag or byte of memory changes; M, with a pop, has acquired what other streams wrote (R274). -/
def Obligations.EngineNotifyAndRendezvous : Prop :=
  ∀ (s : State) (t : Tok) (n : Fin 4) (m : BitVec 8) (j : Job),
    let st := s.cur.st
    let c := s.me
    let bit : Byte := 1#8 <<< streamIx st
    c.job = some j → c.tokensOk st t = true → (c.eng st).outst = [] →
    let kept (d : Core) : Prop := { d with fifo := c.fifo, xl := c.xl, m := c.m, v := c.v, xs := c.xs, next := c.next, vx := c.vx, rdv := c.rdv, job := c.job } = { c with mx := { c.mx with synced := c.mx.synced || (decide (st = .m) && t.pop != 0#2) } }
    let ends (i : Instr) : Prop := (∀ r < 4, (vget c.rdv r {}).mask = 0#8 ∨ (vget c.rdv r {}).mask.getLsbD (streamIx st) = false) →
      ∃ u d, exec i s = .next u ∧ CoreStep s u s.cur.k.val d ∧ (d.eng st).st = .ended ∧ d.rdv = c.rdv ∧
        d.job = some { j with done := j.done ||| bit } ∧ kept d
    let arrives (i : Instr) : Prop := m &&& bit ≠ 0#8 → (c.rdv[n.val].mask = 0#8 ∨ c.rdv[n.val].mask = m) →
      m &&& ~~~j.expect = 0#8 → m &&& j.done = 0#8 → c.rdv[n.val].arrived &&& bit = 0#8 →
      ∃ u d, exec i s = .next u ∧ CoreStep s u s.cur.k.val d ∧ (d.eng st).st = .rendezvous (BitVec.ofNat 2 n.val) m ∧
        d.rdv = c.rdv.set n.val ⟨m, c.rdv[n.val].arrived ||| bit⟩ ∧ d.job = c.job ∧ kept d
    (st = .xl ∨ st = .xs → ends (.xnfy t) ∧ arrives (.xrdv (BitVec.ofNat 2 n.val) m t)) ∧
    (st = .m → c.mx.go = false → ends (.mnfy t) ∧ arrives (.mrdv (BitVec.ofNat 2 n.val) m t)) ∧
    (st = .v → ends (.vnfy t) ∧ arrives (.vrdv (BitVec.ofNat 2 n.val) m t))

/-- Transfer commands perform their accesses (R62, R65, R161, R166, R170, R194 to R198, R200, R203 to R206). When the act is due and nothing before it holds it back, a command all of whose
elements lie aligned in unscaled banks of the own scratchpad, of one format of whole bytes on both sides, moves its elements in walk order: a copy each source element, a fill its value, a gather the rows of its
source that the indices choose, a scatter into the rows of its destination, a multicast into every core it names. What it reads is memory with its
stream's own writes on their way over it (R62). The bytes are put on their way as writes of the command, in that order, for each core of a
multicast; memory is as before until they are applied. An accumulate-on-write sends one update for each element, a combine its row to the
location that its entry's address resolves to, a put its cells to the peer, and xcfg has read its descriptor. The command has performed, with
all its elements done; of a put none is done until its peer has acknowledged it (R187). That one act performs all accesses and sends the writes in
walk order is the model's choice (log 10): R65 lets the reads of a command be performed in any order. -/
def Obligations.TransferCommandsMoveTheirElements : Prop :=
  ∀ (s : State) (k : CoreIx) (rest : List Act) (c : Cmd) (o : XOp), s.due = .perform k c.id :: rest → s.cmd? k.val c.id = some c →
    xopOfWord c.word = some o → c.st = .issued → c.progress = 0 → c.ixs = none → s.performBlocked k.val c = false → (s.core k.val).fault = none →
    o.x.acq = false → o.m ≠ .sr → (∀ b : Fin 32, c.bf[b.val].extractLsb' 13 2 = 0#2) →
    let x := setOf c.s
    let y := setOf c.d
    let z := setOf c.p
    let own (n : Nat) (e : Elem) : Prop := ∃ a, e.addr.toNat = 0x1000000000000000 + a ∧ a + n ≤ 0x200000 ∧ a % n = 0
    let at_ (e : Elem) : Nat := 0x200000000000 + k.val * 0x200000 + (e.addr.toNat - 0x1000000000000000)
    let performs (st : CmdState) (m : Nat) (good : State → Cmd → Prop) : Prop := ∃ t d, step s = .next t ∧ t.mem = s.mem ∧
      t.cmd? k.val c.id = some d ∧ d.st = st ∧ d.progress = m ∧ good t d
    let f := setFmt c.bf y
    let nib := nibbles f
    let n := nib / 2
    let bytes (l v : Nat) : List (Nat × Byte × Byte) := (List.range n).map fun j => (l + j, BitVec.ofNat 8 (v / 256 ^ j), 0xFF#8)
    let sent (ws : List Write) : List (Nat × Byte × Byte) := ws.flatMap fun w => w.data.zipIdx.map fun b => (w.loc + b.2, b.1)
    let sends (m : Nat) (good : List Write → Prop) : Prop := performs .performed m fun t _ => ∃ ws, t.writes = s.writes ++ ws ∧
      (∀ w ∈ ws, w.by_ = c.src.writer k.val ∧ w.cmd = some c.id) ∧ good ws
    let writes (ps : List (Nat × Nat)) : Prop := sends ps.length fun ws => sent ws = ps.flatMap fun p => bytes p.1 p.2
    let value (w : Nat) (e : Elem) : Nat := natOfBytes ((List.range w).map fun j => s.ownByte (c.src.writer k.val) (at_ e + j))
    (2 ≤ nib → setFmt c.bf x = f →
      (o.kind = .copy → (∀ e ∈ x.walk nib, own n e) → (∀ e ∈ y.walk nib, own n e) →
        writes (((y.walk nib).zip (x.walk nib)).map fun e => (at_ e.1, value n e.2))) ∧
      (o.kind = .mcast → (∀ e ∈ x.walk nib, own n e) → (∀ e ∈ y.walk nib, own n e) → ∀ cs, coreSet y.aux = some cs →
        (∀ i ∈ cs, s.windowOk k.val i = true) → sends (((y.walk nib).zip (x.walk nib))).length fun ws =>
          let pad (i : Nat) : Nat := 0x1000000 + 192 * (k.val / 192) + i
          (∀ w ∈ ws, ∃ i ∈ cs, w.loc / 0x200000 = pad i) ∧
          ∀ i ∈ cs, sent (ws.filter fun w => w.loc / 0x200000 == pad i) = ((y.walk nib).zip (x.walk nib)).flatMap fun e =>
            bytes (pad i * 0x200000 + (e.1.addr.toNat - 0x1000000000000000)) (value n e.2)) ∧
      (o.kind = .put → ∀ ctx, (∀ e ∈ x.walk nib, own n e) → y.fmt = f → y.n = x.n → s.netCtx k.val y = some ctx → performs .network 0 fun t _ =>
        t.out = s.out ++ [.put ctx (((y.walk nib).zip (x.walk nib)).map fun e => (e.1.addr, (bytesOfNat n (value n e.2)).map fun b => (b, 0xFF#8)))] ∧ t.writes = s.writes) ∧
      (let fi := setFmt c.bf z
       let ni := nibbles fi / 2
       let is : List Int := (z.walk (nibbles fi)).map fun e => toSigned ((intBits fi).getD 32) (value ni e)
       2 ≤ nibbles fi → (∀ e ∈ z.walk (nibbles fi), own ni e) →
        (o.kind = .gather → (∀ i ∈ is, 0 ≤ i ∧ i < x.c 1) →
          let rows := is.flatMap fun r => (List.range (x.c 0)).map fun i => x.rowElem nib r.toNat i
          (∀ e ∈ rows, own n e) → (∀ e ∈ y.walk nib, own n e) →
          writes (((y.walk nib).zip rows).map fun e => (at_ e.1, value n e.2))) ∧
        (o.kind = .scatter → (∀ i ∈ is, 0 ≤ i ∧ i < y.c 1) →
          let rows := is.flatMap fun r => (List.range (y.c 0)).map fun i => y.rowElem nib r.toNat i
          (∀ e ∈ rows, own n e) → (∀ e ∈ x.walk nib, own n e) →
          writes ((rows.zip (x.walk nib)).map fun e => (at_ e.1, value n e.2))))) ∧
    (o.kind = .fill → 2 ≤ nib → x.fmt = f → (∀ e ∈ y.walk nib, own n e) →
      writes ((y.walk nib).map fun e => (at_ e, x.aux.toNat % 256 ^ n))) ∧
    (∀ op ret, o.kind = .acw op ret false →
      let w := nibbles (acwFmt op)
      let ps := (y.walk w).zip (x.walk w)
      2 ≤ w → (∀ e ∈ x.walk w, own (w / 2) e) → (∀ e ∈ y.walk w, own (w / 2) e) → performs .performed ps.length fun t _ =>
        ∃ us, t.updates = s.updates ++ us ∧ t.writes = s.writes ∧ us.map (fun u => (u.loc, u.v, u.back)) =
          ps.map (fun e => (at_ e.1, value (w / 2) e.2, if ret then some (at_ e.2) else none)) ∧
          ∀ u ∈ us, u.op = op ∧ u.core = k.val ∧ u.ref = s.cmdRef k.val c ∧ u.det = none ∧ u.st = .flying) ∧
    (o.kind = .combine → (∀ e ∈ x.walk 8, own 4 e) → ∀ l u, s.xLocate k.val c y.base 64 .aow = (.ok l, u) → performs .performed x.n fun t _ =>
      ∃ m, t.combines = s.combines ++ [m] ∧ t.writes = s.writes ∧ m.loc = l ∧ m.rank = y.aux.toNat % 8 ∧ m.core = k.val ∧
        m.ref = s.cmdRef k.val c ∧ m.stamp = (u.die (k.val / 192)).vclk ∧ m.row = (x.walk 8).map (value 4)) ∧
    (o.kind = .cfg → ∀ e, e = (if c.src = .queue then c.operand else x.base) → own 64 ⟨e, false⟩ → e.toNat - 0x1000000000000000 + 128 ≤ 0x200000 →
        performs .performed 0 fun t d =>
      t.writes = s.writes ∧ d.new = some (BitVec.ofNat 1024 (value 128 ⟨e, false⟩)))

/-- Nest control (R276, R303 to R305). Outside a nest, with its tokens available: mcfg copies 640 bytes of its own scratchpad into the
shadow, also while a nest is active, and faults MNEST past the end of the scratchpad; mgo, with no nest active, faults MNEST
without a shadow, and with one that fails the checks of R275 with their cause; else it makes the shadow the active table, empties the shadow, samples the bank
formats and sets the go bit; mwait waits while the go bit is set and goes to the next word once it is clear. Nothing else changes, but that M,
with a pop, has acquired what other streams wrote (R21, R274). -/
def Obligations.MatrixControlWords : Prop :=
  ∀ (s : State) (t : Tok), s.cur.nest = false → s.me.tokensOk .m t = true →
    let c := s.me
    let k := s.cur.k.val
    (∀ off : BitVec 15,
      let o := 64 * off.toNat
      let l : Locks := { rd := (1#32 <<< (o / 65536)) ||| (1#32 <<< ((o + 639) / 65536)) }
      (o + 640 ≤ 0x200000 → c.grantable l = true → ∃ u, exec (.mcfg off t) s = .next u ∧ CoreStep s u k
        (({ c with mx := { c.mx with shadow := some (Memory.readN s.mem (0x200000000000 + k * 0x200000 + o) 640) } }).startM false t l false 0#8
          { shadow := some c.mx.shadow, pc := some c.m.pc, pop := popFifo .m t.pop })) ∧
      (0x200000 < o + 640 → c.job.isSome = true → c.fault = none → FaultsJob (.mcfg off t) s cMNEST)) ∧
    (c.mx.go = true → exec (.mgo t) s = .next s ∧ exec (.mwait t) s = .next s) ∧
    (c.mx.go = false → c.mx.shadow = none → c.job.isSome = true → c.fault = none → FaultsJob (.mgo t) s cMNEST) ∧
    (c.mx.go = false → c.job.isSome = true → c.fault = none → ∀ raw e, c.mx.shadow = some raw → tabCheck raw = .error e →
      FaultsJob (.mgo t) s e.1) ∧
    (c.mx.go = false → ∀ raw, c.mx.shadow = some raw → tabCheck raw = .ok () → ∃ u, exec (.mgo t) s = .next u ∧
      let d := c.startM false t {} true
      let y : Matrix := { d.mx with
        active := some raw, shadow := none, bf := c.sys.bfmt, go := true, goId := c.next, phase := .enter 5, slot := 0
        c := Vector.replicate 6 0, n := Vector.replicate 6 0, full := 0, from_ := 0, clamped := false }
      CoreStep s u k { d with mx := y }) ∧
    (c.mx.go = false → c.m.outst = [] → c.mx.outst = [] → ∃ u d, exec (.mwait t) s = .next u ∧ CoreStep s u k d ∧
      d.m = { c.m with pc := c.m.pc + 1#32 } ∧ { d with m := c.m, fifo := c.fifo, next := c.next } = { c with mx := d.mx } ∧
      d.mx = { c.mx with synced := c.mx.synced || t.pop != 0#2 })

/-- mzero and mld (R312, R314). With an active table, and its tokens and locks available, mzero makes every bit of its tile 0, unset with .raw and of
kind FP32 without, er and ec 127. mld takes 64 × 64 elements of a set whose formats pass R270: as the value rounded into FP32, as the
signed integer, or as the residue triple; .add adds it to the tile's element (rne for FP32, saturating for INT32, by channel
for RS24) and keeps the exponents, and without .add er and ec become 127. The kind becomes the word's. The flags of the
roundings and sums are set when the word completes (R89); no other tile, no scratchpad byte and no other state changes, but for what a stop or
a replay puts back. -/
def Obligations.TilesAreZeroedAndLoaded : Prop :=
  ∀ (s : State) (t : BitVec 4) (tk : Tok) (x : MCtx), MemInv s → s.mCtx = .ok x →
    let k := s.cur.k.val
    let loc := 0x400000000000 + k * 0x40000 + 16384 * t.toNat
    (∀ raw : Bool, let l : Locks := { twr := 1#18 <<< t.toNat }
      mReady s tk l → ∃ u, exec (.mzero t raw tk) s = .next u ∧ Wrote s u loc (List.replicate 16384 0#8) ∧
        MemStep s u k (tileCore s t { kind := if raw then 0 else kFP32 } 0#8 tk l)) ∧
    (∀ (set : BitVec 3) (add : Bool) (kd : TileKind) (o : MOper), s.mOper x set = .ok o → s.mFit o (rowStarts o.pitch 64) 64 false = .ok () →
      loadable kd o.fmt = true → (kd = .int32 → s.mScaled o = false) →
      let side := s.me.side t.toNat
      let l : Locks := { rd := s.mLockR o (rowStarts o.pitch 64) 64, twr := 1#18 <<< t.toNat }
      mReady s tk l → (add = true → side.kind = 0 ∨ side.kind = kindCode kd) →
      let side' : TileSide := if add then { side with kind := kindCode kd } else { kind := kindCode kd }
      let gives (f : Nat → Nat → Nat × Byte) : Prop := ∃ u, exec (.mld set t kd add tk) s = .next u ∧
        Wrote s u loc (wordBytes (grid fun i j => (f i j).1)) ∧ MemStep s u k (tileCore s t side' (flagsOf (grid fun i j => (f i j).2)) tk l)
      (kd = .fp32 → ∀ v : Nat → Nat → Val, (∀ i < 64, ∀ j < 64, s.mVal o (i * o.pitch + j) = .ok (v i j)) → gives fun i j =>
        if add then
          let (y, f) := Val.add false (f32 (tileAt s t i j)) (v i j)
          ((rneF32 y).1, f ||| (rneF32 y).2)
        else rneF32 (v i j)) ∧
      (kd ≠ .fp32 → ∀ b : Nat → Nat → Nat, (∀ i < 64, ∀ j < 64, s.mBits o (i * o.pitch + j) = .ok (b i j)) → gives fun i j =>
        let y := if kd = .int32 then ofSigned 32 (toSigned ((intBits o.fmt).getD 32) (b i j)) else rsEncode (rsDecode (b i j))
        if add then treeAdd (kindCode kd) (tileAt s t i j) y else (y, 0#8)))

/-- mst and mrq (R285, R313, R315). With an active table, and its tokens and locks available, mst writes the 64 × 64 elements of its tile to its set's
elements, row by row: the tile's 4 bytes to a raw bank, else converted from the kind to the bank's format under the word's mode with the
bank's scale. mrq writes the tile's element times 2 to its exponents times the row's or tile's FP32 scale, rounded once to its format. SR
draws once for each element that is written (R84), also where nothing is rounded. The tile is left as it is, as is every byte of memory outside the
destination's elements. -/
def Obligations.TilesAreStoredAndRequantised : Prop :=
  ∀ (s : State) (t : BitVec 4) (tk : Tok) (x : MCtx) (m : RMode) (set : BitVec 3) (o : MOper), MemInv s → s.mCtx = .ok x → s.mOper x set = .ok o →
    let k := s.cur.k.val
    let side := s.me.side t.toNat
    let runs := rowStarts o.pitch 64
    let offs : List Nat := grid fun i j => i * o.pitch + j
    let gives (i : Instr) (l : Locks) (f : Nat → Nat → Nat → Except Byte (Nat × Byte)) : Prop :=
      let sr : Bool := decide (m = .sr)
      let ds := if sr then (draws s.me.sys.gen[1] 4096).1 else List.replicate 4096 0
      ∀ y : Nat → Nat → Nat × Byte, (∀ i < 64, ∀ j < 64, f (ds.getD (64 * i + j) 0) i j = .ok (y i j)) →
      (∀ i < 64, ∀ j < 64, ∃ a, s.mLoc o (i * o.pitch + j) = .ok a) → mReady s tk l →
      ∃ u, exec i s = .next u ∧
        (∀ a, (∀ p ∈ offs, ∀ b, s.mLoc o p = .ok b → a < b ∨ b + nibBytes o.nib ≤ a) → Memory.read u.mem a = Memory.read s.mem a) ∧
        u.mem = ((offs.zip (grid y)).foldl (fun n pv =>
          Memory.writeMask n ((s.mLoc o pv.1).toOption.getD 0) (elemBytes (o.at_ pv.1) o.nib pv.2.1)) s.mem) ∧
        let c := tileCore s t side (flagsOf (grid fun i j => (y i j).2)) tk l
        MemStep s u k (if sr then { c with sys := { c.sys with gen := c.sys.gen.set 1 (draws s.me.sys.gen[1] 4096).2 } } else c)
    let scale (p : Nat) : Option Nat := s.mScale o p
    let w := s.mLockW o runs 64
    (∀ kd : TileKind, s.mFit o runs 64 true = .ok () → side.kind = 0 ∨ side.kind = kindCode kd →
      let l : Locks := { rd := s.mLockR o runs 64 &&& ~~~w, wr := w, trd := 1#18 <<< t.toNat }
      (o.fmt = fRAW → o.nib = 8 → gives (.mst set t kd m tk) l fun _ i j => .ok (tileAt s t i j, 0#8)) ∧
      (o.fmt ≠ fRAW → (∀ p ∈ offs, scale p ≠ some 255) → gives (.mst set t kd m tk) l
        fun d i j => convElem (kindFmt kd) o.fmt m d (tileAt s t i j) none (scale (i * o.pitch + j)))) ∧
    (∀ (cs : BitVec 3) (cOp : MOper) (f : BitVec 4) (row : Bool) (sc : Nat → Val), s.mFit o runs 64 false = .ok () → s.mOper x cs = .ok cOp →
      s.mFit cOp [0] (if row then 64 else 1) false = .ok () → f ≠ fRS24 → f ≠ fE8M0 → f ≠ fRAW → f = o.fmt → cOp.fmt = fFP32 → cOp.nib = 8 →
      (∀ i < (if row then 64 else 1), s.mVal cOp i = .ok (sc i)) → (∀ p ∈ offs, scale p ≠ some 255) →
      let l : Locks := { rd := (s.mLockR o runs 64 ||| s.mLockR cOp [0] (if row then 64 else 1)) &&& ~~~w, wr := w, trd := 1#18 <<< t.toNat }
      gives (.mrq set cs t f m row tk) l fun d i j =>
        let e := ((side.er[i]?.getD 0#8).toNat : Int) + (side.ec[j]?.getD 0#8).toNat - 254
        let z := tileAt s t i j
        let v := if side.kind = kINT32 then (Val.ofInt (toSigned 32 z)).scale e
          else if side.kind = kRS24 then (Val.ofInt (rsDecode z)).scale e else f32 z
        let (q, fl) := Val.mul v (sc (if row then i else 0))
        let (y, g) := roundTo f m d (q.scale (127 - (((scale (i * o.pitch + j)).getD 127 : Nat) : Int)))
        .ok (y, fl ||| g))

/-- mma and mmaz of a reduction of one chunk, by a nest or outside (R271, R272, R273, R280, R281, R308, R309). With an active table, its tokens and
locks available, formats that the profile pairs and the tile unset or of the kind they give: element (i, j) of the tile becomes the
chunk result of row i of A and column j of B over K elements, by mma with the tile's element added last and by mmaz without. Under P1 and P2
that is the grouped exact sum with its roundings (groups of 32 in 40 bits, of 8 in 64); under P3 on RS24 the residues of the sum of integer products, on
integers that sum modulo the residue range with the operands' shared scale exponents recorded, or checked by mma on an integer tile (R310). The
tile takes that kind. A B in the die window is read as R273's multicast gives it: as the first of the steps that ask for it within 64 clk read
it, but anew by a step that acquires, or whose M has acquired or stored since that read (R274, log 98). No other
tile, no scratchpad byte and no other state changes, but for that record and what a stop or a replay puts back; the flags are set when the step
completes (R89). -/
def Obligations.MatrixMultiplies : Prop :=
  ∀ (s : State) (a b : BitVec 3) (t : BitVec 4) (p : Profile) (bt z : Bool) (tk : Tok) (n : MmaIn), MemInv s →
    s.mmaIn ⟨a, b, t.toNat, p, bt, z⟩ = .ok n → n.c = 0 → n.n = 1 →
    let k := s.cur.k.val
    let side := s.me.side t.toNat
    let l := s.mmaLocks n ⟨a, b, t.toNat, p, bt, z⟩
    let asked := (s.multicast n bt (tk.pop != 0#2)).1
    let sb := (s.multicast n bt (tk.pop != 0#2)).2.1
    mReady s tk l → side.kind = 0 ∨ side.kind = n.kind → s.me.mx.tree[t.toNat].active = false →
    let i : Instr := if z then .mmaz a b t p bt tk else .mma a b t p bt tk
    let bAt (k j : Nat) : Nat := if bt then k * n.b.pitch + j else j * n.b.pitch + k
    let gives (sd : TileSide) (f : Nat → Nat → Nat × Byte) : Prop := ∃ u, exec i s = .next u ∧
      (let v (i j : Nat) : Nat × Byte := if z then f i j else
        ((treeAdd n.kind (tileAt s t i j) (f i j).1).1, (f i j).2 ||| (treeAdd n.kind (tileAt s t i j) (f i j).1).2)
       Wrote s u (0x400000000000 + k * 0x40000 + 16384 * t.toNat) (wordBytes (grid fun i j => (v i j).1)) ∧
       MemStep asked u k (mIssued s
         { s.me.mx with side := s.me.mx.side.set t.toNat { sd with kind := n.kind }, tree := s.me.mx.tree.set t.toNat {} }
         (flagsOf (grid fun i j => (v i j).2)) tk l [] (some (.step i s.cur.nest n.x.c n.x.n n.x.bf))))
    (p ≠ .p3 → ∀ A B : Nat → Nat → Val,
      (∀ i < 64, ∀ q < n.kk, s.mVal n.a (i * n.a.pitch + q) = .ok (A i q)) → (∀ j < 64, ∀ q < n.kk, sb.mVal n.b (bAt q j) = .ok (B q j)) →
      gives side fun i j => chunkDot (if p = .p2 then 8 else 32) (if p = .p2 then 64 else 40) ((upto n.kk).map (A i)) ((upto n.kk).map fun q => B q j)) ∧
    (p = .p3 → n.kind = kRS24 → ∀ A B : Nat → Nat → Nat,
      (∀ i < 64, ∀ q < n.kk, s.mBits n.a (i * n.a.pitch + q) = .ok (A i q)) → (∀ j < 64, ∀ q < n.kk, sb.mBits n.b (bAt q j) = .ok (B q j)) →
      gives side fun i j => (rsEncode (((upto n.kk).map fun q => rsDecode (A i q) * rsDecode (B q j)).foldl (· + ·) 0), 0#8)) ∧
    (p = .p3 → n.kind = kINT32 → ∀ (A B : Nat → Nat → Nat) (ea eb : Nat → Option Nat),
      (∀ i < 64, ∀ q < n.kk, s.mBits n.a (i * n.a.pitch + q) = .ok (A i q) ∧ s.mScale n.a (i * n.a.pitch + q) = ea i ∧ ea i ≠ some 255) →
      (∀ j < 64, ∀ q < n.kk, sb.mBits n.b (bAt q j) = .ok (B q j) ∧ sb.mScale n.b (bAt q j) = eb j ∧ eb j ≠ some 255) →
      let er : Vector Byte 64 := Vector.ofFn fun i => BitVec.ofNat 8 ((ea i.val).getD 127)
      let ec : Vector Byte 64 := Vector.ofFn fun j => BitVec.ofNat 8 ((eb j.val).getD 127)
      (z = false → side.kind = kINT32 → side.er = er ∧ side.ec = ec) →
      let int (f : Fmt) (b : Nat) : Int := toSigned ((intBits f).getD 8) b
      gives { side with er := er, ec := ec } fun i j => (ofSigned 32 (rsDecode (rsEncode
        (((upto n.kk).map fun q => int n.a.fmt (A i q) * int n.b.fmt (B q j)).foldl (· + ·) 0))), 0#8))

/-- The orthogonal accumulator words (R317, R320, R323 to R333). With an active table, tokens and locks available: oa.init sets the
register up, without an area, with a segment area, or with D the identity at 1,024 bytes a row; oa.spill writes the register's image to its set, oa.fill takes an
acceptable image back, oa.cnt writes k, nseg, mode and the reflectors that Q holds; oa.app appends the column and τ of its sets to a register
with room, oa.house makes the reflector of a column, writes the column back and appends it; oa.left and oa.right write Q times X, or X times Q, with the
register's block applied in the three stages of R327; oa.fold takes no effect with k = 0, and in mode 1 with a free segment writes the register out as the next
segment. In each, nothing but the bytes written, the register and the issue changes; the flags are set when the word completes (R89), and what a
stop or a replay puts back is kept. That the effect stands at issue, under the word's locks, where R320 lets the register change at completion, is the
model's choice (log 9). -/
def Obligations.OrthogonalAccumulatorWords : Prop :=
  ∀ (s : State) (o : BitVec 1) (tk : Tok) (x : MCtx), MemInv s → s.mCtx = .ok x →
    let k := s.cur.k.val
    let g := s.me.mx.oa[o.toNat]
    let gives (i : Instr) (l : Locks) (g' : OaReg) (fl : Byte) (ws : List (Nat × Byte)) : Prop := mReady s tk l →
      ∃ u cs p b, exec i s = .next u ∧
        (∀ a, Memory.read u.mem a = ((ws.reverse.find? fun w => w.1 == a).map fun w => w.2).getD (Memory.read s.mem a)) ∧
        MemStep s u k (mIssued s { s.me.mx with oa := s.me.mx.oa.set o.toNat g' } fl tk l [] (some (.oa cs p b)))
    let reg : BitVec 18 := 1#18 <<< (16 + o.toNat)
    let cells (a : Nat) (bs : List Byte) : List (Nat × Byte) := bs.zipIdx.map fun b => (a + b.2, b.1)
    let room : BitVec 32 × BitVec 32 := if g.k = 32 then g.overflowBanks else (0#32, 0#32)
    let locks (rd wr : BitVec 32) : Locks := { rd := rd &&& ~~~wr, wr := wr, twr := reg }
    let vals (q : MOper) (ps : List Nat) (f : Nat → Nat) : Prop := ∀ n < ps.length, s.mBits q (ps.getD n 0) = .ok (f n)
    (∀ (set : BitVec 3) (n : BitVec 8) (m : OaMode) (area : Dword), x.oaArea set (oaModeCode m) (n.toNat + 1) = .ok area →
      let nn := n.toNat + 1
      gives (.oaInit o set m n tk) (locks 0#32 (if m = .fold then byteBanks area (oaExtent nn) else 0#32))
        { init := true, mode := oaModeCode m, n := nn, area := area } 0#8
        (if m = .fold then (upto nn).flatMap fun r => cells (scratchLoc k + (area.extractLsb' 0 21).toNat + 1024 * r)
          (wordBytes ((upto nn).map fun q => if q = r then 0x3F800000 else 0)) else [])) ∧
    (∀ (set : BitVec 3) (a : Dword) (l : Nat), x.oaImage set 0x9100 64 = .ok (a, l) →
      gives (.oaSpill o set tk) (locks 0#32 (byteBanks a 0x9100)) g 0#8 (cells l g.bytes) ∧
      (oaImageOk (Memory.readN s.mem l 0x9100) = true →
        gives (.oaFill o set tk) (locks (byteBanks a 0x9100) 0#32) (oaOf (Memory.readN s.mem l 0x9100)) 0#8 [])) ∧
    (∀ (set : BitVec 3) (a : Dword) (l : Nat), x.oaImage set 16 4 = .ok (a, l) →
      gives (.oaCnt o set tk) (locks 0#32 (byteBanks a 16)) g 0#8
        (cells l (wordBytes [g.k, g.nseg, g.mode, (g.segk.toList.map fun b => b.toNat).sum + g.k]))) ∧
    (g.init = true → g.k < 32 → ∀ (sv su : BitVec 3) (v w : MOper) (vs ts : Nat → Nat), x.oaSet sv = .ok v → x.oaSet su = .ok w →
      s.plainF32 v (colOffs v g.n) 1 = .ok () → s.plainF32 w [0] 1 = .ok () → vals v (colOffs v g.n) vs → vals w [0] ts →
      let r := g.appended ((upto g.n).map vs) (ts 0) {}
      gives (.oaApp o sv su tk) (locks (s.mMask v (colOffs v g.n) 1 ||| s.mMask w [0] 1) 0#32) r.1 r.2.fl []) ∧
    (g.init = true → g.k < 32 → ∀ (set lv : BitVec 3) (v : MOper) (xs : Nat → Nat), x.oaSet set = .ok v → x.level lv < g.n →
      s.plainF32 v (colOffs v g.n) 1 = .ok () → vals v (colOffs v g.n) xs →
      let j := x.level lv
      let h := houseOf (xs j) ((upto (g.n - j - 1)).map fun i => xs (j + 1 + i)) {}
      let r := g.appended (List.replicate j 0 ++ 0x3F800000 :: h.2.2.1) h.1 h.2.2.2
      gives (.oaHouse o set lv tk) (locks (s.mMask v (colOffs v g.n) 1) (s.mMask v ((colOffs v g.n).drop j) 1)) r.1 r.2.fl
        ((upto (g.n - j)).flatMap fun i => cells ((s.mLoc v ((j + i) * v.pitch)).toOption.getD 0) (bytesOfNat 4 (if i = 0 then h.2.1 else 0)))) ∧
    (g.init = true → g.mode = 0 → g.k ≠ 0 → ∀ (set : BitVec 3) (tr left : Bool) (c : BitVec 8) (q : MOper) (xs : Nat → Nat), x.oaSet set = .ok q →
      let rows := if left then g.n else c.toNat + 1
      let cols := if left then c.toNat + 1 else g.n
      s.plainF32 q (rowStarts q.pitch rows) cols = .ok () → vals q (gridOffs q rows cols) xs →
      let at_ (r e : Nat) : Nat := xs (if left then r * cols + e else e * cols + r)
      let y := OaRun.each (fun r e => (OaBlk.refl g.k g.t g.y).vec g.n (tr == left) ((upto g.n).map fun p => at_ p e) r) {} (upto (c.toNat + 1))
      gives (if left then .oaLeft o set tr c tk else .oaRight o set tr c tk) (locks 0#32 (s.mMask q (rowStarts q.pitch rows) cols)) g y.2.fl
        ((upto rows).flatMap fun r => (upto cols).flatMap fun e => cells ((s.mLoc q (r * q.pitch + e)).toOption.getD 0)
          (bytesOfNat 4 (if left then (y.1.getD e []).getD r 0 else (y.1.getD r []).getD e 0)))) ∧
    (g.init = true → g.k = 0 → gives (.oaFold o tk) (locks 0#32 0#32) g 0#8 []) ∧
    (g.init = true → g.k ≠ 0 → g.mode = 1 → g.nseg < 16 → ∀ l, oaRaw k (g.area + BitVec.ofNat 64 (0x9100 * g.nseg)) 0x9100 4 = .ok l →
      gives (.oaFold o tk) (locks 0#32 (byteBanks (g.area + BitVec.ofNat 64 (0x9100 * g.nseg)) 0x9100))
        { g with k := 0, t := [], y := [], segk := g.segk.setIfInBounds g.nseg (BitVec.ofNat 8 g.k), nseg := g.nseg + 1 } 0#8
        (cells l { g with nseg := 0, segk := Vector.replicate 16 0#8, folded := false }.bytes))

/-- What holds a matrix word back, and what faults it (R19, R270, R275, R276, R299, R309, R331). With no active table, a data word of M outside a nest whose
tokens are available faults the job with MNEST; with a token missing, or while a nest runs, it stays where it is and nothing changes. A
tile of another kind than the word names faults mst and mld with .add with MACC; oa.fold faults OACAP in mode 0 with a reflector. -/
def Obligations.MatrixWordsStallOrFault : Prop :=
  ∀ (s : State) (tk : Tok) (a b : BitVec 3) (t f : BitVec 4) (p : Profile) (m : RMode) (kd : TileKind) (om : OaMode) (n : BitVec 8) (o : BitVec 1)
    (bt y : Bool),
    let data : List Instr := [.mma a b t p bt tk, .mmaz a b t p bt tk, .mld a t kd y tk, .mst a t kd m tk, .mzero t y tk, .mrq a b t f m y tk,
      .oaInit o a om n tk, .oaHouse o a b tk, .oaApp o a b tk, .oaLeft o a y n tk, .oaRight o a y n tk, .oaFold o tk, .oaSpill o a tk,
      .oaFill o a tk, .oaCnt o a tk]
    s.cur.nest = false → s.cur.st = .m →
    (s.me.mx.go = true ∨ s.me.tokensOk .m tk = false → ∀ i ∈ data, exec i s = .next s) ∧
    (s.me.mx.go = false → s.me.tokensOk .m tk = true → s.me.job.isSome = true → s.me.fault = none →
      (s.me.mx.active = none → ∀ i ∈ data, FaultsJob i s cMNEST) ∧
      (∀ x q, s.mCtx = .ok x → s.mOper x a = .ok q → s.mFit q (rowStarts q.pitch 64) 64 false = .ok () →
        (s.me.side t.toNat).kind ≠ 0 → (s.me.side t.toNat).kind ≠ kindCode kd →
        s.me.locks = {} →
        (loadable kd q.fmt = true → (kd = .int32 → s.mScaled q = false) → FaultsJob (.mld a t kd true tk) s cMACC) ∧
        FaultsJob (.mst a t kd m tk) s cMACC) ∧
      (∀ x, s.mCtx = .ok x → s.me.locks = {} → (s.me.oa o).init = true → (s.me.oa o).k ≠ 0 → (s.me.oa o).mode = 0 →
        FaultsJob (.oaFold o tk) s cOACAP))
/-- Elementwise arithmetic (R73, R80, R349, R365, R374, R375, R380 to R383). With its checks passed, its tokens and locks available and its sources
readable, each word computes the exact result of its operands' exact values at each active position of its shape, and rounds it once. To a register: into the
shape's format, under the shape's mode (integers and residues enter theirs with no draw); under SR each lane of an FP32 shape takes the next draw, in position order. To an
output port without block scales: directly into the bank's format. vqntr multiplies by the reciprocal that it has first rounded RNE into FP32. Flags follow at completion
(R357). A lane that is not written keeps its bits, as do every other register element, mask, and byte of memory; ports and
cursors move on. That vfma's product of zero and infinity sets IV also beside a NaN addend is the model's choice (log 93), as is that the
effect stands at issue and is kept to be taken back until completion (log 9). -/
def Obligations.VectorArithmetic : Prop :=
  ∀ (s : State) (x : V3) (y : V2) (n : VIn) (vs : List (List VElem)), MemInv s →
    let fi : List Fmt := [fFP32, fINT32]
    let own (p : (Nat × Nat) × Nat) : Val := decodeElem s.shape.fmt (mget s.me.vx.regs (lane ((vopReg x.d).getD 0) p.1) 0)
    let words : List (Instr × VSpec × ((Nat × Nat) × Nat → RMode → Val → Val → Val × Byte)) :=
      [(.vadd x, spec3 x, fun _ m a b => Val.add (decide (m = .rdn)) a b),
       (.vsub x, spec3 x, fun _ m a b => Val.add (decide (m = .rdn)) a b.neg),
       (.vmul x, spec3 x, fun _ _ a b => Val.mul a b),
       (.vmin x, { spec3 x with shapes := fi }, fun _ _ a b => (a.minOf b, 0#8)),
       (.vmax x, { spec3 x with shapes := fi }, fun _ _ a b => (a.maxOf b, 0#8)),
       (.vdiv x, { spec3 x with shapes := [fFP32], cls := 1 }, fun _ _ a b => Val.div a b),
       (.vqnt x, { spec3 x with shapes := [fFP32] }, fun _ _ a b => Val.div a b),
       (.vqntr x, { spec3 x with shapes := [fFP32] }, fun _ _ a b =>
          let r := rneF32 b.rcp.1
          ((Val.mul a (f32 r.1)).1, b.rcp.2 ||| r.2 ||| (Val.mul a (f32 r.1)).2)),
       (.vdqnt x, { spec3 x with shapes := [fFP32], aRow := some fFP32, aFmt := some fINT32 }, fun _ _ a b => Val.mul a b),
       (.vabs y, { spec2 y with shapes := fi }, fun _ _ a _ => (a.abs, 0#8)),
       (.vneg y, spec2 y, fun _ _ a _ => (a.neg, 0#8)),
       (.vsqrt y, { spec2 y with shapes := [fFP32], cls := 1 }, fun _ _ a _ => a.sqrt),
       (.vrsqrt y, { spec2 y with shapes := [fFP32], cls := 1 }, fun _ _ a _ => a.rsqrt),
       (.vrcp y, { spec2 y with shapes := [fFP32], cls := 1 }, fun _ _ a _ => Val.div (.ofInt 1) a),
       (.vcvtf y, { spec2 y with shapes := [fFP32], aRow := some fINT32, aFmt := some fINT32 }, fun _ _ a _ => (a, 0#8)),
       (.vrsenc y, { spec2 y with shapes := [fRS24], aRow := some fINT32, aFmt := some fINT32, rsOut := true }, fun _ _ a _ => (a, 0#8)),
       (.vrsdec y, { spec2 y with shapes := [fINT32], aRow := some fRS24, aFmt := some fRS24 }, fun _ _ a _ => (a, 0#8))]
    let words := words ++ (if (vopReg x.d).isSome then [(.vfma x, spec3 x, fun p m a b =>
      ((Val.add (decide (m = .rdn)) (Val.mul a b).1 (own p)).1, (Val.mul a b).2 ||| (Val.add (decide (m = .rdn)) (Val.mul a b).1 (own p)).2))] else [])
    ∀ e ∈ words, vReady s e.2.1 n vs →
      let src (k : Nat) (p : (Nat × Nat) × Nat) : Val := ((vs.getD k []).getD p.2 ⟨.fin false 0 0 false, none⟩).v
      let res := (vLanes n).map fun p => e.2.2 p n.sh.mode (src 0 p) (src 1 p)
      let ys := res.map fun r => if n.sh.fmt ≠ fFP32 ∧ r.1.isZero then Val.fin false 0 0 false else r.1
      let fl := flagsOf (res.map fun r => r.2)
      (∀ r, (e.2.1.d.bind vopReg) = some r → n.sh.fmt = fFP32 ∨ (∀ y ∈ ys, y.isInt = true) →
        let q := roundAll n.sh.fmt (if n.sh.fmt = fFP32 then n.sh.mode else .rne) s.me.sys.gen[2] ys
        VPuts e.1 s n r (q.1.map fun z => z.1) (fl ||| flagsOf (q.1.map fun z => z.2)) q.2) ∧
      (∀ u, n.out = some u → (∀ z ∈ u.elems, u.scale s.mem z = none) →
        let q := roundAll (u.p.fmt u.x) n.sh.mode s.me.sys.gen[2] ys
        VSends e.1 s n u (q.1.map fun z => z.1) (fl ||| flagsOf (q.1.map fun z => z.2)) q.2)

/-- Patterns, moves, choices, conversions to integers and the bounded functions, to a register (R374, R376, R379, R380, R383, R384). A bit
word acts on its operands' patterns: a register's bits, any other operand rounded into the shape's format; an FP32 NaN is written as the
canonical one; shifts use the low 5 bits of b. vmov from a register keeps the bits. vsel writes every position of the shape, from
its first source where the active mask is 1, else from its second. vcvti rounds to an integer under the shape's mode, one draw a lane under
SR, a NaN to 0 with IV, an infinity saturating. A bounded function gives the FP32 pattern that the part has chosen within its bound and takes
no draw. No lane that is not written, no mask and no byte of memory changes. -/
def Obligations.VectorPatternsMovesAndConversions : Prop :=
  ∀ (s : State) (x : V3) (y : V2) (n : VIn) (vs : List (List VElem)) (r : Nat),
    let src (k : Nat) (p : (Nat × Nat) × Nat) : VElem := (vs.getD k []).getD p.2 ⟨.fin false 0 0 false, none⟩
    let fi : List Fmt := [fFP32, fINT32]
    (vopReg x.d = some r → s.shape.mode ≠ .sr ∨ (∀ o ∈ [x.a, x.b], (vopReg o).isSome) →
      let shift (b : Word) : Nat := (b.extractLsb' 0 5).toNat
      let words : List (Instr × List Fmt × (Word → Word → Word)) :=
        [(.vand x, fi, (· &&& ·)), (.vor x, fi, (· ||| ·)), (.vxor x, fi, (· ^^^ ·)), (.vshl x, [fINT32], fun a b => a <<< shift b),
         (.vshr x, [fINT32], fun a b => a >>> shift b), (.vsra x, [fINT32], fun a b => a.sshiftRight (shift b))]
      ∀ e ∈ words, vReady s { spec3 x with shapes := e.2.1 } n vs →
        let pat (z : VElem) : Nat × Byte := match z.bits with
          | some b => (b, 0#8)
          | none => roundTo n.sh.fmt n.sh.mode 0 z.v
        let out (v : Nat) : Nat := if n.sh.fmt = fFP32 ∧ (f32 v).isNan then 0x7FC00000 else v
        VPuts e.1 s n r ((vLanes n).map fun p => out (e.2.2 (BitVec.ofNat 32 (pat (src 0 p)).1) (BitVec.ofNat 32 (pat (src 1 p)).1)).toNat)
          (flagsOf ((vLanes n).map fun p => (pat (src 0 p)).2 ||| (pat (src 1 p)).2)) s.me.sys.gen[2]) ∧
    (vopReg y.d = some r → (vopReg y.a).isSome → vReady s (spec2 y) n vs →
      VPuts (.vmov y) s n r ((vLanes n).map fun p => (src 0 p).bits.getD 0) 0#8 s.me.sys.gen[2]) ∧
    (∀ (a b : VOp) (t : Tok), (vopReg a).isSome → (vopReg b).isSome → vReady s { spec3 ⟨y.d, a, b, false, t⟩ with all := true } n vs →
      vopReg y.d = some r →
      VPuts (.vsel y.d a b t) s n r ((upto (n.dpos.length)).map fun j =>
        let p := n.dpos.getD j (0, 0)
        (src (if s.me.vx.masks[n.sh.ms]?.any fun m => m.getLsbD (64 * p.1 + p.2) then 0 else 1) (p, j)).bits.getD 0) 0#8 s.me.sys.gen[2]) ∧
    (vopReg y.d = some r → vReady s { spec2 y with shapes := [fINT32], aRow := some fFP32, aFmt := some fFP32 } n vs →
      let one (j : Nat) (p : (Nat × Nat) × Nat) : Int × Byte := match (src 0 p).v with
        | .nan => (0, fIV)
        | .inf m => (if m then -0x80000000 else 0x7FFFFFFF, fSAT ||| fNX)
        | .fin m a e k => roundInt n.sh.mode (if n.sh.mode = .sr then (draws s.me.sys.gen[2] (j + 1)).1.getD j 0 else 0) m a e k
      let res := (vLanes n).zipIdx.map fun q => one q.2 q.1
      VPuts (.vcvti y) s n r (res.map fun z => ofSigned 32 (satInt 32 z.1).1) (flagsOf (res.map fun z => z.2 ||| (satInt 32 z.1).2))
        (if n.sh.mode = .sr then (draws s.me.sys.gen[2] (vLanes n).length).2 else s.me.sys.gen[2])) ∧
    (vopReg y.d = some r → vReady s { spec2 y with shapes := [fFP32], cls := 1 } n vs →
      ∀ e ∈ ([(.vexp y, .exp), (.vexp2 y, .exp2), (.vlog y, .log), (.vlog2 y, .log2), (.vsin y, .sin), (.vcos y, .cos), (.vtanh y, .tanh)] : List (Instr × BFn)),
        VPuts e.1 s n r ((vLanes n).map fun p => (e.2.eval (src 0 p).v).1) (flagsOf ((vLanes n).map fun p => (e.2.eval (src 0 p).v).2)) s.me.sys.gen[2])

/-- Compares and mask words (R343, R377, R378). With its checks passed, tokens and locks available and sources readable, a compare sets the mask bit
64r + c of each active position to the comparison of its operands' values, and a mask word sets it to the combination of its source masks'
bits; NaN compares unequal and unordered, and under RS24 vceq and vcne compare residue classes. No other mask bit, no register
element, no flag and no byte of memory changes. -/
def Obligations.VectorComparesAndMasks : Prop :=
  ∀ (s : State) (x : VC) (m : VM) (n : VIn) (vs : List (List VElem)),
    let src (k : Nat) (p : (Nat × Nat) × Nat) : Val := ((vs.getD k []).getD p.2 ⟨.fin false 0 0 false, none⟩).v
    let sets (i : Instr) (k : BitVec 2) (f : (Nat × Nat) × Nat → Bool) : Prop :=
      ∃ u d, exec i s = .next u ∧ CoreStep s u s.cur.k.val d ∧
        (∀ p ∈ vLanes n, d.vx.masks[k.toNat].getLsbD (64 * p.1.1 + p.1.2) = f p) ∧
        (∀ q, q ∉ (vLanes n).map (fun p => 64 * p.1.1 + p.1.2) → d.vx.masks[k.toNat].getLsbD q = s.me.vx.masks[k.toNat].getLsbD q) ∧
        (∀ j : Fin 4, j.val ≠ k.toNat → d.vx.masks[j.val] = s.me.vx.masks[j.val]) ∧
        d = vIssued s n 0#8 s.me.sys.gen[2] s.me.vx.regs d.vx.masks
    let kind := wordKind .zero x.a x.b
    let spec (f : List Fmt) : VSpec := { d := none, srcs := [x.a, x.b], skind := kind, dkind := kind, me := x.me, t := x.tok, shapes := f }
    let classes (a b : Val) : Bool := rsEncode (vEq.sgnVal a) == rsEncode (vEq.sgnVal b)
    let eq (a b : Val) : Bool := if n.sh.fmt = fRS24 then classes a b else a.eqv b
    (vReady s (spec [fFP32, fINT32, fRS24]) n vs →
      sets (.vceq x) x.k (fun p => eq (src 0 p) (src 1 p)) ∧ sets (.vcne x) x.k (fun p => !eq (src 0 p) (src 1 p))) ∧
    (vReady s (spec [fFP32, fINT32]) n vs →
      sets (.vclt x) x.k (fun p => (src 0 p).lt (src 1 p)) ∧ sets (.vcle x) x.k (fun p => (src 0 p).lt (src 1 p) || (src 0 p).eqv (src 1 p)) ∧
      sets (.vcgt x) x.k (fun p => (src 1 p).lt (src 0 p)) ∧ sets (.vcge x) x.k (fun p => (src 1 p).lt (src 0 p) || (src 0 p).eqv (src 1 p))) ∧
    (let bit (k : BitVec 2) (p : (Nat × Nat) × Nat) : Bool := s.me.vx.masks[k.toNat].getLsbD (64 * p.1.1 + p.1.2)
     vReady s { d := none, srcs := [], skind := 0#2, dkind := 0#2, me := m.me, t := m.tok } n vs →
      sets (.vmand m) m.k (fun p => bit m.x p && bit m.y p) ∧ sets (.vmor m) m.k (fun p => bit m.x p || bit m.y p) ∧
      sets (.vmxor m) m.k (fun p => bit m.x p ^^ bit m.y p) ∧ sets (.vmnot m.k m.x m.me m.tok) m.k (fun p => !bit m.x p))

/-- Rotations, broadcasts and reductions of a register into a register (R344, R365, R385 to R387). A read of an inactive or out-of-shape
lane gives zero. vrotr and vrotc give lane (r, c) the element k on, modulo the active columns or rows; vbcr and vbcc give it the element of column k
or row k, or of the cursor's for a column or row operand. A reduction gives each line's exact sum, largest or smallest, once rounded;
its destination is a column for the r words, a row for the c words. Nothing else changes but flags, draws, cursors and the issue. -/
def Obligations.VectorAxisWords : Prop :=
  ∀ (s : State) (x : VK) (y : V2) (n : VIn) (vs : List (List VElem)) (a r : Nat),
    let at_ (f : Fmt) (p : Nat × Nat) : Val := if n.act p then decodeElem f (mget s.me.vx.regs (lane a p) 0) else .fin false 0 0 false
    let gives (i : Instr) (res : List (Val × Byte)) : Prop :=
      let ys := res.map fun z => if n.sh.fmt ≠ fFP32 ∧ z.1.isZero then Val.fin false 0 0 false else z.1
      n.sh.fmt = fFP32 ∨ (∀ y ∈ ys, y.isInt = true) →
      let q := roundAll n.sh.fmt (if n.sh.fmt = fFP32 then n.sh.mode else .rne) s.me.sys.gen[2] ys
      VPuts i s n r (q.1.map fun z => z.1) (flagsOf (res.map fun z => z.2) ||| flagsOf (q.1.map fun z => z.2)) q.2
    (vopReg x.a = some a → vopReg x.d = some r →
      vReady s { d := some x.d, srcs := [x.a], skind := (x.a.regKind).getD 0#2, dkind := (x.d.regKind).getD 0#2, me := x.me, t := x.tok } n vs →
      let moved (f : Nat × Nat → Nat × Nat) : List (Val × Byte) := (vLanes n).map fun p => (at_ n.sh.fmt (f p.1), 0#8)
      gives (.vrotr x) (moved fun p => (p.1, (p.2 + x.k.toNat) % n.sh.cols)) ∧
      gives (.vrotc x) (moved fun p => ((p.1 + x.k.toNat) % n.sh.rows, p.2)) ∧
      gives (.vbcr x) (moved fun p => (p.1, if x.a.regKind = some 2#2 then n.sh.cc else x.k.toNat)) ∧
      gives (.vbcc x) (moved fun p => (if x.a.regKind = some 1#2 then n.sh.rc else x.k.toNat, p.2))) ∧
    (vopReg y.a = some a → vopReg y.d = some r → ∀ col : Bool,
      let spec (f : List Fmt) : VSpec := { d := some y.d, srcs := [y.a], skind := 0#2, dkind := if col then 1#2 else 2#2, me := y.me, t := y.tok, shapes := f }
      let line (p : Nat × Nat) : List Val := if col then (upto n.sh.rows).map fun i => at_ n.sh.fmt (i, p.2) else (upto n.sh.cols).map fun i => at_ n.sh.fmt (p.1, i)
      let each (f : List Val → Val × Byte) : List (Val × Byte) := (vLanes n).map fun p => f (line p.1)
      (vReady s (spec [fFP32, fINT32, fRS24]) n vs →
        gives (if col then .vsumc y else .vsumr y) (each fun l => sumExact (decide (n.sh.mode = .rdn)) l)) ∧
      (vReady s (spec [fFP32, fINT32]) n vs →
        gives (if col then .vmaxc y else .vmaxr y) (each fun l => (l.tail.foldl Val.maxOf (l.headD (.fin false 0 0 false)), 0#8)) ∧
        gives (if col then .vminc y else .vminr y) (each fun l => (l.tail.foldl Val.minOf (l.headD (.fin false 0 0 false)), 0#8))))

/-- Shape, binding and sampling (R341, R347, R348, R369 to R371). With its tokens available and no earlier word of V outstanding: vshp.dim sets rows
and columns and clears both cursors, vshp.cur sets the cursors and their steps, vshp.fmt sets format, mode and mask, each keeping the rest; a
value that R341 does not allow faults VSHAPE and changes nothing. vbind reads its descriptor from 128 bytes of the own scratchpad and binds its port at element 0,
unbinding every other port of the set, with the bank formats of the core of its base and of the other die windows that its walk may enter (R45, R46). vsamp adds the counts of its active elements to elements 0 and 1 of the destination's cursor row, and takes the largest and
smallest exponent into elements 2 and 3. -/
def Obligations.VectorShapeBindingAndSampling : Prop :=
  ∀ (s : State) (t : Tok), s.me.tokensOk .v t = true → s.cur.st = .v → s.me.v.outst = [] →
    let c := s.me
    let k := s.cur.k.val
    let w := c.vx.shape
    let ahead (x : Vec) : Vec := if t.pop = 0#2 then x else x.dropAhead
    let control (i : Instr) (x : Vec) : Prop := ∃ u d, exec i s = .next u ∧ CoreStep s u k d ∧ d.vx = ahead x ∧ d.v = { c.v with pc := c.v.pc + 1#32 } ∧
      { d with vx := c.vx, v := c.v, fifo := c.fifo, next := c.next } = c
    let shape (i : Instr) (z : Word) : Prop := (vShapeOk z = true → control i { c.vx with shape := z }) ∧
      (vShapeOk z = false → c.job.isSome = true → c.fault = none → FaultsJob i s cVSHAPE)
    (∀ (r m : BitVec 4) (q : BitVec 6) (rs cs : Bool) (md : BitVec 3) (g : BitVec 2),
      shape (.vshpDim r q t) (w.extractLsb' 24 8 ++ 0#10 ++ q ++ r ++ w.extractLsb' 0 4) ∧
      shape (.vshpCur r q rs cs t) (w.extractLsb' 26 6 ++ BitVec.ofBool cs ++ BitVec.ofBool rs ++ q ++ r ++ w.extractLsb' 0 14) ∧
      shape (.vshpFmt m md g t) (m ++ g ++ w.extractLsb' 3 23 ++ md)) ∧
    (∀ (port set : BitVec 3) (off : BitVec 13), port.toNat < 6 →
      let o := 64 * off.toNat
      let r := BitVec.ofNat 1024 (Memory.readNat s.mem (0x200000000000 + k * 0x200000 + o) 128)
      c.grantable { rd := (1#32 <<< (o / 65536)) ||| (1#32 <<< ((o + 127) / 65536)) } = true → vaOk r = true → ∀ h, s.vaCore k (vaSet r) = .ok h →
      let bf := (s.core h).sys.bfmt
      let f := (bf.getD ((vaSet r).base.extractLsb' 16 5).toNat 0xF#15).extractLsb' 0 4
      f.toNat ≤ 10 →
      let ps := (ahead c.vx).ports.map fun p => if p.any fun q => q.set = set.toNat then none else p
      control (.vbind port set off t) { c.vx with
        sets := c.vx.sets.set set.toNat r, ports := ps.setIfInBounds port.toNat (some { set := set.toNat, pos := 0, bf := bf, far := s.farFormats k (vaSet r) (nibbles f) }) }) ∧
    (∀ (x : V2) (n : VIn) (vs : List (List VElem)) (r : Nat), x.tok = t → vopReg x.d = some r →
      let kind := (x.a.regKind).getD 0#2
      vReady s { d := some x.d, srcs := [x.a], skind := kind, dkind := kind, me := x.me, t := t } n vs →
      let es := (n.spos.zipIdx.filter fun p => n.act p.1).map fun p => ((vs.getD 0 []).getD p.2 ⟨.fin false 0 0 false, none⟩).v
      let old (j : Nat) : Int := toSigned 32 (mget c.vx.regs (lane r (n.sh.rc, j)) 0)
      let nz := es.filter fun v => !v.isZero
      let ex := (nz.filter Val.isFin).map Val.exponent
      let w0 := satInt 32 (old 0 + nz.length)
      let w1 := satInt 32 (old 1 + es.length)
      let res : List Int := [w0.1, w1.1, ex.foldl max (old 2), ex.foldl min (old 3)]
      ∃ u d, exec (.vsamp x) s = .next u ∧ CoreStep s u k d ∧
        (∀ j < 4, mget d.vx.regs (lane r (n.sh.rc, j)) 0 = ofSigned 32 (res.getD j 0)) ∧
        (∀ q, (∀ j < 4, q ≠ lane r (n.sh.rc, j)) → mget d.vx.regs q 0 = mget c.vx.regs q 0) ∧
        d = vIssued s n ((w0.2 ||| w1.2) &&& fSAT) c.sys.gen[2] d.vx.regs c.vx.masks)

/-- What holds a vector data word back, and what faults it (R348, R351, R353, R358, R366). While a token is missing, a bank it takes is held or its output
port holds two operands, a word whose checks pass waits and nothing changes. A word whose shape format its entry does not accept faults FORMAT; one that names an unbound input port, or more
elements than its walk has left, faults VPORT, once V's earlier words are complete, and until then waits. -/
def Obligations.VectorWordsStallOrFault : Prop :=
  ∀ (s : State) (x : V3) (y : V2) (c : VC) (m : VM) (q : VK), s.cur.st = .v →
    let F : List Fmt := [fFP32]
    let I : List Fmt := [fINT32]
    let FI : List Fmt := [fFP32, fINT32]
    let all : List Fmt := [fFP32, fINT32, fRS24]
    let f3 (l : List Fmt) : VSpec := { spec3 x with shapes := l }
    let slow : VSpec := { spec2 y with shapes := F, cls := 1 }
    let cmp (l : List Fmt) : VSpec :=
      { d := none, srcs := [c.a, c.b], skind := wordKind .zero c.a c.b, dkind := wordKind .zero c.a c.b, me := c.me, t := c.tok, shapes := l }
    let mask (me : Bool) (t : Tok) : VSpec := { d := none, srcs := [], skind := 0#2, dkind := 0#2, me := me, t := t }
    let axis : VSpec :=
      let k := wordKind q.d q.a .zero
      { d := some q.d, srcs := [q.a], skind := (q.a.regKind).getD k, dkind := k, me := q.me, t := q.tok }
    let line (k : BitVec 2) (l : List Fmt) : VSpec := { d := some y.d, srcs := [y.a], skind := 0#2, dkind := k, me := y.me, t := y.tok, shapes := l }
    let samp : VSpec :=
      let k := (y.a.regKind).getD 0#2
      { d := some y.d, srcs := [y.a], skind := k, dkind := k, me := y.me, t := y.tok }
    let words : List (Instr × VSpec) :=
      [(.vadd x, spec3 x), (.vsub x, spec3 x), (.vmul x, spec3 x), (.vfma x, spec3 x), (.vmin x, f3 FI), (.vmax x, f3 FI), (.vqnt x, f3 F),
       (.vqntr x, f3 F), (.vdqnt x, { f3 F with aRow := some fFP32, aFmt := some fINT32 }), (.vdiv x, { f3 F with cls := 1 }), (.vand x, f3 FI),
       (.vor x, f3 FI), (.vxor x, f3 FI), (.vshl x, f3 I), (.vshr x, f3 I), (.vsra x, f3 I),
       (.vsel x.d x.a x.b x.tok, { spec3 ⟨x.d, x.a, x.b, false, x.tok⟩ with all := true }),
       (.vabs y, { spec2 y with shapes := FI }), (.vneg y, spec2 y), (.vmov y, spec2 y),
       (.vcvtf y, { spec2 y with shapes := F, aRow := some fINT32, aFmt := some fINT32 }),
       (.vcvti y, { spec2 y with shapes := I, aRow := some fFP32, aFmt := some fFP32 }),
       (.vrsenc y, { spec2 y with shapes := [fRS24], aRow := some fINT32, aFmt := some fINT32, rsOut := true }),
       (.vrsdec y, { spec2 y with shapes := I, aRow := some fRS24, aFmt := some fRS24 }),
       (.vsqrt y, slow), (.vrsqrt y, slow), (.vrcp y, slow), (.vexp y, slow), (.vexp2 y, slow), (.vlog y, slow), (.vlog2 y, slow), (.vsin y, slow),
       (.vcos y, slow), (.vtanh y, slow),
       (.vceq c, cmp all), (.vcne c, cmp all), (.vclt c, cmp FI), (.vcle c, cmp FI), (.vcgt c, cmp FI), (.vcge c, cmp FI),
       (.vmand m, mask m.me m.tok), (.vmor m, mask m.me m.tok), (.vmxor m, mask m.me m.tok), (.vmnot m.k m.x m.me m.tok, mask m.me m.tok),
       (.vrotr q, axis), (.vrotc q, axis), (.vbcr q, axis), (.vbcc q, axis),
       (.vsumr y, line 2#2 all), (.vsumc y, line 1#2 all), (.vmaxr y, line 2#2 FI), (.vmaxc y, line 1#2 FI), (.vminr y, line 2#2 FI),
       (.vminc y, line 1#2 FI), (.vsamp y, samp)]
    ∀ e ∈ words,
      (∀ n, s.vIn e.2 = .ok n → s.me.tokensOk .v e.2.t = false ∨ s.me.grantable n.locks = false ∨
        (∃ u, n.out = some u ∧ 2 ≤ (s.me.v.outst.filter fun o => !o.done && o.port == some u.port).length) → exec e.1 s = .next s) ∧
      (let waits (cause : Byte) : Prop :=
        ((s.me.v.outst.any fun o => !o.done) = true → exec e.1 s = .next s) ∧
        ((s.me.v.outst.any fun o => !o.done) = false → s.me.job.isSome = true → s.me.fault = none → FaultsJob e.1 s cause)
       (s.shape.fmt ∉ e.2.shapes → waits cFORMAT) ∧
       (s.shape.fmt ∈ e.2.shapes → ∀ i, e.2.srcs.head? = some (.inp i) → s.me.vx.ports[i.toNat] = none → waits cVPORT) ∧
       (s.shape.fmt ∈ e.2.shapes → ∀ i p, e.2.srcs.head? = some (.inp i) → s.me.vx.ports[i.toNat] = some p →
         (vaSet (s.me.vx.sets.getD p.set 0#1024)).n < p.pos + (s.shape.pos e.2.skind).length → waits cVPORT))
/-- Writes reach their homes (R60, R62, R65, R66). A write of a home on its own die is applied once no earlier write of its issuer to one of its
bytes is on its way; until then WRITE_APPLIED does nothing. A write to another die is applied on arrival if besides every write, row and plain update
sent earlier from its die to that home, and all that its stamp depends on, has been applied there; else it is held, and HELD_WRITE_APPLY applies it once
that holds. Applying writes the masked bits of its bytes and no other byte, raises what the home has applied to the stamp, at a scratchpad bank of
another core notes who was served, and ends the poison of a line that it writes whole (R391; that its bytes may come in several writes is log 63, the model's choice). A close marker raises its source's component of the home's clock to the epoch after its own once every write, row
and update of its epoch is applied there, and else waits. Nothing else changes. -/
def Obligations.WritesReachTheirHomes : Prop :=
  ∀ (s : State), MemInv s →
    (∀ w : Write, s.writes.find? (fun o => o.id == w.id) = some w → w.home < 8 →
      let early : Prop := ∃ o ∈ s.writes, o.id < w.id ∧ o.by_ = w.by_ ∧ o.loc < w.loc + w.data.length ∧ w.loc < o.loc + o.data.length
      let d := s.die w.home
      let foreign : Prop := 0x200000000000 ≤ w.loc ∧ w.loc < 0x200000000000 + 1536 * 0x200000 ∧ (w.loc - 0x200000000000) / 0x200000 ≠ w.by_.core
      let applied (i : Instr) : Prop := ∃ m served p mended, exec i s = .next { s with
          mem := m, writes := s.writes.filter fun o => o.id != w.id, served := served, poison := p, mended := mended
          dies := s.dies.setIfInBounds w.home { d with applied := clkMax d.applied w.stamp } } ∧
        (∀ l ∈ p, l ∈ s.poison) ∧
        (∀ l ∈ s.poison, w.loc + w.data.length ≤ 64 * l ∨ 64 * l + 64 ≤ w.loc → l ∈ p) ∧
        ((∀ x ∈ w.data, x.2 = 0xFF#8) → ∀ l ∈ p, ¬ (w.loc ≤ 64 * l ∧ 64 * l + 64 ≤ w.loc + w.data.length)) ∧
        (foreign → served = mset s.served ((w.loc - 0x200000000000) / 0x10000) w.by_.core) ∧ (¬ foreign → served = s.served) ∧
        (∀ j, ∀ h : j < w.data.length, Memory.read m (w.loc + j) =
          ((Memory.read s.mem (w.loc + j) &&& ~~~(w.data[j]).2) ||| ((w.data[j]).1 &&& (w.data[j]).2))) ∧
        ∀ a, a < w.loc ∨ w.loc + w.data.length ≤ a → Memory.read m a = Memory.read s.mem a
      (w.home = w.src →
        (¬ early → applied (.writeApplied w.id)) ∧ (early → exec (.writeApplied w.id) s = .next s) ∧
        exec (.writeArrivalHome w.id) s = .next s) ∧
      (w.home ≠ w.src →
        let behind : Prop := (∃ o ∈ s.writes, o.id < w.id ∧ o.src = w.src ∧ o.home = w.home) ∨
          (∃ o ∈ s.combines, o.id < w.id ∧ o.core / 192 = w.src ∧ homeDie o.loc = w.home) ∨
          ∃ o ∈ s.updates, o.id < w.id ∧ o.core / 192 = w.src ∧ o.home = w.home ∧ o.det = none ∧ o.st = .flying
        let ready : Prop := ¬ early ∧ ¬ behind ∧ ∀ k : Fin 8, k.val ≠ w.src → serialGe d.cclk[k.val] w.stamp[k.val] = true
        exec (.writeApplied w.id) s = .next s ∧
        (w.held = false → (ready → applied (.writeArrivalHome w.id)) ∧
          (¬ ready → exec (.writeArrivalHome w.id) s =
            .next { s with writes := s.writes.map fun o => if o.id = w.id then { o with held := true } else o })) ∧
        (w.held = true → (ready → applied (.heldWriteApply w.id)) ∧ (¬ ready → exec (.heldWriteApply w.id) s = .next s)))) ∧
    (∀ m : Marker, s.markers.find? (fun o => o.id == m.id) = some m → m.dst < 8 → m.src < 8 →
      let d := s.die m.dst
      let ready : Prop := d.cclk.getD m.src 0#48 = m.epoch ∧
        (∀ w ∈ s.writes, ¬ (w.src = m.src ∧ w.home = m.dst ∧ w.stamp.getD m.src 0#48 = m.epoch)) ∧
        (∀ u ∈ s.combines, ¬ (u.core / 192 = m.src ∧ homeDie u.loc = m.dst ∧ u.stamp.getD m.src 0#48 = m.epoch)) ∧
        (∀ u ∈ s.updates, ¬ (u.core / 192 = m.src ∧ u.home = m.dst ∧ u.stamp.getD m.src 0#48 = m.epoch ∧
          (u.st = .flying ∨ ∃ c, u.st = .retry c)))
      (ready → exec (.closeMarkerArrival m.id) s = .next { s with
        markers := s.markers.filter fun x => x.id != m.id
        dies := s.dies.setIfInBounds m.dst { d with cclk := d.cclk.setIfInBounds m.src (m.epoch + 1#48) } }) ∧
      (¬ ready → exec (.closeMarkerArrival m.id) s = .next s))

/-- Memory-side updates and deterministic rounds (R170 to R177, R180, R205). An update that its order allows is applied once, where its unit has an entry
free: its operation on the old value at its location, the old value sent to its source element in a returning form; no other byte of memory changes, its command counts
an entry at the unit, and an update that may not yet arrive waits. Where all entries of a unit are kept it is answered with retry after 64 clk, and its
command's acknowledged entries there are retired (log 50). A deterministic update of a round that is not open at its MSU, or out of turn while the MSU is serial or holds 16, is answered with retry after
64 clk; in turn it is applied; else it is held. A marker is counted in its round; a retry is sent again once its time has come; a round closed at every MSU of its mask
completes, counts in its record and lets its waiting commands complete. A combine at a full entry's MSU stores its row and adds its rank, or, of a rank already in,
counts a duplicate; its last rank sends the row of sums, added in rank order, to the output. An entry whose nr is above 8 or len above 4,096, or
that runs past its page, faults CMB_RANK, and one with a poisoned line POISON, by the model's choice (log 92). -/
def Obligations.UpdatesRoundsAndCombines : Prop :=
  ∀ (s : State) (id : Nat), MemInv s →
    (∀ u, s.updates.find? (fun x => x.id == id) = some u → u.home < 8 →
      let n := nibBytes (nibbles (acwFmt u.op))
      let old := Memory.readNat s.mem u.loc n
      let gone (t : State) : Prop := Wrote s t u.loc (bytesOfNat n (acwNew u.op old u.v)) ∧ (∀ x ∈ t.updates, x.id ≠ id) ∧
        (t.die u.home).applied = clkMax (s.die u.home).applied u.stamp ∧ t.markers = s.markers ∧
        (s.refCmd u.ref = none → t.cores = s.cores) ∧
        ∀ k c, s.refCmd u.ref = some (k, c) → (∀ j, j ≠ k → t.core j = s.core j) ∧
          t.core k = cmdPut s k c.id fun x => { x with hits := mset x.hits u.unit (mget x.hits u.unit 0 + 1) }
      (u.det = none → u.st = .flying → s.updateOk u = true → ¬ (isHbm u.loc = true ∧ u.loc / 64 ∈ s.poison) →
        s.entriesAt u.unit < (if u.unit < 2048 then 512 else 64) →
        (u.back = none → ∃ t, exec (.acwUpdateArrival id) s = .next t ∧ gone t ∧ t.writes = s.writes) ∧
        (∀ b k c, u.back = some b → s.refCmd u.ref = some (k, c) → ∃ t w, exec (.acwUpdateArrival id) s = .next t ∧ gone t ∧
          t.writes = s.writes ++ [w] ∧ w.loc = b ∧ w.by_ = c.src.writer k ∧ w.cmd = some c.id ∧
          w.data = (bytesOfNat n old).map fun x => (x, 0xFF#8))) ∧
      (u.det = none → u.st = .flying → s.updateOk u = true → (if u.unit < 2048 then 512 else 64) ≤ s.entriesAt u.unit →
        ∃ t, exec (.acwUpdateArrival id) s = .next t ∧ t = { s with
            cores := t.cores, updates := s.updates.map fun x => if x.id = id then { x with st := .retry (s.clk + 64) } else x } ∧
          (s.refCmd u.ref = none → t.cores = s.cores) ∧
          ∀ k c, s.refCmd u.ref = some (k, c) → (∀ j, j ≠ k → t.core j = s.core j) ∧
            t.core k = cmdPut s k c.id fun x => { x with hits := mdel x.hits u.unit }) ∧
      (s.updateOk u = false → exec (.acwUpdateArrival id) s = .next s ∧ exec (.detUpdateArrival id) s = .next s) ∧
      (∀ d, u.det = some d → u.st = .flying → s.updateOk u = true →
        let g := s.group d.func d.group
        let r := g.openAt u.unit g.round (g.msus.length + 1)
        let x := s.contact g r u.unit
        let turn : Prop := x.index d.issuer < x.lowest ∨ (x.index d.issuer = x.lowest ∧ d.ordinal = x.x.getD x.lowest 0)
        let full : Prop := x.serial = true ∨ 16 ≤ (s.updates.filter fun o => o.st == .held && o.unit == u.unit).length
        let mark (st : UpdState) : State := { s with updates := s.updates.map fun (o : Update) => if o.id = id then { o with st := st } else o }
        let put (t : State) (y : MsuRound) : Prop := exec (.detUpdateArrival id) s = .next (t.putRound d.func d.group r u.unit y)
        (r < d.round → put (mark (.retry (s.clk + 64))) { x with retries := x.retries + 1 }) ∧
        let kept : Prop := s.entriesAt u.unit < (if u.unit < 2048 then 512 else 64)
        (¬ r < d.round → ¬ kept → put ((mark (.retry (s.clk + 64))).retireHits u) { x with retries := x.retries + 1 }) ∧
        (¬ r < d.round → kept → turn → put (s.applyUpdate u) { x with x := x.x.set (x.index d.issuer) (d.ordinal + 1) }) ∧
        (¬ r < d.round → kept → ¬ turn → ¬ full → put (mark .held) x) ∧
        (¬ r < d.round → kept → ¬ turn → full → put (mark (.retry (s.clk + 64))) { x with serial := true, retries := x.retries + 1 })) ∧
      (∀ c k, u.st = .retry c → s.refCore u.ref = some k → (s.core k).preempt = none →
        (c ≤ s.clk → exec (.detRetryResend id) s =
          .next { s with updates := s.updates.map fun o => if o.id = id then { o with st := .flying } else o }) ∧
        (s.clk < c → exec (.detRetryResend id) s = .next s))) ∧
    (∀ m, s.roundMarks.find? (fun x => x.id == id) = some m →
      let g := s.group m.func m.group
      (g.openAt m.msu g.round (g.msus.length + 1) ≠ m.round → exec (.roundCloseMarkerArrival id) s = .next s) ∧
      (g.openAt m.msu g.round (g.msus.length + 1) = m.round → exec (.roundCloseMarkerArrival id) s = .next
        (({ s with roundMarks := s.roundMarks.filter fun x => x.id != id }).putRound m.func m.group m.round m.msu
          (let x := s.contact g m.round m.msu; { x with marked := x.index m.issuer :: x.marked })))) ∧
    (∀ g x, s.groups[id]? = some g →
      g.msus.find? (fun e => e.1 / 4096 == g.round) = some x →
      (g.waiting.any fun w => w.2 == g.round) = true →
      (∀ m ∈ maskMsus x.2.dmask, ∃ y, mget? g.msus (roundKey g.round m) = some y ∧ y.closed = true) →
      ∃ t h, exec (.roundComplete id) s = .next t ∧ h ∈ t.groups ∧ h.func = g.func ∧ h.group = g.group ∧ h.round = g.round + 1 ∧
        h.waiting = (g.waiting.filter fun w => w.2 != g.round)) ∧
    (∀ m k c, s.combines.find? (fun x => x.id == id) = some m → s.refCmd m.ref = some (k, c) →
      (s.combineOk m = false → exec (.cmbApply id) s = .next s) ∧
      (s.combineOk m = true → homeDie m.loc < 8 →
      let rd (o n : Nat) : Nat := Memory.readNat s.mem (m.loc + o) n
      let fill := rd 8 1
      let ranks := rd 9 1
      let d := m.row.length
      let size := 0x40 + 4 * d * ranks
      let left (t : State) : Prop := t.combines = (s.combines.filter fun x => x.id != id) ∧
        (t.die (homeDie m.loc)).applied = clkMax (s.die (homeDie m.loc)).applied m.stamp
      let fails (z : Byte) : Prop := ∃ t, exec (.cmbApply id) s = .next t ∧ left t ∧ t.mem = s.mem ∧ t.writes = s.writes ∧
        t.core k = cmdPut s k c.id fun x => { x with st := .failed, cause := z, addr := (setOf c.d).base }
      let whole : Prop := m.rank < ranks ∧ rd 0xC 4 = d ∧ ranks ≤ 8 ∧ d ≤ 4096 ∧ m.loc % 0x10000 + size ≤ 0x10000
      (s.poisoned m.loc 64 = true → fails cPOISON) ∧
      (s.poisoned m.loc 64 = false → ¬ whole → fails cCMB_RANK) ∧
      (s.poisoned m.loc 64 = false → whole →
        (fill / 2 ^ m.rank % 2 = 1 → ∃ t, exec (.cmbApply id) s = .next t ∧ left t ∧
          Wrote s t (m.loc + 0xA) (bytesOfNat 2 (min 65535 (rd 0xA 2 + 1)))) ∧
        (fill / 2 ^ m.rank % 2 = 0 → (fill + 2 ^ m.rank) % 2 ^ ranks ≠ 2 ^ ranks - 1 → ∃ t, exec (.cmbApply id) s = .next t ∧ left t ∧
          t.writes = s.writes ∧ Memory.readN t.mem (m.loc + 0x40 + 4 * d * m.rank) (4 * d) = m.row.flatMap (bytesOfNat 4) ∧
          Memory.readNat t.mem (m.loc + 8) 1 = (fill + 2 ^ m.rank) % 256 ∧
          ∀ a, a ≠ m.loc + 8 → a < m.loc + 0x40 + 4 * d * m.rank ∨ m.loc + 0x40 + 4 * d * (m.rank + 1) ≤ a →
            Memory.read t.mem a = Memory.read s.mem a) ∧
        (fill / 2 ^ m.rank % 2 = 0 → (fill + 2 ^ m.rank) % 2 ^ ranks = 2 ^ ranks - 1 →
          (s.poisoned m.loc size = true → fails cPOISON) ∧
          (∀ ls u, s.poisoned m.loc size = false → s.rowLocs k c (BitVec.ofNat 64 (rd 0 8)) d = (.ok ls, u) →
            ∃ t ws, exec (.cmbApply id) s = .next t ∧ t.writes = s.writes ++ ws ∧
              t.mem = Memory.writeN (Memory.writeN s.mem (m.loc + 0x40 + 4 * d * m.rank) (m.row.flatMap (bytesOfNat 4))) (m.loc + 8) [0#8] ∧
              ws.map (fun w => (w.loc, w.data)) = ls.zipIdx.map fun l =>
                (l.1, (bytesOfNat 4 (combineSum t.mem m.loc d l.2 (ranks - 1))).map fun x => (x, 0xFF#8)))))))

/-- Words, nests, ports and rendezvous move on (R19, R24, R276, R286, R335, R348, R350, R357). The oldest word in progress of M, of its nest, or of V completes: its
locks end, its flags are set and its token becomes visible. A nest at its end with no word outstanding clears the go bit and completes its mgo. A
bound input port that holds fewer than two operands fetches the next. A rendezvous whose participants have all arrived is left: its id is free,
block streams are ready and engine streams run with their tokens visible, each at its next word, V drops its run-ahead and M reads the die window
anew; while one is missing nothing happens. The first three replays of a word count in RPLC: an orthogonal accumulator word changes nothing else but their
count, and a step of mma or mmaz runs again on what it found before it, with all operands read anew; the fourth replays nothing and faults MREPLAY with what the word
wrote as before it. The size for which a port fetches ahead, that of the first word from V's pc on that names it under the shape of now, is the
model's choice (log 64). -/
def Obligations.EngineWordsComplete : Prop :=
  ∀ (s : State) (k : CoreIx),
    let c := s.core k.val
    let engines := [Stream.xl, .m, .v, .xs]
    let calm : Prop := ∀ st : Stream, (c.eng st).st = .running ∨ (c.eng st).st = .ended ∨ (c.eng st).st = .absent
    let visible (f : Fifo) : Fifo := { f with count := f.count + 1, reserved := f.reserved - 1, shown := f.shown + 1 }
    let shown (o : Outst) (d : Core) : Prop := ∀ n < 10, vget d.fifo n {} =
      if o.push = some n then visible (vget c.fifo n {}) else vget c.fifo n {}
    let first (o : Outst) (rest : List Outst) : Prop := o.done = false ∧ (∀ x ∈ rest, x.done = false ∧ x.id ≠ o.id)
    let flags (i : Fin 4) (o : Outst) : Sys := if o.fl = 0#8 then c.sys else { c.sys with
      flg := c.sys.flg.set i.val (c.sys.flg[i.val] ||| (o.fl &&& 0x7F#8)), flgNew := c.sys.flgNew.set i.val (c.sys.flgNew[i.val] ||| (o.fl &&& 0x7F#8)) }
    (∀ o rest, calm → first o rest → o.own = false →
      (c.m.outst = o :: rest → (∀ x ∈ c.mx.outst, o.id ≤ x.id ∨ x.push ≠ o.push) → ∃ u d, exec (.wordComplete k .m) s = .next u ∧
        CoreStep s u k.val d ∧ shown o d ∧ d.m = { c.m with outst := rest } ∧ d = { c with m := d.m, fifo := d.fifo, sys := flags 1 o }) ∧
      (c.v.outst = o :: rest → ∃ u d, exec (.wordComplete k .v) s = .next u ∧ CoreStep s u k.val d ∧ shown o d ∧
        d.v = { c.v with outst := rest } ∧ d = { c with v := d.v, fifo := d.fifo, sys := flags 2 o }) ∧
      (c.mx.outst = o :: rest → (∀ x ∈ c.m.outst, x.own = true ∧ x.done = false) → ∃ u d, exec (.wordComplete k .m) s = .next u ∧
        CoreStep s u k.val d ∧ shown o d ∧ d = { c with mx := { c.mx with outst := rest }, fifo := d.fifo, sys := flags 1 o })) ∧
    (∀ o rest, calm → first o rest → c.m.outst = o :: rest → o.id = c.mx.goId → o.fl = 0#8 → c.mx.go = true → c.mx.phase = .done → c.mx.outst = [] →
      ∃ u d, exec (.nestComplete k) s = .next u ∧ CoreStep s u k.val d ∧ shown o d ∧
        d = { c with mx := { c.mx with go := false }, m := { c.m with outst := rest }, fifo := d.fifo }) ∧
    ((c.mx.go = false ∨ c.mx.phase ≠ .done ∨ c.mx.outst ≠ []) → exec (.nestComplete k) s = .next s) ∧
    (∀ (port : BitVec 3) (q : VPort) (n : Nat) (y : PUse), port.toNat < 4 → c.vx.ports.getD port.toNat none = some q → c.aheadSize port.toNat = some n →
      c.live = true → q.buf.length < 2 → s.portUse k.val port.toNat ((q.buf.map fun b => b.n).sum) n = .ok y → c.grantable { rd := y.banks true } = true →
      ∃ u, exec (.portFetch k port) s = .next u ∧ CoreStep s u k.val { c with
        vx := { c.vx with ports := c.vx.ports.setIfInBounds port.toNat (some { q with buf := q.buf ++ [⟨n, y.read s.mem, none⟩] }) } }) ∧
    (∀ id : BitVec 2,
      let r := c.rdv[id.toNat]
      let there (st : Stream) : Bool := r.mask.getLsbD (streamIx st)
      (r.mask = 0#8 ∨ r.mask ≠ r.arrived → exec (.rendezvousLeave k id) s = .next s) ∧
      (r.mask ≠ 0#8 → r.mask = r.arrived → c.mx.outst = [] →
        (∀ st ∈ engines, there st = true → ∃ o f, (c.eng st).outst = [o] ∧ o.push = pushFifo st f ∧ o.fl = 0#8 ∧ o.done = false) →
        ∃ u d, exec (.rendezvousLeave k id) s = .next u ∧ CoreStep s u k.val d ∧
        (∀ n : Fin 4, n.val ≠ id.toNat → d.rdv[n.val] = c.rdv[n.val]) ∧ d.rdv[id.toNat] = {} ∧
        (∀ q : Fin 4, d.q[q.val] = if r.mask.getLsbD q.val then
          { c.q[q.val] with pc := c.q[q.val].pc + 1#64, st := .ready, wword := 0#32, wmask := 0#64, answer := none, busy := false } else c.q[q.val]) ∧
        (∀ st ∈ engines, d.eng st = if there st then { c.eng st with pc := (c.eng st).pc + 1#32, st := .running, outst := [] } else c.eng st) ∧
        (∀ n < 10, vget d.fifo n {} = if ∃ st ∈ engines, there st = true ∧ (c.eng st).outst.any (fun o => o.push == some n) = true
          then visible (vget c.fifo n {}) else vget c.fifo n {}) ∧
        d.vx = (if there .v then { c.vx with ports := c.vx.ports.map fun p => p.map fun y => { y with buf := [] } } else c.vx) ∧
        d.sys = c.sys ∧ d.x = c.x ∧ d.mx = (if there .m then { c.mx with synced := true } else c.mx) ∧ d.job = c.job)) ∧
    (let more := if c.sys.rplcM = 0xFFFFFFFF#32 then c.sys.rplcM else c.sys.rplcM + 1#32
     ∀ (w : Outst) (cells : List (Nat × List Byte)) (products bytes : Nat),
      (c.m.outst ++ c.mx.outst).find? (fun o => !o.done && o.redo.isSome) = some w → w.redo = some (.oa cells products bytes) →
      let f (x : Outst) : Outst := if x.id = w.id then { w with fails := w.fails + 1 } else x
      (w.fails < 3 → ∃ u, exec (.matrixReplay k) s = .next u ∧ CoreStep s u k.val { c with
        sys := { c.sys with rplcM := more }, m := { c.m with outst := c.m.outst.map f }, mx := { c.mx with outst := c.mx.outst.map f } }) ∧
      (3 ≤ w.fails → c.job.isSome = true → c.fault = none → c.m.outst ++ c.mx.outst = [w] → w.own = false → w.undo.mem = [] →
        ∃ u r, exec (.matrixReplay k) s = .next u ∧ r.cause = cMREPLAY ∧ (u.core k.val).fault = some r ∧ (u.core k.val).sys.rplcM = c.sys.rplcM ∧
        (u.core k.val).m.outst = [] ∧ (u.core k.val).mx.outst = [] ∧
        (u.core k.val).mx.oa = w.undo.oas.foldl (fun v e => v.setIfInBounds e.1 e.2) c.mx.oa ∧
        u.mem = cells.foldl (fun m e => Memory.blit m e.1 e.2) s.mem)) ∧
    (∀ (w : Outst) (a b : BitVec 3) (t : BitVec 4) (p : Profile) (bt z nest : Bool) (tk : Tok) (cs n : Vector Nat 6) (bf : Vector (BitVec 15) 32)
        (tab : Raw), (c.m.outst ++ c.mx.outst).find? (fun o => !o.done && o.redo.isSome) = some w →
      w.redo = some (.step (if z then .mmaz a b t p bt tk else .mma a b t p bt tk) nest cs n bf) → c.mx.active = some tab →
      let o : MmaOp := ⟨a, b, t.toNat, p, bt, z⟩
      let back := (s.undoData k.val w.undo).countReplay k.val
      (w.fails < 3 → ∀ x y, back.mmaAt o ⟨k.val, tab, cs, n, bf, nest⟩ = .ok x → back.mmaRun x o true = .ok y →
        exec (.matrixReplay k) s = .next (y.s.putOutst k.val { w with fl := y.fl, fails := w.fails + 1 })) ∧
      (MemInv s → 3 ≤ w.fails → c.job.isSome = true → c.fault = none → c.m.outst ++ c.mx.outst = [w] → w.own = false →
        ∃ u r, exec (.matrixReplay k) s = .next u ∧ r.cause = cMREPLAY ∧ (u.core k.val).fault = some r ∧ (u.core k.val).sys.rplcM = c.sys.rplcM ∧
          (u.core k.val).m.outst = [] ∧ (u.core k.val).mx.outst = [] ∧
          ∀ a, Memory.read u.mem a = Memory.read (Memory.restore s.mem w.undo.mem) a))

/-- Transfer commands in flight end (R23, R58, R159, R179, R181, R201). A command whose accesses are done, whose writes are visible and whose release can be
performed completes: it is gone with its locks and its tag is set, whatever a wait of the same clk clears; before that nothing happens. One that has
met a resolvable fault posts it and waits for its resolution; any other fault is the job's, with the command's cause and address. A transient error
counts in RPLC and changes nothing else, since the model performs each access once (log 50). A peer's refusal faults the job of a network command with NET_REFUSED, the peer's cause and the address; of any
other command it is nothing. A job all of whose open streams are stalled (which waits count as stalls is log 53), with nothing in flight, faults NO_PROGRESS for its lowest one (R28). The hard stops
of a faulted job follow in the next clk. -/
def Obligations.CommandsEndOrFault : Prop :=
  ∀ (s : State) (k : CoreIx) (id : Nat),
    let c := s.core k.val
    let faults (i : Instr) (f : FaultRec → Prop) : Prop := ∃ t r l, exec i s = .next t ∧ f r ∧ .event (.hardStop k) ∈ l ∧
      CoreStep { s.later l with fresh := t.fresh } t k.val { c with fault := some r }
    (∀ (e : Cmd) (o : XOp), s.cmd? k.val id = some e → xopOfWord e.word = some o → ¬ (e.st = .network ∧ o.kind = .get) →
      (s.completable k.val e o.x = false → exec (.commandComplete k id) s = .next s) ∧
      (s.completable k.val e o.x = true → ∃ t, exec (.commandComplete k id) s = .next t ∧ t.mem = s.mem ∧ t.writes = s.writes ∧
        (∀ x ∈ (t.core k.val).x.cmds, x ∈ c.x.cmds ∧ x.id ≠ id) ∧ (∀ x ∈ c.x.cmds, x.id ≠ id → x ∈ (t.core k.val).x.cmds) ∧
        (e.tagged = false → (t.core k.val).sys.tags.getLsbD o.x.tag.toNat = true) ∧ ∀ j, j ≠ k.val → t.core j = s.core j)) ∧
    (∀ e, s.cmd? k.val id = some e →
      (∃ t, exec (.transientReplay k id) s = .next t ∧ CoreStep s t k.val { c with sys := { c.sys with
        rplcX := if c.sys.rplcX = 0xFFFFFFFF#32 then c.sys.rplcX else c.sys.rplcX + 1#32 } }) ∧
      (e.st ≠ .failed → exec (.commandFault k id) s = .next s) ∧
      (e.st = .failed → e.cause = cXLATE ∨ e.cause = cPERM ∨ e.cause = cSTAGE_ABSENT → ∃ t, exec (.commandFault k id) s = .next t ∧
        t.core k.val = cmdPut s k.val id (fun x => { x with st := .resolution }) ∧ (∀ j, j ≠ k.val → t.core j = s.core j) ∧
        ∃ y ∈ (t.die (k.val / 192)).fq ++ (t.die (k.val / 192)).fqWait, y.core = k.val ∧ y.cause = e.cause ∧ y.addr = e.addr ∧ y.cmd = some (s.cmdRef k.val e)) ∧
      (c.job.isSome = true → c.fault = none →
        (e.st = .failed → e.cause ≠ cXLATE → e.cause ≠ cPERM → e.cause ≠ cSTAGE_ABSENT → faults (.commandFault k id) fun r =>
          r.cause = e.cause ∧ r.info = e.addr ∧ r.pc = e.pc) ∧
        (∀ cause addr, e.st = .network → faults (.peerRefusal k id cause addr) fun r =>
          r.cause = cNET_REFUSED ∧ r.info = addr ∧ r.peer = cause)) ∧
      (∀ cause addr, e.st ≠ .network → exec (.peerRefusal k id cause addr) s = .next s)) ∧
    (s.cmd? k.val id = none → exec (.commandComplete k id) s = .next s ∧ exec (.commandFault k id) s = .next s ∧
      exec (.transientReplay k id) s = .next s) ∧
    (∀ (j : Job), c.job = some j → c.fault = none → c.preempt = none →
      let waiting : List Nat := (List.range 8).filter fun i => j.expect.getLsbD i && !j.done.getLsbD i
      (∀ i rest, waiting = i :: rest → (∀ n ∈ waiting, c.stalledAt n = true) → c.x.cmds = [] → c.x.queue = [] → c.mx.go = false → c.mx.outst = [] →
        faults (.noProgress k) fun r => r.cause = cNO_PROGRESS ∧ r.stream = BitVec.ofNat 8 i ∧ r.pc = c.pcAt i) ∧
      ((∃ n ∈ waiting, c.stalledAt n = false) ∨ c.x.cmds ≠ [] → exec (.noProgress k) s = .next s))
/-- Jobs end, are saved, and stop; work items complete (R22, R27, R30, R153, R155, R226, R238, R239, R257, R258). A job whose streams have all ended and
whose commands are done leaves its core, its FIFOs empty; while a stream is open nothing happens. With the last core of its team the work item's
completion is due. A pre-emption request is noted, and a `spillm` or `fillm` under way stops at the register in progress. At its boundary a pre-empted
core's image is written, the core is free, and with the last core the team is suspended, or its item completes if something has stopped it; before it
nothing happens; an image that cannot be written faults SAVE_AREA. A hard stop frees the core, its commands abandoned, its
stores standing, those on their way too, and the core free once its own job is done (log 73, the model's reading of R155), its fault kept for the item's record. A settled team ends:
its record is written and its slot is free; a plan's item waits until the writes of its jobs have reached their homes (R447). Its status is a fault, the one of the
lowest core, else why it was stopped, else a deferred access that was aborted, else OK. -/
def Obligations.JobsEndSaveAndStop : Prop :=
  (∀ (s : State) (k : CoreIx),
    let c := s.core k.val
    let d := k.val / 192
    let alone (j : Job) : Prop := ∀ m, s.team? d j.team = some m → ∀ i ∈ m.cores, i ≠ k.val → s.runs j.team i = false
    (c.job = none → exec (.jobComplete k) s = .next s ∧ exec (.hardStop k) s = .next s ∧ exec (.saveComplete k) s = .next s) ∧
    (∀ j, c.job = some j →
      (c.fault = none → j.done = j.expect → c.x.cmds = [] → c.x.queue = [] → ∃ t, exec (.jobComplete k) s = .next t ∧
        t.mem = s.mem ∧ t.writes = s.writes ∧ (∀ i, i ≠ k.val → t.core i = s.core i) ∧
        t.core k.val = { c with job := none, preempt := none, kept := none, last := some j.func, fifo := Vector.replicate 10 {} } ∧
        (∀ m, s.team? d j.team = some m → m.saves = [] → alone j → .event (.workItemComplete (Fin.ofNat 8 d) j.team) ∈ t.due)) ∧
      (j.done ≠ j.expect ∨ c.x.cmds ≠ [] ∨ c.x.queue ≠ [] ∨ c.fault ≠ none → exec (.jobComplete k) s = .next s) ∧
      (∃ t, exec (.hardStop k) s = .next t ∧ t.writes = s.writes ∧
        (∀ i, i ≠ k.val → t.core i = { s.core i with fault := (t.core i).fault }) ∧
        (t.core k.val).job = none ∧ (t.core k.val).fault = none ∧ (t.core k.val).preempt = none ∧ (t.core k.val).last = some j.func ∧
        (t.core k.val).x.cmds = [] ∧ (t.core k.val).x.queue = [] ∧ (t.core k.val).q = c.q ∧
        ∀ m f, s.team? d j.team = some m → c.fault = some f → ∃ n, t.team? d j.team = some n ∧ n.faults = m.faults ++ [(k.val, f)]) ∧
      (∀ p cs, s.boundary k.val = some (p, cs) →
        let q := (s.nestRecord k.val p.reason).modCore k.val Core.quiesce
        (∀ slot u, q.writeImage k.val 0 p.reason cs 1 = .ok (slot, u) → ∃ t, exec (.saveComplete k) s = .next t ∧ t.mem = u.mem ∧
          (∀ i, i ≠ k.val → t.core i = s.core i) ∧ (t.core k.val).job = none ∧ (t.core k.val).preempt = none ∧
          (t.core k.val).last = some j.func ∧ (t.core k.val).kept = some (j.team, j.rank.toNat) ∧
          (t.core k.val).x.cmds = [] ∧ (t.core k.val).x.queue = [] ∧
          ∀ m, s.team? d j.team = some m →
            let saves := m.saves ++ [⟨j.rank.toNat, slot, k.val, c.meterJob, (q.core k.val).sampledFormats cs, none⟩]
            (¬ alone j → ∃ n, t.team? d j.team = some n ∧ n.saves = saves) ∧
            (alone j → m.stop = none → m.faults = [] → ∃ x ∈ (t.die d).cands, x.kind = .suspended ∧ x.team.saves = saves) ∧
            (alone j → m.stop ≠ none ∨ m.faults ≠ [] → .event (.workItemComplete (Fin.ofNat 8 d) j.team) ∈ t.due)) ∧
        (∀ e, q.writeImage k.val 0 p.reason cs 1 = .error e → ∃ t r, exec (.saveComplete k) s = .next t ∧
          t.core k.val = { c with fault := some r } ∧ r.cause = cSAVE_AREA ∧ ⟨s.clk + 1, .event (.hardStop k)⟩ ∈ t.agenda))) ∧
    (s.boundary k.val = none → exec (.saveComplete k) s = .next s) ∧
    ∀ r, (c.live = true → ∃ t qs, exec (.softPreemptRequest k r) s = .next t ∧
        CoreStep s t k.val { c with preempt := some { reason := r, since := s.dtime }, q := qs } ∧
        ∀ q : Fin 4,
          let b := c.q[q.val]
          let run : Prop := b.busy = true ∧ ∃ w x y z, (vget c.code q.val [])[b.pc.toNat]? = some w ∧
            (decodeSeq w = .ok (.spillm x y z) ∨ decodeSeq w = .ok (.fillm x y z))
          (run → qs[q.val] = { b with busy := false, trpc := b.pc.setWidth 32 }) ∧ (¬ run → qs[q.val] = b)) ∧
      (c.live = false → exec (.softPreemptRequest k r) s = .next s)) ∧
  (∀ (s : State) (d : DieIx) (n : Nat),
    (s.team? d.val n = none → exec (.workItemComplete d n) s = .next s) ∧
    ∀ m, s.team? d.val n = some m →
      ((∃ i ∈ m.cores, s.runs m.id i = true) → exec (.workItemComplete d n) s = .next s) ∧
      ((∃ w ∈ s.writes, w.id ∈ m.trail) → exec (.workItemComplete d n) s = .next s) ∧
      ((∀ i ∈ m.cores, s.runs m.id i = false) → (∀ w ∈ s.writes, w.id ∉ m.trail) → m.plan = none → m.item.evt = false → m.saves = [] →
        let r := m.result (s.func m.func).save
        (r.status = if m.faults ≠ [] then 2 else if let some x := m.stop then x.toNat else if m.deferred.isSome then 1 else 0) ∧
        (m.faults ≠ [] → ∃ f ∈ m.faults, (∀ g ∈ m.faults, f.1 ≤ g.1) ∧ r.cause = f.2.cause ∧ r.stream = f.2.stream ∧ r.core = f.1 % 192 ∧ r.info = f.2.info) ∧
        ∀ u, s.hostWrite m.func m.item.compl (s.recordBytes d.val m.item r) false = .ok u → ∃ t, exec (.workItemComplete d n) s = .next t ∧
          t.mem = u.mem ∧ t.team? d.val n = none ∧ t.cores = s.cores))

/-- The plan engine's and the dispatch slice's events (R221 to R227, R232, R233, R235, R237, R397, R413, R425, R426, R441). An answer reaches the block stream that waits for it:
its register holds it and the stream is ready at its next word. A sample is folded into its entry's statistics. A pipeline break of a cancelled run ends it, as does one whose
output entry its function no longer owns (log 106, the model's choice); else a materialised output is written and registered with its version one higher, and the run goes on to the next node. The head item of a queue that reads and passes its checks is
a candidate; one that fails is retired with the status of its first failing check, and one whose function is held is not read. The first pending queue takes the lowest free slot; while one is pending,
a queue that has dispatched 64 items from its slot gives it up and is pending again, its item that has been read no candidate until it is mapped anew; a queue empty for 2,048 clk loses its own. A scan starts a lone candidate that fits: it runs on the lowest free cores, a rank each, all in one step with the code of the image at the start (logs 75 and 11, the
model's choices). A running item past its hard deadline is pre-empted on
every core. A die is overloaded once a candidate has stood unfitting for 4,096 clk. A hamper that finds a slot and cores is a candidate there, else it is refused;
one whose item was cancelled on the way is retired there (R233); its sender drops an accepted candidate and ranks a refused one again. -/
def Obligations.PlanAndDispatchEvents : Prop :=
  ∀ (s : State) (d : DieIx),
    let x := s.die d.val
    let p := x.plan
    let plan (q : PlanEng) : State := s.modDie d.val fun y => { y with plan := q }
    (∀ a rest k i r, p.answers = a :: rest → s.refCore ⟨a.1, a.2.1, .queue, 0#64⟩ = some k →
      let c := s.core k
      let b := c.q[a.2.2.1.val]
      b.st = .waiting → b.resol = false → decodeSeq b.wword = .ok i → planDst i = some r →
      (∀ q : Fin 4, q ≠ a.2.2.1 → c.q[q.val].st ≠ .waiting) →
      ∃ t b', exec (.planResponse d) s = .next t ∧ RegPut { b with st := .ready, wword := 0#32, wmask := 0#64, answer := none } b' r a.2.2.2 ∧
        CoreStep (plan { p with answers := rest }) t k { c with q := c.q.set a.2.2.1.val b' }) ∧
    (∀ o rest, p.samples = o :: rest →
      let e := p.entry o.entry
      let v := decodeElem o.fmt o.bits
      let sc := min (e.scount + 1) (2 ^ 32 - 1)
      let nz := if v.isZero then e.nzc else min (e.nzc + 1) (2 ^ 32 - 1)
      let lg : Option Int := match v with
        | .fin _ m y _ => if m = 0 then none else some (max (-32768) (min 32767 (y + (Nat.log2 m : Nat))))
        | _ => none
      let n := { e with scount := sc, nzc := nz, dens := 65535 * nz / sc, emin := lg.elim e.emin (min e.emin), emax := lg.elim e.emax (max e.emax) }
      (e.state = 1 → e.trk = true → e.owner = o.func → ∃ q, EntryPut { p with samples := rest } q o.entry n ∧ exec (.samplerSample d) s = .next (plan q)) ∧
      (e.state ≠ 1 ∨ e.trk = false ∨ e.owner ≠ o.func → exec (.samplerSample d) s = .next (plan { p with samples := rest }))) ∧
    (∀ h y r vs, mget? p.handles h = some y → y.run = some r → mget? r.vals r.node = some vs →
      let nd := y.query.node r.node
      let e := (p.entry nd.entry).broke nd ⟨nd.lab, nd.lab.map y.query.extent, nd.fmt, vs.toArray⟩
      (r.cancel = true → exec (.pipelineBreak d h) s = .next (s.endRun d.val h 4 0 0)) ∧
      (r.cancel = false → y.query.isBreak r.node = false → y.stale = 0 → y.query.replan = false →
        exec (.pipelineBreak d h) s = .next ((s.planAccount y.func r 3 1).planAdvance d.val h (r.node + 1))) ∧
      (r.cancel = false → y.query.isBreak r.node = true → (p.entry nd.entry).state = 0 ∨ (p.entry nd.entry).owner ≠ y.func →
        exec (.pipelineBreak d h) s = .next (s.endRun d.val h 1 5 0)) ∧
      (r.cancel = false → y.query.isBreak r.node = true → (p.entry nd.entry).state ≠ 0 → (p.entry nd.entry).owner = y.func →
        ∀ u, s.writeEntry d.val y.func e vs .write = .ok u →
        ∃ t, exec (.pipelineBreak d h) s = .next t ∧ t.mem = u.mem ∧ (∀ k, coreRest (t.core k) = coreRest (s.core k)) ∧
          let n := (t.die d.val).plan.entry nd.entry
          n.dims = nd.lab.map y.query.extent ∧ n.fmt = nd.fmt ∧ n.version = e.version + 1#32)) ∧
    (∀ i e, mget? x.slots i = some e →
      let h := s.queue e.queue
      let f := h.owner
      (h.head = h.tail ∨ (s.func f).state = 2#8 → exec (.itemRead d i) s = .next s) ∧
      (h.head ≠ h.tail → h.desc.isSome = true → x.slotIdle i = true → (s.func f).state ≠ 2#8 →
        ∀ b, s.hostRead f (h.ring + BitVec.ofNat 64 (64 * (h.head.toNat % 2 ^ h.lsize))) 64 = .ok b → s.complOk f (itemOf b).compl = true →
        let t := itemOf b
        let team : Team := { id := 0, item := t, func := f, queue := BitVec.ofNat 16 e.queue }
        let bad (st : Nat) : Prop := exec (.itemRead d i) s =
          .next ((s.consume d.val i e.queue false).endTeam d.val team { status := st, team := t.team.toNat })
        if h.cancelled.contains h.head.toNat then bad 5
        else if itemReserved b = true ∨ t.team = 0#8 ∨ h.pmax < t.prio.toNat ∨ (t.hd = true ∧ t.deadline = 0#64) ∨ t.image.toNat % 64 ≠ 0 then bad 7
        else if (s.partCores f d.val).length < t.team.toNat then bad 9
        else if t.shape ≠ 0#64 ∧ s.badShape f t.shape = true then bad 8
        else exec (.itemRead d i) s = .next (({ s with next := s.next + 1 } : State).modDie d.val fun y =>
          { y with cands := y.cands ++ [{ id := s.next, kind := .queue, team := team, slot := i, since := s.dtime }] })) ∧
      (h.head = h.tail → h.closing = false → e.emptyAt + 2048 ≤ s.clk →
        exec (.queueSlotIdle d i) s = .next (s.modDie d.val fun y => { y with slots := mdel y.slots i })) ∧
      (h.head ≠ h.tail ∨ s.clk < e.emptyAt + 2048 → exec (.queueSlotIdle d i) s = .next s)) ∧
    (x.pendq = [] → exec (.queueMapped d) s = .next s) ∧
    (∀ j < 32, ∀ e, x.pendq ≠ [] → mget? x.slots j = some e → 64 ≤ e.sent → (∀ y ∈ x.cands, y.kind = .queue → y.slot = j → y.away = false) →
      ∃ t, exec (.queueMapped d) s = .next t ∧ e.queue ∈ (t.die d.val).pendq ∧
        ∀ y ∈ x.cands, y.kind = .queue → y.slot = j → ∃ z ∈ (t.die d.val).cands, z.id = y.id ∧ z.team = y.team ∧ z.kind = .queue ∧
          (z.slot = 32 ∨ x.pendq.head? = some y.team.queue.toNat)) ∧
    (∀ q rest i, x.pendq = q :: rest → (∀ e ∈ x.slots, e.2.sent < 64) → i < 32 → mget? x.slots i = none → (∀ j < i, (mget? x.slots j).isSome) →
      ∃ t, exec (.queueMapped d) s = .next t ∧ t.mem = s.mem ∧ t.cores = s.cores ∧ (t.die d.val).pendq = rest ∧
        mget? (t.die d.val).slots i = some { queue := q, sent := 0, emptyAt := s.clk } ∧ (∀ j, j ≠ i → mget? (t.die d.val).slots j = mget? x.slots j) ∧
        ∀ a b ring lsize die pmax head, (s.queue q).desc = some a → s.hostRead (s.queue q).owner a 64 = .ok b →
          parseDesc b = some (ring, lsize, die, pmax, head) → t.queue q = { s.queue q with ring := ring, lsize := lsize, pmax := pmax }) ∧
    (∀ c im, x.cands = [c] → c.kind = .queue → c.away = false → c.slot < 32 → c.team.saves = [] → c.team.plan = none → s.eligible c.team.func = true →
      (c.team.item.deadline = 0#64 ∨ s.dtime ≤ c.team.item.deadline.toNat) → x.held = [] → x.reserving = none → 0 < s.mg.width →
      s.fits d.val c = true → s.readImage c.team.func c.team.item.image = .ok (some im) →
      ∃ t m, exec (.dispatchScan d) s = .next t ∧ m ∈ (t.die d.val).teams ∧ (t.die d.val).cands = [] ∧ m.item = c.team.item ∧ m.func = c.team.func ∧
        m.cores = (s.freeCores c.team.func d.val).take c.team.item.team.toNat ∧ m.start = s.dtime ∧ m.code = im.code ∧
        ∀ k r, (k, r) ∈ m.cores.zipIdx → ∃ j, (t.core k).job = some j ∧ j.team = m.id ∧ j.rank = BitVec.ofNat 8 r ∧ j.func = c.team.func ∧
          j.expect = im.expect ∧ j.done = 0#8 ∧ j.args = c.team.item.args ∧ (t.core k).code = im.code) ∧
    (∀ n m, s.team? d.val n = some m →
      (m.item.hd = true → m.item.deadline.toNat < s.dtime → m.stop = none → m.faults = [] → s.settled m = false →
        ∃ t, exec (.hardDeadline d n) s = .next t ∧ t.team? d.val n = some { m with stop := some 4#16 } ∧ t.mem = s.mem ∧ t.cores = s.cores ∧
          ∀ k : CoreIx, k.val ∈ m.cores → s.runs m.id k.val = true → .event (.softPreemptRequest k 4#8) ∈ t.due) ∧
      (m.item.hd = false ∨ s.dtime ≤ m.item.deadline.toNat → exec (.hardDeadline d n) s = .next s)) ∧
    (∃ b : Bool, exec (.dieOverload d) s = .next (s.modDie d.val fun y => { y with overloaded := b }) ∧
      (b = true ↔ x.overloaded = true ∨ ∃ o ∈ x.overload, o.2 + 4096 ≤ s.clk)) ∧
    (∀ id h, s.hamper? id = some h → h.dst < 8 → h.src < 8 →
      let c := h.cand
      let room : Prop := (s.die h.dst).teams.length < 24 ∧ c.need ≤ (s.freeCores c.team.func h.dst).length
      let told (ok : Bool) : State := { s with hampers := s.hampers.map fun y => if y.id = id then { y with answer := some ok } else y }
      (h.answer = none → exec (.hamperAnswer id) s = .next s ∧
        (h.cancelled = false → room → ∃ n : Cand, exec (.hamperArrival id) s = .next (({ told true with next := s.next + 1 } : State).modDie h.dst fun y =>
            { y with cands := y.cands ++ [n] }) ∧ n.id = s.next ∧ n.since = c.since ∧ n.away = false ∧ n.team = { c.team with migrated := true, saves := n.team.saves } ∧
          n.team.saves.length = c.team.saves.length ∧ (∀ i, ∀ v : Saved, (byKey Saved.rank c.team.saves)[i]? = some v → n.team.saves[i]? =
            some ({ v with region := some ((((h.flits.drop (1 + 41 * i)).take 41).flatten).take 0x2840) } : Saved)) ∧
          n.kind = if c.team.saves = [] then .hamper else .suspended) ∧
        (h.cancelled = false → ¬ room → exec (.hamperArrival id) s = .next (told false)) ∧
        (h.cancelled = true → exec (.hamperArrival id) s = .next ((told true).retire h.dst { c with id := s.next, kind := .hamper } 5))) ∧
      (∀ ok, h.answer = some ok → exec (.hamperArrival id) s = .next s ∧ ∃ t, exec (.hamperAnswer id) s = .next t ∧
        (∀ y ∈ t.hampers, y.id ≠ id) ∧ t.cores = s.cores ∧
        (t.die h.src).cands = if ok then (s.die h.src).cands.filter fun y => y.id != c.id
          else (s.die h.src).cands.map fun y => if y.id = c.id then { y with away := false } else y))
/-- What the part's clock brings (R235, R252 to R255, R259, R263, R264, R245). At a frame every die advertises its free slots and cores. A partition's tick
chooses the incoming function: the lowest enabled one of its gang with credit, else the next after the current one that has work; a tick within credit slices
uses one up, one without a choice is no switch, and one that falls while another stands is not taken (log 27, the model's reading); a tick that a held function owes falls once its saves are complete. It completes at once where no core still runs a job of the outgoing function or is being scrubbed of it: the incoming one is current, its
credit spent on further slices; else its teams are pre-empted and the tick stands. At its save deadline a late die has it extended once. At the void deadline it is void, the
incoming function credited, the dies noted as late, which restore once they have saved. A function whose
remaining quota is not above 0 is held, its jobs pre-empted, and owes a tick where it is current; at its window's start debt is carried, changed fields are in force, and a function with quota above 0 is
enabled again. Shared costs are split in whole pJ by owned pages, cores, hedgerow slots and queues; a function that an FLR has stopped bears no share (log 78, the
model's reading). A scrub of 2,048 clk ends with all its core held as zero. -/
def Obligations.ClockEvents : Prop :=
  ∀ (s : State),
    let runs (m : Team) (k : CoreIx) : Prop := k.val ∈ m.cores ∧ s.runs m.id k.val = true
    let stops (t : State) (f : Byte) (why : Byte) : Prop := ∀ d : DieIx, ∀ m ∈ (s.die d.val).teams, m.func = f → ∀ k, runs m k →
      .event (.softPreemptRequest k why) ∈ t.due
    let on (f : Byte) : Prop := (s.func f).state = 1#8 ∨ (s.func f).state = 2#8
    (∃ t, exec .freeSlotBroadcast s = .next t ∧ t.mem = s.mem ∧ t.cores = s.cores ∧ ∀ d : DieIx,
      let x := s.die d.val
      (t.die d.val).teams = x.teams ∧ (t.die d.val).adSlots = 24 - x.teams.length ∧ ∀ p < 32, mget (t.die d.val).adCores p 0 =
        ((List.range 192).filter fun i =>
          let c := s.core (192 * d.val + i)
          s.corePart (192 * d.val + i) == BitVec.ofNat 8 p && !s.failed.contains (192 * d.val + i) && c.job.isNone && c.scrub.isNone).length) ∧
    (∀ p < 32, (∀ q < 32, q ≠ p → (s.part q).tick = none) →
      let x := s.part p
      let late (f : Byte) (d : Nat) : Prop := ∃ i < 192, (∃ j, (s.core (192 * d + i)).job = some j ∧ j.func = f) ∨ ∃ n, (s.core (192 * d + i)).scrub = some (f, n)
      let saved (f : Byte) : Prop := ∀ d < 8, ¬ late f d
      let same (t : State) : Prop := t = { s with parts := t.parts, funcs := t.funcs } ∧ ∀ q, q ≠ p → t.part q = s.part q
      let credit (t : State) (f : Byte) (n : Nat) : Prop := t.func f = { s.func f with credit := n } ∧ ∀ g, g ≠ f → t.func g = s.func g
      let comesIn (t : State) (f : Byte) : Prop := exec .gangTick s = .next t ∧ same t ∧ credit t f 0 ∧
        t.part p = { x with cur := f, tick := none, voids := Vector.replicate 8 0#8, extra := (s.func f).credit, late := [], owed := (s.func f).state == 2#8 }
      let may (f : Byte) : Prop := f.toNat < 64 ∧ (s.func f).part.toNat = p ∧ (s.func f).state = 1#8 ∧ f ≠ x.cur
      let work (f : Byte) : Prop := ∃ d < 8, ∃ c ∈ (s.die d).cands, c.team.func = f ∧ c.away = false ∧ ¬ (c.kind = .queue ∧ c.slot = 32)
      let rich (f : Byte) : Prop := may f ∧ 0 < (s.func f).credit
      let next (f : Byte) : Prop := (rich f ∧ ∀ g, rich g → f.toNat ≤ g.toNat) ∨
        ((∀ g, ¬ rich g) ∧ may f ∧ work f ∧ ∀ g, may g → work g → (f - x.cur).toNat ≤ (g - x.cur).toNat)
      let quiet : Prop := ∀ q < 32, q ≠ p → (s.part q).owed = false ∧ s.reached (1000 * (s.part q).slice) = false
      (x.owed = false → quiet →
        (∀ y, x.tick = some y → (saved y.outgoing → ∃ t, comesIn t y.incoming) ∧ (¬ saved y.outgoing → exec .gangTick s = .next s)) ∧
        (x.tick = none → s.reached (1000 * x.slice) = false → exec .gangTick s = .next s) ∧
        (x.tick = none → s.reached (1000 * x.slice) = true →
          (0 < x.extra → ∃ t, exec .gangTick s = .next t ∧ same t ∧ t.funcs = s.funcs ∧ t.part p = { x with extra := x.extra - 1 }) ∧
          (x.extra = 0 → (∀ f, ¬ next f) → ∃ t, exec .gangTick s = .next t ∧ same t ∧ t.funcs = s.funcs ∧ t.part p = x) ∧
          (∀ f, x.extra = 0 → next f →
            (saved x.cur → ∃ t, comesIn t f) ∧
            (¬ saved x.cur → ∃ t, exec .gangTick s = .next t ∧ t.funcs = s.funcs ∧ t.cores = s.cores ∧ t.mem = s.mem ∧ stops t x.cur 0#8 ∧
              t.part p = { x with extra := 0, late := [], tick := some { at_ := s.multiple (1000 * x.slice), outgoing := x.cur, incoming := f } })))) ∧
      (x.owed = true → x.tick = none → quiet →
        (saved x.cur → (∀ f, next f → ∃ t, comesIn t f) ∧
          ((∀ f, ¬ next f) → ∃ t, exec .gangTick s = .next t ∧ same t ∧ t.funcs = s.funcs ∧ t.part p = { x with owed := false })) ∧
        (¬ saved x.cur → s.reached (1000 * x.slice) = false → exec .gangTick s = .next s)) ∧
      (∀ y, x.tick = some y → y.escalated = false →
        let l := (List.range 8).filter fun d => !s.dieSaved y.outgoing d
        let dead (n : Nat) : Prop := y.at_ + n * x.tsd ≤ s.dtime ∧ l ≠ []
        (¬ dead 1000 ∨ y.extended = true → exec .gangSaveDeadline s = .next s) ∧
        (dead 1000 → y.extended = false → exec .gangSaveDeadline s = .next (l.foldl (fun u d => u.lateEvent p y d 0)
          (s.modPart p fun z => { z with tick := some { y with extended := true } }))) ∧
        (¬ dead 1500 → exec .gangVoidDeadline s = .next s) ∧
        (dead 1500 → (∀ d ∈ l, x.voids.getD d 0#8 < 2#8) → ∃ t, exec .gangVoidDeadline s = .next t ∧
          (t.func y.incoming).credit = (s.func y.incoming).credit + 1 ∧
          t.part p = { x with tick := none, late := l, lateAt := y.at_,
                              voids := Vector.ofFn fun d => if d.val ∈ l then x.voids[d] + 1#8 else 0#8 })) ∧
      ((∀ q < 32, q ≠ p → (s.part q).late = []) →
        (∀ y, x.tick = some y → ∃ t, exec .lateSaveRestore s = .next t ∧ same t ∧ t.funcs = s.funcs ∧ t.part p = x) ∧
        (x.tick = none → ∃ t, exec .lateSaveRestore s = .next t ∧ t.part p = { x with late := x.late.filter fun d => !s.dieSaved x.cur d }))) ∧
    (∃ t, exec .quotaCheck s = .next t ∧ t.mem = s.mem ∧ t.cores = s.cores ∧ t.dies = s.dies ∧ ∀ f : Byte, f.toNat < 64 →
      let r := s.func f
      let out : Prop := r.quotaNow ≠ 0 ∧ r.state = 1#8 ∧ r.remain ≤ 0
      (out → t.func f = { r with state := 2#8, heldAt := s.dtime } ∧ stops t f 1#8 ∧
        ((s.part r.part.toNat).cur = f → (t.part r.part.toNat).owed = true)) ∧ (¬ out → t.func f = r)) ∧
    (∃ t, exec .quotaWindowStart s = .next t ∧ t.mem = s.mem ∧ t.cores = s.cores ∧ t.parts = s.parts ∧ ∀ f : Byte, f.toNat < 64 →
      let r := s.func f
      let n : Func := { r with debt := min 0 r.remain, spent := 0, quotaNow := r.quota.toNat, windowNow := r.window }
      let starts : Prop := on f ∧ s.reached (1000000 * r.windowNow) = true
      (starts → t.func f = if n.state = 2#8 ∧ (r.quota = 0#64 ∨ 0 < n.remain) then { n with state := 1#8 } else n) ∧ (¬ starts → t.func f = r)) ∧
    (∃ t, exec .sharedChargeTick s = .next t ∧ t = { s with funcs := t.funcs, commons := t.commons } ∧
      let of (c cap n : Nat) : Nat := 0x400000 * (s.rate 6 c 0xF * n / (256 * cap))
      let cur (p : Byte) : Byte := if p = 0xFF#8 then 0xFF#8 else (s.part p.toNat).cur
      let all (g : Nat → Nat) : Nat := ((List.range 8).map g).foldl (· + ·) 0
      ((∀ f : Byte, f.toNat < 64 → (s.func f).state = 3#8) → t.funcs = s.funcs ∧
        t.commons = s.commons + 0x4000 * (8 * (s.rate 6 0 0xF + s.rate 6 1 0xF + s.rate 6 3 0xF) + s.rate 6 2 0xF)) ∧
      ∀ f : Byte, f.toNat < 64 →
        let more : Nat := all (fun d => of 0 0x100000 (s.rot.filter fun e =>
              e.1 < 0x800000 && e.1 / 0x100000 == d && e.2.getLsbD 8 && (e.2.extractLsb' 0 7).toNat == f.toNat).length)
          + all (fun d => of 1 (max 1 (s.inService d).length) ((s.inService d).filter fun k => cur (s.corePart k) == f).length)
          + of 2 256 ((List.range 256).filter fun i => cur (mget s.mg.hedge i 0xFF#8) == f).length
          + all (fun d => of 3 4096 (s.queues.filter fun q => q.2.owner == f && q.2.desc.isSome && q.2.die == d).length)
        ((s.func f).state ≠ 3#8 → t.func f = { s.func f with total := (s.func f).total + more, spent := (s.func f).spent + more }) ∧
        ((s.func f).state = 3#8 → t.func f = s.func f)) ∧
    (∃ t, exec .flrScrubComplete s = .next t ∧ (∀ a < scratchLoc 0, Memory.read t.mem a = Memory.read s.mem a) ∧
      ((∀ e ∈ s.cores, ∀ x, e.2.scrub = some x → s.clk < x.2) → t = s) ∧
      ∀ k : CoreIx, ∀ f n, (s.core k.val).scrub = some (f, n) → n ≤ s.clk →
        let c := t.core k.val
        c.scrub = none ∧ (∀ q : Fin 4, c.q[q.val].g = Vector.replicate 32 0#64 ∧ c.q[q.val].p = 0#8) ∧ c.sys.tags = 0#64 ∧
        c.fifo = Vector.replicate 10 {} ∧ c.tlb = [] ∧ c.vx.regs = [] ∧ c.vx.masks = Vector.replicate 4 0#1024 ∧
        c.mx.oa = Vector.replicate 2 {} ∧ c.mx.side = Vector.replicate 16 { er := Vector.replicate 64 0#8, ec := Vector.replicate 64 0#8 } ∧
        (∀ a < 0x200000, Memory.read t.mem (scratchLoc k.val + a) = 0#8) ∧ ∀ a < 0x40000, Memory.read t.mem (accLoc k.val + a) = 0#8)
/-- Falig messages (R217, R218, R448, R451, R452, R54, R149, R150, R200, R219, R220, R233, R241, R453). In the ready phase a message with a bad header is answered malformed and one whose function is not its
connection's is refused, with no effect; each costs its bytes' energy and is answered once. MODULE_SET of the PF sets the module number; QUEUE_CREATE binds a queue of the function to a
valid descriptor, its tail at its head, also one that is bound or closing, whose undispatched items are gone (log 31, the model's reading); QUEUE_DESTROY discards what has not been dispatched, on other dies and in hampers too, and does not find a queue without a descriptor; an EVRING_SET
out of range and a message whose header is bad, its function wrong or not, are malformed (log 105, the model's choices for these three); CANCEL takes effect after what completes in its clk and before the scans; it retires the work id's candidates and pre-empts its running teams, also of a queue
that is closing; FAULT_ANSWER `resolved` lets every block stream that waits on the 64 KiB page (log 71, the model's choice) execute again, on every die; an abort faults the entry's job alone; a response carries the header of R217;
TLB_INVAL drops translations at every core; NETCTX_SET and EVRING_SET fill the function's record. ATTEST answers its report in five parts and BOOT_RECORD the sector, in fallow mode too; there IMAGE_LOAD puts
bytes into flash and IMAGE_COMMIT begins the image's verification, during which both are refused; done in the next clk (log 108, the model's choice), it resets the part if the image verifies, else tells why
not in the sector. During a start every message is refused. -/
def Obligations.HostMessages : Prop :=
  ∀ (s : State) (m : Falig) (c : Conn), mget? s.conns m.conn = some c →
    let f := c.func
    let u := s.etherCharge f (16 + m.body.length)
    let fine : Prop := badHeader m = false ∧ m.func = f
    let units (ws us : List Nat) : Prop := fine ∧ unitsOf m.body ws = some us
    let scans : Prop := ∀ a ∈ s.round, a.isScan = true
    let cancels (t : State) : Prop := s.fetch (.cancelLate m) = .done t ∧ (scans → exec (.cancel m) s = .next t)
    (¬ scans → exec (.cancel m) s = .next { s with round := s.round.takeWhile (fun a => !a.isScan) ++ .cancelLate m :: s.round.dropWhile fun a => !a.isScan }) ∧
    (s.phase = .reset → ∀ i n, (i, n) ∈ [(Instr.moduleSet m, 1), (.queueCreate m, 2), (.queueDestroy m, 3), (.cancel m, 4), (.faultAnswer m, 5), (.tlbInval m, 6),
      (.netctxSet m, 7), (.evringSet m, 8), (.attest m, 9), (.bootRecord m, 10), (.imageLoad m, 11), (.imageCommit m, 12)] → (n = 4 → scans) →
      Replies i s u m f n 1) ∧
    (s.phase = .ready →
      (∀ i n, (i, n) ∈ [(Instr.moduleSet m, 1), (.queueCreate m, 2), (.queueDestroy m, 3), (.cancel m, 4), (.faultAnswer m, 5),
          (.tlbInval m, 6), (.netctxSet m, 7), (.evringSet m, 8), (.attest m, 9), (.bootRecord m, 10), (.imageLoad m, 11), (.imageCommit m, 12)] →
        (n = 4 → scans) → (badHeader m = true → Replies i s u m f n 3) ∧ (badHeader m = false → m.func ≠ f ∨ n = 11 ∨ n = 12 → Replies i s u m f n 1)) ∧
      (∀ n, units [2] [n] → if f = pfCode then Replies (.moduleSet m) s { u with module := BitVec.ofNat 16 n } m f 1 0
        else m.func = f → Replies (.moduleSet m) s u m f 1 1) ∧
      (∀ q a, units [2, 8] [q, a] →
        let h := s.queue q
        let old (x : Cand) : Prop := x.kind = .queue ∧ x.team.queue.toNat = q
        (4096 ≤ q ∨ h.owner ≠ f → Replies (.queueCreate m) s u m f 2 1) ∧
        (q < 4096 → h.owner = f → ∀ b, u.hostRead f (BitVec.ofNat 64 a) 64 = .ok b →
          (∀ ring lsize die pmax head, a % 64 = 0 → parseDesc b = some (ring, lsize, die, pmax, head) →
            ∃ t, exec (.queueCreate m) s = .next t ∧ t.mem = s.mem ∧ t.cores = s.cores ∧ t.out = s.out ++ [response m f 2 0 (zeroBytes 4)] ∧
            t.queue q = { h with desc := some (BitVec.ofNat 64 a), ring := ring, lsize := lsize, die := die, pmax := pmax, head := head, tail := head, cancelled := [], closing := false } ∧
            (∀ p, p ≠ q → t.queue p = s.queue p) ∧ (∀ x ∈ t.hampers, ¬ old x.cand) ∧ ∀ d : DieIx,
              t.die d.val = { s.die d.val with cands := (t.die d.val).cands, slots := (t.die d.val).slots, pendq := (t.die d.val).pendq } ∧
              (∀ x, x ∈ (t.die d.val).cands ↔ x ∈ (s.die d.val).cands ∧ ¬ old x) ∧ (∀ e, e ∈ (t.die d.val).slots ↔ e ∈ (s.die d.val).slots ∧ e.2.queue ≠ q) ∧
              ∀ p, p ∈ (t.die d.val).pendq ↔ p ∈ (s.die d.val).pendq ∧ p ≠ q) ∧
          (a % 64 ≠ 0 ∨ parseDesc b = none → Replies (.queueCreate m) s u m f 2 3)) ∧
        (q < 4096 → h.owner = f → ∀ e, u.hostRead f (BitVec.ofNat 64 a) 64 = .error e →
          ∃ t, exec (.queueCreate m) s = .next t ∧ t.queue q = h ∧ t.out = s.out ++ [response m f 2 1 (zeroBytes 4)])) ∧
      (∀ q, units [2] [q] →
        let h := s.queue q
        (4096 ≤ q ∨ h.owner ≠ f → Replies (.queueDestroy m) s u m f 3 1) ∧
        (q < 4096 → h.owner = f → h.desc = none → Replies (.queueDestroy m) s u m f 3 2) ∧
        (q < 4096 → h.owner = f → h.desc.isSome = true → ∃ t, exec (.queueDestroy m) s = .next t ∧ t.mem = s.mem ∧ t.cores = s.cores ∧
          (t.queue q).desc = none ∧ (t.queue q).head = h.head ∧ (t.queue q).tail = h.head ∧ t.out = s.out ++ [response m f 3 0 (zeroBytes 4)] ∧
          let fresh (x : Cand) : Prop := (x.kind = .queue ∨ x.kind = .hamper) ∧ x.team.queue.toNat = q
          (∀ x ∈ t.hampers, ¬ fresh x.cand) ∧ ∀ d : DieIx, q ∉ (t.die d.val).pendq ∧ (t.die d.val).teams = (s.die d.val).teams ∧
            ∀ x ∈ (t.die d.val).cands, ¬ fresh x)) ∧
      (∀ q w, units [2, 4] [q, w] →
        let h := s.queue q
        let mine (x : Team) : Prop := x.queue.toNat = q ∧ x.plan = none ∧ x.item.wid.toNat = w
        (4096 ≤ q ∨ h.owner ≠ f → ∃ t, cancels t ∧ Billed u t ∧ t.out = s.out ++ [response m f 4 1 (zeroBytes 4)]) ∧
        (q < 4096 → h.owner = f → ∃ t, cancels t ∧
          let runs (x : Team) : Prop := mine x ∧ x.faults = [] ∧ (x.saves ≠ [] ∨ ∃ k ∈ x.cores, s.runs x.id k = true ∧ (s.core k).jobOver = false)
          ((∃ d < 8, (∃ x ∈ (s.die d).cands, mine x.team ∧ x.away = false) ∨ ∃ x ∈ (s.die d).teams, runs x) →
            t.out = s.out ++ [response m f 4 0 (zeroBytes 4)]) ∧
          ∀ d : DieIx, (∀ x ∈ (t.die d.val).cands, ¬ (mine x.team ∧ x.away = false)) ∧
          ∀ x ∈ (s.die d.val).teams, runs x →
            (∃ y ∈ (t.die d.val).teams, y.id = x.id ∧ y.stop = some 5#16) ∧
            ∀ k : CoreIx, k.val ∈ x.cores → s.runs x.id k.val = true → .event (.softPreemptRequest k 3#8) ∈ t.due)) ∧
      (∀ n a, units [4, 1] [n, a] →
        let l := (s.die (n % 8)).fq
        (1 < a → Replies (.faultAnswer m) s u m f 5 3) ∧
        (a ≤ 1 → (∀ e ∈ l, e.id.toNat ≠ n) → Replies (.faultAnswer m) s u m f 5 2) ∧
        (∀ e, a ≤ 1 → l.find? (fun x => x.id.toNat == n) = some e →
          let page (x : FaultEntry) : Prop := x.func = f ∧ x.addr.toNat / 0x10000 = e.addr.toNat / 0x10000
          let waits (x : FaultEntry) (k : Nat) (q : Fin 4) : Prop := x.cmd = none ∧ s.jobCore x.team x.rank = some k ∧ x.stream.toNat = q.val ∧
            (s.core k).q[q.val].st = .waiting ∧ (s.core k).q[q.val].resol = true
          (e.func ≠ f → Replies (.faultAnswer m) s u m f 5 1) ∧
          (e.func = f → a = 0 → ∃ t, exec (.faultAnswer m) s = .next t ∧ t.out = s.out ++ [response m f 5 0 (zeroBytes 4)] ∧
            (∀ d : DieIx, ∀ x ∈ (t.die d.val).fq ++ (t.die d.val).fqWait, ¬ page x) ∧
            (∀ j, ∀ x ∈ (t.core j).tlb, ¬ (x.func = f ∧ x.leaf ≤ e.addr.toNat / 0x10000 ∧ e.addr.toNat / 0x10000 < x.leaf + x.pages)) ∧
            ∀ d : DieIx, ∀ x ∈ (s.die d.val).fq ++ (s.die d.val).fqWait, page x → ∀ k q, waits x k q →
              let b := (s.core k).q[q.val]
              (t.core k).q[q.val] = { b with st := .ready, resol := false, pc := b.trpc.setWidth 64 }) ∧
          (e.func = f → a = 1 → (s.die (n % 8)).fqWait = [] → ∃ t, exec (.faultAnswer m) s = .next t ∧
            t.out = s.out ++ [response m f 5 0 (zeroBytes 4)] ∧ (t.die (n % 8)).fq = l.filter (fun x => x.id ≠ e.id) ∧
            ∀ k q, waits e k q → (s.core k).job.isSome = true → (s.core k).fault = none →
              (t.core k).fault = some ⟨e.cause, e.addr, e.stream, (s.core k).q[q.val].trpc, 0#8⟩))) ∧
      (∀ a n, units [8, 8] [a, n] →
        (n = 0 → a ≠ 0 → Replies (.tlbInval m) s u m f 6 3) ∧
        (n ≠ 0 ∨ a = 0 → Replies (.tlbInval m) s { u with cores := s.cores.map fun e => (e.1, { e.2 with
          tlb := e.2.tlb.filter fun x => !(x.func == f && (n == 0 || overlaps (0x10000 * x.leaf) (0x10000 * x.pages) a n)) }) } m f 6 0)) ∧
      (∀ x y z w, units [1, 2, 1, 8] [x, y, z, w] → Replies (.netctxSet m) s (u.modFunc f fun r =>
        { r with ctxs := mset r.ctxs x ⟨BitVec.ofNat 16 y, BitVec.ofNat 8 z, BitVec.ofNat 64 w⟩ }) m f 7 0) ∧
      (∀ a k, units [8, 1] [a, k] →
        (a % 64 ≠ 0 ∨ k < 6 ∨ 16 < k → Replies (.evringSet m) s u m f 8 3) ∧
        (a % 64 = 0 → 6 ≤ k → k ≤ 16 → (∀ r, (s.func f).ring = some r → r.pend = 0) → Replies (.evringSet m) s (u.modFunc f fun r =>
          { r with ring := some { base := BitVec.ofNat 64 a, lsize := k } }) m f 8 0))) ∧
    (s.phase = .ready ∨ s.phase = .fallow →
      (∀ us, units [8, 8, 8, 8] us → ∃ t, exec (.attest m) s = .next t ∧ Billed u t ∧ t.out = s.out ++ [0, 4000, 8000, 12000, 16000].map fun o =>
        response m f 9 0 (bytesOfNat 4 o ++ ((s.report m.body).drop o).take 4000)) ∧
      (fine → ∃ t, exec (.bootRecord m) s = .next t ∧ Billed u t ∧ t.out = s.out ++
        [response m f 10 0 (zeroBytes 4 ++ s.boot.bytes)])) ∧
    (s.phase = .fallow → fine →
      (∀ i n, (i, n) ∈ [(Instr.moduleSet m, 1), (.queueCreate m, 2), (.queueDestroy m, 3), (.cancel m, 4), (.faultAnswer m, 5),
        (.tlbInval m, 6), (.netctxSet m, 7), (.evringSet m, 8)] → (n = 4 → scans) → Replies i s u m f n 1) ∧
      (s.verify.isSome = true → (∀ o, units [8] [o] → Replies (.imageLoad m) s u m f 11 1) ∧ Replies (.imageCommit m) s u m f 12 1) ∧
      (∀ o, s.verify = none → units [8] [o] →
        let data := m.body.drop 8
        (data.length ≤ 4016 → o + data.length ≤ Config.imageArea →
          Replies (.imageLoad m) s { u with flash := merge (padTo o s.flash) o data } m f 11 0) ∧
        (4016 < data.length ∨ Config.imageArea < o + data.length → Replies (.imageLoad m) s u m f 11 3)) ∧
      (s.verify = none → exec (.imageCommit m) s = .next ({ u with verify := some m }.later [.verified]))) ∧
    (s.verify = some m →
      match verifyImage s.flash s.fuse with
      | .error (r, fl) => ∃ t, s.fetch .verified = .done t ∧ Billed { s with verify := none, boot := { s.boot with reason := r, flags := fl } } t ∧
          t.out = s.out ++ [response m f 12 1 (zeroBytes 4)]
      | .ok v => ∃ t, s.fetch .verified = .done t ∧ t.phase = .reset ∧ t.boot = { s.boot with magic := 0x42535354#32, count := 0#8, svn := v } ∧ t.flash = s.flash ∧
          t.fuse = s.fuse ∧ t.mem = State.reset.mem ∧ t.cores = State.reset.cores ∧
          t.out = s.out ++ [response m f 12 0 (zeroBytes 4)])

/-- The host's windows (R216, R218, R220, R222, R241, R244 to R251, R259, R54, R448, R451). A connection is bound to a function; in fallow mode one on port 0 that the fused provisioning key authenticates acts as
the PF. A write of at most 64 KiB lands in the function's memory and is completed, a read answers its
bytes; an access that fails its checks, is longer, or finds the part not ready is refused. A doorbell within the ring sets its queue's tail, and the queue is pending at its die or mapped; an event ring's sets its head. A management
write of the PF has its effect, its status in MG_STATUS, and its completion; of another function it is refused. A partition record, a function's root while it is disabled, its enabling with
save slots enough, a core group that is free, a hedgerow slot and an ownership entry take what is written, or the status says why not; an ownership entry comes in one write over both fields of its port (log 36, the model's reading) or in two, as R251 has it. The reset of a function
freezes the time, drops its candidates and handles and what of it runs on no core, stops its jobs in the next clk, and begins the scrub of its cores. What makes a core group busy is log 79, and that an FLR's
state is left by an enabling write log 35 (the model's readings). -/
def Obligations.HostWindows : Prop :=
  (∀ (s : State) (n : Nat) (f : Byte),
    (s.phase = .ready ∨ s.phase = .reset → f.toNat < 64 ∨ f = pfCode → exec (.uetConnectionSetup n f) s = .next { s with conns := mset s.conns n ⟨f⟩ }) ∧
    (s.phase = .fallow → Config.port n = 0 → Config.provisioned n = true → exec (.uetConnectionSetup n f) s = .next { s with conns := mset s.conns n ⟨pfCode⟩ }) ∧
    (s.phase = .fallow → Config.port n ≠ 0 ∨ Config.provisioned n = false → exec (.uetConnectionSetup n f) s = .next s) ∧
    (s.phase = .off ∨ (s.phase ≠ .fallow ∧ 64 ≤ f.toNat ∧ f ≠ pfCode) → exec (.uetConnectionSetup n f) s = .next s)) ∧
  (∀ (s : State) (a : Rma) (c : Conn), mget? s.conns a.conn = some c → a.target = .memory →
    let n := if a.write then a.data.length else a.len
    let u := s.etherCharge c.func n
    (s.phase ≠ .ready ∨ 0x10000 < n → exec (.uetRmaAccess a) s = .next { s with out := s.out ++ [.rma a.conn false []] }) ∧
    (s.phase = .ready → n ≤ 0x10000 →
      (∀ v, a.write = true → u.hostWrite c.func a.addr a.data false = .ok v →
        exec (.uetRmaAccess a) s = .next { v with out := s.out ++ [.rma a.conn true []] }) ∧
      (∀ e, a.write = true → u.hostWrite c.func a.addr a.data false = .error e → ∃ t, exec (.uetRmaAccess a) s = .next t ∧
        t.out = s.out ++ [.rma a.conn false []] ∧ t.cores = s.cores) ∧
      (∀ e, a.write = false → u.hostLocs c.func a.addr .read false a.len = .error e → ∃ t, exec (.uetRmaAccess a) s = .next t ∧
        t.out = s.out ++ [.rma a.conn false []] ∧ t.cores = s.cores) ∧
      (∀ ls, a.write = false → u.hostLocs c.func a.addr .read false a.len = .ok ls → exec (.uetRmaAccess a) s = .next { u with
        out := s.out ++ [if ∃ l ∈ ls, s.poisoned l 1 = true then .rma a.conn false [] else .rma a.conn true (ls.map (Memory.read s.mem))] }))) ∧
  (∀ (s : State) (w : WinWrite) (c : Conn), mget? s.conns w.conn = some c → s.phase = .ready →
    let u := s.etherCharge c.func w.data.length
    let v := rawNat w.data 0 8
    (∀ q, w.data.length = 8 → w.off = 8 * q → q < 4096 → (s.queue q).owner = c.func → (s.queue q).desc.isSome = true →
      let h := s.queue q
      (v = h.tail.toNat → exec (.queueDoorbell w) s = .next { u with out := s.out ++ [.rma w.conn true []] }) ∧
      (v < 2 ^ 32 → v ≠ h.tail.toNat → v ≠ h.head.toNat → (BitVec.ofNat 32 v - h.head).toNat ≤ 2 ^ h.lsize → h.die < 8 →
        ∃ t, exec (.queueDoorbell w) s = .next t ∧ t.queue q = { h with tail := BitVec.ofNat 32 v } ∧ t.cores = s.cores ∧
          t.out = s.out ++ [.rma w.conn true []] ∧ (q ∈ (t.die h.die).pendq ∨ ∃ e ∈ (t.die h.die).slots, e.2.queue = q))) ∧
    (w.data.length = 8 → w.off = 0x8000 + 8 * c.func.toNat → c.func.toNat < 64 → v < 2 ^ 32 → ∀ r, (s.func c.func).ring = some r → r.pend = 0 →
      exec (.eventRingDoorbell w) s = .next { u.modFunc c.func fun x => { x with ring := some { r with head := BitVec.ofNat 32 v } } with
        out := s.out ++ [.rma w.conn true []] })) ∧
  ∀ (s : State) (w : WinWrite) (c : Conn), mget? s.conns w.conn = some c → s.phase = .ready →
    let v := natOfBytes w.data
    let size := w.data.length
    (∀ i ∈ [Instr.mgWrite w, .flr w, .functionRecordWrite w, .coreGroupMapWrite w, .slotTableWrite w, .rotPortWrite w],
      (c.func ≠ pfCode → ∃ t, exec i s = .next t ∧ t.mg = s.mg ∧ t.cores = s.cores ∧ t.out = s.out ++ [.rma w.conn false []]) ∧
      (c.func = pfCode → size = 0 ∨ 0x10000 ≤ w.off → MgDone i s s w.conn 2)) ∧
    (c.func = pfCode →
      (∀ p < 32, size = 4 → w.off = 0x4200 + 64 * p →
        (v < 100 ∨ 100000 < v → MgDone (.mgWrite w) s s w.conn 2) ∧
        (100 ≤ v → v ≤ 100000 → 10 ≤ (s.part p).tsd → (s.part p).tsd ≤ 10000 →
          MgDone (.mgWrite w) s (s.modPart p fun x => { x with slice := v }) w.conn 0)) ∧
      (∀ f : Byte, f.toNat < 64 →
        let r := s.func f
        let on : Prop := r.state = 1#8 ∨ r.state = 2#8
        (size = 8 → w.off = 0x1000 + 128 * f.toNat + 8 →
          (on → MgDone (.functionRecordWrite w) s s w.conn 1) ∧
          (¬ on → ∃ t, exec (.functionRecordWrite w) s = .next t ∧ (t.func f).troot = BitVec.ofNat 64 v ∧ (t.func f).state = r.state ∧
            t.mg.status = 0#32 ∧ t.out = s.out ++ [.rma w.conn true []])) ∧
        (w.data = [1#8] → w.off = 0x1000 + 128 * f.toNat → ¬ on →
          let few : Prop := r.part = 0xFF#8 ∨ r.nslots % 2 ^ 32 < 2 * s.groupCores r.part
          (few → MgDone (.functionRecordWrite w) s s w.conn 1) ∧
          (¬ few → ∃ t, exec (.functionRecordWrite w) s = .next t ∧ (t.func f).state = 1#8 ∧ (t.func f).credit = 0 ∧ (t.func f).total = 0 ∧
            (t.func f).remain = r.quota.toNat ∧ t.mg.status = 0#32 ∧ t.out = s.out ++ [.rma w.conn true []])) ∧
        (w.data = [f] → w.off = 8 → 1 ≤ s.mg.width → s.mg.width ≤ 4 → 1 ≤ s.mg.tage → s.mg.tage ≤ 1000 → r.state ≠ 3#8 →
          ∃ t, exec (.flr w) s = .next t ∧ (t.func f).state = 3#8 ∧ (t.func f).frozen = BitVec.ofNat 64 s.dtime ∧
            t.mg.status = 0#32 ∧ t.out = s.out ++ [.rma w.conn true []] ∧
            (∀ k : CoreIx, ((s.core k.val).last = some f → (t.core k.val).scrub = some (f, s.clk + 2048)) ∧
              (∀ j, (s.core k.val).job = some j → j.func = f → (t.core k.val).fault = some ((s.core k.val).fault.getD ⟨0x55#8, 0#64, 0xFF#8, 0#32, 0#8⟩) ∧
                ⟨s.clk + 1, .event (.hardStop k)⟩ ∈ t.agenda) ∧
              ((∀ e ∈ s.cores, e.1 = k.val → ∀ j, e.2.job = some j → j.func ≠ f) → (t.core k.val).fault = (s.core k.val).fault)) ∧
            ∀ d : DieIx, (∀ x ∈ (t.die d.val).cands, x.team.func ≠ f) ∧ (∀ x ∈ (t.die d.val).plan.handles, x.2.func ≠ f) ∧
              ∀ x ∈ (t.die d.val).teams, x.func = f → x.plan.isSome = true → ∃ k ∈ x.cores, s.runs x.id k = true)) ∧
      (∀ d g b, d < 8 → 24 ≤ g → g < 32 → w.data = [b] → w.off = 0x4000 + 32 * d + g → MgDone (.coreGroupMapWrite w) s s w.conn 2) ∧
      (∀ d g b, d < 8 → g < 24 → w.data = [b] → w.off = 0x4000 + 32 * d + g →
        let old := mget s.mg.groups (24 * d + g) 0xFF#8
        (31 < b.toNat → b ≠ 0xFF#8 → MgDone (.coreGroupMapWrite w) s s w.conn 2) ∧
        (b.toNat ≤ 31 ∨ b = 0xFF#8 → b ≠ old →
          (old ≠ 0xFF#8 → s.groupBusy d g = true → MgDone (.coreGroupMapWrite w) s s w.conn 1) ∧
          (old = 0xFF#8 ∨ s.groupBusy d g = false → b = 0xFF#8 ∨ (∃ i < 8, 192 * d + 8 * g + i ∉ s.failed) →
            ∃ t, exec (.coreGroupMapWrite w) s = .next t ∧ t.cores = s.cores ∧ (∀ i < 8, t.corePart (192 * d + 8 * g + i) = b) ∧
              (∀ k : CoreIx, k.val / 8 ≠ 24 * d + g → t.corePart k.val = s.corePart k.val) ∧ t.mg.status = 0#32))) ∧
      (∀ n b, n < 256 → w.data = [b] → w.off = 0x4100 + n →
        (31 < b.toNat → b ≠ 0xFF#8 → MgDone (.slotTableWrite w) s s w.conn 2) ∧
        (b.toNat ≤ 31 → s.mg.hedge.length < 240 →
          MgDone (.slotTableWrite w) s { s with mg := { s.mg with hedge := mset s.mg.hedge n b } } w.conn 0)) ∧
      (size = 12 → w.off = 0x4A00 →
        let pa := rawNat w.data 0 8
        let e : Word := BitVec.ofNat 32 (rawNat w.data 8 4)
        let valid : Prop := pa % 0x10000 = 0 ∧ s.populated pa 0x10000 = true ∧ rotOk e = true
        (¬ valid → MgDone (.rotPortWrite w) s s w.conn 2) ∧
        (valid → MgDone (.rotPortWrite w) s { s with
          mg := { s.mg with rotAddr := BitVec.ofNat 64 pa, rotEntry := e }, rot := mset s.rot (pa / 0x10000) e
          cores := s.cores.map fun x => (x.1, { x.2 with tlb := x.2.tlb.filter fun y => !y.maps (pa / 0x10000) }) } w.conn 0)) ∧
      (size = 8 → w.off = 0x4A00 → MgDone (.rotPortWrite w) s { s with mg := { s.mg with rotAddr := BitVec.ofNat 64 v } } w.conn 0) ∧
      (size = 4 → w.off = 0x4A08 →
        let pa := s.mg.rotAddr.toNat
        let e : Word := BitVec.ofNat 32 v
        let valid : Prop := pa % 0x10000 = 0 ∧ s.populated pa 0x10000 = true ∧ rotOk e = true
        (¬ valid → MgDone (.rotPortWrite w) s s w.conn 2) ∧
        (valid → MgDone (.rotPortWrite w) s { s with
          mg := { s.mg with rotEntry := e }, rot := mset s.rot (pa / 0x10000) e
          cores := s.cores.map fun x => (x.1, { x.2 with tlb := x.2.tlb.filter fun y => !y.maps (pa / 0x10000) }) } w.conn 0)))

/-- Heat, trips, power and starts (R448 to R450, R455, R456). A die's temperature sets the factor of its power budget, in tenths 10 up to 95 °C, 0 from 105 °C on, between them one less for each degree; at 110 °C the trip is due; it
reports at the 1 ms tick. A trip resets the part and what it leaves is log 77 (the model's reading); before stage 0x9, in fallow mode too, it is a failed start with reason 0x0A. A loss of power leaves flash, fuses and the boot sector and nothing else. In a ready part every core's CYCLE counts from this clk (log 94, the model's choice). A start after one that ended without its reason first writes reason 0x07. A start whose sector has a bad magic or three failed starts enters fallow mode; else it fails at the
first stage that does, with its reason, the count raised by one from stage 0x3 on, or is ready with the sector's count cleared, the fuses raised to the image's version and the connections that stood during it. The
sector's stage on the way to fallow mode and what follows a failed start are log 26 (the model's reading). -/
def Obligations.PowerAndStart : Prop :=
  ∀ (s : State),
    let kept (t : State) : Prop := t.flash = s.flash ∧ t.env = s.env ∧ t.mem = State.reset.mem ∧ t.cores = State.reset.cores ∧
      t.funcs = State.reset.funcs ∧ t.rot = State.reset.rot ∧ t.queues = State.reset.queues
    let lone (t : State) : Prop := kept t ∧ t.conns = State.reset.conns
    (∀ (d : DieIx) (tj : Int),
      let h : Int := if tj ≤ 95 then 10 else if 105 ≤ tj then 0 else 105 - tj
      (s.reached 1000000 = false → exec (.thermalTick d tj) s = .next s) ∧
      (s.reached 1000000 = true → ∃ t, exec (.thermalTick d tj) s = .next t ∧ t.dies = (s.modDie d.val fun x => { x with heat := h }).dies ∧ t.mem = s.mem ∧ t.cores = s.cores ∧
        t.env = { s.env with tj := s.env.tj.set d.val tj } ∧ (.event .thermalTrip ∈ t.due ↔ 110 ≤ tj ∨ .event .thermalTrip ∈ s.due))) ∧
    (s.phase = .ready → ∃ t, exec .thermalTrip s = .next t ∧ t.phase = .reset ∧ t.boot = s.boot ∧ t.fuse = s.fuse ∧ lone t) ∧
    (s.phase = .reset ∨ s.phase = .fallow → ∃ t, exec .thermalTrip s = .next t ∧ t.phase = .reset ∧ t.boot = { s.boot with reason := 0xA#8, closed := true } ∧ t.fuse = s.fuse ∧ lone t) ∧
    (s.phase = .off → exec .thermalTrip s = .next s) ∧
    (∃ t, exec .powerLoss s = .next t ∧ t.phase = .off ∧ t.boot = s.boot ∧ t.fuse = s.fuse ∧ lone t) ∧
      let b := if s.boot.closed then s.boot else { s.boot with reason := 7#8, closed := true }
      let e := s.env
      let fails (stage reason flags count : Byte) (svn : Word) : Prop := ∃ t, exec .start s = .next t ∧ t.phase = .reset ∧
        t.boot = { b with stage := stage, reason := reason, flags := flags, count := count, svn := svn, closed := true } ∧ t.fuse = s.fuse ∧ lone t
      (b.magic ≠ 0x42535354#32 ∨ 3 ≤ b.count.toNat → ∃ t, exec .start s = .next t ∧ t.phase = .fallow ∧ t.boot = b ∧ t.fuse = s.fuse ∧ lone t) ∧
      (b.magic = 0x42535354#32 → b.count.toNat < 3 → e.cutStage = 0 →
        if e.failStage = 2 then fails 2#8 0xB#8 b.flags b.count b.svn
        else match verifyImage s.flash s.fuse with
          | .error (r, fl) => fails 3#8 r fl (b.count + 1#8) b.svn
          | .ok v =>
            let short (stage reason : Byte) : Prop := fails stage reason b.flags (b.count + 1#8) v
            if e.failStage = 4 then short 4#8 5#8
            else if e.failStage = 5 then short 5#8 6#8
            else if ∃ d < 8, ∀ i < 192, 192 * d + i ∈ e.failedCores then short 6#8 8#8
            else if e.failStage = 8 then short 8#8 9#8
            else ∃ t, exec .start s = .next t ∧ t.phase = .ready ∧ kept t ∧ t.conns = s.conns ∧ t.failed = e.failedCores ∧ t.cxl = e.cxl ∧ t.upAt = s.clk ∧
              t.dtBase = s.dtBase + e.ahead ∧
              t.boot = { b with stage := 9#8, count := 0#8, dtime := BitVec.ofNat 64 (s.dtime + e.ahead), svn := v } ∧
              t.fuse = if s.fuse.toNat < v.toNat then v else s.fuse) ∧
      (b.magic = 0x42535354#32 → b.count.toNat < 3 → e.cutStage = 1 → e.trip = false → ∃ t, exec .start s = .next t ∧ t.phase = .off ∧
        t.boot = { b with stage := 1#8, closed := false } ∧ lone t)
end
end

