-- ==== Sys2Proof/Laws/Bits.lean ====
section
/-! SUPPORT. Fields of words that are written as concatenations: which part a field takes, and masks of such words. With them a word of
an encoding decodes by rewriting. -/

namespace Sys2Proof

/-- A field that lies in the lower part. -/
theorem ext_low {m k : Nat} (a : BitVec m) (b : BitVec k) (lo n : Nat) (hb : lo + n ≤ k) :
    (a ++ b).extractLsb' lo n = b.extractLsb' lo n := by
  apply BitVec.eq_of_getLsbD_eq
  intro i hi
  simp only [BitVec.getLsbD_extractLsb', hi, decide_true, Bool.true_and, BitVec.getLsbD_append]
  rw [if_pos (by omega)]

/-- A field that lies in the upper part. -/
theorem ext_high {m k : Nat} (a : BitVec m) (b : BitVec k) (lo n : Nat) (hb : k ≤ lo) :
    (a ++ b).extractLsb' lo n = a.extractLsb' (lo - k) n := by
  apply BitVec.eq_of_getLsbD_eq
  intro i hi
  simp only [BitVec.getLsbD_extractLsb', hi, decide_true, Bool.true_and, BitVec.getLsbD_append]
  rw [if_neg (by omega)]; congr 1; omega

/-- A field that takes all of the lower part and some of the upper. -/
theorem ext_both {m k : Nat} (a : BitVec m) (b : BitVec k) (lo n : Nat) (h : lo ≤ k) (hb : k ≤ lo + n) :
    (a ++ b).extractLsb' lo n = (a.extractLsb' 0 (lo + n - k) ++ b.extractLsb' lo (k - lo)).cast (by omega) := by
  apply BitVec.eq_of_getLsbD_eq
  intro i hi
  simp only [BitVec.getLsbD_extractLsb', hi, decide_true, Bool.true_and, BitVec.getLsbD_append, BitVec.getLsbD_cast]
  by_cases h1 : lo + i < k
  · rw [if_pos h1, if_pos (by omega)]; simp; omega
  · rw [if_neg h1, if_neg (by omega), show 0 + (i - (k - lo)) = lo + i - k by omega,
      show decide (i - (k - lo) < lo + n - k) = true by rw [decide_eq_true_eq]; omega, Bool.true_and]

theorem ext_all {n : Nat} (a : BitVec n) : a.extractLsb' 0 n = a := by
  apply BitVec.eq_of_getLsbD_eq; intro i hi; simp [hi]

end Sys2Proof
end

