-- ==== Sys2Proof/Laws/HostMem.lean ====
section
/-! SUPPORT. Reads of a function's memory by the part, in two pieces: their locations one after the other. -/

namespace Sys2Proof.Machine

/-- The locations of m + n bytes are those of the first m and of the n after them. -/
theorem hostLocs_add (s : State) (f : Byte) (acc : Access) (part : Bool) (m n : Nat) (va : Dword) {l r : List Nat}
    (h : s.hostLocs f va acc part m = .ok l) (k : s.hostLocs f (va + BitVec.ofNat 64 m) acc part n = .ok r) :
    s.hostLocs f va acc part (m + n) = .ok (l ++ r) := by
  induction m generalizing va l with
  | zero => simp_all [State.hostLocs]
  | succ m ih =>
    rw [Nat.succ_add]
    unfold State.hostLocs at h ⊢
    cases hc : s.hostCheck f va acc part with
    | error e => simp [hc] at h
    | ok pa =>
      simp only [hc] at h ⊢
      cases hl : s.hostLocs f (va + 1#64) acc part m with
      | error e => simp [hl, Except.map] at h
      | ok l' =>
        have e : va + 1#64 + BitVec.ofNat 64 m = va + BitVec.ofNat 64 (m + 1) := by
          rw [BitVec.add_assoc, Nat.add_comm m 1, BitVec.ofNat_add]
        rw [ih (va + 1#64) hl (e ▸ k)]
        simp only [hl, Except.map, Except.ok.injEq] at h ⊢
        simp [← h]

/-- A read whose locations are known and not poisoned gives their bytes. -/
theorem hostRead_of {s : State} {f : Byte} {a : Dword} {l : List Nat} {n : Nat} (h : s.hostLocs f a .read false n = .ok l)
    (hp : (l.any fun i => s.poisoned i 1) = false) : s.hostRead f a n = .ok (l.map (Memory.read s.mem)) := by
  unfold State.hostRead
  simp only [h, hp, Bool.false_eq_true, if_false]

/-- An image whose header and remainder have locations without poison reads as their bytes parse. -/
theorem readImage_of {s : State} {f : Byte} {a : Dword} {l r : List Nat} {n : Nat} {im : Image} (h : s.hostLocs f a .read false 256 = .ok l)
    (k : s.hostLocs f (a + BitVec.ofNat 64 256) .read false n = .ok r) (hp : ((l ++ r).any fun i => s.poisoned i 1) = false)
    (hs : rawNat (l.map (Memory.read s.mem)) 0xC 4 = 256 + n)
    (hi : imageOf ((l ++ r).map (Memory.read s.mem)) = some im) : s.readImage f a = .ok (some im) := by
  have hl : (l.any fun i => s.poisoned i 1) = false := by simp_all [List.any_append]
  unfold State.readImage
  simp only [hostRead_of h hl, hs, hostRead_of (hostLocs_add s f .read false 256 n a h k) hp, show ¬ (256 + n < 256) by omega, if_false,
    Except.map, hi]

end Sys2Proof.Machine
end

