-- ==== Sys2Proof/Laws/Map.lean ====
section
/-! SUPPORT. Reading a table or a vector after it was written. -/

namespace Sys2Proof.Machine

@[simp] theorem mget_mset_self {β : Type} (m : Map β) (k : Nat) (v d : β) : mget (mset m k v) k d = v := by
  induction m with
  | nil => simp [mset, mget]
  | cons e t ih =>
    obtain ⟨j, w⟩ := e
    simp only [mset]
    split
    · simp [mget]
    · split
      · simp [mget]
      · simp [mget, *]

theorem mget_mset_ne {β : Type} (m : Map β) {k i : Nat} (v d : β) (h : i ≠ k) : mget (mset m k v) i d = mget m i d := by
  induction m with
  | nil => simp [mset, mget, Ne.symm h]
  | cons e t ih =>
    obtain ⟨j, w⟩ := e
    simp only [mset]
    split
    · simp [mget, Ne.symm h]
    · split
      · subst_vars; simp [mget, Ne.symm h]
      · simp only [mget]; split <;> simp [ih]

@[simp] theorem vget_vset_self {β : Type} {n : Nat} (v : Vector β n) (i : Nat) (x d : β) (h : i < n) :
    vget (vset v i x) i d = x := by
  simp [vget, vset, h]

theorem vget_vset_ne {β : Type} {n : Nat} (v : Vector β n) {i j : Nat} (x d : β) (h : j ≠ i) :
    vget (vset v i x) j d = vget v j d := by
  simp [vget, vset, Ne.symm h]

theorem vget_lt {β : Type} {n : Nat} (v : Vector β n) (i : Nat) (d : β) (h : i < n) : vget v i d = v[i] := by
  simp [vget, h]

end Sys2Proof.Machine
end

