-- ==== Sys2Proof/Laws/Memory.lean ====
section
/-! SUPPORT. Memory: a read after a write, and the canonical form kept by every memory operation. -/

namespace Sys2Proof.Machine

/-! ### The canonical form from an address on -/

theorem wfFrom_mono {m : Memory} {n k : Nat} (h : Memory.wfFrom n m = true) (hk : k ≤ n) : Memory.wfFrom k m = true := by
  cases m with
  | nil => rfl
  | cons c t => simp only [Memory.wfFrom, Bool.and_eq_true, decide_eq_true_eq] at h ⊢; exact ⟨⟨by omega, h.1.2⟩, h.2⟩

/-- Below its first address a memory reads blank. -/
theorem read_below {m : Memory} {n a : Nat} (h : Memory.wfFrom n m = true) (ha : a < n) : Memory.read m a = Memory.blank := by
  cases m with
  | nil => rfl
  | cons c t =>
    simp only [Memory.wfFrom, Bool.and_eq_true, decide_eq_true_eq] at h
    simp only [Memory.read]
    rw [if_neg (by omega), if_pos (by omega)]

theorem wfFrom_cell {m : Memory} {n a : Nat} {v : Byte} (h : Memory.wfFrom (a + 1) m = true) (hn : n ≤ a) :
    Memory.wfFrom n (Memory.cell a v m) = true := by
  unfold Memory.cell
  split
  · exact wfFrom_mono h (by omega)
  · simp [Memory.wfFrom, *]

theorem read_cell {m : Memory} {a b : Nat} {v : Byte} (h : Memory.wfFrom (a + 1) m = true) :
    Memory.read (Memory.cell a v m) b = if b = a then v else if b < a then Memory.blank else Memory.read m b := by
  unfold Memory.cell
  split
  · rename_i hv
    split
    · subst_vars; rw [read_below h (by omega)]
    · split
      · exact read_below h (by omega)
      · rfl
  · simp only [Memory.read]
    by_cases hb : b = a
    · simp [hb]
    · rw [if_neg (Ne.symm hb), if_neg hb]

/-! ### Writing one byte -/

theorem wfFrom_write {m : Memory} {n a : Nat} {v : Byte} (h : Memory.wfFrom n m = true) (hn : n ≤ a) :
    Memory.wfFrom n (Memory.write m a v) = true := by
  induction m generalizing n with
  | nil => exact wfFrom_cell rfl hn
  | cons c t ih =>
    obtain ⟨b, w⟩ := c
    simp only [Memory.wfFrom, Bool.and_eq_true, decide_eq_true_eq] at h
    simp only [Memory.write]
    split
    · exact wfFrom_cell (by simp [Memory.wfFrom, h.1.2, h.2]; omega) hn
    · split
      · subst_vars; exact wfFrom_cell h.2 hn
      · simp only [Memory.wfFrom, Bool.and_eq_true, decide_eq_true_eq]
        exact ⟨h.1, ih h.2 (by omega)⟩

theorem read_writeFrom {m : Memory} {n a : Nat} {v : Byte} (h : Memory.wfFrom n m = true) (b : Nat) :
    Memory.read (Memory.write m a v) b = if b = a then v else Memory.read m b := by
  induction m generalizing n with
  | nil => simp only [Memory.write]; rw [read_cell rfl]; simp [Memory.read]
  | cons c t ih =>
    obtain ⟨x, w⟩ := c
    simp only [Memory.wfFrom, Bool.and_eq_true, decide_eq_true_eq] at h
    simp only [Memory.write]
    split
    · rw [read_cell (by simp [Memory.wfFrom, h.1.2, h.2]; omega)]
      split
      · rfl
      · split
        · simp only [Memory.read]; rw [if_neg (by omega), if_pos (by omega)]
        · rfl
    · split
      · subst_vars
        rw [read_cell h.2]
        split
        · rfl
        · simp only [Memory.read]; grind
      · simp only [Memory.read]
        rw [ih h.2]
        grind

/-- A write keeps the canonical form. -/
theorem wf_write {m : Memory} (a : Nat) (v : Byte) (h : m.wf = true) : (Memory.write m a v).wf = true := wfFrom_write h (by omega)

/-- A byte written is read back, and no other changes. -/
theorem read_write {m : Memory} (h : m.wf = true) (a b : Nat) (v : Byte) :
    Memory.read (Memory.write m a v) b = if b = a then v else Memory.read m b := read_writeFrom h b

/-! ### Longer writes -/

theorem wf_writeN {m : Memory} (a : Nat) (bs : List Byte) (h : m.wf = true) : (Memory.writeN m a bs).wf = true := by
  induction bs generalizing m a with
  | nil => exact h
  | cons b t ih => exact ih _ (wf_write _ _ h)

/-- Bytes outside a written range are unchanged. -/
theorem read_writeN_outside {m : Memory} (h : m.wf = true) (a b : Nat) (bs : List Byte) (hb : b < a ∨ a + bs.length ≤ b) :
    Memory.read (Memory.writeN m a bs) b = Memory.read m b := by
  induction bs generalizing m a with
  | nil => rfl
  | cons x t ih =>
    simp only [List.length_cons] at hb
    simp only [Memory.writeN]
    rw [ih (wf_write _ _ h) _ (by omega), read_write h, if_neg (by omega)]

/-- Bytes inside a written range read as written. -/
theorem read_writeN_inside {m : Memory} (h : m.wf = true) (a i : Nat) (bs : List Byte) (hi : i < bs.length) :
    Memory.read (Memory.writeN m a bs) (a + i) = bs[i] := by
  induction bs generalizing m a i with
  | nil => simp at hi
  | cons x t ih =>
    simp only [Memory.writeN]
    cases i with
    | zero => rw [read_writeN_outside (wf_write _ _ h) _ _ _ (by omega), read_write h]; simp
    | succ j =>
      have := ih (wf_write a x h) (a + 1) j (by simpa using hi)
      rw [show a + (j + 1) = a + 1 + j by omega, this]; rfl

theorem wf_writeMask {m : Memory} (a : Nat) (bs : List (Byte × Byte)) (h : m.wf = true) : (Memory.writeMask m a bs).wf = true := by
  induction bs generalizing m a with
  | nil => exact h
  | cons b t ih => exact ih _ (wf_write _ _ h)

theorem read_writeMask_outside {m : Memory} (h : m.wf = true) (a b : Nat) (bs : List (Byte × Byte))
    (hb : b < a ∨ a + bs.length ≤ b) : Memory.read (Memory.writeMask m a bs) b = Memory.read m b := by
  induction bs generalizing m a with
  | nil => rfl
  | cons x t ih =>
    simp only [List.length_cons] at hb
    simp only [Memory.writeMask]
    rw [ih (wf_write _ _ h) _ (by omega), read_write h, if_neg (by omega)]

theorem wf_writeLocs {m : Memory} (ls : List Nat) (bs : List Byte) (h : m.wf = true) : (writeLocs m ls bs).wf = true := by
  induction ls generalizing m bs with
  | nil => cases bs <;> exact h
  | cons l t ih =>
    cases bs with
    | nil => exact h
    | cons b u => exact ih _ (wf_write _ _ h)

theorem wf_put {m : Memory} (cs : Memory) (h : m.wf = true) : (Memory.put m cs).wf = true := by
  induction cs generalizing m with
  | nil => exact h
  | cons c t ih => exact ih (wf_write _ _ h)

/-- Cells left out of a canonical memory leave a canonical memory. -/
theorem wfFrom_filter {m : Memory} {n : Nat} (p : Nat × Byte → Bool) (h : Memory.wfFrom n m = true) :
    Memory.wfFrom n (m.filter p) = true := by
  induction m generalizing n with
  | nil => rfl
  | cons c t ih =>
    simp only [Memory.wfFrom, Bool.and_eq_true, decide_eq_true_eq] at h
    simp only [List.filter_cons]
    split
    · simp only [Memory.wfFrom, Bool.and_eq_true, decide_eq_true_eq]; exact ⟨h.1, ih h.2⟩
    · exact wfFrom_mono (ih h.2) (by omega)

theorem wf_clear {m : Memory} (lo n : Nat) (h : m.wf = true) : (Memory.clear m lo n).wf = true := wfFrom_filter _ h
theorem wf_slice {m : Memory} (lo n : Nat) (h : m.wf = true) : (Memory.slice m lo n).wf = true := wfFrom_filter _ h
theorem wf_copy {m : Memory} (src dst n : Nat) (h : m.wf = true) : (Memory.copy m src dst n).wf = true := wf_put _ (wf_clear _ _ h)

theorem wfFrom_cellsOf (bs : List Byte) (n a : Nat) (h : n ≤ a) : Memory.wfFrom n (Memory.cellsOf a bs) = true := by
  induction bs generalizing n a with
  | nil => rfl
  | cons b t ih => exact wfFrom_cell (ih _ _ (by omega)) h

/-- Two canonical memories, all of the first below all of the second. -/
theorem wfFrom_append {l r : Memory} {n k : Nat} (hl : Memory.wfFrom n l = true) (hk : ∀ c ∈ l, c.1 < k) (hn : n ≤ k)
    (hr : Memory.wfFrom k r = true) : Memory.wfFrom n (l ++ r) = true := by
  induction l generalizing n with
  | nil => exact wfFrom_mono hr hn
  | cons c t ih =>
    simp only [Memory.wfFrom, Bool.and_eq_true, decide_eq_true_eq] at hl
    simp only [List.cons_append, Memory.wfFrom, Bool.and_eq_true, decide_eq_true_eq]
    have := hk c (by simp)
    exact ⟨hl.1, ih hl.2 (fun x hx => hk x (by simp [hx])) (by omega)⟩

/-- Cells at or above k of a canonical memory. -/
theorem wfFrom_above {m : Memory} {n k : Nat} (h : Memory.wfFrom n m = true) :
    Memory.wfFrom k (m.filter fun c => k ≤ c.1) = true := by
  induction m generalizing n with
  | nil => rfl
  | cons c t ih =>
    obtain ⟨a, w⟩ := c
    simp only [Memory.wfFrom, Bool.and_eq_true, decide_eq_true_eq] at h
    by_cases hk : k ≤ a
    · rw [List.filter_cons_of_pos (by simpa using hk)]
      simp only [Memory.wfFrom, Bool.and_eq_true, decide_eq_true_eq]
      exact ⟨⟨hk, h.1.2⟩, wfFrom_filter _ h.2⟩
    · rw [List.filter_cons_of_neg (by simpa using hk)]
      exact ih h.2

theorem cellsOf_lt (bs : List Byte) (a : Nat) : ∀ c ∈ Memory.cellsOf a bs, c.1 < a + bs.length := by
  induction bs generalizing a with
  | nil => simp [Memory.cellsOf]
  | cons b t ih =>
    intro c hc
    simp only [Memory.cellsOf, Memory.cell] at hc
    have key : c ∈ Memory.cellsOf (a + 1) t ∨ c.1 = a := by
      split at hc
      · exact .inl hc
      · cases hc with
        | head => exact .inr rfl
        | tail _ h => exact .inl h
    rcases key with h | h
    · have := ih _ c h; simp only [List.length_cons]; omega
    · simp only [List.length_cons]; omega

theorem wf_blit {m : Memory} (a : Nat) (bs : List Byte) (h : m.wf = true) : (Memory.blit m a bs).wf = true := by
  unfold Memory.blit Memory.wf
  refine wfFrom_append (k := a + bs.length) (wfFrom_append (k := a) (wfFrom_filter _ h) ?_ (by omega) (wfFrom_cellsOf _ _ _ (by omega)))
    ?_ (by omega) (wfFrom_above h)
  · intro c hc; simpa using (List.mem_filter.mp hc).2
  · intro c hc
    rcases List.mem_append.mp hc with h1 | h1
    · have := (List.mem_filter.mp h1).2; simp at this; omega
    · exact cellsOf_lt _ _ c h1

end Sys2Proof.Machine
end

