-- ==== Sys2Proof/Laws/State.lean ====
section
/-! SUPPORT. What each update of the state leaves alone, field by field, and what it makes of its own. -/

namespace Sys2Proof.Machine

@[simp] theorem State.setCore_clk (s : State) (k : Nat) (c : Core) : (s.setCore k c).clk = s.clk := rfl
@[simp] theorem State.setCore_upAt (s : State) (k : Nat) (c : Core) : (s.setCore k c).upAt = s.upAt := rfl
@[simp] theorem State.setCore_dtBase (s : State) (k : Nat) (c : Core) : (s.setCore k c).dtBase = s.dtBase := rfl
@[simp] theorem State.setCore_dtAhead (s : State) (k : Nat) (c : Core) : (s.setCore k c).dtAhead = s.dtAhead := rfl
@[simp] theorem State.setCore_dtPrev (s : State) (k : Nat) (c : Core) : (s.setCore k c).dtPrev = s.dtPrev := rfl
@[simp] theorem State.setCore_phase (s : State) (k : Nat) (c : Core) : (s.setCore k c).phase = s.phase := rfl
@[simp] theorem State.setCore_boot (s : State) (k : Nat) (c : Core) : (s.setCore k c).boot = s.boot := rfl
@[simp] theorem State.setCore_verify (s : State) (k : Nat) (c : Core) : (s.setCore k c).verify = s.verify := rfl
@[simp] theorem State.setCore_flash (s : State) (k : Nat) (c : Core) : (s.setCore k c).flash = s.flash := rfl
@[simp] theorem State.setCore_fuse (s : State) (k : Nat) (c : Core) : (s.setCore k c).fuse = s.fuse := rfl
@[simp] theorem State.setCore_env (s : State) (k : Nat) (c : Core) : (s.setCore k c).env = s.env := rfl
@[simp] theorem State.setCore_failed (s : State) (k : Nat) (c : Core) : (s.setCore k c).failed = s.failed := rfl
@[simp] theorem State.setCore_module (s : State) (k : Nat) (c : Core) : (s.setCore k c).module = s.module := rfl
@[simp] theorem State.setCore_mem (s : State) (k : Nat) (c : Core) : (s.setCore k c).mem = s.mem := rfl
@[simp] theorem State.setCore_poison (s : State) (k : Nat) (c : Core) : (s.setCore k c).poison = s.poison := rfl
@[simp] theorem State.setCore_mended (s : State) (k : Nat) (c : Core) : (s.setCore k c).mended = s.mended := rfl
@[simp] theorem State.setCore_cxl (s : State) (k : Nat) (c : Core) : (s.setCore k c).cxl = s.cxl := rfl
@[simp] theorem State.setCore_rot (s : State) (k : Nat) (c : Core) : (s.setCore k c).rot = s.rot := rfl
@[simp] theorem State.setCore_writes (s : State) (k : Nat) (c : Core) : (s.setCore k c).writes = s.writes := rfl
@[simp] theorem State.setCore_served (s : State) (k : Nat) (c : Core) : (s.setCore k c).served = s.served := rfl
@[simp] theorem State.setCore_markers (s : State) (k : Nat) (c : Core) : (s.setCore k c).markers = s.markers := rfl
@[simp] theorem State.setCore_updates (s : State) (k : Nat) (c : Core) : (s.setCore k c).updates = s.updates := rfl
@[simp] theorem State.setCore_combines (s : State) (k : Nat) (c : Core) : (s.setCore k c).combines = s.combines := rfl
@[simp] theorem State.setCore_roundMarks (s : State) (k : Nat) (c : Core) : (s.setCore k c).roundMarks = s.roundMarks := rfl
@[simp] theorem State.setCore_groups (s : State) (k : Nat) (c : Core) : (s.setCore k c).groups = s.groups := rfl
@[simp] theorem State.setCore_next (s : State) (k : Nat) (c : Core) : (s.setCore k c).next = s.next := rfl
@[simp] theorem State.setCore_dies (s : State) (k : Nat) (c : Core) : (s.setCore k c).dies = s.dies := rfl
@[simp] theorem State.setCore_mg (s : State) (k : Nat) (c : Core) : (s.setCore k c).mg = s.mg := rfl
@[simp] theorem State.setCore_funcs (s : State) (k : Nat) (c : Core) : (s.setCore k c).funcs = s.funcs := rfl
@[simp] theorem State.setCore_commons (s : State) (k : Nat) (c : Core) : (s.setCore k c).commons = s.commons := rfl
@[simp] theorem State.setCore_parts (s : State) (k : Nat) (c : Core) : (s.setCore k c).parts = s.parts := rfl
@[simp] theorem State.setCore_queues (s : State) (k : Nat) (c : Core) : (s.setCore k c).queues = s.queues := rfl
@[simp] theorem State.setCore_conns (s : State) (k : Nat) (c : Core) : (s.setCore k c).conns = s.conns := rfl
@[simp] theorem State.setCore_hampers (s : State) (k : Nat) (c : Core) : (s.setCore k c).hampers = s.hampers := rfl
@[simp] theorem State.setCore_mcasts (s : State) (k : Nat) (c : Core) : (s.setCore k c).mcasts = s.mcasts := rfl
@[simp] theorem State.setCore_out (s : State) (k : Nat) (c : Core) : (s.setCore k c).out = s.out := rfl
@[simp] theorem State.setCore_fresh (s : State) (k : Nat) (c : Core) : (s.setCore k c).fresh = s.fresh := rfl
@[simp] theorem State.setCore_cur (s : State) (k : Nat) (c : Core) : (s.setCore k c).cur = s.cur := rfl
@[simp] theorem State.setCore_due (s : State) (k : Nat) (c : Core) : (s.setCore k c).due = s.due := rfl
@[simp] theorem State.setCore_agenda (s : State) (k : Nat) (c : Core) : (s.setCore k c).agenda = s.agenda := rfl
@[simp] theorem State.setCore_round (s : State) (k : Nat) (c : Core) : (s.setCore k c).round = s.round := rfl

@[simp] theorem State.modCore_clk (s : State) (k : Nat) (f : Core → Core) : (s.modCore k f).clk = s.clk := rfl
@[simp] theorem State.modCore_upAt (s : State) (k : Nat) (f : Core → Core) : (s.modCore k f).upAt = s.upAt := rfl
@[simp] theorem State.modCore_dtBase (s : State) (k : Nat) (f : Core → Core) : (s.modCore k f).dtBase = s.dtBase := rfl
@[simp] theorem State.modCore_dtAhead (s : State) (k : Nat) (f : Core → Core) : (s.modCore k f).dtAhead = s.dtAhead := rfl
@[simp] theorem State.modCore_dtPrev (s : State) (k : Nat) (f : Core → Core) : (s.modCore k f).dtPrev = s.dtPrev := rfl
@[simp] theorem State.modCore_phase (s : State) (k : Nat) (f : Core → Core) : (s.modCore k f).phase = s.phase := rfl
@[simp] theorem State.modCore_boot (s : State) (k : Nat) (f : Core → Core) : (s.modCore k f).boot = s.boot := rfl
@[simp] theorem State.modCore_verify (s : State) (k : Nat) (f : Core → Core) : (s.modCore k f).verify = s.verify := rfl
@[simp] theorem State.modCore_flash (s : State) (k : Nat) (f : Core → Core) : (s.modCore k f).flash = s.flash := rfl
@[simp] theorem State.modCore_fuse (s : State) (k : Nat) (f : Core → Core) : (s.modCore k f).fuse = s.fuse := rfl
@[simp] theorem State.modCore_env (s : State) (k : Nat) (f : Core → Core) : (s.modCore k f).env = s.env := rfl
@[simp] theorem State.modCore_failed (s : State) (k : Nat) (f : Core → Core) : (s.modCore k f).failed = s.failed := rfl
@[simp] theorem State.modCore_module (s : State) (k : Nat) (f : Core → Core) : (s.modCore k f).module = s.module := rfl
@[simp] theorem State.modCore_mem (s : State) (k : Nat) (f : Core → Core) : (s.modCore k f).mem = s.mem := rfl
@[simp] theorem State.modCore_poison (s : State) (k : Nat) (f : Core → Core) : (s.modCore k f).poison = s.poison := rfl
@[simp] theorem State.modCore_mended (s : State) (k : Nat) (f : Core → Core) : (s.modCore k f).mended = s.mended := rfl
@[simp] theorem State.modCore_cxl (s : State) (k : Nat) (f : Core → Core) : (s.modCore k f).cxl = s.cxl := rfl
@[simp] theorem State.modCore_rot (s : State) (k : Nat) (f : Core → Core) : (s.modCore k f).rot = s.rot := rfl
@[simp] theorem State.modCore_writes (s : State) (k : Nat) (f : Core → Core) : (s.modCore k f).writes = s.writes := rfl
@[simp] theorem State.modCore_served (s : State) (k : Nat) (f : Core → Core) : (s.modCore k f).served = s.served := rfl
@[simp] theorem State.modCore_markers (s : State) (k : Nat) (f : Core → Core) : (s.modCore k f).markers = s.markers := rfl
@[simp] theorem State.modCore_updates (s : State) (k : Nat) (f : Core → Core) : (s.modCore k f).updates = s.updates := rfl
@[simp] theorem State.modCore_combines (s : State) (k : Nat) (f : Core → Core) : (s.modCore k f).combines = s.combines := rfl
@[simp] theorem State.modCore_roundMarks (s : State) (k : Nat) (f : Core → Core) : (s.modCore k f).roundMarks = s.roundMarks := rfl
@[simp] theorem State.modCore_groups (s : State) (k : Nat) (f : Core → Core) : (s.modCore k f).groups = s.groups := rfl
@[simp] theorem State.modCore_next (s : State) (k : Nat) (f : Core → Core) : (s.modCore k f).next = s.next := rfl
@[simp] theorem State.modCore_dies (s : State) (k : Nat) (f : Core → Core) : (s.modCore k f).dies = s.dies := rfl
@[simp] theorem State.modCore_mg (s : State) (k : Nat) (f : Core → Core) : (s.modCore k f).mg = s.mg := rfl
@[simp] theorem State.modCore_funcs (s : State) (k : Nat) (f : Core → Core) : (s.modCore k f).funcs = s.funcs := rfl
@[simp] theorem State.modCore_commons (s : State) (k : Nat) (f : Core → Core) : (s.modCore k f).commons = s.commons := rfl
@[simp] theorem State.modCore_parts (s : State) (k : Nat) (f : Core → Core) : (s.modCore k f).parts = s.parts := rfl
@[simp] theorem State.modCore_queues (s : State) (k : Nat) (f : Core → Core) : (s.modCore k f).queues = s.queues := rfl
@[simp] theorem State.modCore_conns (s : State) (k : Nat) (f : Core → Core) : (s.modCore k f).conns = s.conns := rfl
@[simp] theorem State.modCore_hampers (s : State) (k : Nat) (f : Core → Core) : (s.modCore k f).hampers = s.hampers := rfl
@[simp] theorem State.modCore_mcasts (s : State) (k : Nat) (f : Core → Core) : (s.modCore k f).mcasts = s.mcasts := rfl
@[simp] theorem State.modCore_out (s : State) (k : Nat) (f : Core → Core) : (s.modCore k f).out = s.out := rfl
@[simp] theorem State.modCore_fresh (s : State) (k : Nat) (f : Core → Core) : (s.modCore k f).fresh = s.fresh := rfl
@[simp] theorem State.modCore_cur (s : State) (k : Nat) (f : Core → Core) : (s.modCore k f).cur = s.cur := rfl
@[simp] theorem State.modCore_due (s : State) (k : Nat) (f : Core → Core) : (s.modCore k f).due = s.due := rfl
@[simp] theorem State.modCore_agenda (s : State) (k : Nat) (f : Core → Core) : (s.modCore k f).agenda = s.agenda := rfl
@[simp] theorem State.modCore_round (s : State) (k : Nat) (f : Core → Core) : (s.modCore k f).round = s.round := rfl

@[simp] theorem State.modQ_clk (s : State) (k : Nat) (q : Fin 4) (f : Block → Block) : (s.modQ k q f).clk = s.clk := rfl
@[simp] theorem State.modQ_upAt (s : State) (k : Nat) (q : Fin 4) (f : Block → Block) : (s.modQ k q f).upAt = s.upAt := rfl
@[simp] theorem State.modQ_dtBase (s : State) (k : Nat) (q : Fin 4) (f : Block → Block) : (s.modQ k q f).dtBase = s.dtBase := rfl
@[simp] theorem State.modQ_dtAhead (s : State) (k : Nat) (q : Fin 4) (f : Block → Block) : (s.modQ k q f).dtAhead = s.dtAhead := rfl
@[simp] theorem State.modQ_dtPrev (s : State) (k : Nat) (q : Fin 4) (f : Block → Block) : (s.modQ k q f).dtPrev = s.dtPrev := rfl
@[simp] theorem State.modQ_phase (s : State) (k : Nat) (q : Fin 4) (f : Block → Block) : (s.modQ k q f).phase = s.phase := rfl
@[simp] theorem State.modQ_boot (s : State) (k : Nat) (q : Fin 4) (f : Block → Block) : (s.modQ k q f).boot = s.boot := rfl
@[simp] theorem State.modQ_verify (s : State) (k : Nat) (q : Fin 4) (f : Block → Block) : (s.modQ k q f).verify = s.verify := rfl
@[simp] theorem State.modQ_flash (s : State) (k : Nat) (q : Fin 4) (f : Block → Block) : (s.modQ k q f).flash = s.flash := rfl
@[simp] theorem State.modQ_fuse (s : State) (k : Nat) (q : Fin 4) (f : Block → Block) : (s.modQ k q f).fuse = s.fuse := rfl
@[simp] theorem State.modQ_env (s : State) (k : Nat) (q : Fin 4) (f : Block → Block) : (s.modQ k q f).env = s.env := rfl
@[simp] theorem State.modQ_failed (s : State) (k : Nat) (q : Fin 4) (f : Block → Block) : (s.modQ k q f).failed = s.failed := rfl
@[simp] theorem State.modQ_module (s : State) (k : Nat) (q : Fin 4) (f : Block → Block) : (s.modQ k q f).module = s.module := rfl
@[simp] theorem State.modQ_mem (s : State) (k : Nat) (q : Fin 4) (f : Block → Block) : (s.modQ k q f).mem = s.mem := rfl
@[simp] theorem State.modQ_poison (s : State) (k : Nat) (q : Fin 4) (f : Block → Block) : (s.modQ k q f).poison = s.poison := rfl
@[simp] theorem State.modQ_mended (s : State) (k : Nat) (q : Fin 4) (f : Block → Block) : (s.modQ k q f).mended = s.mended := rfl
@[simp] theorem State.modQ_cxl (s : State) (k : Nat) (q : Fin 4) (f : Block → Block) : (s.modQ k q f).cxl = s.cxl := rfl
@[simp] theorem State.modQ_rot (s : State) (k : Nat) (q : Fin 4) (f : Block → Block) : (s.modQ k q f).rot = s.rot := rfl
@[simp] theorem State.modQ_writes (s : State) (k : Nat) (q : Fin 4) (f : Block → Block) : (s.modQ k q f).writes = s.writes := rfl
@[simp] theorem State.modQ_served (s : State) (k : Nat) (q : Fin 4) (f : Block → Block) : (s.modQ k q f).served = s.served := rfl
@[simp] theorem State.modQ_markers (s : State) (k : Nat) (q : Fin 4) (f : Block → Block) : (s.modQ k q f).markers = s.markers := rfl
@[simp] theorem State.modQ_updates (s : State) (k : Nat) (q : Fin 4) (f : Block → Block) : (s.modQ k q f).updates = s.updates := rfl
@[simp] theorem State.modQ_combines (s : State) (k : Nat) (q : Fin 4) (f : Block → Block) : (s.modQ k q f).combines = s.combines := rfl
@[simp] theorem State.modQ_roundMarks (s : State) (k : Nat) (q : Fin 4) (f : Block → Block) : (s.modQ k q f).roundMarks = s.roundMarks := rfl
@[simp] theorem State.modQ_groups (s : State) (k : Nat) (q : Fin 4) (f : Block → Block) : (s.modQ k q f).groups = s.groups := rfl
@[simp] theorem State.modQ_next (s : State) (k : Nat) (q : Fin 4) (f : Block → Block) : (s.modQ k q f).next = s.next := rfl
@[simp] theorem State.modQ_dies (s : State) (k : Nat) (q : Fin 4) (f : Block → Block) : (s.modQ k q f).dies = s.dies := rfl
@[simp] theorem State.modQ_mg (s : State) (k : Nat) (q : Fin 4) (f : Block → Block) : (s.modQ k q f).mg = s.mg := rfl
@[simp] theorem State.modQ_funcs (s : State) (k : Nat) (q : Fin 4) (f : Block → Block) : (s.modQ k q f).funcs = s.funcs := rfl
@[simp] theorem State.modQ_commons (s : State) (k : Nat) (q : Fin 4) (f : Block → Block) : (s.modQ k q f).commons = s.commons := rfl
@[simp] theorem State.modQ_parts (s : State) (k : Nat) (q : Fin 4) (f : Block → Block) : (s.modQ k q f).parts = s.parts := rfl
@[simp] theorem State.modQ_queues (s : State) (k : Nat) (q : Fin 4) (f : Block → Block) : (s.modQ k q f).queues = s.queues := rfl
@[simp] theorem State.modQ_conns (s : State) (k : Nat) (q : Fin 4) (f : Block → Block) : (s.modQ k q f).conns = s.conns := rfl
@[simp] theorem State.modQ_hampers (s : State) (k : Nat) (q : Fin 4) (f : Block → Block) : (s.modQ k q f).hampers = s.hampers := rfl
@[simp] theorem State.modQ_mcasts (s : State) (k : Nat) (q : Fin 4) (f : Block → Block) : (s.modQ k q f).mcasts = s.mcasts := rfl
@[simp] theorem State.modQ_out (s : State) (k : Nat) (q : Fin 4) (f : Block → Block) : (s.modQ k q f).out = s.out := rfl
@[simp] theorem State.modQ_fresh (s : State) (k : Nat) (q : Fin 4) (f : Block → Block) : (s.modQ k q f).fresh = s.fresh := rfl
@[simp] theorem State.modQ_cur (s : State) (k : Nat) (q : Fin 4) (f : Block → Block) : (s.modQ k q f).cur = s.cur := rfl
@[simp] theorem State.modQ_due (s : State) (k : Nat) (q : Fin 4) (f : Block → Block) : (s.modQ k q f).due = s.due := rfl
@[simp] theorem State.modQ_agenda (s : State) (k : Nat) (q : Fin 4) (f : Block → Block) : (s.modQ k q f).agenda = s.agenda := rfl
@[simp] theorem State.modQ_round (s : State) (k : Nat) (q : Fin 4) (f : Block → Block) : (s.modQ k q f).round = s.round := rfl

@[simp] theorem State.modBlk_clk (s : State) (f : Block → Block) : (s.modBlk f).clk = s.clk := rfl
@[simp] theorem State.modBlk_upAt (s : State) (f : Block → Block) : (s.modBlk f).upAt = s.upAt := rfl
@[simp] theorem State.modBlk_dtBase (s : State) (f : Block → Block) : (s.modBlk f).dtBase = s.dtBase := rfl
@[simp] theorem State.modBlk_dtAhead (s : State) (f : Block → Block) : (s.modBlk f).dtAhead = s.dtAhead := rfl
@[simp] theorem State.modBlk_dtPrev (s : State) (f : Block → Block) : (s.modBlk f).dtPrev = s.dtPrev := rfl
@[simp] theorem State.modBlk_phase (s : State) (f : Block → Block) : (s.modBlk f).phase = s.phase := rfl
@[simp] theorem State.modBlk_boot (s : State) (f : Block → Block) : (s.modBlk f).boot = s.boot := rfl
@[simp] theorem State.modBlk_verify (s : State) (f : Block → Block) : (s.modBlk f).verify = s.verify := rfl
@[simp] theorem State.modBlk_flash (s : State) (f : Block → Block) : (s.modBlk f).flash = s.flash := rfl
@[simp] theorem State.modBlk_fuse (s : State) (f : Block → Block) : (s.modBlk f).fuse = s.fuse := rfl
@[simp] theorem State.modBlk_env (s : State) (f : Block → Block) : (s.modBlk f).env = s.env := rfl
@[simp] theorem State.modBlk_failed (s : State) (f : Block → Block) : (s.modBlk f).failed = s.failed := rfl
@[simp] theorem State.modBlk_module (s : State) (f : Block → Block) : (s.modBlk f).module = s.module := rfl
@[simp] theorem State.modBlk_mem (s : State) (f : Block → Block) : (s.modBlk f).mem = s.mem := rfl
@[simp] theorem State.modBlk_poison (s : State) (f : Block → Block) : (s.modBlk f).poison = s.poison := rfl
@[simp] theorem State.modBlk_mended (s : State) (f : Block → Block) : (s.modBlk f).mended = s.mended := rfl
@[simp] theorem State.modBlk_cxl (s : State) (f : Block → Block) : (s.modBlk f).cxl = s.cxl := rfl
@[simp] theorem State.modBlk_rot (s : State) (f : Block → Block) : (s.modBlk f).rot = s.rot := rfl
@[simp] theorem State.modBlk_writes (s : State) (f : Block → Block) : (s.modBlk f).writes = s.writes := rfl
@[simp] theorem State.modBlk_served (s : State) (f : Block → Block) : (s.modBlk f).served = s.served := rfl
@[simp] theorem State.modBlk_markers (s : State) (f : Block → Block) : (s.modBlk f).markers = s.markers := rfl
@[simp] theorem State.modBlk_updates (s : State) (f : Block → Block) : (s.modBlk f).updates = s.updates := rfl
@[simp] theorem State.modBlk_combines (s : State) (f : Block → Block) : (s.modBlk f).combines = s.combines := rfl
@[simp] theorem State.modBlk_roundMarks (s : State) (f : Block → Block) : (s.modBlk f).roundMarks = s.roundMarks := rfl
@[simp] theorem State.modBlk_groups (s : State) (f : Block → Block) : (s.modBlk f).groups = s.groups := rfl
@[simp] theorem State.modBlk_next (s : State) (f : Block → Block) : (s.modBlk f).next = s.next := rfl
@[simp] theorem State.modBlk_dies (s : State) (f : Block → Block) : (s.modBlk f).dies = s.dies := rfl
@[simp] theorem State.modBlk_mg (s : State) (f : Block → Block) : (s.modBlk f).mg = s.mg := rfl
@[simp] theorem State.modBlk_funcs (s : State) (f : Block → Block) : (s.modBlk f).funcs = s.funcs := rfl
@[simp] theorem State.modBlk_commons (s : State) (f : Block → Block) : (s.modBlk f).commons = s.commons := rfl
@[simp] theorem State.modBlk_parts (s : State) (f : Block → Block) : (s.modBlk f).parts = s.parts := rfl
@[simp] theorem State.modBlk_queues (s : State) (f : Block → Block) : (s.modBlk f).queues = s.queues := rfl
@[simp] theorem State.modBlk_conns (s : State) (f : Block → Block) : (s.modBlk f).conns = s.conns := rfl
@[simp] theorem State.modBlk_hampers (s : State) (f : Block → Block) : (s.modBlk f).hampers = s.hampers := rfl
@[simp] theorem State.modBlk_mcasts (s : State) (f : Block → Block) : (s.modBlk f).mcasts = s.mcasts := rfl
@[simp] theorem State.modBlk_out (s : State) (f : Block → Block) : (s.modBlk f).out = s.out := rfl
@[simp] theorem State.modBlk_fresh (s : State) (f : Block → Block) : (s.modBlk f).fresh = s.fresh := rfl
@[simp] theorem State.modBlk_cur (s : State) (f : Block → Block) : (s.modBlk f).cur = s.cur := rfl
@[simp] theorem State.modBlk_due (s : State) (f : Block → Block) : (s.modBlk f).due = s.due := rfl
@[simp] theorem State.modBlk_agenda (s : State) (f : Block → Block) : (s.modBlk f).agenda = s.agenda := rfl
@[simp] theorem State.modBlk_round (s : State) (f : Block → Block) : (s.modBlk f).round = s.round := rfl

@[simp] theorem State.modDie_clk (s : State) (d : Nat) (f : Die → Die) : (s.modDie d f).clk = s.clk := rfl
@[simp] theorem State.modDie_upAt (s : State) (d : Nat) (f : Die → Die) : (s.modDie d f).upAt = s.upAt := rfl
@[simp] theorem State.modDie_dtBase (s : State) (d : Nat) (f : Die → Die) : (s.modDie d f).dtBase = s.dtBase := rfl
@[simp] theorem State.modDie_dtAhead (s : State) (d : Nat) (f : Die → Die) : (s.modDie d f).dtAhead = s.dtAhead := rfl
@[simp] theorem State.modDie_dtPrev (s : State) (d : Nat) (f : Die → Die) : (s.modDie d f).dtPrev = s.dtPrev := rfl
@[simp] theorem State.modDie_phase (s : State) (d : Nat) (f : Die → Die) : (s.modDie d f).phase = s.phase := rfl
@[simp] theorem State.modDie_boot (s : State) (d : Nat) (f : Die → Die) : (s.modDie d f).boot = s.boot := rfl
@[simp] theorem State.modDie_verify (s : State) (d : Nat) (f : Die → Die) : (s.modDie d f).verify = s.verify := rfl
@[simp] theorem State.modDie_flash (s : State) (d : Nat) (f : Die → Die) : (s.modDie d f).flash = s.flash := rfl
@[simp] theorem State.modDie_fuse (s : State) (d : Nat) (f : Die → Die) : (s.modDie d f).fuse = s.fuse := rfl
@[simp] theorem State.modDie_env (s : State) (d : Nat) (f : Die → Die) : (s.modDie d f).env = s.env := rfl
@[simp] theorem State.modDie_failed (s : State) (d : Nat) (f : Die → Die) : (s.modDie d f).failed = s.failed := rfl
@[simp] theorem State.modDie_module (s : State) (d : Nat) (f : Die → Die) : (s.modDie d f).module = s.module := rfl
@[simp] theorem State.modDie_mem (s : State) (d : Nat) (f : Die → Die) : (s.modDie d f).mem = s.mem := rfl
@[simp] theorem State.modDie_poison (s : State) (d : Nat) (f : Die → Die) : (s.modDie d f).poison = s.poison := rfl
@[simp] theorem State.modDie_mended (s : State) (d : Nat) (f : Die → Die) : (s.modDie d f).mended = s.mended := rfl
@[simp] theorem State.modDie_cxl (s : State) (d : Nat) (f : Die → Die) : (s.modDie d f).cxl = s.cxl := rfl
@[simp] theorem State.modDie_rot (s : State) (d : Nat) (f : Die → Die) : (s.modDie d f).rot = s.rot := rfl
@[simp] theorem State.modDie_writes (s : State) (d : Nat) (f : Die → Die) : (s.modDie d f).writes = s.writes := rfl
@[simp] theorem State.modDie_served (s : State) (d : Nat) (f : Die → Die) : (s.modDie d f).served = s.served := rfl
@[simp] theorem State.modDie_markers (s : State) (d : Nat) (f : Die → Die) : (s.modDie d f).markers = s.markers := rfl
@[simp] theorem State.modDie_updates (s : State) (d : Nat) (f : Die → Die) : (s.modDie d f).updates = s.updates := rfl
@[simp] theorem State.modDie_combines (s : State) (d : Nat) (f : Die → Die) : (s.modDie d f).combines = s.combines := rfl
@[simp] theorem State.modDie_roundMarks (s : State) (d : Nat) (f : Die → Die) : (s.modDie d f).roundMarks = s.roundMarks := rfl
@[simp] theorem State.modDie_groups (s : State) (d : Nat) (f : Die → Die) : (s.modDie d f).groups = s.groups := rfl
@[simp] theorem State.modDie_next (s : State) (d : Nat) (f : Die → Die) : (s.modDie d f).next = s.next := rfl
@[simp] theorem State.modDie_cores (s : State) (d : Nat) (f : Die → Die) : (s.modDie d f).cores = s.cores := rfl
@[simp] theorem State.modDie_mg (s : State) (d : Nat) (f : Die → Die) : (s.modDie d f).mg = s.mg := rfl
@[simp] theorem State.modDie_funcs (s : State) (d : Nat) (f : Die → Die) : (s.modDie d f).funcs = s.funcs := rfl
@[simp] theorem State.modDie_commons (s : State) (d : Nat) (f : Die → Die) : (s.modDie d f).commons = s.commons := rfl
@[simp] theorem State.modDie_parts (s : State) (d : Nat) (f : Die → Die) : (s.modDie d f).parts = s.parts := rfl
@[simp] theorem State.modDie_queues (s : State) (d : Nat) (f : Die → Die) : (s.modDie d f).queues = s.queues := rfl
@[simp] theorem State.modDie_conns (s : State) (d : Nat) (f : Die → Die) : (s.modDie d f).conns = s.conns := rfl
@[simp] theorem State.modDie_hampers (s : State) (d : Nat) (f : Die → Die) : (s.modDie d f).hampers = s.hampers := rfl
@[simp] theorem State.modDie_mcasts (s : State) (d : Nat) (f : Die → Die) : (s.modDie d f).mcasts = s.mcasts := rfl
@[simp] theorem State.modDie_out (s : State) (d : Nat) (f : Die → Die) : (s.modDie d f).out = s.out := rfl
@[simp] theorem State.modDie_fresh (s : State) (d : Nat) (f : Die → Die) : (s.modDie d f).fresh = s.fresh := rfl
@[simp] theorem State.modDie_cur (s : State) (d : Nat) (f : Die → Die) : (s.modDie d f).cur = s.cur := rfl
@[simp] theorem State.modDie_due (s : State) (d : Nat) (f : Die → Die) : (s.modDie d f).due = s.due := rfl
@[simp] theorem State.modDie_agenda (s : State) (d : Nat) (f : Die → Die) : (s.modDie d f).agenda = s.agenda := rfl
@[simp] theorem State.modDie_round (s : State) (d : Nat) (f : Die → Die) : (s.modDie d f).round = s.round := rfl

@[simp] theorem State.modFunc_clk (s : State) (f : Byte) (g : Func → Func) : (s.modFunc f g).clk = s.clk := rfl
@[simp] theorem State.modFunc_upAt (s : State) (f : Byte) (g : Func → Func) : (s.modFunc f g).upAt = s.upAt := rfl
@[simp] theorem State.modFunc_dtBase (s : State) (f : Byte) (g : Func → Func) : (s.modFunc f g).dtBase = s.dtBase := rfl
@[simp] theorem State.modFunc_dtAhead (s : State) (f : Byte) (g : Func → Func) : (s.modFunc f g).dtAhead = s.dtAhead := rfl
@[simp] theorem State.modFunc_dtPrev (s : State) (f : Byte) (g : Func → Func) : (s.modFunc f g).dtPrev = s.dtPrev := rfl
@[simp] theorem State.modFunc_phase (s : State) (f : Byte) (g : Func → Func) : (s.modFunc f g).phase = s.phase := rfl
@[simp] theorem State.modFunc_boot (s : State) (f : Byte) (g : Func → Func) : (s.modFunc f g).boot = s.boot := rfl
@[simp] theorem State.modFunc_verify (s : State) (f : Byte) (g : Func → Func) : (s.modFunc f g).verify = s.verify := rfl
@[simp] theorem State.modFunc_flash (s : State) (f : Byte) (g : Func → Func) : (s.modFunc f g).flash = s.flash := rfl
@[simp] theorem State.modFunc_fuse (s : State) (f : Byte) (g : Func → Func) : (s.modFunc f g).fuse = s.fuse := rfl
@[simp] theorem State.modFunc_env (s : State) (f : Byte) (g : Func → Func) : (s.modFunc f g).env = s.env := rfl
@[simp] theorem State.modFunc_failed (s : State) (f : Byte) (g : Func → Func) : (s.modFunc f g).failed = s.failed := rfl
@[simp] theorem State.modFunc_module (s : State) (f : Byte) (g : Func → Func) : (s.modFunc f g).module = s.module := rfl
@[simp] theorem State.modFunc_mem (s : State) (f : Byte) (g : Func → Func) : (s.modFunc f g).mem = s.mem := rfl
@[simp] theorem State.modFunc_poison (s : State) (f : Byte) (g : Func → Func) : (s.modFunc f g).poison = s.poison := rfl
@[simp] theorem State.modFunc_mended (s : State) (f : Byte) (g : Func → Func) : (s.modFunc f g).mended = s.mended := rfl
@[simp] theorem State.modFunc_cxl (s : State) (f : Byte) (g : Func → Func) : (s.modFunc f g).cxl = s.cxl := rfl
@[simp] theorem State.modFunc_rot (s : State) (f : Byte) (g : Func → Func) : (s.modFunc f g).rot = s.rot := rfl
@[simp] theorem State.modFunc_writes (s : State) (f : Byte) (g : Func → Func) : (s.modFunc f g).writes = s.writes := rfl
@[simp] theorem State.modFunc_served (s : State) (f : Byte) (g : Func → Func) : (s.modFunc f g).served = s.served := rfl
@[simp] theorem State.modFunc_markers (s : State) (f : Byte) (g : Func → Func) : (s.modFunc f g).markers = s.markers := rfl
@[simp] theorem State.modFunc_updates (s : State) (f : Byte) (g : Func → Func) : (s.modFunc f g).updates = s.updates := rfl
@[simp] theorem State.modFunc_combines (s : State) (f : Byte) (g : Func → Func) : (s.modFunc f g).combines = s.combines := rfl
@[simp] theorem State.modFunc_roundMarks (s : State) (f : Byte) (g : Func → Func) : (s.modFunc f g).roundMarks = s.roundMarks := rfl
@[simp] theorem State.modFunc_groups (s : State) (f : Byte) (g : Func → Func) : (s.modFunc f g).groups = s.groups := rfl
@[simp] theorem State.modFunc_next (s : State) (f : Byte) (g : Func → Func) : (s.modFunc f g).next = s.next := rfl
@[simp] theorem State.modFunc_dies (s : State) (f : Byte) (g : Func → Func) : (s.modFunc f g).dies = s.dies := rfl
@[simp] theorem State.modFunc_cores (s : State) (f : Byte) (g : Func → Func) : (s.modFunc f g).cores = s.cores := rfl
@[simp] theorem State.modFunc_mg (s : State) (f : Byte) (g : Func → Func) : (s.modFunc f g).mg = s.mg := rfl
@[simp] theorem State.modFunc_commons (s : State) (f : Byte) (g : Func → Func) : (s.modFunc f g).commons = s.commons := rfl
@[simp] theorem State.modFunc_parts (s : State) (f : Byte) (g : Func → Func) : (s.modFunc f g).parts = s.parts := rfl
@[simp] theorem State.modFunc_queues (s : State) (f : Byte) (g : Func → Func) : (s.modFunc f g).queues = s.queues := rfl
@[simp] theorem State.modFunc_conns (s : State) (f : Byte) (g : Func → Func) : (s.modFunc f g).conns = s.conns := rfl
@[simp] theorem State.modFunc_hampers (s : State) (f : Byte) (g : Func → Func) : (s.modFunc f g).hampers = s.hampers := rfl
@[simp] theorem State.modFunc_mcasts (s : State) (f : Byte) (g : Func → Func) : (s.modFunc f g).mcasts = s.mcasts := rfl
@[simp] theorem State.modFunc_out (s : State) (f : Byte) (g : Func → Func) : (s.modFunc f g).out = s.out := rfl
@[simp] theorem State.modFunc_fresh (s : State) (f : Byte) (g : Func → Func) : (s.modFunc f g).fresh = s.fresh := rfl
@[simp] theorem State.modFunc_cur (s : State) (f : Byte) (g : Func → Func) : (s.modFunc f g).cur = s.cur := rfl
@[simp] theorem State.modFunc_due (s : State) (f : Byte) (g : Func → Func) : (s.modFunc f g).due = s.due := rfl
@[simp] theorem State.modFunc_agenda (s : State) (f : Byte) (g : Func → Func) : (s.modFunc f g).agenda = s.agenda := rfl
@[simp] theorem State.modFunc_round (s : State) (f : Byte) (g : Func → Func) : (s.modFunc f g).round = s.round := rfl

@[simp] theorem State.modPart_clk (s : State) (p : Nat) (g : Part → Part) : (s.modPart p g).clk = s.clk := rfl
@[simp] theorem State.modPart_upAt (s : State) (p : Nat) (g : Part → Part) : (s.modPart p g).upAt = s.upAt := rfl
@[simp] theorem State.modPart_dtBase (s : State) (p : Nat) (g : Part → Part) : (s.modPart p g).dtBase = s.dtBase := rfl
@[simp] theorem State.modPart_dtAhead (s : State) (p : Nat) (g : Part → Part) : (s.modPart p g).dtAhead = s.dtAhead := rfl
@[simp] theorem State.modPart_dtPrev (s : State) (p : Nat) (g : Part → Part) : (s.modPart p g).dtPrev = s.dtPrev := rfl
@[simp] theorem State.modPart_phase (s : State) (p : Nat) (g : Part → Part) : (s.modPart p g).phase = s.phase := rfl
@[simp] theorem State.modPart_boot (s : State) (p : Nat) (g : Part → Part) : (s.modPart p g).boot = s.boot := rfl
@[simp] theorem State.modPart_verify (s : State) (p : Nat) (g : Part → Part) : (s.modPart p g).verify = s.verify := rfl
@[simp] theorem State.modPart_flash (s : State) (p : Nat) (g : Part → Part) : (s.modPart p g).flash = s.flash := rfl
@[simp] theorem State.modPart_fuse (s : State) (p : Nat) (g : Part → Part) : (s.modPart p g).fuse = s.fuse := rfl
@[simp] theorem State.modPart_env (s : State) (p : Nat) (g : Part → Part) : (s.modPart p g).env = s.env := rfl
@[simp] theorem State.modPart_failed (s : State) (p : Nat) (g : Part → Part) : (s.modPart p g).failed = s.failed := rfl
@[simp] theorem State.modPart_module (s : State) (p : Nat) (g : Part → Part) : (s.modPart p g).module = s.module := rfl
@[simp] theorem State.modPart_mem (s : State) (p : Nat) (g : Part → Part) : (s.modPart p g).mem = s.mem := rfl
@[simp] theorem State.modPart_poison (s : State) (p : Nat) (g : Part → Part) : (s.modPart p g).poison = s.poison := rfl
@[simp] theorem State.modPart_mended (s : State) (p : Nat) (g : Part → Part) : (s.modPart p g).mended = s.mended := rfl
@[simp] theorem State.modPart_cxl (s : State) (p : Nat) (g : Part → Part) : (s.modPart p g).cxl = s.cxl := rfl
@[simp] theorem State.modPart_rot (s : State) (p : Nat) (g : Part → Part) : (s.modPart p g).rot = s.rot := rfl
@[simp] theorem State.modPart_writes (s : State) (p : Nat) (g : Part → Part) : (s.modPart p g).writes = s.writes := rfl
@[simp] theorem State.modPart_served (s : State) (p : Nat) (g : Part → Part) : (s.modPart p g).served = s.served := rfl
@[simp] theorem State.modPart_markers (s : State) (p : Nat) (g : Part → Part) : (s.modPart p g).markers = s.markers := rfl
@[simp] theorem State.modPart_updates (s : State) (p : Nat) (g : Part → Part) : (s.modPart p g).updates = s.updates := rfl
@[simp] theorem State.modPart_combines (s : State) (p : Nat) (g : Part → Part) : (s.modPart p g).combines = s.combines := rfl
@[simp] theorem State.modPart_roundMarks (s : State) (p : Nat) (g : Part → Part) : (s.modPart p g).roundMarks = s.roundMarks := rfl
@[simp] theorem State.modPart_groups (s : State) (p : Nat) (g : Part → Part) : (s.modPart p g).groups = s.groups := rfl
@[simp] theorem State.modPart_next (s : State) (p : Nat) (g : Part → Part) : (s.modPart p g).next = s.next := rfl
@[simp] theorem State.modPart_dies (s : State) (p : Nat) (g : Part → Part) : (s.modPart p g).dies = s.dies := rfl
@[simp] theorem State.modPart_cores (s : State) (p : Nat) (g : Part → Part) : (s.modPart p g).cores = s.cores := rfl
@[simp] theorem State.modPart_mg (s : State) (p : Nat) (g : Part → Part) : (s.modPart p g).mg = s.mg := rfl
@[simp] theorem State.modPart_funcs (s : State) (p : Nat) (g : Part → Part) : (s.modPart p g).funcs = s.funcs := rfl
@[simp] theorem State.modPart_commons (s : State) (p : Nat) (g : Part → Part) : (s.modPart p g).commons = s.commons := rfl
@[simp] theorem State.modPart_queues (s : State) (p : Nat) (g : Part → Part) : (s.modPart p g).queues = s.queues := rfl
@[simp] theorem State.modPart_conns (s : State) (p : Nat) (g : Part → Part) : (s.modPart p g).conns = s.conns := rfl
@[simp] theorem State.modPart_hampers (s : State) (p : Nat) (g : Part → Part) : (s.modPart p g).hampers = s.hampers := rfl
@[simp] theorem State.modPart_mcasts (s : State) (p : Nat) (g : Part → Part) : (s.modPart p g).mcasts = s.mcasts := rfl
@[simp] theorem State.modPart_out (s : State) (p : Nat) (g : Part → Part) : (s.modPart p g).out = s.out := rfl
@[simp] theorem State.modPart_fresh (s : State) (p : Nat) (g : Part → Part) : (s.modPart p g).fresh = s.fresh := rfl
@[simp] theorem State.modPart_cur (s : State) (p : Nat) (g : Part → Part) : (s.modPart p g).cur = s.cur := rfl
@[simp] theorem State.modPart_due (s : State) (p : Nat) (g : Part → Part) : (s.modPart p g).due = s.due := rfl
@[simp] theorem State.modPart_agenda (s : State) (p : Nat) (g : Part → Part) : (s.modPart p g).agenda = s.agenda := rfl
@[simp] theorem State.modPart_round (s : State) (p : Nat) (g : Part → Part) : (s.modPart p g).round = s.round := rfl

@[simp] theorem State.modQueue_clk (s : State) (q : Nat) (g : HQueue → HQueue) : (s.modQueue q g).clk = s.clk := rfl
@[simp] theorem State.modQueue_upAt (s : State) (q : Nat) (g : HQueue → HQueue) : (s.modQueue q g).upAt = s.upAt := rfl
@[simp] theorem State.modQueue_dtBase (s : State) (q : Nat) (g : HQueue → HQueue) : (s.modQueue q g).dtBase = s.dtBase := rfl
@[simp] theorem State.modQueue_dtAhead (s : State) (q : Nat) (g : HQueue → HQueue) : (s.modQueue q g).dtAhead = s.dtAhead := rfl
@[simp] theorem State.modQueue_dtPrev (s : State) (q : Nat) (g : HQueue → HQueue) : (s.modQueue q g).dtPrev = s.dtPrev := rfl
@[simp] theorem State.modQueue_phase (s : State) (q : Nat) (g : HQueue → HQueue) : (s.modQueue q g).phase = s.phase := rfl
@[simp] theorem State.modQueue_boot (s : State) (q : Nat) (g : HQueue → HQueue) : (s.modQueue q g).boot = s.boot := rfl
@[simp] theorem State.modQueue_verify (s : State) (q : Nat) (g : HQueue → HQueue) : (s.modQueue q g).verify = s.verify := rfl
@[simp] theorem State.modQueue_flash (s : State) (q : Nat) (g : HQueue → HQueue) : (s.modQueue q g).flash = s.flash := rfl
@[simp] theorem State.modQueue_fuse (s : State) (q : Nat) (g : HQueue → HQueue) : (s.modQueue q g).fuse = s.fuse := rfl
@[simp] theorem State.modQueue_env (s : State) (q : Nat) (g : HQueue → HQueue) : (s.modQueue q g).env = s.env := rfl
@[simp] theorem State.modQueue_failed (s : State) (q : Nat) (g : HQueue → HQueue) : (s.modQueue q g).failed = s.failed := rfl
@[simp] theorem State.modQueue_module (s : State) (q : Nat) (g : HQueue → HQueue) : (s.modQueue q g).module = s.module := rfl
@[simp] theorem State.modQueue_mem (s : State) (q : Nat) (g : HQueue → HQueue) : (s.modQueue q g).mem = s.mem := rfl
@[simp] theorem State.modQueue_poison (s : State) (q : Nat) (g : HQueue → HQueue) : (s.modQueue q g).poison = s.poison := rfl
@[simp] theorem State.modQueue_mended (s : State) (q : Nat) (g : HQueue → HQueue) : (s.modQueue q g).mended = s.mended := rfl
@[simp] theorem State.modQueue_cxl (s : State) (q : Nat) (g : HQueue → HQueue) : (s.modQueue q g).cxl = s.cxl := rfl
@[simp] theorem State.modQueue_rot (s : State) (q : Nat) (g : HQueue → HQueue) : (s.modQueue q g).rot = s.rot := rfl
@[simp] theorem State.modQueue_writes (s : State) (q : Nat) (g : HQueue → HQueue) : (s.modQueue q g).writes = s.writes := rfl
@[simp] theorem State.modQueue_served (s : State) (q : Nat) (g : HQueue → HQueue) : (s.modQueue q g).served = s.served := rfl
@[simp] theorem State.modQueue_markers (s : State) (q : Nat) (g : HQueue → HQueue) : (s.modQueue q g).markers = s.markers := rfl
@[simp] theorem State.modQueue_updates (s : State) (q : Nat) (g : HQueue → HQueue) : (s.modQueue q g).updates = s.updates := rfl
@[simp] theorem State.modQueue_combines (s : State) (q : Nat) (g : HQueue → HQueue) : (s.modQueue q g).combines = s.combines := rfl
@[simp] theorem State.modQueue_roundMarks (s : State) (q : Nat) (g : HQueue → HQueue) : (s.modQueue q g).roundMarks = s.roundMarks := rfl
@[simp] theorem State.modQueue_groups (s : State) (q : Nat) (g : HQueue → HQueue) : (s.modQueue q g).groups = s.groups := rfl
@[simp] theorem State.modQueue_next (s : State) (q : Nat) (g : HQueue → HQueue) : (s.modQueue q g).next = s.next := rfl
@[simp] theorem State.modQueue_dies (s : State) (q : Nat) (g : HQueue → HQueue) : (s.modQueue q g).dies = s.dies := rfl
@[simp] theorem State.modQueue_cores (s : State) (q : Nat) (g : HQueue → HQueue) : (s.modQueue q g).cores = s.cores := rfl
@[simp] theorem State.modQueue_mg (s : State) (q : Nat) (g : HQueue → HQueue) : (s.modQueue q g).mg = s.mg := rfl
@[simp] theorem State.modQueue_funcs (s : State) (q : Nat) (g : HQueue → HQueue) : (s.modQueue q g).funcs = s.funcs := rfl
@[simp] theorem State.modQueue_commons (s : State) (q : Nat) (g : HQueue → HQueue) : (s.modQueue q g).commons = s.commons := rfl
@[simp] theorem State.modQueue_parts (s : State) (q : Nat) (g : HQueue → HQueue) : (s.modQueue q g).parts = s.parts := rfl
@[simp] theorem State.modQueue_conns (s : State) (q : Nat) (g : HQueue → HQueue) : (s.modQueue q g).conns = s.conns := rfl
@[simp] theorem State.modQueue_hampers (s : State) (q : Nat) (g : HQueue → HQueue) : (s.modQueue q g).hampers = s.hampers := rfl
@[simp] theorem State.modQueue_mcasts (s : State) (q : Nat) (g : HQueue → HQueue) : (s.modQueue q g).mcasts = s.mcasts := rfl
@[simp] theorem State.modQueue_out (s : State) (q : Nat) (g : HQueue → HQueue) : (s.modQueue q g).out = s.out := rfl
@[simp] theorem State.modQueue_fresh (s : State) (q : Nat) (g : HQueue → HQueue) : (s.modQueue q g).fresh = s.fresh := rfl
@[simp] theorem State.modQueue_cur (s : State) (q : Nat) (g : HQueue → HQueue) : (s.modQueue q g).cur = s.cur := rfl
@[simp] theorem State.modQueue_due (s : State) (q : Nat) (g : HQueue → HQueue) : (s.modQueue q g).due = s.due := rfl
@[simp] theorem State.modQueue_agenda (s : State) (q : Nat) (g : HQueue → HQueue) : (s.modQueue q g).agenda = s.agenda := rfl
@[simp] theorem State.modQueue_round (s : State) (q : Nat) (g : HQueue → HQueue) : (s.modQueue q g).round = s.round := rfl

@[simp] theorem State.after_clk (s : State) (l : List Act) : (s.after l).clk = s.clk := rfl
@[simp] theorem State.after_upAt (s : State) (l : List Act) : (s.after l).upAt = s.upAt := rfl
@[simp] theorem State.after_dtBase (s : State) (l : List Act) : (s.after l).dtBase = s.dtBase := rfl
@[simp] theorem State.after_dtAhead (s : State) (l : List Act) : (s.after l).dtAhead = s.dtAhead := rfl
@[simp] theorem State.after_dtPrev (s : State) (l : List Act) : (s.after l).dtPrev = s.dtPrev := rfl
@[simp] theorem State.after_phase (s : State) (l : List Act) : (s.after l).phase = s.phase := rfl
@[simp] theorem State.after_boot (s : State) (l : List Act) : (s.after l).boot = s.boot := rfl
@[simp] theorem State.after_verify (s : State) (l : List Act) : (s.after l).verify = s.verify := rfl
@[simp] theorem State.after_flash (s : State) (l : List Act) : (s.after l).flash = s.flash := rfl
@[simp] theorem State.after_fuse (s : State) (l : List Act) : (s.after l).fuse = s.fuse := rfl
@[simp] theorem State.after_env (s : State) (l : List Act) : (s.after l).env = s.env := rfl
@[simp] theorem State.after_failed (s : State) (l : List Act) : (s.after l).failed = s.failed := rfl
@[simp] theorem State.after_module (s : State) (l : List Act) : (s.after l).module = s.module := rfl
@[simp] theorem State.after_mem (s : State) (l : List Act) : (s.after l).mem = s.mem := rfl
@[simp] theorem State.after_poison (s : State) (l : List Act) : (s.after l).poison = s.poison := rfl
@[simp] theorem State.after_mended (s : State) (l : List Act) : (s.after l).mended = s.mended := rfl
@[simp] theorem State.after_cxl (s : State) (l : List Act) : (s.after l).cxl = s.cxl := rfl
@[simp] theorem State.after_rot (s : State) (l : List Act) : (s.after l).rot = s.rot := rfl
@[simp] theorem State.after_writes (s : State) (l : List Act) : (s.after l).writes = s.writes := rfl
@[simp] theorem State.after_served (s : State) (l : List Act) : (s.after l).served = s.served := rfl
@[simp] theorem State.after_markers (s : State) (l : List Act) : (s.after l).markers = s.markers := rfl
@[simp] theorem State.after_updates (s : State) (l : List Act) : (s.after l).updates = s.updates := rfl
@[simp] theorem State.after_combines (s : State) (l : List Act) : (s.after l).combines = s.combines := rfl
@[simp] theorem State.after_roundMarks (s : State) (l : List Act) : (s.after l).roundMarks = s.roundMarks := rfl
@[simp] theorem State.after_groups (s : State) (l : List Act) : (s.after l).groups = s.groups := rfl
@[simp] theorem State.after_next (s : State) (l : List Act) : (s.after l).next = s.next := rfl
@[simp] theorem State.after_dies (s : State) (l : List Act) : (s.after l).dies = s.dies := rfl
@[simp] theorem State.after_cores (s : State) (l : List Act) : (s.after l).cores = s.cores := rfl
@[simp] theorem State.after_mg (s : State) (l : List Act) : (s.after l).mg = s.mg := rfl
@[simp] theorem State.after_funcs (s : State) (l : List Act) : (s.after l).funcs = s.funcs := rfl
@[simp] theorem State.after_commons (s : State) (l : List Act) : (s.after l).commons = s.commons := rfl
@[simp] theorem State.after_parts (s : State) (l : List Act) : (s.after l).parts = s.parts := rfl
@[simp] theorem State.after_queues (s : State) (l : List Act) : (s.after l).queues = s.queues := rfl
@[simp] theorem State.after_conns (s : State) (l : List Act) : (s.after l).conns = s.conns := rfl
@[simp] theorem State.after_hampers (s : State) (l : List Act) : (s.after l).hampers = s.hampers := rfl
@[simp] theorem State.after_mcasts (s : State) (l : List Act) : (s.after l).mcasts = s.mcasts := rfl
@[simp] theorem State.after_out (s : State) (l : List Act) : (s.after l).out = s.out := rfl
@[simp] theorem State.after_fresh (s : State) (l : List Act) : (s.after l).fresh = s.fresh := rfl
@[simp] theorem State.after_cur (s : State) (l : List Act) : (s.after l).cur = s.cur := rfl
@[simp] theorem State.after_agenda (s : State) (l : List Act) : (s.after l).agenda = s.agenda := rfl
@[simp] theorem State.after_round (s : State) (l : List Act) : (s.after l).round = s.round := rfl

@[simp] theorem State.send_clk (s : State) (o : Out) : (s.send o).clk = s.clk := rfl
@[simp] theorem State.send_upAt (s : State) (o : Out) : (s.send o).upAt = s.upAt := rfl
@[simp] theorem State.send_dtBase (s : State) (o : Out) : (s.send o).dtBase = s.dtBase := rfl
@[simp] theorem State.send_dtAhead (s : State) (o : Out) : (s.send o).dtAhead = s.dtAhead := rfl
@[simp] theorem State.send_dtPrev (s : State) (o : Out) : (s.send o).dtPrev = s.dtPrev := rfl
@[simp] theorem State.send_phase (s : State) (o : Out) : (s.send o).phase = s.phase := rfl
@[simp] theorem State.send_boot (s : State) (o : Out) : (s.send o).boot = s.boot := rfl
@[simp] theorem State.send_verify (s : State) (o : Out) : (s.send o).verify = s.verify := rfl
@[simp] theorem State.send_flash (s : State) (o : Out) : (s.send o).flash = s.flash := rfl
@[simp] theorem State.send_fuse (s : State) (o : Out) : (s.send o).fuse = s.fuse := rfl
@[simp] theorem State.send_env (s : State) (o : Out) : (s.send o).env = s.env := rfl
@[simp] theorem State.send_failed (s : State) (o : Out) : (s.send o).failed = s.failed := rfl
@[simp] theorem State.send_module (s : State) (o : Out) : (s.send o).module = s.module := rfl
@[simp] theorem State.send_mem (s : State) (o : Out) : (s.send o).mem = s.mem := rfl
@[simp] theorem State.send_poison (s : State) (o : Out) : (s.send o).poison = s.poison := rfl
@[simp] theorem State.send_mended (s : State) (o : Out) : (s.send o).mended = s.mended := rfl
@[simp] theorem State.send_cxl (s : State) (o : Out) : (s.send o).cxl = s.cxl := rfl
@[simp] theorem State.send_rot (s : State) (o : Out) : (s.send o).rot = s.rot := rfl
@[simp] theorem State.send_writes (s : State) (o : Out) : (s.send o).writes = s.writes := rfl
@[simp] theorem State.send_served (s : State) (o : Out) : (s.send o).served = s.served := rfl
@[simp] theorem State.send_markers (s : State) (o : Out) : (s.send o).markers = s.markers := rfl
@[simp] theorem State.send_updates (s : State) (o : Out) : (s.send o).updates = s.updates := rfl
@[simp] theorem State.send_combines (s : State) (o : Out) : (s.send o).combines = s.combines := rfl
@[simp] theorem State.send_roundMarks (s : State) (o : Out) : (s.send o).roundMarks = s.roundMarks := rfl
@[simp] theorem State.send_groups (s : State) (o : Out) : (s.send o).groups = s.groups := rfl
@[simp] theorem State.send_next (s : State) (o : Out) : (s.send o).next = s.next := rfl
@[simp] theorem State.send_dies (s : State) (o : Out) : (s.send o).dies = s.dies := rfl
@[simp] theorem State.send_cores (s : State) (o : Out) : (s.send o).cores = s.cores := rfl
@[simp] theorem State.send_mg (s : State) (o : Out) : (s.send o).mg = s.mg := rfl
@[simp] theorem State.send_funcs (s : State) (o : Out) : (s.send o).funcs = s.funcs := rfl
@[simp] theorem State.send_commons (s : State) (o : Out) : (s.send o).commons = s.commons := rfl
@[simp] theorem State.send_parts (s : State) (o : Out) : (s.send o).parts = s.parts := rfl
@[simp] theorem State.send_queues (s : State) (o : Out) : (s.send o).queues = s.queues := rfl
@[simp] theorem State.send_conns (s : State) (o : Out) : (s.send o).conns = s.conns := rfl
@[simp] theorem State.send_hampers (s : State) (o : Out) : (s.send o).hampers = s.hampers := rfl
@[simp] theorem State.send_mcasts (s : State) (o : Out) : (s.send o).mcasts = s.mcasts := rfl
@[simp] theorem State.send_fresh (s : State) (o : Out) : (s.send o).fresh = s.fresh := rfl
@[simp] theorem State.send_cur (s : State) (o : Out) : (s.send o).cur = s.cur := rfl
@[simp] theorem State.send_due (s : State) (o : Out) : (s.send o).due = s.due := rfl
@[simp] theorem State.send_agenda (s : State) (o : Out) : (s.send o).agenda = s.agenda := rfl
@[simp] theorem State.send_round (s : State) (o : Out) : (s.send o).round = s.round := rfl

@[simp] theorem State.core_setCore_self (s : State) (k : Nat) (c : Core) : (s.setCore k c).core k = c := mget_mset_self ..
theorem State.core_setCore_ne (s : State) {k i : Nat} (c : Core) (h : i ≠ k) : (s.setCore k c).core i = s.core i := mget_mset_ne _ _ _ h
@[simp] theorem State.core_modCore_self (s : State) (k : Nat) (f : Core → Core) : (s.modCore k f).core k = f (s.core k) :=
  mget_mset_self ..
theorem State.core_modCore_ne (s : State) {k i : Nat} (f : Core → Core) (h : i ≠ k) : (s.modCore k f).core i = s.core i :=
  mget_mset_ne _ _ _ h
@[simp] theorem State.die_modDie_self (s : State) (d : Nat) (f : Die → Die) (h : d < 8) : (s.modDie d f).die d = f (s.die d) :=
  vget_vset_self _ _ _ _ h
theorem State.die_modDie_ne (s : State) {d e : Nat} (f : Die → Die) (h : e ≠ d) : (s.modDie d f).die e = s.die e :=
  vget_vset_ne _ _ _ h
@[simp] theorem State.func_modFunc_self (s : State) (f : Byte) (g : Func → Func) : (s.modFunc f g).func f = g (s.func f) :=
  mget_mset_self ..
theorem State.func_modFunc_ne (s : State) {f e : Byte} (g : Func → Func) (h : e ≠ f) : (s.modFunc f g).func e = s.func e :=
  mget_mset_ne _ _ _ (fun c => h (BitVec.eq_of_toNat_eq c))
@[simp] theorem State.part_modPart_self (s : State) (p : Nat) (g : Part → Part) : (s.modPart p g).part p = g (s.part p) :=
  mget_mset_self ..
theorem State.part_modPart_ne (s : State) {p i : Nat} (g : Part → Part) (h : i ≠ p) : (s.modPart p g).part i = s.part i :=
  mget_mset_ne _ _ _ h
@[simp] theorem State.queue_modQueue_self (s : State) (q : Nat) (g : HQueue → HQueue) : (s.modQueue q g).queue q = g (s.queue q) :=
  mget_mset_self ..
theorem State.queue_modQueue_ne (s : State) {q i : Nat} (g : HQueue → HQueue) (h : i ≠ q) : (s.modQueue q g).queue i = s.queue i :=
  mget_mset_ne _ _ _ h

@[simp] theorem State.die_setCore (s : State) (k : Nat) (c : Core) (d : Nat) : (s.setCore k c).die d = s.die d := rfl
@[simp] theorem State.func_setCore (s : State) (k : Nat) (c : Core) (f : Byte) : (s.setCore k c).func f = s.func f := rfl
@[simp] theorem State.part_setCore (s : State) (k : Nat) (c : Core) (p : Nat) : (s.setCore k c).part p = s.part p := rfl
@[simp] theorem State.queue_setCore (s : State) (k : Nat) (c : Core) (q : Nat) : (s.setCore k c).queue q = s.queue q := rfl
@[simp] theorem State.die_modCore (s : State) (k : Nat) (f : Core → Core) (d : Nat) : (s.modCore k f).die d = s.die d := rfl
@[simp] theorem State.func_modCore (s : State) (k : Nat) (f : Core → Core) (i : Byte) : (s.modCore k f).func i = s.func i := rfl
@[simp] theorem State.part_modCore (s : State) (k : Nat) (f : Core → Core) (p : Nat) : (s.modCore k f).part p = s.part p := rfl
@[simp] theorem State.queue_modCore (s : State) (k : Nat) (f : Core → Core) (q : Nat) : (s.modCore k f).queue q = s.queue q := rfl
@[simp] theorem State.die_modQ (s : State) (k : Nat) (q : Fin 4) (f : Block → Block) (d : Nat) : (s.modQ k q f).die d = s.die d := rfl
@[simp] theorem State.func_modQ (s : State) (k : Nat) (q : Fin 4) (f : Block → Block) (i : Byte) : (s.modQ k q f).func i = s.func i := rfl
@[simp] theorem State.part_modQ (s : State) (k : Nat) (q : Fin 4) (f : Block → Block) (p : Nat) : (s.modQ k q f).part p = s.part p := rfl
@[simp] theorem State.queue_modQ (s : State) (k : Nat) (q : Fin 4) (f : Block → Block) (i : Nat) : (s.modQ k q f).queue i = s.queue i := rfl
@[simp] theorem State.die_modBlk (s : State) (f : Block → Block) (d : Nat) : (s.modBlk f).die d = s.die d := rfl
@[simp] theorem State.func_modBlk (s : State) (f : Block → Block) (i : Byte) : (s.modBlk f).func i = s.func i := rfl
@[simp] theorem State.part_modBlk (s : State) (f : Block → Block) (p : Nat) : (s.modBlk f).part p = s.part p := rfl
@[simp] theorem State.queue_modBlk (s : State) (f : Block → Block) (q : Nat) : (s.modBlk f).queue q = s.queue q := rfl
@[simp] theorem State.core_modDie (s : State) (d : Nat) (f : Die → Die) (k : Nat) : (s.modDie d f).core k = s.core k := rfl
@[simp] theorem State.func_modDie (s : State) (d : Nat) (f : Die → Die) (i : Byte) : (s.modDie d f).func i = s.func i := rfl
@[simp] theorem State.part_modDie (s : State) (d : Nat) (f : Die → Die) (p : Nat) : (s.modDie d f).part p = s.part p := rfl
@[simp] theorem State.queue_modDie (s : State) (d : Nat) (f : Die → Die) (q : Nat) : (s.modDie d f).queue q = s.queue q := rfl
@[simp] theorem State.core_modFunc (s : State) (f : Byte) (g : Func → Func) (k : Nat) : (s.modFunc f g).core k = s.core k := rfl
@[simp] theorem State.die_modFunc (s : State) (f : Byte) (g : Func → Func) (d : Nat) : (s.modFunc f g).die d = s.die d := rfl
@[simp] theorem State.part_modFunc (s : State) (f : Byte) (g : Func → Func) (p : Nat) : (s.modFunc f g).part p = s.part p := rfl
@[simp] theorem State.queue_modFunc (s : State) (f : Byte) (g : Func → Func) (q : Nat) : (s.modFunc f g).queue q = s.queue q := rfl
@[simp] theorem State.core_modPart (s : State) (p : Nat) (g : Part → Part) (k : Nat) : (s.modPart p g).core k = s.core k := rfl
@[simp] theorem State.die_modPart (s : State) (p : Nat) (g : Part → Part) (d : Nat) : (s.modPart p g).die d = s.die d := rfl
@[simp] theorem State.func_modPart (s : State) (p : Nat) (g : Part → Part) (f : Byte) : (s.modPart p g).func f = s.func f := rfl
@[simp] theorem State.queue_modPart (s : State) (p : Nat) (g : Part → Part) (q : Nat) : (s.modPart p g).queue q = s.queue q := rfl
@[simp] theorem State.core_modQueue (s : State) (q : Nat) (g : HQueue → HQueue) (k : Nat) : (s.modQueue q g).core k = s.core k := rfl
@[simp] theorem State.die_modQueue (s : State) (q : Nat) (g : HQueue → HQueue) (d : Nat) : (s.modQueue q g).die d = s.die d := rfl
@[simp] theorem State.func_modQueue (s : State) (q : Nat) (g : HQueue → HQueue) (f : Byte) : (s.modQueue q g).func f = s.func f := rfl
@[simp] theorem State.part_modQueue (s : State) (q : Nat) (g : HQueue → HQueue) (p : Nat) : (s.modQueue q g).part p = s.part p := rfl
@[simp] theorem State.core_after (s : State) (l : List Act) (k : Nat) : (s.after l).core k = s.core k := rfl
@[simp] theorem State.die_after (s : State) (l : List Act) (d : Nat) : (s.after l).die d = s.die d := rfl
@[simp] theorem State.func_after (s : State) (l : List Act) (f : Byte) : (s.after l).func f = s.func f := rfl
@[simp] theorem State.part_after (s : State) (l : List Act) (p : Nat) : (s.after l).part p = s.part p := rfl
@[simp] theorem State.queue_after (s : State) (l : List Act) (q : Nat) : (s.after l).queue q = s.queue q := rfl
@[simp] theorem State.core_send (s : State) (o : Out) (k : Nat) : (s.send o).core k = s.core k := rfl
@[simp] theorem State.die_send (s : State) (o : Out) (d : Nat) : (s.send o).die d = s.die d := rfl
@[simp] theorem State.func_send (s : State) (o : Out) (f : Byte) : (s.send o).func f = s.func f := rfl
@[simp] theorem State.part_send (s : State) (o : Out) (p : Nat) : (s.send o).part p = s.part p := rfl
@[simp] theorem State.queue_send (s : State) (o : Out) (q : Nat) : (s.send o).queue q = s.queue q := rfl

end Sys2Proof.Machine
end

