-- ==== Sys2Proof/Laws/Step.lean ====
section
/-! SUPPORT. What the shared operations of the sequencer do, in the terms of Safety.lean: charging, changing the acting core or
block stream, writing a register or a predicate. Proofs about words cite these and do not unfold the operations. -/

namespace Sys2Proof.Safety

open Sys2Proof.Machine

/-- A state but for its cores and the functions' records. -/
def stateRest (s : State) : State := { s with cores := [], funcs := [] }

theorem rest_to {s t : State} (h : t = { s with cores := t.cores, funcs := t.funcs }) : stateRest t = stateRest s := by
  have := congrArg stateRest h; exact this

theorem rest_of {s t : State} (h : stateRest t = stateRest s) : t = { s with cores := t.cores, funcs := t.funcs } := by
  have : t = { stateRest t with cores := t.cores, funcs := t.funcs } := rfl
  rw [h] at this; exact this

/-! ### Accounts -/

theorem coreRest_meters (c : Core) (a b : Nat) : coreRest { c with meterFunc := a, meterJob := b } = coreRest c := rfl

theorem account_core (s : State) (f : Byte) (x k : Nat) : (s.account f x).core k = s.core k := by
  unfold State.account; split <;> simp

theorem account_rest (s : State) (f : Byte) (x : Nat) : s.account f x = { s with funcs := (s.account f x).funcs } := by
  unfold State.account; split <;> rfl

theorem account_func (s : State) (f g : Byte) (x : Nat) : funcRest ((s.account f x).func g) = funcRest (s.func g) := by
  unfold State.account
  split
  · rfl
  · by_cases h : g.toNat = f.toNat
    · have : g = f := BitVec.eq_of_toNat_eq h
      subst this
      simp [State.func, State.modFunc, funcRest]
    · simp [State.func, State.modFunc, mget_mset_ne _ _ _ h]

/-- Charging changes nothing but energy accounts. -/
theorem charge_step (s : State) (k e c f n : Nat) : CoreStep s (s.charge k e c f n) k (s.core k) := by
  unfold State.charge State.meter
  dsimp only
  split
  · exact ⟨rfl, rfl, fun _ _ => rfl, fun _ => rfl, fun _ => rfl⟩
  · split
    · exact ⟨rfl, rfl, fun _ _ => rfl, fun _ => rfl, fun _ => rfl⟩
    · refine ⟨?_, ?_, ?_, ?_, ?_⟩
      · rw [account_rest]; rfl
      · rw [account_core]; simp [coreRest]
      · intro j hj; rw [account_core]; exact State.core_setCore_ne _ _ hj
      · intro g; rw [account_func]; rfl
      · intro a; rw [account_rest]; rfl

theorem CoreStep.refl (s : State) (k : Nat) : CoreStep s s k (s.core k) := ⟨rfl, rfl, fun _ _ => rfl, fun _ => rfl, fun _ => rfl⟩

/-- A charge at the core that acts is part of its step. -/
theorem CoreStep.charge {s t : State} {k : Nat} {c : Core} (h : CoreStep s t k c) (e l f n : Nat) :
    CoreStep s (t.charge k e l f n) k c := by
  have g := charge_step t k e l f n
  refine ⟨?_, g.core.trans h.core, fun j hj => (g.cores j hj).trans (h.cores j hj), fun i => (g.funcs i).trans (h.funcs i),
    fun a => (g.mem a).trans (h.mem a)⟩
  exact rest_of ((rest_to g.rest).trans (rest_to h.rest))

/-- A change of the core that acts is part of its step, when it does not look at the energy account. -/
theorem CoreStep.modCore {s t : State} {k : Nat} {c : Core} (h : CoreStep s t k c) (f : Core → Core)
    (hf : ∀ x y, coreRest x = coreRest y → coreRest (f x) = coreRest (f y)) : CoreStep s (t.modCore k f) k (f c) := by
  refine ⟨?_, ?_, ?_, ?_, ?_⟩
  · have e : stateRest t = stateRest s := rest_to h.rest
    exact rest_of e
  · simp only [State.modCore, State.core_setCore_self]; exact hf _ _ h.core
  · intro j hj; simp only [State.modCore]; rw [State.core_setCore_ne _ _ hj]; exact h.cores j hj
  · intro i; exact h.funcs i
  · intro a; exact h.mem a

theorem coreRest_q {x y : Core} (h : coreRest x = coreRest y) : x.q = y.q := by
  have := congrArg Core.q h; exact this

theorem CoreStep.cur {s t : State} {k : Nat} {c : Core} (h : CoreStep s t k c) : t.cur = s.cur := by rw [h.rest]
theorem CoreStep.core_q {s t : State} {k : Nat} {c : Core} (h : CoreStep s t k c) : (t.core k).q = c.q := coreRest_q h.core

/-- A change of the acting block stream that follows a step of its core. -/
theorem CoreStep.modBlk {s t : State} {c : Core} (h : CoreStep s t s.cur.k.val c) (f : Block → Block) :
    CoreStep s (t.modBlk f) s.cur.k.val { c with q := c.q.set s.cur.q.val (f c.q[s.cur.q.val]) } := by
  have hc := h.cur
  unfold State.modBlk State.modQ
  rw [hc]
  refine h.modCore (fun c => { c with q := c.q.set s.cur.q.val (f c.q[s.cur.q.val]) }) ?_
  intro x y hxy
  have hq := coreRest_q hxy
  have := congrArg (fun z : Core => { z with q := z.q.set s.cur.q.val (f z.q[s.cur.q.val]) }) hxy
  simpa [coreRest] using this

/-- What the issue charge leaves of the state: everything that words read. -/
@[simp] theorem charge_cur (s : State) (k e c f n : Nat) : (s.charge k e c f n).cur = s.cur := (charge_step s k e c f n).cur

theorem charge_core_q (s : State) (k e c f n j : Nat) : ((s.charge k e c f n).core j).q = (s.core j).q := by
  by_cases h : j = k
  · subst h; exact (charge_step s j e c f n).core_q
  · rw [(charge_step s k e c f n).cores j h]

@[simp] theorem charge_blk (s : State) (k e c f n : Nat) : (s.charge k e c f n).blk = s.blk := by
  simp [State.blk, State.me, charge_core_q]
@[simp] theorem charge_g (s : State) (k e c f n : Nat) (r : BitVec 5) : (s.charge k e c f n).g r = s.g r := by simp [State.g]
@[simp] theorem charge_p (s : State) (k e c f n : Nat) (r : BitVec 3) : (s.charge k e c f n).p r = s.p r := by simp [State.p]

/-- The issue charge and a change of the acting block stream. -/
theorem charge_modBlk (s : State) (e c f n : Nat) (g : Block → Block) :
    BlockStep s ((s.charge s.cur.k.val e c f n).modBlk g) (g s.blk) := (charge_step s s.cur.k.val e c f n).modBlk g

/-! ### Registers and predicates -/

theorem setReg_reg (b : Block) (d n : BitVec 5) (v : Dword) :
    (b.setReg d v).reg n = if n = d ∧ d ≠ 0#5 then v else b.reg n := by
  unfold Block.setReg Block.reg
  by_cases hd : d = 0#5
  · simp [hd]
  · by_cases hn : n = d
    · simp [hn, hd]
    · have hv : d.toNat ≠ n.toNat := fun e => hn (BitVec.eq_of_toNat_eq e.symm)
      simp [hd, hn, hv]

theorem setReg_step_put (b : Block) (d : BitVec 5) (v : Dword) : RegPut b (b.setReg d v).step d v := by
  refine ⟨fun n => setReg_reg b d n v, fun n => ?_, ?_⟩ <;>
  · unfold Block.step Block.setReg; split <;> rfl

theorem setPred_pred (b : Block) (d n : BitVec 3) (v : Bool) :
    (b.setPred d v).pred n = if n = d ∧ d ≠ 0#3 then v else b.pred n := by
  obtain ⟨p, g, q⟩ : ∃ p : BitVec 8, b.p = p ∧ True := ⟨b.p, rfl, trivial⟩
  unfold Block.setPred Block.pred
  by_cases hd : d = 0#3
  · simp [hd]
  · by_cases hn0 : n = 0#3
    · simp [hn0, hd, Ne.symm hd]
    · simp only [hd, hn0, if_false, g, ne_eq, not_false_eq_true, and_true]
      have : ∀ (p : BitVec 8) (d n : BitVec 3) (v : Bool),
          ((p &&& ~~~(1#8 <<< d.toNat)) ||| (if v then 1#8 <<< d.toNat else 0#8)).getLsbD n.toNat
            = if n = d then v else p.getLsbD n.toNat := by
        intro p d n v
        have e : (n = d) ↔ n.toNat = d.toNat := ⟨fun h => by rw [h], fun h => BitVec.eq_of_toNat_eq h⟩
        have hn := n.isLt
        have hdl := d.isLt
        by_cases h : n.toNat = d.toNat
        · (cases v <;> simp [e, h]); omega
        · have : (1#8 <<< d.toNat).getLsbD n.toNat = false := by
            simp only [BitVec.getLsbD_shiftLeft, BitVec.getLsbD_one]
            by_cases hl : n.toNat < d.toNat
            · simp [hl]
            · have : n.toNat - d.toNat ≠ 0 := by omega
              simp [this]
          cases v <;> simp [e, h, this]
          all_goals omega
      exact this p d n v

theorem setPred_step_put (b : Block) (d : BitVec 3) (v : Bool) : PredPut b (b.setPred d v).step d v := by
  refine ⟨fun n => setPred_pred b d n v, fun n => ?_, ?_⟩ <;>
    · unfold Block.step Block.setPred; split <;> rfl

/-- A word that writes rd (R108): rd and the pc, nothing else. -/
theorem putG_puts (s : State) (c : Nat) (d : BitVec 5) (v : Dword) : PutsReg s (s.putG c d v) d v :=
  ⟨_, charge_modBlk s 0 c 0xF 1 _, setReg_step_put s.blk d v⟩

/-- A word that writes a predicate (R108): the predicate and the pc, nothing else. -/
theorem putP_puts (s : State) (d : BitVec 3) (v : Bool) : PutsPred s (s.putP d v) d v :=
  ⟨_, charge_modBlk s 0 0 0xF 1 _, setPred_step_put s.blk d v⟩

/-- An arm that answers putG gives its register. -/
theorem gives_putG {i : Instr} {s : State} {c : Nat} {d : BitVec 5} {v w : Dword} (h : exec i s = .next (s.putG c d w)) (e : w = v) :
    GivesReg i s d v := ⟨_, h, e ▸ putG_puts s c d w⟩

/-- An arm that answers putP gives its predicate. -/
theorem gives_putP {i : Instr} {s : State} {d : BitVec 3} {v w : Bool} (h : exec i s = .next (s.putP d w)) (e : w = v) :
    GivesPred i s d v := ⟨_, h, e ▸ putP_puts s d w⟩

end Sys2Proof.Safety
end

