-- ==== Sys2Proof/Laws/SeqMem.lean ====
section
/-! SUPPORT. Sequencer accesses to the own scratchpad: where an address word leads, what a load reads and writes (R39, R123 to R125). -/

namespace Sys2Proof.Safety

open Sys2Proof.Machine

/-- An address word of the own scratchpad names its location and touches nothing (R39, R124). -/
theorem ownLoc (s : State) (ad : Dword) (n o : Nat) (acc) (ha : ad.toNat = 0x1000000000000000 + o) (ho : o + n ≤ 0x200000) (hm : o % n = 0) (hn : 0 < n) :
   s.seqLocate ad n acc = (.ok (scratchLoc s.cur.k.val + o), s) := by
  have h1 : (ad.extractLsb' 60 4) = 1#4 := by apply BitVec.eq_of_toNat_eq; simp [BitVec.extractLsb'_toNat, ha, Nat.shiftRight_eq_div_pow]; omega
  have h2 : (ad.extractLsb' 48 12) = 0#12 := by apply BitVec.eq_of_toNat_eq; simp [BitVec.extractLsb'_toNat, ha, Nat.shiftRight_eq_div_pow]; omega
  have h3 : (ad.extractLsb' 0 48).toNat = o := by simp [BitVec.extractLsb'_toNat, ha]; omega
  have h4 : o % 0x200000 = o := Nat.mod_eq_of_lt (by omega)
  have hp : placeOf ad n = .ok (.own o) := by
    unfold placeOf
    simp only [h1, h2, h3, h4]
    simp; omega
  unfold State.seqLocate
  simp [hp, hm]

@[simp] theorem charge_writes (s : State) (k e c f n) : (s.charge k e c f n).writes = s.writes := by rw [(charge_step s k e c f n).rest]
@[simp] theorem charge_mem (s : State) (k e c f n) : (s.charge k e c f n).mem = s.mem := by rw [(charge_step s k e c f n).rest]
@[simp] theorem charge_own (s : State) (k e c f n w a) : (s.charge k e c f n).ownByte w a = s.ownByte w a := by
  unfold State.ownByte; rw [charge_writes, charge_mem]
/-- The bytes of a read, as a list over offsets. -/
theorem seqBytes_eq (s : State) (l n) : s.seqBytes l n = (List.range n).map fun j => s.ownByte ⟨s.cur.k.val, s.cur.q.val⟩ (l + j) := by
  induction n generalizing l with
  | zero => rfl
  | succ n ih => 
    simp only [State.seqBytes, ih, List.range_succ_eq_map, List.map_cons, List.map_map, State.seqWriter, Nat.add_zero]
    congr 1; apply List.map_congr_left; intro j _; simp; congr 1; omega
/-- The address of an M form that lies in the own scratchpad. -/
theorem mAddr_of (s : State) (a i) (o : Nat) (h : (s.g a).toInt + i.toInt = 0x1000000000000000 + o) (ho : o < 0x200000): (s.mAddr a i).toNat = 0x1000000000000000 + o := by
  have : s.mAddr a i = BitVec.ofInt 64 (0x1000000000000000 + o) := by
    rw [← h]; unfold State.mAddr sext; apply BitVec.eq_of_toInt_eq; 
    rw [BitVec.toInt_add, BitVec.toInt_ofInt, BitVec.toInt_signExtend_of_le (by omega)]
  rw [this]; simp; omega
/-- A scratchpad location is not in HBM4E. -/
theorem notHbm (k o : Nat) : isHbm (scratchLoc k + o) = false := by
  have : ¬ (scratchLoc k + o < hbmSize) := by unfold scratchLoc hbmSize; omega
  simpa [isHbm] using this
/-- The home of a scratchpad location is its core's die (R38). -/
theorem homeOwn (k o : Nat) (hk : k < 1536) (ho : o < 0x200000) : homeDie (scratchLoc k + o) = k / 192 := by
  have h2 : isCxl (scratchLoc k + o) = false := by
    have : ¬ (scratchLoc k + o < scratchLoc 0) := by unfold scratchLoc; omega
    simp [isCxl, this]
  have h3 : isScratch (scratchLoc k + o) = true := by
    have : (scratchLoc 0 ≤ scratchLoc k + o) ∧ (scratchLoc k + o < scratchLoc 1536) := by unfold scratchLoc; omega
    simp [isScratch, this.1, this.2]
  unfold homeDie
  rw [notHbm, h2, h3, if_neg (by decide), if_neg (by decide), if_pos rfl]
  unfold coreDie scratchCore
  congr 1
  have : scratchLoc k + o - scratchLoc 0 = k * 0x200000 + o := by unfold scratchLoc; omega
  rw [this]; omega

/-- A read whose place is found outside HBM4E; the die observes the home (R66). -/
theorem seqRead_of {s t : State} {a : Dword} {n l : Nat} (h : s.seqLocate a n .read = (.ok l, t)) (hh : isHbm l = false) :
    s.seqRead a n = (.ok (natOfBytes (t.seqBytes l n)), t.observe (coreDie t.cur.k.val) (homeDie l)) := by
  unfold State.seqRead
  rw [h]
  simp [hh]

/-- Observing a home goes with a step of a core (R66). -/
theorem CoreStep.observe {s t : State} {k : Nat} {c : Core} (h : CoreStep s t k c) (d e : Nat) :
    CoreStep (s.observe d e) (t.observe d e) k c := by
  have hd : t.dies = s.dies := by rw [h.rest]
  have hs : t.observe d e = { t with dies := (s.observe d e).dies } := by
    simp only [State.observe, State.modDie, State.die, hd]
  rw [hs]
  refine ⟨?_, h.core, h.cores, h.funcs, h.mem⟩
  rw [h.rest]; rfl

/-- A load whose read succeeds. -/
theorem load_of {s t : State} {d a : BitVec 5} {i : BitVec 16} {n v : Nat} {ext : Nat → Dword}
    (h : (s.charge s.cur.k.val 0 0 0xF 1).seqRead (s.mAddr a i) n = (.ok v, t)) :
    s.load d a i n ext = (t.charge s.cur.k.val 0 2 0xF n).modBlk fun b => (b.setReg d (ext v)).step := by
  unfold State.load
  dsimp only
  rw [h]

/-- A write whose place is found. -/
theorem seqWrite_of {s t : State} {a v : Dword} {n l : Nat} (h : s.seqLocate a n .write = (.ok l, t)) :
    s.seqWrite a n v = (.ok (), t.emit t.seqWriter none l (wholeBytes (bytesOfNat n v.toNat))) := by
  unfold State.seqWrite
  rw [h]

/-- A store whose write succeeds. -/
theorem store_of {s t : State} {r a : BitVec 5} {i : BitVec 16} {n : Nat}
    (h : (s.charge s.cur.k.val 0 0 0xF 1).seqWrite (s.mAddr a i) n (s.g r) = (.ok (), t)) :
    s.store r a i n = (t.charge s.cur.k.val 0 2 0xF n).modBlk Block.step := by
  unfold State.store
  dsimp only
  rw [h]

/-- A load from the own scratchpad writes its register; the die observes itself (R66); nothing else happens (R123, R125). -/
theorem load_own (s : State) (d a : BitVec 5) (i : BitVec 16) (n o : Nat) (ext : Nat → Dword)
    (h : (s.g a).toInt + i.toInt = 0x1000000000000000 + o) (ho : o + n ≤ 0x200000) (hm : o % n = 0) (hn : 0 < n) :
    PutsReg (s.observe (s.cur.k.val / 192) (s.cur.k.val / 192)) (s.load d a i n ext) d (ext (natOfBytes ((List.range n).map fun j =>
      s.ownByte ⟨s.cur.k.val, s.cur.q.val⟩ (scratchLoc s.cur.k.val + o + j)))) := by
  have ha := mAddr_of s a i o h (by omega)
  have hl := ownLoc (s.charge s.cur.k.val 0 0 0xF 1) _ n o .read ha ho hm hn
  have hr := seqRead_of hl (notHbm _ _)
  simp only [charge_cur, homeOwn s.cur.k.val o s.cur.k.isLt (by omega)] at hr
  rw [load_of hr, seqBytes_eq]
  simp only [charge_own, charge_cur]
  have hc := ((charge_step s s.cur.k.val 0 0 0xF 1).observe (s.cur.k.val / 192) (s.cur.k.val / 192)).charge 0 2 0xF n
  exact ⟨_, CoreStep.modBlk (s := s.observe (s.cur.k.val / 192) (s.cur.k.val / 192)) hc _, setReg_step_put _ _ _⟩

/-- Sign-extension on integers. -/
theorem loadS_eq (n v : Nat) : loadS n v = BitVec.ofInt 64 (BitVec.ofNat n v).toInt := by
  unfold loadS; rfl

/-- The bytes of a store, by offset. -/
theorem wholeBytes_eq (n v : Nat) : wholeBytes (bytesOfNat n v) = (List.range n).map fun j => (BitVec.ofNat 8 (v / 256 ^ j), 0xFF#8) := by
  induction n generalizing v with
  | zero => rfl
  | succ n ih =>
    simp only [bytesOfNat, wholeBytes, List.map_cons, List.range_succ_eq_map, List.map_map]
    have := ih (v / 256); unfold wholeBytes at this; rw [this]
    simp
    intro j _; rw [Nat.div_div_eq_div_mul, pow_succ, Nat.mul_comm]

/-- The write that a sequencer store of the low n bytes of v to the own scratchpad sends. -/
def ownWrite (s : State) (l n v : Nat) : Write :=
  { id := s.next, by_ := ⟨s.cur.k.val, s.cur.q.val⟩, cmd := none, src := s.cur.k.val / 192, home := s.cur.k.val / 192, loc := l,
    data := (List.range n).map fun j => (BitVec.ofNat 8 (v / 256 ^ j), 0xFF#8), stamp := (s.die (s.cur.k.val / 192)).vclk, held := false }

/-- A store to the own scratchpad puts one write on its way. -/
theorem emit_own (s : State) (o n v : Nat) (ho : o < 0x200000) :
    s.emit s.seqWriter none (scratchLoc s.cur.k.val + o) (wholeBytes (bytesOfNat n v))
      = { s with next := s.next + 1, writes := s.writes ++ [ownWrite s (scratchLoc s.cur.k.val + o) n v] } := by
  have hd := homeOwn s.cur.k.val o s.cur.k.isLt ho
  unfold State.emit
  rw [hd, wholeBytes_eq]
  exact if_pos rfl

/-- A step that also changes the writes on their way. -/
theorem CoreStep.emits {s t : State} {k : Nat} {c : Core} (h : CoreStep s t k c) (ws : List Write) (n : Nat) :
    CoreStep { s with writes := ws, next := n } { t with writes := ws, next := n } k c := by
  refine ⟨?_, h.core, h.cores, h.funcs, h.mem⟩
  rw [h.rest]
@[simp] theorem charge_next (s : State) (k e c f n) : (s.charge k e c f n).next = s.next := by rw [(charge_step s k e c f n).rest]
@[simp] theorem charge_die (s : State) (k e c f n d) : (s.charge k e c f n).die d = s.die d := by rw [(charge_step s k e c f n).rest]; rfl
theorem charge_own_write (s : State) (k e c f n l m v) : ownWrite (s.charge k e c f n) l m v = ownWrite s l m v := by simp [ownWrite]

/-- A store to the own scratchpad sends its write and goes to the next word (R123, R62). -/
theorem store_own (s : State) (r a : BitVec 5) (i : BitVec 16) (n o : Nat)
    (h : (s.g a).toInt + i.toInt = 0x1000000000000000 + o) (ho : o + n ≤ 0x200000) (hm : o % n = 0) (hn : 0 < n) :
    NextWord { s with next := s.next + 1, writes := s.writes ++ [ownWrite s (scratchLoc s.cur.k.val + o) n (s.g r).toNat] } (s.store r a i n) := by
  have ha := mAddr_of s a i o h (by omega)
  have hl := ownLoc (s.charge s.cur.k.val 0 0 0xF 1) _ n o .write ha ho hm hn
  have he := emit_own (s.charge s.cur.k.val 0 0 0xF 1) o n (s.g r).toNat (by omega)
  have hc := charge_step s s.cur.k.val 0 0 0xF 1
  have hw := charge_own_write s s.cur.k.val 0 0 0xF 1 (scratchLoc s.cur.k.val + o) n (s.g r).toNat
  have e1 := charge_next s s.cur.k.val 0 0 0xF 1
  have e2 := charge_writes s s.cur.k.val 0 0 0xF 1
  rw [charge_cur] at hl he
  rw [store_of (seqWrite_of hl), he, e1, e2, hw]
  generalize ownWrite s (scratchLoc s.cur.k.val + o) n (s.g r).toNat = w
  generalize s.charge s.cur.k.val 0 0 0xF 1 = u at hc ⊢
  have hd := (hc.emits (s.writes ++ [w]) (s.next + 1)).charge 0 2 0xF n
  have hb := CoreStep.modBlk (s := { s with writes := s.writes ++ [w], next := s.next + 1 }) hd Block.step
  rw [hc.cur] at hb
  exact hb

end Sys2Proof.Safety
end

