-- ==== Sys2Proof/Tests/Slice0.lean ====
section
/-! SUPPORT. Tests of the model on fixed values that the spec gives, an ill-formed term for each check of WellFormed, and for every
statement of Certificates/Slice0/Obligations.lean that has hypotheses a concrete state and operands that meet them, clause by
clause. -/

namespace Sys2Proof.Tests

set_option Elab.async false

open Sys2Proof.Machine Sys2Proof.Safety

/-! ### Decoding: for every row of spec/opcode_table.json one word, written out from the row's fixed bits and fields -/

/-- Each word of the list decodes in map m to the instruction beside it, and that instruction is well-formed and encodes to it. -/
def decodesTo (m : OpMap) (l : List (Word × Instr)) : Bool :=
  l.all fun e => decide (decodeWord m e.1 = .ok e.2) && e.2.wf && decide (encode e.2 = some (m, e.1))

theorem test_decode_seq_1 : decodesTo .seq [
    (0x00642800, .add 3 4 5),
    (0x00642801, .sub 3 4 5),
    (0x00642802, .mul 3 4 5),
    (0x00642803, .mulh 3 4 5),
    (0x00642804, .mulhu 3 4 5),
    (0x00642808, .and 3 4 5),
    (0x00642809, .or 3 4 5),
    (0x0064280A, .xor 3 4 5),
    (0x0064280B, .andn 3 4 5),
    (0x00642810, .sll 3 4 5),
    (0x00642811, .srl 3 4 5),
    (0x00642812, .sra 3 4 5),
    (0x00642813, .ror 3 4 5),
    (0x00642818, .min 3 4 5),
    (0x00642819, .max 3 4 5),
    (0x0064281A, .minu 3 4 5),
    (0x0064281B, .maxu 3 4 5),
    (0x00642821, .lea1 3 4 5),
    (0x00642822, .lea2 3 4 5),
    (0x00642823, .lea3 3 4 5),
    (0x04648001, .addi 3 4 0x8001),
    (0x08648001, .andi 3 4 0x8001),
    (0x0C648001, .ori 3 4 0x8001),
    (0x10648001, .xori 3 4 0x8001)] = true := by decide

theorem test_decode_seq_2 : decodesTo .seq [
    (0x14640021, .slli 3 4 33),
    (0x14640121, .srli 3 4 33),
    (0x14640221, .srai 3 4 33),
    (0x14640321, .rori 3 4 33),
    (0x18608001, .movi 3 0x8001),
    (0x1C628001, .movk 3 2 0x8001),
    (0x20640000, .popc 3 4),
    (0x20640001, .clz 3 4),
    (0x20640002, .ctz 3 4),
    (0x20640003, .brev 3 4),
    (0x20640004, .bswap 3 4),
    (0x24641021, .bfx 3 4 64 33),
    (0x24645021, .bfxs 3 4 64 33),
    (0x24649021, .bfi 3 4 64 33),
    (0x28642804, .cmp 3 4 5 .ltu),
    (0x2C646801, .cmpi 3 4 .tst 0x801),
    (0x30642806, .sel 3 4 5 6),
    (0x30642900, .pand 3 4 5),
    (0x30642A00, .por 3 4 5),
    (0x30642B00, .pxor 3 4 5),
    (0x30642C00, .pandn 3 4 5),
    (0x30600500, .prd 3),
    (0x30040600, .pwr 4),
    (0x40648001, .ldBz 3 4 0x8001)] = true := by decide

theorem test_decode_seq_3 : decodesTo .seq [
    (0x44648001, .ldBs 3 4 0x8001),
    (0x48648001, .ldHz 3 4 0x8001),
    (0x4C648001, .ldHs 3 4 0x8001),
    (0x50648001, .ldWz 3 4 0x8001),
    (0x54648001, .ldWs 3 4 0x8001),
    (0x58648001, .ldDz 3 4 0x8001),
    (0x60648001, .stB 3 4 0x8001),
    (0x64648001, .stH 3 4 0x8001),
    (0x68648001, .stW 3 4 0x8001),
    (0x6C648001, .stD 3 4 0x8001),
    (0x706A2800, .spillm 3 10 5),
    (0x746A2800, .fillm 3 10 5),
    (0x81E00001, .br 3 true 0x200001),
    (0x85E00001, .call 3 true 0x200001),
    (0x88040000, .jmp 4),
    (0x88640001, .jmpl 3 4),
    (0x88040002, .ret 4),
    (0x90642802, .jstart 3 4 5 2),
    (0x90400181, .rdv 2 0x81),
    (0x90000200, .exit),
    (0x90000300, .yield),
    (0x94640001, .twany 3 4 true),
    (0x94640101, .twall 3 4 true),
    (0x94640200, .tffr 3 4)] = true := by decide

theorem test_decode_seq_4 : decodesTo .seq [
    (0x98000003, .fence .package),
    (0x9C042800, .xcp 4 5),
    (0xA0600002, .mrd 3 .quota),
    (0xA4600041, .srd 3 0x041),
    (0xA8040040, .swr 4 0x040),
    (0xA8040005, .seedWrite 4),
    (0xA8040006, .tagsClear 4),
    (0xA8040012, .flagsClear 4 2),
    (0xA8040035, .bfmtWrite 4 21),
    (0xAC008001, .trap 0x8001),
    (0xB0000000, .eret),
    (0xE0642800, .qcat 3 4 5),
    (0xE0642900, .qstr 3 4 5),
    (0xE0642A01, .qstw 3 4 5 true),
    (0xE0602B00, .qpin 3 5),
    (0xE0602C00, .qunpin 3 5),
    (0xE0602D00, .qevict 3 5),
    (0xE4642800, .qsub 3 4 5),
    (0xE4640100, .qrun 3 4),
    (0xE4640200, .qwait 3 4),
    (0xE4642B00, .qexpl 3 4 5),
    (0xE4642C00, .qhint 3 4 5),
    (0xE4640501, .qinv 3 4 true),
    (0xE4640600, .qdrop 3 4)] = true := by decide

theorem test_decode_seq_5 : decodesTo .seq [
    (0xE8640000, .qtld 3 4),
    (0xE8602900, .qtdrop 3 5)] = true := by decide

theorem test_decode_xfer_1 : decodesTo .xfer [
    (0x00000006, .xtok ⟨1, 2⟩),
    (0x04485516, .xcpy ⟨1, 2, 5, false, true, .die, ⟨1, 2⟩⟩ .rtz),
    (0x08485516, .xgat ⟨1, 2, 5, false, true, .die, ⟨1, 2⟩⟩ .rtz),
    (0x0C485516, .xsct ⟨1, 2, 5, false, true, .die, ⟨1, 2⟩⟩ .rtz),
    (0x10485516, .xfil ⟨1, 2, 5, false, true, .die, ⟨1, 2⟩⟩ .rtz),
    (0x14485516, .xmcs ⟨1, 2, 5, false, true, .die, ⟨1, 2⟩⟩ .rtz),
    (0x18485506, .xpf ⟨1, 2, 5, false, true, .die, ⟨1, 2⟩⟩),
    (0x1C485506, .xwb ⟨1, 2, 5, false, true, .die, ⟨1, 2⟩⟩),
    (0x20485606, .xput ⟨1, 2, 5, false, true, .fabric, ⟨1, 2⟩⟩),
    (0x24485606, .xget ⟨1, 2, 5, false, true, .fabric, ⟨1, 2⟩⟩),
    (0x28485516, .selk ⟨1, 2, 5, false, true, .die, ⟨1, 2⟩⟩ true),
    (0x2C485506, .xcfg ⟨1, 2, 5, false, true, .die, ⟨1, 2⟩⟩),
    (0x40485546, .acwAdd32 ⟨1, 2, 5, false, true, .die, ⟨1, 2⟩⟩ true false),
    (0x44485546, .acwAdd64 ⟨1, 2, 5, false, true, .die, ⟨1, 2⟩⟩ true false),
    (0x48485546, .acwAddf ⟨1, 2, 5, false, true, .die, ⟨1, 2⟩⟩ true false),
    (0x4C485546, .acwMax32 ⟨1, 2, 5, false, true, .die, ⟨1, 2⟩⟩ true false),
    (0x50485546, .acwMax64 ⟨1, 2, 5, false, true, .die, ⟨1, 2⟩⟩ true false),
    (0x54485546, .acwMaxf ⟨1, 2, 5, false, true, .die, ⟨1, 2⟩⟩ true false),
    (0x58485546, .acwMin32 ⟨1, 2, 5, false, true, .die, ⟨1, 2⟩⟩ true false),
    (0x5C485546, .acwMin64 ⟨1, 2, 5, false, true, .die, ⟨1, 2⟩⟩ true false),
    (0x60485546, .acwMinf ⟨1, 2, 5, false, true, .die, ⟨1, 2⟩⟩ true false),
    (0x64485546, .acwAnd32 ⟨1, 2, 5, false, true, .die, ⟨1, 2⟩⟩ true false),
    (0x68485546, .acwAnd64 ⟨1, 2, 5, false, true, .die, ⟨1, 2⟩⟩ true false),
    (0x6C485546, .acwOr32 ⟨1, 2, 5, false, true, .die, ⟨1, 2⟩⟩ true false)] = true := by decide

theorem test_decode_xfer_2 : decodesTo .xfer [
    (0x70485546, .acwOr64 ⟨1, 2, 5, false, true, .die, ⟨1, 2⟩⟩ true false),
    (0x74485546, .acwXchg32 ⟨1, 2, 5, false, true, .die, ⟨1, 2⟩⟩ true false),
    (0x78485546, .acwXchg64 ⟨1, 2, 5, false, true, .die, ⟨1, 2⟩⟩ true false),
    (0x80485506, .cmb ⟨1, 2, 5, false, true, .die, ⟨1, 2⟩⟩),
    (0x84085506, .xrcl ⟨0, 2, 5, false, true, .die, ⟨1, 2⟩⟩),
    (0xA0005006, .xtw 5 ⟨1, 2⟩),
    (0xA6400016, .xrdv 1 0x90 ⟨1, 2⟩),
    (0xA8000006, .xnfy ⟨1, 2⟩)] = true := by decide

theorem test_decode_matrix_1 : decodesTo .matrix [
    (0x00000006, .mtok ⟨1, 2⟩),
    (0x06000806, .mcfg 0x4001 ⟨1, 2⟩),
    (0x08000006, .mgo ⟨1, 2⟩),
    (0x0C000006, .mwait ⟨1, 2⟩),
    (0x10161006, .mrdv 1 0x61 ⟨1, 2⟩),
    (0x14000006, .mnfy ⟨1, 2⟩),
    (0x20A32806, .mma 1 2 3 .p2 true ⟨1, 2⟩),
    (0x24A32806, .mmaz 1 2 3 .p2 true ⟨1, 2⟩),
    (0x32838106, .mld 5 3 .int32 true ⟨1, 2⟩),
    (0x3683A206, .mst 5 3 .rs24 .rtz ⟨1, 2⟩),
    (0x3803F006, .mzero 3 true ⟨1, 2⟩),
    (0x42E31306, .mrq 5 6 3 1 .rtz true ⟨1, 2⟩),
    (0xC353F006, .oaInit 1 5 .seg 63 ⟨1, 2⟩),
    (0xC7500006, .oaHouse 1 5 2 ⟨1, 2⟩),
    (0xCB500006, .oaApp 1 5 2 ⟨1, 2⟩),
    (0xCF67E006, .oaLeft 1 5 true 63 ⟨1, 2⟩),
    (0xD367E006, .oaRight 1 5 true 63 ⟨1, 2⟩),
    (0xD6000006, .oaFold 1 ⟨1, 2⟩),
    (0xDB400006, .oaSpill 1 5 ⟨1, 2⟩),
    (0xDF400006, .oaFill 1 5 ⟨1, 2⟩),
    (0xE3400006, .oaCnt 1 5 ⟨1, 2⟩)] = true := by decide

theorem test_decode_vector_1 : decodesTo .vector [
    (0x00000006, .vtok ⟨1, 2⟩),
    (0x00930806, .vshpDim 9 33 ⟨1, 2⟩),
    (0x00B30A06, .vshpCur 9 33 false true ⟨1, 2⟩),
    (0x00D05006, .vshpFmt 8 1 1 ⟨1, 2⟩),
    (0x014B0026, .vbind 4 5 0x1002 ⟨1, 2⟩),
    (0x01AA9816, .vsamp ⟨.row 5, .row 3, true, ⟨1, 2⟩⟩),
    (0x022C2006, .vrdv 1 0x61 ⟨1, 2⟩),
    (0x02800006, .vnfy ⟨1, 2⟩),
    (0x08123E36, .vadd ⟨.whole 9, .whole 7, .inp 1, true, ⟨1, 2⟩⟩),
    (0x08923E36, .vsub ⟨.whole 9, .whole 7, .inp 1, true, ⟨1, 2⟩⟩),
    (0x09123E36, .vmul ⟨.whole 9, .whole 7, .inp 1, true, ⟨1, 2⟩⟩),
    (0x09923E36, .vfma ⟨.whole 9, .whole 7, .inp 1, true, ⟨1, 2⟩⟩),
    (0x0A123E36, .vmin ⟨.whole 9, .whole 7, .inp 1, true, ⟨1, 2⟩⟩),
    (0x0A923E36, .vmax ⟨.whole 9, .whole 7, .inp 1, true, ⟨1, 2⟩⟩),
    (0x0B123816, .vabs ⟨.whole 9, .whole 7, true, ⟨1, 2⟩⟩),
    (0x0B923816, .vneg ⟨.whole 9, .whole 7, true, ⟨1, 2⟩⟩),
    (0x0C123816, .vmov ⟨.whole 9, .whole 7, true, ⟨1, 2⟩⟩),
    (0x0C923E36, .vdiv ⟨.whole 9, .whole 7, .inp 1, true, ⟨1, 2⟩⟩),
    (0x0D123816, .vsqrt ⟨.whole 9, .whole 7, true, ⟨1, 2⟩⟩),
    (0x10123E36, .vand ⟨.whole 9, .whole 7, .inp 1, true, ⟨1, 2⟩⟩),
    (0x10923E36, .vor ⟨.whole 9, .whole 7, .inp 1, true, ⟨1, 2⟩⟩),
    (0x11123E36, .vxor ⟨.whole 9, .whole 7, .inp 1, true, ⟨1, 2⟩⟩),
    (0x11923E36, .vshl ⟨.whole 9, .whole 7, .inp 1, true, ⟨1, 2⟩⟩),
    (0x12123E36, .vshr ⟨.whole 9, .whole 7, .inp 1, true, ⟨1, 2⟩⟩)] = true := by decide

theorem test_decode_vector_2 : decodesTo .vector [
    (0x12923E36, .vsra ⟨.whole 9, .whole 7, .inp 1, true, ⟨1, 2⟩⟩),
    (0x18044ED6, .vceq ⟨2, .whole 9, .zero, true, ⟨1, 2⟩⟩),
    (0x18844ED6, .vcne ⟨2, .whole 9, .zero, true, ⟨1, 2⟩⟩),
    (0x19044ED6, .vclt ⟨2, .whole 9, .zero, true, ⟨1, 2⟩⟩),
    (0x19844ED6, .vcle ⟨2, .whole 9, .zero, true, ⟨1, 2⟩⟩),
    (0x1A044ED6, .vcgt ⟨2, .whole 9, .zero, true, ⟨1, 2⟩⟩),
    (0x1A844ED6, .vcge ⟨2, .whole 9, .zero, true, ⟨1, 2⟩⟩),
    (0x1C040876, .vmand ⟨2, 1, 3, true, ⟨1, 2⟩⟩),
    (0x1C840876, .vmor ⟨2, 1, 3, true, ⟨1, 2⟩⟩),
    (0x1D040876, .vmxor ⟨2, 1, 3, true, ⟨1, 2⟩⟩),
    (0x1D840816, .vmnot 2 1 true ⟨1, 2⟩),
    (0x1E123E26, .vsel (.whole 9) (.whole 7) (.inp 1) ⟨1, 2⟩),
    (0x20123816, .vcvtf ⟨.whole 9, .whole 7, true, ⟨1, 2⟩⟩),
    (0x20923816, .vcvti ⟨.whole 9, .whole 7, true, ⟨1, 2⟩⟩),
    (0x246A3E36, .vqnt ⟨.out 1, .whole 7, .inp 1, true, ⟨1, 2⟩⟩),
    (0x24EA3E36, .vqntr ⟨.out 1, .whole 7, .inp 1, true, ⟨1, 2⟩⟩),
    (0x251388F6, .vdqnt ⟨.whole 9, .inp 1, .whole 7, true, ⟨1, 2⟩⟩),
    (0x28123816, .vexp ⟨.whole 9, .whole 7, true, ⟨1, 2⟩⟩),
    (0x28923816, .vexp2 ⟨.whole 9, .whole 7, true, ⟨1, 2⟩⟩),
    (0x29123816, .vlog ⟨.whole 9, .whole 7, true, ⟨1, 2⟩⟩),
    (0x29923816, .vlog2 ⟨.whole 9, .whole 7, true, ⟨1, 2⟩⟩),
    (0x2A123816, .vsin ⟨.whole 9, .whole 7, true, ⟨1, 2⟩⟩),
    (0x2A923816, .vcos ⟨.whole 9, .whole 7, true, ⟨1, 2⟩⟩),
    (0x2B123816, .vtanh ⟨.whole 9, .whole 7, true, ⟨1, 2⟩⟩)] = true := by decide

theorem test_decode_vector_3 : decodesTo .vector [
    (0x2B923816, .vrsqrt ⟨.whole 9, .whole 7, true, ⟨1, 2⟩⟩),
    (0x2C123816, .vrcp ⟨.whole 9, .whole 7, true, ⟨1, 2⟩⟩),
    (0x301239F6, .vrotr ⟨.whole 9, .whole 7, 15, true, ⟨1, 2⟩⟩),
    (0x309239F6, .vrotc ⟨.whole 9, .whole 7, 15, true, ⟨1, 2⟩⟩),
    (0x31133816, .vbcr ⟨.whole 9, .col 7, 0, true, ⟨1, 2⟩⟩),
    (0x3192B816, .vbcc ⟨.whole 9, .row 7, 0, true, ⟨1, 2⟩⟩),
    (0x32443816, .vsumr ⟨.col 2, .whole 7, true, ⟨1, 2⟩⟩),
    (0x32A43816, .vsumc ⟨.row 2, .whole 7, true, ⟨1, 2⟩⟩),
    (0x33443816, .vmaxr ⟨.col 2, .whole 7, true, ⟨1, 2⟩⟩),
    (0x33A43816, .vmaxc ⟨.row 2, .whole 7, true, ⟨1, 2⟩⟩),
    (0x34443816, .vminr ⟨.col 2, .whole 7, true, ⟨1, 2⟩⟩),
    (0x34A43816, .vminc ⟨.row 2, .whole 7, true, ⟨1, 2⟩⟩),
    (0x38123816, .vrsenc ⟨.whole 9, .whole 7, true, ⟨1, 2⟩⟩),
    (0x38923816, .vrsdec ⟨.whole 9, .whole 7, true, ⟨1, 2⟩⟩)] = true := by decide

/-! ### Decoding: words of the spec's own examples (chapters 04, 05, 07, 08, 13 to 15, 17, 18, 19, 21) -/

theorem test_example_words_seq : decodesTo .seq [
    (0x0442FFFF, .addi 2 2 0xFFFF), (0x14E6013F, .srli 7 6 63), (0x2C221000, .cmpi 1 2 .ne 0), (0x54C30000, .ldWs 6 3 0),
    (0x50A40010, .ldWz 5 4 16), (0x80BFFFF9, .br 1 false 0x3FFFF9), (0x82400003, .br 4 true 3), (0x84000079, .call 0 false 0x79),
    (0x881F0002, .ret 31), (0x90000200, .exit), (0x90000181, .rdv 0 0x81), (0x956A0100, .twall 11 10 false), (0x98000002, .fence .die),
    (0x9C143800, .xcp 20 7), (0xA4E00000, .srd 7 0), (0xA8030005, .seedWrite 3), (0xAC000021, .trap 0x21), (0xB0000000, .eret),
    (0xE0644800, .qcat 3 4 9), (0xE0064A01, .qstw 0 6 9 true), (0xE0804B00, .qpin 4 9), (0xE4A63800, .qsub 5 6 7),
    (0xE4050100, .qrun 0 5), (0xE5050200, .qwait 8 5), (0xE5656300, .qexpl 11 5 12), (0xE44A2C00, .qhint 2 10 5),
    (0xE4050501, .qinv 0 5 true), (0xE8E80000, .qtld 7 8)] = true := by decide

theorem test_example_words_xfer : decodesTo .xfer [
    (0x04485006, .xcpy ⟨1, 2, 5, false, false, .stream, ⟨1, 2⟩⟩ .rne), (0x10183000, .xfil ⟨0, 6, 3, false, false, .stream, ⟨0, 0⟩⟩ .rne),
    (0x09081000, .xgat ⟨4, 2, 1, false, false, .stream, ⟨0, 0⟩⟩ .rne), (0x0CA04000, .xsct ⟨2, 8, 4, false, false, .stream, ⟨0, 0⟩⟩ .rne),
    (0x1AE86000, .xpf ⟨11, 10, 6, false, false, .stream, ⟨0, 0⟩⟩), (0x23707200, .xput ⟨13, 12, 7, false, false, .fabric, ⟨0, 0⟩⟩),
    (0x29182000, .selk ⟨4, 6, 2, false, false, .stream, ⟨0, 0⟩⟩ false), (0x2C0C0000, .xcfg ⟨0, 3, 0, false, false, .stream, ⟨0, 0⟩⟩),
    (0x48D095A0, .acwAddf ⟨3, 4, 9, false, true, .package, ⟨0, 0⟩⟩ false true),
    (0x44D09040, .acwAdd64 ⟨3, 4, 9, false, false, .stream, ⟨0, 0⟩⟩ true false),
    (0x81E0B000, .cmb ⟨7, 8, 11, false, false, .stream, ⟨0, 0⟩⟩), (0x8410A180, .xrcl ⟨0, 4, 10, false, false, .package, ⟨0, 0⟩⟩),
    (0x00000006, .xtok ⟨1, 2⟩), (0xA0005000, .xtw 5 ⟨0, 0⟩), (0xA6400010, .xrdv 1 0x90 ⟨0, 0⟩), (0xA8000000, .xnfy ⟨0, 0⟩)] = true := by
  decide

theorem test_example_words_matrix : decodesTo .matrix [
    (0x00000006, .mtok ⟨1, 2⟩), (0x04080000, .mcfg 0x100 ⟨0, 0⟩), (0x04200000, .mcfg 0x400 ⟨0, 0⟩), (0x08000003, .mgo ⟨0, 3⟩),
    (0x0C000003, .mwait ⟨0, 3⟩), (0x10161000, .mrdv 1 0x61 ⟨0, 0⟩), (0x14000000, .mnfy ⟨0, 0⟩), (0x20131807, .mma 0 1 3 .p1 true ⟨1, 3⟩),
    (0x25323000, .mmaz 2 3 2 .p3 false ⟨0, 0⟩), (0x32060100, .mld 4 6 .fp32 true ⟨0, 0⟩), (0x36810200, .mst 5 1 .fp32 .rtz ⟨0, 0⟩),
    (0x3807F000, .mzero 7 true ⟨0, 0⟩), (0x43703100, .mrq 6 7 0 3 .rne true ⟨0, 0⟩), (0xC0802000, .oaInit 0 2 .cap 2 ⟨0, 0⟩),
    (0xC6D00000, .oaHouse 1 3 2 ⟨0, 0⟩), (0xC8E00000, .oaApp 0 3 4 ⟨0, 0⟩), (0xCC600003, .oaLeft 0 1 true 0 ⟨0, 3⟩),
    (0xD387E000, .oaRight 1 6 false 63 ⟨0, 0⟩), (0xD4000000, .oaFold 0 ⟨0, 0⟩), (0xDB400000, .oaSpill 1 5 ⟨0, 0⟩),
    (0xDD400000, .oaFill 0 5 ⟨0, 0⟩), (0xE2C00000, .oaCnt 1 3 ⟨0, 0⟩)] = true := by decide

theorem test_example_words_vector : decodesTo .vector [
    (0x00000007, .vtok ⟨1, 3⟩), (0x00821800, .vshpDim 1 3 ⟨0, 0⟩), (0x00A00400, .vshpCur 0 0 true false ⟨0, 0⟩),
    (0x00D05000, .vshpFmt 8 1 1 ⟨0, 0⟩), (0x01041000, .vbind 0 2 0x100 ⟨0, 0⟩), (0x01AB8000, .vsamp ⟨.row 5, .inp 0, false, ⟨0, 0⟩⟩),
    (0x022C2000, .vrdv 1 0x61 ⟨0, 0⟩), (0x02800000, .vnfy ⟨0, 0⟩), (0x08021060, .vadd ⟨.whole 1, .whole 2, .whole 3, false, ⟨0, 0⟩⟩),
    (0x08698627, .vadd ⟨.out 0, .inp 0, .inp 1, false, ⟨1, 3⟩⟩), (0x08249E10, .vadd ⟨.row 2, .row 3, .inp 0, true, ⟨0, 0⟩⟩),
    (0x0BC71800, .vneg ⟨.col 3, .col 3, false, ⟨0, 0⟩⟩), (0x128416E0, .vsra ⟨.whole 2, .whole 2, .ones, false, ⟨0, 0⟩⟩),
    (0x190206C0, .vclt ⟨1, .whole 0, .zero, false, ⟨0, 0⟩⟩), (0x1C040020, .vmand ⟨2, 0, 1, false, ⟨0, 0⟩⟩),
    (0x1D821000, .vmnot 1 2 false ⟨0, 0⟩), (0x1E0C20A0, .vsel (.whole 6) (.whole 4) (.whole 5) ⟨0, 0⟩),
    (0x24E98060, .vqntr ⟨.out 0, .inp 0, .whole 3, false, ⟨0, 0⟩⟩), (0x30040830, .vrotr ⟨.whole 2, .whole 1, 1, true, ⟨0, 0⟩⟩),
    (0x31071000, .vbcr ⟨.whole 3, .col 2, 0, false, ⟨0, 0⟩⟩), (0x33440800, .vmaxr ⟨.col 2, .whole 1, false, ⟨0, 0⟩⟩),
    (0x32A82800, .vsumc ⟨.row 4, .whole 5, false, ⟨0, 0⟩⟩)] = true := by decide

/-- Words that the spec calls unassigned: a reserved fence scope and a non-zero ra of srd (04), a rotation by 16 of a column (R385), the
conversion targets RS24, E8M0 and RAW of mrq (R315), a reserved constant of oa.house, an `.x` token code 3 of XL (R17). -/
theorem test_unassigned_words_refused :
    [decodeWord .seq 0x98000005, decodeWord .seq 0xA4E10000, decodeWord .vector (0x30800000 ||| 16 <<< 5), decodeWord .matrix 0x4370C100,
      decodeWord .matrix (0xC4000000 ||| 7 <<< 19), decodeWord .xfer 0x00000003].all (fun r => !r.isOk) = true := by decide

/-! ### Ill-formed terms: one for each check of WellFormed -/

/-- Every term of the list is ill-formed, and the word that its fields would make stands for no such instruction. -/
def refused (l : List Instr) : Bool :=
  l.all fun i => !i.wf && (match encode i with
    | some (m, w) => decide (decodeWord m w ≠ .ok i)
    | none => true)

theorem test_ill_formed_seq : refused [.bfx 1 2 65 0, .bfxs 1 2 127 0, .bfi 1 2 65 63, .spillm 5 1 4, .spillm 3 4 5, .fillm 3 3 3,
    .swr 1 0x005, .swr 1 0x006, .swr 1 0x013, .swr 1 0x020] = true := by decide

theorem test_ill_formed_xfer :
    let x (src : BitVec 4) (sc : Scope) (t : Tok) : XArgs := ⟨src, 2, 5, false, false, sc, t⟩
    refused [.xtok ⟨3, 0⟩, .xtw 1 ⟨0, 3⟩, .xrdv 1 0x10 ⟨3, 0⟩, .xnfy ⟨0, 3⟩, .xcpy (x 1 .die ⟨3, 0⟩) .rne, .xgat (x 1 .die ⟨0, 3⟩) .rne,
      .xsct (x 1 .die ⟨3, 0⟩) .rne, .xfil (x 1 .die ⟨3, 0⟩) .rne, .xmcs (x 1 .die ⟨3, 0⟩) .rne, .xpf (x 1 .die ⟨3, 0⟩), .xwb (x 1 .die ⟨3, 0⟩),
      .xput (x 1 .package ⟨0, 0⟩), .xget (x 1 .stream ⟨0, 0⟩), .xget (x 1 .fabric ⟨3, 0⟩), .selk (x 1 .die ⟨3, 0⟩) true, .xcfg (x 1 .die ⟨3, 0⟩),
      .cmb (x 1 .die ⟨3, 0⟩), .xrcl (x 1 .die ⟨0, 0⟩), .xrcl (x 0 .die ⟨3, 0⟩), .acwAdd32 (x 1 .die ⟨3, 0⟩) true false] = true := by decide

theorem test_ill_formed_matrix : refused [.mrq 1 2 3 0xC .rne true ⟨0, 0⟩, .mrq 1 2 3 0xD .rne true ⟨0, 0⟩, .mrq 1 2 3 0xE .rne true ⟨0, 0⟩,
    .oaHouse 0 1 7 ⟨0, 0⟩] = true := by decide

theorem test_ill_formed_vector :
    let z : Tok := ⟨0, 0⟩
    refused [.vbind 6 0 0 z, .vbind 7 0 0 z, .vsamp ⟨.whole 1, .inp 0, false, z⟩, .vsamp ⟨.row 1, .ones, false, z⟩,
      .vadd ⟨.inp 0, .whole 1, .whole 2, false, z⟩, .vadd ⟨.whole 1, .out 0, .whole 2, false, z⟩, .vadd ⟨.row 1, .whole 1, .row 2, false, z⟩,
      .vadd ⟨.out 0, .row 1, .col 2, false, z⟩, .vfma ⟨.out 0, .whole 1, .whole 2, false, z⟩, .vabs ⟨.zero, .whole 1, false, z⟩,
      .vmov ⟨.row 1, .col 1, false, z⟩, .vceq ⟨0, .row 1, .col 1, false, z⟩, .vceq ⟨0, .out 1, .col 1, false, z⟩,
      .vsel (.zero) (.whole 1) (.whole 2) z, .vrotr ⟨.col 1, .col 1, 1, false, z⟩, .vrotr ⟨.whole 1, .zero, 1, false, z⟩,
      .vrotc ⟨.whole 1, .whole 1, 16, false, z⟩, .vbcr ⟨.col 1, .col 1, 0, false, z⟩, .vbcr ⟨.whole 1, .col 1, 1, false, z⟩,
      .vbcc ⟨.whole 1, .whole 1, 16, false, z⟩, .vsumr ⟨.row 1, .whole 1, false, z⟩, .vsumc ⟨.row 1, .row 1, false, z⟩] = true := by decide

/-! ### A small running state -/

/-- A ready block stream at word 5 with a handler installed: g1 points to offset 16 of the own scratchpad, g2 is −1, g3 is 7. -/
def blk : Block :=
  { pc := 5#64, st := .ready, trvec := 0x100000007#34, g := #v[0, 0x1000000000000010, 0xFFFFFFFFFFFFFFFF, 7, 0, 0, 0, 0, 0, 0, 0, 0, 0, 0,
      0, 0, 0, 0, 0, 0, 0, 0, 0, 0, 0, 0, 0, 0, 0, 0, 0, 0] }

def job : Job := { func := 3#8, team := 9, rank := 0#8, size := 1#8, expect := 0xFF#8 }

/-- A core with a job, four ready block streams and four running engine streams. -/
def core1 : Core :=
  { job := some job, q := Vector.replicate 4 blk, xl := { st := .running }, m := { st := .running }, v := { st := .running },
    xs := { st := .running } }

/-- Core 5 of die 1 runs; its stream st acts. Its scratchpad holds 0xFFFFFFFD, as a little-endian word, at offset 16. -/
def running (c : Core) (st : Stream) : State :=
  { phase := .ready, clk := 1000, cores := [(197, c)], cur := { k := 197, q := 0, st := st },
    mem := Memory.writeN [] (scratchLoc 197 + 16) [0xFD#8, 0xFF#8, 0xFF#8, 0xFF#8], funcs := [(3, { state := 1#8 })] }

def s0 : State := running core1 .q0

/-- The instruction answers a next state of which p holds. -/
def answers (i : Instr) (s : State) (p : State → Bool) : Bool :=
  match exec i s with
  | .next t => p t
  | _ => false

/-- s with general registers set. -/
def regs (l : List (BitVec 5 × Dword)) (s : State) : State := l.foldl (fun t e => t.modBlk fun b => b.setReg e.1 e.2) s

/-- The instruction leaves v in general register d and the pc at the next word. -/
def leaves (i : Instr) (s : State) (d : BitVec 5) (v : Dword) : Bool := answers i s fun t => t.g d == v && t.blk.pc == s.blk.pc + 1#64

/-! ### Sequencer words: results worked out by hand from the rules -/

theorem test_add_wraps : leaves (.add 4 2 3) s0 4 6 = true := by decide +kernel
theorem test_add_to_g0_writes_nothing : leaves (.add 0 2 3) s0 0 0 = true := by decide +kernel
theorem test_sub_borrows : leaves (.sub 4 3 2) s0 4 8 = true := by decide +kernel
theorem test_mul_low : leaves (.mul 4 2 3) s0 4 0xFFFFFFFFFFFFFFF9 = true := by decide +kernel
theorem test_mulh_signed : leaves (.mulh 4 2 3) s0 4 0xFFFFFFFFFFFFFFFF = true := by decide +kernel
theorem test_mulhu_unsigned : leaves (.mulhu 4 2 3) s0 4 6 = true := by decide +kernel
theorem test_andn : leaves (.andn 4 2 3) s0 4 0xFFFFFFFFFFFFFFF8 = true := by decide +kernel
theorem test_sll_uses_six_bits : leaves (.sll 4 3 2) s0 4 0x8000000000000000 = true := by decide +kernel
theorem test_sra_keeps_sign : leaves (.sra 4 2 3) s0 4 0xFFFFFFFFFFFFFFFF = true := by decide +kernel
theorem test_ror : leaves (.ror 4 3 3) s0 4 0x0E00000000000000 = true := by decide +kernel
theorem test_min_signed : leaves (.min 4 2 3) s0 4 0xFFFFFFFFFFFFFFFF = true := by decide +kernel
theorem test_minu_unsigned : leaves (.minu 4 2 3) s0 4 7 = true := by decide +kernel
theorem test_lea3 : leaves (.lea3 4 2 3) s0 4 55 = true := by decide +kernel
theorem test_andi_takes_it_unsigned : leaves (.andi 4 2 0xFFFF) s0 4 0xFFFF = true := by decide +kernel
/-- R114's example: `srli g7, g6, 63` leaves 1 in g7 exactly when g6 is negative. -/
theorem test_srli_sign : (leaves (.srli 7 2 63) s0 7 1 && leaves (.srli 7 3 63) s0 7 0) = true := by decide +kernel
theorem test_movk_keeps_the_rest : leaves (.movk 2 1 0x1234) s0 2 0xFFFFFFFF1234FFFF = true := by decide +kernel
theorem test_clz_of_zero : leaves (.clz 4 0) s0 4 64 = true := by decide +kernel
theorem test_bswap : leaves (.bswap 4 3) s0 4 0x0700000000000000 = true := by decide +kernel
/-- The exponent field of 1.5 as FP32 (chapter 12). -/
theorem test_bfx : leaves (.bfx 9 8 8 23) (regs [(8, 0x3FC00000)] s0) 9 127 = true := by decide +kernel
theorem test_bfxs : leaves (.bfxs 4 3 3 0) s0 4 0xFFFFFFFFFFFFFFFF = true := by decide +kernel
theorem test_bfi_drops_above_63 : leaves (.bfi 3 2 8 60) s0 3 0xF000000000000007 = true := by decide +kernel
theorem test_cmp_lt_signed : answers (.cmp 1 2 3 .lt) s0 (fun t => t.p 1) = true := by decide +kernel
theorem test_cmp_ltu_unsigned : answers (.cmp 1 2 3 .ltu) s0 (fun t => !t.p 1 && t.p 0) = true := by decide +kernel
theorem test_prd_reads_p0_as_one : leaves (.prd 4) s0 4 1 = true := by decide +kernel
/-- −3 in the word at offset 16, sign- and zero-extended (R123). -/
theorem test_ld_ws : leaves (.ldWs 4 1 0) s0 4 0xFFFFFFFFFFFFFFFD = true := by decide +kernel
theorem test_ld_hz : leaves (.ldHz 4 1 2) s0 4 0xFFFF = true := by decide +kernel
theorem test_st_h_is_little_endian : answers (.stH 3 1 0) (regs [(3, 0x1234)] s0) (fun t =>
    t.mem == s0.mem && t.writes.map (fun w => w.data) == [[(0x34#8, 0xFF#8), (0x12#8, 0xFF#8)]]) = true := by decide +kernel
theorem test_br_goes_back : answers (.br 0 false 0x3FFFFD) s0 (fun t => t.blk.pc == 2) = true := by decide +kernel
theorem test_call_links : answers (.call 0 false 0x79) s0 (fun t => t.blk.pc == 126 && t.g 31 == 6) = true := by decide +kernel
theorem test_jmpl_same_register : answers (.jmpl 3 3) s0 (fun t => t.blk.pc == 7 && t.g 3 == 6) = true := by decide +kernel
theorem test_trap_to_handler : answers (.trap 0x21) s0 (fun t =>
    let b := t.me.q[0]
    b.pc == 7 && b.hnd && b.trcause == 2 && b.trinfo == 0x21 && b.trpc == 5 && t.me.curq == 1) = true := by decide +kernel
/-- R85: the generators after SEED := 0 are the constants; a generator that would be 0 is 1. -/
theorem test_seed_write : answers (.seedWrite 4) (regs [(4, 0x9E3779B97F4A7C15)] s0) (fun t =>
    t.me.sys.gen[0] == 1 && t.me.sys.gen[1] == 0x216F3ED463AE99AC#64) = true := by decide +kernel
theorem test_tffr_of_nothing : leaves (.tffr 4 0) s0 4 64 = true := by decide +kernel
theorem test_exit_sets_its_bit : answers .exit s0 (fun t => t.me.q[0].st == .parked && (t.me.job.map fun j => j.done) == some 1) = true := by
  decide +kernel

/-! ### Witnesses: for each statement that has hypotheses, a state and operands that meet them, clause by clause -/

theorem witness_DecodeAndEncodeAgree :
    (Instr.spillm 30 29 31).wf = true ∧ encode (.spillm 30 29 31) = some (.seq, 0x73DDF800) ∧
    decodeWord .seq 0x73DDF800 = .ok (.spillm 30 29 31) := by decide

/-- The stream st of core 197 is the first planned act, with one word in each section. -/
def planned (st : Stream) (q m v : Word) : State :=
  let c := { core1 with code := #v[[q], [q], [q], [q], [m], [m], [v], [m]], q := Vector.replicate 4 { blk with pc := 0 } }
  { running c .q0 with agenda := [⟨1000, .issue 197 st⟩] }

/-- The next word of block stream q0 decodes, of q0 does not, and lies past the section. -/
theorem witness_StepRunsTheDecodedInstruction_block :
    let s := planned .q0 0x0442FFFF 0 0
    let u := planned .q0 0x02000005 0 0
    s.due = [] ∧ s.agenda = [⟨1000, .issue 197 .q0⟩] ∧ 1000 ≤ s.clk ∧ (s.core 197).job.isSome ∧ (s.core 197).fault = none ∧
    (s.core 197).preempt = none ∧ (s.core 197).curq = 0 ∧ (s.core 197).q[0].st = .ready ∧
    (vget (s.core 197).code 0 [])[(s.core 197).q[0].pc.toNat]? = some 0x0442FFFF ∧ decodeWord .seq 0x0442FFFF = .ok (.addi 2 2 0xFFFF) ∧
    (vget (u.core 197).code 0 [])[(u.core 197).q[0].pc.toNat]? = some 0x02000005 ∧ decodeWord .seq 0x02000005 = .error .opcode ∧
    (vget s0.me.code 0 []).length ≤ s0.me.q[0].pc.toNat := by decide +kernel

/-- The next word of each engine stream decodes, does not, and lies past the section. -/
theorem witness_StepRunsTheDecodedInstruction_engine :
    let s := planned .m 0 0x14000000 0x02800000
    let u := planned .xl 0 0xFC000000 0
    s.agenda = [⟨1000, .issue 197 .m⟩] ∧ (s.core 197).m.st = .running ∧
    (Stream.m, (s.core 197).m, 5, OpMap.matrix) ∈ [(Stream.xl, (s.core 197).xl, 4, OpMap.xfer), (.m, (s.core 197).m, 5, .matrix)] ∧
    (vget (s.core 197).code 5 [])[(s.core 197).m.pc.toNat]? = some 0x14000000 ∧ decodeWord .matrix 0x14000000 = .ok (.mnfy ⟨0, 0⟩) ∧
    (vget (u.core 197).code 4 [])[(u.core 197).xl.pc.toNat]? = some 0xFC000000 ∧ (decodeWord .xfer 0xFC000000).isOk = false ∧
    (vget s0.me.code 4 []).length ≤ s0.me.xl.pc.toNat := by decide +kernel

/-- The answer is a next state, as a Bool. -/
def isNext (r : Host.Outcome State Fault Refusal) : Bool :=
  match r with
  | .next _ => true
  | _ => false

theorem next_of_isNext {r : Host.Outcome State Fault Refusal} (h : isNext r = true) : ∃ t, r = .next t := by
  cases r <;> simp_all [isNext]

theorem witness_EveryStepKeepsMemoryCanonical :
    ∃ s t : State, MemInv s ∧ step s = .next t := by
  obtain ⟨t, h⟩ := next_of_isNext (r := step (planned .q0 0x0442FFFF 0 0)) (by decide +kernel)
  exact ⟨_, t, by unfold MemInv; decide +kernel, h⟩

theorem witness_BitWordsFollowTheirRules : (64#7 : BitVec 7).toNat ≤ 64 ∧ (0#7 : BitVec 7).toNat ≤ 64 := by decide

theorem witness_ComparesFollowTheirRules : 7 ≤ (7#4 : BitVec 4).toNat ∧ 7 ≤ (15#4 : BitVec 4).toNat := by decide

/-- Offset o of the own scratchpad in g1. -/
def scr (o : Nat) : State := regs [(1, BitVec.ofNat 64 (0x1000000000000000 + o))] s0

/-- The last byte, halfword, word and doubleword of the scratchpad; a stream without writes. -/
theorem witness_LoadsReadTheOwnScratchpad :
    (∀ x ∈ [(1, 0x1FFFFF), (2, 0x1FFFFE), (4, 0x1FFFFC), (8, 0x1FFFF8)],
      ((scr (x.2 + 1)).g 1).toInt + (0xFFFF#16).toInt = 0x1000000000000000 + (x.2 : Nat) ∧ x.2 + x.1 ≤ 0x200000 ∧ x.2 % x.1 = 0) ∧
    (∀ x ∈ s0.writes, x.by_ ≠ ⟨197, 0⟩) := by decide +kernel

theorem witness_StoresSendOneWrite : ∀ x ∈ [(1, 0x1FFFFF), (2, 0x1FFFFE), (4, 0x1FFFFC), (8, 0x1FFFF8)],
    ((scr x.2).g 1).toInt + (0#16).toInt = 0x1000000000000000 + (x.2 : Nat) ∧ x.2 + x.1 ≤ 0x200000 ∧ x.2 % x.1 = 0 := by decide +kernel

theorem witness_SpillAndFillMoveARun :
    let o := 0x200000 - 240
    (2#5).toNat ≤ (31#5).toNat ∧ ¬ ((2#5).toNat ≤ (1#5).toNat ∧ (1#5).toNat ≤ (31#5).toNat) ∧
    ((scr o).g 1).toNat = 0x1000000000000000 + o ∧ o % 8 = 0 ∧ o + 8 * ((31#5).toNat - (2#5).toNat + 1) ≤ 0x200000 := by decide +kernel

/-- Core 197 with block stream q3 changed. -/
def other (f : Block → Block) : State := s0.modCore 197 fun c => { c with q := c.q.set 3 (f c.q[3]) }

theorem witness_JstartRestartsAnEndedStream :
    (3 : Fin 4) ≠ s0.cur.q ∧ (other fun b => { b with st := .ended }).me.q[3].st = .ended ∧ s0.me.q[3].st = .ready ∧
    (other fun b => { b with st := .waiting }).me.q[3].st = .waiting ∧ (other fun b => { b with st := .parked }).me.q[3].st = .parked := by
  decide +kernel

theorem witness_YieldAndExitEndTheBlock :
    (∀ i < 4, (vget s0.me.rdv i {}).mask = 0#8 ∨ (vget s0.me.rdv i {}).mask.getLsbD s0.cur.q.val = false) ∧
    (let c := core1
     c.q[1].st = .ready ∧ (1 : Fin 4) ≠ c.curq ∧
      ∀ j : Fin 4, (j - c.curq).val ≠ 0 → (j - c.curq).val < ((1 : Fin 4) - c.curq).val → c.q[j.val].st ≠ .ready) ∧
    (let c := { core1 with q := Vector.replicate 4 { blk with st := .waiting } }
     ∀ j : Fin 4, j ≠ c.curq → c.q[j.val].st ≠ .ready) := by decide +kernel

/-- Core 197 with TAGS. -/
def tagged (t : Dword) : State := s0.modCore 197 fun c => { c with sys := { c.sys with tags := t } }

/-- The three cases of each wait: it holds, its mask is empty, it does not hold. -/
theorem witness_TagWaits :
    s0.blk.st = .ready ∧ s0.blk.wword = 0#32 ∧ s0.blk.wmask = 0#64 ∧ s0.blk.answer = none ∧
    (tagged 4).me.sys.tags &&& (tagged 4).g 3 ≠ 0#64 ∧ (tagged 7).me.sys.tags &&& (tagged 7).g 3 = (tagged 7).g 3 ∧
    s0.g 0 = 0#64 ∧ s0.me.sys.tags &&& s0.g 3 = 0#64 ∧ s0.g 3 ≠ 0#64 := by decide +kernel

theorem witness_RdvRecordsTheArrival :
    s0.me.job = some job ∧ s0.blk.resol = false ∧ (0x81#8).getLsbD s0.cur.q.val = true ∧ s0.me.rdv[3].mask = 0#8 ∧
    0x81#8 &&& ~~~job.expect = 0#8 ∧ 0x81#8 &&& job.done = 0#8 ∧ (∀ w ∈ s0.writes, w.by_ ≠ ⟨s0.cur.k.val, s0.cur.q.val⟩) ∧
    s0.me.rdv[3].arrived.getLsbD s0.cur.q.val = false ∧
    (s0.modCore 197 fun c => { c with rdv := c.rdv.set 3 ⟨0x81#8, 0x80#8⟩ }).me.rdv[3].mask = 0x81#8 := by decide +kernel

/-- A write of q0 on its way; held or not. -/
def writing (held : Bool) : State :=
  { s0 with writes := [⟨4, ⟨197, 0⟩, none, 1, 0, 0x40, [(1#8, 0xFF#8)], Vector.replicate 8 0#48, held⟩] }

/-- Not yet held at core scope, held at die scope, nothing on its way, a lag that forbids the release and one that does not. -/
theorem witness_FenceWaitsThenReleases :
    (∃ w ∈ (writing false).writes, w.by_ = ⟨197, 0⟩ ∧ w.held = false) ∧ (∃ w ∈ (writing true).writes, w.by_ = ⟨197, 0⟩) ∧
    (∀ w ∈ (writing true).writes, ¬ (w.by_ = ⟨197, 0⟩ ∧ w.held = false)) ∧ s0.writes = [] ∧ s0.mayRelease 1 = true ∧
    (s0.modDie 1 fun d => { d with vclk := d.vclk.set 1 0x7FFFFFFFFFFF#48 }).mayRelease 1 = false := by decide +kernel

theorem witness_XcpQueuesACommand :
    let w : Word := 0x04485080
    let s := regs [(1, 0x04485080)] s0
    let full := s.modCore 197 fun c => { c with x := { c.x with queue := List.replicate 32 ⟨w, 0, 0, c.sys.bfmt, 0⟩ } }
    xcpWord w = true ∧ decodeWord .xfer w = .ok (.xcpy ⟨1, 2, 5, false, false, .core, ⟨0, 0⟩⟩ .rne) ∧ w.toNat % 16 = 0 ∧
    decodeWord .xfer 0x2C0C0000 = .ok (.xcfg ⟨0, 3, 0, false, false, .stream, ⟨0, 0⟩⟩) ∧
    (s.g 1).toNat < 2 ^ 32 ∧ xcpWord ((s.g 1).setWidth 32) = true ∧ s.me.x.queue.length < 32 ∧ 32 ≤ full.me.x.queue.length := by
  decide +kernel

theorem witness_EnergyIsChargedAndRead : s0.me.job = some job := by decide +kernel

theorem witness_TrapsGoToTheHandler :
    s0.blk.trvec.getLsbD 32 = true ∧ s0.blk.hnd = false ∧ s0.cur.st.opMap = .seq ∧
    (∀ r ∈ [0x00B#11, 0x00F, 0x014, 0x01F, 0x045, 0x7FF], (0x00A < r.toNat ∧ r.toNat < 0x010) ∨ (0x013 < r.toNat ∧ r.toNat < 0x020) ∨ 0x044 < r.toNat) ∧
    (∀ r ∈ [0x000#11, 0x004, 0x007, 0x00F, 0x014, 0x01F, 0x041, 0x043, 0x045, 0x7FF],
      r.toNat ∉ [5, 6, 0x010, 0x011, 0x012, 0x013, 0x040, 0x042, 0x044] ∧ ¬ (0x020 ≤ r.toNat ∧ r.toNat < 0x040)) ∧ (0 : Fin 4) = s0.cur.q ∧
    (other fun b => { b with st := .absent }).me.q[3].st = .absent ∧ 2 ^ 32 ≤ (s0.g 2).toNat ∧ xcpWord ((s0.g 3).setWidth 32) = false := by
  decide +kernel

/-- Each clause at a boundary of its range: space 5, bit 48 set, the last byte of accumulator and stage space, one byte past the
scratchpad, and an odd address for a halfword. -/
theorem witness_LoadsAndStoresTrapOnBadAddresses :
    let space (a : Nat) : Nat := a / 2 ^ 60
    let mbz (a : Nat) : Nat := a / 2 ^ 48 % 2 ^ 12
    let low (a : Nat) : Nat := a % 2 ^ 48
    s0.blk.trvec.getLsbD 32 = true ∧ s0.blk.hnd = false ∧
    5 ≤ space 0x5000000000000000 ∧ (space 0x0001000000000000 < 5 ∧ mbz 0x0001000000000000 ≠ 0) ∧
    (space 0x30000000003FFFFF = 3 ∧ mbz 0x30000000003FFFFF = 0 ∧ low 0x30000000003FFFFF % 0x200000 + 1 ≤ 0x200000 ∧
      low 0x30000000003FFFFF < 0x400000) ∧
    (space 0x400000000003FFFF = 4 ∧ mbz 0x400000000003FFFF = 0 ∧ low 0x400000000003FFFF + 1 ≤ 0x40000) ∧
    (space 0x1000000000200000 = 1 ∧ mbz 0x1000000000200000 = 0 ∧ 0x200000 < low 0x1000000000200000 + 1) ∧
    (space 0x1000000000000001 = 1 ∧ mbz 0x1000000000000001 = 0 ∧ low 0x1000000000000001 + 2 ≤ 0x200000 ∧
      low 0x1000000000000001 % 2 ≠ 0) := by decide

theorem witness_TrapsWithoutAHandlerFaultTheJob :
    (s0.modBlk fun b => { b with trvec := 0 }).blk.trvec.getLsbD 32 = false ∧ (s0.modBlk fun b => { b with hnd := true }).blk.hnd = true ∧
    s0.me.job = some job ∧ s0.me.fault = none ∧ s0.cur.st.opMap = .seq := by decide +kernel

theorem witness_ResolvableTrapsArePosted :
    let s := regs [(1, 0x5000)] s0
    s.me.job = some job ∧ s.blk.trvec.getLsbD 33 = false ∧ (s.g 1).toInt + (0#16).toInt = (0x5000 : Nat) ∧ 0x5000 + 8 ≤ 2 ^ 48 ∧
    s.walk job.func 0x5000 = .error 0x13#8 ∧ (∀ e ∈ s.me.tlb, ¬ (e.func = job.func ∧ e.vpage = 0x5000 / 0x10000)) ∧
    (s.die (s.cur.k.val / 192)).fq.length < 256 ∧ (s.func job.func).ring = none := by decide +kernel

/-- In the handler, with a spillm at TRPC and with another word there. -/
theorem witness_EretReturns :
    let s (w : Word) := (planned .q0 w 0 0).modBlk fun b => { b with hnd := true }
    (s 0).blk.hnd = true ∧
    ((s 0x73DDF800).me.code[(s 0).cur.q.val][(s 0).blk.trpc.toNat]?.map (decodeWord .seq)) = some (.ok (.spillm 30 29 31)) ∧
    ((s 0x0442FFFF).me.code[(s 0).cur.q.val][(s 0).blk.trpc.toNat]?.map (decodeWord .seq)) = some (.ok (.addi 2 2 0xFFFF)) := by
  decide +kernel

theorem witness_UnassignedEngineWordsFaultTheJob :
    (running core1 .v).me.job = some job ∧ (running core1 .v).me.fault = none ∧ (running core1 .v).cur.st.opMap ≠ .seq := by decide +kernel

/-- A page table of function 3 that maps the page of va 0 to the 2 MiB at physical 0x200000, writable and executable pages owned by it. -/
def paged (s : State) : State :=
  let w (m : Memory) (a v : Nat) : Memory := Memory.writeN m a (bytesOfNat 8 v)
  { s with mem := w (w (w s.mem 0x1000 0x2001) 0x2000 0x3001) 0x3000 0x200007
           rot := (List.range 32).map fun i => (0x20 + i, 0x103#32)
           funcs := [(3, { state := 1#8, part := 2#8, troot := 0x1000#64, save := 0x10000, nslots := 8, quota := 1000#64, quotaNow := 1000 })]
           mg := { s.mg with groups := [(24, 2#8), (25, 2#8)] } }

/-- A window of a core of the partition, and a page that the walk finds, for a load and for a store. -/
theorem witness_LoadsAndStoresElsewhere :
    let s := paged s0
    let f := s.me.funcOf
    (0x2000000000000000 + 0x200000 * 15 + 0x1FFFF8 = 0x2000000001FFFFF8 ∧ 15 < 192 ∧ 0x1FFFF8 + 8 ≤ 0x200000 ∧ 0x1FFFF8 % 8 = 0 ∧
      192 + 15 ∈ s.partCores f 1) ∧
    (0x1FFF8 + 8 ≤ 2 ^ 48 ∧ (∀ e ∈ s.me.tlb, ¬ (e.func = f ∧ e.vpage = 1)) ∧
      (∃ w ro, s.check f 0x1FFF8 .read true false = .ok (0x21FFF8, w, ro)) ∧ (∃ w ro, s.check f 0x1FFF8 .write true false = .ok (0x21FFF8, w, ro)) ∧
      s.poisoned 0x21FFF8 8 = false) := by
  refine ⟨by decide +kernel, by decide, by decide +kernel, ⟨true, false, by decide +kernel⟩, ⟨true, false, by decide +kernel⟩, by decide +kernel⟩

/-- The bytes of l stand at offset 128 of the own scratchpad; g1 points to them. -/
def image (l : List Byte) : State := { scr 128 with mem := Memory.writeN [] (scratchLoc 197 + 128) l }

/-- A query of one leaf over entry 0, by its 64 bytes (R399, R400). -/
def leaf : List Byte :=
  [1#8, 0#8, 1#8, 0#8, 0#8, 0#8, 0#8, 0#8] ++ bytesOfNat 4 0x3F800000 ++ bytesOfNat 4 0x3F800000 ++ zeroBytes 16 ++
    [10#8, 0#8, 0#8, 0#8] ++ List.replicate 8 0xFF#8 ++ bytesOfNat 4 0x01000000 ++ zeroBytes 16

def query : Query := ⟨false, false, 0x3F800000, 0x3F800000, 0, 0, [⟨10, false, 0, 0, [], [0], 0, 0⟩], []⟩

/-- A conversion of entry 0 into entry 2. -/
def query2 : Query := ⟨false, false, 0x3F800000, 0x3F800000, 0, 0, [⟨10, false, 0, 0, [], [0], 0, 0⟩, ⟨8, false, 0, 0, [0], [0], 0, 2⟩], []⟩

def handle (g : Nat) : PHandle := { func := 3#8, gen := g, query := query2, hints := [], plan := [{}, {}], deps := [0, 2], tids := [7] }

/-- A plan engine with an entry of function 3 with and without pins, one of function 9, four handles and a template. -/
def planEng : PlanEng :=
  { catalog := [(0, { state := 1, owner := 3#8, soft := 2, plan := 1, dims := [3], fmt := 0#4, loc := 0x100000#64 }), (1, { state := 1, owner := 9#8 }),
      (2, { state := 1, owner := 3#8, dims := [3], fmt := 0#4, loc := 0x200000#64 })]
    handles := [(0, handle 3), (5, { handle 9 with last := some 0x55#64 }), (6, { handle 2 with run := some { core := 3, node := 0 } }),
      (7, { handle 2 with func := 9#8 })]
    templates := [(0, ⟨3#8, 7, 8, 0#4, 0#4, 1#8, 0, 4, 0#64, List.replicate 9 0x3F800000⟩)] }

def planState (s : State) : State := s.modDie 1 fun x => { x with plan := planEng }

theorem witness_CatalogWordsAnswer :
    let img : List Byte := bytesOfNat 4 9 ++ zeroBytes 4 ++ bytesOfNat 4 3 ++ bytesOfNat 4 4 ++ zeroBytes 16 ++ bytesOfNat 8 0x100000 ++
      bytesOfNat 4 (8 * 2 ^ 28 + 2 * 2 ^ 21 + 0o777710) ++ zeroBytes 20
    let s := planState (image img)
    let p := (s.die (s.cur.k.val / 192)).plan
    (s.g 1).toNat = 0x1000000000000000 + 128 ∧ 128 % 64 = 0 ∧ 128 + 64 ≤ 0x200000 ∧ s.me.jobFunc = 3#8 ∧
    ((p.entry 0).state = 1 ∧ (p.entry 0).owner = 3#8 ∧ (p.entry 0).soft + (p.entry 0).plan < 65535 ∧ 0 < (p.entry 0).soft) ∧
    ((p.entry 2).state = 1 ∧ (p.entry 2).owner = 3#8 ∧ (p.entry 2).soft + (p.entry 2).plan = 0) ∧
    ((regs [(4, BitVec.allOnes 64)] s).g 4 = BitVec.allOnes 64 ∧ (p.entry 3).state = 0 ∧ (∀ j < 3, (p.entry j).state ≠ 0) ∧
      ((catalogImage (ownBytes s 128 64)).map fun e => e.trk) = some false) := by decide +kernel

theorem witness_HandleWordsAnswer_handle :
    let s := planState s0
    let p := (s.die (s.cur.k.val / 192)).plan
    let at_ (n : Nat) : Nat := (regs [(4, BitVec.ofNat 64 n)] s).g 4 |>.toNat
    (at_ (9 * 1024 + 5) = 9221 ∧ 9221 < 65536 ∧ 9221 / 1024 ≠ 0 ∧ mget? p.handles (9221 % 1024) = some { handle 9 with last := some 0x55#64 } ∧
      (handle 9).gen = 9221 / 1024 ∧ (handle 9).func = s.me.jobFunc ∧ (handle 9).run = none ∧ (handle 9).stale = 0) ∧
    (at_ (2 * 1024 + 6) = 2054 ∧ mget? p.handles (2054 % 1024) = some { handle 2 with run := some { core := 3, node := 0 } }) ∧
    ((scr 0x1FFF00).g 1).toNat = 0x1000000000000000 + 0x1FFF00 ∧ 0x1FFF00 % 64 = 0 ∧ 0x1FFF00 + (handle 9).explain.length ≤ 0x200000 := by
  decide +kernel

theorem witness_HandleWordsAnswer_hint :
    let s := regs [(4, BitVec.ofNat 64 (9 * 1024 + 5)), (5, 0x0102000000000000)] (planState s0)
    (s.g 4).toNat = 9221 ∧ (addHint (handle 9).hints (s.g 5)).length ≤ 16 ∧
      (s.seqCharge.planNew (handle 9).query (addHint (handle 9).hints (s.g 5))).isOk = true := by decide +kernel

theorem witness_HandleWordsAnswer_submit :
    let s := planState (image leaf)
    let p := (s.die (s.cur.k.val / 192)).plan
    (s.g 1).toNat = 0x1000000000000000 + 128 ∧ 128 % 32 = 0 ∧ min (natOfBytes (ownBytes s 130 1)) 64 = 1 ∧ s.g 0 = 0#64 ∧
    mget? p.handles 1 = none ∧ (∀ j < 1, (mget? p.handles j).isSome = true) ∧
    parseQuery (ownBytes s 128 64) = .ok query ∧ (s.seqCharge.planNew query []).isOk = true := by decide +kernel

theorem witness_TemplatesRefusalsAndPlanTraps :
    let rcd : List Byte := bytesOfNat 2 8 ++ [2#8, 0#8, 0#8, 0#8] ++ bytesOfNat 2 1 ++ zeroBytes 8 ++ (List.replicate 9 (bytesOfNat 4 0x3F800000)).flatten ++ zeroBytes 12
    let s := planState (image rcd)
    let p := (s.die (s.cur.k.val / 192)).plan
    ((templateOf 3 (ownBytes s 128 64)).map fun x => x.tid) = some 8 ∧ (∀ e ∈ p.templates, e.2.tid ≠ 8) ∧
    mget? p.templates 1 = none ∧ (∀ j < 1, (mget? p.templates j).isSome = true) ∧
    ((p.templates.find? fun e => e.2.func == s.me.jobFunc && e.2.tid == (s.g 3).toNat).map fun e => e.1) = some 0 ∧
    4096 ≤ ((regs [(4, 4096)] s).g 4).toNat ∧ ((p.entry 4095).state = 0 ∧ 4095 < 4096) ∧ (p.entry 1).owner ≠ 3#8 ∧
    s.blk.trvec.getLsbD 32 = true ∧ s.blk.hnd = false ∧ 65536 ≤ ((regs [(4, 65536)] s).g 4).toNat ∧
    mget? p.handles ((s.g 3).toNat % 1024) ≠ none ∧ ((mget? p.handles 7).map fun h => h.func) = some 9#8 ∧ mget? p.handles 8 = none := by
  decide +kernel

/-- A valid descriptor (R160, R161): base, advance, strides and trip counts, format, and aux. -/
def desc (base adv : Nat) (strs cnts : List Nat) (fmt aux : Nat) : BitVec 1024 :=
  let str (i : Nat) : Nat := strs.getD i 0 * 2 ^ (128 + 64 * i)
  let cnt (i : Nat) : Nat := cnts.getD i 1 * 2 ^ (512 + 32 * i)
  BitVec.ofNat 1024 (base + adv * 2 ^ 64 + str 0 + str 1 + cnt 0 + cnt 1 + cnt 2 + cnt 3 + cnt 4 + cnt 5 + fmt * 2 ^ 704 + 2 ^ 709 + aux * 2 ^ 768)

def own (o : Nat) : Nat := 0x1000000000000000 + o

/-- Sets 1 and 2 in raw scratchpad banks, 3 to 9 in memory: FP32 or, 3, 7 and 9, INT32. -/
def sets : Vector (BitVec 1024) 16 :=
  #v[0, desc (own 0x1000) 64 [1] [16] 0 0, desc (own 0x20000) 64 [1] [16] 0 0x010101, desc 0x4000 64 [1] [16] 8 0,
    desc 0x8000 64 [1] [16] 0 0, desc 0xC000 64 [1] [16] 0 0, desc 0x10000 0 [1] [1] 0 1, desc 0x14000 0 [1] [1] 8 0,
    desc 0x18000 0 [1, 4] [4, 4] 0 0, desc 0x1C000 0 [1] [4] 8 0, 0, 0, 0, 0, 0, 0]

/-- A core whose FIFOs hold tokens, and those sets. -/
def xcore : Core := { core1 with x := { core1.x with sets := sets }, fifo := Vector.replicate 10 { count := 3, reserved := 1 } }
def xstate : State := running xcore .xl

/-- Every transfer word with sets that pass its checks. -/
def transfers : List Instr :=
  let x (s d : BitVec 4) : XArgs := ⟨s, d, 5, false, false, .stream, ⟨1, 2⟩⟩
  [.xcpy (x 1 2) .rne, .xgat (x 8 4) .rne, .xsct (x 4 8) .rne, .xfil (x 4 2) .sr, .xmcs (x 1 2) .rtz, .xpf (x 4 5), .xwb (x 4 5),
    .xput { x 4 5 with scope := .fabric }, .xget { x 4 5 with scope := .fabric }, .selk (x 5 6) true, .xcfg (x 1 9),
    .acwAdd32 (x 1 2) true false, .acwAdd64 (x 1 2) false false, .acwAddf (x 5 4) false true, .acwMax32 (x 1 2) true false,
    .acwMax64 (x 1 2) true false, .acwMaxf (x 1 2) true false, .acwMin32 (x 1 2) true false, .acwMin64 (x 1 2) true false,
    .acwMinf (x 1 2) true false, .acwAnd32 (x 1 2) true false, .acwAnd64 (x 1 2) true false, .acwOr32 (x 1 2) true false,
    .acwOr64 (x 1 2) true false, .acwXchg32 (x 1 2) true false, .acwXchg64 (x 1 2) true false, .cmb (x 4 5), .xrcl (x 0 5)]

theorem witness_TransferWordsIssue :
    xstate.cur.st = .xl ∧ xstate.cur.entry = none ∧ xstate.me.x.cmds = [] ∧ xstate.me.m.outst = [] ∧ xstate.me.v.outst = [] ∧
    xstate.me.mx.outst = [] ∧ ∀ i ∈ transfers, i.wf = true ∧ ((xopOf i).map fun o =>
      xstate.me.tokensOk .xl o.x.tok && (checkOp o xstate.me.sys.bfmt (setOf xstate.me.x.sets[o.x.src.toNat]) (setOf xstate.me.x.sets[o.x.dst.toNat])
        (setOf xstate.me.x.sets[o.pair.toNat]) none).isOk) = some true := by decide +kernel

/-- 16 commands in flight; no token; a source set that is not valid. -/
theorem witness_TransferWordsStallOrFault :
    let c : Cmd := { id := 1, src := .xl, word := 0, seq := 0, bf := Vector.replicate 32 0xF#15 }
    let full := running { xcore with x := { xcore.x with cmds := List.replicate 16 c } } .xl
    16 ≤ (full.me.x.cmds.filter fun c => c.src == (if full.cur.st = .xs then .xs else .xl)).length ∧ full.cur.entry = none ∧
    (running core1 .xl).me.tokensOk .xl ⟨1, 2⟩ = false ∧
    xstate.me.x.cmds = [] ∧ xstate.me.tokensOk .xl ⟨1, 2⟩ = true ∧ xstate.me.job = some job ∧ xstate.me.fault = none ∧
    (setOf xstate.me.x.sets[(0#4).toNat]).valid = false := by decide +kernel

theorem witness_TokenWords :
    let s (st : Stream) := running { xcore with sys := { xcore.sys with tags := 32 } } st
    Tok.xwf ⟨1, 2⟩ = true ∧ (s .xl).cur.nest = false ∧
    (∀ st ∈ [Stream.xl, .xs, .m, .v], (s st).me.tokensOk st ⟨1, 2⟩ = true ∧ ((s st).me.eng st).outst = [] ∧ (s st).cur.st = st) ∧
    (s .xl).me.sys.tags.getLsbD (5#6).toNat = true ∧ (s .xl).me.sys.tags.getLsbD (4#6).toNat = false ∧
    (running core1 .v).me.tokensOk .v ⟨1, 2⟩ = false := by decide +kernel

theorem witness_EngineNotifyAndRendezvous : ∀ st ∈ [Stream.xl, .m, .v, .xs],
    let s := running xcore st
    let c := s.me
    let bit : Byte := 1#8 <<< streamIx st
    c.job = some job ∧ c.tokensOk st ⟨1, 2⟩ = true ∧ (c.eng st).outst = [] ∧ c.mx.go = false ∧
    (∀ r < 4, (vget c.rdv r {}).mask = 0#8 ∨ (vget c.rdv r {}).mask.getLsbD (streamIx st) = false) ∧
    (0xF1#8 &&& bit ≠ 0#8 ∧ c.rdv[3].mask = 0#8 ∧ 0xF1#8 &&& ~~~job.expect = 0#8 ∧ 0xF1#8 &&& job.done = 0#8 ∧
      c.rdv[3].arrived &&& bit = 0#8) := by decide +kernel

/-- A command of XL with banks of format f, about to perform: its word and its sets. -/
def about (w : Word) (f : Nat) (s d p : BitVec 1024) : State × Cmd :=
  let c : Cmd := { id := 55, src := .xl, word := w, seq := 0, s := s, d := d, p := p, bf := Vector.replicate 32 (BitVec.ofNat 15 f) }
  ({ paged (running { core1 with x := { core1.x with cmds := [c] } } .xl) with due := [.perform 197 55] }, c)

/-- The word that i stands for. -/
def wordOf (i : Instr) : Word := ((encode i).map fun e => e.2).getD 0

/-- What every clause asks of the state, the command and the word of kind k. -/
def performs (a : State × Cmd) (k : XOp → Bool) : Bool :=
  a.1.due == [.perform 197 55] && a.1.cmd? 197 55 == some a.2 && ((xopOfWord a.2.word).map fun o => k o && !o.x.acq && o.m != .sr) == some true &&
  a.2.st == .issued && a.2.progress == 0 && a.2.ixs.isNone && !a.1.performBlocked 197 a.2 && (a.1.core 197).fault.isNone &&
  (List.finRange 32).all fun b => a.2.bf[b.val].extractLsb' 13 2 == 0#2

/-- Each element lies aligned in the own scratchpad. -/
def owned (n : Nat) (l : List Elem) : Bool := l.all fun e =>
  let a := e.addr.toNat - own 0
  own 0 ≤ e.addr.toNat && a + n ≤ 0x200000 && a % n == 0

/-- A word of the transfer engine on sets 1 and 2 at core scope. -/
def xw (i : XArgs → Instr) : Word := wordOf (i ⟨1, 2, 5, false, false, .core, ⟨0, 0⟩⟩)

def srcSet : BitVec 1024 := desc (own 0x100) 0 [1] [4] 0 0x3F800000
def dstSet : BitVec 1024 := desc (own 0x1FFFF0) 0 [1] [4] 0 0x010101

/-- Walks that end at the last bytes of the scratchpad, for FP32 banks: a copy, a fill and a multicast to core 1 of the die. -/
theorem witness_TransferCommandsMoveTheirElements_walks :
    performs (about (xw fun a => .xcpy a .rne) 0 srcSet dstSet 0) (fun o => o.kind == .copy) = true ∧
    performs (about (xw fun a => .xfil a .rne) 0 srcSet dstSet 0) (fun o => o.kind == .fill) = true ∧
    performs (about (xw fun a => .xmcs a .rne) 0 srcSet dstSet 0) (fun o => o.kind == .mcast) = true ∧
    owned 4 ((setOf srcSet).walk 8) = true ∧ owned 4 ((setOf dstSet).walk 8) = true ∧ coreSet (setOf dstSet).aux = some [1] ∧
    (about 0 0 srcSet dstSet 0).1.windowOk 197 1 = true ∧ setFmt (about 0 0 srcSet dstSet 0).2.bf (setOf dstSet) = 0#4 ∧
    setFmt (about 0 0 srcSet dstSet 0).2.bf (setOf srcSet) = 0#4 ∧ nibbles 0#4 = 8 ∧ (setOf srcSet).fmt = 0#4 := by
  refine ⟨?_, ?_, ?_, ?_, ?_, ?_, ?_, ?_, ?_, ?_, ?_⟩ <;> decide +kernel

def tableSet : BitVec 1024 := desc (own 0x1FFFC0) 0 [1, 4] [4, 4] 0 0
def lineSet : BitVec 1024 := desc (own 0x100) 0 [1] [16] 0 0
def indexSet : BitVec 1024 := desc (own 0x200) 0 [1] [4] 0 0

/-- Indices 3, 0, 0, 0 stand at offset 0x200. -/
def indexed (a : State × Cmd) : State × Cmd :=
  let m := Memory.writeN a.1.mem (scratchLoc 197 + 0x200) [3#8]
  ({ a.1 with mem := m }, a.2)

/-- A gather from and a scatter into a table of four rows of four that ends with the scratchpad, in INT32 banks. -/
theorem witness_TransferCommandsMoveTheirElements_rows :
    performs (indexed (about (xw fun a => .xgat a .rne) 8 tableSet lineSet indexSet)) (fun o => o.kind == .gather) = true ∧
    performs (indexed (about (xw fun a => .xsct a .rne) 8 lineSet tableSet indexSet)) (fun o => o.kind == .scatter) = true ∧
    (((setOf indexSet).walk 8).map fun e => toSigned 32
      (Memory.readNat (indexed (about 0 8 0 0 0)).1.mem (scratchLoc 197 + (e.addr.toNat - own 0)) 4)) = [3, 0, 0, 0] ∧
    (∀ i ∈ ([3, 0, 0, 0] : List Int), 0 ≤ i ∧ i < (setOf tableSet).c 1) ∧ owned 4 ((setOf indexSet).walk 8) = true ∧
    owned 4 (([3, 0, 0, 0] : List Nat).flatMap fun r => (List.range 4).map fun i => (setOf tableSet).rowElem 8 r i) = true ∧
    owned 4 ((setOf lineSet).walk 8) = true ∧ intBits (setFmt (about 0 8 0 0 0).2.bf (setOf indexSet)) = some 32 := by
  refine ⟨?_, ?_, ?_, ?_, ?_, ?_, ?_, ?_⟩ <;> decide +kernel

def lastSet : BitVec 1024 := desc (own 0x1FFFF0) 0 [1] [4] 0 0
def rowSet : BitVec 1024 := desc (own 0x1FFFC0) 0 [1] [4] 0 7
def peerSet : BitVec 1024 := desc 0x4000 0 [1] [4] 0 9

/-- A put to the peer of context 9. -/
def putting : State × Cmd :=
  let a := about (wordOf (.xput ⟨1, 2, 5, false, false, .fabric, ⟨0, 0⟩⟩)) 0 lastSet peerSet 0
  (a.1.modFunc 3#8 fun f => { f with ctxs := [(9, ⟨1#16, 2#8, 3#64⟩)] }, a.2)

/-- A returning accumulate-on-write, a combine, xcfg and a put. -/
theorem witness_TransferCommandsMoveTheirElements_others :
    performs (about (xw fun a => .acwAddf a true false) 0 lastSet indexSet 0) (fun o => match o.kind with
      | .acw _ true false => true
      | _ => false) = true ∧
    2 ≤ nibbles (acwFmt 0x12) ∧ owned 4 ((setOf lastSet).walk (nibbles (acwFmt 0x12))) = true ∧
    performs (about (xw .cmb) 0 lastSet rowSet 0) (fun o => o.kind == .combine) = true ∧
    performs (about (xw .xcfg) 0 rowSet lastSet 0) (fun o => o.kind == .cfg) = true ∧
    owned 64 [⟨(setOf rowSet).base, false⟩] = true ∧ performs putting (fun o => o.kind == .put) = true ∧
    (setOf peerSet).fmt = setFmt putting.2.bf (setOf lastSet) ∧ (setOf peerSet).n = (setOf lastSet).n ∧
    (putting.1.netCtx 197 (setOf peerSet)).isSome = true := by
  refine ⟨?_, ?_, ?_, ?_, ?_, ?_, ?_, ?_, ?_, ?_⟩ <;> decide +kernel

/-- t with bytes put at offset o. -/
def put (t : List Byte) (o : Nat) (bs : List Byte) : List Byte := t.take o ++ bs ++ t.drop (o + bs.length)

/-- Set i of a nest table (R275): base, pitch in elements, element size code, valid. -/
def withSet (i base pitch esz : Nat) (t : List Byte) : List Byte :=
  let o := 0x80 + 64 * i
  put (put t o (bytesOfNat 8 base)) (o + 0x38) (bytesOfNat 4 pitch ++ [BitVec.ofNat 8 esz, 0x80#8])

/-- A nest table whose body is an mzero, of one chunk of K = ktail elements, with sets of pitch 1: FP32 in bank 0, BF16 in 1, INT8 in 2, RS24 in
3, raw in 5; FP32 of pitch 64 in 6. -/
def table (ktail : Nat) : List Byte :=
  let head : List Byte := [1#8, 0#8, 1#8, 0#8, 0#8, 0#8, 0xFF#8, 0#8] ++ bytesOfNat 2 ktail ++ zeroBytes 6 ++ (List.replicate 6 (bytesOfNat 4 1)).flatten
  let t := put (put (List.replicate 640 0#8) 0 head) 0x50 (bytesOfNat 4 0x38070000)
  withSet 0 (own 0) 1 3 (withSet 1 (own 0x10000) 1 2 (withSet 2 (own 0x20000) 1 1 (withSet 3 (own 0x30000) 1 3 (withSet 5 (own 0x50000) 1 3
    (withSet 6 (own 0x60000) 64 3 t)))))

def banks : Vector (BitVec 15) 32 := (((((Vector.replicate 32 0xF#15).set 0 0#15).set 1 1#15).set 2 6#15).set 3 0xA#15).set 6 0#15

/-- M runs with that table active; the scratchpad is empty. -/
def mcore (ktail : Nat) : Core :=
  { core1 with
    sys := { core1.sys with bfmt := banks }
    mx := { core1.mx with active := some (table ktail), bf := banks }
    fifo := Vector.replicate 10 { count := 3 } }
def mstate (ktail : Nat) : State := { running (mcore ktail) .m with mem := [] }

def mtok : Tok := ⟨1, 2⟩

/-- Set i of the active table, where it resolves. -/
def oper (s : State) (i : BitVec 3) : Option MOper := (s.mCtx.toOption).bind fun x => (s.mOper x i).toOption

/-- Whether a word may issue (mReady). -/
def readyB (s : State) (l : Locks) : Bool := (!s.me.mx.go || s.cur.nest) && s.me.tokensOk .m mtok && s.me.grantable l

/-- A result that is no fault. -/
def fine {α β : Type} (r : Except α β) : Bool :=
  match r with
  | .ok _ => true
  | .error _ => false

/-- A descriptor block at the last place that fits, one past it, a missing shadow, and a shadow that passes. -/
theorem witness_MatrixControlWords :
    let s := mstate 4
    let sh := running { mcore 4 with mx := { (mcore 4).mx with shadow := some (table 4) } } .m
    let go := running { mcore 4 with mx := { (mcore 4).mx with go := true } } .m
    s.cur.nest = false ∧ s.me.tokensOk .m mtok = true ∧ go.me.tokensOk .m mtok = true ∧ sh.me.tokensOk .m mtok = true ∧
    64 * (0x7FF6#15).toNat + 640 ≤ 0x200000 ∧ s.me.grantable { rd := 1#32 <<< 31 } = true ∧ 0x200000 < 64 * (0x7FF7#15).toNat + 640 ∧
    s.me.job.isSome = true ∧ s.me.fault = none ∧ go.me.mx.go = true ∧ s.me.mx.go = false ∧ s.me.mx.shadow = none ∧ s.me.m.outst = [] ∧
    sh.me.mx.go = false ∧ sh.me.mx.shadow = some (table 4) ∧ fine (tabCheck (table 4)) = true := by decide +kernel

/-- A load of FP32 from BF16, of INT32 from INT8 and of RS24; with and without addition. -/
theorem witness_TilesAreZeroedAndLoaded :
    Memory.wf (mstate 4).mem = true ∧ fine (mstate 4).mCtx = true ∧
    (∀ t ∈ [0#4, 15#4], readyB (mstate 4) { twr := 1#18 <<< t.toNat } = true) ∧
    (∀ e ∈ [(1#3, TileKind.fp32), (2#3, .int32), (3#3, .rs24)], ((oper (mstate 4) e.1).map fun o =>
      fine ((mstate 4).mFit o (rowStarts o.pitch 64) 64 false) && loadable e.2 o.fmt && !(mstate 4).mScaled o && o.pitch == 1 &&
      readyB (mstate 4) { rd := (mstate 4).mLockR o (rowStarts o.pitch 64) 64, twr := 1#18 <<< 15 }) = some true) ∧
    ((mstate 4).me.side 15).kind = 0 := by
  refine ⟨?_, ?_, ?_, ?_, ?_⟩ <;> decide +kernel

/-- Every element of those three blocks, at places 0 to 126, reads. -/
theorem witness_TilesAreZeroedAndLoaded_elements :
    ((oper (mstate 4) 1).map fun o => (List.range 127).all fun p => fine ((mstate 4).mVal o p)) = some true ∧
    ((oper (mstate 4) 2).map fun o => (List.range 127).all fun p => fine ((mstate 4).mBits o p)) = some true ∧
    ((oper (mstate 4) 3).map fun o => (List.range 127).all fun p => fine ((mstate 4).mBits o p)) = some true := by
  refine ⟨?_, ?_, ?_⟩ <;> decide +kernel

/-- A raw block for mst, FP32 blocks for mst and mrq with the scales of set 0; the tile is unset and holds zeros. -/
theorem witness_TilesAreStoredAndRequantised :
    (∀ e ∈ [(5#3, true), (0#3, false)], ((oper (mstate 4) e.1).map fun o =>
      let w := (mstate 4).mLockW o (rowStarts o.pitch 64) 64
      fine ((mstate 4).mFit o (rowStarts o.pitch 64) 64 true) && (o.fmt == fRAW) == e.2 && o.nib == 8 && !(mstate 4).mScaled o && o.pitch == 1 &&
      (List.range 127).all (fun p => fine ((mstate 4).mLoc o p) && (mstate 4).mScale o p != some 255) &&
      readyB (mstate 4) { rd := (mstate 4).mLockR o (rowStarts o.pitch 64) 64 &&& ~~~w, wr := w, trd := 1#18 <<< 3 }) = some true) ∧
    ((oper (mstate 4) 0).map fun c => fine ((mstate 4).mFit c [0] 64 false) && c.fmt == fFP32 && c.nib == 8 && c.fmt != fRS24 && c.fmt != fE8M0 &&
      (List.range 64).all fun i => fine ((mstate 4).mVal c i)) = some true ∧
    fine (convElem (kindFmt .fp32) fFP32 .rne 0 0 none none) = true ∧ ((mstate 4).me.side 3).kind = 0 := by
  refine ⟨?_, ?_, ?_, ?_⟩ <;> decide +kernel

/-- A step of one chunk of four elements under P1 on BF16, under P3 on RS24 and on INT8, by mma and by mmaz. -/
theorem witness_MatrixMultiplies : ∀ e ∈ [(1#3, Profile.p1, kFP32), (3#3, .p3, kRS24), (2#3, .p3, kINT32)], ∀ z ∈ [true, false],
    ((mstate 4).mmaIn ⟨e.1, e.1, 3, e.2.1, false, z⟩).toOption.map (fun n => n.c == 0 && n.n == 1 && n.kk == 4 && n.kind == e.2.2 &&
      n.a.pitch == 1 && n.b.pitch == 1 && readyB (mstate 4) ((mstate 4).mmaLocks n ⟨e.1, e.1, 3, e.2.1, false, z⟩) &&
      (List.range 127).all fun p => fine ((mstate 4).mBits n.a p) && fine ((mstate 4).mBits n.b p) &&
        (e.2.1 != .p1 || fine ((mstate 4).mVal n.a p)) && (mstate 4).mScale n.a p == none) = some true := by decide +kernel

/-- o0 initialised over 3 rows in mode m with k reflectors of zeros. -/
def oaState (m k : Nat) : State :=
  let r : OaReg := { init := true, mode := m, n := 3, k := k, area := BitVec.ofNat 64 (own 0x60000) }
  (mstate 4).modCore 197 fun c => { c with mx := { c.mx with oa := c.mx.oa.set 0 r } }

def ctx (s : State) (p : MCtx → Bool) : Bool := (s.mCtx.toOption.map p) == some true

theorem witness_OrthogonalAccumulatorWords :
    ctx (mstate 4) (fun x => fine (x.oaArea 6 0 256) && fine (x.oaArea 6 1 256) && fine (x.oaArea 6 2 256) &&
      fine (x.oaImage 6 0x9100 64) && fine (x.oaImage 6 16 4) && readyB (mstate 4) { twr := 1#18 <<< 16 }) = true ∧
    (oaState 0 1).me.mx.oa[0].init = true ∧ (oaState 0 1).me.mx.oa[0].k = 1 ∧ (oaState 0 1).me.mx.oa[0].mode = 0 ∧
    ctx (oaState 0 1) (fun x => (x.oaSet 0).toOption.map (fun v => fine ((oaState 0 1).plainF32 v (colOffs v 3) 1) && fine ((oaState 0 1).plainF32 v [0] 1) &&
      fine ((oaState 0 1).plainF32 v (rowStarts v.pitch 3) 1) && fine ((oaState 0 1).plainF32 v (rowStarts v.pitch 1) 3) && v.pitch == 1 &&
      (List.range 6).all fun p => fine ((oaState 0 1).mBits v p)) == some true && x.level 0 < 3) = true ∧
    (oaState 0 0).me.mx.oa[0].k = 0 ∧ (oaState 1 32).me.mx.oa[0].k ≠ 0 ∧ (oaState 1 32).me.mx.oa[0].mode = 1 ∧
    fine (oaRaw 197 ((oaState 1 32).me.mx.oa[0].area + 0) 0x9100 4) = true := by
  refine ⟨?_, ?_, ?_, ?_, ?_, ?_, ?_, ?_, ?_⟩ <;> decide +kernel

/-- The bytes of empty memory are an acceptable image. -/
theorem witness_OrthogonalAccumulatorWords_image : oaImageOk (Memory.readN (mstate 4).mem (scratchLoc 197 + 0x60000) 0x9100) = true := by
  decide +kernel

/-- A nest runs; a token is missing; no table is active; a tile of another kind; oa.fold with a reflector in mode 0. -/
theorem witness_MatrixWordsStallOrFault :
    (mstate 4).cur.nest = false ∧ (mstate 4).cur.st = .m ∧ ((mstate 4).modCore 197 fun c => { c with mx := { c.mx with go := true } }).me.mx.go = true ∧
    (running core1 .m).me.tokensOk .m mtok = false ∧ (mstate 4).me.mx.go = false ∧ (mstate 4).me.tokensOk .m mtok = true ∧
    (mstate 4).me.job.isSome = true ∧ (mstate 4).me.fault = none ∧
    ((mstate 4).modCore 197 fun c => { c with mx := { c.mx with active := none } }).me.mx.active = none ∧
    ((oper (mstate 4) 1).map fun q => fine ((mstate 4).mFit q (rowStarts q.pitch 64) 64 false) && loadable .fp32 q.fmt) = some true ∧
    (((mstate 4).modCore 197 fun c => { c with mx := { c.mx with side := c.mx.side.set 3 { kind := kRS24 } } }).me.side 3).kind = kRS24 ∧
    kRS24 ≠ 0 ∧ kRS24 ≠ kindCode .fp32 ∧ (mstate 4).me.locks = {} ∧ fine (mstate 4).mCtx = true ∧ ((oaState 0 1).me.oa 0).init = true ∧
    ((oaState 0 1).me.oa 0).k ≠ 0 ∧ ((oaState 0 1).me.oa 0).mode = 0 ∧ (oaState 0 1).me.locks = {} := by
  refine ⟨?_, ?_, ?_, ?_, ?_, ?_, ?_, ?_, ?_, ?_, ?_, ?_, ?_, ?_, ?_, ?_, ?_, ?_, ?_⟩ <;> decide +kernel

/-- V runs with a shape of 2 rows and 4 columns of format f, and output port 0 bound to 8 FP32 elements at offset 0x1FFFE0. -/
def vstate (f : Nat) : State :=
  let d : BitVec 1024 := BitVec.ofNat 1024 (own 0x1FFFE0 + 2 ^ 64 + (8 + 2 ^ 32 + 2 ^ 64 + 2 ^ 96 + 2 ^ 128 + 2 ^ 160) * 2 ^ 448 + 2 ^ 647)
  let x : Vec := { core1.vx with
    shape := BitVec.ofNat 32 (f * 2 ^ 28 + 0x310)
    sets := core1.vx.sets.set 1 d
    ports := (core1.vx.ports.set 4 (some ⟨1, 0, Vector.replicate 32 0#15, [], []⟩)).set 0 (some ⟨1, 1, Vector.replicate 32 0#15, [], []⟩) }
  running { core1 with vx := x, fifo := Vector.replicate 10 { count := 3 } } .v

/-- The word resolves, may issue, and its sources read (vReady). -/
def vReadyB (s : State) (w : VSpec) (p : VIn → Bool) : Bool :=
  (s.vIn w).toOption.any fun n => s.me.tokensOk .v w.t && s.me.grantable n.locks && s.me.portRoom n.out && fine (collect (n.vals s.mem) n.srcs) && p n

def regs3 : V3 := ⟨.whole 15, .whole 2, .whole 3, true, mtok⟩
def regs2 : V2 := ⟨.whole 15, .whole 2, true, mtok⟩

/-- FP32, INT32 and RS24 shapes with registers that hold zeros; an output port that takes the whole shape. -/
theorem witness_VectorArithmetic :
    Memory.wf (vstate 0).mem = true ∧ vopReg regs3.d = some 15 ∧
    (∀ f ∈ [0, 8], vReadyB (vstate f) { spec3 regs3 with shapes := [fFP32, fINT32] } (fun n => n.sh.fmt == BitVec.ofNat 4 f && n.dpos.length == 8) = true) ∧
    vReadyB (vstate 0) { spec2 regs2 with shapes := [fFP32], aRow := some fINT32, aFmt := some fINT32 } (fun _ => true) = true ∧
    vReadyB (vstate 10) { spec2 regs2 with shapes := [fRS24], aRow := some fINT32, aFmt := some fINT32, rsOut := true } (fun _ => true) = true ∧
    vReadyB (vstate 8) { spec2 regs2 with shapes := [fINT32], aRow := some fRS24, aFmt := some fRS24 } (fun _ => true) = true ∧
    vReadyB (vstate 0) (spec3 { regs3 with d := .out 0 }) (fun n => n.out.any fun u => u.elems.length == 8 &&
      u.elems.all fun z => u.scale (vstate 0).mem z == none) = true := by
  refine ⟨?_, ?_, ?_, ?_, ?_, ?_, ?_⟩ <;> decide +kernel

theorem witness_VectorPatternsMovesAndConversions :
    vopReg regs3.d = some 15 ∧ vopReg regs2.d = some 15 ∧ (vopReg regs2.a).isSome = true ∧ (vstate 0).shape.mode ≠ .sr ∧
    vReadyB (vstate 0) { spec3 regs3 with shapes := [fFP32, fINT32] } (fun _ => true) = true ∧
    vReadyB (vstate 8) { spec3 regs3 with shapes := [fINT32] } (fun _ => true) = true ∧
    vReadyB (vstate 0) (spec2 regs2) (fun _ => true) = true ∧
    vReadyB (vstate 0) { spec3 { regs3 with me := false } with all := true } (fun _ => true) = true ∧
    vReadyB (vstate 8) { spec2 regs2 with shapes := [fINT32], aRow := some fFP32, aFmt := some fFP32 } (fun _ => true) = true ∧
    vReadyB (vstate 0) { spec2 regs2 with shapes := [fFP32], cls := 1 } (fun _ => true) = true := by
  refine ⟨?_, ?_, ?_, ?_, ?_, ?_, ?_, ?_, ?_, ?_⟩ <;> decide +kernel

theorem witness_VectorComparesAndMasks :
    let kind := wordKind .zero (.whole 2) .zero
    let spec (f : List Fmt) : VSpec := { d := none, srcs := [.whole 2, .zero], skind := kind, dkind := kind, me := true, t := mtok, shapes := f }
    (∀ f ∈ [0, 8, 10], vReadyB (vstate f) (spec [fFP32, fINT32, fRS24]) (fun n => n.sh.fmt == BitVec.ofNat 4 f) = true) ∧
    vReadyB (vstate 0) (spec [fFP32, fINT32]) (fun _ => true) = true ∧
    vReadyB (vstate 0) { d := none, srcs := [], skind := 0#2, dkind := 0#2, me := true, t := mtok } (fun _ => true) = true := by
  decide +kernel

theorem witness_VectorAxisWords :
    let x : VK := ⟨.whole 15, .whole 2, 3, true, mtok⟩
    let c : VK := ⟨.whole 15, .col 2, 0, true, mtok⟩
    let line (x : VK) : VSpec :=
      { d := some x.d, srcs := [x.a], skind := (x.a.regKind).getD 0#2, dkind := (x.d.regKind).getD 0#2, me := x.me, t := x.tok }
    let red (col : Bool) (f : List Fmt) : VSpec :=
      { d := some (if col then .row 15 else .col 15), srcs := [.whole 2], skind := 0#2, dkind := if col then 1#2 else 2#2, me := true, t := mtok, shapes := f }
    vopReg x.a = some 2 ∧ vopReg x.d = some 15 ∧ vopReg c.a = some 2 ∧ vReadyB (vstate 0) (line x) (fun _ => true) = true ∧
    vReadyB (vstate 0) (line c) (fun _ => true) = true ∧
    (∀ col : Bool, vReadyB (vstate 10) (red col [fFP32, fINT32, fRS24]) (fun _ => true) = true ∧
      vReadyB (vstate 8) (red col [fFP32, fINT32]) (fun n => (vLanes n).length == if col then 4 else 2) = true) := by decide +kernel

/-- Shapes at the ends of their ranges and past them; a binding of port 5 at the last place; a sampling into a row. -/
theorem witness_VectorShapeBindingAndSampling :
    let s := vstate 0
    let d : BitVec 1024 := BitVec.ofNat 1024 (own 0x1FFFE0 + 2 ^ 64 + (8 + 2 ^ 32 + 2 ^ 64 + 2 ^ 96 + 2 ^ 128 + 2 ^ 160) * 2 ^ 448 + 2 ^ 647)
    s.me.tokensOk .v mtok = true ∧ s.cur.st = .v ∧ s.me.v.outst = [] ∧ s.me.job.isSome = true ∧ s.me.fault = none ∧
    vShapeOk 0x00003FF0 = true ∧ vShapeOk 0x00004310 = true ∧ vShapeOk 0x00008310 = false ∧ vShapeOk 0x10000310 = false ∧
    (5#3).toNat < 6 ∧ 64 * (0x7FFE#15).toNat + 128 ≤ 0x200000 ∧ s.me.grantable { rd := 1#32 <<< 31 } = true ∧ vaOk d = true ∧
    fine (s.vaCore 197 (vaSet d)) = true ∧ (s.me.sys.bfmt.getD 31 0xF#15).extractLsb' 0 4 = 0xF#4 ∧
    ((0x0#15).extractLsb' 0 4 : BitVec 4).toNat ≤ 10 ∧ vopReg (.row 15) = some 15 ∧
    vReadyB s { d := some (.row 15), srcs := [.whole 2], skind := 0#2, dkind := 0#2, me := true, t := mtok } (fun n => n.spos.length == 8) = true := by
  decide +kernel

/-- A missing token; a format not accepted; a port not bound; a port with one element too few. -/
theorem witness_VectorWordsStallOrFault :
    let s := vstate 0
    let bare := running core1 .v
    let x : V3 := { regs3 with a := .inp 0 }
    s.cur.st = .v ∧ (bare.vIn (spec2 regs2)).toOption.isSome = true ∧ bare.me.tokensOk .v mtok = false ∧
    (s.me.v.outst.any fun o => !o.done) = false ∧ s.me.job.isSome = true ∧ s.me.fault = none ∧
    s.shape.fmt ∉ [fINT32] ∧ s.shape.fmt ∈ (spec3 x).shapes ∧ (spec3 x).srcs.head? = some (.inp 0) ∧ bare.me.vx.ports[0] = none ∧
    (s.me.vx.ports[0].map fun p => (vaSet (s.me.vx.sets.getD p.set 0#1024)).n == 8 && p.pos + (s.shape.pos (spec3 x).skind).length == 9) = some true := by
  decide +kernel

/-! ### Witnesses for the statements about events -/

def zeroClk : Vector (BitVec 48) 8 := Vector.replicate 8 0#48

/-- A write to a location of die 1 from die f, its earlier rival, and the state with writes on their way. -/
def wri (f : Nat) (held : Bool) : Write := ⟨30, ⟨197, 4⟩, some 5, f, 1, 0x1000000040, [(5#8, 0xFF#8), (0xAB#8, 0x0F#8)], zeroClk, held⟩
def rival : Write := ⟨20, ⟨197, 4⟩, none, 1, 1, 0x1000000041, [(1#8, 0xFF#8)], zeroClk, false⟩
def sending (l : List Write) : State := { s0 with writes := l }

/-- An earlier write of the same issuer to one of its bytes is on its way. -/
def earlier (s : State) (w : Write) : Bool :=
  s.writes.any fun o => decide (o.id < w.id) && o.by_ == w.by_ && decide (o.loc < w.loc + w.data.length) && decide (w.loc < o.loc + o.data.length)

/-- A write to bank 1 of the scratchpad of core 198, which is not its issuer's. -/
def wriBank : Write := { wri 1 false with loc := 0x200000000000 + 198 * 0x200000 + 0x1FFFE }

/-- Alone it may be applied, to HBM4E or to another core's bank; behind a rival it may not; a write of another die is ready on arrival, held and
ready, held and not; markers ready and not. -/
theorem witness_WritesReachTheirHomes :
    (∀ w ∈ [wri 1 false, wri 0 false, wri 0 true, wriBank], earlier (sending [w]) w = false ∧
      (sending [w]).behind w = false ∧ (sending [w]).stampOk w = true ∧ (sending [w]).writes.find? (fun o => o.id == w.id) = some w ∧ w.home < 8 ∧
      (sending [w]).combines = [] ∧ (sending [w]).updates = []) ∧
    (∀ w ∈ [wri 1 false, wri 0 false, wri 0 true], earlier (sending [rival, w]) w = true ∧
      (sending [rival, w]).writes.find? (fun o => o.id == w.id) = some w) ∧
    (0x200000000000 ≤ wriBank.loc ∧ wriBank.loc < 0x200000000000 + 1536 * 0x200000 ∧ (wriBank.loc - 0x200000000000) / 0x200000 ≠ wriBank.by_.core) ∧
    Memory.wf (sending [rival]).mem = true ∧
    (let m (e : BitVec 48) : Marker := ⟨8, 2, 1, e, 0⟩
     let s (e : BitVec 48) : State := { s0 with markers := [m e] }
     (s 0).markers.find? (fun o => o.id == 8) = some (m 0) ∧ (s 5).markers.find? (fun o => o.id == 8) = some (m 5) ∧
      ((s 0).die 1).cclk.getD 2 0#48 = 0#48 ∧ ((s 5).die 1).cclk.getD 2 0#48 ≠ 5#48 ∧ (s 0).writes = [] ∧ (s 0).updates = [] ∧ (s 0).combines = []) := by
  refine ⟨?_, ?_, ?_, ?_, ?_⟩ <;> decide +kernel

def ref197 : CmdRef := ⟨9, 0, .xl, 0⟩

/-- A command of XL of the job of core 197, by its word. -/
def cmdOf (w : Word) : Cmd := { id := 5, src := .xl, word := w, seq := 0, bf := Vector.replicate 32 0xF#15 }
def commanded (c : Cmd) : State := running { core1 with x := { core1.x with cmds := [c] } } .xl

/-- An update of INT32 at a home of die 1, returning or not, deterministic or not. -/
def upd (back : Option Nat) (det : Option DetRef) (st : UpdState) : Update :=
  { id := 30, ref := ref197, func := 3#8, ix := 0, core := 197, home := 1, unit := 300, loc := 0x1000000040, addr := 0x40, op := 0x00, v := 7, back := back,
    zop := false, stamp := zeroClk, word := 0, det := det, st := st }
def updating (u : Update) : State := { commanded (cmdOf 0) with updates := [u] }

/-- The command keeps n entries at unit 300. -/
def keeping (n : Nat) : State := { commanded { cmdOf 0 with hits := [(300, n)] } with updates := [upd none none .flying] }

/-- Plain updates, returning or not, are allowed; one whose stamp lies ahead is not; units with a free entry and without. -/
theorem witness_UpdatesRoundsAndCombines_updates :
    (∀ b ∈ [none, some 0x400], (updating (upd b none .flying)).updateOk (upd b none .flying) = true ∧
      (updating (upd b none .flying)).refCmd ref197 = some (197, cmdOf 0) ∧ (updating (upd b none .flying)).entriesAt 300 < 512 ∧
      ¬ (isHbm (upd b none .flying).loc = true ∧ (upd b none .flying).loc / 64 ∈ (updating (upd b none .flying)).poison)) ∧
    (let u := { upd none none .flying with core := 1000, stamp := zeroClk.set 0 1#48 }
     (updating u).updateOk u = false) ∧ Memory.wf (updating (upd none none .flying)).mem = true ∧
    (keeping 511).entriesAt 300 < 512 ∧ 512 ≤ (keeping 512).entriesAt 300 ∧ (keeping 512).updateOk (upd none none .flying) = true := by
  refine ⟨?_, ?_, ?_, ?_, ?_, ?_⟩ <;> decide +kernel

/-- A group whose record names core 197's XL, then XS, as issuers. -/
def det (core stream round ordinal : Nat) : DetRef := ⟨3#8, 0x800#64, BitVec.ofNat 32 (core + stream * 2 ^ 16), round, ordinal⟩
def detState (l : List Update) (m : List (Nat × MsuRound)) (round : Nat) : State :=
  { updating (upd none none .flying) with updates := l, groups := [{ func := 3#8, group := 0x800#64, round := round, msus := m }] }

/-- A round of two issuers, and an update of one of them, at an MSU that is serial or not. -/
def twoIssuers : MsuRound := { issuers := [11#32, 22#32], x := [0, 0] }
def updOf (i : Word) : Update := upd none (some ⟨3#8, 0x800#64, i, 0, 0⟩) .flying
def roundOf (i : Word) (serial : Bool) : State := detState [updOf i] [(roundKey 0 300, { twoIssuers with serial := serial })] 0
def inTurn (i : Word) (serial : Bool) : Bool :=
  let x := (roundOf i serial).contact ((roundOf i serial).group 3 0x800) 0 300
  decide (x.index i < x.lowest) || (x.index i == x.lowest && 0 == x.x.getD x.lowest 0)

/-- Of the two issuers the one is in turn, the other is not; the open round is the update's or, closed there, a later one is asked for; a
retry's time has come or has not. -/
theorem witness_UpdatesRoundsAndCombines_rounds :
    (∀ b ∈ [true, false], inTurn 11 b = true ∧ inTurn 22 b = false ∧
      ((roundOf 22 b).contact ((roundOf 22 b).group 3 0x800) 0 300).serial = b) ∧
    (roundOf 22 true).updateOk (updOf 22) = true ∧
    ((roundOf 22 true).group 3 0x800).openAt 300 0 (((roundOf 22 true).group 3 0x800).msus.length + 1) = 0 ∧
    ((roundOf 22 false).updates.filter fun o => o.st == .held && o.unit == 300).length < 16 ∧
    (roundOf 22 false).refCore ref197 = some 197 ∧ ((roundOf 22 false).core 197).preempt = none ∧
    900 ≤ (roundOf 22 false).clk ∧ (roundOf 22 false).clk < 1064 := by
  refine ⟨?_, ?_, ?_, ?_, ?_, ?_, ?_, ?_⟩ <;> decide +kernel

/-- A marker of the open round and of a later one; a round closed at the MSUs of its mask for which a command waits. -/
theorem witness_UpdatesRoundsAndCombines_marks :
    let m (round : Nat) : RoundMark := RoundMark.mk 44 3#8 0x800#64 11#32 round 300
    let s (round : Nat) : State := { detState [] [(roundKey 0 300, { issuers := [11#32], x := [0] })] 0 with roundMarks := [m round] }
    let done := maskMsus 1#8
    let closed : State := { detState [] (done.map fun n => (roundKey 0 n, { dmask := 1#8, issuers := [11#32], x := [0], closed := true })) 0 with
      groups := [{ func := 3#8, group := 0x800#64, waiting := [(ref197, 0)],
                   msus := done.map fun n => (roundKey 0 n, { dmask := 1#8, issuers := [11#32], x := [0], closed := true }) }] }
    let g := closed.groups.getD 0 { func := 0#8, group := 0#64 }
    (s 0).roundMarks.find? (fun x => x.id == 44) = some (m 0) ∧ ((s 0).group 3 0x800).openAt 300 0 2 = 0 ∧
    ((s 2).group 3 0x800).openAt 300 0 2 ≠ 2 ∧ closed.groups[0]? = some g ∧ (g.msus.find? fun e => e.1 / 4096 == g.round).isSome = true ∧
    (g.waiting.any fun w => w.2 == g.round) = true ∧
    (maskMsus 1#8).all (fun n => (mget? g.msus (roundKey g.round n)).any fun y => y.closed) = true := by decide +kernel

/-- A combine of rank 2 of 4 at an entry with fill bits f. -/
def row40 : Combine := ⟨40, ref197, 197, 0x1000001000, 2, [1, 2, 3, 4, 5], zeroClk⟩
def cmbState (f : Nat) : State :=
  let hdr := bytesOfNat 8 (own 0x1FFFEC) ++ [BitVec.ofNat 8 f, 4#8] ++ bytesOfNat 2 3 ++ bytesOfNat 4 5
  { commanded (cmdOf (xw .cmb)) with mem := Memory.writeN [] 0x1000001000 hdr, combines := [row40] }

/-- The entry's fields are good and the rank is in, is not in, and is the last; an entry whose rank is past nr; poison in its first line and
behind; a row whose stamp lies ahead. -/
theorem witness_UpdatesRoundsAndCombines_combines :
    let s (f : Nat) : State := cmbState f
    let rd (f o n : Nat) : Nat := Memory.readNat (s f).mem (0x1000001000 + o) n
    (∀ f ∈ [4, 1, 11], (s f).combines.find? (fun x => x.id == 40) = some row40 ∧ homeDie row40.loc < 8 ∧
      (s f).refCmd ref197 = some (197, cmdOf (xw .cmb)) ∧ (s f).combineOk row40 = true ∧ (s f).poisoned 0x1000001000 64 = false ∧
      2 < rd f 9 1 ∧ rd f 0xC 4 = 5 ∧ rd f 9 1 ≤ 8 ∧ 0x1000 + (0x40 + 4 * 5 * rd f 9 1) ≤ 0x10000 ∧ rd f 8 1 = f ∧ Memory.wf (s f).mem = true) ∧
    ¬ 4 < rd 1 9 1 ∧ ({ s 1 with poison := [0x40000040] } : State).poisoned 0x1000001000 64 = true ∧
    (({ s 11 with poison := [0x40000041] } : State).poisoned 0x1000001000 64 = false ∧
      ({ s 11 with poison := [0x40000041] } : State).poisoned 0x1000001000 (0x40 + 4 * 5 * 4) = true ∧ (s 11).poisoned 0x1000001000 (0x40 + 4 * 5 * 4) = false) ∧
    (s 1).combineOk { row40 with core := 5, stamp := zeroClk.set 2 1#48 } = false ∧
    (4 / 2 ^ 2 % 2 = 1 ∧ 1 / 2 ^ 2 % 2 = 0 ∧ (1 + 2 ^ 2) % 2 ^ 4 ≠ 2 ^ 4 - 1 ∧ 11 / 2 ^ 2 % 2 = 0 ∧ (11 + 2 ^ 2) % 2 ^ 4 = 2 ^ 4 - 1) ∧
    ((({ s 11 with combines := [] } : State).rowLocs 197 (cmdOf (xw .cmb)) (BitVec.ofNat 64 (rd 11 0 8)) 5).1.toOption.map List.length) = some 5 := by
  refine ⟨?_, ?_, ?_, ?_, ?_, ?_, ?_⟩ <;> decide +kernel

/-- A word in progress; cores with it in V, in a nest, as the mgo of a nest at its end, and with an arrived rendezvous. -/
def inV : Outst := { id := 7, push := some 1, fl := 0x21#8 }
def ending : Outst := { id := 7, push := some 1, own := true }
def vBusy : Core := { core1 with v := { core1.v with outst := [inV] } }
def nestBusy : Core := { core1 with mx := { core1.mx with outst := [inV] } }
def nestEnd : Core := { core1 with m := { core1.m with outst := [ending] }, mx := { core1.mx with go := true, goId := 7, phase := .done } }
def mBusy : Core := { core1 with m := { core1.m with outst := [inV] }, mx := { core1.mx with outst := [{ id := 8 }] } }
def waitsAt : Outst := { id := 6, push := pushFifo .xl 2, own := true }
def met : Core :=
  let r := (core1.rdv.set 2 ⟨0x13#8, 0x13#8⟩).set 1 ⟨0x13#8, 0x03#8⟩
  { core1 with rdv := r, xl := { core1.xl with st := .rendezvous 2 0x13#8, outst := [waitsAt] } }
/-- An orthogonal accumulator's word in progress whose attempts have failed f times; it found Q empty, and wrote four bytes. -/
def oaWord (f : Nat) : Outst := { id := 7, fails := f, redo := some (.oa [(scratchLoc 197 + 0x100, zeroBytes 4)] 3 4), undo := { oas := [(0, {})] } }
def replayed (f : Nat) : Core := { core1 with m := { core1.m with outst := [oaWord f] }, mx := { core1.mx with oa := core1.mx.oa.set 0 { k := 1 } } }

/-- Words of V, of M and of its nest; a nest at its end; an arrived rendezvous, one that waits, and none; replays up to the fourth. -/
theorem witness_EngineWordsComplete :
    (∀ st : Stream, (core1.eng st).st = .running ∨ (core1.eng st).st = .ended ∨ (core1.eng st).st = .absent) ∧
    (inV.done = false ∧ inV.own = false ∧ vBusy.v.outst = [inV] ∧ nestBusy.mx.outst = [inV] ∧ nestBusy.m.outst = [] ∧ mBusy.m.outst = [inV] ∧
      ∀ x ∈ mBusy.mx.outst, inV.id ≤ x.id) ∧
    (nestEnd.m.outst = [ending] ∧ nestEnd.mx.goId = 7 ∧ nestEnd.mx.go = true ∧ nestEnd.mx.phase = .done ∧ nestEnd.mx.outst = [] ∧ core1.mx.go = false ∧ ending.fl = 0#8) ∧
    (met.rdv[2].mask = 0x13#8 ∧ met.rdv[2].arrived = 0x13#8 ∧ met.rdv[1].mask ≠ met.rdv[1].arrived ∧ met.rdv[0].mask = 0#8) ∧
    (met.mx.outst = [] ∧ ∀ st ∈ [Stream.xl, .m, .v, .xs], met.rdv[2].mask.getLsbD (streamIx st) = true →
      (met.eng st).outst = [waitsAt] ∧ waitsAt.push = pushFifo st 2 ∧ waitsAt.fl = 0#8 ∧ waitsAt.done = false) ∧
    (∀ f ∈ [0, 2, 3], ((replayed f).m.outst ++ (replayed f).mx.outst).find? (fun o => !o.done && o.redo.isSome) = some (oaWord f) ∧
      (replayed f).job.isSome = true ∧ (replayed f).fault.isNone = true ∧ (replayed f).m.outst ++ (replayed f).mx.outst = [oaWord f] ∧
      (oaWord f).own = false ∧ (oaWord f).undo.mem = []) := by
  refine ⟨fun st => ?_, ?_, ?_, ?_, ?_, ?_⟩
  · cases st <;> decide +kernel
  all_goals decide +kernel

/-- Input port 0 is bound to 8 FP32 elements and read by no word yet. -/
theorem witness_EngineWordsComplete_port :
    let d : BitVec 1024 := BitVec.ofNat 1024 (own 0x1FFFE0 + 2 ^ 64 + (8 + 2 ^ 32 + 2 ^ 64 + 2 ^ 96 + 2 ^ 128 + 2 ^ 160) * 2 ^ 448 + 2 ^ 647)
    let q : VPort := ⟨1, 0, Vector.replicate 32 0#15, [], []⟩
    let c : Core := { core1 with
      code := core1.code.set 6 [wordOf (.vadd { regs3 with a := .inp 0 })]
      vx := { core1.vx with shape := 0x310#32, sets := core1.vx.sets.set 1 d, ports := core1.vx.ports.set 0 (some q) } }
    let s := running c .v
    s.me.vx.ports.getD 0 none = some q ∧ s.me.live = true ∧ q.buf.length < 2 ∧
    ((s.me.aheadSize 0).bind fun n => (s.portUse 197 0 0 n).toOption.map fun y => s.me.grantable { rd := y.banks true }) = some true := by
  decide +kernel

/-- Commands at each point: done, waiting, failed in each way, in the network. -/
theorem witness_CommandsEndOrFault :
    let w := xw fun a => .xcpy a .rne
    let c (st : CmdState) : Cmd := { cmdOf w with st := st, addr := 0x77#64 }
    let s (e : Cmd) : State := commanded e
    let ok (e : Cmd) : Bool := ((xopOfWord e.word).map fun o => (s e).completable 197 e o.x) == some true
    (s (c .issued)).cmd? 197 5 = some (c .issued) ∧ ok (c .performed) = true ∧ ok (c .issued) = false ∧ (c .performed).tagged = false ∧
    (∀ x ∈ [cXLATE, cPERM, cSTAGE_ABSENT, cXINDEX], (s { c .failed with cause := x }).cmd? 197 5 = some { c .failed with cause := x }) ∧
    (cXINDEX ≠ cXLATE ∧ cXINDEX ≠ cPERM ∧ cXINDEX ≠ cSTAGE_ABSENT) ∧ (s (c .network)).cmd? 197 5 = some (c .network) ∧
    (s (c .issued)).me.job = some job ∧ (s (c .issued)).me.fault = none ∧ s0.cmd? 197 5 = none := by decide +kernel

/-- Every stream at a rendezvous that never fills. -/
def stuck : Core :=
  let r : EngState := .rendezvous 2 0x13#8
  { core1 with q := Vector.replicate 4 { blk with st := .waiting, wword := wordOf (.rdv 2 0x13#8) }, rdv := core1.rdv.set 2 ⟨0x13#8, 0x03#8⟩
               xl := { st := r }, m := { st := r }, v := { st := r }, xs := { st := r } }

/-- Every open stream waits and nothing is in flight; one does not; a command is in flight. -/
theorem witness_CommandsEndOrFault_progress :
    (List.range 8).filter (fun i => job.expect.getLsbD i && !job.done.getLsbD i) = [0, 1, 2, 3, 4, 5, 6, 7] ∧
    (∀ n < 8, stuck.stalledAt n = true) ∧ stuck.x.cmds = [] ∧ stuck.x.queue = [] ∧
    stuck.mx.go = false ∧ stuck.mx.outst = [] ∧ stuck.job = some job ∧ stuck.fault = none ∧ stuck.preempt = none ∧
    core1.stalledAt 0 = false ∧ (commanded (cmdOf 0)).me.x.cmds ≠ [] := by decide +kernel

/-- The cells of bytes at an address: those that are not 0. -/
def cells (a : Nat) (bs : List Byte) : Memory := (bs.zipIdx.filter fun x => x.1 != 0#8).map fun x => (a + x.2, x.1)

/-- A part in which function 3 runs in partition 2, the cores 192 to 207 of die 1: one 1 GiB page maps its va to the same pa, of which it owns
the first 4 MiB. -/
def part1 : State :=
  { phase := .ready, clk := 100000, mem := [(0, 1#8), (1, 0x10#8), (0x1000, 7#8)], rot := (List.range 64).map fun i => (i, 0x103#32)
    conns := [(1, ⟨3#8⟩), (2, ⟨pfCode⟩)], parts := [(2, { cur := 3#8 })]
    funcs := [(3, { state := 1#8, part := 2#8, troot := 0#64, save := 0x10000#64, nslots := 8, quota := 1000#64, quotaNow := 1000 })]
    queues := [(4, { owner := 3#8 }), (5, { owner := 3#8, desc := some 0x1400#64, ring := 0x1000#64, lsize := 6, head := 3#32, tail := 5#32, die := 1 }),
      (6, { owner := 9#8 })]
    mg := { groups := [(24, 2#8), (25, 2#8)] } }

def jobOf (rank done : Byte) : Job := { func := 3#8, team := 50, rank := rank, size := 2#8, expect := 0x11#8, done := done }

def team50 : Team := { id := 50, item := { compl := 0x6000#64, team := 2#8 }, func := 3#8, cores := [193, 194] }

/-- Team 50 on cores 193 and, if two, 194; core 193 as f makes it. -/
def teamed (two : Bool) (f : Core → Core) : State :=
  let c (r : Byte) : Core := { core1 with job := some (jobOf r 0x01#8) }
  { part1 with cores := [(193, f (c 0)), (194, if two then c 1 else {})] }.modDie 1 fun x => { x with teams := [team50] }

def endedJob : State := teamed false fun c => { c with job := some (jobOf 0 0x11) }
def preempted (two : Bool) (slots : Nat) (os : List Outst) : State :=
  (teamed two fun c => { c with preempt := some ⟨2#8, 4⟩, mx := { c.mx with outst := os } }).modFunc 3 fun f => { f with nslots := slots }

/-- No other core runs a job of the team. -/
def loneCore (s : State) : Bool := ((s.team? 1 50).map fun m => m.cores.all fun i => i == 193 || !s.runs 50 i) == some true

/-- At its boundary the core saves no command; whether its image can be written. -/
def savable (s : State) : Bool :=
  s.boundary 193 == some (⟨2#8, 4⟩, []) && (((s.nestRecord 193 2#8).modCore 193 Core.quiesce).writeImage 193 0 2#8 [] 1).isOk

/-- A job that has ended, a core of a pre-empted one that is at its boundary and one that is not, a fault, alone in the team and not. -/
theorem witness_JobsEndSaveAndStop_cores :
    ((teamed false fun _ => {}).core 193).job.isNone = true ∧
    ((endedJob.core 193).job = some (jobOf 0 0x11) ∧ (endedJob.core 193).fault = none ∧ (jobOf 0 0x11).done = (jobOf 0 0x11).expect ∧
      (endedJob.core 193).x.cmds = [] ∧ (endedJob.core 193).x.queue = [] ∧ (endedJob.team? 1 50).isSome = true ∧ team50.saves = [] ∧ loneCore endedJob = true) ∧
    (jobOf 0 1).done ≠ (jobOf 0 1).expect ∧
    ((teamed true fun c => { c with fault := some ⟨9#8, 8#64, 7#8, 6#32, 5#8⟩ }).core 193).fault.isSome = true ∧
    savable (preempted false 8 []) = true ∧ loneCore (preempted false 8 []) = true ∧ team50.stop = none ∧ team50.faults = [] ∧
    savable (preempted true 8 []) = true ∧ loneCore (preempted true 8 []) = false ∧
    (preempted false 0 []).boundary 193 = some (⟨2#8, 4⟩, []) ∧ savable (preempted false 0 []) = false ∧
    ((preempted false 8 [inV]).boundary 193).isNone = true ∧ (endedJob.core 193).live = true ∧ ((preempted false 8 []).core 193).live = false := by
  refine ⟨?_, ?_, ?_, ?_, ?_, ?_, ?_, ?_, ?_, ?_, ?_, ?_, ?_, ?_, ?_⟩ <;> decide +kernel

/-- No team, a team that still runs, one that has settled and whose record can be written, and one whose write is on its way. -/
theorem witness_JobsEndSaveAndStop_teams :
    let s := teamed false fun _ => {}
    (s.team? 1 51).isNone = true ∧ (teamed true id).runs 50 193 = true ∧ s.team? 1 50 = some team50 ∧
    (∀ i ∈ team50.cores, s.runs team50.id i = false) ∧ team50.plan = none ∧ team50.item.evt = false ∧ team50.saves = [] ∧
    (s.hostWrite team50.func team50.item.compl (s.recordBytes 1 team50.item (team50.result (s.func team50.func).save)) false).isOk = true ∧
    (∀ w ∈ s.writes, w.id ∉ team50.trail) ∧
    (let m : Team := { team50 with trail := [30] }
     let z : State := { s with writes := [wri 1 false] }.modDie 1 fun x => { x with teams := [m] }
     z.team? 1 50 = some m ∧ ∃ w ∈ z.writes, w.id ∈ m.trail) := by
  refine ⟨?_, ?_, ?_, ?_, ?_, ?_, ?_, ?_, ?_, ?_⟩ <;> decide +kernel

def planned2 (f : PlanEng → PlanEng) : State := part1.modDie 1 fun x => { x with plan := f planEng }

/-- A waiting word of the plan engine with its answer; a sample of a tracked and of an untracked entry. -/
theorem witness_PlanAndDispatchEvents_answers :
    let c : Core := { core1 with q := core1.q.set 2 { blk with st := .waiting, wword := wordOf (.qpin 7 3) } }
    let s := { planned2 fun p => { p with answers := [(9, 0, 2, 5#64)] } with cores := [(197, c)] }
    let e : Entry := { state := 1, owner := 3#8, dims := [3], fmt := 0#4, trk := true }
    (s.die 1).plan.answers = [(9, 0, 2, 5#64)] ∧ s.refCore ⟨9, 0, .queue, 0#64⟩ = some 197 ∧ (s.core 197).q[2].st = .waiting ∧
    (s.core 197).q[2].resol = false ∧ decodeSeq (s.core 197).q[2].wword = .ok (.qpin 7 3) ∧ planDst (.qpin 7 3) = some 7 ∧
    (∀ q : Fin 4, q ≠ 2 → (s.core 197).q[q.val].st ≠ .waiting) ∧
    (let p := (planned2 fun p => { p with samples := [⟨0, 3#8, 0#4, 0x40000000⟩], catalog := [(0, e)] }).die 1 |>.plan
     p.samples = [⟨0, 3#8, 0#4, 0x40000000⟩] ∧ (p.entry 0).state = 1 ∧ (p.entry 0).trk = true ∧ (p.entry 0).owner = 3#8) ∧
    (planEng.entry 0).trk = false ∧ (planEng.entry 1).owner ≠ 3#8 := by
  refine ⟨?_, ?_, ?_, ?_, ?_, ?_, ?_, ?_, ?_, ?_⟩ <;> decide +kernel

/-- Node n of the conversion's run has its values; the run may be cancelled. -/
def broke (n : Nat) (cancel : Bool) : State := planned2 fun p =>
  { p with handles := [(6, { handle 2 with run := some { core := 193, node := n, cancel := cancel, vals := [(n, [1, 2, 3])] } })] }

/-- A cancelled run, a leaf, an output that its entry takes, and one whose entry is gone or another's. -/
theorem witness_PlanAndDispatchEvents_breaks :
    let p := (broke 1 false).die 1 |>.plan
    let nd := query2.node 1
    (∀ n ∈ [0, 1], ∀ c ∈ [true, false], ((mget? ((broke n c).die 1).plan.handles 6).bind fun h => h.run.map fun r =>
      r.cancel == c && r.node == n && mget? r.vals r.node == some [1, 2, 3] && h.query == query2 && h.stale == 0) = some true) ∧
    query2.isBreak 0 = false ∧ query2.isBreak 1 = true ∧ query2.replan = false ∧
    ((broke 1 false).writeEntry 1 3#8 ((p.entry nd.entry).broke nd ⟨nd.lab, nd.lab.map query2.extent, nd.fmt, #[1, 2, 3]⟩) [1, 2, 3] .write).isOk = true ∧
    ((p.entry nd.entry).state ≠ 0 ∧ (p.entry nd.entry).owner = 3#8) ∧
    (({ planEng with catalog := [] } : PlanEng).entry nd.entry).state = 0 ∧ (({ planEng with catalog := [(2, { state := 1, owner := 9#8 })] } : PlanEng).entry nd.entry).owner ≠ 3#8 := by
  refine ⟨?_, ?_, ?_, ?_, ?_, ?_, ?_, ?_⟩ <;> decide +kernel

/-- The 64 bytes of a work item for n cores (R223): its image, completion and shape addresses, its reserved byte r. -/
def itemBytes (image compl shape n r : Nat) : List Byte :=
  bytesOfNat 8 image ++ zeroBytes 16 ++ bytesOfNat 8 compl ++ bytesOfNat 8 shape ++ [1#8, 0#8, BitVec.ofNat 8 n, BitVec.ofNat 8 r] ++ zeroBytes 20

/-- Queue 5 has that item at its head and is mapped to slot 0 of die 1. -/
def queued (b : List Byte) (h : HQueue → HQueue) : State :=
  { part1.modQueue 5 h with mem := part1.mem ++ cells (0x1000 + 64 * 3) b }.modDie 1 fun x => { x with slots := [(0, { queue := 5 })] }

/-- The head item of the mapped queue reads as b, and its completion can be written. -/
def readsAs (b : List Byte) : Bool :=
  let s := queued b id
  (s.queue 5).head != (s.queue 5).tail && (s.queue 5).desc.isSome && (s.die 1).slotIdle 0 && (s.func 3).state == 1#8 &&
    (s.queue 5).ring + BitVec.ofNat 64 (64 * ((s.queue 5).head.toNat % 2 ^ 6)) == 0x10C0#64 && (s.hostRead 3 0x10C0#64 64).toOption == some b &&
    s.complOk 3 (itemOf b).compl

/-- An item that passes every check, and one that fails each: no core, a misaligned shape, too many cores, a reserved bit. -/
def item : List Byte := itemBytes 0x2000 0x6000 0 2 0
def item0 : List Byte := itemBytes 0x2000 0x6000 0 0 0
def itemShape : List Byte := itemBytes 0x2000 0x6000 4 2 0
def item17 : List Byte := itemBytes 0x2000 0x6000 0 17 0
def itemRes : List Byte := itemBytes 0x2000 0x6000 0 2 16

theorem witness_PlanAndDispatchEvents_items :
    readsAs item = true ∧ readsAs item0 = true ∧ readsAs itemShape = true ∧ readsAs item17 = true ∧ readsAs itemRes = true ∧
    (itemOf item0).team = 0#8 ∧ itemReserved itemRes = true ∧ ((queued item17 id).partCores 3 1).length < (itemOf item17).team.toNat ∧
    (queued itemShape id).badShape 3 4#64 = true ∧ (itemOf itemShape).shape = 4#64 ∧
    (itemReserved item = false ∧ (itemOf item).team.toNat = 2 ∧ (itemOf item).prio.toNat = 0 ∧ (itemOf item).hd = false ∧
      (itemOf item).image.toNat % 64 = 0 ∧ (itemOf item).shape = 0#64) ∧
    ((queued item fun h => { h with cancelled := [3] }).queue 5).cancelled.contains 3 = true ∧
    (((queued item id).modFunc 3 fun f => { f with state := 2#8 }).func 3).state = 2#8 := by
  refine ⟨?_, ?_, ?_, ?_, ?_, ?_, ?_, ?_, ?_, ?_, ?_, ?_, ?_⟩ <;> decide +kernel

/-- An empty queue, long enough to be unmapped and not. -/
theorem witness_PlanAndDispatchEvents_idle :
    let s := queued item fun h => { h with tail := 3 }
    (s.queue 5).head = (s.queue 5).tail ∧ (s.queue 5).closing = false ∧ 0 + 2048 ≤ s.clk ∧ ({ s with clk := 2047 } : State).clk < 0 + 2048 := by
  decide +kernel

/-- The pending queue 5 with slots 0 and 2 taken and a descriptor to read. -/
theorem witness_PlanAndDispatchEvents_mapping :
    let d : List Byte := bytesOfNat 8 0x4000 ++ [7#8, 1#8, 3#8] ++ zeroBytes 5 ++ bytesOfNat 4 9 ++ zeroBytes 44
    let s := { part1 with mem := part1.mem ++ cells 0x1400 d }.modDie 1 fun x => { x with pendq := [5, 6], slots := [(0, { queue := 9 }), (2, { queue := 8 })] }
    (part1.die 1).pendq = [] ∧ (s.die 1).pendq = [5, 6] ∧ mget? (s.die 1).slots 1 = none ∧ (∀ j < 1, (mget? (s.die 1).slots j).isSome = true) ∧
    (s.queue 5).desc = some 0x1400#64 ∧ (s.hostRead (s.queue 5).owner 0x1400#64 64).toOption = some d ∧
    parseDesc d = some (0x4000#64, 7, 1, 3, 9#32) := by
  refine ⟨?_, ?_, ?_, ?_, ?_, ?_, ?_⟩ <;> decide +kernel

/-- A lone candidate for two cores whose image of one stream can be read. -/
def lone : State :=
  let img : List Byte := bytesOfNat 4 0x4D594A42 ++ bytesOfNat 2 1 ++ [1#8, 0#8] ++ zeroBytes 2 ++ bytesOfNat 2 0 ++ bytesOfNat 4 0x108 ++ bytesOfNat 8 77 ++
    zeroBytes 8 ++ bytesOfNat 4 0x100 ++ bytesOfNat 4 2 ++ zeroBytes (0x100 - 0x28) ++ bytesOfNat 8 0x0442FFFF90000200
  let it : Item := { image := 0x2000#64, team := 2#8, compl := 0x6000#64 }
  { part1 with mem := part1.mem ++ cells 0x2000 img }.modDie 1 fun x =>
    { x with cands := [{ id := 1, kind := .queue, team := { id := 0, item := it, func := 3#8, queue := 5#16 } }], budget := 1000 }

theorem witness_PlanAndDispatchEvents_scan :
    ((lone.die 1).cands.map fun c => c.kind == .queue && !c.away && decide (c.slot < 32) && c.team.saves == [] && c.team.plan == none && lone.eligible c.team.func &&
      c.team.item.deadline == 0#64 && lone.fits 1 c && c.team.func == 3#8 && c.team.item.image == 0x2000#64) = [true] ∧
    (lone.die 1).held = [] ∧ (lone.die 1).reserving = none ∧ 0 < lone.mg.width ∧ (lone.freeCores 3 1).length = 16 := by
  refine ⟨?_, ?_, ?_, ?_, ?_⟩ <;> decide +kernel

/-- Its image reads. -/
theorem lone_locs : lone.hostLocs 3 0x2000#64 .read false 256 = .ok (List.range' 0x2000 256) := by decide +kernel
theorem lone_locs_end : lone.hostLocs 3 0x2100#64 .read false 8 = .ok (List.range' 0x2100 8) := by decide +kernel
theorem lone_image : (imageOf ((List.range' 0x2000 256 ++ List.range' 0x2100 8).map (Memory.read lone.mem))).isSome = true := by decide +kernel
theorem lone_clean : ((List.range' 0x2000 256 ++ List.range' 0x2100 8).any fun i => lone.poisoned i 1) = false := by decide +kernel
theorem lone_size : rawNat ((List.range' 0x2000 256).map (Memory.read lone.mem)) 0xC 4 = 264 := by decide +kernel


theorem lone_readImage : ∃ im, lone.readImage 3 0x2000#64 = .ok (some im) := by
  obtain ⟨im, h⟩ := Option.isSome_iff_exists.mp lone_image
  exact ⟨im, readImage_of lone_locs lone_locs_end lone_clean lone_size h⟩

/-- A hard deadline that has passed and one that is now; a hamper with room and without, and an answered one. -/
theorem witness_PlanAndDispatchEvents_deadlines :
    let m (n : Nat) : Team := { team50 with item := { team50.item with hd := true, deadline := BitVec.ofNat 64 n } }
    let s (n : Nat) : State := (teamed true id).modDie 1 fun x => { x with teams := [m n] }
    let c (n : Nat) : Cand := { id := 4, kind := .queue, team := { id := 0, item := { team := BitVec.ofNat 8 n }, func := 3#8 } }
    let h (n : Nat) (a : Option Bool) : Hamper := { id := 7, src := 0, dst := 1, cand := c n, answer := a }
    let r (n : Nat) (a : Option Bool) : State := { part1 with hampers := [h n a] }
    (s 90909).team? 1 50 = some (m 90909) ∧ (m 90909).item.deadline.toNat < (s 90909).dtime ∧ (m 90909).stop = none ∧ (m 90909).faults = [] ∧
    (s 90909).settled (m 90909) = false ∧ (s 90910).dtime ≤ (m 90910).item.deadline.toNat ∧
    (∀ n ∈ [16, 17], (r n none).hamper? 7 = some (h n none)) ∧ (r 16 (some true)).hamper? 7 = some (h 16 (some true)) ∧
    ((r 16 none).die 1).teams.length < 24 ∧ (c 16).need ≤ ((r 16 none).freeCores 3 1).length ∧ ((r 17 none).freeCores 3 1).length < (c 17).need := by
  refine ⟨?_, ?_, ?_, ?_, ?_, ?_, ?_, ?_, ?_, ?_, ?_⟩ <;> decide +kernel

/-- Functions 1, 3, 5 and 7 of partition 2, whose record is p, at DTIME 1,500,000 (a multiple of its slice and of no other's), 3 current; 1 has
credit n; function 7 has spent its quota; candidates of some functions wait at die 1; a team of function 3 may run there. -/
def ticked (p : Part) (n : Nat) (cands : List Byte) (run : Bool) : State :=
  let f : Func := { state := 1#8, part := 2#8, quotaNow := 10, quota := 10#64, windowNow := 1500 }
  let c (fn : Byte) : Cand := { id := fn.toNat, kind := .queue, team := { id := 0, func := fn } }
  let s : State :=
    { part1 with
      clk := 1649999, dtPrev := 1499999, parts := [(2, p)], cores := if run then [(193, { core1 with job := some (jobOf 0 1) })] else []
      funcs := [(1, { f with credit := n }), (3, f), (5, f), (7, { f with spent := 99 * 0x400000 * 1000000 })] }
  s.modDie 1 fun x => { x with cands := cands.map c, teams := if run then [team50] else [] }

def sliced : Part := { cur := 3#8, slice := 500 }
def standing : Part := { sliced with tick := some { at_ := 1000000, outgoing := 3#8, incoming := 5#8 } }

def bytes : List Byte := (List.range 256).map fun i => BitVec.ofNat 8 i

/-- What may come in: at all, by credit, by work. -/
def mayIn (s : State) (f : Byte) : Bool := decide (f.toNat < 64) && (s.func f).part.toNat == 2 && (s.func f).state == 1#8 && f != 3#8
def richIn (s : State) (f : Byte) : Bool := mayIn s f && decide (0 < (s.func f).credit)
def workIn (s : State) (f : Byte) : Bool := mayIn s f && (List.range 8).any fun d => (s.die d).cands.any fun c => c.team.func == f && !c.away && !c.unmapped
/-- Every die has saved its jobs of the function (R253). -/
def savedIn (s : State) (f : Byte) : Bool := (List.range 8).all fun d => s.dieSaved f d

/-- At a multiple of the slice: further slices, no choice, a choice by credit and by work, with the outgoing function saved or not; a tick that
stands, saved or not; no multiple. -/
theorem witness_ClockEvents_ticks :
    (∀ q < 32, q ≠ 2 → ((ticked sliced 4 [5, 7] false).part q).tick = none ∧ ((ticked sliced 4 [5, 7] false).part q).owed = false ∧
      (ticked sliced 4 [5, 7] false).reached (1000 * ((ticked sliced 4 [5, 7] false).part q).slice) = false) ∧
    sliced.owed = false ∧ (ticked sliced 4 [] false).reached (1000 * sliced.slice) = true ∧
    ({ ticked sliced 4 [] false with clk := 1650000, dtPrev := 1500000 } : State).reached (1000 * sliced.slice) = false ∧
    ({ sliced with extra := 2 } : Part).extra ≠ 0 ∧ sliced.extra = 0 ∧
    (bytes.all fun f => !richIn (ticked sliced 0 [] false) f && !workIn (ticked sliced 0 [] false) f) = true ∧
    (bytes.filter (richIn (ticked sliced 4 [5] false)) = [1]) ∧
    (bytes.all fun f => !richIn (ticked sliced 0 [5, 7] false) f) = true ∧ bytes.filter (workIn (ticked sliced 0 [5, 7] false)) = [5, 7] ∧
    (5#8 - 3#8).toNat ≤ (7#8 - 3#8).toNat ∧ savedIn (ticked sliced 0 [5] false) 3 = true ∧ savedIn (ticked sliced 0 [5] true) 3 = false ∧
    standing.tick.isSome = true := by
  refine ⟨?_, ?_, ?_, ?_, ?_, ?_, ?_, ?_, ?_, ?_, ?_, ?_, ?_, ?_⟩ <;> decide +kernel

/-- The deadlines of a tick that stands: before the first, at it, at it again, and at the second; a die that is late. -/
theorem witness_ClockEvents_deadlines :
    let s (n : Nat) : State := { ticked standing 0 [] true with clk := n }
    (∀ y, standing.tick = some y → y.escalated = false ∧ y.extended = false) ∧
    (List.range 8).filter (fun d => !(s 0).dieSaved 3 d) = [1] ∧ (s 1209998).dtime < 1000000 + 1000 * standing.tsd ∧
    1000000 + 1000 * standing.tsd ≤ (s 1209999).dtime ∧ (s 1264998).dtime < 1000000 + 1500 * standing.tsd ∧
    1000000 + 1500 * standing.tsd ≤ (s 1264999).dtime ∧ standing.voids.getD 1 0#8 < 2#8 ∧ sliced.late = [] ∧ sliced.tick = none := by
  refine ⟨fun y h => ?_, ?_, ?_, ?_, ?_, ?_, ?_, ?_, ?_⟩
  · cases h; decide
  all_goals decide +kernel

/-- A function out of its quota and one with quota left; a window that starts for a held function, with and without debt; no function and some
functions enabled; a scrub that has ended and one that has not. -/
theorem witness_ClockEvents_quotas :
    let s := ticked sliced 0 [] false
    let out (f : Byte) : Bool := (s.func f).quotaNow != 0 && (s.func f).state == 1#8 && decide ((s.func f).remain ≤ 0)
    let n (f : Byte) : Func :=
      let r := s.func f
      { r with debt := min 0 r.remain, spent := 0, quotaNow := r.quota.toNat, windowNow := r.window }
    out 7 = true ∧ out 3 = false ∧ s.reached (1000000 * (s.func 3).windowNow) = false ∧
    ({ s with clk := 1649999999, dtPrev := 1499999999 } : State).reached (1000000 * (s.func 3).windowNow) = true ∧ (0 < (n 3).remain) ∧ ¬ 0 < (n 7).remain ∧
    (bytes.all fun f => !(f.toNat < 64 && (({ part1 with funcs := [] } : State).func f).state == 1#8)) = true ∧
    (let z : State := { part1 with cores := [(9, { core1 with scrub := some (3#8, 100000) }), (10, { core1 with scrub := some (3#8, 100001) })] }
     (z.core 9).scrub = some (3#8, 100000) ∧ 100000 ≤ z.clk ∧ z.clk < 100001) := by
  refine ⟨?_, ?_, ?_, ?_, ?_, ?_, ?_, ?_⟩ <;> decide +kernel

def msg (c : Nat) (f : Byte) (us : List Nat) : Falig :=
  { conn := c, version := 1, len := BitVec.ofNat 16 (8 * us.length), func := f, corr := 77, rsvd := 0, body := us.flatMap (bytesOfNat 8) }

/-- The message is well-formed, of its connection's function, and holds the units. -/
def holds (m : Falig) (ws us : List Nat) : Bool :=
  (mget? part1.conns m.conn).any fun c => !badHeader m && m.func == c.func && unitsOf m.body ws == some us

/-- A bad header, a function that is not the connection's, MODULE_SET of the PF and of a function, and each message with its units. -/
theorem witness_HostMessages_units :
    badHeader { msg 1 3 [7] with version := 2 } = true ∧ badHeader (msg 1 8 [7]) = false ∧ mget? part1.conns 1 = some ⟨3#8⟩ ∧ part1.phase = .ready ∧
    holds (msg 2 pfCode [7]) [2] [7] = true ∧ holds (msg 1 3 [7]) [2] [7] = true ∧ holds (msg 1 3 [4, 0x1400]) [2, 8] [4, 0x1400] = true ∧
    holds (msg 1 3 [4095, 0xFFFFFFFF]) [2, 4] [4095, 0xFFFFFFFF] = true ∧ holds (msg 1 3 [41, 0]) [4, 1] [41, 0] = true ∧
    holds (msg 1 3 [0, 0]) [8, 8] [0, 0] = true ∧ holds (msg 1 3 [9, 0x1234, 5, 77]) [1, 2, 1, 8] [9, 0x1234, 5, 77] = true ∧
    holds (msg 1 3 [0x8040, 16]) [8, 1] [0x8040, 16] = true ∧ holds (msg 1 3 [1, 2, 3, 4]) [8, 8, 8, 8] [1, 2, 3, 4] = true ∧
    (∀ a ∈ part1.round, a.isScan = true) ∧ ¬ (∀ a ∈ ({ part1 with round := [.overload 1, .event (.dispatchScan 1)] } : State).round, a.isScan = true) ∧
    ({ part1 with phase := .reset } : State).phase = .reset ∧ mget? ({ part1 with phase := .reset } : State).conns 1 = some ⟨3#8⟩ := by decide +kernel

/-- Queue numbers past the last, of another function, not bound, and bound; a descriptor that reads as valid, one that does not, and a
misaligned one. -/
theorem witness_HostMessages_queues :
    let d : List Byte := bytesOfNat 8 0x4000 ++ [7#8, 1#8, 3#8] ++ zeroBytes 5 ++ bytesOfNat 4 9 ++ zeroBytes 44
    let s : State := { part1 with mem := part1.mem ++ cells 0x1400 d }
    let u := s.etherCharge 3 (16 + 16)
    holds (msg 1 3 [4096, 0]) [2, 8] [4096, 0] = true ∧ (s.queue 6).owner ≠ 3#8 ∧ (s.queue 5).owner = 3#8 ∧ (s.queue 5).desc.isSome = true ∧
    ((s.queue 4).owner = 3#8 ∧ (s.queue 4).desc = none ∧ (s.queue 4).closing = false ∧ (u.hostRead 3 0x1400#64 64).toOption = some d ∧
      parseDesc d = some (0x4000#64, 7, 1, 3, 9#32) ∧ 0x1400 % 64 = 0) ∧
    ((part1.etherCharge 3 (16 + 16)).hostRead 3 0x2001#64 64).isOk = true ∧ 0x2001 % 64 ≠ 0 ∧ (u.hostRead 3 0x400000#64 64).isOk = false := by
  refine ⟨?_, ?_, ?_, ?_, ?_, ?_, ?_, ?_⟩ <;> decide +kernel

/-- A running team of a bound queue's item, and one of which a rank is saved. -/
theorem witness_HostMessages_cancel :
    let m : Team := { team50 with queue := 5#16, item := { team50.item with wid := 0x77#32 } }
    let s : State := (teamed true id).modDie 1 fun x => { x with teams := [m] }
    holds (msg 1 3 [5, 0x77]) [2, 4] [5, 0x77] = true ∧ (s.queue 5).owner = 3#8 ∧ (s.queue 5).desc.isSome = true ∧ m.queue.toNat = 5 ∧ m.plan = none ∧
    m.item.wid.toNat = 0x77 ∧ m.faults = [] ∧ s.settled m = false ∧ s.runs m.id 193 = true ∧ (s.core 193).jobOver = false ∧
    ({ m with saves := [⟨1, 7, 3, 9, {}, none⟩] } : Team).saves ≠ [] := by
  refine ⟨?_, ?_, ?_, ?_, ?_, ?_, ?_, ?_, ?_, ?_, ?_⟩ <;> decide +kernel

/-- An entry of the function for a block stream that waits on it, answered either way; of another function; no entry; answer 2. -/
theorem witness_HostMessages_faults :
    let e (f : Byte) : FaultEntry := { id := 41, func := f, core := 193, stream := 1#8, team := 50, rank := 0, cmd := none, cause := cXLATE, addr := 0x50000#64 }
    let s (f : Byte) : State := (teamed false fun c => { c with q := c.q.set 1 { blk with st := .waiting, resol := true, trpc := 5 } }).modDie 1 fun x => { x with fq := [e f] }
    41 % 8 = 1 ∧ ((s 3).die 1).fq = [e 3] ∧ ((s 8).die 1).fq = [e 8] ∧ (e 8).func ≠ 3#8 ∧ ((s 3).die 1).fqWait = [] ∧ (e 3).cmd = none ∧
    (s 3).jobCore (e 3).team (e 3).rank = some 193 ∧ (e 3).stream.toNat = (1 : Fin 4).val ∧ ((s 3).core 193).q[1].st = .waiting ∧
    ((s 3).core 193).q[1].resol = true ∧ ((s 3).core 193).job.isSome = true ∧ ((s 3).core 193).fault = none ∧ (part1.die 1).fq = [] := by
  refine ⟨?_, ?_, ?_, ?_, ?_, ?_, ?_, ?_, ?_, ?_, ?_, ?_, ?_⟩ <;> decide +kernel

/-- A range without length at an address and everything; an event ring that is misaligned, too small or too large, and the largest. In
fallow mode a load of nothing at 0, and one that is too long. -/
theorem witness_HostMessages_others :
    let s : State := { part1 with phase := .fallow }
    let long : Falig := { msg 1 3 [0] with len := 4032, body := zeroBytes 4032 }
    holds (msg 1 3 [1, 0]) [8, 8] [1, 0] = true ∧ holds (msg 1 3 [0x8041, 6]) [8, 1] [0x8041, 6] = true ∧ holds (msg 1 3 [0x8040, 5]) [8, 1] [0x8040, 5] = true ∧
    holds (msg 1 3 [0x8040, 17]) [8, 1] [0x8040, 17] = true ∧ (part1.func 3).ring = none ∧ s.phase = .fallow ∧ holds (msg 1 3 [0]) [8] [0] = true ∧
    (msg 1 3 [0]).body.drop 8 = [] ∧ 0 + ([] : List Byte).length ≤ Config.imageArea ∧ holds long [8] [0] = true ∧ 4016 < (long.body.drop 8).length ∧
    s.verify = none ∧ ({ s with verify := some (msg 1 3 []) } : State).verify.isSome = true := by
  refine ⟨?_, ?_, ?_, ?_, ?_, ?_, ?_, ?_, Nat.zero_le _, ?_, ?_, ?_, ?_⟩ <;> decide +kernel

/-- A function code, one that is none, reads and writes that pass, a write that no page takes, one byte too long, and a part not ready. Which connections
of fallow mode stand on port 0 and are authenticated rests on the part's opaque configuration: the statement speaks of either. -/
theorem witness_HostWindows_memory :
    let u (n : Nat) : State := part1.etherCharge 3 n
    ((63#8 : Byte).toNat < 64 ∧ part1.phase = .ready ∧ ({ part1 with phase := .fallow } : State).phase = .fallow ∧ 64 ≤ (0x40#8 : Byte).toNat ∧
      0x40#8 ≠ pfCode) ∧ mget? part1.conns 1 = some ⟨3#8⟩ ∧ ((u 3).hostWrite 3 0x3FFFFD#64 [1#8, 2#8, 3#8] false).isOk = true ∧
    ((u 3).hostWrite 3 0x3FFFFE#64 [1#8, 2#8, 3#8] false).isOk = false ∧ ((u 5).hostLocs 3 0x3FFFFB#64 .read false 5).isOk = true ∧
    0x10000 < 0x10001 := by
  refine ⟨?_, ?_, ?_, ?_, ?_, ?_⟩ <;> decide +kernel

/-- Doorbells: the same tail, the fullest ring; an event ring's. -/
theorem witness_HostWindows_doorbells :
    let w (n v : Nat) : WinWrite := ⟨1, n, bytesOfNat 8 v⟩
    let s : State := part1.modFunc 3 fun f => { f with ring := some { base := 0x8040#64, lsize := 7 } }
    (w 40 5).data.length = 8 ∧ (w 40 5).off = 8 * 5 ∧ (part1.queue 5).owner = 3#8 ∧ (part1.queue 5).desc.isSome = true ∧
    rawNat (w 40 5).data 0 8 = (part1.queue 5).tail.toNat ∧ rawNat (w 40 67).data 0 8 = 67 ∧ 67 ≠ (part1.queue 5).tail.toNat ∧
    67 ≠ (part1.queue 5).head.toNat ∧ (BitVec.ofNat 32 67 - (part1.queue 5).head).toNat ≤ 2 ^ (part1.queue 5).lsize ∧ (part1.queue 5).die < 8 ∧
    (w (0x8000 + 8 * 3) 9).off = 0x8000 + 8 * (3#8 : Byte).toNat ∧ (s.func 3).ring = some { base := 0x8040#64, lsize := 7 } ∧
    rawNat (w 0x8018 9).data 0 8 < 2 ^ 32 := by
  refine ⟨?_, ?_, ?_, ?_, ?_, ?_, ?_, ?_, ?_, ?_, ?_, ?_, ?_⟩ <;> decide +kernel

/-- Management writes of the PF at the ends of each range: a slice, a root of an enabled and of a disabled function, an enabling with save
slots enough and one short, a reset, a core group, a hedgerow slot, an ownership entry. -/
theorem witness_HostWindows_management :
    let s : State := part1
    let v (n : Nat) : State := part1.modFunc 4 fun f => { f with part := 2#8, nslots := n }
    mget? s.conns 2 = some ⟨pfCode⟩ ∧ mget? s.conns 1 = some ⟨3#8⟩ ∧ (3#8 : Byte) ≠ pfCode ∧
    ((bytesOfNat 4 100000).length = 4 ∧ natOfBytes (bytesOfNat 4 100000) = 100000 ∧ natOfBytes (bytesOfNat 4 99) = 99 ∧ 0x4200 + 64 * 31 = 0x49C0) ∧
    (10 ≤ (s.part 2).tsd ∧ (s.part 2).tsd ≤ 10000) ∧ ((s.func 3).state = 1#8 ∧ (s.func 4).state = 0#8) ∧
    ((v 31).func 4).nslots % 2 ^ 32 < 2 * (v 31).groupCores 2 ∧ ¬ ((v 32).func 4).nslots % 2 ^ 32 < 2 * (v 32).groupCores 2 ∧ ((v 32).func 4).part ≠ 0xFF#8 ∧
    (1 ≤ s.mg.width ∧ s.mg.width ≤ 4 ∧ 1 ≤ s.mg.tage ∧ s.mg.tage ≤ 1000) ∧
    (mget s.mg.groups (24 * 1 + 0) 0xFF#8 = 2#8 ∧ s.groupBusy 1 0 = false ∧ (teamed true id).groupBusy 1 0 = true ∧ (192 * 1 + 8 * 0 + 0) ∉ s.failed) ∧
    s.mg.hedge.length < 240 ∧
    (let d := bytesOfNat 8 0x50000 ++ bytesOfNat 4 0x105
     d.length = 12 ∧ rawNat d 0 8 % 0x10000 = 0 ∧ s.populated (rawNat d 0 8) 0x10000 = true ∧ rotOk (BitVec.ofNat 32 (rawNat d 8 4)) = true ∧
      rotOk 0xFFFFFFFF#32 = false) ∧
    (let z : State := { s with mg := { s.mg with rotAddr := 0x50000#64 } }
     (bytesOfNat 4 0x105).length = 4 ∧ z.mg.rotAddr.toNat % 0x10000 = 0 ∧ z.populated z.mg.rotAddr.toNat 0x10000 = true ∧ rotOk (BitVec.ofNat 32 (natOfBytes (bytesOfNat 4 0x105))) = true ∧
      (1 : Nat) % 0x10000 ≠ 0) := by
  refine ⟨?_, ?_, ?_, ?_, ?_, ?_, ?_, ?_, ?_, ?_, ?_, ?_, ?_, ?_⟩ <;> decide +kernel

/-- Whether an image verifies rests on the part's opaque keys (log 14): the statement speaks of either result. A running part, one in reset, temperatures at each boundary, sectors for fallow mode and for a start, and what makes each stage fail. -/
theorem witness_PowerAndStart :
    let e (n : Nat) : Env := { failStage := n }
    part1.phase = .ready ∧ State.reset.phase = .reset ∧ State.reset.boot.closed = true ∧ State.reset.boot.magic = 0x42535354#32 ∧
    State.reset.boot.count.toNat < 3 ∧ 3 ≤ ({ count := 3#8 } : Boot).count.toNat ∧ ({ magic := 0#32 } : Boot).magic ≠ 0x42535354#32 ∧
    State.reset.env.cutStage = 0 ∧ (∀ n ∈ [2, 4, 5, 8], (e n).failStage = n) ∧ ({ cutStage := 1 } : Env).trip = false ∧
    (∀ i < 192, 192 * 7 + i ∈ ({ failedCores := (List.range 192).map fun i => 1344 + i } : Env).failedCores) ∧
    (95 : Int) ≤ 95 ∧ ¬ (96 : Int) ≤ 95 ∧ ¬ 105 ≤ (104 : Int) ∧ 105 ≤ (105 : Int) ∧ ¬ 110 ≤ (109 : Int) ∧
    ({ part1 with clk := 1100000, dtPrev := 999999 } : State).reached 1000000 = true ∧ part1.reached 1000000 = false ∧
    ({ part1 with phase := .fallow } : State).phase = .fallow ∧ ({ closed := false } : Boot).closed = false := by
  refine ⟨?_, ?_, ?_, ?_, ?_, ?_, ?_, ?_, ?_, ?_, ?_, ?_, ?_, ?_, ?_, ?_, ?_, ?_, ?_, ?_⟩ <;> decide +kernel

/-! ### The spec's worked examples -/

/-- Chapter 5's examples of `clz` and `bfxs`. -/
theorem test_clz_example : leaves (.clz 4 5) (regs [(5, 0x10000)] s0) 4 47 = true := by decide +kernel
theorem test_bfxs_example : leaves (.bfxs 6 5 8 60) (regs [(5, 0xF000000000000000)] s0) 6 0xF = true := by decide +kernel

/-- R137's example: `tffr g9, g8` with g8 = 0xF0 and TAGS = 0x60 writes 5 and leaves TAGS = 0x40. -/
theorem test_tffr_example : answers (.tffr 9 8) (regs [(8, 0xF0)] (tagged 0x60)) (fun t => t.g 9 == 5 && t.me.sys.tags == 0x40) = true := by
  decide +kernel

/-- Chapter 3's examples: 1,000,000 as RS24, and a sum that wraps. -/
theorem test_rs24_example : (rsEncode 1000000 == 0x919010 && rsDecode (treeAdd kRS24 (rsEncode 8000000) (rsEncode 200000)).1 == -7993265) = true := by
  decide +kernel

/-- Chapter 13's example: a group of the products 1.0, 2^−24, 2^−24 and −2^−45 gives 0x3F80_0001 and NX. -/
theorem test_chunk_example : chunkDot 32 40 [f32 0x3F800000, f32 0x33800000, f32 0x33800000, f32 0xA9000000] (List.replicate 4 (f32 0x3F800000)) =
    (0x3F800001, fNX) := by decide +kernel

/-- Chapter 7's example: ranks 1.0, 2^−24 and 2^−24 combine to 1.0, whatever their order of arrival. -/
theorem test_combine_example :
    combineSum (cells 0x40 (bytesOfNat 4 0x3F800000 ++ bytesOfNat 4 0x33800000 ++ bytesOfNat 4 0x33800000)) 0 1 0 2 = 0x3F800000 := by
  decide +kernel

/-- R184's example: the core set 0x0000_0000_0004_0402 of `xmcs` names cores 2, 6, 10 and 14. -/
theorem test_core_set_example : coreSet 0x40402 = some [2, 6, 10, 14] := by decide +kernel

/-! ### Engine words on a small state -/

/-- A store's write arrives: its two bytes stand in the scratchpad, low byte first. -/
theorem test_store_then_applied : answers (.stH 3 1 0) (regs [(3, 0x1234)] s0) (fun t =>
    answers (.writeApplied ((t.writes.map fun w => w.id).headD 0)) t fun u =>
      u.writes == [] && Memory.readN u.mem (scratchLoc 197 + 16) 4 == [0x34#8, 0x12#8, 0xFF#8, 0xFF#8]) = true := by decide +kernel

/-- 1.0 in every lane of v2 and 2^−24 in lane (1, 3) of v3 over the shape of 2 by 4. -/
def lanes (f : Nat) : State := (vstate f).modCore 197 fun c => { c with vx := { c.vx with
  regs := (((List.range 2).flatMap fun r => (List.range 4).map fun i => (lane 2 (r, i), 0x3F800000)) ++ [(lane 3 (1, 3), 0x40000000)]) } }

theorem test_vadd_adds_lane_by_lane : answers (.vadd { regs3 with me := false }) (lanes 0) (fun t =>
    mget t.me.vx.regs (lane 15 (1, 3)) 0 == 0x40400000 && mget t.me.vx.regs (lane 15 (0, 0)) 0 == 0x3F800000 &&
      mget t.me.vx.regs (lane 15 (0, 4)) 0 == 0) = true := by decide +kernel
theorem test_vsub_int32 : answers (.vsub { regs3 with me := false }) (lanes 8) (fun t =>
    mget t.me.vx.regs (lane 15 (1, 3)) 0 == 0xFF800000 && mget t.me.vx.regs (lane 15 (0, 1)) 0 == 0x3F800000) = true := by decide +kernel

/-- `fence.core` with nothing on its way moves on. -/
theorem test_fence_core : answers (.fence .core) s0 (fun t => t.blk.pc == 6) = true := by decide +kernel
theorem test_mrd_job : answers (.mrd 14 .job) s0 (fun t => t.g 14 == 0 && t.blk.pc == 6) = true := by decide +kernel

/-! ### Witnesses for the further clauses -/

/-- The last register of a run, and a run that starts past its end. -/
theorem witness_SpillAndFillMoveARun_ends :
    let s (i : BitVec 5) : State := (scr (0x200000 - 240)).modBlk fun b => { b with trprog := i }
    (s 29).blk.trprog.toNat < (31#5).toNat - (2#5).toNat + 1 ∧ (31#5).toNat - (2#5).toNat + 1 ≤ (s 30).blk.trprog.toNat ∧
    ((s 29).g 1).toNat = 0x1000000000000000 + (0x200000 - 240) := by decide +kernel

/-- Tags that another clearing wait of the clk has claimed: twany still holds, twall and tffr see less. -/
theorem witness_TagWaits_hidden :
    let s (h : Dword) : State := s0.modCore 197 fun c => { c with sys := { c.sys with tags := 7, tagsNew := 7, tagsHid := h } }
    (s 2).me.sys.tags &&& ~~~(s 2).me.sys.tagsHid &&& (s 2).g 3 = 5#64 ∧ (s 2).g 3 = 7#64 ∧
    (s 7).me.sys.tags &&& ~~~(s 7).me.sys.tagsHid &&& (s 7).g 3 = 0#64 ∧ (s 2).blk.st = .ready ∧ (s 2).blk.wword = 0#32 := by decide +kernel

/-- A store on its way; a mask without the own stream; one that differs from the pending mask; a stream that is absent; one that has ended. -/
theorem witness_RdvRecordsTheArrival_misuse :
    let s (e d : Byte) : State := s0.modCore 197 fun c => { c with job := some { job with expect := e, done := d } }
    (∃ w ∈ (writing false).writes, w.by_ = ⟨197, 0⟩) ∧ (0x80#8).getLsbD s0.cur.q.val = false ∧
    (let t := s0.modCore 197 fun c => { c with rdv := c.rdv.set 3 ⟨0x83#8, 0x80#8⟩ }
     t.me.rdv[3].mask ≠ 0#8 ∧ t.me.rdv[3].mask ≠ 0x81#8) ∧
    (s 0x7F 0).me.job = some { job with expect := 0x7F#8, done := 0#8 } ∧ 0x81#8 &&& ~~~(0x7F#8) ≠ 0#8 ∧ 0x81#8 &&& (0x80#8 : Byte) ≠ 0#8 ∧
    (s 0xFF 0x80).me.fault = none ∧ (s 0xFF 0x80).writes = [] := by decide +kernel

/-- M while a nest runs, and V behind a word in progress. -/
theorem witness_UnassignedEngineWordsFaultTheJob_waits :
    let s := running { core1 with mx := { core1.mx with go := true } } .m
    s.cur.st = .m ∧ s.me.mx.go = true ∧ s.cur.nest = false ∧ (running vBusy .v).cur.st = .v ∧ (∃ o ∈ (running vBusy .v).me.v.outst, o.done = false) := by
  decide +kernel

/-- A command of the stream that waits on resolution, before a release and before a push. -/
theorem witness_TransferWordsStallOrFault_resolution :
    let c : Cmd := { id := 1, src := .xl, word := 0, seq := 0, bf := Vector.replicate 32 0xF#15, st := .resolution }
    let s := running { xcore with x := { xcore.x with cmds := [c] } } .xl
    (s.me.x.cmds.filter fun c => c.src == (if s.cur.st = .xs then .xs else .xl)) = [c] ∧ c.st = .resolution ∧ s.cur.entry = none ∧
    (⟨1, 2, 5, false, true, .stream, ⟨0, 0⟩⟩ : XArgs).rel = true ∧ (⟨0, 2⟩ : Tok).push ≠ 0#2 := by decide +kernel

/-- Tokens behind earlier words of the stream and in a nest; a push that a resolution holds back. -/
theorem witness_TokenWords_others :
    let o : Outst := { id := 3, push := some 2 }
    let xl := running { xcore with xl := { xcore.xl with outst := [o] } } .xl
    let nest : State := { running { xcore with m := { xcore.m with outst := [{ id := 3, own := true }] } } .m with cur := { k := 197, q := 0, st := .m, nest := true } }
    let c : Cmd := { id := 1, src := .xl, word := 0, seq := 0, bf := Vector.replicate 32 0xF#15, st := .resolution }
    let held := running { xcore with x := { xcore.x with cmds := [c] } } .xl
    (xl.me.tokensOk .xl ⟨1, 2⟩ = true ∧ xl.cur.nest = false ∧ xl.me.x.cmds = [] ∧ (xl.me.eng .xl).outst = [o]) ∧
    (nest.me.tokensOk .m ⟨1, 2⟩ = true ∧ nest.cur.nest = true ∧ nest.cur.st = .m ∧ nest.me.mx.outst = [] ∧
      ∀ x ∈ nest.me.m.outst, x.own = true ∧ x.done = false) ∧
    (held.cur.st = .xl ∧ c ∈ held.me.x.cmds ∧ c.src = .xl ∧ c.st = .resolution) := by
  refine ⟨?_, ?_, ?_⟩ <;> decide +kernel

/-- A bank that is held, an output port with two operands, and a word in progress. -/
theorem witness_VectorWordsStallOrFault_busy :
    let s (l : List Outst) : State := (vstate 0).modCore 197 fun c => { c with v := { c.v with outst := l } }
    let out : V3 := { regs3 with d := .out 0 }
    let two : List Outst := [{ id := 3, port := some 4 }, { id := 4, port := some 4 }]
    (((s [{ id := 3, wr := 0xFFFFFFFF#32 }]).vIn (spec3 out)).toOption.map fun n => (s [{ id := 3, wr := 0xFFFFFFFF#32 }]).me.grantable n.locks) = some false ∧
    (((s two).vIn (spec3 out)).toOption.map fun n => n.out.map fun u => u.port) = some (some 4) ∧
    2 ≤ ((s two).me.v.outst.filter fun o => !o.done && o.port == some 4).length ∧ ((s two).me.v.outst.any fun o => !o.done) = true := by
  refine ⟨?_, ?_, ?_, ?_⟩ <;> decide +kernel

/-- An update whose command is gone, and one behind earlier writes of its die. -/
theorem witness_UpdatesRoundsAndCombines_gone :
    let u : Update := { upd none none .flying with ref := ⟨8, 0, .xl, 0⟩ }
    let v : Update := { upd none none .flying with core := 3 }
    (updating u).refCmd u.ref = none ∧ (updating u).updateOk u = true ∧ (updating u).entriesAt 300 < 512 ∧
    ({ updating v with writes := [{ rival with src := 0 }] } : State).updateOk v = false := by
  refine ⟨?_, ?_, ?_, ?_⟩ <;> decide +kernel

/-- A spillm under way, which a pre-emption stops, a word of another kind, and a team that something has stopped. -/
theorem witness_JobsEndSaveAndStop_runs :
    let w := wordOf (.spillm 2 1 31)
    let b : Block := { blk with pc := 1, busy := true, trprog := 3 }
    let c : Core := { core1 with code := Vector.replicate 8 [0, w], q := Vector.replicate 4 b }
    let s (m : Team) : State := (preempted false 8 []).modDie 1 fun x => { x with teams := [m] }
    c.live = true ∧ (vget c.code 0 [])[b.pc.toNat]? = some w ∧ decodeSeq w = .ok (.spillm 2 1 31) ∧ decodeSeq 0 ≠ .ok (.spillm 2 1 31) ∧
    (∀ m ∈ [{ team50 with stop := some 4#16 }, { team50 with faults := [(194, ⟨3#8, 8#64, 7#8, 6#32, 5#8⟩)] }],
      (s m).team? 1 50 = some m ∧ loneCore (s m) = true ∧ savable (s m) = true) := by
  refine ⟨?_, ?_, ?_, ?_, ?_⟩ <;> decide +kernel

/-- A slot whose queue has had 64 dispatches while another queue is pending; a die overloaded at the first clk at which it is, and not before; a
hamper whose item was cancelled, and one that carries a saved rank. -/
theorem witness_PlanAndDispatchEvents_others :
    let c : Cand := { id := 1, kind := .queue, slot := 0, team := { id := 0, func := 3#8, queue := 5#16 } }
    let s : State := part1.modDie 1 fun x => { x with pendq := [6], slots := [(0, { queue := 5, sent := 64 })], cands := [c] }
    let o (n : Nat) : State := part1.modDie 1 fun x => { x with overload := [(3, n)] }
    let h (can : Bool) (l : List Saved) : Hamper := { id := 7, src := 0, dst := 1, cand := { c with team := { c.team with saves := l } }, cancelled := can }
    let r (can : Bool) (l : List Saved) : State := { part1 with hampers := [h can l] }
    ((s.die 1).pendq ≠ [] ∧ mget? (s.die 1).slots 0 = some { queue := 5, sent := 64 } ∧ ∀ y ∈ (s.die 1).cands, y.kind = .queue → y.slot = 0 → y.away = false) ∧
    ((∃ x ∈ ((o 95904).die 1).overload, x.2 + 4096 ≤ (o 95904).clk) ∧ ¬ (∃ x ∈ ((o 95905).die 1).overload, x.2 + 4096 ≤ (o 95905).clk) ∧
      ((o 95905).die 1).overloaded = false) ∧
    ((r true []).hamper? 7 = some (h true []) ∧ (h true []).answer = none ∧ (r false [⟨1, 7, 3, 9, {}, none⟩]).hamper? 7 = some (h false [⟨1, 7, 3, 9, {}, none⟩]) ∧
      (h false [⟨1, 7, 3, 9, {}, none⟩]).cand.need ≤ ((r false []).freeCores 3 1).length) := by
  refine ⟨?_, ?_, ?_⟩ <;> decide +kernel

/-- A tick that a held function owes, with its saves complete and not; all functions' meters stopped. -/
theorem witness_ClockEvents_owed :
    let p : Part := { sliced with owed := true }
    let s (run : Bool) : State := { ticked p 0 [5] run with clk := 1650000, dtPrev := 1500000 }
    let z : State := { part1 with funcs := (List.range 64).map fun f => (f, { state := 3#8 }) }
    ((s false).part 2).owed = true ∧ ((s false).part 2).tick = none ∧ savedIn (s false) 3 = true ∧ savedIn (s true) 3 = false ∧
    (s true).reached (1000 * sliced.slice) = false ∧ (bytes.filter (workIn (s false)) = [5]) ∧
    (bytes.all fun f => !richIn (s false) f) = true ∧ (bytes.all fun f => 64 ≤ f.toNat || (z.func f).state == 3#8) = true := by
  refine ⟨?_, ?_, ?_, ?_, ?_, ?_, ?_, ?_⟩ <;> decide +kernel

/-- A descriptor that no page holds; a queue that closes; candidates of the queue here, in a hamper, and away; an entry posted at another die. -/
theorem witness_HostMessages_further :
    let u := part1.etherCharge 3 (16 + 16)
    let s : State := part1.modQueue 5 fun h => { h with desc := none, closing := true }
    let c : Cand := { id := 1, kind := .queue, team := { team50 with id := 0, queue := 5#16, item := { wid := 0x77#32 } } }
    let e : FaultEntry := { id := 40, func := 3#8, core := 193, stream := 1#8, team := 50, rank := 0, cmd := none, cause := cXLATE, addr := 0x5FFFF#64 }
    let f : State := (teamed false fun c => { c with q := c.q.set 1 { blk with st := .waiting, resol := true, trpc := 5 } }).modDie 0 fun x => { x with fqWait := [e] }
    (u.hostRead 3 0x400000#64 64).isOk = false ∧ (part1.queue 4).desc = none ∧ (s.queue 5).closing = true ∧ (s.queue 5).owner = 3#8 ∧
    (c.team.queue.toNat = 5 ∧ c.team.plan = none ∧ c.team.item.wid.toNat = 0x77 ∧ c.away = false) ∧
    (e ∈ (f.die 0).fqWait ∧ e.addr.toNat / 0x10000 = 0x50000 / 0x10000 ∧ f.jobCore e.team e.rank = some 193 ∧ e.stream.toNat = 1 ∧
      (f.core 193).q[1].st = .waiting ∧ (f.core 193).q[1].resol = true) := by
  refine ⟨?_, ?_, ?_, ?_, ?_, ?_⟩ <;> decide +kernel

/-- A read that no page gives, a poisoned one, and the last byte of a row of the core group map, which is no group. -/
theorem witness_HostWindows_others :
    let u : State := part1.etherCharge 3 5
    (u.hostLocs 3 0x3FFFFC#64 .read false 5).isOk = false ∧ (u.hostLocs 3 0x40#64 .read false 5).isOk = true ∧
    ({ part1 with poison := [1] } : State).poisoned 0x40 1 = true ∧ 24 ≤ 31 ∧ 31 < 32 := by
  refine ⟨?_, ?_, ?_, ?_, ?_⟩ <;> decide +kernel

/-- A page whose leaf forbids to write, and one whose owner lets it be read only. -/
theorem witness_ResolvableTrapsArePosted_perm :
    let ro : State := { paged s0 with rot := (List.range 32).map fun i => (0x20 + i, 0x303#32) }
    let leafOnly : State := { paged s0 with mem := Memory.writeN (paged s0).mem 0x3000 (bytesOfNat 8 0x200003) }
    (∀ s ∈ [ro, leafOnly], s.me.job = some job ∧ (s.blk.trvec.getLsbD 33 = false) ∧ (∀ e ∈ s.me.tlb, ¬ (e.func = job.func ∧ e.vpage = 0)) ∧
      (s.die (s.cur.k.val / 192)).fq.length < 256 ∧ (s.func job.func).ring = none) ∧
    ((leafOnly.walk job.func 0x1FF8).toOption.map fun l => l.w) = some false ∧
    (ro.walk job.func 0x1FF8).toOption = some ⟨0x200000, 0x200000, true⟩ ∧ ro.populated 0x200000 0x200000 = true ∧ isCxl (0x200000 + 0x1FF8) = false ∧
    (let r := ro.rotOf (0x200000 + 0x1FF8 % 0x200000)
     r.getLsbD 8 = true ∧ r.getLsbD 10 = false ∧ (r.extractLsb' 0 7).toNat = job.func.toNat ∧ r.getLsbD 9 = true) := by
  refine ⟨?_, ?_, ?_, ?_, ?_, ?_⟩ <;> decide +kernel

/-- A draining entry with two pins, with its last soft pin and with none of them soft; an image for a named entry, free and live, with trk set. -/
theorem witness_CatalogWordsAnswer_draining :
    let img : List Byte := bytesOfNat 4 9 ++ zeroBytes 4 ++ bytesOfNat 4 3 ++ bytesOfNat 4 4 ++ zeroBytes 16 ++ bytesOfNat 8 0x100000 ++
      bytesOfNat 4 (8 * 2 ^ 28 + 2 * 2 ^ 21 + 2 ^ 20 + 0o777710) ++ zeroBytes 20
    let e (n m : Nat) : Entry := { state := 2, owner := 3#8, soft := n, plan := m, dims := [3], fmt := 0#4 }
    let p : PlanEng := { planEng with catalog := [(0, e 2 1), (1, e 1 0), (2, { e 0 0 with state := 1 }), (3, e 0 1)] }
    let s := (image img).modDie 1 fun x => { x with plan := p }
    s.me.jobFunc = 3#8 ∧ ((p.entry 0).state = 2 ∧ (p.entry 0).owner = 3#8 ∧ 0 < (p.entry 0).soft ∧ 1 < (p.entry 0).soft + (p.entry 0).plan) ∧
    ((p.entry 1).soft = 1 ∧ (p.entry 1).plan = 0 ∧ (p.entry 1).state = 2) ∧ ((p.entry 3).state = 2 ∧ (p.entry 3).soft = 0) ∧
    ((p.entry 2).state = 1 ∧ (p.entry 2).owner = 3#8 ∧ (p.entry 4).state = 0 ∧ p.tracked 2 < 256 ∧ p.tracked 4 < 256) ∧
    ((catalogImage (ownBytes s 128 64)).map fun e => e.trk) = some true ∧
    (128 % 4 = 0 ∧ 128 + 16 ≤ 0x200000) := by
  refine ⟨?_, ?_, ?_, ?_, ?_, ?_, ?_⟩ <;> decide +kernel

/-- A handle neither stale nor running whose first node with an item reads live entries of its function; a run with items, one a candidate. -/
theorem witness_HandleWordsAnswer_runs :
    let s := planState s0
    let p := (s.die (s.cur.k.val / 192)).plan
    let h : PHandle := { handle 9 with last := some 0x55#64 }
    let r : QRun := { core := 3, node := 1, items := [77] }
    let c : Cand := { id := 5, kind := .internal, team := { id := 77, func := 3#8, plan := some (6, 1, 0) } }
    (mget? p.handles 5 = some h ∧ h.run = none ∧ h.stale = 0 ∧ h.query.nextNode 0 = some 1 ∧ h.query.reads 1 ≠ [] ∧
      ∀ e ∈ h.query.reads 1, (p.entry e).state = 1 ∧ (p.entry e).owner = h.func) ∧
    (({ handle 2 with run := some r } : PHandle).run = some r ∧ c.team.plan.isSome = true ∧ c.team.id ∈ r.items) := by
  refine ⟨?_, ?_⟩ <;> decide +kernel

/-- Sixteen hints in memory behind their count. -/
theorem witness_HandleWordsAnswer_hints :
    let hint : List Byte := bytesOfNat 8 0x0003000000000001
    let s := regs [(1, 0x1000000000000000 + 256), (2, 0x1000000000000000 + 1024)] (planState
      { s0 with mem := Memory.writeN (Memory.writeN [] (scratchLoc 197 + 256) leaf) (scratchLoc 197 + 1024) (bytesOfNat 8 16 ++ (List.replicate 16 hint).flatten) })
    (s.g 2).toNat = 0x1000000000000000 + 1024 ∧ 1024 % 8 = 0 ∧ natOfBytes (ownBytes s 1024 8) = 16 ∧ 1024 + 8 + 8 * 16 ≤ 0x200000 ∧
    ((List.range 16).map fun j => BitVec.ofNat 64 (natOfBytes (ownBytes s (1024 + 8 + 8 * j) 8))) = List.replicate 16 0x0003000000000001#64 ∧
    ((s.g 1).toNat = 0x1000000000000000 + 256 ∧ 256 % 32 = 0 ∧ parseQuery (ownBytes s 256 64) = .ok query) := by
  refine ⟨?_, ?_, ?_, ?_, ?_, ?_⟩ <;> decide +kernel

theorem mget_range {β : Type} (e : β) (n j m : Nat) (h : m ≤ j ∧ j < m + n) : mget? ((List.range' m n).map fun i => (i, e)) j = some e := by
  induction n generalizing m with
  | zero => omega
  | succ n ih =>
    rw [List.range'_succ, List.map_cons, mget?]
    by_cases hm : m = j
    · simp [hm]
    · simp only [hm, if_false]
      exact ih (m + 1) (by omega)

theorem mget_eq_getD {β : Type} (m : Map β) (k : Nat) (d : β) : mget m k d = (mget? m k).getD d := by
  induction m with
  | nil => rfl
  | cons e t ih =>
    rw [mget, mget?]
    split
    · rfl
    · exact ih

/-- A template id that is loaded, all slots taken, records that are no template and no image, a catalog without a free entry, and with 256 tracked ones. -/
theorem witness_TemplatesRefusalsAndPlanTraps_full :
    let x : Template := ⟨3#8, 7, 8, 0#4, 0#4, 1#8, 0, 4, 0#64, List.replicate 9 0x3F800000⟩
    let full : PlanEng := { templates := (List.range' 0 256).map fun i => (i, x), catalog := (List.range' 0 4096).map fun i => (i, { state := 1, owner := 3#8, trk := true }) }
    (∃ e ∈ planEng.templates, e.2.func = 3#8 ∧ e.2.tid = 7) ∧ (∀ j < 256, (mget? full.templates j).isSome = true) ∧
    (∀ j < 4096, (full.entry j).state ≠ 0) ∧ 256 ≤ full.tracked 0 ∧ templateOf 3#8 (zeroBytes 64) = none ∧ catalogImage (zeroBytes 64) = none ∧
    (∀ e ∈ planEng.templates, ¬ (e.2.func = 3#8 ∧ e.2.tid = 8)) := by
  refine ⟨by decide +kernel, fun j h => ?_, fun j h => ?_, by decide +kernel, by decide +kernel, by decide +kernel, by decide +kernel⟩
  · rw [mget_range _ _ _ _ ⟨Nat.zero_le _, by omega⟩]
    rfl
  · have := mget_range ({ state := 1, owner := 3#8, trk := true } : Entry) 4096 j 0 ⟨Nat.zero_le _, by omega⟩
    rw [PlanEng.entry, mget_eq_getD, this]
    simp

/-- Entries that are draining, full of pins and without a soft one; handles that run, are stale, have no outcome, hold 16 hints, of a wrong generation, and
another function's. -/
theorem witness_TemplatesRefusalsAndPlanTraps_states :
    let e (st n m : Nat) : Entry := { state := st, owner := 3#8, soft := n, plan := m }
    let hints : List Dword := (List.range 16).map fun i => BitVec.ofNat 64 (i * 2 ^ 56 + 2 ^ 48)
    let h : PHandle := { handle 9 with stale := 5, hints := hints }
    ((e 2 1 0).state = 2 ∧ (e 1 65000 535).state = 1 ∧ 65535 ≤ (e 1 65000 535).soft + (e 1 65000 535).plan ∧ (e 2 0 1).state ≠ 0 ∧ (e 2 0 1).soft = 0) ∧
    ((9 * 1024 + 5 : Nat) < 65536 ∧ (9 * 1024 + 5) / 1024 = h.gen ∧ h.func = 3#8 ∧ h.stale ≠ 0 ∧ h.run = none ∧ h.last = none ∧
      16 < (addHint h.hints (17 * 2 ^ 56 + 2 ^ 48)).length) ∧
    ((mget? planEng.handles 6).map fun h => h.run.isSome && h.stale == 0) = some true ∧ ((mget? planEng.handles 0).map fun h => h.gen != 4 && h.func == 3#8) = some true ∧
    ((mget? planEng.handles 7).map fun h => h.func != 3#8) = some true := by
  refine ⟨?_, ?_, ?_, ?_, ?_⟩ <;> decide +kernel

/-- An xcfg in flight that is to load a named set; a pair and a source of xcfg that are not valid. -/
theorem witness_TransferWordsStallOrFault_sets :
    let w := wordOf (.xcfg ⟨1, 9, 5, false, false, .stream, ⟨0, 0⟩⟩)
    let c : Cmd := { id := 1, src := .xl, word := w, seq := 0, bf := Vector.replicate 32 0xF#15 }
    let x : XArgs := ⟨9, 4, 5, false, false, .stream, ⟨1, 2⟩⟩
    let o := xopOf (.xgat x .rne)
    (decodeWord .xfer w = .ok (.xcfg ⟨1, 9, 5, false, false, .stream, ⟨0, 0⟩⟩) ∧ (o.map fun o => o.sets false) = some [9, 4, 8] ∧ (9#4) ∈ [9#4, 4, 8] ∧
      ((running { xcore with x := { xcore.x with cmds := [c] } } .xl).me.x.cmds.filter fun c => c.src == .xl) = [c]) ∧
    (setOf xstate.me.x.sets[(0#4).toNat]).valid = false ∧
    ((xopOf (.xgat ⟨1, 4, 5, false, false, .stream, ⟨1, 2⟩⟩ .rne)).map fun o => o.sets false) = some [1, 4, 0] ∧
    ((xopOf (.xrcl ⟨4, 0, 5, false, false, .stream, ⟨1, 2⟩⟩)).map fun o => o.sets false) = some [0] := by
  refine ⟨?_, ?_, ?_, ?_⟩ <;> decide +kernel

/-- A write of a whole poisoned line, of a part of it, and beside it. -/
theorem witness_WritesReachTheirHomes_poison :
    let l := 0x1000000040 / 64
    let w : Write := { wri 1 false with data := List.replicate 64 (7#8, 0xFF#8) }
    let s : State := { sending [w] with poison := [l] }
    l ∈ s.poison ∧ (∀ x ∈ w.data, x.2 = 0xFF#8) ∧ (w.loc ≤ 64 * l ∧ 64 * l + 64 ≤ w.loc + w.data.length) ∧
    ¬ (64 * l + 64 ≤ (wri 1 false).loc + (wri 1 false).data.length) ∧ w.loc + w.data.length ≤ 64 * (l + 1) := by
  refine ⟨List.mem_singleton.mpr rfl, fun x h => ?_, ?_, ?_, ?_⟩
  · rw [List.eq_of_mem_replicate h]
  all_goals norm_num [wri]

/-- A deterministic update at a unit that has no free entry, and at one that has. -/
theorem witness_UpdatesRoundsAndCombines_keep :
    let s (n : Nat) : State := { roundOf 11 false with cores := (commanded { cmdOf 0 with hits := [(300, n)] }).cores }
    ¬ (s 512).entriesAt 300 < 512 ∧ (s 500).entriesAt 300 < 512 ∧ (s 512).updateOk (updOf 11) = true ∧ inTurn 11 false = true := by
  refine ⟨?_, ?_, ?_, ?_⟩ <;> decide +kernel

/-- A step of mmaz in progress whose attempts have failed f times: it can run again. -/
def stepWord (f : Nat) : Outst :=
  { id := 7, fails := f, redo := some (.step (.mmaz 1 1 3 .p1 false mtok) false (Vector.replicate 6 0) (Vector.replicate 6 1) banks) }
def stepping (f : Nat) : State := (mstate 4).modCore 197 fun c => { c with m := { c.m with outst := [stepWord f] } }

/-- The last step of a reduction of one chunk that starts its tile anew (mmaz): V is the tile (R281). -/
theorem treeStep_one (k : Nat) (tab : Raw) (t kind : Nat) (mem : Memory) (tile v : List Nat) :
    treeStep k tab t kind true 0 1 {} mem tile v = .ok (v, {}, { mem := mem, depth := 0 }) := by
  have h1 (r : TreeAcc) : r.popOdd k tab t kind 0 v 32 = .ok (v, r) := rfl
  have h2 (r : TreeAcc) (h : r.depth = 0) : r.popAll k tab t kind v 32 = .ok (v, r) := by unfold TreeAcc.popAll; simp [h]
  simp [treeStep, h1, h2, bind, Except.bind]

/-- A step of one chunk with a B of the own scratchpad runs when its chunk does. -/
theorem mmaRun_fine (s : State) (i : MmaIn) (o : MmaOp) (hz : o.z = true) (hc : i.c = 0) (hn : i.n = 1) (hs : ((s.core i.x.k).side o.t).kind = 0)
    (ht : vget (s.core i.x.k).mx.tree o.t {} = {}) (hb : i.b.own = true) (hk : i.kind ≠ kINT32) (h : fine (s.chunk s i o) = true) : fine (s.mmaRun i o true) = true := by
  have hm : s.multicast i o.bt true = (s, s, false) := by simp [State.multicast, hb]
  unfold fine at h
  split at h
  · rename_i r hr
    simp [State.mmaRun, hm, hr, hs, ht, hz, hc, hn, hk, treeStep_one, fine, bind, Except.bind]
  · cases h

def backOf (f : Nat) : State := ((stepping f).undoData 197 (stepWord f).undo).countReplay 197

/-- The attempt anew of stepWord can be resolved and run. -/
theorem witness_EngineWordsComplete_replay :
    ∃ x, (backOf 2).mmaAt ⟨1, 1, 3, .p1, false, true⟩ ⟨197, table 4, Vector.replicate 6 0, Vector.replicate 6 1, banks, false⟩ = .ok x ∧
      fine ((backOf 2).mmaRun x ⟨1, 1, 3, .p1, false, true⟩ true) = true := by
  let r := (backOf 2).mmaAt ⟨1, 1, 3, .p1, false, true⟩ ⟨197, table 4, Vector.replicate 6 0, Vector.replicate 6 1, banks, false⟩
  have h : (r.toOption.any fun x => x.c == 0 && x.n == 1 && (((backOf 2).core x.x.k).side 3).kind == 0 &&
      vget ((backOf 2).core x.x.k).mx.tree 3 {} == {} && x.b.own && x.kind != kINT32 && fine ((backOf 2).chunk (backOf 2) x ⟨1, 1, 3, .p1, false, true⟩)) = true := by
    decide +kernel
  change ∃ x, r = .ok x ∧ _
  cases e : r with
  | error z => rw [e] at h; exact absurd h (by simp [Except.toOption])
  | ok x =>
    rw [e] at h
    simp only [Except.toOption, Option.any_some, Bool.and_eq_true, beq_iff_eq, bne_iff_ne, and_assoc] at h
    obtain ⟨hc, hn, hs, ht, hb, hk, hf⟩ := h
    exact ⟨x, rfl, mmaRun_fine _ _ _ rfl hc hn hs ht hb hk hf⟩

/-- Steps that have failed fewer than four times and one that has. -/
theorem witness_EngineWordsComplete_fails :
    (∀ f ∈ [0, 2, 3], ((stepping f).me.m.outst ++ (stepping f).me.mx.outst).find? (fun o => !o.done && o.redo.isSome) = some (stepWord f) ∧
      (stepping f).me.m.outst ++ (stepping f).me.mx.outst = [stepWord f] ∧ (stepWord f).own = false) ∧
    (stepping 2).me.mx.active = some (table 4) ∧
    (stepping 3).me.job.isSome = true ∧ (stepping 3).me.fault = none ∧ Memory.wf (stepping 3).mem = true := by
  refine ⟨?_, ?_, ?_, ?_, ?_⟩ <;> decide +kernel

/-- A job of the function with and without a fault, a core that last ran it, and an internal item of it that runs on no core. -/
theorem witness_HostWindows_flr :
    let m : Team := { team50 with plan := some (6, 1, 0) }
    let s : State := (teamed false fun c => { c with last := some 3#8 }).modDie 1 fun x => { x with teams := [m] }
    (s.func 3).state ≠ 3#8 ∧ (s.core 193).last = some 3#8 ∧ ((s.core 193).job.map fun j => j.func) = some 3#8 ∧ (s.core 193).fault = none ∧
    (∀ e ∈ s.cores, e.1 = 194 → ∀ j, e.2.job = some j → j.func ≠ 3#8) ∧ m.func = 3#8 ∧ m.plan.isSome = true := by
  refine ⟨?_, ?_, ?_, ?_, ?_, ?_, ?_⟩ <;> decide +kernel

end Sys2Proof.Tests
end

section
/-! SUPPORT. Every step keeps the canonical form of memory. Each function of the model that takes a state keeps the memory it finds
(its lemma ends in `_mem`) or, where it writes, keeps the form (`_wf`); the two kinds are given in the order of the model, each from
the lemmas of the functions called, so that the step needs only its own cases. -/

namespace Sys2Proof.Machine

/-- The next state of an outcome, if it has one, has canonical memory. -/
def NextWf (r : Host.Outcome State Fault Refusal) : Prop := ∀ t, r = .next t → t.mem.wf

@[simp] theorem nextWf_next (t : State) : NextWf (.next t) ↔ t.mem.wf := by simp [NextWf]
@[simp] theorem nextWf_fault (r : Fault) : NextWf (.fault r) := by simp [NextWf]

theorem State.wf_of_mem_eq {s t : State} (h : t.mem = s.mem) (hs : s.mem.wf) : t.mem.wf := by
  rw [h]
  exact hs

theorem nextWf_of_mem_eq {s t : State} (h : t.mem = s.mem) (hs : s.mem.wf) : NextWf (.next t) :=
  (nextWf_next t).2 (State.wf_of_mem_eq h hs)

/-- What a computation that may fail yields, if it yields something, has P. -/
def Yields {ε α : Type} (r : Except ε α) (P : α → Prop) : Prop := ∀ a, r = .ok a → P a

section
variable {ε α β : Type} {P : α → Prop} {Q : β → Prop}

@[simp] theorem yields_ok (a : α) : Yields (.ok a : Except ε α) P ↔ P a := by simp [Yields]
@[simp] theorem yields_error (e : ε) : Yields (.error e : Except ε α) P := by simp [Yields]

theorem yields_map {r : Except ε β} {f : β → α} (h : Yields r fun b => P (f b)) : Yields (r.map f) P := by
  cases r with
  | error e => exact yields_error e
  | ok b => exact (yields_ok (f b)).2 ((yields_ok b).1 h)

theorem yields_bind {r : Except ε β} {f : β → Except ε α} (hr : Yields r Q) (h : ∀ b, Q b → Yields (f b) P) :
    Yields (r >>= f) P := by
  cases r with
  | error e => exact yields_error e
  | ok b => exact h b ((yields_ok b).1 hr)

/-- What the first computation yields does not matter. -/
theorem yields_bind_any {r : Except ε β} {f : β → Except ε α} (h : ∀ b, Yields (f b) P) : Yields (r >>= f) P :=
  yields_bind (Q := fun _ => True) (fun _ _ => trivial) fun b _ => h b

/-- A check that fails, or what follows it. -/
theorem yields_guard {c : Prop} [Decidable c] {e : ε} {f : β → Except ε α} {r : Except ε α} (h : Yields r P) :
    Yields (if c then .error e >>= f else r) P := by
  split
  · exact yields_error e
  · exact h

theorem yields_foldlM {f : α → β → Except ε α} (hf : ∀ a b, P a → Yields (f a b) P) (l : List β) {a : α} (ha : P a) :
    Yields (l.foldlM f a) P := by
  induction l generalizing a with
  | nil => exact (yields_ok a).2 ha
  | cons b t ih => exact yields_bind (hf a b ha) fun _ h => ih h

end

/-! ### Choices and folds of states -/

@[simp] theorem State.mem_ite (c : Prop) [Decidable c] (a b : State) : (if c then a else b).mem = if c then a.mem else b.mem :=
  apply_ite ..

/-- A fold keeps the memory that each of its steps keeps. -/
@[simp] theorem foldl_mem {α : Type} {f : State → α → State} (hf : ∀ s a, (f s a).mem = s.mem) (l : List α) (s : State) :
    (l.foldl f s).mem = s.mem := by
  induction l generalizing s with
  | nil => rfl
  | cons a t ih => rw [List.foldl_cons, ih, hf]

/-- A fold keeps canonical the memory of a state that each of its steps keeps canonical. -/
theorem foldl_wf {α : Type} {f : State → α → State} (hf : ∀ s a, s.mem.wf → (f s a).mem.wf) (l : List α) {s : State}
    (h : s.mem.wf) : (l.foldl f s).mem.wf := by
  induction l generalizing s with
  | nil => exact h
  | cons a t ih => exact ih (hf _ _ h)

/-- The same of a fold of memories. -/
theorem foldl_memory_wf {α : Type} {f : Memory → α → Memory} (hf : ∀ m a, m.wf → (f m a).wf) (l : List α) {m : Memory}
    (h : m.wf) : (l.foldl f m).wf := by
  induction l generalizing m with
  | nil => exact h
  | cons a t ih => exact ih (hf _ _ h)

/-! ### Operations of the state -/

@[simp] theorem State.later_mem (s : State) (as : List Act) : (s.later as).mem = s.mem := by rfl

@[simp] theorem State.unstop_mem (s : State) (k : Nat) : (s.unstop k).mem = s.mem := by rfl

@[simp] theorem State.account_mem (s : State) (f : Byte) (x : Nat) : (s.account f x).mem = s.mem := by simp [State.account]

@[simp] theorem State.meter_mem (s : State) (k x : Nat) : (s.meter k x).mem = s.mem := by
  fun_cases State.meter <;> simp

@[simp] theorem State.charge_mem (s : State) (k engine cls fmt units : Nat) :
    (s.charge k engine cls fmt units).mem = s.mem := by simp [State.charge]

@[simp] theorem State.observe_mem (s : State) (d h : Nat) : (s.observe d h).mem = s.mem := by rfl

@[simp] theorem State.acquire_mem (s : State) (d : Nat) : (s.acquire d).mem = s.mem := by rfl

@[simp] theorem State.release_mem (s : State) (d : Nat) : (s.release d).mem = s.mem := by rfl

@[simp] theorem State.mendLine_mem (s : State) (l : Nat) (bits : BitVec 64) :
    (s.mendLine l bits).mem = s.mem := by simp [State.mendLine]

@[simp] theorem State.mend_mem (s : State) (loc : Nat) (data : List (Byte × Byte)) :
    (s.mend loc data).mem = s.mem := by simp [State.mend]

@[simp] theorem State.mendAll_mem (s : State) (ls : List Nat) : (s.mendAll ls).mem = s.mem := by simp [State.mendAll]

@[simp] theorem State.walked_mem (s : State) (k : Nat) (as : List Nat) : (s.walked k as).mem = s.mem := by simp [State.walked]

@[simp] theorem State.translate_mem (s : State) (k : Nat) (f : Byte) (va : Nat) (acc : Access) (seq : Bool) :
    (s.translate k f va acc seq).2.mem = s.mem := by
  fun_cases State.translate <;> simp +zetaDelta [*]
  split <;> simp +zetaDelta [*]

theorem State.hostWrite_wf (s : State) (f : Byte) (va : Dword) (bs : List Byte) (part : Bool) (hs : s.mem.wf) :
    Yields (s.hostWrite f va bs part) (·.mem.wf) :=
  yields_map fun ls _ => by simp [wf_writeLocs _ _ hs]

/-- A write by the part that has been made. -/
theorem State.hostWrite_ok {s t : State} {f : Byte} {va : Dword} {bs : List Byte} {part : Bool} (e : s.hostWrite f va bs part = .ok t)
    (hs : s.mem.wf) : t.mem.wf :=
  s.hostWrite_wf f va bs part hs t e

@[simp] theorem State.event_wf (s : State) (f : Byte) (rec : List Byte) (hs : s.mem.wf) : (s.event f rec).mem.wf := by
  fun_cases State.event <;> grind [State.hostWrite_ok, State.modFunc_mem]

@[simp] theorem State.ownerEvent_wf (s : State) (f : Byte) (coord : Word) (addr : Dword) (pa : Nat) (hs : s.mem.wf) :
    (s.ownerEvent f coord addr pa).mem.wf := by simp [State.ownerEvent, hs]

@[simp] theorem State.refusedEvent_wf (s : State) (dest : Byte) (reason : Nat) (who : Byte) (queue : Nat) (value : Nat)
    (hs : s.mem.wf) :
    (s.refusedEvent dest reason who queue value).mem.wf := by simp [State.refusedEvent, hs]

@[simp] theorem State.postedEvent_wf (s : State) (e : FaultEntry) (hs : s.mem.wf) :
    (s.postedEvent e).mem.wf := by simp [State.postedEvent, hs]

@[simp] theorem State.postFault_wf (s : State) (e : FaultEntry) (hs : s.mem.wf) : (s.postFault e).mem.wf := by
  fun_cases State.postFault <;> simp [hs]

@[simp] theorem State.refillFaults_wf (s : State) (d : Nat) (x0 : Nat) (hs : s.mem.wf) : (s.refillFaults d x0).mem.wf := by
  fun_induction State.refillFaults <;> simp +zetaDelta [*]

@[simp] theorem State.jobFault_mem (s : State) (k : Nat) (cause : Byte) (info : Dword) (stream : Nat) (pc : Word) :
    (s.jobFault k cause info stream pc).mem = s.mem := by
  fun_cases State.jobFault <;> simp +zetaDelta [*]

@[simp] theorem State.jobFaultFree_mem (s : State) (k : Nat) (cause : Byte) (stream : Nat) (pc : Word) :
    (s.jobFaultFree k cause stream pc).mem = s.mem := by simp [State.jobFaultFree]

@[simp] theorem State.endBlock_mem (s : State) : s.endBlock.mem = s.mem := by rfl

@[simp] theorem State.hold_mem (s : State) : s.hold.mem = s.mem := by rfl

@[simp] theorem State.wait_mem (s : State) (w : Word) (m : Dword) : (s.wait w m).mem = s.mem := by rfl

@[simp] theorem State.trap_wf (s : State) (cause sub : Byte) (info : Dword) (hs : s.mem.wf) : (s.trap cause sub info).mem.wf := by
  fun_cases State.trap <;> simp +zetaDelta [*]

@[simp] theorem State.eret_mem (s : State) : s.eret.mem = s.mem := by rfl

@[simp] theorem State.reachEnd_mem (s : State) (k stream : Nat) (pc : Word) :
    (s.reachEnd k stream pc).mem = s.mem := by simp [State.reachEnd]

@[simp] theorem State.countSent_mem (s : State) (d h : Nat) : (s.countSent d h).mem = s.mem := by simp [State.countSent]

@[simp] theorem State.emit_mem (s : State) (by_ : Writer) (cmd : Option Nat) (loc : Nat) (data : List (Byte × Byte)) :
    (s.emit by_ cmd loc data).mem = s.mem := by simp [State.emit]

/-! ### Sticky flags and charges -/

@[simp] theorem State.setFlags_mem (s : State) (k : Nat) (u : Unit4) (f : Byte) : (s.setFlags k u f).mem = s.mem := by rfl

@[simp] theorem State.clearFlags_mem (s : State) (k i : Nat) (m : Byte) : (s.clearFlags k i m).mem = s.mem := by rfl

/-! ### Operands -/

@[simp] theorem State.seqLocate_wf (s : State) (a : Dword) (n : Nat) (acc : Access) (hs : s.mem.wf) :
    (s.seqLocate a n acc).2.mem.wf := by
  fun_cases State.seqLocate <;> grind [State.translate_mem, State.ownerEvent_wf]

/-! ### Waits of the sequencer -/

@[simp] theorem State.wake_mem (s : State) (k : Nat) : (s.wake k).mem = s.mem := by rfl

/-! ### Engine faults, progress and tokens -/

theorem wf_restore {m : Memory} (old : List (Nat × Nat × Memory)) (h : m.wf) : (Memory.restore m old).wf :=
  foldl_memory_wf (fun _ _ hm => wf_put _ (wf_clear _ _ hm)) old h

@[simp] theorem State.undoData_wf (s : State) (k : Nat) (u : Undo) (hs : s.mem.wf) : (s.undoData k u).mem.wf := wf_restore _ hs

@[simp] theorem State.abandonM_wf (s : State) (k : Nat) (hs : s.mem.wf) : (s.abandonM k).mem.wf :=
  foldl_wf (fun s o h => s.undoData_wf k o.undo h) _ hs

@[simp] theorem State.abandonV_mem (s : State) (k : Nat) : (s.abandonV k).mem = s.mem := by rfl

@[simp] theorem State.engFault_mem (s : State) (cause : Byte) (info : Dword) :
    (s.engFault cause info).mem = s.mem := by simp [State.engFault]

@[simp] theorem State.engFaultFree_mem (s : State) (cause : Byte) :
    (s.engFaultFree cause).mem = s.mem := by simp [State.engFaultFree]

@[simp] theorem State.progressEng_mem (s : State) (k : Nat) (st : Stream) : (s.progressEng k st).mem = s.mem := by
  fun_cases State.progressEng <;> simp

@[simp] theorem State.progress_mem (s : State) (k : Nat) : (s.progress k).mem = s.mem := by simp [State.progress]

@[simp] theorem State.tokenWord_mem (s : State) (t : Tok) : (s.tokenWord t).mem = s.mem := by simp [State.tokenWord]

@[simp] theorem State.notifyWord_mem (s : State) (t : Tok) : (s.notifyWord t).mem = s.mem := by simp [State.notifyWord]

@[simp] theorem State.rdvWord_mem (s : State) (id : BitVec 2) (m : Byte) (t : Tok) :
    (s.rdvWord id m t).mem = s.mem := by simp [State.rdvWord]

@[simp] theorem State.leaveRdv_mem (s : State) (k : Nat) (id : Nat) : (s.leaveRdv k id).mem = s.mem := by rfl

@[simp] theorem execRendezvousLeave_wf (k : CoreIx) (id : BitVec 2) (s : State) (hs : s.mem.wf) :
    NextWf (execRendezvousLeave k id s) := by
  fun_cases execRendezvousLeave <;> simp [hs]

@[simp] theorem State.illStep_mem (s : State) : s.illStep.mem = s.mem := by simp [State.illStep]

@[simp] theorem execIllstep_wf (w : Word) (s : State) (hs : s.mem.wf) : NextWf (execIllstep w s) := by simp [execIllstep, hs]

@[simp] theorem execFetchRangeError_wf (s : State) (hs : s.mem.wf) : NextWf (execFetchRangeError s) := by
  fun_cases execFetchRangeError <;> simp [hs]

/-! ### Generators -/

@[simp] theorem State.setGen_mem (s : State) (k : Nat) (u : Unit4) (g : Dword) : (s.setGen k u g).mem = s.mem := by rfl

/-! ### Elements of a transfer -/

@[simp] theorem XAcc.count_mem (a : XAcc) (k loc n : Nat) : (a.count k loc n).s.mem = a.s.mem := by
  unfold XAcc.count; grind

@[simp] theorem State.xLocate_wf (s : State) (k : Nat) (c : Cmd) (e : Dword) (n : Nat) (acc : Access) (hs : s.mem.wf) :
    (s.xLocate k c e n acc).2.mem.wf := by
  fun_cases State.xLocate <;> grind [State.translate_mem, State.ownerEvent_wf]

@[simp] theorem State.poisonEvent_wf (s : State) (k : Nat) (c : Cmd) (line : Dword) (hs : s.mem.wf) :
    (s.poisonEvent k c line).mem.wf := by
  unfold State.poisonEvent
  split <;> simp [hs]

@[simp] theorem XAcc.get_wf (a : XAcc) (k : Nat) (c : Cmd) (e : Elem) (nib : Nat) (zop : Bool) (acc : Access) (ha : a.s.mem.wf) :
    (a.get k c e nib zop acc).2.s.mem.wf := by
  fun_cases XAcc.get <;> grind [State.xLocate_wf, State.poisonEvent_wf, XAcc.count_mem]

@[simp] theorem XAcc.put_mem (a : XAcc) (n k l : Nat) (e : Elem) (nib v : Nat) :
    (a.put n k l e nib v).s.mem = a.s.mem := by simp [XAcc.put]

@[simp] theorem XAcc.flush_mem (a : XAcc) (k : Nat) (c : Cmd) : (a.flush k c).mem = a.s.mem := by
  unfold XAcc.flush
  rw [foldl_mem (fun s w => by simp)]
  exact foldl_mem (fun s h => s.observe_mem _ h) _ _

@[simp] theorem XAcc.charges_mem (a : XAcc) (s : State) (k : Nat) : (a.charges s k).mem = s.mem := by simp [XAcc.charges]

/-! ### Words of X -/

@[simp] theorem State.xferFail_mem (s : State) (f : XFail) : (s.xferFail f).mem = s.mem := by
  fun_cases State.xferFail <;> simp

@[simp] theorem State.xferIssue_mem (s : State) (i : Instr) : (s.xferIssue i).mem = s.mem := by
  fun_cases State.xferIssue <;> simp +zetaDelta [*]

@[simp] theorem execXtw_wf (tag : BitVec 6) (t : Tok) (s : State) (hs : s.mem.wf) : NextWf (execXtw tag t s) := by
  fun_cases execXtw <;> simp [hs]

/-! ### Writes on their way -/

@[simp] theorem State.applyWrite_wf (s : State) (w : Write) (hs : s.mem.wf) : (s.applyWrite w).mem.wf := by
  simp [State.applyWrite, wf_writeMask _ _ hs]

@[simp] theorem execWriteApplied_wf (id : Nat) (s : State) (hs : s.mem.wf) : NextWf (execWriteApplied id s) := by
  fun_cases execWriteApplied <;> simp [hs]

@[simp] theorem execWriteArrivalHome_wf (id : Nat) (s : State) (hs : s.mem.wf) : NextWf (execWriteArrivalHome id s) := by
  fun_cases execWriteArrivalHome <;> simp [hs]

@[simp] theorem execHeldWriteApply_wf (id : Nat) (s : State) (hs : s.mem.wf) : NextWf (execHeldWriteApply id s) := by
  fun_cases execHeldWriteApply <;> simp [hs]

@[simp] theorem execCloseMarkerArrival_wf (id : Nat) (s : State) (hs : s.mem.wf) : NextWf (execCloseMarkerArrival id s) := by
  fun_cases execCloseMarkerArrival <;> simp [hs]

/-! ### Results of the sequencer -/

@[simp] theorem State.putG_mem (s : State) (cls : Nat) (d : BitVec 5) (v : Dword) :
    (s.putG cls d v).mem = s.mem := by simp [State.putG]

@[simp] theorem State.putP_mem (s : State) (d : BitVec 3) (v : Bool) : (s.putP d v).mem = s.mem := by simp [State.putP]

/-! ### Loads and stores -/

@[simp] theorem State.seqRead_wf (s : State) (a : Dword) (n : Nat) (hs : s.mem.wf) : (s.seqRead a n).2.mem.wf := by
  fun_cases State.seqRead <;> grind [State.seqLocate_wf, State.observe_mem]

@[simp] theorem State.seqWrite_wf (s : State) (a : Dword) (n : Nat) (v : Dword) (hs : s.mem.wf) : (s.seqWrite a n v).2.mem.wf := by
  fun_cases State.seqWrite <;> grind [State.seqLocate_wf, State.emit_mem]

@[simp] theorem State.load_wf (s : State) (d a : BitVec 5) (o : BitVec 16) (n : Nat) (ext : Nat → Dword) (hs : s.mem.wf) :
    (s.load d a o n ext).mem.wf := by
  fun_cases State.load <;> grind [State.charge_mem, State.seqRead_wf, State.trap_wf, State.modBlk_mem]

@[simp] theorem State.store_wf (s : State) (r a : BitVec 5) (o : BitVec 16) (n : Nat) (hs : s.mem.wf) :
    (s.store r a o n).mem.wf := by
  fun_cases State.store <;> grind [State.charge_mem, State.seqWrite_wf, State.trap_wf, State.modBlk_mem]

@[simp] theorem State.runDone_mem (s : State) : s.runDone.mem = s.mem := by rfl

@[simp] theorem State.runNext_mem (s : State) (i n : Nat) : (s.runNext i n).mem = s.mem := by simp [State.runNext]

@[simp] theorem State.runCharge_mem (s : State) : s.runCharge.mem = s.mem := by simp [State.runCharge]

@[simp] theorem execSpillm_wf (f b l : BitVec 5) (s : State) (hs : s.mem.wf) : NextWf (execSpillm f b l s) := by
  fun_cases execSpillm <;>
    grind [nextWf_next, State.runCharge_mem, State.runDone_mem, State.seqWrite_wf, State.trap_wf, State.runNext_mem]

@[simp] theorem execFillm_wf (f b l : BitVec 5) (s : State) (hs : s.mem.wf) : NextWf (execFillm f b l s) := by
  fun_cases execFillm <;>
    grind [nextWf_next, State.runCharge_mem, State.runDone_mem, State.seqRead_wf, State.trap_wf, State.runNext_mem, State.modBlk_mem]

/-! ### Control of a stream -/

@[simp] theorem State.seqCharge_mem (s : State) : s.seqCharge.mem = s.mem := by simp [State.seqCharge]

@[simp] theorem execJstart_wf (p : BitVec 3) (a b : BitVec 5) (q : BitVec 2) (s : State) (hs : s.mem.wf) :
    NextWf (execJstart p a b q s) := by
  fun_cases execJstart <;> simp +zetaDelta [*]

@[simp] theorem execRdv_wf (i : BitVec 2) (m : BitVec 8) (s : State) (hs : s.mem.wf) : NextWf (execRdv i m s) := by
  fun_cases execRdv <;> simp +zetaDelta [*]

@[simp] theorem State.tagWaitAt_mem (s : State) (i : Instr) (w : Word) (m : Dword) : (s.tagWaitAt i w m).mem = s.mem := by
  fun_cases State.tagWaitAt <;> simp +zetaDelta [*]

@[simp] theorem execFence_wf (sc : Scope) (s : State) (hs : s.mem.wf) : NextWf (execFence sc s) := by
  fun_cases execFence <;> simp +zetaDelta [*]

@[simp] theorem execEret_wf (s : State) (hs : s.mem.wf) : NextWf (execEret s) := by
  fun_cases execEret <;> simp [hs]

/-! ### System words of a stream -/

@[simp] theorem execSrd_wf (d : BitVec 5) (r : BitVec 11) (s : State) (hs : s.mem.wf) : NextWf (execSrd d r s) := by
  fun_cases execSrd <;> simp [hs]

@[simp] theorem execSwr_wf (a : BitVec 5) (r : BitVec 11) (s : State) (hs : s.mem.wf) : NextWf (execSwr a r s) := by
  fun_cases execSwr <;> simp +zetaDelta [*]

@[simp] theorem execXcp_wf (a b : BitVec 5) (s : State) (hs : s.mem.wf) : NextWf (execXcp a b s) := by
  fun_cases execXcp <;> simp [hs]

/-! ### The act that runs next -/

theorem State.selectRest_mem (s : State) {a : Act} {t : State} (h : s.selectRest = some (a, t)) : t.mem = s.mem := by
  unfold State.selectRest at h
  grind

theorem State.select_mem (s : State) {a : Act} {t : State} (h : s.select = some (a, t)) : t.mem = s.mem := by
  unfold State.select at h
  grind [State.selectRest_mem]

/-! ### Data words of M and its nest -/

@[simp] theorem State.putTile_wf (s : State) (k t : Nat) (ws : List Nat) (hs : s.mem.wf) :
    (s.putTile k t ws).mem.wf := wf_blit _ _ hs

@[simp] theorem State.putSide_mem (s : State) (k t : Nat) (x : TileSide) : (s.putSide k t x).mem = s.mem := by rfl



/-- A data word of M keeps the canonical form when its effect does. -/
theorem State.dataM_wf (s : State) (t : Tok) (locks : Except EStop Locks) (run : State → Except EStop MDone)
    (more : List (Nat × Nat)) (hs : s.mem.wf) (hr : Yields (run s) (·.s.mem.wf)) : (s.dataM t locks run more).mem.wf := by
  fun_cases State.dataM <;> grind [Yields, State.engFault_mem, State.engFaultFree_mem, State.modCore_mem]

@[simp] theorem State.mCharge_mem (s : State) (k cls : Nat) (f : Fmt) (n : Nat) :
    (s.mCharge k cls f n).mem = s.mem := by simp [State.mCharge]

@[simp] theorem State.windowCharge_mem (s : State) (k : Nat) (o : MOper) (elems : Nat) :
    (s.windowCharge k o elems).mem = s.mem := by simp [State.windowCharge]

@[simp] theorem State.openCharge_mem (s : State) (k : Nat) (o : MOper) (elems : Nat) (opened : Bool) :
    (s.openCharge k o elems opened).mem = s.mem := by simp [State.openCharge]

@[simp] theorem State.modMx_mem (s : State) (k : Nat) (f : Matrix → Matrix) : (s.modMx k f).mem = s.mem := by rfl

theorem State.nestMove_wf (s : State) (k : Nat) (t : Raw) (hs : s.mem.wf) : Yields (s.nestMove k t) (·.mem.wf) := by
  fun_cases State.nestMove <;> simp [hs]

@[simp] theorem execMtok_wf (t : Tok) (s : State) (hs : s.mem.wf) : NextWf (execMtok t s) := by
  fun_cases execMtok <;> simp [hs]

@[simp] theorem execMcfg_wf (off : BitVec 15) (t : Tok) (s : State) (hs : s.mem.wf) : NextWf (execMcfg off t s) := by
  fun_cases execMcfg <;> simp [hs]

@[simp] theorem execMgo_wf (t : Tok) (s : State) (hs : s.mem.wf) : NextWf (execMgo t s) := by
  fun_cases execMgo <;> simp [hs]

@[simp] theorem execMwait_wf (t : Tok) (s : State) (hs : s.mem.wf) : NextWf (execMwait t s) := by
  fun_cases execMwait <;> simp [hs]

@[simp] theorem execMrdv_wf (i : BitVec 2) (m : BitVec 8) (t : Tok) (s : State) (hs : s.mem.wf) : NextWf (execMrdv i m t s) := by
  fun_cases execMrdv <;> simp [hs]

@[simp] theorem execMnfy_wf (t : Tok) (s : State) (hs : s.mem.wf) : NextWf (execMnfy t s) := by
  fun_cases execMnfy <;> simp [hs]

@[simp] theorem execNestComplete_wf (k : CoreIx) (s : State) (hs : s.mem.wf) : NextWf (execNestComplete k s) := by
  fun_cases execNestComplete <;> simp [hs]

/-! ### Words of M -/

theorem TreeAcc.popAdd_wf (r : TreeAcc) (k : Nat) (tab : Raw) (t kind : Nat) (v : List Nat) (hr : r.mem.wf) :
    Yields (r.popAdd k tab t kind v) (·.2.mem.wf) :=
  yields_map fun _ _ => hr

theorem TreeAcc.put_wf (r : TreeAcc) (k : Nat) (tab : Raw) (t l : Nat) (v : List Nat) (hr : r.mem.wf) :
    Yields (r.put k tab t l v) (·.mem.wf) :=
  yields_map fun _ _ => wf_blit _ _ hr

theorem TreeAcc.popOdd_wf (r : TreeAcc) (k : Nat) (tab : Raw) (t kind b : Nat) (v : List Nat) (n : Nat) (hr : r.mem.wf) :
    Yields (r.popOdd k tab t kind b v n) (·.2.mem.wf) := by
  fun_induction TreeAcc.popOdd <;> grind [yields_ok, yields_error, Yields, TreeAcc.popAdd_wf]

theorem TreeAcc.popAll_wf (r : TreeAcc) (k : Nat) (tab : Raw) (t kind : Nat) (v : List Nat) (n : Nat) (hr : r.mem.wf) :
    Yields (r.popAll k tab t kind v n) (·.2.mem.wf) := by
  fun_induction TreeAcc.popAll <;> grind [yields_ok, yields_error, Yields, TreeAcc.popAdd_wf]

theorem treeStep_wf (k : Nat) (tab : Raw) (t kind : Nat) (z : Bool) (c n : Nat) (tr0 : TreeRec) (mem : Memory) (tile v : List Nat)
    (hm : mem.wf) : Yields (treeStep k tab t kind z c n tr0 mem tile v) (·.2.2.mem.wf) := by
  unfold treeStep
  refine yields_guard ?_
  extract_lets tr r0 keep slot0 jp
  have tail (r1 : TreeAcc) (h1 : r1.mem.wf) : Yields (jp r1) (·.2.2.mem.wf) := by
    unfold jp
    split
    extract_lets r1'
    split
    · exact (yields_ok _).2 h1
    refine yields_bind (TreeAcc.popOdd_wf _ _ _ _ _ _ _ _ h1) fun (vv, r2) h2 => ?_
    dsimp only
    split
    · split
      · exact yields_error _
      · exact yields_bind (TreeAcc.put_wf _ _ _ _ _ _ h2) fun r3 h3 => (yields_ok _).2 h3
    refine yields_bind (TreeAcc.popAll_wf _ _ _ _ _ _ _ h2) fun (vv, r3) h3 => ?_
    dsimp only
    split
    · exact (yields_ok _).2 h3
    split
    · exact yields_bind_any fun l => (yields_ok _).2 h3
    · exact (yields_ok _).2 h3
  split
  · exact yields_bind (TreeAcc.put_wf _ _ _ _ _ _ hm) tail
  · exact yields_bind ((yields_ok _).2 hm) tail

@[simp] theorem State.multicast_mem (s : State) (i : MmaIn) (bt anew : Bool) : (s.multicast i bt anew).1.mem = s.mem := by
  fun_cases State.multicast <;> rfl

theorem State.mmaRun_wf (s : State) (i : MmaIn) (o : MmaOp) (anew : Bool) (hs : s.mem.wf) :
    Yields (s.mmaRun i o anew) (·.s.mem.wf) := by
  have hm := s.multicast_mem i o.bt anew
  unfold State.mmaRun
  refine yields_guard ?_
  split
  next s' sb opened e =>
  rw [e] at hm
  refine yields_bind_any fun (v, fl) => ?_
  dsimp -zeta only
  extract_lets tr jp
  have tail side : Yields (jp side) (·.s.mem.wf) := by
    refine yields_bind (treeStep_wf _ _ _ _ _ _ _ _ _ _ _ (hm ▸ hs)) fun (tile, tr, r) hr => (yields_ok _).2 ?_
    simp only [State.mCharge_mem, State.openCharge_mem, State.windowCharge_mem, State.modMx_mem, State.putSide_mem]
    exact State.putTile_wf _ _ _ _ hr
  split
  · exact yields_bind_any fun (er, ec) => yields_bind_any tail
  · exact yields_bind_any tail

@[simp] theorem State.mmaWord_wf (s : State) (o : MmaOp) (i : Instr) (t : Tok) (hs : s.mem.wf) : (s.mmaWord o i t).mem.wf :=
  s.dataM_wf _ _ _ _ hs (yields_bind_any fun x => yields_map (r := s.mmaRun x o _) (s.mmaRun_wf x o _ hs))

theorem State.mldRun_wf (s : State) (t : Nat) (k : TileKind) (add : Bool) (o : MOper) (hs : s.mem.wf) :
    Yields (s.mldRun t k add o) (·.s.mem.wf) := by
  unfold State.mldRun
  refine yields_guard (yields_guard (yields_bind_any fun rs => (yields_ok _).2 ?_))
  simp [hs]

@[simp] theorem execMld_wf (set : BitVec 3) (t : BitVec 4) (k : TileKind) (add : Bool) (tk : Tok) (s : State) (hs : s.mem.wf) :
    NextWf (execMld set t k add tk s) := by
  refine (nextWf_next _).2 (s.dataM_wf _ _ _ _ hs ?_)
  split
  · exact yields_error _
  · exact s.mldRun_wf _ _ _ _ hs

theorem State.writeAll_wf (s : State) (o : MOper) (m : Memory) (ps : List (Nat × Nat)) (hm : m.wf) :
    Yields (s.writeAll o m ps) (·.wf) := by
  fun_induction State.writeAll <;> simp_all [wf_writeMask]

@[simp] theorem State.mDraws_mem (s : State) (k : Nat) (u : Unit4) (m : RMode) (n : Nat) : (s.mDraws k u m n).2.mem = s.mem := by
  fun_cases State.mDraws <;> simp

theorem State.mstRun_wf (s : State) (t : Nat) (k : TileKind) (m : RMode) (o : MOper) (hs : s.mem.wf) :
    Yields (s.mstRun t k m o) (·.s.mem.wf) := by
  have hd := s.mDraws_mem s.cur.k.val .m m 4096
  unfold State.mstRun
  refine yields_guard (yields_guard ?_)
  split
  next e =>
  rw [e] at hd
  refine yields_bind_any fun rs => yields_bind (State.writeAll_wf _ _ _ _ (hd ▸ hs)) fun mem hm => (yields_ok _).2 ?_
  simp [hm]

@[simp] theorem execMst_wf (set : BitVec 3) (t : BitVec 4) (k : TileKind) (m : RMode) (tk : Tok) (s : State) (hs : s.mem.wf) :
    NextWf (execMst set t k m tk s) := by
  refine (nextWf_next _).2 (s.dataM_wf _ _ _ _ hs ?_)
  split
  · exact yields_error _
  · exact s.mstRun_wf _ _ _ _ hs

@[simp] theorem execMzero_wf (t : BitVec 4) (raw : Bool) (tk : Tok) (s : State) (hs : s.mem.wf) : NextWf (execMzero t raw tk s) :=
  (nextWf_next _).2 (s.dataM_wf _ _ _ _ hs (by simp [wf_clear _ _ hs]))

theorem State.mrqRun_wf (s : State) (t : Nat) (f : Fmt) (m : RMode) (row : Bool) (d c : MOper) (hs : s.mem.wf) :
    Yields (s.mrqRun t f m row d c) (·.s.mem.wf) := by
  have hd := s.mDraws_mem s.cur.k.val .m m 4096
  unfold State.mrqRun
  refine yields_guard (yields_bind_any fun scales => ?_)
  split
  next e =>
  rw [e] at hd
  refine yields_bind_any fun rs => yields_bind (State.writeAll_wf _ _ _ _ (hd ▸ hs)) fun mem hm => (yields_ok _).2 ?_
  simp [hm]

@[simp] theorem execMrq_wf (d c : BitVec 3) (t : BitVec 4) (f : BitVec 4) (m : RMode) (row : Bool) (tk : Tok) (s : State)
    (hs : s.mem.wf) : NextWf (execMrq d c t f m row tk s) := by
  refine (nextWf_next _).2 (s.dataM_wf _ _ _ _ hs ?_)
  split
  · exact yields_error _
  · exact s.mrqRun_wf _ _ _ _ _ _ hs

@[simp] theorem State.countReplay_mem (s : State) (k : Nat) : (s.countReplay k).mem = s.mem := by rfl

@[simp] theorem State.putOutst_mem (s : State) (k : Nat) (o : Outst) : (s.putOutst k o).mem = s.mem := by rfl

@[simp] theorem State.replayFail_wf (s : State) (k : Nat) (z : Byte) (hs : s.mem.wf) :
    (s.replayFail k z).mem.wf := by simp [State.replayFail, hs]

@[simp] theorem State.replayStep_wf (s : State) (k : Nat) (w : Outst) (i : Instr) (nest : Bool) (c n : Vector Nat 6)
    (bf : Vector (BitVec 15) 32) (hs : s.mem.wf) : (s.replayStep k w i nest c n bf).mem.wf := by
  have hb := s.undoData_wf k w.undo hs
  have hc : ((s.undoData k w.undo).countReplay k).mem.wf := by simpa using hb
  have hr (x : Except EStop MmaIn) o : Yields (x >>= fun x => ((s.undoData k w.undo).countReplay k).mmaRun x o true) (·.s.mem.wf) :=
    yields_bind_any fun x => State.mmaRun_wf _ _ _ _ hc
  fun_cases State.replayStep
  · exact State.replayFail_wf _ _ _ hb
  · next e => rw [State.putOutst_mem]; exact hr _ _ _ e
  · exact State.replayFail_wf _ _ _ hc
  · exact hs

/-! ### Orthogonal accumulators -/

@[simp] theorem State.oaCharge_mem (s : State) (k products bytes : Nat) :
    (s.oaCharge k products bytes).mem = s.mem := by simp [State.oaCharge]

theorem State.oaDone_wf (s : State) (o : BitVec 1) (a : OaAcc) (hs : s.mem.wf) : (s.oaDone o a).s.mem.wf := by
  simpa [State.oaDone] using foldl_memory_wf (fun _ w hm => wf_blit w.1 w.2 hm) a.ws hs

@[simp] theorem State.oaWord_wf (s : State) (o : BitVec 1) (t : Tok) (needInit : Bool)
    (locks : MCtx → OaReg → Except EStop (BitVec 32 × BitVec 32)) (run : State → OaAcc → Except EStop OaAcc) (hs : s.mem.wf) :
    (s.oaWord o t needInit locks run).mem.wf :=
  s.dataM_wf _ _ _ _ hs (yields_bind_any fun _ => yields_map fun a _ => s.oaDone_wf o a hs)

@[simp] theorem State.oaApply_wf (s : State) (o : BitVec 1) (set : BitVec 3) (tr left : Bool) (c : BitVec 8) (t : Tok)
    (hs : s.mem.wf) :
    (s.oaApply o set tr left c t).mem.wf := by simp [State.oaApply, hs]

@[simp] theorem State.replayOa_wf (s : State) (k : Nat) (w : Outst) (cells : List (Nat × List Byte)) (products bytes : Nat)
    (hs : s.mem.wf) : (s.replayOa k w cells products bytes).mem.wf := by
  unfold State.replayOa
  split
  · exact State.replayFail_wf _ _ _ (foldl_memory_wf (fun _ e hm => wf_blit e.1 e.2 hm) cells hs)
  · simp [hs]

@[simp] theorem execMatrixReplay_wf (k : CoreIx) (s : State) (hs : s.mem.wf) : NextWf (execMatrixReplay k s) := by
  fun_cases execMatrixReplay <;> simp [hs]

/-! ### Data words of V -/

@[simp] theorem State.fetchCharge_mem (s : State) (k : Nat) (u : PUse) :
    (s.fetchCharge k u).mem = s.mem := by simp [State.fetchCharge]

@[simp] theorem State.modVx_mem (s : State) (k : Nat) (f : Vec → Vec) : (s.modVx k f).mem = s.mem := by rfl



theorem VAcc.putPort_wf (a : VAcc) (i : VIn) (u : PUse) (j : Nat) (y : Val) (ha : a.mem.wf) :
    Yields (a.putPort i u j y) (·.mem.wf) := by
  fun_cases VAcc.putPort <;> simp [ha, wf_writeMask]

theorem VAcc.out_wf (a : VAcc) (i : VIn) (j : Nat) (p : Nat × Nat) (y : Val) (ha : a.mem.wf) :
    Yields (a.out i j p y) (·.mem.wf) := by
  unfold VAcc.out
  dsimp only
  split
  · exact a.putPort_wf i _ j _ ha
  · exact (yields_ok _).2 ha

theorem VAcc.outBits_wf (a : VAcc) (i : VIn) (j : Nat) (p : Nat × Nat) (v : Nat) (ha : a.mem.wf) :
    Yields (a.outBits i j p v) (·.mem.wf) := by
  unfold VAcc.outBits
  split
  · exact a.putPort_wf i _ j _ ha
  · exact (yields_ok _).2 ha

@[simp] theorem State.vFail_mem (s : State) (z : EStop) : (s.vFail z).mem = s.mem := by
  fun_cases State.vFail <;> simp

@[simp] theorem State.fetchCharges_mem (s : State) (i : VIn) (m : Memory) : (s.fetchCharges i m).mem = s.mem :=
  foldl_mem (fun s x => by split <;> simp) _ _

/-- A run of a word of V that keeps canonical the memory it carries. -/
def VRunWf (run : VIn → List (List VElem) → VAcc → Except EStop VAcc) : Prop :=
  ∀ i vs a, a.mem.wf → Yields (run i vs a) (·.mem.wf)

theorem State.dataV_wf (s : State) (w : VSpec) {run : VIn → List (List VElem) → VAcc → Except EStop VAcc} (hr : VRunWf run)
    (hs : s.mem.wf) : (s.dataV w run).mem.wf := by
  have hy i : Yields (collect (i.vals s.mem) i.srcs >>= fun vs =>
      run i vs ⟨s.me.vx.regs, s.me.vx.masks, s.mem, { gen := s.gen s.cur.k.val .v }, 0, 0, []⟩) (·.mem.wf) :=
    yields_bind_any fun vs => hr i vs _ hs
  fun_cases State.dataV <;>
    grind [Yields, State.vFail_mem, State.setGen_mem, State.modVx_mem, State.modCore_mem, State.charge_mem, State.fetchCharges_mem]

theorem VIn.each_wf (i : VIn) {f : Nat → Nat × Nat → VAcc → Except EStop VAcc} (hf : ∀ j p a, a.mem.wf → Yields (f j p a) (·.mem.wf))
    (a : VAcc) (ha : a.mem.wf) : Yields (i.each f a) (·.mem.wf) := by
  refine yields_foldlM (P := fun a : VAcc => a.mem.wf) (fun a p h => ?_) _ ha
  split
  · exact hf _ _ _ h
  · exact (yields_ok a).2 h

@[simp] theorem State.vshp_mem (s : State) (t : Tok) (w : Word) : (s.vshp t w).mem = s.mem := by simp [State.vshp]

@[simp] theorem execVbind_wf (port set : BitVec 3) (off : BitVec 13) (t : Tok) (s : State) (hs : s.mem.wf) :
    NextWf (execVbind port set off t s) := by
  fun_cases execVbind <;> simp [hs]

@[simp] theorem execPortFetch_wf (k : CoreIx) (port : BitVec 3) (s : State) (hs : s.mem.wf) : NextWf (execPortFetch k port s) := by
  fun_cases execPortFetch <;> simp +zetaDelta [*]

/-! ### Words of V -/

@[simp] theorem State.vEw2_wf (s : State) (w : VSpec) (f : RMode → Val → Val → Val × Byte) (hs : s.mem.wf) :
    (s.vEw2 w f).mem.wf :=
  s.dataV_wf w (fun i _ a => i.each_wf (fun j p _ h => by split; exact VAcc.out_wf _ i j p _ h) a) hs

@[simp] theorem State.vEw1_wf (s : State) (w : VSpec) (f : Val → Val × Byte) (hs : s.mem.wf) : (s.vEw1 w f).mem.wf :=
  s.dataV_wf w (fun i _ a => i.each_wf (fun j p _ h => by split; exact VAcc.out_wf _ i j p _ h) a) hs

@[simp] theorem execVfma_wf (x : V3) (s : State) (hs : s.mem.wf) : NextWf (execVfma x s) :=
  (nextWf_next _).2 (s.dataV_wf _ (fun i _ a => i.each_wf (fun j p _ h => by split; split; exact VAcc.out_wf _ i j p _ h) a) hs)

theorem VAcc.move_wf (a : VAcc) (i : VIn) (j : Nat) (p : Nat × Nat) (e : VElem) (ha : a.mem.wf) :
    Yields (a.move i j p e) (·.mem.wf) := by
  unfold VAcc.move
  split
  · exact a.outBits_wf i j p _ ha
  · exact a.out_wf i j p _ ha

@[simp] theorem execVmov_wf (x : V2) (s : State) (hs : s.mem.wf) : NextWf (execVmov x s) :=
  (nextWf_next _).2 (s.dataV_wf _ (fun i _ a => i.each_wf (fun j p a h => a.move_wf i j p _ h) a) hs)

@[simp] theorem State.vBits_wf (s : State) (w : VSpec) (f : Word → Word → Word) (hs : s.mem.wf) : (s.vBits w f).mem.wf :=
  s.dataV_wf w (fun i _ a => i.each_wf (fun j p _ h => by split; split; exact VAcc.outBits_wf _ i j p _ h) a) hs



@[simp] theorem State.vCmp_wf (s : State) (x : VC) (shapes : List Fmt) (f : Fmt → Val → Val → Bool) (hs : s.mem.wf) :
    (s.vCmp x shapes f).mem.wf :=
  s.dataV_wf _ (fun i _ a => i.each_wf (fun _ _ _ h => by exact (yields_ok _).2 h) a) hs

@[simp] theorem State.vMask_wf (s : State) (k : BitVec 2) (me : Bool) (t : Tok) (f : (BitVec 2 → Bool) → Bool) (hs : s.mem.wf) :
    (s.vMask k me t f).mem.wf :=
  s.dataV_wf _ (fun i _ a => i.each_wf (fun _ _ _ h => by exact (yields_ok _).2 h) a) hs

@[simp] theorem execVsel_wf (d x y : VOp) (t : Tok) (s : State) (hs : s.mem.wf) : NextWf (execVsel d x y t s) :=
  (nextWf_next _).2 (s.dataV_wf _ (fun i _ a => i.each_wf (fun j p a h => a.move_wf i j p _ h) a) hs)

@[simp] theorem execVcvti_wf (x : V2) (s : State) (hs : s.mem.wf) : NextWf (execVcvti x s) :=
  (nextWf_next _).2 (s.dataV_wf _ (fun i _ a => i.each_wf (fun j p _ h => by split; exact VAcc.out_wf _ i j p _ h) a) hs)

@[simp] theorem State.vBounded_wf (s : State) (x : V2) (f : BFn) (hs : s.mem.wf) : (s.vBounded x f).mem.wf :=
  s.dataV_wf _ (fun i _ a => i.each_wf (fun j p _ h => by split; exact VAcc.outBits_wf _ i j p _ h) a) hs

@[simp] theorem State.vAxis_wf (s : State) (x : VK) (dkind : BitVec 2) (f : VShape → Nat × Nat → Nat × Nat) (hs : s.mem.wf) :
    (s.vAxis x dkind f).mem.wf :=
  s.dataV_wf _ (fun i _ a => i.each_wf (fun j p a h => a.out_wf i j p _ h) a) hs

@[simp] theorem State.vReduce_wf (s : State) (x : V2) (dkind : BitVec 2) (shapes : List Fmt)
    (line : VShape → Nat × Nat → List (Nat × Nat)) (f : RMode → List Val → Val × Byte) (hs : s.mem.wf) :
    (s.vReduce x dkind shapes line f).mem.wf :=
  s.dataV_wf _ (fun i _ a => i.each_wf (fun j p _ h => by split; exact VAcc.out_wf _ i j p _ h) a) hs

@[simp] theorem execVsamp_wf (x : V2) (s : State) (hs : s.mem.wf) : NextWf (execVsamp x s) :=
  (nextWf_next _).2 (s.dataV_wf _ (fun _ _ _ h => (yields_ok _).2 h) hs)

/-! ### Samples of the catalog -/

@[simp] theorem State.modPlan_mem (s : State) (d : Nat) (f : PlanEng → PlanEng) : (s.modPlan d f).mem = s.mem := by rfl

@[simp] theorem State.sample_mem (s : State) (d : Nat) (f : Byte) (a : Dword) (ix : Nat) (fmt : BitVec 4) (bits : Nat) :
    (s.sample d f a ix fmt bits).mem = s.mem := by simp [State.sample]

@[simp] theorem State.tierMove_mem (s : State) (k : Nat) (c : Cmd) (toHbm : Bool) :
    (s.tierMove k c toHbm).mem = s.mem := by simp [State.tierMove]

/-! ### Performance of a transfer -/



theorem XCopy.fetch_wf (x : XCopy) (a : XAcc) (i : XIn) (ha : a.s.mem.wf) : (x.fetch a i).2.s.mem.wf := by
  fun_cases XCopy.fetch <;> grind [XAcc.get_wf]

@[simp] theorem XCopy.store_mem (x : XCopy) (a : XAcc) (e : Elem) (l v : Nat) : (x.store a e l v).s.mem = a.s.mem := by
  unfold XCopy.store
  split
  · exact a.put_mem ..
  · next cs hc =>
    clear hc
    generalize cs.length = m
    induction cs generalizing a with
    | nil => rfl
    | cons i t ih => rw [List.foldl_cons, ih, XAcc.put_mem]

theorem XCopy.loop_wf (x : XCopy) (a : XAcc) (n : Nat) (l : List (XIn × Elem × Nat)) (ha : a.s.mem.wf) :
    (x.loop a n l).a.s.mem.wf := by
  fun_induction XCopy.loop <;> grind [XCopy.fetch_wf, State.xLocate_wf, XCopy.store_mem]

theorem XCopy.readAll_wf (x : XCopy) (a : XAcc) (acc : List Nat) (es : List Elem) (ha : a.s.mem.wf) :
    (x.readAll a acc es).2.s.mem.wf := by
  fun_induction XCopy.readAll <;> grind [XCopy.fetch_wf]

theorem XCopy.writeAll_wf (x : XCopy) (a : XAcc) (n : Nat) (ns : List Nat) (es : List Elem) (ha : a.s.mem.wf) :
    (x.writeAll a n ns es).a.s.mem.wf := by
  fun_induction XCopy.writeAll <;> grind [State.xLocate_wf, XCopy.store_mem]

theorem XCopy.raw_wf (x : XCopy) (a : XAcc) (progress : Nat) (src dst : List Elem) (ha : a.s.mem.wf) :
    (x.raw a progress src dst).a.s.mem.wf := by
  fun_cases XCopy.raw <;> grind [XCopy.readAll_wf, XCopy.writeAll_wf]

theorem XCopy.run_wf (x : XCopy) (a : XAcc) (src : List XIn) (srcE dst : List Elem) (ha : a.s.mem.wf) :
    (x.run a src srcE dst).a.s.mem.wf := by
  unfold XCopy.run
  split
  · exact x.raw_wf _ _ _ _ ha
  · exact x.loop_wf _ _ _ ha

theorem readIndices_wf (k : Nat) (c : Cmd) (f : Fmt) (zop : Bool) (a : XAcc) (acc : List Int) (es : List Elem) (ha : a.s.mem.wf) :
    (readIndices k c f zop a acc es).2.s.mem.wf := by
  fun_induction readIndices <;> grind [XAcc.get_wf]

theorem runFill_wf (x : XCopy) (a : XAcc) (s d : XSet) (ha : a.s.mem.wf) : (runFill x a s d).a.s.mem.wf := by
  fun_cases runFill
  · exact x.writeAll_wf _ _ _ _ ha
  · exact x.writeAll_wf _ _ _ _ ha
  · exact x.loop_wf _ _ _ ha

theorem runIndexed_wf (x : XCopy) (a : XAcc) (gatherK : Bool) (s d p : XSet) (ha : a.s.mem.wf) :
    (runIndexed x a gatherK s d p).1.a.s.mem.wf := by
  fun_cases runIndexed <;> grind [readIndices_wf, XCopy.run_wf]

theorem runSelk_wf (k : Nat) (c : Cmd) (min : Bool) (a : XAcc) (s d p : XSet) (ha : a.s.mem.wf) :
    (runSelk k c min a s d p).a.s.mem.wf := by
  fun_cases runSelk <;> grind [XCopy.readAll_wf, XCopy.writeAll_wf]

@[simp] theorem State.netCharge_mem (s : State) (k : Nat) (bytes : Nat) :
    (s.netCharge k bytes).mem = s.mem := by simp [State.netCharge]

theorem runPut_wf (k : Nat) (c : Cmd) (a : XAcc) (s d : XSet) (ha : a.s.mem.wf) : (runPut k c a s d).a.s.mem.wf := by
  fun_cases runPut <;> grind [XCopy.readAll_wf, State.send_mem, State.netCharge_mem, State.charge_mem]

theorem runGet_wf (k : Nat) (c : Cmd) (a : XAcc) (s d : XSet) (ha : a.s.mem.wf) : (runGet k c a s d).a.s.mem.wf := by
  fun_cases runGet <;> grind [State.send_mem, State.netCharge_mem]

theorem runGot_wf (k : Nat) (c : Cmd) (a : XAcc) (s d : XSet) (ha : a.s.mem.wf) : (runGot k c a s d).a.s.mem.wf :=
  XCopy.writeAll_wf _ _ _ _ _ (by simpa using ha)

theorem XAcc.groupCheck_wf (a : XAcc) (k : Nat) (c : Cmd) (g : Dword) (ha : a.s.mem.wf) : (a.groupCheck k c g).2.s.mem.wf := by
  fun_cases XAcc.groupCheck <;> grind [State.xLocate_wf]

@[simp] theorem State.setGroup_mem (s : State) (g : DetGroup) : (s.setGroup g).mem = s.mem := by rfl

theorem acwLoop_wf (k : Nat) (c : Cmd) (op : BitVec 6) (ret : Bool) (det : Option GroupRec) (s d : XSet) (a : XAcc) (n : Nat)
    (l : List (Elem × Elem)) (ha : a.s.mem.wf) : (acwLoop k c op ret det s d a n l).a.s.mem.wf := by
  fun_induction acwLoop <;>
    grind [XAcc.get_wf, State.xLocate_wf, State.setGroup_mem, State.countSent_mem, State.charge_mem, XAcc.count_mem]

theorem runAcw_wf (k : Nat) (c : Cmd) (op : BitVec 6) (ret det : Bool) (a : XAcc) (s d : XSet) (ha : a.s.mem.wf) :
    (runAcw k c op ret det a s d).a.s.mem.wf := by
  fun_cases runAcw <;> grind [acwLoop_wf, XAcc.groupCheck_wf]

theorem runCombine_wf (k : Nat) (c : Cmd) (a : XAcc) (s d : XSet) (ha : a.s.mem.wf) : (runCombine k c a s d).a.s.mem.wf := by
  fun_cases runCombine <;> grind [XCopy.readAll_wf, State.xLocate_wf, State.countSent_mem, State.charge_mem, XAcc.count_mem]

theorem runClose_wf (k : Nat) (c : Cmd) (a : XAcc) (d : XSet) (ha : a.s.mem.wf) : (runClose k c a d).a.s.mem.wf := by
  fun_cases runClose <;> grind [XAcc.groupCheck_wf, State.setGroup_mem]

theorem runKind_wf (k : Nat) (c : Cmd) (o : XOp) (a : XAcc) (ha : a.s.mem.wf) : (runKind k c o a).1.a.s.mem.wf := by
  fun_cases runKind <;>
    grind [XCopy.run_wf, runIndexed_wf, runFill_wf, runPut_wf, runGet_wf, runSelk_wf, State.xLocate_wf, XAcc.count_mem, runAcw_wf,
      runCombine_wf, runClose_wf]

@[simp] theorem State.modCmd_mem (s : State) (k id : Nat) (f : Cmd → Cmd) : (s.modCmd k id f).mem = s.mem := by rfl

@[simp] theorem State.setTag_mem (s : State) (k : Nat) (tag : BitVec 6) : (s.setTag k tag).mem = s.mem := by rfl

@[simp] theorem State.samples_mem (s : State) (k : Nat) (c : Cmd) (o : XOp) (ixs : Option (List Int)) (lo hi : Nat) :
    (s.samples k c o ixs lo hi).mem = s.mem := by
  unfold State.samples
  split
  · rfl
  · exact foldl_mem (fun s e => by dsimp only; split <;> [skip; split] <;> simp) _ s

theorem ranCmd_wf (k : Nat) (c : Cmd) (o : XOp) (r : XEnd × Option (List Int) × Option (BitVec 1024)) (st : CmdState) (tag : Bool)
    (hr : r.1.a.s.mem.wf) : (ranCmd k c o r st tag).mem.wf := by
  fun_cases ranCmd <;>
    grind [XAcc.charges_mem, XAcc.flush_mem, State.charge_mem, State.setFlags_mem, State.samples_mem, State.modCmd_mem,
      State.after_mem, State.setTag_mem]

@[simp] theorem State.perform_wf (s : State) (k id : Nat) (hs : s.mem.wf) : (s.perform k id).mem.wf := by
  fun_cases State.perform
  · exact hs
  · exact hs
  · exact hs
  · exact ranCmd_wf _ _ _ _ _ _ (runKind_wf _ _ _ _ (by grind [State.acquire_mem]))

@[simp] theorem State.got_wf (s : State) (k : Nat) (c : Cmd) (o : XOp) (hs : s.mem.wf) : (s.got k c o).mem.wf :=
  ranCmd_wf _ _ _ _ _ _ (runGot_wf _ _ _ _ _ hs)

/-! ### Updates, rounds and combines at memory -/

@[simp] theorem State.writeBack_mem (s : State) (k : Nat) (c : Cmd) (loc n old : Nat) :
    (s.writeBack k c loc n old).mem = s.mem := by simp [State.writeBack]

@[simp] theorem State.changeTeam_mem (s : State) (team : Nat) (f : Team → Team) : (s.changeTeam team f).mem = s.mem := by rfl

@[simp] theorem State.markPoisoned_mem (s : State) (team : Nat) : (s.markPoisoned team).mem = s.mem := by rfl

@[simp] theorem State.updatePoison_wf (s : State) (u : Update) (hs : s.mem.wf) :
    (s.updatePoison u).mem.wf := by simp [State.updatePoison, hs]

@[simp] theorem State.applyUpdate_wf (s : State) (u : Update) (hs : s.mem.wf) : (s.applyUpdate u).mem.wf := by
  unfold State.applyUpdate
  extract_lets n line bad cleared old written sampled applied served hit
  have hc : cleared.mem.wf := by
    unfold cleared
    split
    · exact State.updatePoison_wf _ _ (wf_clear _ _ hs)
    · exact hs
  have hw : written.mem.wf := wf_writeN _ _ hc
  clear_value written
  have hp : served.mem = written.mem := by
    change sampled.mem = written.mem
    unfold sampled
    split
    · split <;> simp
    · rfl
  clear_value served
  have hh : hit.mem.wf := by
    unfold hit
    split <;> simpa [hp] using hw
  clear_value hit
  split
  · exact hh
  · split
    · simpa using hh
    · exact hh

@[simp] theorem State.retireHits_mem (s : State) (u : Update) : (s.retireHits u).mem = s.mem := by
  fun_cases State.retireHits <;> simp

@[simp] theorem State.retry_mem (s : State) (id : Nat) : (s.retry id).mem = s.mem := by rfl

@[simp] theorem execAcwUpdateArrival_wf (id : Nat) (s : State) (hs : s.mem.wf) : NextWf (execAcwUpdateArrival id s) := by
  fun_cases execAcwUpdateArrival <;> simp +zetaDelta [*]
  split <;> simp +zetaDelta [*]

@[simp] theorem State.applyDet_wf (s : State) (x : MsuRound) (u : Update) (hs : s.mem.wf) : (s.applyDet x u).1.mem.wf := by
  unfold State.applyDet
  split <;> simp [hs]

@[simp] theorem State.drainHeld_wf (s : State) (g : DetGroup) (r m : Nat) (x : MsuRound) (n : Nat) (hs : s.mem.wf) :
    (s.drainHeld g r m x n).1.mem.wf := by
  fun_induction State.drainHeld <;> grind [State.applyDet_wf]

@[simp] theorem State.putRound_wf (s : State) (f : Byte) (a : Dword) (r m : Nat) (x : MsuRound) (hs : s.mem.wf) :
    (s.putRound f a r m x).mem.wf := by simp [State.putRound, hs]

@[simp] theorem execDetUpdateArrival_wf (id : Nat) (s : State) (hs : s.mem.wf) : NextWf (execDetUpdateArrival id s) := by
  unfold execDetUpdateArrival
  dsimp only
  (repeat' split) <;> simp [*]

@[simp] theorem execRoundCloseMarkerArrival_wf (id : Nat) (s : State) (hs : s.mem.wf) :
    NextWf (execRoundCloseMarkerArrival id s) := by
  fun_cases execRoundCloseMarkerArrival <;> simp [hs]

@[simp] theorem execDetRetryResend_wf (id : Nat) (s : State) (hs : s.mem.wf) : NextWf (execDetRetryResend id s) := by
  fun_cases execDetRetryResend <;> simp [hs]

@[simp] theorem State.bump_wf (s : State) (f : Byte) (a : Dword) (o n : Nat) (hs : s.mem.wf) : (s.bump f a o n).mem.wf := by
  fun_cases State.bump <;> grind [State.hostWrite_ok]

@[simp] theorem execRoundComplete_wf (id : Nat) (s : State) (hs : s.mem.wf) : NextWf (execRoundComplete id s) := by
  fun_cases execRoundComplete
  · simp [hs]
  · rw [nextWf_next, State.setGroup_mem]
    exact foldl_wf (fun s w h => by grind [State.modCmd_mem]) _
      (State.bump_wf _ _ _ _ _ (State.bump_wf _ _ _ _ _ (State.bump_wf _ _ _ _ _ hs)))
  · simp [hs]

@[simp] theorem State.abortRounds_mem (s : State) (k : Nat) : (s.abortRounds k).mem = s.mem := by
  refine foldl_mem (fun s g => ?_) _ _
  dsimp only
  split
  · rfl
  · refine (foldl_mem (fun t i => ?_) _ _).trans ?_
    · split <;> simp
    · rfl

@[simp] theorem State.failCmd_mem (s : State) (k : Nat) (c : Cmd) (cause : Byte) (addr : Dword) :
    (s.failCmd k c cause addr).mem = s.mem := by rfl

@[simp] theorem State.rowLocs_wf (s : State) (k : Nat) (c : Cmd) (a : Dword) (n : Nat) (hs : s.mem.wf) :
    (s.rowLocs k c a n).2.mem.wf := by
  fun_induction State.rowLocs <;> grind [State.xLocate_wf]

@[simp] theorem execCmbApply_wf (id : Nat) (s : State) (hs : s.mem.wf) : NextWf (execCmbApply id s) := by
  unfold execCmbApply
  split
  · exact (nextWf_next _).2 hs
  next m _ =>
  extract_lets gone d s1 rd fill nr size fill' last
  split
  · exact (nextWf_next _).2 hs
  next k c _ =>
  split
  · exact (nextWf_next _).2 hs
  extract_lets fails
  have h1 : s1.mem.wf := hs
  have hf z : NextWf (fails z) := by simp [fails, h1]
  clear_value s1 fails
  split
  · exact hf _
  split
  · exact hf _
  split
  · exact (nextWf_next _).2 (wf_writeN _ _ h1)
  split
  · exact hf _
  split
  next ls s2 e =>
  have h2 : s2.mem.wf := by
    have hr := s1.rowLocs_wf k c (BitVec.ofNat 64 (rd 0 8)) d h1
    grind
  split
  · simp [h2]
  · extract_lets mem0 mem s3 s4 s5
    have h3 : s3.mem.wf := by simpa [s3] using wf_writeN _ _ (wf_writeN _ _ h2)
    clear_value s3
    rw [nextWf_next, foldl_mem (fun s e => by simp)]
    simp only [s5, s4, State.setFlags_mem]
    rw [foldl_mem (fun s e => by simp)]
    exact h3

/-! ### Ends of a transfer -/

@[simp] theorem State.completeCmd_mem (s : State) (k : Nat) (c : Cmd) (o : XOp) : (s.completeCmd k c o).mem = s.mem := by
  fun_cases State.completeCmd
  simp +zetaDelta [*]
  split <;> simp +zetaDelta [*]

@[simp] theorem execCommandComplete_wf (k : CoreIx) (id : Nat) (s : State) (hs : s.mem.wf) :
    NextWf (execCommandComplete k id s) := by
  fun_cases execCommandComplete <;> simp [hs]

@[simp] theorem execTransientReplay_wf (k : CoreIx) (id : Nat) (s : State) (hs : s.mem.wf) :
    NextWf (execTransientReplay k id s) := by
  fun_cases execTransientReplay <;> simp [hs]

@[simp] theorem execCommandFault_wf (k : CoreIx) (id : Nat) (s : State) (hs : s.mem.wf) : NextWf (execCommandFault k id s) := by
  fun_cases execCommandFault <;> simp [hs]

@[simp] theorem execPeerRefusal_wf (k : CoreIx) (id : Nat) (cause : Byte) (addr : Dword) (s : State) (hs : s.mem.wf) :
    NextWf (execPeerRefusal k id cause addr s) := by
  fun_cases execPeerRefusal <;> simp [hs]

/-! ### Ends of words and jobs -/

@[simp] theorem State.modTeam_mem (s : State) (d id : Nat) (f : Team → Team) : (s.modTeam d id f).mem = s.mem := by rfl

@[simp] theorem State.preemptTeam_mem (s : State) (t : Team) (reason : Byte) : (s.preemptTeam t reason).mem = s.mem := by rfl

@[simp] theorem State.settleTeam_mem (s : State) (d id : Nat) : (s.settleTeam d id).mem = s.mem := by
  unfold State.settleTeam
  split <;> simp

@[simp] theorem execWordComplete_wf (k : CoreIx) (st : Stream) (s : State) (hs : s.mem.wf) : NextWf (execWordComplete k st s) := by
  fun_cases execWordComplete <;> simp [hs]

@[simp] theorem execNoProgress_wf (k : CoreIx) (s : State) (hs : s.mem.wf) : NextWf (execNoProgress k s) := by
  fun_cases execNoProgress <;> simp [hs]

@[simp] theorem execJobComplete_wf (k : CoreIx) (s : State) (hs : s.mem.wf) : NextWf (execJobComplete k s) := by
  fun_cases execJobComplete <;> simp +zetaDelta [*]

@[simp] theorem execSoftPreemptRequest_wf (k : CoreIx) (reason : Byte) (s : State) (hs : s.mem.wf) :
    NextWf (execSoftPreemptRequest k reason s) := by
  fun_cases execSoftPreemptRequest <;> simp [hs]

/-! ### Save images -/

@[simp] theorem State.setSlot_wf (s : State) (f : Byte) (i v : Nat) (hs : s.mem.wf) : (s.setSlot f i v).mem.wf := by
  fun_cases State.setSlot <;> grind [State.hostWrite_ok]

@[simp] theorem State.slotEvent_wf (s : State) (k : Nat) (f cause : Byte) (a : Dword) (hs : s.mem.wf) :
    (s.slotEvent k f cause a).mem.wf := by
  fun_cases State.slotEvent <;> simp [hs]

theorem wf_putImage {m : Memory} (pages : List Nat) (img : Memory) (h : m.wf) : (putImage m pages img).wf :=
  foldl_memory_wf (fun _ _ hm => wf_put _ (wf_clear _ _ hm)) _ h

theorem State.writeImage_wf (s : State) (k kind : Nat) (reason : Byte) (saved : List (Cmd × Nat)) (mark : Nat) (hs : s.mem.wf) :
    Yields (s.writeImage k kind reason saved mark) (·.2.mem.wf) := by
  fun_cases State.writeImage
  · exact yields_error _
  · exact yields_error _
  · exact yields_error _
  · exact (yields_ok _).2 (State.setSlot_wf _ _ _ _ (wf_writeN _ _ (wf_putImage _ _ hs)))

@[simp] theorem State.imageCharge_mem (s : State) (k at_ : Nat) : (s.imageCharge k at_).mem = s.mem := by
  fun_cases State.imageCharge <;> simp

/-! ### Saves, hard stops, answers of the host and restores -/

@[simp] theorem State.nestRecord_wf (s : State) (k : Nat) (reason : Byte) (hs : s.mem.wf) : (s.nestRecord k reason).mem.wf := by
  fun_cases State.nestRecord <;> simp [hs, wf_writeN]

@[simp] theorem execSaveComplete_wf (k : CoreIx) (s : State) (hs : s.mem.wf) : NextWf (execSaveComplete k s) := by
  fun_cases execSaveComplete <;>
    grind [nextWf_next, State.slotEvent_wf, State.jobFaultFree_mem, State.nestRecord_wf, State.writeImage_wf, Yields,
      State.imageCharge_mem, State.modTeam_mem, State.modCore_mem, State.unstop_mem, State.settleTeam_mem]

@[simp] theorem State.snapshot_wf (s : State) (k : Nat) (hs : s.mem.wf) : (s.snapshot k).2.mem.wf := by
  fun_cases State.snapshot <;> grind [State.writeImage_wf, Yields, State.imageCharge_mem]

@[simp] theorem State.abandon_mem (s : State) (k : Nat) : (s.abandon k).mem = s.mem := by
  unfold State.abandon
  split <;> simp

@[simp] theorem State.hardStop_wf (s : State) (k : Nat) (hs : s.mem.wf) : (s.hardStop k).mem.wf := by
  fun_cases State.hardStop <;> simp +zetaDelta [*]

@[simp] theorem State.scrubCore_wf (s : State) (k : Nat) (hs : s.mem.wf) : (s.scrubCore k).mem.wf := wf_clear _ _ (wf_clear _ _ hs)

@[simp] theorem State.readyCore_wf (s : State) (k : Nat) (f : Byte) (hs : s.mem.wf) : (s.readyCore k f).mem.wf := by
  fun_cases State.readyCore <;> simp [hs]

@[simp] theorem State.tlbDrop_mem (s : State) (f : Byte) (hit : TlbEntry → Bool) : (s.tlbDrop f hit).mem = s.mem := by rfl

@[simp] theorem State.dropCmd_mem (s : State) (k : Nat) (c : Cmd) : (s.dropCmd k c).mem = s.mem := by simp [State.dropCmd]

@[simp] theorem State.applyAnswer_mem (s : State) (k : Nat) (e : FaultEntry) (ok : Bool) : (s.applyAnswer k e ok).mem = s.mem := by
  fun_cases State.applyAnswer <;> simp

@[simp] theorem State.itemAnswer_mem (s : State) (d : Nat) (t : Team) (e : FaultEntry) (ok : Bool) :
    (s.itemAnswer d t e ok).mem = s.mem := by simp [State.itemAnswer]

@[simp] theorem State.deliver_mem (s : State) (e : FaultEntry) (ok : Bool) : (s.deliver e ok).mem = s.mem := by
  fun_cases State.deliver <;> simp

@[simp] theorem State.answer_wf (s : State) (d : Nat) (e : FaultEntry) (ok : Bool) (hs : s.mem.wf) : (s.answer d e ok).mem.wf := by
  unfold State.answer
  split
  · refine foldl_wf (fun s i h => s.refillFaults_wf _ _ h) _ ?_
    rw [foldl_mem (fun s x => by simp), State.tlbDrop_mem]
    exact hs
  · exact State.refillFaults_wf _ _ _ (by simpa using hs)

@[simp] theorem State.rebase_mem (s : State) (k : Nat) (c : Cmd) (r : CmdRef) : (s.rebase k c r).mem = s.mem := rfl

@[simp] theorem State.restoreCmd_mem (s : State) (k : Nat) (im : Memory) (bfs : Sampled) (id i : Nat) :
    (s.restoreCmd k im bfs id i).mem = s.mem := by
  fun_cases State.restoreCmd
  · rfl
  · refine (foldl_mem (fun s u => ?_) _ _).trans ?_
    · split <;> simp
    · grind [State.rebase_mem, State.after_mem, State.modCore_mem]

@[simp] theorem State.takeHeld_mem (s : State) (k : Nat) (es : List FaultEntry) : (s.takeHeld k es).mem = s.mem :=
  foldl_mem (fun s e => by split <;> simp) _ _

@[simp] theorem State.restoreImage_wf (s : State) (k : Nat) (t : Team) (sv : Saved) (im : Memory) (hs : s.mem.wf) :
    (s.restoreImage k t sv im).mem.wf := by
  unfold State.restoreImage
  dsimp only
  rw [State.modCore_mem, State.takeHeld_mem, foldl_mem (fun s i => by simp), State.setCore_mem]
  exact wf_put _ (wf_put _ (wf_clear _ _ (wf_clear _ _ hs)))

@[simp] theorem State.resumeCore_wf (s : State) (k : Nat) (t : Team) (sv : Saved) (hs : s.mem.wf) :
    (s.resumeCore k t sv).mem.wf := by
  fun_cases State.resumeCore <;>
    grind [State.readyCore_wf, State.jobFaultFree_mem, State.modCore_mem, State.restoreImage_wf, State.hostWrite_ok,
      State.imageCharge_mem, State.setSlot_wf]

/-! ### Power, temperature and start -/

@[simp] theorem State.reborn_wf (s : State) (p : Phase) : (s.reborn p).mem.wf := rfl

@[simp] theorem execStart_wf (s : State) : NextWf (execStart s) := by
  fun_cases execStart <;> simp +zetaDelta [*]

@[simp] theorem execThermalTrip_wf (s : State) (hs : s.mem.wf) : NextWf (execThermalTrip s) := by
  unfold execThermalTrip
  split <;> simp [hs]

@[simp] theorem State.thermal_mem (s : State) (d : Nat) (tj : Int) : (s.thermal d tj).mem = s.mem := by simp [State.thermal]

@[simp] theorem execThermalTick_wf (d : DieIx) (tj : Int) (s : State) (hs : s.mem.wf) : NextWf (execThermalTick d tj s) := by
  fun_cases execThermalTick <;> simp [hs]

/-! ### Queries: nodes read and written -/

theorem State.writeEntry_wf (s : State) (d : Nat) (f : Byte) (e : Entry) (vs : List Nat) (acc : Access) (hs : s.mem.wf) :
    Yields (s.writeEntry d f e vs acc) (·.mem.wf) :=
  yields_map fun ls _ => by
    simpa using foldl_memory_wf (fun _ _ h => foldl_memory_wf (fun _ _ h => wf_writeMask _ _ h) _ h) _ hs

theorem State.scatterRound_wf (s : State) (d : Nat) (q : Query) (x : QNode) (f : Byte) (kids : List Ten) (hs : s.mem.wf) :
    Yields (s.scatterRound d q x f kids) (·.mem.wf) := by
  fun_cases State.scatterRound <;> simp [hs]

/-! ### Plan words and query runs -/

@[simp] theorem State.planAlign_wf (s : State) (a : Dword) (al : Nat) (acc : Access) (hs : s.mem.wf) :
    (s.planAlign a al acc).2.mem.wf := by
  fun_cases State.planAlign <;> grind [State.seqLocate_wf]

@[simp] theorem State.planPieces_wf (s : State) (a : Dword) (n c : Nat) (hs : s.mem.wf) : (s.planPieces a n c).2.mem.wf := by
  fun_induction State.planPieces <;> grind [State.seqRead_wf]

@[simp] theorem State.planRead_wf (s : State) (a : Dword) (al n c : Nat) (hs : s.mem.wf) : (s.planRead a al n c).2.mem.wf := by
  fun_cases State.planRead <;> grind [State.planAlign_wf, State.planPieces_wf]

@[simp] theorem State.planPlaces_wf (s : State) (a : Dword) (n f : Nat) (hs : s.mem.wf) : (s.planPlaces a n f).2.mem.wf := by
  fun_induction State.planPlaces <;> grind [State.seqLocate_wf]

@[simp] theorem State.planStore_mem (s : State) (ls : List Nat) (bs : List Byte) : (s.planStore ls bs).mem = s.mem := by
  unfold State.planStore
  induction ls generalizing s bs with
  | nil => rfl
  | cons l t ih => exact (ih _ _).trans (by simp)

theorem State.planWrite_wf (s : State) (a : Dword) (bs : List Byte) (hs : s.mem.wf) :
    Yields (s.planWrite a bs).1 (·.mem.wf) ∧ (s.planWrite a bs).2.mem.wf := by
  fun_cases State.planWrite <;> grind [yields_ok, yields_error, State.planAlign_wf, State.planPlaces_wf, State.planStore_mem]

@[simp] theorem State.planCharge_mem (s : State) (cls n : Nat) : (s.planCharge cls n).mem = s.mem := by simp [State.planCharge]

@[simp] theorem State.planAnswer_mem (s : State) (d : Nat) (team rank : Nat) (q : Fin 4) (v : Dword) :
    (s.planAnswer d team rank q v).mem = s.mem := by rfl

/-- A plan word keeps the canonical form when its request does. -/
theorem State.planWord_wf (s : State) (w : Word) (req : State → PRes × State) (hr : ∀ t, t.mem.wf → (req t).2.mem.wf)
    (hs : s.mem.wf) : (s.planWord w req).mem.wf := by
  fun_cases State.planWord <;> grind [State.trap_wf, State.wait_mem, State.planAnswer_mem, State.seqCharge_mem]

@[simp] theorem execPlanResponse_wf (d : DieIx) (s : State) (hs : s.mem.wf) : NextWf (execPlanResponse d s) := by
  fun_cases execPlanResponse <;> simp +zetaDelta [*]

@[simp] theorem State.catReq_mem (s : State) (r : PlanEng → Byte → Except PStop (Nat × PlanEng)) : (s.catReq r).2.mem = s.mem := by
  unfold State.catReq
  split <;> simp

@[simp] theorem execQcat_wf (rd ra rb : BitVec 5) (s : State) (hs : s.mem.wf) : NextWf (execQcat rd ra rb s) :=
  (nextWf_next _).2 (s.planWord_wf _ _ (fun t ht => by grind [State.planRead_wf, State.catReq_mem]) hs)

@[simp] theorem execQstr_wf (rd ra rb : BitVec 5) (s : State) (hs : s.mem.wf) : NextWf (execQstr rd ra rb s) :=
  (nextWf_next _).2 (s.planWord_wf _ _ (fun t ht => by grind [State.planWrite_wf, Yields, State.planCharge_mem]) hs)

@[simp] theorem execQstw_wf (rd ra rb : BitVec 5) (rst : Bool) (s : State) (hs : s.mem.wf) : NextWf (execQstw rd ra rb rst s) :=
  (nextWf_next _).2 (s.planWord_wf _ _ (fun t ht => by grind [State.planRead_wf, State.catReq_mem]) hs)

theorem State.handleReq_wf (s : State) (r : BitVec 5) (k : Nat → PHandle → PRes × State) (hs : s.mem.wf)
    (hk : ∀ i h, (k i h).2.mem.wf) : (s.handleReq r k).2.mem.wf := by
  fun_cases State.handleReq <;> grind

@[simp] theorem State.endRun_mem (s : State) (d h : Nat) (outcome reason cause : Nat) :
    (s.endRun d h outcome reason cause).mem = s.mem := by
  fun_cases State.endRun <;> simp +zetaDelta [*]

@[simp] theorem State.planHand_mem (s : State) (d h k j : Nat) : (s.planHand d h k j).mem = s.mem := by
  unfold State.planHand
  split <;> simp

@[simp] theorem State.planAdvance_mem (s : State) (d h i : Nat) : (s.planAdvance d h i).mem = s.mem := by
  fun_cases State.planAdvance <;> simp

@[simp] theorem State.planAccount_mem (s : State) (f : Byte) (r : QRun) (cls n : Nat) :
    (s.planAccount f r cls n).mem = s.mem := by simp [State.planAccount]

@[simp] theorem State.ratioCheck_mem (s : State) (d h i : Nat) (n nz : Nat) : (s.ratioCheck d h i n nz).mem = s.mem := by
  fun_cases State.ratioCheck <;> simp +zetaDelta [*]

@[simp] theorem execPipelineBreak_wf (d : DieIx) (h : Nat) (s : State) (hs : s.mem.wf) : NextWf (execPipelineBreak d h s) := by
  unfold execPipelineBreak
  extract_lets d'
  split
  · simp [hs]
  split
  · simp [hs]
  next x _ r _ =>
  extract_lets i q nd
  split
  · simp [hs]
  split
  · simp [hs]
  split
  · simp [hs]
  extract_lets t e wrote
  have hw : Yields wrote (·.mem.wf) := by
    unfold wrote
    split
    · exact yields_map fun t ht => by
        simpa using s.writeEntry_wf _ _ _ _ _ hs t ht
    · exact (yields_ok _).2 hs
  clear_value wrote
  cases wrote with
  | error z => simp [hs]
  | ok t' =>
    have ht := (yields_ok t').1 hw
    dsimp only
    split <;> simp [ht]

@[simp] theorem State.nodeDone_wf (s : State) (d h i : Nat) (hs : s.mem.wf) : (s.nodeDone d h i).mem.wf := by
  unfold State.nodeDone
  split
  · exact hs
  split
  · exact hs
  next x _ r _ =>
  extract_lets q nd res tj
  clear_value res
  cases res with
  | error z => simpa using hs
  | ok ko =>
    obtain ⟨kids, o⟩ := ko
    dsimp -zeta only
    extract_lets s1 entry put
    have he : Yields entry (·.mem.wf) := by
      unfold entry
      split
      · exact State.writeEntry_wf _ _ _ _ _ _ hs
      · exact (yields_ok _).2 hs
    have hp : Yields put (·.mem.wf) := by
      unfold put
      split
      · exact yields_bind he fun t ht => t.scatterRound_wf _ _ _ _ _ ht
      · exact he
    clear_value put
    cases put with
    | error z => simpa using hs
    | ok t =>
      have ht := (yields_ok t).1 hp
      dsimp only
      split <;> simpa using ht

@[simp] theorem State.planDone_wf (s : State) (d h id status cause : Nat) (hs : s.mem.wf) :
    (s.planDone d h id status cause).mem.wf := by
  fun_cases State.planDone <;> simp +zetaDelta [*]

@[simp] theorem State.readQuery_wf (s : State) (a : Dword) (hs : s.mem.wf) : (s.readQuery a).2.mem.wf := by
  fun_cases State.readQuery <;> grind [State.planRead_wf, State.planPieces_wf]

@[simp] theorem State.readHints_wf (s : State) (a : Dword) (hs : s.mem.wf) : (s.readHints a).2.mem.wf := by
  fun_cases State.readHints <;> grind [State.planRead_wf, State.planPieces_wf]

@[simp] theorem State.planningCharge_mem (s : State) (q : Query) (p : List NodePlan) :
    (s.planningCharge q p).mem = s.mem := by simp [State.planningCharge]

@[simp] theorem execQsub_wf (rd ra rb : BitVec 5) (s : State) (hs : s.mem.wf) : NextWf (execQsub rd ra rb s) := by
  refine (nextWf_next _).2 (s.planWord_wf _ _ (fun t ht => ?_) hs)
  split
  · grind [State.readQuery_wf]
  split <;> grind [State.readQuery_wf, State.readHints_wf, State.planningCharge_mem, State.modPlan_mem]

@[simp] theorem execQrun_wf (rd ra : BitVec 5) (s : State) (hs : s.mem.wf) : NextWf (execQrun rd ra s) :=
  (nextWf_next _).2 (s.planWord_wf _ _ (fun t ht => t.handleReq_wf _ _ ht fun i h => by
    grind [State.modPlan_mem, State.planAdvance_mem]) hs)

@[simp] theorem execQwait_wf (rd ra : BitVec 5) (s : State) (hs : s.mem.wf) : NextWf (execQwait rd ra s) :=
  (nextWf_next _).2 (s.planWord_wf _ _ (fun t ht => t.handleReq_wf _ _ ht fun i h => by grind [State.modPlan_mem]) hs)

@[simp] theorem execQexpl_wf (rd ra rb : BitVec 5) (s : State) (hs : s.mem.wf) : NextWf (execQexpl rd ra rb s) :=
  (nextWf_next _).2 (s.planWord_wf _ _ (fun t ht => t.handleReq_wf _ _ ht fun i h => by grind [State.planWrite_wf, Yields]) hs)

@[simp] theorem execQhint_wf (rd ra rb : BitVec 5) (s : State) (hs : s.mem.wf) : NextWf (execQhint rd ra rb s) :=
  (nextWf_next _).2 (s.planWord_wf _ _ (fun t ht => t.handleReq_wf _ _ ht fun i h => by
    grind [State.modPlan_mem, State.planningCharge_mem]) hs)

@[simp] theorem State.cancelRun_wf (s : State) (d h : Nat) (hs : s.mem.wf) : (s.cancelRun d h).mem.wf := by
  unfold State.cancelRun
  split
  · exact hs
  · refine foldl_wf (fun s c h => s.planDone_wf _ _ _ _ _ h) _ ?_
    rw [foldl_mem (fun s t => by dsimp only; split <;> simp)]
    exact foldl_wf (fun s c h => foldl_wf (fun s v h => s.setSlot_wf _ _ _ h) _ h) _ (by simpa using hs)

@[simp] theorem execQinv_wf (rd ra : BitVec 5) (can : Bool) (s : State) (hs : s.mem.wf) : NextWf (execQinv rd ra can s) :=
  (nextWf_next _).2 (s.planWord_wf _ _ (fun t ht => t.handleReq_wf _ _ ht fun i h => by
    grind [State.modPlan_mem, State.cancelRun_wf]) hs)

@[simp] theorem execQdrop_wf (rd ra : BitVec 5) (s : State) (hs : s.mem.wf) : NextWf (execQdrop rd ra s) :=
  (nextWf_next _).2 (s.planWord_wf _ _ (fun t ht => by grind [State.modPlan_mem]) hs)

@[simp] theorem execQtld_wf (rd ra : BitVec 5) (s : State) (hs : s.mem.wf) : NextWf (execQtld rd ra s) :=
  (nextWf_next _).2 (s.planWord_wf _ _ (fun t ht => by grind [State.planRead_wf, State.modPlan_mem]) hs)

@[simp] theorem execQtdrop_wf (rd rb : BitVec 5) (s : State) (hs : s.mem.wf) : NextWf (execQtdrop rd rb s) :=
  (nextWf_next _).2 (s.planWord_wf _ _ (fun t ht => by grind [State.modPlan_mem]) hs)

@[simp] theorem State.planFlr_mem (s : State) (f : Byte) : (s.planFlr f).mem = s.mem := by
  refine foldl_mem (fun s d => ?_) _ _
  dsimp only
  rw [State.modPlan_mem, foldl_mem (fun s h => by simp)]

@[simp] theorem State.planShrunk_mem (s : State) (d : Nat) (part : Byte) : (s.planShrunk d part).mem = s.mem := by rfl

/-! ### Queues, teams and their items -/

@[simp] theorem State.partOwner_wf (s : State) (f : Byte) (va : Dword) (acc : Access) (n : Nat) (hs : s.mem.wf) :
    (s.partOwner f va acc n).mem.wf := by
  fun_cases State.partOwner <;> simp [hs]

@[simp] theorem State.segmentCharge_mem (s : State) (k : Nat) (f : Byte) (va : Dword) (segs : List (Nat × Nat × List Byte)) :
    (s.segmentCharge k f va segs).mem = s.mem := by simp [State.segmentCharge]

@[simp] theorem State.startCore_wf (s : State) (t : Team) (im : Image) (k rank : Nat) (hs : s.mem.wf) :
    (s.startCore t im k rank).mem.wf := by
  unfold State.startCore
  dsimp only
  rw [State.setCore_mem, State.segmentCharge_mem]
  exact foldl_wf (fun s g h => wf_blit _ _ h) _ (by simp [hs])

@[simp] theorem State.complete_wf (s : State) (d : Nat) (f : Byte) (q : BitVec 16) (i : Item) (r : Result) (hs : s.mem.wf) :
    (s.complete d f q i r).mem.wf := by
  fun_cases State.complete <;> grind [State.hostWrite_ok, State.event_wf]

@[simp] theorem State.writeDesc_wf (s : State) (q : Nat) (hs : s.mem.wf) : (s.writeDesc q).mem.wf := by
  fun_cases State.writeDesc <;> grind [State.hostWrite_ok]

@[simp] theorem State.unmapSlot_mem (s : State) (d i : Nat) (again : Bool) : (s.unmapSlot d i again).mem = s.mem := by rfl

@[simp] theorem State.consume_wf (s : State) (d slot q : Nat) (sent : Bool) (hs : s.mem.wf) : (s.consume d slot q sent).mem.wf := by
  fun_cases State.consume <;> simp +zetaDelta [*]

@[simp] theorem State.takeCand_wf (s : State) (d : Nat) (c : Cand) (sent : Bool) (hs : s.mem.wf) :
    (s.takeCand d c sent).mem.wf := by
  unfold State.takeCand
  split <;> simp [hs]

@[simp] theorem State.closeQueue_mem (s : State) (q : Nat) : (s.closeQueue q).mem = s.mem := by simp [State.closeQueue]

@[simp] theorem State.endTeam_wf (s : State) (d : Nat) (t : Team) (r : Result) (hs : s.mem.wf) : (s.endTeam d t r).mem.wf := by
  have hd (s : State) (h : s.mem.wf) : (t.saves.foldl (fun (s : State) sv => s.setSlot t.func sv.slot 2) s).mem.wf :=
    foldl_wf (fun s sv h => s.setSlot_wf _ _ _ h) _ h
  unfold State.endTeam
  split
  · exact State.planDone_wf _ _ _ _ _ _ (hd s hs)
  · rw [State.closeQueue_mem]
    exact hd _ (by simp [hs])

@[simp] theorem State.itemFault_wf (s : State) (d : Nat) (t : Team) (z : Byte) (a : Dword) (hs : s.mem.wf) :
    (s.itemFault d t z a).mem.wf := by
  fun_cases State.itemFault <;> simp +zetaDelta [*]
  split <;> simp +zetaDelta [*]

@[simp] theorem execWorkItemComplete_wf (d : DieIx) (team : Nat) (s : State) (hs : s.mem.wf) :
    NextWf (execWorkItemComplete d team s) := by
  fun_cases execWorkItemComplete <;> simp [hs]

@[simp] theorem State.retire_wf (s : State) (d : Nat) (c : Cand) (status : Nat) (hs : s.mem.wf) : (s.retire d c status).mem.wf := by
  fun_cases State.retire <;> simp +zetaDelta [*]

@[simp] theorem State.resumeTeam_wf (s : State) (d : Nat) (c : Cand) (hs : s.mem.wf) : (s.resumeTeam d c).mem.wf :=
  foldl_wf (fun s _ h => s.resumeCore_wf _ _ _ h) _ (State.takeCand_wf s d c true hs)

@[simp] theorem State.startCand_wf (s : State) (d : Nat) (c : Cand) (hs : s.mem.wf) : (s.startCand d c).mem.wf := by
  have ht := s.takeCand_wf d c true hs
  unfold State.startCand
  split
  · simp [hs]
  dsimp only
  split
  · simp [ht]
  · simp [ht]
  · exact foldl_wf (fun s e h => s.startCore_wf _ _ _ _ h) _ ht

/-! ### Dispatch, overload and hampers -/

@[simp] theorem State.rotateSlots_mem (s : State) (d : Nat) : (s.rotateSlots d).mem = s.mem := by simp [State.rotateSlots]

@[simp] theorem State.remap_mem (s : State) (d q i : Nat) : (s.remap d q i).mem = s.mem := by rfl

@[simp] theorem execQueueMapped_wf (d : DieIx) (s : State) (hs : s.mem.wf) : NextWf (execQueueMapped d s) := by
  fun_cases execQueueMapped <;> simp +zetaDelta [*]

@[simp] theorem execQueueSlotIdle_wf (d : DieIx) (slot : Nat) (s : State) (hs : s.mem.wf) :
    NextWf (execQueueSlotIdle d slot s) := by
  fun_cases execQueueSlotIdle <;> simp [hs]

@[simp] theorem execItemRead_wf (d : DieIx) (slot : Nat) (s : State) (hs : s.mem.wf) : NextWf (execItemRead d slot s) := by
  fun_cases execItemRead
  · simp [hs]
  · simp [hs]
  · exact (nextWf_next _).2 (State.consume_wf _ _ _ _ _ (by simp [hs]))
  · exact (nextWf_next _).2 (State.consume_wf _ _ _ _ _ (by simp [hs]))
  · simp [hs]
  · simp [hs]

@[simp] theorem State.makeRoom_mem (s : State) (d : Nat) (c : Cand) : (s.makeRoom d c).mem = s.mem := by
  fun_cases State.makeRoom <;> simp

@[simp] theorem State.scanWalk_wf (s : State) (d n : Nat) (top : Bool) (l : List Cand) (hs : s.mem.wf) :
    (s.scanWalk d n top l).1.mem.wf := by
  fun_induction State.scanWalk <;> grind [State.startCand_wf, State.modDie_mem]

@[simp] theorem State.lateScan_wf (s : State) (d : Nat) (hs : s.mem.wf) : (s.lateScan d).mem.wf :=
  foldl_wf (fun s c h => by grind [State.retire_wf]) _ hs

@[simp] theorem State.reserve_mem (s : State) (d : Nat) (l : List Cand) : (s.reserve d l).mem = s.mem := by rfl

@[simp] theorem execDispatchScan_wf (d : DieIx) (s : State) (hs : s.mem.wf) : NextWf (execDispatchScan d s) := by
  unfold execDispatchScan
  rw [nextWf_next, State.modDie_mem, foldl_mem (fun s c => by simp)]
  exact State.scanWalk_wf _ _ _ _ _ (by simp [hs])

@[simp] theorem execHardDeadline_wf (d : DieIx) (team : Nat) (s : State) (hs : s.mem.wf) : NextWf (execHardDeadline d team s) := by
  fun_cases execHardDeadline <;> simp [hs]

@[simp] theorem State.overloadDie_mem (s : State) (d : Nat) : (s.overloadDie d).mem = s.mem := by rfl

@[simp] theorem State.advertise_mem (s : State) (d : Nat) : (s.advertise d).mem = s.mem := by rfl

@[simp] theorem State.markAway_mem (s : State) (d id : Nat) (away : Bool) : (s.markAway d id away).mem = s.mem := by rfl

@[simp] theorem State.sendHamper_mem (s : State) (d : Nat) : (s.sendHamper d).mem = s.mem := by
  fun_cases State.sendHamper <;> simp +zetaDelta [*]

@[simp] theorem execHamperArrival_wf (id : Nat) (s : State) (hs : s.mem.wf) : NextWf (execHamperArrival id s) := by
  fun_cases execHamperArrival <;> simp +zetaDelta [*]

@[simp] theorem execHamperAnswer_wf (id : Nat) (s : State) (hs : s.mem.wf) : NextWf (execHamperAnswer id s) := by
  fun_cases execHamperAnswer <;> simp +zetaDelta [*]

/-! ### Frames of a gang, quotas and charges -/

@[simp] theorem State.lateEvent_wf (s : State) (p : Nat) (t : Tick) (d outcome : Nat) (hs : s.mem.wf) :
    (s.lateEvent p t d outcome).mem.wf := by simp [State.lateEvent, hs]

@[simp] theorem State.tickDone_mem (s : State) (p : Nat) (t : Tick) : (s.tickDone p t).mem = s.mem := by rfl

@[simp] theorem State.preemptFunc_mem (s : State) (f : Byte) (reason : Byte) : (s.preemptFunc f reason).mem = s.mem :=
  foldl_mem (fun _ _ => foldl_mem (fun s t => s.preemptTeam_mem t reason) _ _) _ _

@[simp] theorem State.tickPart_mem (s : State) (p : Nat) : (s.tickPart p).mem = s.mem := by
  fun_cases State.tickPart <;> simp +zetaDelta [*]

@[simp] theorem State.restoreDie_wf (s : State) (f : Byte) (since d : Nat) (hs : s.mem.wf) : (s.restoreDie f since d).mem.wf :=
  foldl_wf (fun s c h => by split <;> simp [h]) _ hs

@[simp] theorem execGangSaveDeadline_wf (s : State) (hs : s.mem.wf) : NextWf (execGangSaveDeadline s) := by
  refine (nextWf_next _).2 (foldl_wf (fun s p h => ?_) _ hs)
  split
  · exact h
  · split
    · exact h
    · exact foldl_wf (fun s d h => s.lateEvent_wf _ _ d _ h) _ h

@[simp] theorem State.escalate_mem (s : State) (f : Byte) (d : Nat) : (s.escalate f d).mem = s.mem :=
  foldl_mem (fun s t => by split <;> simp) _ _

@[simp] theorem State.voidPart_wf (s : State) (p : Nat) (hs : s.mem.wf) : (s.voidPart p).mem.wf := by
  unfold State.voidPart
  split
  · exact hs
  · dsimp only
    split
    · exact foldl_wf (fun s d h => s.restoreDie_wf _ _ d h) _ (foldl_wf (fun s d h => s.lateEvent_wf _ _ d _ h) _ hs)
    · refine foldl_wf (fun s d h => s.lateEvent_wf _ _ d _ h) _ ?_
      rw [State.modPart_mem, foldl_mem (fun s d => by simp)]
      exact hs

@[simp] theorem execGangVoidDeadline_wf (s : State) (hs : s.mem.wf) : NextWf (execGangVoidDeadline s) :=
  (nextWf_next _).2 (foldl_wf (fun s p h => s.voidPart_wf p h) _ hs)

@[simp] theorem execLateSaveRestore_wf (s : State) (hs : s.mem.wf) : NextWf (execLateSaveRestore s) := by
  refine (nextWf_next _).2 (foldl_wf (fun s p h => ?_) _ hs)
  dsimp only
  split
  · exact h
  · exact foldl_wf (fun s d h => s.restoreDie_wf _ _ d h) _ h

@[simp] theorem State.quotaOf_mem (s : State) (f : Byte) : (s.quotaOf f).mem = s.mem := by simp [State.quotaOf]

@[simp] theorem State.releaseCands_mem (s : State) (f : Byte) : (s.releaseCands f).mem = s.mem := by rfl

@[simp] theorem State.bill_mem (s : State) (f : Byte) (x : Nat) : (s.bill f x).mem = s.mem := by simp [State.bill]

@[simp] theorem State.etherCharge_mem (s : State) (f : Byte) (n : Nat) :
    (s.etherCharge f n).mem = s.mem := by simp [State.etherCharge]

/-- Charging functions one after the other. -/
theorem foldl_account_mem (l : List Byte) (x : Byte → Nat) (s : State) : (l.foldl (fun s f => s.account f (x f)) s).mem = s.mem :=
  foldl_mem (fun s f => s.account_mem f _) l s

@[simp] theorem State.split_mem (s : State) (cost cap : Nat) (units : Byte → Nat) : (s.split cost cap units).mem = s.mem := by
  unfold State.split
  extract_lets share run
  exact foldl_account_mem run share s

/-! ### Function-level reset and the management window -/

@[simp] theorem State.freeSlots_wf (s : State) (f : Byte) (hs : s.mem.wf) : (s.freeSlots f).mem.wf := by
  unfold State.freeSlots
  exact foldl_wf (fun s i h => by split <;> simp [h]) _ hs

@[simp] theorem State.flrStops_mem (s : State) (f : Byte) : (s.flrStops f).mem = s.mem := by simp [State.flrStops]

@[simp] theorem State.flrCands_wf (s : State) (f : Byte) (hs : s.mem.wf) : (s.flrCands f).mem.wf :=
  foldl_wf (fun _ _ h => foldl_wf (fun s c h => s.takeCand_wf _ c _ h) _ h) _ hs

@[simp] theorem State.rechoose_mem (s : State) (p : Nat) (f : Byte) : (s.rechoose p f).mem = s.mem := by
  fun_cases State.rechoose <;> simp

@[simp] theorem State.flr_wf (s : State) (f : Byte) (hs : s.mem.wf) : (s.flr f).mem.wf := by
  unfold State.flr
  split
  · exact hs
  extract_lets s1 stopped mine queues s3 refilled s5 s6 s7
  have h2 : stopped.mem.wf := by
    refine State.flrCands_wf _ _ ?_
    rw [State.planFlr_mem, State.flrStops_mem]
    exact hs
  clear_value stopped
  have h4 : refilled.mem.wf := foldl_wf (fun s d h => s.refillFaults_wf d _ h) _ h2
  clear_value refilled
  have h7 : s7.mem.wf := by
    unfold s7
    rw [State.rechoose_mem]
    exact State.freeSlots_wf _ f h4
  exact State.event_wf _ _ _ h7

@[simp] theorem execFlrScrubComplete_wf (s : State) (hs : s.mem.wf) : NextWf (execFlrScrubComplete s) :=
  (nextWf_next _).2 (foldl_wf (fun s k h => by simp [h]) _ hs)

@[simp] theorem State.miscWrite_wf (s : State) (o : Nat) (data : List Byte) (hs : s.mem.wf) : (s.miscWrite o data).1.mem.wf := by
  fun_cases State.miscWrite <;> simp +zetaDelta [*]
  split <;> simp +zetaDelta [*]

@[simp] theorem State.giveCur_mem (s : State) (p f : Byte) : (s.giveCur p f).mem = s.mem := by simp [State.giveCur]

@[simp] theorem State.funcWrite_mem (s : State) (o : Nat) (data : List Byte) : (s.funcWrite o data).1.mem = s.mem := by
  fun_cases State.funcWrite <;> simp +zetaDelta [*]

@[simp] theorem State.groupWrite_mem (s : State) (o : Nat) (data : List Byte) : (s.groupWrite o data).1.mem = s.mem := by
  fun_cases State.groupWrite <;> simp

@[simp] theorem State.hedgeWrite_mem (s : State) (o : Nat) (data : List Byte) : (s.hedgeWrite o data).1.mem = s.mem := by
  fun_cases State.hedgeWrite <;> simp

@[simp] theorem State.partWrite_mem (s : State) (o : Nat) (data : List Byte) : (s.partWrite o data).1.mem = s.mem := by
  fun_cases State.partWrite <;> simp

@[simp] theorem State.rotWrite_mem (s : State) (o : Nat) (data : List Byte) : (s.rotWrite o data).1.mem = s.mem := by
  fun_cases State.rotWrite <;> simp +zetaDelta [*]

@[simp] theorem State.ownerWrite_mem (s : State) (o : Nat) (data : List Byte) : (s.ownerWrite o data).1.mem = s.mem := by
  unfold State.ownerWrite
  dsimp only
  split
  · rfl
  split
  · rfl
  · exact foldl_mem (fun s e => s.modQueue_mem _ _) _ _

@[simp] theorem State.chargeWrite_mem (s : State) (o : Nat) (data : List Byte) :
    (s.chargeWrite o data).1.mem = s.mem := by simp [State.chargeWrite]

@[simp] theorem State.mgStore_wf (s : State) (o : Nat) (data : List Byte) (hs : s.mem.wf) : (s.mgStore o data).1.mem.wf := by
  fun_cases State.mgStore <;> simp [hs]

@[simp] theorem State.mgRefuse_wf (s : State) (conn : Nat) (f : Byte) (value : Nat) (hs : s.mem.wf) :
    (s.mgRefuse conn f value).mem.wf := by simp [State.mgRefuse, hs]

@[simp] theorem State.mgAccess_wf (s : State) (w : WinWrite) (hs : s.mem.wf) : (s.mgAccess w).mem.wf := by
  unfold State.mgAccess
  dsimp only
  (repeat' split) <;> simp [*]

/-! ### Windows and messages of the host -/

@[simp] theorem execUetConnectionSetup_wf (conn : Nat) (func : Byte) (s : State) (hs : s.mem.wf) :
    NextWf (execUetConnectionSetup conn func s) := by
  fun_cases execUetConnectionSetup <;> simp +zetaDelta [*]

@[simp] theorem State.flushRing_wf (s : State) (f : Byte) (hs : s.mem.wf) : (s.flushRing f).mem.wf := by
  fun_cases State.flushRing <;> simp [hs]

@[simp] theorem State.makePending_mem (s : State) (q : Nat) : (s.makePending q).mem = s.mem := by simp [State.makePending]

@[simp] theorem State.queueBell_wf (s : State) (f : Byte) (q v : Nat) (hs : s.mem.wf) : (s.queueBell f q v).mem.wf := by
  fun_cases State.queueBell <;> simp [hs]

@[simp] theorem State.ringBell_wf (s : State) (f : Byte) (o v : Nat) (hs : s.mem.wf) : (s.ringBell f o v).mem.wf := by
  fun_cases State.ringBell <;> simp [hs]

@[simp] theorem State.bells_wf (s : State) (f : Byte) (o : Nat) (data : List Byte) (n : Nat) (hs : s.mem.wf) :
    (s.bells f o data n).mem.wf := by
  fun_induction State.bells <;> grind [State.queueBell_wf, State.ringBell_wf, State.refusedEvent_wf]

@[simp] theorem State.notify_wf (s : State) (w : WinWrite) (hs : s.mem.wf) : (s.notify w).mem.wf := by
  fun_cases State.notify <;> simp +zetaDelta [*]
  split <;> simp +zetaDelta [*]

@[simp] theorem State.rmaMemory_wf (s : State) (f : Byte) (a : Rma) (hs : s.mem.wf) : (s.rmaMemory f a).mem.wf := by
  fun_cases State.rmaMemory <;> grind [State.hostWrite_ok, State.send_mem, State.partOwner_wf]

@[simp] theorem execUetRmaAccess_wf (a : Rma) (s : State) (hs : s.mem.wf) : NextWf (execUetRmaAccess a s) := by
  fun_cases execUetRmaAccess <;> simp [hs]

@[simp] theorem State.replyWith_mem (s : State) (m : Falig) (type : Nat) (f : Byte) (status : Nat) (four rest : List Byte) :
    (s.replyWith m type f status four rest).mem = s.mem := by simp [State.replyWith]

@[simp] theorem State.reply_mem (s : State) (m : Falig) (type : Nat) (f : Byte) (status : Nat) :
    (s.reply m type f status).mem = s.mem := by simp [State.reply]

theorem State.falig_wf (s : State) (m : Falig) (type : Nat) (served : Served) (pf : Bool) (ws : List Nat)
    (act : State → Byte → List Nat → State) (hs : s.mem.wf) (ha : ∀ t f us, t.mem.wf → (act t f us).mem.wf) :
    (s.falig m type served pf ws act).mem.wf := by
  fun_cases State.falig <;> grind [State.etherCharge_mem, State.reply_mem]

@[simp] theorem State.otherType_mem (s : State) (type : Byte) (m : Falig) : (s.otherType type m).mem = s.mem := by
  fun_cases State.otherType <;> simp +zetaDelta [*]

@[simp] theorem State.createQueue_wf (s : State) (f : Byte) (q : Nat) (a : Dword) (hs : s.mem.wf) :
    (s.createQueue f q a).1.mem.wf := by
  fun_cases State.createQueue <;> simp +zetaDelta [*]

@[simp] theorem State.destroyQueue_mem (s : State) (f : Byte) (q : Nat) : (s.destroyQueue f q).1.mem = s.mem := by
  fun_cases State.destroyQueue <;> simp +zetaDelta [*]

@[simp] theorem State.cancelItems_wf (s : State) (q wid : Nat) (hs : s.mem.wf) : (s.cancelItems q wid).1.mem.wf := by
  unfold State.cancelItems
  dsimp only
  rw [State.modQueue_mem, foldl_mem (fun s d => foldl_mem (fun s r => by simp) _ _)]
  refine foldl_wf (fun s h hh => ?_) _ (foldl_wf (fun s d h => foldl_wf (fun s c h => s.retire_wf _ c _ h) _ h) _ hs)
  split
  · exact State.retire_wf _ _ _ _ hh
  · exact hh

@[simp] theorem State.cancel_wf (m : Falig) (s : State) (hs : s.mem.wf) : (State.cancel m s).mem.wf :=
  s.falig_wf m _ _ _ _ _ hs fun t f us h => by dsimp only; split <;> simp [h]

@[simp] theorem execCancel_wf (m : Falig) (s : State) (hs : s.mem.wf) : NextWf (execCancel m s) := by
  unfold execCancel
  split <;> simp [hs]

@[simp] theorem execFaultAnswer_wf (m : Falig) (s : State) (hs : s.mem.wf) : NextWf (execFaultAnswer m s) :=
  (nextWf_next _).2 (s.falig_wf m _ _ _ _ _ hs fun t f us h => by grind [State.reply_mem, State.answer_wf])

@[simp] theorem execImageLoad_wf (m : Falig) (s : State) (hs : s.mem.wf) : NextWf (execImageLoad m s) :=
  (nextWf_next _).2 (s.falig_wf m _ _ _ _ _ hs fun t f us h => by dsimp only; split <;> [skip; split] <;> simp [h])

@[simp] theorem State.verified_wf (s : State) (hs : s.mem.wf) : s.verified.mem.wf := by
  fun_cases State.verified
  · exact hs
  · next m _ s1 answer r fl _ =>
    have ha : (answer { s1 with boot := { s1.boot with reason := r, flags := fl } } 1).mem = s.mem := by
      unfold answer
      cases mget? s1.conns m.conn with
      | none => rfl
      | some c => exact State.reply_mem ..
    rw [ha]
    exact hs
  · exact State.reborn_wf _ _

/-! ### The clock, and what an act comes to -/

@[simp] theorem State.tick_mem (s : State) : s.tick.mem = s.mem := by
  fun_cases State.tick <;> rfl

/-- What is to run, and what an act has made, has canonical memory. -/
def FetchedWf : Fetched → Prop
  | .run _ t => t.mem.wf
  | .done t => t.mem.wf

theorem fetchStream_wf (s : State) (k : CoreIx) (st : Stream) (hs : s.mem.wf) : FetchedWf (s.fetchStream k st) := by
  fun_cases State.fetchStream <;> grind [FetchedWf]

theorem fetchQueue_wf (s : State) (k : CoreIx) (hs : s.mem.wf) : FetchedWf (s.fetchQueue k) := by
  fun_cases State.fetchQueue <;> exact hs

theorem fetchNest_wf (s : State) (k : CoreIx) (hs : s.mem.wf) : FetchedWf (s.fetchNest k) := by
  fun_cases State.fetchNest <;>
    grind [FetchedWf, State.modMx_mem, State.engFault_mem, State.engFaultFree_mem, State.nestMove_wf, Yields]

theorem fetch_wf (s : State) (a : Act) (hs : s.mem.wf) : FetchedWf (s.fetch a) := by
  cases a
  case issue k st => exact fetchStream_wf s k st hs
  case nest k => exact fetchNest_wf s k hs
  case startCmd k => exact fetchQueue_wf s k hs
  case perform k id => exact s.perform_wf k.val id hs
  case event i => exact hs
  case otherMessage t m => exact State.wf_of_mem_eq (State.otherType_mem ..) hs
  case timeSync ns => exact hs
  case overload d => exact State.wf_of_mem_eq (State.overloadDie_mem ..) hs
  case heat d => exact State.wf_of_mem_eq (State.thermal_mem ..) hs
  case verified => exact s.verified_wf hs
  case cancelLate m => exact State.cancel_wf m s hs
  case tick => exact State.wf_of_mem_eq s.tick_mem hs

/-! ### Instructions and events -/

theorem exec_wf (i : Instr) (s : State) (hs : s.mem.wf) : NextWf (exec i s) := by
  cases i
  -- words that put a result in a register of the sequencer
  case add | sub | mul | mulh | mulhu | and | or | xor | andn | sll | srl | sra | ror | min | max | minu | maxu | lea1 | lea2
    | lea3 | addi | andi | ori | xori | slli | srli | srai | rori | movi | movk | popc | clz | ctz | brev | bswap | bfx | bfxs
    | bfi | sel | prd => exact nextWf_of_mem_eq (State.putG_mem ..) hs
  case cmp | cmpi | pand | por | pxor | pandn => exact nextWf_of_mem_eq (State.putP_mem ..) hs
  -- loads, stores and waits for tags
  case ldBz | ldBs | ldHz | ldHs | ldWz | ldWs | ldDz => exact (nextWf_next _).2 (State.load_wf (hs := hs) ..)
  case stB | stH | stW | stD => exact (nextWf_next _).2 (State.store_wf (hs := hs) ..)
  case twany | twall | tffr => exact nextWf_of_mem_eq (State.tagWaitAt_mem ..) hs
  -- words of X
  case xcpy | xgat | xsct | xfil | xmcs | xpf | xwb | xput | xget | selk | xcfg | acwAdd32 | acwAdd64 | acwAddf | acwMax32
    | acwMax64 | acwMaxf | acwMin32 | acwMin64 | acwMinf | acwAnd32 | acwAnd64 | acwOr32 | acwOr64 | acwXchg32 | acwXchg64
    | cmb | xrcl => exact nextWf_of_mem_eq (State.xferIssue_mem ..) hs
  case xtok => exact nextWf_of_mem_eq (State.tokenWord_mem ..) hs
  case xrdv => exact nextWf_of_mem_eq (State.rdvWord_mem ..) hs
  case xnfy => exact nextWf_of_mem_eq (State.notifyWord_mem ..) hs
  -- words of M
  case mma | mmaz => exact (nextWf_next _).2 (State.mmaWord_wf (hs := hs) ..)
  case oaInit | oaHouse | oaApp | oaFold | oaSpill | oaFill | oaCnt => exact (nextWf_next _).2 (State.oaWord_wf (hs := hs) ..)
  case oaLeft | oaRight => exact (nextWf_next _).2 (State.oaApply_wf (hs := hs) ..)
  -- words of V
  case vshpDim | vshpCur | vshpFmt => exact nextWf_of_mem_eq (State.vshp_mem ..) hs
  case vadd | vsub | vmul | vmin | vmax | vdiv | vqnt | vqntr | vdqnt => exact (nextWf_next _).2 (State.vEw2_wf (hs := hs) ..)
  case vabs | vneg | vsqrt | vcvtf | vrsenc | vrsdec | vrsqrt | vrcp => exact (nextWf_next _).2 (State.vEw1_wf (hs := hs) ..)
  case vand | vor | vxor | vshl | vshr | vsra => exact (nextWf_next _).2 (State.vBits_wf (hs := hs) ..)
  case vceq | vcne | vclt | vcle | vcgt | vcge => exact (nextWf_next _).2 (State.vCmp_wf (hs := hs) ..)
  case vmand | vmor | vmxor | vmnot => exact (nextWf_next _).2 (State.vMask_wf (hs := hs) ..)
  case vexp | vexp2 | vlog | vlog2 | vsin | vcos | vtanh => exact (nextWf_next _).2 (State.vBounded_wf (hs := hs) ..)
  case vrotr | vrotc | vbcr | vbcc => exact (nextWf_next _).2 (State.vAxis_wf (hs := hs) ..)
  case vsumr | vsumc | vmaxr | vmaxc | vminr | vminc => exact (nextWf_next _).2 (State.vReduce_wf (hs := hs) ..)
  -- management and notify windows
  case mgWrite | flr | functionRecordWrite | coreGroupMapWrite | slotTableWrite | rotPortWrite =>
    exact (nextWf_next _).2 (State.mgAccess_wf (hs := hs) ..)
  case queueDoorbell | eventRingDoorbell => exact (nextWf_next _).2 (State.notify_wf (hs := hs) ..)
  -- plan words with a request that moves no memory, and host messages
  case qpin | qunpin | qevict => exact (nextWf_next _).2 (State.planWord_wf _ _ _ (fun t ht => by simp [ht]) hs)
  case moduleSet | queueCreate | queueDestroy | netctxSet | attest | bootRecord =>
    exact (nextWf_next _).2 (State.falig_wf _ _ _ _ _ _ _ hs fun t f us h => by simp [h])
  case tlbInval | evringSet =>
    exact (nextWf_next _).2 (State.falig_wf _ _ _ _ _ _ _ hs fun t f us h => by
      dsimp only
      split <;> simp [h])
  case imageCommit => exact (nextWf_next _).2 (State.falig_wf _ _ _ _ _ _ _ hs fun t f us h => by split <;> simp [h])
  -- words and events that are one run of operations of the state
  case pwr | br | call | jmp | jmpl | ret | exit | yield | trap | unassignedEncoding | seedWrite | tagsClear | flagsClear
    | bfmtWrite | mrd | vtok | vrdv | vnfy | samplerSample | hardStop | powerLoss | dieOverload | freeSlotBroadcast | gangTick
    | quotaCheck | quotaWindowStart | sharedChargeTick =>
    simp [exec, execPwr, execBr, execCall, execJmp, execJmpl, execRet, execExit, execYield, execTrap,
      execUnassignedEncoding, execSeedWrite, execTagsClear, execFlagsClear, execBfmtWrite, execMrd, execVtok, execVrdv,
      execVnfy, execSamplerSample, execHardStop, execPowerLoss, execDieOverload, execFreeSlotBroadcast, execGangTick,
      execQuotaCheck, execQuotaWindowStart, execSharedChargeTick, hs]
  -- every other event has its own lemma
  all_goals simp [exec, hs]

/-! ### One step -/

theorem step_wf (s : State) (hs : s.mem.wf) : NextWf (step s) := by
  unfold step
  split
  · exact nextWf_fault _
  next a t e =>
    have hf := fetch_wf t a (by rw [State.select_mem s e]; exact hs)
    split
    · next i u e => rw [e] at hf; exact exec_wf i u hf
    · next u e => rw [e] at hf; exact (nextWf_next u).2 hf

end Sys2Proof.Machine

/-- Settles O5: an act that the step takes keeps the form (`fetch_wf`), and so does the instruction or event it comes to (`exec_wf`). -/
theorem everyStepKeepsMemoryCanonical : Obligations.EveryStepKeepsMemoryCanonical :=
  fun s t hs e => Sys2Proof.Machine.step_wf s hs t e
end

section
/-! SUPPORT. What a step does when the first planned act is that a stream issues: the stream's fetch, and the instruction that the word
at its pc comes to. -/

namespace Sys2Proof.Machine

/-- The state once a planned act is taken and `rest` of the plan is left. -/
def State.taking (s : State) (rest : List Planned) : State := { s with agenda := rest }

@[simp] theorem State.core_taking (s : State) (rest : List Planned) (k : Nat) : (s.taking rest).core k = s.core k := rfl

/-- The state in which a stream of core k acts, with q as its block stream. -/
def State.acting (s : State) (k : CoreIx) (q : Fin 4) (st : Stream) : State := { s with cur := { k := k, q := q, st := st } }

/-- With nothing due, a step takes the first planned act whose clk has come; where it comes to an instruction, the step is its meaning. -/
theorem step_of_fetch {s u : State} {n : Nat} {a : Act} {rest : List Planned} {i : Instr} (hd : s.due = [])
    (ha : s.agenda = ⟨n, a⟩ :: rest) (hn : n ≤ s.clk) (hf : (s.taking rest).fetch a = .run i u) : step s = exec i u := by
  have hs : s.select = some (a, s.taking rest) := by
    unfold State.select
    simp only [hd, ha, hn, if_true, State.taking]
  unfold step
  rw [hs]
  dsimp only
  rw [hf]

theorem Core.live_of {c : Core} (hj : c.job.isSome) (hf : c.fault = none) (hp : c.preempt = none) : c.live = true := by
  simp [Core.live, hj, hf, hp]

/-- A ready block stream that holds the pipeline of a live core fetches the word at its pc. -/
theorem fetchStream_block {s : State} {k : CoreIx} {st : Stream} {q : Fin 4} (hst : [Stream.q0, .q1, .q2, .q3][q.val]? = some st)
    (hl : (s.core k.val).live = true) (hq : (s.core k.val).curq = q) (hi : (s.core k.val).idle = false)
    (hr : (s.core k.val).q[q.val].st = .ready) :
    s.fetchStream k st = .run (fetchWord .seq (vget (s.core k.val).code q.val []) (s.core k.val).q[q.val].pc.toNat)
      (s.acting k q st) := by
  fin_cases q <;> simp at hst <;> subst hst <;>
    simp_all [State.fetchStream, State.acting, Core.canIssue, streamIx]

/-- A running engine stream of a live core fetches the word at its pc. -/
theorem fetchStream_engine {s : State} {k : CoreIx} {st : Stream} {e : Eng} {j : Nat} {m : OpMap}
    (hst : (st, e, j, m) ∈ [(Stream.xl, (s.core k.val).xl, 4, OpMap.xfer), (.m, (s.core k.val).m, 5, .matrix),
      (.v, (s.core k.val).v, 6, .vector), (.xs, (s.core k.val).xs, 7, .xfer)])
    (hl : (s.core k.val).live = true) (hr : e.st = .running) :
    s.fetchStream k st = .run (fetchWord m (vget (s.core k.val).code j []) e.pc.toNat)
      (s.acting k (s.core k.val).curq st) ∧ m ≠ .seq := by
  simp only [List.mem_cons, Prod.mk.injEq, List.mem_nil_iff, or_false] at hst
  rcases hst with ⟨rfl, rfl, rfl, rfl⟩ | ⟨rfl, rfl, rfl, rfl⟩ | ⟨rfl, rfl, rfl, rfl⟩ | ⟨rfl, rfl, rfl, rfl⟩ <;>
    exact ⟨by simp [State.fetchStream, State.acting, hl, hr, Core.eng, streamIx, Stream.opMap], by decide⟩

/-! ### The word at a program counter -/

theorem fetchWord_ok {m : OpMap} {code : List Word} {pc : Nat} {w : Word} {i : Instr} (hw : code[pc]? = some w)
    (hd : decodeWord m w = .ok i) : fetchWord m code pc = i := by
  simp [fetchWord, hw, hd]

theorem fetchWord_seq_error {code : List Word} {pc : Nat} {w : Word} {e} (hw : code[pc]? = some w)
    (hd : decodeWord .seq w = .error e) : fetchWord .seq code pc = .unassignedEncoding w := by
  simp [fetchWord, hw, hd]

theorem fetchWord_engine_error {m : OpMap} {code : List Word} {pc : Nat} {w : Word} {e} (hm : m ≠ .seq) (hw : code[pc]? = some w)
    (hd : decodeWord m w = .error e) : fetchWord m code pc = .illstep w := by
  cases m <;> simp_all [fetchWord]

theorem fetchWord_past {m : OpMap} {code : List Word} {pc : Nat} (h : code.length ≤ pc) : fetchWord m code pc = .fetchRangeError := by
  simp [fetchWord, List.getElem?_eq_none h]

end Sys2Proof.Machine

section

open Sys2Proof Sys2Proof.Machine

/-- Settles O3: the step takes the planned act (`step_planned`), the stream fetches the word at its pc (`fetchStream_block`,
`fetchStream_engine`), and `fetchWord` gives the instruction or the event. -/
theorem stepRunsTheDecodedInstruction : Obligations.StepRunsTheDecodedInstruction := by
  intro s k st n rest hd ha hn c code gives hj hf hp
  have hl : ((s.taking rest).core k.val).live = true := Core.live_of hj hf hp
  constructor
  · intro q hst hq hi hr
    have hstep := step_of_fetch hd ha hn (fetchStream_block (s := s.taking rest) hst hl hq hi hr)
    exact ⟨fun w i hw hi => hstep.trans (congrArg (exec · _) (fetchWord_ok hw hi)),
      fun w e hw he => hstep.trans (congrArg (exec · _) (fetchWord_seq_error hw he)),
      fun h => hstep.trans (congrArg (exec · _) (fetchWord_past h))⟩
  · intro e j m hst hr
    obtain ⟨hfetch, hm⟩ := fetchStream_engine (s := s.taking rest) hst hl hr
    have hstep := step_of_fetch hd ha hn hfetch
    exact ⟨fun w i hw hi => hstep.trans (congrArg (exec · _) (fetchWord_ok hw hi)),
      fun w e hw he => hstep.trans (congrArg (exec · _) (fetchWord_engine_error hm hw he)),
      fun h => hstep.trans (congrArg (exec · _) (fetchWord_past h))⟩

end
end

section
/-! SUPPORT. What the shared operations of the engine streams do (R16 to R26): tokens, outstanding words and their draining, notify and
rendezvous. Proofs about words of X, M and V cite these and do not unfold the operations. -/

namespace Sys2Proof.Safety

open Sys2Proof.Machine

/-- Any change of one core is a step of it. -/
theorem modCore_step (s : State) (k : Nat) (f : Core → Core) : CoreStep s (s.modCore k f) k (f (s.core k)) :=
  ⟨rfl, congrArg coreRest (State.core_modCore_self ..), fun _ h => State.core_modCore_ne _ _ h, fun _ => rfl, fun _ => rfl⟩

theorem setCore_step (s : State) (k : Nat) (c : Core) : CoreStep s (s.setCore k c) k c :=
  ⟨rfl, congrArg coreRest (State.core_setCore_self ..), fun _ h => State.core_setCore_ne _ _ h, fun _ => rfl, fun _ => rfl⟩

/-- Two steps of one core are a step. -/
theorem CoreStep.trans {s t u : State} {k : Nat} {c d : Core} (h : CoreStep s t k c) (g : CoreStep t u k d) : CoreStep s u k d :=
  ⟨rest_of ((rest_to g.rest).trans (rest_to h.rest)), g.core, fun j hj => (g.cores j hj).trans (h.cores j hj),
    fun i => (g.funcs i).trans (h.funcs i), fun a => (g.mem a).trans (h.mem a)⟩

end Sys2Proof.Safety

namespace Sys2Proof.Machine

/-- Writing an element within the bounds. -/
theorem vset_lt {β : Type} {n : Nat} (v : Vector β n) {i : Nat} (x : β) (h : i < n) : vset v i x = v.set i x h := by
  apply Vector.ext
  intro j hj
  simp [vset, Vector.getElem_setIfInBounds, Vector.getElem_set]

/-! ### Engine streams of a core -/

/-- The streams that have an engine. -/
def engineStreams : List Stream := [.xl, .m, .v, .xs]

theorem mem_engineStreams {st : Stream} : st ∈ engineStreams ↔ st = .xl ∨ st = .m ∨ st = .v ∨ st = .xs := by
  simp [engineStreams]

@[simp] theorem Core.modEng_fifo (c : Core) (st : Stream) (f : Eng → Eng) : (c.modEng st f).fifo = c.fifo := by cases st <;> rfl
@[simp] theorem Core.modEng_mx (c : Core) (st : Stream) (f : Eng → Eng) : (c.modEng st f).mx = c.mx := by cases st <;> rfl
@[simp] theorem Core.modEng_rdv (c : Core) (st : Stream) (f : Eng → Eng) : (c.modEng st f).rdv = c.rdv := by cases st <;> rfl
@[simp] theorem Core.modEng_job (c : Core) (st : Stream) (f : Eng → Eng) : (c.modEng st f).job = c.job := by cases st <;> rfl
@[simp] theorem Core.modEng_modEng (c : Core) (st : Stream) (f g : Eng → Eng) :
    (c.modEng st f).modEng st g = c.modEng st fun e => g (f e) := by cases st <;> rfl

theorem Core.eng_modEng_self (c : Core) {st : Stream} (f : Eng → Eng) (h : st ∈ engineStreams) :
    (c.modEng st f).eng st = f (c.eng st) := by
  rcases mem_engineStreams.1 h with rfl | rfl | rfl | rfl <;> rfl

theorem Core.eng_modEng_ne (c : Core) {st u : Stream} (f : Eng → Eng) (hst : st ∈ engineStreams) (hu : u ∈ engineStreams) (h : u ≠ st) :
    (c.modEng st f).eng u = c.eng u := by
  rcases mem_engineStreams.1 hst with rfl | rfl | rfl | rfl <;> rcases mem_engineStreams.1 hu with rfl | rfl | rfl | rfl <;>
    simp_all [Core.modEng, Core.eng]

/-- A core but for what the words of its engine streams move: the streams, the FIFOs, the counter of words. -/
def engRest (c : Core) : Core := { c with fifo := Vector.replicate 10 {}, xl := {}, m := {}, v := {}, xs := {}, next := 0 }

@[simp] theorem engRest_modEng (c : Core) (st : Stream) (f : Eng → Eng) : engRest (c.modEng st f) = engRest c := by cases st <;> rfl

theorem rdv_of_engRest {c d : Core} (h : engRest c = engRest d) : c.rdv = d.rdv := by
  have := congrArg Core.rdv h
  exact this

theorem job_of_engRest {c d : Core} (h : engRest c = engRest d) : c.job = d.job := by
  have := congrArg Core.job h
  exact this

@[simp] theorem Core.eng_setJob (c : Core) (j : Option Job) (st : Stream) : ({ c with job := j } : Core).eng st = c.eng st := by
  cases st <;> rfl

@[simp] theorem Core.eng_setRdv (c : Core) (r : Vector Rdv 4) (st : Stream) : ({ c with rdv := r } : Core).eng st = c.eng st := by
  cases st <;> rfl

@[simp] theorem Core.eng_setSys (c : Core) (y : Sys) (st : Stream) : ({ c with sys := y } : Core).eng st = c.eng st := by
  cases st <;> rfl

@[simp] theorem Core.eng_setNext (c : Core) (n : Nat) (st : Stream) : ({ c with next := n } : Core).eng st = c.eng st := by
  cases st <;> rfl

/-! ### Tokens -/

/-- What M's acquiring (R274) makes of a core whose word of stream st with tokens t issues. -/
def Core.acquired (c : Core) (st : Stream) (t : Tok) : Core :=
  { c with mx := { c.mx with synced := c.mx.synced || (decide (st = .m) && t.pop != 0#2) } }

theorem Core.takeTokens_eq (c : Core) (st : Stream) (t : Tok) :
    c.takeTokens st t = { c.acquired st t with fifo := (c.takeTokens st t).fifo } := by
  have hsync : (if st = .m && t.pop != 0#2 then c.syncM else c) = c.acquired st t := by
    unfold Core.acquired Core.syncM
    cases decide (st = .m) && t.pop != 0#2 <;> simp
  unfold Core.takeTokens
  rw [hsync]

@[simp] theorem engRest_takeTokens (c : Core) (st : Stream) (t : Tok) : engRest (c.takeTokens st t) = engRest (c.acquired st t) := by
  rw [Core.takeTokens_eq]; rfl

theorem Core.takeTokens_eng (c : Core) (st u : Stream) (t : Tok) : (c.takeTokens st t).eng u = c.eng u := by
  rw [Core.takeTokens_eq]; cases u <;> rfl

theorem Core.takeTokens_next (c : Core) (st : Stream) (t : Tok) : (c.takeTokens st t).next = c.next := by rw [Core.takeTokens_eq]; rfl

/-- A FIFO one of whose reserved tokens has become visible (R19). -/
def Fifo.visible (f : Fifo) : Fifo := { f with count := f.count + 1, reserved := f.reserved - 1, shown := f.shown + 1 }

theorem Core.showToken_eq (c : Core) (p : Option Nat) : c.showToken p = { c with fifo := (c.showToken p).fifo } := by cases p <;> rfl

/-- A token that becomes visible moves its own FIFO alone. -/
theorem Core.showToken_fifo (c : Core) (p : Option Nat) {n : Nat} (hn : n < 10) :
    vget (c.showToken p).fifo n {} = if p = some n then (vget c.fifo n {}).visible else vget c.fifo n {} := by
  cases p with
  | none => rfl
  | some i =>
    by_cases h : i = n
    · subst h; simp [Core.showToken, Fifo.visible, hn]
    · simp [Core.showToken, h, vget_vset_ne _ _ _ (Ne.symm h)]

@[simp] theorem engRest_showToken (c : Core) (p : Option Nat) : engRest (c.showToken p) = engRest c := by rw [Core.showToken_eq]; rfl

theorem Core.showToken_modEng (c : Core) (p : Option Nat) (st : Stream) (f : Eng → Eng) :
    (c.modEng st f).showToken p = (c.showToken p).modEng st f := by cases st <;> cases p <;> rfl

@[simp] theorem Core.showToken_eng (c : Core) (p : Option Nat) (st : Stream) : (c.showToken p).eng st = c.eng st := by
  rw [Core.showToken_eq]; cases st <;> rfl

/-! ### Outstanding words -/

@[simp] theorem engRest_begin (c : Core) (st : Stream) (o : Outst) : engRest (c.begin_ st o) = engRest c := by
  unfold Core.begin_
  rw [engRest_modEng]
  rfl

/-- Words of which none is complete stay as they are. -/
theorem Core.drainList_of_undone (c : Core) (st : Stream) (others left : List Outst) {os : List Outst} (h : ∀ o ∈ os, o.done = false) :
    c.drainList st others left os = (c, left ++ os) := by
  induction os generalizing left with
  | nil => simp [Core.drainList]
  | cons o t ih => simp [Core.drainList, h o (by simp), ih (left ++ [o]) fun x hx => h x (by simp [hx])]

/-- The oldest word, complete and hidden by no word of `others`, shows its token and is dropped; the words behind it, none complete, stay. -/
theorem Core.drainList_first (c : Core) (st : Stream) {others rest : List Outst} {o : Outst} (hd : o.done = true)
    (ho : ∀ x ∈ others, o.id ≤ x.id ∨ x.push ≠ o.push) (hr : ∀ x ∈ rest, x.done = false) :
    c.drainList st others [] (o :: rest) = (c.showToken o.push, rest) := by
  have hfree : (others.any fun e => e.id < o.id && e.push == o.push) = false := by
    rw [List.any_eq_false]
    intro x hx
    rcases ho x hx with h | h
    · simp; omega
    · simp [h]
  simp [Core.drainList, hd, hfree, Core.drainList_of_undone _ _ _ _ hr]

@[simp] theorem engRest_drainList (c : Core) (st : Stream) (others left os : List Outst) :
    engRest (c.drainList st others left os).1 = engRest c := by
  induction os generalizing c left with
  | nil => rfl
  | cons o t ih =>
    unfold Core.drainList
    split
    · rw [ih, engRest_showToken]
    · exact ih ..

theorem Core.drain_eq (c : Core) (st : Stream) :
    c.drain st = (c.drainList st (if st = .m then c.mx.outst else []) [] (c.eng st).outst).1.modEng st fun e =>
      { e with outst := (c.drainList st (if st = .m then c.mx.outst else []) [] (c.eng st).outst).2 } := rfl

@[simp] theorem engRest_drain (c : Core) (st : Stream) : engRest (c.drain st) = engRest c := by
  rw [Core.drain_eq, engRest_modEng, engRest_drainList]

/-! ### Completion of a word -/

theorem flagsAt_absent {os : List Outst} {id : Nat} (h : ∀ o ∈ os, o.id ≠ id) (f : Byte) :
    os.foldl (fun f o => if o.id = id && !o.done then f ||| o.fl else f) f = f := by
  induction os with
  | nil => rfl
  | cons o t ih =>
    rw [List.foldl_cons, if_neg (by simp [h o (by simp)])]
    exact ih fun x hx => h x (by simp [hx])

/-- The flags of the oldest word, which is not complete and shares its number with no other. -/
theorem flagsAt_first {o : Outst} {rest : List Outst} (hd : o.done = false) (hr : ∀ x ∈ rest, x.id ≠ o.id) :
    flagsAt (o :: rest) o.id = o.fl := by
  unfold flagsAt
  rw [List.foldl_cons, flagsAt_absent hr]
  simp [hd]

/-- The flags that a completion sets in an engine's register (R357); a word that sets none leaves it. -/
def Sys.flagged (y : Sys) (i : Nat) (f : Byte) : Sys := if f = 0#8 then y else y.setFlags i f

theorem Core.flagged_eq (c : Core) (i : Nat) (f : Byte) :
    (if f = 0#8 then c else { c with sys := c.sys.setFlags i f }) = { c with sys := c.sys.flagged i f } := by
  unfold Sys.flagged; split <;> rfl

theorem map_done_first {o : Outst} {rest : List Outst} (hr : ∀ x ∈ rest, x.id ≠ o.id) :
    (o :: rest).map (fun x => if x.id = o.id then { x with done := true } else x) = { o with done := true } :: rest := by
  rw [List.map_cons, if_pos rfl]
  congr 1
  exact (List.map_congr_left fun x hx => if_neg (hr x hx)).trans (List.map_id' rest)

/-- The completion of a stream's oldest word (R19): its flags are set, its token is visible, it is gone with its locks. -/
theorem Core.finish_first (c : Core) {st : Stream} {o : Outst} {rest : List Outst} (hst : st ∈ engineStreams)
    (ho : (c.eng st).outst = o :: rest) (hd : o.done = false) (hr : ∀ x ∈ rest, x.done = false ∧ x.id ≠ o.id)
    (hm : st = .m → ∀ x ∈ c.mx.outst, o.id ≤ x.id ∨ x.push ≠ o.push) :
    c.finish st o.id = ({ c with sys := c.sys.flagged (flagIx st) o.fl }.showToken o.push).modEng st fun e => { e with outst := rest } := by
  have hids : ∀ x ∈ rest, x.id ≠ o.id := fun x hx => (hr x hx).2
  unfold Core.finish
  rw [ho, flagsAt_first hd hids]
  dsimp only
  rw [Core.flagged_eq, Core.drain_eq, Core.eng_modEng_self _ _ hst]
  rw [Core.eng_setSys, ho, map_done_first hids, Core.drainList_first _ _ rfl _ fun x hx => (hr x hx).1]
  · simp only [Core.showToken_modEng, Core.modEng_modEng]
  · intro x hx
    split at hx
    · rename_i h
      exact hm h x (by simpa using hx)
    · simp at hx

/-- A completion changes, beside streams and FIFOs, the engine's flags alone. -/
theorem engRest_finish (c : Core) (st : Stream) (id : Nat) :
    engRest (c.finish st id) = engRest { c with sys := c.sys.flagged (flagIx st) (flagsAt (c.eng st).outst id) } := by
  unfold Core.finish
  dsimp only
  rw [Core.flagged_eq, engRest_drain, engRest_modEng]

/-- A word that sets no flags completes: beside streams and FIFOs nothing changes. -/
theorem engRest_finish_quiet {c : Core} {st : Stream} {id : Nat} (h : flagsAt (c.eng st).outst id = 0#8) :
    engRest (c.finish st id) = engRest c := by
  rw [engRest_finish, h]
  rfl

end Sys2Proof.Machine
end

section
/-! SUPPORT. Notify and rendezvous words of the engine streams: a stream with no earlier word outstanding ends, or arrives, at once. -/

namespace Sys2Proof.Safety

open Sys2Proof.Machine

/-! ### Masks of streams -/

/-- A mask meets the mask of one stream just when it has its bit. -/
theorem and_maskOf_ne_zero (m : Byte) {i : Nat} (hi : i < 8) : m &&& 1#8 <<< i ≠ 0#8 ↔ maskHas m i = true := by
  have h : m &&& 1#8 <<< i = if m.getLsbD i then 1#8 <<< i else 0#8 := by
    simpa [BitVec.twoPow] using BitVec.and_twoPow m i
  have hne : 1#8 <<< i ≠ 0#8 := by
    intro e
    have := congrArg (fun b : Byte => b.getLsbD i) e
    simp [hi] at this
  unfold maskHas
  rw [h]
  split <;> simp_all

theorem streamIx_lt (st : Stream) : streamIx st < 8 := by cases st <;> decide

/-! ### A stream that stands at its word -/

/-- The core with a notify or rendezvous word of stream st issued, at which the stream now stands in state x. -/
def standing (c : Core) (st : Stream) (t : Tok) (x : EngState) : Core :=
  ((c.takeTokens st t).begin_ st { id := 0, push := pushFifo st t.push, own := true }).modEng st fun e => { e with st := x }

@[simp] theorem engRest_standing (c : Core) (st : Stream) (t : Tok) (x : EngState) :
    engRest (standing c st t x) = engRest (c.acquired st t) := by simp [standing]

/-- A word that stands behind no other is its stream's only one outstanding. -/
theorem standing_eng {c : Core} {st : Stream} (t : Tok) (x : EngState) (hst : st ∈ engineStreams) (ho : (c.eng st).outst = []) :
    (standing c st t x).eng st =
      { c.eng st with st := x, outst := [{ id := c.next, push := pushFifo st t.push, own := true }] } := by
  unfold standing Core.begin_
  rw [Core.modEng_modEng, Core.eng_modEng_self _ _ hst]
  rw [Core.eng_setNext, Core.takeTokens_eng, ho, Core.takeTokens_next]
  rfl

/-! ### Notify -/

/-- A stream at its notify with no other word outstanding ends (R26). -/
theorem progressEng_notify {s : State} {k : Nat} {st : Stream} {o : Outst} (hs : ((s.core k).eng st).st = .notify)
    (ho : ((s.core k).eng st).outst = [o]) :
    s.progressEng k st = (s.setCore k (((s.core k).finish st o.id).modEng st fun e => { e with st := .ended })).reachEnd k (streamIx st)
      ((s.core k).eng st).pc := by
  unfold State.progressEng
  simp only [hs, ho]

/-- The core with the done bit of stream i of its job. -/
def doneAt (c : Core) (i : Nat) : Core := { c with job := c.job.map fun j => { j with done := j.done ||| maskOf i } }

/-- A stream reaches its end: its done bit, where no rendezvous waits for it. -/
theorem reachEnd_unawaited {s : State} {k i : Nat} (pc : Word)
    (h : ∀ r < 4, (vget (s.core k).rdv r {}).mask = 0#8 ∨ (vget (s.core k).rdv r {}).mask.getLsbD i = false) :
    s.reachEnd k i pc = s.modCore k (doneAt · i) := by
  unfold State.reachEnd
  dsimp only
  rw [if_neg]
  · rfl
  simp only [upto, List.any_eq_true, List.mem_range, not_exists, not_and, State.core_modCore_self, maskHas]
  intro r hr
  rcases h r hr with h | h <;> simp [h]

/-- The core with a notify word of stream st issued and complete, the stream ended. -/
def notified (c : Core) (st : Stream) (t : Tok) : Core :=
  ((standing c st t .notify).finish st c.next).modEng st fun e => { e with st := .ended }

theorem engRest_notified {c : Core} {st : Stream} (t : Tok) (hst : st ∈ engineStreams) (ho : (c.eng st).outst = []) :
    engRest (notified c st t) = engRest (c.acquired st t) := by
  have hfl : flagsAt ((standing c st t .notify).eng st).outst c.next = 0#8 := by
    rw [standing_eng t .notify hst ho]
    simp [flagsAt]
  unfold notified
  rw [engRest_modEng, engRest_finish_quiet hfl, engRest_standing]

/-- A notify word behind no other, at which no rendezvous waits (R26). -/
theorem notifyWord_eq {s : State} {t : Tok} (hst : s.cur.st ∈ engineStreams) (hok : s.me.tokensOk s.cur.st t = true)
    (ho : (s.me.eng s.cur.st).outst = [])
    (hr : ∀ r < 4, (vget s.me.rdv r {}).mask = 0#8 ∨ (vget s.me.rdv r {}).mask.getLsbD (streamIx s.cur.st) = false) :
    s.notifyWord t = ((s.modCore s.cur.k.val (standing · s.cur.st t .notify)).setCore s.cur.k.val (notified s.me s.cur.st t)).modCore
      s.cur.k.val (doneAt · (streamIx s.cur.st)) := by
  have heng := standing_eng t .notify hst ho
  have hcore : (s.modCore s.cur.k.val (standing · s.cur.st t .notify)).core s.cur.k.val = standing s.me s.cur.st t .notify :=
    State.core_modCore_self ..
  have hrdv : (notified s.me s.cur.st t).rdv = s.me.rdv :=
    rdv_of_engRest (d := s.me.acquired s.cur.st t) (engRest_notified t hst ho)
  have h : s.notifyWord t = (s.modCore s.cur.k.val (standing · s.cur.st t .notify)).progressEng s.cur.k.val s.cur.st := if_pos hok
  rw [h, progressEng_notify (by rw [hcore, heng]) (by rw [hcore, heng]), hcore, heng]
  exact reachEnd_unawaited _ (by rw [State.core_setCore_self]; exact hrdv ▸ hr)

/-- A notify word behind no other: its stream ends (R26). -/
theorem notifyWord_ends {s : State} {t : Tok} {j : Job} (hst : s.cur.st ∈ engineStreams) (hj : s.me.job = some j)
    (hok : s.me.tokensOk s.cur.st t = true) (ho : (s.me.eng s.cur.st).outst = [])
    (hr : ∀ r < 4, (vget s.me.rdv r {}).mask = 0#8 ∨ (vget s.me.rdv r {}).mask.getLsbD (streamIx s.cur.st) = false) :
    ∃ d, CoreStep s (s.notifyWord t) s.cur.k.val d ∧ (d.eng s.cur.st).st = .ended ∧
      d.job = some { j with done := j.done ||| 1#8 <<< streamIx s.cur.st } ∧
      engRest d = engRest { s.me.acquired s.cur.st t with job := d.job } := by
  have hrest := engRest_notified t hst ho
  have hjob : (notified s.me s.cur.st t).job = some j := (job_of_engRest (d := s.me.acquired s.cur.st t) hrest).trans hj
  refine ⟨doneAt (notified s.me s.cur.st t) (streamIx s.cur.st), ?_, ?_, ?_, ?_⟩
  · rw [notifyWord_eq hst hok ho hr]
    have h := ((modCore_step s s.cur.k.val (standing · s.cur.st t .notify)).trans
      (setCore_step _ _ (notified s.me s.cur.st t))).trans (modCore_step _ _ (doneAt · (streamIx s.cur.st)))
    rwa [State.core_setCore_self] at h
  · unfold doneAt notified
    rw [Core.eng_setJob, Core.eng_modEng_self _ _ hst]
  · unfold doneAt
    rw [hjob]
    rfl
  · exact congrArg (fun z : Core => { z with job := (doneAt (notified s.me s.cur.st t) (streamIx s.cur.st)).job }) hrest

/-! ### Rendezvous -/

/-- A stream at its rendezvous with no other word outstanding arrives, where that is no misuse (R24). -/
theorem progressEng_rendezvous {s : State} {k : Nat} {st : Stream} {id : BitVec 2} {m : Byte} {o : Outst}
    (hs : ((s.core k).eng st).st = .rendezvous id m) (ho : ((s.core k).eng st).outst = [o])
    (ha : maskHas (vget (s.core k).rdv id.toNat {}).arrived (streamIx st) = false)
    (hu : (s.core k).rdvMisuse (streamIx st) id m = none) :
    s.progressEng k st = s.setCore k ((s.core k).arrive (streamIx st) id m) := by
  unfold State.progressEng
  simp only [hs, ho, ha, hu, Bool.false_eq_true, if_false]

/-- A rendezvous word behind no other, no misuse: its stream arrives (R24). -/
theorem rdvWord_arrives {s : State} {id : BitVec 2} {m : Byte} {t : Tok} (hst : s.cur.st ∈ engineStreams)
    (hok : s.me.tokensOk s.cur.st t = true) (ho : (s.me.eng s.cur.st).outst = []) (hu : s.me.rdvMisuse (streamIx s.cur.st) id m = none)
    (ha : maskHas (vget s.me.rdv id.toNat {}).arrived (streamIx s.cur.st) = false) :
    ∃ d, CoreStep s (s.rdvWord id m t) s.cur.k.val d ∧ (d.eng s.cur.st).st = .rendezvous id m ∧
      d.rdv = vset s.me.rdv id.toNat ⟨m, (vget s.me.rdv id.toNat {}).arrived ||| 1#8 <<< streamIx s.cur.st⟩ ∧
      engRest d = engRest { s.me.acquired s.cur.st t with rdv := d.rdv } := by
  generalize hc : standing s.me s.cur.st t (.rendezvous id m) = c
  have heng : (c.eng s.cur.st).st = .rendezvous id m := by rw [← hc, standing_eng t _ hst ho]
  have hrest : engRest c = engRest (s.me.acquired s.cur.st t) := hc ▸ engRest_standing ..
  have hrdv : c.rdv = s.me.rdv := rdv_of_engRest (d := s.me.acquired s.cur.st t) hrest
  have hjob : c.job = s.me.job := job_of_engRest (d := s.me.acquired s.cur.st t) hrest
  have hmis : c.rdvMisuse (streamIx s.cur.st) id m = none := by
    unfold Core.rdvMisuse Core.expect Core.done
    rw [hrdv, hjob]
    exact hu
  have hcore : (s.modCore s.cur.k.val (standing · s.cur.st t (.rendezvous id m))).core s.cur.k.val = c :=
    hc ▸ State.core_modCore_self ..
  refine ⟨c.arrive (streamIx s.cur.st) id m, ?_, ?_, ?_, ?_⟩
  · have h : s.rdvWord id m t =
        (s.modCore s.cur.k.val (standing · s.cur.st t (.rendezvous id m))).progressEng s.cur.k.val s.cur.st := if_pos hok
    rw [h, progressEng_rendezvous (by rw [hcore, heng]) (by rw [hcore, ← hc, standing_eng t _ hst ho])
      (by rw [hcore, hrdv]; exact ha) (by rw [hcore]; exact hmis), hcore]
    exact (modCore_step s _ _).trans (setCore_step _ _ _)
  · unfold Core.arrive
    rw [Core.eng_setRdv, heng]
  · unfold Core.arrive
    rw [hrdv]
    rfl
  · exact congrArg (fun z : Core => { z with rdv := (c.arrive (streamIx s.cur.st) id m).rdv }) hrest

/-! ### The words of the streams -/

/-- The acting core becomes d by a notify or rendezvous word: beside streams, FIFOs, rendezvous, done mask and V's run-ahead nothing
changes, but what M acquires. -/
def Stands (s : State) (t : Tok) (d : Core) : Prop :=
  { d with fifo := s.me.fifo, xl := s.me.xl, m := s.me.m, v := s.me.v, xs := s.me.xs, next := s.me.next, vx := s.me.vx, rdv := s.me.rdv,
           job := s.me.job } = s.me.acquired s.cur.st t

/-- The state r is s at whose acting core V's ports may have dropped what they have fetched ahead. -/
structure Dropped (s r : State) : Prop where
  step : CoreStep s r s.cur.k.val r.me
  me : r.me = { s.me with vx := r.me.vx }

theorem Dropped.refl (s : State) : Dropped s s := ⟨CoreStep.refl .., rfl⟩

theorem Dropped.modVx (s : State) (f : Vec → Vec) : Dropped s (s.modVx s.cur.k.val f) := by
  have h : (s.modVx s.cur.k.val f).me = { s.me with vx := f s.me.vx } := State.core_modCore_self ..
  exact ⟨h ▸ modCore_step .., by rw [h]⟩

/-- A pop by V drops the run-ahead (R350). -/
theorem dropped_of_pop (s : State) (t : Tok) :
    Dropped s (if t.pop == 0#2 || !s.me.tokensOk .v t then s else s.modVx s.cur.k.val Vec.dropAhead) := by
  split
  · exact .refl s
  · exact .modVx s _

theorem Dropped.cur {s r : State} (h : Dropped s r) : r.cur = s.cur := h.step.cur

theorem Dropped.eng {s r : State} (h : Dropped s r) (st : Stream) : r.me.eng st = s.me.eng st := by
  rw [h.me]
  cases st <;> rfl

theorem Dropped.stands {s r : State} {t : Tok} {d : Core} (h : Dropped s r)
    (hd : engRest d = engRest { r.me.acquired s.cur.st t with rdv := d.rdv, job := d.job }) : Stands s t d := by
  rw [h.me] at hd
  exact congrArg (fun z : Core => { z with
    fifo := s.me.fifo, xl := s.me.xl, m := s.me.m, v := s.me.v, xs := s.me.xs, next := s.me.next, vx := s.me.vx, rdv := s.me.rdv
    job := s.me.job }) hd

section
variable {s r : State} {t : Tok} {j : Job} (h : Dropped s r) (hst : s.cur.st ∈ engineStreams) (hj : s.me.job = some j)
  (hok : s.me.tokensOk s.cur.st t = true) (ho : (s.me.eng s.cur.st).outst = [])

include h hst hj hok ho

/-- A notify word ends its stream, also after V's drop. -/
theorem Dropped.notify_ends
    (hr : ∀ r < 4, (vget s.me.rdv r {}).mask = 0#8 ∨ (vget s.me.rdv r {}).mask.getLsbD (streamIx s.cur.st) = false) :
    ∃ d, CoreStep s (r.notifyWord t) s.cur.k.val d ∧ (d.eng s.cur.st).st = .ended ∧ d.rdv = s.me.rdv ∧
      d.job = some { j with done := j.done ||| 1#8 <<< streamIx s.cur.st } ∧ Stands s t d := by
  have hend := notifyWord_ends (s := r) (t := t) (j := j) (by rw [h.cur]; exact hst) (by rw [h.me]; exact hj)
    (by rw [h.me, h.cur]; exact hok) (by rw [h.eng, h.cur]; exact ho) (by rw [h.me, h.cur]; exact hr)
  rw [h.cur] at hend
  obtain ⟨d, hstep, hended, hjob, hrest⟩ := hend
  have hrdv : d.rdv = s.me.rdv := (rdv_of_engRest hrest).trans (by rw [h.me]; rfl)
  refine ⟨d, h.step.trans hstep, hended, hrdv, hjob, h.stands ?_⟩
  rw [hrest, hrdv, h.me]
  rfl

/-- A rendezvous word arrives, also after V's drop. -/
theorem Dropped.rdv_arrives {n : Fin 4} {m : Byte} (hm : m &&& 1#8 <<< streamIx s.cur.st ≠ 0#8)
    (hid : s.me.rdv[n.val].mask = 0#8 ∨ s.me.rdv[n.val].mask = m) (he : m &&& ~~~j.expect = 0#8) (hdone : m &&& j.done = 0#8)
    (ha : s.me.rdv[n.val].arrived &&& 1#8 <<< streamIx s.cur.st = 0#8) :
    ∃ d, CoreStep s (r.rdvWord (BitVec.ofNat 2 n.val) m t) s.cur.k.val d ∧
      (d.eng s.cur.st).st = .rendezvous (BitVec.ofNat 2 n.val) m ∧
      d.rdv = s.me.rdv.set n.val ⟨m, s.me.rdv[n.val].arrived ||| 1#8 <<< streamIx s.cur.st⟩ ∧ d.job = s.me.job ∧ Stands s t d := by
  have hn : (BitVec.ofNat 2 n.val).toNat = n.val := by simp
  have hrdv : r.me.rdv = s.me.rdv := by rw [h.me]
  have hv : vget s.me.rdv n.val {} = s.me.rdv[n.val] := vget_lt _ _ _ n.isLt
  have hmis : r.me.rdvMisuse (streamIx s.cur.st) (BitVec.ofNat 2 n.val) m = none := by
    have hjob : r.me.job = some j := by rw [h.me]; exact hj
    have hbit := (and_maskOf_ne_zero m (streamIx_lt s.cur.st)).1 hm
    unfold Core.rdvMisuse Core.expect Core.done
    rcases hid with hid | hid <;> simp [hrdv, hv, hjob, hbit, hid, he, hdone]
  have harr : maskHas s.me.rdv[n.val].arrived (streamIx s.cur.st) = false := by
    have := mt (and_maskOf_ne_zero s.me.rdv[n.val].arrived (streamIx_lt s.cur.st)).2 (not_not.2 ha)
    simpa using this
  have hgo := rdvWord_arrives (s := r) (t := t) (id := BitVec.ofNat 2 n.val) (m := m) (by rw [h.cur]; exact hst)
    (by rw [h.me, h.cur]; exact hok) (by rw [h.eng, h.cur]; exact ho) (by rw [h.cur]; exact hmis)
    (by rw [h.cur, hn, hrdv, hv]; exact harr)
  rw [h.cur, hn, hrdv, hv] at hgo
  obtain ⟨d, hstep, hat, hset, hrest⟩ := hgo
  have hjob : d.job = s.me.job := (job_of_engRest hrest).trans (by rw [h.me]; rfl)
  refine ⟨d, h.step.trans hstep, hat, ?_, hjob, h.stands ?_⟩
  · rw [hset]
    exact vset_lt _ _ n.isLt
  · rw [hrest, hjob, h.me]
    rfl

end

end Sys2Proof.Safety

section

open Sys2Proof Sys2Proof.Machine Sys2Proof.Safety

/-- Settles O37: each word is the shared `notifyWord` or `rdvWord`, in V after the drop of a pop (`dropped_of_pop`), and with no earlier word
outstanding these end the stream and arrive at once. -/
theorem engineNotifyAndRendezvous : Obligations.EngineNotifyAndRendezvous := by
  intro s t n m j st c bit hj hok ho kept ends arrives
  have hends (hst : s.cur.st ∈ engineStreams) {r : State} (h : Dropped s r) {i : Instr} (hi : exec i s = .next (r.notifyWord t)) :
      ends i := by
    intro hr
    obtain ⟨d, hd⟩ := h.notify_ends hst hj hok ho hr
    exact ⟨_, d, hi, hd⟩
  have harrives (hst : s.cur.st ∈ engineStreams) {r : State} (h : Dropped s r) {i : Instr}
      (hi : exec i s = .next (r.rdvWord (BitVec.ofNat 2 n.val) m t)) : arrives i := by
    intro hm hid he hdone ha
    obtain ⟨d, hd⟩ := h.rdv_arrives hst hj hok ho hm hid he hdone ha
    exact ⟨_, d, hi, hd⟩
  refine ⟨fun hst => ?_, fun hst hgo => ?_, fun hst => ?_⟩
  · have hmem : s.cur.st ∈ engineStreams := mem_engineStreams.2 (hst.imp_right fun h => .inr (.inr h))
    exact ⟨hends hmem (.refl s) rfl, harrives hmem (.refl s) rfl⟩
  · have hmem : s.cur.st ∈ engineStreams := mem_engineStreams.2 (.inr (.inl hst))
    have hidle : s.me.mx.go = false := hgo
    exact ⟨hends hmem (.refl s) (by simp [exec, execMnfy, hidle]), harrives hmem (.refl s) (by simp [exec, execMrdv, hidle])⟩
  · have hmem : s.cur.st ∈ engineStreams := mem_engineStreams.2 (.inr (.inr (.inl hst)))
    exact ⟨hends hmem (dropped_of_pop s t) rfl, harrives hmem (dropped_of_pop s t) rfl⟩

end
end

section
/-! SUPPORT. A counterexample to TokenWords: the statement speaks of every state, and in one whose XL has a complete word outstanding with a
token to come in the FIFO that the next word pops (no run leads there, since XL only pops that FIFO), the pop also shows that token. -/

namespace Sys2Proof.Machine

/-- XL running in core 0 with one token in the FIFO M→XL, and a complete word outstanding whose token is to come in the same FIFO. -/
def crossedCore : Core :=
  { fifo := vset (Vector.replicate 10 {}) 2 { count := 1 }, xl := { st := .running, outst := [{ id := 5, push := some 2, done := true }] } }

/-- XL of core 0 acts. -/
def crossed : State := { cores := [(0, crossedCore)], cur := { st := .xl } }

/-- The word pops M→XL and pushes nothing. -/
def crossedTok : Tok := ⟨1#2, 0#2⟩

/-- After the word the popped FIFO holds as many tokens as before it: the outstanding token has come. -/
theorem crossed_fifo : vget ((crossed.tokenWord crossedTok).core 0).fifo 2 {} = { count := 1, shown := 1, freed := 1 } := by
  decide +kernel

end Sys2Proof.Machine

section

open Sys2Proof Sys2Proof.Machine Sys2Proof.Safety

/-- Refutes O36: where a complete word of XL still has its token to come in the FIFO that an xtok pops, the draining behind the pop shows that
token too, and the FIFO keeps its count, where the statement has one token fewer. -/
theorem not_tokenWords : ¬ Obligations.TokenWords := by
  unfold Obligations.TokenWords
  intro h
  obtain ⟨-, hbehind, -⟩ := h crossed crossedTok 0#6 (.inl (by decide))
  have hserved : crossed.me.tokensOk .xl crossedTok = true := by decide +kernel
  obtain ⟨u, d, hu, hstep, -, -, hpop, -⟩ :=
    hbehind ⟨hserved, fun hheld => hheld.1 rfl⟩ rfl (.xtok crossedTok) (.inl ⟨.inl rfl, .inl rfl⟩)
  have htok : crossed.tokenWord crossedTok = u := by
    simpa [exec, execXtok] using hu
  have hfifo : d.fifo = ((crossed.tokenWord crossedTok).core 0).fifo := by
    rw [htok]
    have := congrArg Core.fifo hstep.core
    exact this.symm
  have hcount : vget d.fifo 2 {} = { count := 0, freed := 1 } := hpop 2 rfl
  rw [hfifo, crossed_fifo] at hcount
  exact absurd hcount (by decide)

end
end

section
/-! SUPPORT. Job faults (R151, R155): the record of the core that faults, and the hard stops that follow in the next clk. -/

namespace Sys2Proof.Safety

open Sys2Proof.Machine

/-- A job that has not faulted faults: its record, and hard stops in the next clk. -/
theorem jobFault_eq {s : State} {k : Nat} (cause : Byte) (info : Dword) (stream : Nat) (pc : Word)
    (hj : (s.core k).job.isSome = true) (hf : (s.core k).fault = none) :
    ∃ l, Act.event (.hardStop (Fin.ofNat 1536 k)) ∈ l ∧ s.jobFault k cause info stream pc =
      (s.setCore k { s.core k with fault := some ⟨cause, info, BitVec.ofNat 8 stream, pc, 0#8⟩ }).later l := by
  obtain ⟨j, hj⟩ := Option.isSome_iff_exists.1 hj
  unfold State.jobFault
  simp only [hj, hf]
  exact ⟨_, List.mem_cons_self, rfl⟩

theorem jobFault_step {s : State} {k : Nat} (cause : Byte) (info : Dword) (stream : Nat) (pc : Word)
    (hj : (s.core k).job.isSome = true) (hf : (s.core k).fault = none) :
    ∃ l, Act.event (.hardStop (Fin.ofNat 1536 k)) ∈ l ∧ CoreStep (s.later l) (s.jobFault k cause info stream pc) k
      { s.core k with fault := some ⟨cause, info, BitVec.ofNat 8 stream, pc, 0#8⟩ } := by
  obtain ⟨l, hl, h⟩ := jobFault_eq cause info stream pc hj hf
  rw [h]
  have hs := setCore_step s k { s.core k with fault := some ⟨cause, info, BitVec.ofNat 8 stream, pc, 0#8⟩ }
  exact ⟨l, hl, rfl, hs.core, hs.cores, hs.funcs, hs.mem⟩

/-- The state after s, in which hard stops are planned and the job of core k has the fault record r; a free value may have been taken. -/
def FaultedBy (s t : State) (k : Nat) (r : FaultRec) : Prop :=
  ∃ l, Act.event (.hardStop (Fin.ofNat 1536 k)) ∈ l ∧ CoreStep { s.later l with fresh := t.fresh } t k { s.core k with fault := some r }

theorem jobFault_faulted {s : State} {k : Nat} (cause : Byte) (info : Dword) (stream : Nat) (pc : Word)
    (hj : (s.core k).job.isSome = true) (hf : (s.core k).fault = none) :
    FaultedBy s (s.jobFault k cause info stream pc) k ⟨cause, info, BitVec.ofNat 8 stream, pc, 0#8⟩ := by
  obtain ⟨l, hl, h⟩ := jobFault_step cause info stream pc hj hf
  have hfresh : (s.jobFault k cause info stream pc).fresh = s.fresh := by rw [h.rest]; rfl
  exact ⟨l, hl, by rw [hfresh]; exact h⟩

theorem jobFaultFree_faulted {s : State} {k : Nat} (cause : Byte) (stream : Nat) (pc : Word)
    (hj : (s.core k).job.isSome = true) (hf : (s.core k).fault = none) :
    FaultedBy s (s.jobFaultFree k cause stream pc) k ⟨cause, Config.info s.fresh, BitVec.ofNat 8 stream, pc, 0#8⟩ := by
  obtain ⟨l, hl, h⟩ := jobFault_step (s := { s with fresh := s.fresh + 1 }) cause (Config.info s.fresh) stream pc hj hf
  have hfresh : (s.jobFaultFree k cause stream pc).fresh = s.fresh + 1 := by
    unfold State.jobFaultFree
    rw [h.rest]
    rfl
  exact ⟨l, hl, by rw [hfresh]; exact h⟩

theorem ofNat_core (k : CoreIx) : Fin.ofNat 1536 k.val = k := by
  apply Fin.ext
  exact Nat.mod_eq_of_lt k.isLt

/-- A word that leads to a faulted state of the acting core faults its job. -/
theorem FaultedBy.faultsJob {s t : State} {i : Instr} {r : FaultRec} (h : FaultedBy s t s.cur.k.val r) (hi : exec i s = .next t) :
    FaultsJob i s r.cause := by
  obtain ⟨l, hl, hstep⟩ := h
  rw [ofNat_core] at hl
  exact ⟨t, r, l, hi, rfl, hl, hstep⟩

end Sys2Proof.Safety
end

section
/-! SUPPORT. Data words of M: each is `State.dataM` with locks and an effect of its own, so that what holds one back, and what faults it, is
said once (R19, R270, R276). -/

namespace Sys2Proof.Safety

open Sys2Proof.Machine

/-- The word i of the acting stream is a data word of M with tokens t, the locks it asks for, and its effect. -/
def IsData (i : Instr) (s : State) (t : Tok) (locks : Except EStop Locks) (run : State → Except EStop MDone) : Prop :=
  ∃ more, exec i s = .next (s.dataM t locks run more)

section
variable {i : Instr} {s : State} {t : Tok} {locks : Except EStop Locks} {run : State → Except EStop MDone} (h : IsData i s t locks run)
include h

/-- A data word of the stream stays while a nest runs or a token is missing. -/
theorem IsData.stays (hn : s.cur.nest = false) (hw : s.me.mx.go = true ∨ s.me.tokensOk .m t = false) : exec i s = .next s := by
  obtain ⟨more, hi⟩ := h
  have : s.dataM t locks run more = s := by
    unfold State.dataM
    rcases hw with hw | hw <;> simp [hn, hw]
  rw [hi, this]

variable (hgo : s.me.mx.go = false) (hok : s.me.tokensOk .m t = true) (hj : s.me.job.isSome = true) (hf : s.me.fault = none)
include hgo hok hj hf

/-- A stop found before the locks, whose information is free, faults the job. -/
theorem IsData.faults_of_locks {z : Byte} (hl : locks = .error (z, none)) : FaultsJob i s z := by
  obtain ⟨more, hi⟩ := h
  have heq : s.dataM t locks run more = s.engFaultFree z := by
    unfold State.dataM
    simp [hgo, hok, hl]
  rw [heq] at hi
  exact (jobFaultFree_faulted z (streamIx s.cur.st) _ hj hf).faultsJob hi

/-- A stop found by the effect, whose information is free, faults the job. -/
theorem IsData.faults_of_run {z : Byte} {l : Locks} (hl : locks = .ok l) (hg : s.me.grantable l = true) (hr : run s = .error (z, none)) :
    FaultsJob i s z := by
  obtain ⟨more, hi⟩ := h
  have heq : s.dataM t locks run more = s.engFaultFree z := by
    unfold State.dataM
    simp [hgo, hok, hl, hg, hr]
  rw [heq] at hi
  exact (jobFaultFree_faulted z (streamIx s.cur.st) _ hj hf).faultsJob hi

end

/-- With nothing locked any locks are granted. -/
theorem grantable_of_unlocked {c : Core} (h : c.locks = {}) (l : Locks) : c.grantable l = true := by simp [Core.grantable, h]

end Sys2Proof.Safety
end

section
/-! SUPPORT. What holds a data word of M back, and what faults it (R270, R275, R276, R299, R312, R313, R331). -/

namespace Sys2Proof.Safety

open Sys2Proof.Machine

/-! ### No active table -/

/-- Without an active table there is no context (R275). -/
theorem mCtx_of_inactive {s : State} (h : s.me.mx.active = none) : s.mCtx = .error (cMNEST, none) := by
  unfold State.mCtx
  simp only [h]

/-- The word i of M is a data word whose locks come only under a context. -/
def NeedsContext (i : Instr) (s : State) (t : Tok) : Prop :=
  ∃ locks run, IsData i s t locks run ∧ (s.mCtx = .error (cMNEST, none) → locks = .error (cMNEST, none))

theorem mma_needsContext (s : State) (o : MmaOp) (i : Instr) (t : Tok) (h : exec i s = .next (s.mmaWord o i t)) : NeedsContext i s t := by
  unfold State.mmaWord at h
  exact ⟨_, _, ⟨_, h⟩, fun hc => by simp [State.mmaIn, hc, bind, Except.bind, Except.map]⟩

/-- The context of a word on orthogonal accumulator o, which must be initialised where `init` says so (R320). -/
def oaContext (s : State) (o : BitVec 1) (init : Bool) : Except EStop MCtx :=
  s.mCtx >>= fun c => if init && !(s.me.oa o).init then .error (cOASTATE, none) else .ok c

/-- A word on an orthogonal accumulator is a data word. -/
theorem oaWord_isData {s : State} {i : Instr} {o : BitVec 1} {t : Tok} {init : Bool}
    {locks : MCtx → OaReg → Except EStop (BitVec 32 × BitVec 32)} {run : State → OaAcc → Except EStop OaAcc}
    (h : exec i s = .next (s.oaWord o t init locks run)) :
    IsData i s t (oaContext s o init >>= fun c => (locks c (s.me.oa o)).map fun l => oaLocks o l.1 l.2)
      fun u => oaContext s o init >>= fun c => (run u { x := c, reg := s.me.oa o }).map (u.oaDone o) :=
  ⟨[], h⟩

theorem oa_needsContext {s : State} {i : Instr} {o : BitVec 1} {t : Tok} {init : Bool}
    {locks : MCtx → OaReg → Except EStop (BitVec 32 × BitVec 32)} {run : State → OaAcc → Except EStop OaAcc}
    (h : exec i s = .next (s.oaWord o t init locks run)) : NeedsContext i s t :=
  ⟨_, _, oaWord_isData h, fun hc => by simp [oaContext, hc, bind, Except.bind]⟩

theorem oaApply_needsContext {s : State} {i : Instr} {o : BitVec 1} {a : BitVec 3} {tr left : Bool} {n : BitVec 8} {t : Tok}
    (h : exec i s = .next (s.oaApply o a tr left n t)) : NeedsContext i s t := by
  unfold State.oaApply at h
  exact oa_needsContext h

theorem blockOper_of_no_context {s : State} {a : BitVec 3} {raw : Bool} (h : s.mCtx = .error (cMNEST, none)) :
    s.blockOper a raw = .error (cMNEST, none) := by simp [State.blockOper, h, bind, Except.bind]

/-! ### A tile of another kind, a reflector without room -/

/-- An operand that fits without raw formats fits with them. -/
theorem mFit_raw {s : State} {o : MOper} {runs : List Nat} {len : Nat} (h : s.mFit o runs len false = .ok ()) :
    s.mFit o runs len true = .ok () := by
  unfold State.mFit at h ⊢
  simp only [Bool.false_and, Bool.false_eq_true, if_false, Bool.true_and] at h ⊢
  rw [h]
  simp

/-- An operand that fits is not raw. -/
theorem not_raw_of_mFit {s : State} {o : MOper} {runs : List Nat} {len : Nat} (h : s.mFit o runs len false = .ok ()) : o.fmt ≠ fRAW := by
  intro e
  unfold State.mFit at h
  simp [e] at h

theorem blockOper_of {s : State} {a : BitVec 3} {raw : Bool} {x : MCtx} {q : MOper} (hx : s.mCtx = .ok x) (hq : s.mOper x a = .ok q)
    (hf : s.mFit q (rowStarts q.pitch 64) 64 raw = .ok ()) : s.blockOper a raw = .ok (x, q) := by
  simp [State.blockOper, hx, hq, hf, bind, Except.bind]

/-- `mld.add` finds a tile of another kind (R312). -/
theorem mldRun_kind {s : State} {t : Nat} {kd : TileKind} {q : MOper} (hl : loadable kd q.fmt = true)
    (hs : kd = .int32 → s.mScaled q = false) (h0 : (s.me.side t).kind ≠ 0) (hk : (s.me.side t).kind ≠ kindCode kd) :
    s.mldRun t kd true q = .error (cMACC, none) := by
  have hscaled : (kd == .int32 && s.mScaled q) = false := by
    cases kd <;> simp_all
  simp [State.mldRun, hl, hscaled, h0, hk, bind, Except.bind]

/-- `mst` finds a tile of another kind (R313). -/
theorem mstRun_kind {s : State} {t : Nat} {kd : TileKind} {m : RMode} {q : MOper} (hr : q.fmt ≠ fRAW) (h0 : (s.me.side t).kind ≠ 0)
    (hk : (s.me.side t).kind ≠ kindCode kd) : s.mstRun t kd m q = .error (cMACC, none) := by
  simp [State.mstRun, hr, h0, hk, bind, Except.bind]

end Sys2Proof.Safety

section

open Sys2Proof Sys2Proof.Machine Sys2Proof.Safety

/-- Settles O44: every data word is `dataM`, whose locks come only under a context (`NeedsContext`); with the operand in place the effects of
mld, mst and oa.fold find the kind or the mode at fault. -/
theorem matrixWordsStallOrFault : Obligations.MatrixWordsStallOrFault := by
  intro s tk a b t f p m kd om n o bt y data hnest hst
  have hdata : ∀ i ∈ data, NeedsContext i s tk := by
    simp only [data, List.forall_mem_cons]
    refine ⟨mma_needsContext s _ _ _ rfl, mma_needsContext s _ _ _ rfl, ?mld, ?mst, ?mzero, ?mrq, oa_needsContext rfl, oa_needsContext rfl,
      oa_needsContext rfl, oaApply_needsContext rfl, oaApply_needsContext rfl, oa_needsContext rfl, oa_needsContext rfl,
      oa_needsContext rfl, oa_needsContext rfl, by simp⟩
    case mld => exact ⟨_, _, ⟨_, rfl⟩, fun hc => by simp [blockOper_of_no_context hc, Except.map]⟩
    case mst => exact ⟨_, _, ⟨_, rfl⟩, fun hc => by simp [blockOper_of_no_context hc, Except.map]⟩
    case mzero => exact ⟨_, _, ⟨_, rfl⟩, fun hc => by simp [hc, Except.map]⟩
    case mrq => exact ⟨_, _, ⟨_, rfl⟩, fun hc => by simp [hc, bind, Except.bind, Except.map]⟩
  refine ⟨fun hwait i hi => ?_, fun hgo hok hj hf => ⟨fun hinactive i hi => ?_, ?_, ?_⟩⟩
  · obtain ⟨_, _, h, -⟩ := hdata i hi
    exact h.stays hnest hwait
  · obtain ⟨_, _, h, hctx⟩ := hdata i hi
    exact h.faults_of_locks hgo hok hj hf (hctx (mCtx_of_inactive hinactive))
  · intro x q hx hq hfit h0 hk hfree
    constructor
    · intro hl hs
      have hdata : IsData (.mld a t kd true tk) s tk _ _ := ⟨_, rfl⟩
      have hop := blockOper_of hx hq hfit
      exact hdata.faults_of_run hgo hok hj hf (by rw [hop]; rfl) (grantable_of_unlocked hfree _)
        (by rw [hop]; exact mldRun_kind hl hs h0 hk)
    · have hdata : IsData (.mst a t kd m tk) s tk _ _ := ⟨_, rfl⟩
      have hop := blockOper_of hx hq (mFit_raw hfit)
      exact hdata.faults_of_run hgo hok hj hf (by rw [hop]; rfl) (grantable_of_unlocked hfree _)
        (by rw [hop]; exact mstRun_kind (not_raw_of_mFit hfit) h0 hk)
  · intro x hx hfree hinit hk hmode
    have hctx : oaContext s o true = .ok x := by simp [oaContext, hx, hinit, bind, Except.bind]
    have hdata := oaWord_isData (s := s) (i := .oaFold o tk) rfl
    exact hdata.faults_of_run hgo hok hj hf (l := oaLocks o 0#32 0#32)
      (by simp [hctx, hk, hmode, OaReg.overflowBanks, bind, Except.bind, Except.map]) (grantable_of_unlocked hfree _)
      (by simp [hctx, hk, hmode, OaAcc.outFold, bind, Except.bind, Except.map])

end
end

section
/-! SUPPORT. What the part's own writes and events leave (R238, R241), and a fault posted to a die's fault queue (R149). -/

namespace Sys2Proof.Machine

/-- A state but for its memory and the poison of its lines. -/
def memRest (s : State) : State := { s with mem := [], poison := [], mended := [] }

theorem mendLine_rest (s : State) (l : Nat) (b : BitVec 64) : memRest (s.mendLine l b) = memRest s := by
  unfold State.mendLine
  dsimp only
  split <;> rfl

/-- A fold whose steps keep a part of the state keeps it. -/
theorem foldl_keeps {α β : Type} (r : State → β) {f : State → α → State} (hf : ∀ s a, r (f s a) = r s) (l : List α) (s : State) :
    r (l.foldl f s) = r s := by
  induction l generalizing s with
  | nil => rfl
  | cons a t ih => rw [List.foldl_cons, ih, hf]

theorem mend_rest (s : State) (l : Nat) (d : List (Byte × Byte)) : memRest (s.mend l d) = memRest s :=
  foldl_keeps memRest (fun _ _ => mendLine_rest ..) _ _

theorem mendAll_rest (s : State) (ls : List Nat) : memRest (s.mendAll ls) = memRest s := by
  unfold State.mendAll
  split
  · rfl
  · exact foldl_keeps memRest (fun _ _ => mend_rest ..) _ _

/-- A write by the part changes memory and poison alone. -/
theorem hostWrite_rest {s t : State} {f : Byte} {va : Dword} {bs : List Byte} {part : Bool} (h : s.hostWrite f va bs part = .ok t) :
    memRest t = memRest s := by
  unfold State.hostWrite at h
  cases hl : s.hostLocs f va .write part bs.length with
  | error e => rw [hl] at h; cases h
  | ok ls =>
    rw [hl] at h
    cases h
    exact mendAll_rest ..

/-- A state but for its memory, the poison of its lines and the functions' records. -/
def eventRest (s : State) : State := { memRest s with funcs := [] }

theorem eventRest_of_memRest {s t : State} (h : memRest t = memRest s) : eventRest t = eventRest s :=
  congrArg (fun z : State => { z with funcs := [] }) h

theorem eventRest_modFunc (s : State) (f : Byte) (g : Func → Func) : eventRest (s.modFunc f g) = eventRest s := rfl

theorem hostWrite_eventRest {s t : State} {f : Byte} {va : Dword} {bs : List Byte} {part : Bool} (h : s.hostWrite f va bs part = .ok t) :
    eventRest t = eventRest s := eventRest_of_memRest (hostWrite_rest h)

/-- An event record changes memory, poison and the functions' records alone (R241). -/
theorem event_rest (s : State) (f : Byte) (bs : List Byte) : eventRest (s.event f bs) = eventRest s := by
  unfold State.event
  split
  · rfl
  · dsimp only
    split
    · rw [eventRest_modFunc]
      split
      · next t h => exact hostWrite_eventRest h
      · rfl
    · split
      · rfl
      · next t h =>
        rw [eventRest_modFunc]
        split
        · next u hu => exact (hostWrite_eventRest hu).trans (hostWrite_eventRest h)
        · exact hostWrite_eventRest h

theorem cores_of_eventRest {s t : State} (h : eventRest t = eventRest s) : t.cores = s.cores := by
  have := congrArg State.cores h
  exact this

theorem dies_of_eventRest {s t : State} (h : eventRest t = eventRest s) : t.dies = s.dies := by
  have := congrArg State.dies h
  exact this

theorem core_of_cores {s t : State} (h : t.cores = s.cores) (k : Nat) : t.core k = s.core k := by
  unfold State.core
  rw [h]

theorem die_of_dies {s t : State} (h : t.dies = s.dies) (d : Nat) : t.die d = s.die d := by
  unfold State.die
  rw [h]

/-- Posting a fault changes no core. -/
theorem postFault_cores (s : State) (e : FaultEntry) : (s.postFault e).cores = s.cores := by
  unfold State.postFault
  dsimp only
  split
  · exact (cores_of_eventRest (event_rest (State.modDie ..) _ _)).trans rfl
  · rfl

/-- A posted fault stands in the fault queue of its core's die under an id, or waits for a free entry of it (R149). -/
theorem postFault_entry (s : State) (e : FaultEntry) (hd : coreDie e.core < 8) :
    ∃ id, { e with id := id } ∈ ((s.postFault e).die (coreDie e.core)).fq ++ ((s.postFault e).die (coreDie e.core)).fqWait := by
  unfold State.postFault
  dsimp only
  split
  · refine ⟨BitVec.ofNat 32 (8 * (s.die (coreDie e.core)).nextEntry.toNat + coreDie e.core), ?_⟩
    unfold State.postedEvent
    rw [die_of_dies (dies_of_eventRest (event_rest ..)), State.die_modDie_self _ _ _ hd]
    simp
  · refine ⟨e.id, ?_⟩
    rw [State.die_modDie_self _ _ _ hd]
    simp

end Sys2Proof.Machine
end

section
/-! SUPPORT. Completion of a transfer command (R159, R23): what progress of the streams, the waits it satisfies and the tag leave of memory, of
the writes on their way, of the other cores and of the other commands. -/

namespace Sys2Proof.Machine

/-! ### What a job fault leaves -/

/-- A job fault records itself in its core and plans acts, or comes to nothing. -/
theorem jobFault_cases (s : State) (k : Nat) (cause : Byte) (info : Dword) (stream : Nat) (pc : Word) :
    (∃ l r, s.jobFault k cause info stream pc = (s.setCore k { s.core k with fault := some r }).later l) ∨
    s.jobFault k cause info stream pc = s := by
  unfold State.jobFault
  dsimp only
  split
  · exact .inl ⟨_, _, rfl⟩
  · exact .inr rfl

/-- A job fault leaves of its core all but the fault record. -/
theorem jobFault_core_self (s : State) (k : Nat) (cause : Byte) (info : Dword) (stream : Nat) (pc : Word) :
    (s.jobFault k cause info stream pc).core k = { s.core k with fault := ((s.jobFault k cause info stream pc).core k).fault } := by
  rcases jobFault_cases s k cause info stream pc with ⟨l, r, h⟩ | h
  · have hcore : (s.jobFault k cause info stream pc).core k = { s.core k with fault := some r } := by
      rw [h]
      exact State.core_setCore_self ..
    rw [hcore]
  · rw [h]

/-- A job fault leaves every other core. -/
theorem jobFault_core_ne (s : State) {k j : Nat} (cause : Byte) (info : Dword) (stream : Nat) (pc : Word) (hj : j ≠ k) :
    (s.jobFault k cause info stream pc).core j = s.core j := by
  rcases jobFault_cases s k cause info stream pc with ⟨l, r, h⟩ | h
  · rw [h]
    exact State.core_setCore_ne _ _ hj
  · rw [h]

/-- A state but for its cores and its plan. -/
def planRest (s : State) : State := { s with cores := [], agenda := [] }

theorem jobFault_rest (s : State) (k : Nat) (cause : Byte) (info : Dword) (stream : Nat) (pc : Word) :
    planRest (s.jobFault k cause info stream pc) = planRest s := by
  rcases jobFault_cases s k cause info stream pc with ⟨l, r, h⟩ | h
  · rw [h]
    rfl
  · rw [h]

/-! ### Cores and states that keep their commands -/

/-- The core d has the commands of c, and the tags that a completion has set in this clk (R23). -/
structure KeepsCmds (c d : Core) : Prop where
  cmds : d.x.cmds = c.x.cmds
  tags : ∀ i, c.sys.tags.getLsbD i = true → c.sys.tagsNew.getLsbD i = true → d.sys.tags.getLsbD i = true ∧ d.sys.tagsNew.getLsbD i = true

theorem KeepsCmds.refl (c : Core) : KeepsCmds c c := ⟨rfl, fun _ h hn => ⟨h, hn⟩⟩

theorem KeepsCmds.trans {c d e : Core} (h : KeepsCmds c d) (g : KeepsCmds d e) : KeepsCmds c e :=
  ⟨g.cmds.trans h.cmds, fun i ht hn => (h.tags i ht hn).elim (g.tags i)⟩

theorem KeepsCmds.of_eq {c d : Core} (hx : d.x.cmds = c.x.cmds) (ht : d.sys.tags = c.sys.tags) (hn : d.sys.tagsNew = c.sys.tagsNew) :
    KeepsCmds c d := ⟨hx, fun _ h h' => ⟨ht ▸ h, hn ▸ h'⟩⟩

/-- The state t has the memory of s, its writes on their way, its other cores, and core k with its commands. -/
structure KeepsAround (k : Nat) (s t : State) : Prop where
  mem : t.mem = s.mem
  writes : t.writes = s.writes
  cores : ∀ j, j ≠ k → t.core j = s.core j
  core : KeepsCmds (s.core k) (t.core k)

theorem KeepsAround.refl (k : Nat) (s : State) : KeepsAround k s s := ⟨rfl, rfl, fun _ _ => rfl, .refl _⟩

theorem KeepsAround.trans {k : Nat} {s t u : State} (h : KeepsAround k s t) (g : KeepsAround k t u) : KeepsAround k s u :=
  ⟨g.mem.trans h.mem, g.writes.trans h.writes, fun j hj => (g.cores j hj).trans (h.cores j hj), h.core.trans g.core⟩

theorem KeepsAround.setCore {k : Nat} {s : State} {c : Core} (h : KeepsCmds (s.core k) c) : KeepsAround k s (s.setCore k c) :=
  ⟨rfl, rfl, fun _ hj => State.core_setCore_ne _ _ hj, by rw [State.core_setCore_self]; exact h⟩

theorem KeepsAround.modCore {k : Nat} {s : State} {f : Core → Core} (h : KeepsCmds (s.core k) (f (s.core k))) :
    KeepsAround k s (s.modCore k f) := .setCore h

/-! ### Waits -/

/-- A wait that completes keeps the tags that a completion of its clk has set (R23, R135). -/
theorem keepsCmds_tryTag {c d : Core} {q : Fin 4} {i : Instr} {m : Dword} (h : c.tryTag q i m = some d) : KeepsCmds c d := by
  unfold Core.tryTag at h
  split at h
  · cases h
  · cases h
    refine ⟨rfl, fun n ht hn => ⟨?_, hn⟩⟩
    simp [Sys.clearTags, ht, hn]

theorem keepsCmds_wakeQ (c : Core) (q : Fin 4) : KeepsCmds c (c.wakeQ q) := by
  unfold Core.wakeQ
  dsimp only
  split
  · exact .refl c
  · split
    · split
      · exact .of_eq rfl rfl rfl
      · cases h : c.tryTag q _ c.q[q.val].wmask with
        | none => exact .refl c
        | some d => exact keepsCmds_tryTag h
    · exact .refl c

theorem keepsCmds_wake (c : Core) : KeepsCmds c c.wake :=
  (((keepsCmds_wakeQ c 0).trans (keepsCmds_wakeQ _ 1)).trans (keepsCmds_wakeQ _ 2)).trans (keepsCmds_wakeQ _ 3)

theorem keepsAround_wake (s : State) (k : Nat) : KeepsAround k s (s.wake k) := .modCore (keepsCmds_wake _)

/-- A tag that is set stands, whatever the waits that it satisfies clear (R23). -/
theorem setTag_keeps (s : State) (k : Nat) (tag : BitVec 6) :
    (s.setTag k tag).mem = s.mem ∧ (s.setTag k tag).writes = s.writes ∧ (∀ j, j ≠ k → (s.setTag k tag).core j = s.core j) ∧
    ((s.setTag k tag).core k).x.cmds = (s.core k).x.cmds ∧ ((s.setTag k tag).core k).sys.tags.getLsbD tag.toNat = true ∧
    ((s.setTag k tag).core k).sys.tagsNew.getLsbD tag.toNat = true := by
  generalize hu : (s.modCore k fun c => { c with sys := { c.sys with
    tags := c.sys.tags ||| 1#64 <<< tag.toNat, tagsNew := c.sys.tagsNew ||| 1#64 <<< tag.toNat } }) = u
  have hcore : u.core k = _ := hu ▸ State.core_modCore_self ..
  have hw : KeepsAround k u (s.setTag k tag) := hu ▸ keepsAround_wake _ k
  have hbit : ∀ x : Dword, (x ||| 1#64 <<< tag.toNat).getLsbD tag.toNat = true := by
    intro x
    have := tag.isLt
    simp
    omega
  obtain ⟨ht, hn⟩ := hw.core.tags tag.toNat (by rw [hcore]; exact hbit _) (by rw [hcore]; exact hbit _)
  refine ⟨hw.mem.trans ?_, hw.writes.trans ?_, fun j hj => (hw.cores j hj).trans ?_, hw.core.cmds.trans ?_, ht, hn⟩
  · rw [← hu]; rfl
  · rw [← hu]; rfl
  · rw [← hu]; exact State.core_modCore_ne _ _ hj
  · rw [hcore]

/-! ### Progress of the engine streams -/

theorem keepsAround_jobFault (s : State) (k : Nat) (cause : Byte) (info : Dword) (stream : Nat) (pc : Word) :
    KeepsAround k s (s.jobFault k cause info stream pc) := by
  have hrest := jobFault_rest s k cause info stream pc
  have hmem := congrArg State.mem hrest
  have hwrites := congrArg State.writes hrest
  refine ⟨hmem, hwrites, fun j hj => jobFault_core_ne s cause info stream pc hj, ?_⟩
  rw [jobFault_core_self]
  exact .of_eq rfl rfl rfl

theorem keepsAround_jobFaultFree (s : State) (k : Nat) (cause : Byte) (stream : Nat) (pc : Word) :
    KeepsAround k s (s.jobFaultFree k cause stream pc) :=
  KeepsAround.trans (t := { s with fresh := s.fresh + 1 }) ⟨rfl, rfl, fun _ _ => rfl, .refl _⟩ (keepsAround_jobFault ..)

theorem keepsCmds_of_engRest {c d : Core} (h : engRest d = engRest c) : KeepsCmds c d := by
  have hx := congrArg (fun z : Core => z.x.cmds) h
  have ht := congrArg (fun z : Core => z.sys.tags) h
  have hn := congrArg (fun z : Core => z.sys.tagsNew) h
  exact .of_eq hx ht hn

theorem keepsCmds_finish (c : Core) (st : Stream) (id : Nat) : KeepsCmds c (c.finish st id) := by
  refine KeepsCmds.trans ?_ (keepsCmds_of_engRest (engRest_finish c st id))
  unfold Sys.flagged
  split <;> exact .of_eq rfl rfl rfl

theorem keepsCmds_modEng (c : Core) (st : Stream) (f : Eng → Eng) : KeepsCmds c (c.modEng st f) :=
  keepsCmds_of_engRest (engRest_modEng ..)

theorem keepsAround_reachEnd (s : State) (k i : Nat) (pc : Word) : KeepsAround k s (s.reachEnd k i pc) := by
  have hdone := KeepsAround.modCore (s := s) (k := k)
    (f := fun c => { c with job := c.job.map fun j => { j with done := j.done ||| maskOf i } }) (.of_eq rfl rfl rfl)
  unfold State.reachEnd
  dsimp only
  split
  · exact hdone.trans (keepsAround_jobFaultFree ..)
  · exact hdone

theorem keepsAround_progressEng (s : State) (k : Nat) (st : Stream) : KeepsAround k s (s.progressEng k st) := by
  unfold State.progressEng
  dsimp only
  split
  · exact (KeepsAround.setCore ((keepsCmds_finish ..).trans (keepsCmds_modEng ..))).trans (keepsAround_reachEnd ..)
  · split
    · exact .refl ..
    · split
      · exact keepsAround_jobFaultFree ..
      · exact .setCore (.of_eq rfl rfl rfl)
  · exact .refl ..

theorem keepsAround_progress (s : State) (k : Nat) : KeepsAround k s (s.progress k) :=
  (((keepsAround_progressEng s k .xl).trans (keepsAround_progressEng _ k .m)).trans (keepsAround_progressEng _ k .v)).trans
    (keepsAround_progressEng _ k .xs)

/-! ### The completion -/

theorem keepsAround_release (s : State) (k d : Nat) : KeepsAround k s (s.release d) := ⟨rfl, rfl, fun _ _ => rfl, .refl _⟩

theorem keepsAround_foldl {α : Type} {k : Nat} {f : State → α → State} (hf : ∀ s a, KeepsAround k s (f s a)) (l : List α) (s : State) :
    KeepsAround k s (l.foldl f s) := by
  induction l generalizing s with
  | nil => exact .refl ..
  | cons a t ih => exact (hf s a).trans (ih _)

theorem keepsAround_modPlan (s : State) (k d : Nat) (f : PlanEng → PlanEng) : KeepsAround k s (s.modPlan d f) :=
  ⟨rfl, rfl, fun _ _ => rfl, .refl _⟩

theorem keepsAround_tierMove (s : State) (k : Nat) (c : Cmd) (b : Bool) : KeepsAround k s (s.tierMove k c b) := by
  unfold State.tierMove
  dsimp only
  split
  · exact .refl ..
  · exact keepsAround_foldl (fun _ _ => keepsAround_modPlan ..) _ _

/-- The core without command c, its descriptor loaded and its word of XL or XS complete (R159, R203). -/
def Core.completeCmd (y : Core) (c : Cmd) (x : XArgs) : Core :=
  let sets := match c.new with
    | some r => vset y.x.sets x.dst.toNat r
    | none => y.x.sets
  let y := { y with x := { y.x with sets := sets, cmds := y.x.cmds.filter fun e => e.id != c.id } }
  match c.src with
  | .queue => y
  | .xl => y.finish .xl c.id
  | .xs => y.finish .xs c.id

theorem Core.completeCmd_cmds (y : Core) (c : Cmd) (x : XArgs) : (y.completeCmd c x).x.cmds = y.x.cmds.filter fun e => e.id != c.id := by
  unfold Core.completeCmd
  cases c.src with
  | queue => rfl
  | xl => exact (keepsCmds_finish ..).cmds
  | xs => exact (keepsCmds_finish ..).cmds

/-- A completion of a command leaves memory, writes on their way, other cores and other commands, and sets its tag. -/
theorem completeCmd_keeps (s : State) (k : Nat) (c : Cmd) (o : XOp) :
    (s.completeCmd k c o).mem = s.mem ∧ (s.completeCmd k c o).writes = s.writes ∧
    (∀ j, j ≠ k → (s.completeCmd k c o).core j = s.core j) ∧
    ((s.completeCmd k c o).core k).x.cmds = (s.core k).x.cmds.filter (fun e => e.id != c.id) ∧
    (c.tagged = false → ((s.completeCmd k c o).core k).sys.tags.getLsbD o.x.tag.toNat = true) := by
  have hrelease : KeepsAround k s (if o.x.rel && (o.x.scope == .package || o.x.scope == .fabric) then s.release (coreDie k) else s) := by
    split
    · exact keepsAround_release ..
    · exact .refl ..
  generalize hs1 : (if o.x.rel && (o.x.scope == .package || o.x.scope == .fabric) then s.release (coreDie k) else s) = s1 at hrelease
  generalize hs2 : s1.modCore k (fun y => y.completeCmd c o.x) = s2
  have hmove : KeepsAround k s2 (match o.kind with
      | .prefetch => s2.tierMove k c true
      | .writeback => s2.tierMove k c false
      | _ => s2) := by
    split
    · exact keepsAround_tierMove ..
    · exact keepsAround_tierMove ..
    · exact .refl ..
  generalize hs3 : (match o.kind with
      | .prefetch => s2.tierMove k c true
      | .writeback => s2.tierMove k c false
      | _ => s2) = s3 at hmove
  have hlast (u : State) : KeepsAround k u ((u.progress k).wake k) := (keepsAround_progress u k).trans (keepsAround_wake _ k)
  have hdone : s.completeCmd k c o = ((if c.tagged then s3 else s3.setTag k o.x.tag).progress k).wake k := by
    rw [← hs3, ← hs2, ← hs1]
    rfl
  have hmem : s2.mem = s1.mem ∧ s2.writes = s1.writes ∧ (∀ j, j ≠ k → s2.core j = s1.core j) ∧
      (s2.core k).x.cmds = (s1.core k).x.cmds.filter fun e => e.id != c.id := by
    rw [← hs2]
    exact ⟨rfl, rfl, fun j hj => State.core_modCore_ne _ _ hj, by rw [State.core_modCore_self, Core.completeCmd_cmds]⟩
  obtain ⟨hm, hw, hc, hx⟩ := hmem
  obtain ⟨htm, htw, htc, htx, htag, hnew⟩ := setTag_keeps s3 k o.x.tag
  rw [hrelease.core.cmds] at hx
  rw [hdone]
  cases c.tagged with
  | true =>
    have h := hmove.trans (hlast s3)
    exact ⟨h.mem.trans (hm.trans hrelease.mem), h.writes.trans (hw.trans hrelease.writes),
      fun j hj => (h.cores j hj).trans ((hc j hj).trans (hrelease.cores j hj)), h.core.cmds.trans hx, fun h => by cases h⟩
  | false =>
    have h := hlast (s3.setTag k o.x.tag)
    exact ⟨h.mem.trans (htm.trans (hmove.mem.trans (hm.trans hrelease.mem))),
      h.writes.trans (htw.trans (hmove.writes.trans (hw.trans hrelease.writes))),
      fun j hj => (h.cores j hj).trans ((htc j hj).trans ((hmove.cores j hj).trans ((hc j hj).trans (hrelease.cores j hj)))),
      h.core.cmds.trans (htx.trans (hmove.core.cmds.trans hx)), fun _ => (h.core.tags _ htag hnew).1⟩

end Sys2Proof.Machine
end

section
/-! SUPPORT. Ends of transfer commands and of jobs without progress (R159, R181, R201, R28), and O54 from them. -/

namespace Sys2Proof.Safety

open Sys2Proof.Machine

/-! ### The command under a number -/

theorem cmd_id {s : State} {k id : Nat} {e : Cmd} (h : s.cmd? k id = some e) : e.id = id := by
  simpa using List.find?_some h

/-- Completion of a command that can complete. -/
theorem commandComplete_completes {s : State} {k : CoreIx} {id : Nat} {e : Cmd} {o : XOp} (h : s.cmd? k.val id = some e)
    (hw : xopOfWord e.word = some o) (hget : ¬ (e.st = .network ∧ o.kind = .get)) (hc : s.completable k.val e o.x = true) :
    exec (.commandComplete k id) s = .next (s.completeCmd k.val e o) := by
  change execCommandComplete k id s = _
  simp [execCommandComplete, h, hw, hget, hc]

theorem commandComplete_waits {s : State} {k : CoreIx} {id : Nat} {e : Cmd} {o : XOp} (h : s.cmd? k.val id = some e)
    (hw : xopOfWord e.word = some o) (hget : ¬ (e.st = .network ∧ o.kind = .get)) (hc : s.completable k.val e o.x = false) :
    exec (.commandComplete k id) s = .next s := by
  change execCommandComplete k id s = _
  simp [execCommandComplete, h, hw, hget, hc]

/-! ### Replays and faults -/

theorem transientReplay_counts {s : State} {k : CoreIx} {id : Nat} {e : Cmd} (h : s.cmd? k.val id = some e) :
    ∃ t, exec (.transientReplay k id) s = .next t ∧ CoreStep s t k.val { s.core k.val with sys := { (s.core k.val).sys with
      rplcX := if (s.core k.val).sys.rplcX = 0xFFFFFFFF#32 then (s.core k.val).sys.rplcX else (s.core k.val).sys.rplcX + 1#32 } } := by
  refine ⟨s.modCore k.val fun c =>
    { c with sys := { c.sys with rplcX := if c.sys.rplcX = 0xFFFFFFFF#32 then c.sys.rplcX else c.sys.rplcX + 1#32 } }, ?_, modCore_step ..⟩
  change execTransientReplay k id s = _
  have hones : BitVec.allOnes 32 = 0xFFFFFFFF#32 := by decide
  simp [execTransientReplay, h, hones]

theorem commandFault_waits {s : State} {k : CoreIx} {id : Nat} {e : Cmd} (h : s.cmd? k.val id = some e) (hst : e.st ≠ .failed) :
    exec (.commandFault k id) s = .next s := by
  change execCommandFault k id s = _
  simp [execCommandFault, h, hst]

theorem resolvable_iff {z : Byte} : resolvable z = true ↔ z = cXLATE ∨ z = cPERM ∨ z = cSTAGE_ABSENT := by
  simp [resolvable, or_assoc]

/-- A resolvable fault is posted, and its command waits for resolution. -/
theorem commandFault_posts {s : State} {k : CoreIx} {id : Nat} {e : Cmd} (h : s.cmd? k.val id = some e) (hst : e.st = .failed)
    (hz : e.cause = cXLATE ∨ e.cause = cPERM ∨ e.cause = cSTAGE_ABSENT) :
    ∃ t, exec (.commandFault k id) s = .next t ∧ t.core k.val = cmdPut s k.val id (fun x => { x with st := .resolution }) ∧
      (∀ j, j ≠ k.val → t.core j = s.core j) ∧
      ∃ y ∈ (t.die (k.val / 192)).fq ++ (t.die (k.val / 192)).fqWait,
        y.core = k.val ∧ y.cause = e.cause ∧ y.addr = e.addr ∧ y.cmd = some (s.cmdRef k.val e) := by
  generalize hp : FaultEntry.mk 0#32 (s.core k.val).jobFunc k.val (BitVec.ofNat 8 e.src.faultStream) (s.core k.val).jobTeam
    (s.core k.val).jobRank (some (s.cmdRef k.val e)) e.cause e.addr none = p
  have hcore : p.core = k.val := by rw [← hp]
  refine ⟨(s.modCmd k.val id fun x => { x with st := .resolution }).postFault p, ?_, ?_, fun j hj => ?_, ?_⟩
  · change execCommandFault k id s = _
    simp [execCommandFault, h, hst, resolvable_iff.2 hz, hp]
  · rw [core_of_cores (postFault_cores ..)]
    exact State.core_modCore_self ..
  · rw [core_of_cores (postFault_cores ..)]
    exact State.core_modCore_ne _ _ hj
  · have hdie : coreDie p.core < 8 := by
      have := k.isLt
      rw [hcore, coreDie]
      omega
    obtain ⟨i, hi⟩ := postFault_entry (s.modCmd k.val id fun x => { x with st := .resolution }) p hdie
    rw [hcore] at hi
    refine ⟨_, hi, ?_⟩
    rw [← hp]
    exact ⟨rfl, rfl, rfl, rfl⟩

theorem commandFault_faults {s : State} {k : CoreIx} {id : Nat} {e : Cmd} (h : s.cmd? k.val id = some e) (hst : e.st = .failed)
    (hx : e.cause ≠ cXLATE) (hp : e.cause ≠ cPERM) (ha : e.cause ≠ cSTAGE_ABSENT) :
    exec (.commandFault k id) s = .next (s.jobFault k.val e.cause e.addr e.src.faultStream e.pc) := by
  change execCommandFault k id s = _
  have : resolvable e.cause = false := by
    rw [← Bool.not_eq_true, resolvable_iff]
    simp [hx, hp, ha]
  simp [execCommandFault, h, hst, this]

theorem peerRefusal_other {s : State} {k : CoreIx} {id : Nat} {e : Cmd} (h : s.cmd? k.val id = some e) (hst : e.st ≠ .network)
    (cause : Byte) (addr : Dword) : exec (.peerRefusal k id cause addr) s = .next s := by
  change execPeerRefusal k id cause addr s = _
  simp [execPeerRefusal, h, hst]

/-- The fault record of a job with the peer's cause, where the record is of a refusal (R201). -/
def refusedBy (cause : Byte) (c : Core) : Core :=
  { c with fault := c.fault.map fun f => if f.cause == cNET_REFUSED then { f with peer := cause } else f }

theorem coreRest_refusedBy {c d : Core} (cause : Byte) (h : coreRest c = coreRest d) :
    coreRest (refusedBy cause c) = coreRest (refusedBy cause d) := by
  have hrefused := congrArg (fun z : Core => coreRest (refusedBy cause z)) h
  exact hrefused

/-- A refused network command faults its job with the peer's cause in the record. -/
theorem peerRefusal_faults {s : State} {k : CoreIx} {id : Nat} {e : Cmd} (h : s.cmd? k.val id = some e) (hst : e.st = .network)
    (cause : Byte) (addr : Dword) (hj : (s.core k.val).job.isSome = true) (hf : (s.core k.val).fault = none) :
    ∃ t, exec (.peerRefusal k id cause addr) s = .next t ∧
      FaultedBy s t k.val ⟨cNET_REFUSED, addr, BitVec.ofNat 8 e.src.faultStream, e.pc, cause⟩ := by
  generalize hu : s.jobFault k.val cNET_REFUSED addr e.src.faultStream e.pc = u
  refine ⟨u.modCore k.val (refusedBy cause), ?_, ?_⟩
  · change execPeerRefusal k id cause addr s = _
    simp only [execPeerRefusal, h, hst, hu]
    rfl
  · obtain ⟨l, hl, hstep⟩ := hu ▸ jobFault_faulted cNET_REFUSED addr e.src.faultStream e.pc hj hf
    obtain ⟨hrest, hcore, hcores, hfuncs, hmem⟩ := hstep.trans (modCore_step u k.val (refusedBy cause))
    exact ⟨l, hl, hrest, hcore.trans (coreRest_refusedBy cause hstep.core), hcores, hfuncs, hmem⟩

/-! ### No progress -/

/-- The open streams of a job (R28). -/
def openStreams (j : Job) : List Nat := (List.range 8).filter fun i => j.expect.getLsbD i && !j.done.getLsbD i

theorem openStreams_eq (j : Job) : ((upto 8).filter fun i => maskHas j.expect i && !maskHas j.done i) = openStreams j := rfl

/-- A job with nothing in flight whose open streams are all stalled faults for the lowest of them. -/
theorem noProgress_faults {s : State} {k : CoreIx} {j : Job} {i : Nat} {rest : List Nat} (hj : (s.core k.val).job = some j)
    (hlive : (s.core k.val).live = true) (hopen : openStreams j = i :: rest) (hstalled : ∀ n ∈ openStreams j, (s.core k.val).stalledAt n = true)
    (hx : (s.core k.val).x.cmds = []) (hq : (s.core k.val).x.queue = []) (hgo : (s.core k.val).mx.go = false)
    (ho : (s.core k.val).mx.outst = []) :
    exec (.noProgress k) s = .next (s.jobFaultFree k.val cNO_PROGRESS i ((s.core k.val).pcAt i)) := by
  change execNoProgress k s = _
  have hall : (openStreams j).all (s.core k.val).stalledAt = true := List.all_eq_true.2 hstalled
  unfold execNoProgress
  simp only [hj, openStreams_eq, hall, hlive, hx, hq, hgo, ho]
  simp only [hopen]
  rfl

theorem noProgress_waits {s : State} {k : CoreIx} {j : Job} (hj : (s.core k.val).job = some j)
    (h : (∃ n ∈ openStreams j, (s.core k.val).stalledAt n = false) ∨ (s.core k.val).x.cmds ≠ []) : exec (.noProgress k) s = .next s := by
  change execNoProgress k s = _
  unfold execNoProgress
  simp only [hj, openStreams_eq]
  rcases h with ⟨n, hn, hs⟩ | hx
  · have hall : (openStreams j).all (s.core k.val).stalledAt = false := List.all_eq_false.2 ⟨n, hn, by simp [hs]⟩
    simp [hall]
  · simp [hx]

end Sys2Proof.Safety

section

open Sys2Proof Sys2Proof.Machine Sys2Proof.Safety

/-- Settles O54: each end of a command is one case of its event; a completion keeps what `completeCmd_keeps` says, a fault is a
`FaultedBy`. -/
theorem commandsEndOrFault : Obligations.CommandsEndOrFault := by
  unfold Obligations.CommandsEndOrFault
  intro s k id c faults
  have hfaults : ∀ {i : Instr} {t : State} {r : FaultRec} {f : FaultRec → Prop}, exec i s = .next t → FaultedBy s t k.val r → f r → faults i f := by
    intro i t r f hi ⟨l, hl, hstep⟩ hr
    rw [ofNat_core] at hl
    exact ⟨t, r, l, hi, hr, hl, hstep⟩
  refine ⟨fun e o he ho hget => ⟨commandComplete_waits he ho hget, fun hc => ?_⟩, fun e he => ⟨transientReplay_counts he,
    commandFault_waits he, commandFault_posts he, fun hj hf => ⟨fun hst hx hp ha => ?_, fun cause addr hst => ?_⟩,
    fun cause addr hst => peerRefusal_other he hst cause addr⟩, fun hnone => ?_, fun j hj hf hp => ⟨?_, ?_⟩⟩
  · obtain ⟨hmem, hwrites, hcores, hcmds, htag⟩ := completeCmd_keeps s k.val e o
    rw [cmd_id he] at hcmds
    refine ⟨_, commandComplete_completes he ho hget hc, hmem, hwrites, ?_, ?_, htag, hcores⟩
    · intro x hx
      simpa [hcmds] using hx
    · intro x hx hid
      simpa [hcmds, hid] using hx
  · exact hfaults (commandFault_faults he hst hx hp ha) (jobFault_faulted _ _ _ _ hj hf) ⟨rfl, rfl, rfl⟩
  · obtain ⟨t, ht, hby⟩ := peerRefusal_faults he hst cause addr hj hf
    exact hfaults ht hby ⟨rfl, rfl, rfl⟩
  · refine ⟨?_, ?_, ?_⟩
    · change execCommandComplete k id s = _
      simp [execCommandComplete, hnone]
    · change execCommandFault k id s = _
      simp [execCommandFault, hnone]
    · change execTransientReplay k id s = _
      simp [execTransientReplay, hnone]
  · intro i rest hopen hstalled hx hq hgo ho
    have hsome : c.job.isSome = true := by rw [hj]; rfl
    have hlive : c.live = true := by simp [Core.live, hj, hf, hp]
    exact hfaults (noProgress_faults hj hlive hopen hstalled hx hq hgo ho) (jobFaultFree_faulted _ _ _ hsome hf) ⟨rfl, rfl, rfl⟩
  · exact noProgress_waits hj

end
end

section
/-! SUPPORT. Completion of words of M, of its nest and of V, and of a nest (R19, R276), where no stream stands at a notify or a rendezvous. -/

namespace Sys2Proof.Machine

/-- No stream of the core stands at a notify or a rendezvous. -/
def Core.Calm (c : Core) : Prop := ∀ st : Stream, (c.eng st).st = .running ∨ (c.eng st).st = .ended ∨ (c.eng st).st = .absent

theorem progressEng_calm {s : State} {k : Nat} {st : Stream}
    (h : ((s.core k).eng st).st = .running ∨ ((s.core k).eng st).st = .ended ∨ ((s.core k).eng st).st = .absent) : s.progressEng k st = s := by
  unfold State.progressEng
  rcases h with h | h | h <;> simp only [h]

/-- Nothing waits in the streams of a calm core. -/
theorem progress_calm {s : State} {k : Nat} (h : (s.core k).Calm) : s.progress k = s := by
  unfold State.progress
  rw [progressEng_calm (h .xl), progressEng_calm (h .m), progressEng_calm (h .v), progressEng_calm (h .xs)]

theorem calm_of_eng {c d : Core} (h : ∀ st, (d.eng st).st = (c.eng st).st) (hc : c.Calm) : d.Calm := fun st => by
  rw [h st]
  exact hc st

/-- The flags of an engine's register after a completion, in the statement's form. -/
theorem Sys.flagged_eq (y : Sys) (i : Fin 4) (f : Byte) : y.flagged i.val f = if f = 0#8 then y else { y with
    flg := y.flg.set i.val (y.flg[i.val] ||| (f &&& 0x7F#8)), flgNew := y.flgNew.set i.val (y.flgNew[i.val] ||| (f &&& 0x7F#8)) } := by
  unfold Sys.flagged Sys.setFlags
  rw [vset_lt _ _ i.isLt, vset_lt _ _ i.isLt, vget_lt _ _ _ i.isLt, vget_lt _ _ _ i.isLt]

/-- A core changed, after which nothing waits. -/
theorem progress_modCore {s : State} {k : Nat} {f : Core → Core} (h : (f (s.core k)).Calm) :
    (s.modCore k f).progress k = s.modCore k f := progress_calm (by rwa [State.core_modCore_self])

/-- A completion of a stream's oldest word keeps the states in which the streams stand. -/
theorem Core.eng_st_finish_first (c : Core) {st u : Stream} {rest : List Outst} (y : Sys) (p : Option Nat) :
    ((((({ c with sys := y } : Core).showToken p).modEng st fun e => { e with outst := rest }).eng u).st) = (c.eng u).st := by
  cases st <;> cases u <;> cases p <;> rfl

theorem oldest_first {o : Outst} {rest : List Outst} (hd : o.done = false) (ho : o.own = false) : oldest (o :: rest) = some o.id := by
  simp [oldest, hd, ho]

theorem oldest_own {os : List Outst} (h : ∀ x ∈ os, x.own = true ∧ x.done = false) : oldest os = none := by
  unfold oldest
  rw [List.find?_eq_none.2]
  · rfl
  · intro x hx
    simp [(h x hx).1]

/-- The completion of the nest's oldest word, where M's own outstanding words complete by events of their own. -/
theorem Core.finishNest_first {c : Core} {o : Outst} {rest : List Outst} (ho : c.mx.outst = o :: rest) (hd : o.done = false)
    (hr : ∀ x ∈ rest, x.done = false ∧ x.id ≠ o.id) (hm : ∀ x ∈ c.m.outst, x.own = true ∧ x.done = false) :
    c.finishNest o.id = { ({ c with sys := c.sys.flagged 1 o.fl } : Core).showToken o.push with mx := { c.mx with outst := rest } } := by
  have hids : ∀ x ∈ rest, x.id ≠ o.id := fun x hx => (hr x hx).2
  have hnone : (c.m.outst.filter fun o => !o.own) = [] := by
    rw [List.filter_eq_nil_iff]
    intro x hx
    simp [(hm x hx).1]
  unfold Core.finishNest
  rw [ho, flagsAt_first hd hids]
  dsimp only
  rw [Core.flagged_eq]
  unfold Core.drainNest
  dsimp only
  rw [ho, map_done_first hids, hnone, Core.drainList_first _ _ rfl (by simp) fun x hx => (hr x hx).1, Core.drain_eq]
  simp only [if_true]
  rw [Core.drainList_of_undone]
  · cases o.push <;> rfl
  · cases o.push <;> exact fun x hx => (hm x hx).2

end Sys2Proof.Machine

namespace Sys2Proof.Safety

open Sys2Proof.Machine

/-- The word o completes, nothing waits for it: the core's change. -/
theorem wordComplete_m {s : State} {k : CoreIx} {o : Outst} {rest : List Outst} (hcalm : (s.core k.val).Calm)
    (hm : (s.core k.val).m.outst = o :: rest) (hd : o.done = false) (hown : o.own = false) (hr : ∀ x ∈ rest, x.done = false ∧ x.id ≠ o.id)
    (hx : ∀ x ∈ (s.core k.val).mx.outst, o.id ≤ x.id ∨ x.push ≠ o.push) :
    exec (.wordComplete k .m) s = .next (s.modCore k.val fun c => c.finish .m o.id) := by
  have hfin := Core.finish_first (s.core k.val) (st := .m) (by decide) hm hd hr fun _ => hx
  change execWordComplete k .m s = _
  unfold execWordComplete
  simp only [hm, oldest_first hd hown]
  rw [progress_modCore]
  rw [hfin]
  exact calm_of_eng (fun _ => Core.eng_st_finish_first ..) hcalm

theorem wordComplete_v {s : State} {k : CoreIx} {o : Outst} {rest : List Outst} (hcalm : (s.core k.val).Calm)
    (hv : (s.core k.val).v.outst = o :: rest) (hd : o.done = false) (hown : o.own = false) (hr : ∀ x ∈ rest, x.done = false ∧ x.id ≠ o.id) :
    exec (.wordComplete k .v) s = .next (s.modCore k.val fun c => c.finish .v o.id) := by
  have hfin := Core.finish_first (s.core k.val) (st := .v) (by decide) hv hd hr fun h => by cases h
  change execWordComplete k .v s = _
  unfold execWordComplete
  simp only [hv, oldest_first hd hown]
  rw [progress_modCore]
  rw [hfin]
  exact calm_of_eng (fun _ => Core.eng_st_finish_first ..) hcalm

theorem wordComplete_nest {s : State} {k : CoreIx} {o : Outst} {rest : List Outst} (hcalm : (s.core k.val).Calm)
    (hx : (s.core k.val).mx.outst = o :: rest) (hd : o.done = false) (hown : o.own = false) (hr : ∀ x ∈ rest, x.done = false ∧ x.id ≠ o.id)
    (hm : ∀ x ∈ (s.core k.val).m.outst, x.own = true ∧ x.done = false) :
    exec (.wordComplete k .m) s = .next (s.modCore k.val fun c => c.finishNest o.id) := by
  have hfin := Core.finishNest_first hx hd hr hm
  change execWordComplete k .m s = _
  unfold execWordComplete
  simp only [oldest_own hm, hx, oldest_first hd hown]
  rw [progress_modCore]
  rw [hfin]
  refine calm_of_eng (fun st => ?_) hcalm
  cases st <;> cases o.push <;> rfl

/-- The core of a completion, once the core's step is known. -/
theorem modCore_core {s : State} {k : Nat} {f : Core → Core} {d : Core} (h : f (s.core k) = d) : CoreStep s (s.modCore k f) k d :=
  h ▸ modCore_step s k f

/-- M's oldest word completes (R19). -/
theorem completes_m {s : State} {k : CoreIx} {o : Outst} {rest : List Outst} (hcalm : (s.core k.val).Calm)
    (hm : (s.core k.val).m.outst = o :: rest) (hd : o.done = false) (hown : o.own = false) (hr : ∀ x ∈ rest, x.done = false ∧ x.id ≠ o.id)
    (hx : ∀ x ∈ (s.core k.val).mx.outst, o.id ≤ x.id ∨ x.push ≠ o.push) :
    ∃ u, exec (.wordComplete k .m) s = .next u ∧ CoreStep s u k.val { s.core k.val with
      m := { (s.core k.val).m with outst := rest }, fifo := ((s.core k.val).showToken o.push).fifo, sys := (s.core k.val).sys.flagged 1 o.fl } := by
  refine ⟨_, wordComplete_m hcalm hm hd hown hr hx, modCore_core ?_⟩
  rw [Core.finish_first (s.core k.val) (st := .m) (by decide) hm hd hr fun _ => hx]
  cases o.push <;> rfl

/-- V's oldest word completes (R19). -/
theorem completes_v {s : State} {k : CoreIx} {o : Outst} {rest : List Outst} (hcalm : (s.core k.val).Calm)
    (hv : (s.core k.val).v.outst = o :: rest) (hd : o.done = false) (hown : o.own = false) (hr : ∀ x ∈ rest, x.done = false ∧ x.id ≠ o.id) :
    ∃ u, exec (.wordComplete k .v) s = .next u ∧ CoreStep s u k.val { s.core k.val with
      v := { (s.core k.val).v with outst := rest }, fifo := ((s.core k.val).showToken o.push).fifo, sys := (s.core k.val).sys.flagged 2 o.fl } := by
  refine ⟨_, wordComplete_v hcalm hv hd hown hr, modCore_core ?_⟩
  rw [Core.finish_first (s.core k.val) (st := .v) (by decide) hv hd hr fun h => by cases h]
  cases o.push <;> rfl

/-- The nest's oldest word completes (R19). -/
theorem completes_nest {s : State} {k : CoreIx} {o : Outst} {rest : List Outst} (hcalm : (s.core k.val).Calm)
    (hx : (s.core k.val).mx.outst = o :: rest) (hd : o.done = false) (hown : o.own = false) (hr : ∀ x ∈ rest, x.done = false ∧ x.id ≠ o.id)
    (hm : ∀ x ∈ (s.core k.val).m.outst, x.own = true ∧ x.done = false) :
    ∃ u, exec (.wordComplete k .m) s = .next u ∧ CoreStep s u k.val { s.core k.val with
      mx := { (s.core k.val).mx with outst := rest }, fifo := ((s.core k.val).showToken o.push).fifo, sys := (s.core k.val).sys.flagged 1 o.fl } := by
  refine ⟨_, wordComplete_nest hcalm hx hd hown hr hm, modCore_core ?_⟩
  rw [Core.finishNest_first hx hd hr hm]
  cases o.push <;> rfl

theorem modMx_step (s : State) (k : Nat) (f : Matrix → Matrix) :
    CoreStep s (s.modMx k f) k { s.core k with mx := f (s.core k).mx } := modCore_step ..

/-- A nest at its end completes its mgo (R276). -/
theorem nestComplete_ends {s : State} {k : CoreIx} {o : Outst} {rest : List Outst} (hcalm : (s.core k.val).Calm)
    (hm : (s.core k.val).m.outst = o :: rest) (hd : o.done = false) (hr : ∀ x ∈ rest, x.done = false ∧ x.id ≠ o.id)
    (hid : o.id = (s.core k.val).mx.goId) (hfl : o.fl = 0#8) (hgo : (s.core k.val).mx.go = true) (hph : (s.core k.val).mx.phase = .done)
    (hx : (s.core k.val).mx.outst = []) :
    ∃ u, exec (.nestComplete k) s = .next u ∧ CoreStep s u k.val { s.core k.val with
      mx := { (s.core k.val).mx with go := false }, m := { (s.core k.val).m with outst := rest },
      fifo := ((s.core k.val).showToken o.push).fifo } := by
  generalize ht : (s.modMx k.val fun x => { x with go := false }) = t
  generalize hd' : ({ s.core k.val with
    mx := { (s.core k.val).mx with go := false }, m := { (s.core k.val).m with outst := rest },
    fifo := ((s.core k.val).showToken o.push).fifo } : Core) = d
  have hcore : t.core k.val = { s.core k.val with mx := { (s.core k.val).mx with go := false } } := ht ▸ State.core_modCore_self ..
  have hfin : (t.core k.val).finish .m o.id = d := by
    rw [Core.finish_first (t.core k.val) (st := .m) (rest := rest) (by decide) (by rw [hcore]; exact hm) hd hr
      (fun _ x hx' => by simp [hcore, hx] at hx'), hcore, hfl, ← hd']
    cases o.push <;> rfl
  have hcalm' : d.Calm := by
    rw [← hd']
    refine calm_of_eng (fun st => ?_) hcalm
    cases st <;> rfl
  refine ⟨t.modCore k.val fun c => c.finish .m o.id, ?_, ?_⟩
  · have hends : exec (.nestComplete k) s = .next ((t.modCore k.val fun c => c.finish .m (s.core k.val).mx.goId).progress k.val) := by
      change execNestComplete k s = _
      unfold execNestComplete
      simp [hgo, hph, hx, ht]
    rw [hends, ← hid, progress_modCore (by rw [hfin]; exact hcalm')]
  · have hgone := modMx_step s k.val fun x => { x with go := false }
    rw [ht] at hgone
    exact hgone.trans (modCore_core hfin)

theorem nestComplete_waits {s : State} {k : CoreIx}
    (h : (s.core k.val).mx.go = false ∨ (s.core k.val).mx.phase ≠ .done ∨ (s.core k.val).mx.outst ≠ []) : exec (.nestComplete k) s = .next s := by
  change execNestComplete k s = _
  unfold execNestComplete
  rcases h with h | h | h <;> simp [h]

end Sys2Proof.Safety
end

section
/-! SUPPORT. What an input port of V fetches ahead (R350, R359), and the leaving of a rendezvous (R24). -/

namespace Sys2Proof.Safety

open Sys2Proof.Machine

/-! ### Port fetches -/

/-- An input port changed by f, where it is bound. -/
theorem modPort_of_bound {x : Vec} {p : Nat} {q : VPort} (h : vget x.ports p none = some q) (f : VPort → VPort) :
    vset x.ports p ((vget x.ports p none).map f) = x.ports.setIfInBounds p (some (f q)) := by rw [h]; rfl

theorem getD_eq_vget {β : Type} {n : Nat} (v : Vector β n) (i : Nat) (d : β) : v.getD i d = vget v i d := by
  by_cases h : i < n <;> simp [vget, Vector.getD, h]

theorem foldl_held (l : List VFetch) (n : Nat) : l.foldl (fun a b => a + b.n) n = n + (l.map fun b => b.n).sum := by
  induction l generalizing n with
  | nil => rfl
  | cons b t ih => rw [List.foldl_cons, ih]; simp; omega

theorem fetchCharge_step {s t : State} {k : Nat} {c : Core} (h : CoreStep s t k c) (y : PUse) : CoreStep s (t.fetchCharge k y) k c :=
  (h.charge ..).charge ..

/-- A bound port that holds fewer than two operands fetches the next (R350). -/
theorem portFetch_fetches {s : State} {k : CoreIx} {port : BitVec 3} {q : VPort} {n : Nat} {y : PUse} (hp : port.toNat < 4)
    (hq : vget (s.core k.val).vx.ports port.toNat none = some q) (hn : (s.core k.val).aheadSize port.toNat = some n)
    (hl : (s.core k.val).live = true) (hb : q.buf.length < 2)
    (hu : s.portUse k.val port.toNat ((q.buf.map fun b => b.n).sum) n = .ok y)
    (hg : (s.core k.val).grantable { rd := y.banks true } = true) :
    ∃ u, exec (.portFetch k port) s = .next u ∧ CoreStep s u k.val { s.core k.val with vx := { (s.core k.val).vx with
      ports := (s.core k.val).vx.ports.setIfInBounds port.toNat (some { q with buf := q.buf ++ [⟨n, y.read s.mem, none⟩] }) } } := by
  refine ⟨(s.modVx k.val fun x =>
    { x with
      ports := vset x.ports port.toNat
        ((vget x.ports port.toNat none).map fun z => { z with buf := z.buf ++ [⟨n, y.read s.mem, none⟩] }) }).fetchCharge k.val y, ?_, ?_⟩
  · change execPortFetch k port s = _
    have hnone : (4 ≤ port.toNat || !(s.core k.val).live || 2 ≤ q.buf.length) = false := by
      simp [hl]
      omega
    unfold execPortFetch
    dsimp only
    simp only [hq, hn, foldl_held, Nat.zero_add, hnone, hu, hg, Bool.false_eq_true, if_false, if_true]
  · rw [← modPort_of_bound hq fun z => { z with buf := z.buf ++ [⟨n, y.read s.mem, none⟩] }]
    exact fetchCharge_step (modCore_step ..) y

/-! ### The leaving of a rendezvous -/

/-- The core that block stream q leaves with a rendezvous of mask m. -/
def blockLeaves (m : Byte) (c : Core) (q : Fin 4) : Core :=
  if maskHas m q.val then { c with q := c.q.set q.val c.q[q.val].step.resume } else c

/-- The core that engine stream st leaves with a rendezvous of mask m. -/
def engLeaves (m : Byte) (c : Core) (st : Stream) : Core :=
  if maskHas m (streamIx st) then
    match (c.eng st).outst with
    | o :: _ => (((c.finish st o.id).modEng st fun e => { e with st := .running }).stepEng st).dropAhead st
    | [] => (c.modEng st fun e => { e with st := .running }).stepEng st
  else c

/-- The core that all participants of rendezvous id, of mask m, leave. -/
def rdvLeft (m : Byte) (id : Nat) (c : Core) : Core :=
  engLeaves m (engLeaves m (engLeaves m (engLeaves m
    (blockLeaves m (blockLeaves m (blockLeaves m (blockLeaves m { c with rdv := vset c.rdv id {} } 0) 1) 2) 3) .xl) .m) .v) .xs

theorem leaveRdv_eq (s : State) (k id : Nat) : s.leaveRdv k id = s.modCore k (rdvLeft (vget (s.core k).rdv id {}).mask id) := rfl

end Sys2Proof.Safety
end

section
/-! SUPPORT. What the participants of a rendezvous leave it as (R24, R350, R274): the streams' places, tokens, run-ahead. -/

namespace Sys2Proof.Safety

open Sys2Proof.Machine

/-! ### Whose FIFO a token goes to -/

/-- The stream that pushes into a FIFO (R16). -/
def pusher (n : Nat) : Stream :=
  match n with
  | 0 => .xl
  | 1 => .xl
  | 2 => .m
  | 4 => .m
  | 6 => .m
  | 3 => .v
  | 5 => .v
  | 7 => .v
  | _ => .xs

/-- Each FIFO has one stream that pushes into it. -/
theorem pusher_of_pushFifo {st : Stream} {f : BitVec 2} {n : Nat} (h : pushFifo st f = some n) : st = pusher n := by
  unfold pushFifo at h
  split at h <;> cases h <;> rfl

/-! ### One engine stream -/

/-- A stream that leaves, standing at its rendezvous word with no other word outstanding, if the mask has it. -/
def Leaving (m : Byte) (c : Core) (st : Stream) : Prop :=
  maskHas m (streamIx st) = true → ∃ o f, (c.eng st).outst = [o] ∧ o.push = pushFifo st f ∧ o.fl = 0#8 ∧ o.done = false

/-- Stream st of the mask has a token for FIFO n. -/
def Pushes (m : Byte) (c : Core) (st : Stream) (n : Nat) : Prop :=
  maskHas m (streamIx st) = true ∧ (c.eng st).outst.any (fun o => o.push == some n) = true

/-- An engine stream past its rendezvous word. -/
def engPast (e : Eng) : Eng := { e with pc := e.pc + 1#32, st := .running, outst := [] }

/-- A core but for what leaving a rendezvous moves of its engine streams. -/
def leaveRest (c : Core) : Core := { engRest c with mx := {}, vx := {} }

/-- The core d is c after the streams of l that the mask has have left their rendezvous. -/
structure EngsLeft (m : Byte) (l : List Stream) (c d : Core) : Prop where
  eng : ∀ st ∈ engineStreams, d.eng st = if st ∈ l ∧ maskHas m (streamIx st) = true then engPast (c.eng st) else c.eng st
  fifo : ∀ n < 10, ((∃ st ∈ l, Pushes m c st n) → vget d.fifo n {} = (vget c.fifo n {}).visible) ∧
    ((¬ ∃ st ∈ l, Pushes m c st n) → vget d.fifo n {} = vget c.fifo n {})
  vx : d.vx = if .v ∈ l ∧ maskHas m (streamIx .v) = true then c.vx.dropAhead else c.vx
  mx : d.mx = if .m ∈ l ∧ maskHas m (streamIx .m) = true then { c.mx with synced := true } else c.mx
  rest : leaveRest d = leaveRest c

theorem Core.dropAhead_eq (c : Core) (st : Stream) : c.dropAhead st =
    { c with vx := if st = .v then c.vx.dropAhead else c.vx, mx := if st = .m then { c.mx with synced := true } else c.mx } := by
  cases st <;> rfl

/-- A stream that leaves shows its token and goes on past its word. -/
theorem engLeaves_eq {m : Byte} {c : Core} {st : Stream} {o : Outst} (hst : st ∈ engineStreams) (hb : maskHas m (streamIx st) = true)
    (ho : (c.eng st).outst = [o]) (hf : o.fl = 0#8) (hd : o.done = false) (hx : c.mx.outst = []) :
    engLeaves m c st = ((c.showToken o.push).modEng st engPast).dropAhead st := by
  have hfin := Core.finish_first c hst ho hd (by simp) fun _ x h => by simp [hx] at h
  rw [hf] at hfin
  unfold engLeaves
  rw [if_pos hb, ho]
  dsimp only
  rw [hfin]
  unfold Core.stepEng
  rw [Core.modEng_modEng, Core.modEng_modEng]
  rfl

theorem pushes_iff {m : Byte} {c : Core} {st : Stream} {o : Outst} {n : Nat} (hb : maskHas m (streamIx st) = true)
    (ho : (c.eng st).outst = [o]) : Pushes m c st n ↔ o.push = some n := by
  simp [Pushes, hb, ho]

/-- One engine stream leaves. -/
theorem engLeaves_left {m : Byte} {c : Core} {st : Stream} (hst : st ∈ engineStreams) (hl : Leaving m c st) (hx : c.mx.outst = []) :
    EngsLeft m [st] c (engLeaves m c st) := by
  by_cases hb : maskHas m (streamIx st) = true
  case neg =>
    have hnone : engLeaves m c st = c := if_neg hb
    have hno : ∀ u, ¬ (u ∈ [st] ∧ maskHas m (streamIx u) = true) := by
      rintro u ⟨hu, h⟩
      rw [List.mem_singleton.1 hu] at h
      exact hb h
    rw [hnone]
    refine ⟨fun u _ => (if_neg (hno u)).symm, fun n _ => ⟨fun ⟨u, hu, h⟩ => absurd ⟨hu, h.1⟩ (hno u), fun _ => rfl⟩,
      (if_neg (hno .v)).symm, (if_neg (hno .m)).symm, rfl⟩
  case pos =>
    obtain ⟨o, f, ho, hp, hf, hd⟩ := hl hb
    have heng (u : Stream) : (engLeaves m c st).eng u = ((c.showToken o.push).modEng st engPast).eng u := by
      rw [engLeaves_eq hst hb ho hf hd hx, Core.dropAhead_eq]
      cases u <;> rfl
    have hfifo : (engLeaves m c st).fifo = (c.showToken o.push).fifo := by
      rw [engLeaves_eq hst hb ho hf hd hx, Core.dropAhead_eq]
      exact Core.modEng_fifo ..
    have hrest : engLeaves m c st = { (c.showToken o.push).modEng st engPast with
        vx := if st = .v then c.vx.dropAhead else c.vx, mx := if st = .m then { c.mx with synced := true } else c.mx } := by
      rw [engLeaves_eq hst hb ho hf hd hx, Core.dropAhead_eq, Core.showToken_eq]
      cases st <;> rfl
    refine ⟨fun u hu => ?_, fun n hn => ?_, ?_, ?_, ?_⟩
    · rw [heng]
      by_cases h : u = st
      · rw [h, Core.eng_modEng_self _ _ hst, Core.showToken_eng, if_pos ⟨List.mem_singleton.2 rfl, hb⟩]
      · rw [Core.eng_modEng_ne _ _ hst hu h, Core.showToken_eng, if_neg fun hm => h (List.mem_singleton.1 hm.1)]
    · have hiff : (∃ u ∈ [st], Pushes m c u n) ↔ o.push = some n := by
        simp [pushes_iff hb ho]
      rw [hiff, hfifo, Core.showToken_fifo _ _ hn]
      exact ⟨fun h => if_pos h, fun h => if_neg h⟩
    · rw [hrest]
      by_cases h : st = .v
      · subst h; simp [hb]
      · simp [h, Ne.symm h]
    · rw [hrest]
      by_cases h : st = .m
      · subst h; simp [hb]
      · simp [h, Ne.symm h]
    · rw [hrest]
      have hkeep := engRest_modEng (c.showToken o.push) st engPast
      rw [engRest_showToken] at hkeep
      have hkept := congrArg leaveRest hkeep
      exact hkept

/-- After one stream others leave. -/
theorem EngsLeft.cons {m : Byte} {st : Stream} {l : List Stream} {c d e : Core} (h : EngsLeft m [st] c d) (g : EngsLeft m l d e)
    (hl : ∀ u ∈ l, u ∈ engineStreams) (hst : st ∉ l) (hc : ∀ u ∈ st :: l, Leaving m c u) : EngsLeft m (st :: l) c e := by
  have hother : ∀ u ∈ l, d.eng u = c.eng u := by
    intro u hu
    rw [h.eng u (hl u hu), if_neg]
    intro hm
    rw [List.mem_singleton.1 hm.1] at hu
    exact hst hu
  have hpushes : ∀ u ∈ l, ∀ n, Pushes m d u n ↔ Pushes m c u n := by
    intro u hu n
    unfold Pushes
    rw [hother u hu]
  have howner : ∀ u ∈ st :: l, ∀ n, Pushes m c u n → u = pusher n := by
    intro u hu n hp
    obtain ⟨o, f, ho, hf, -, -⟩ := hc u hu hp.1
    exact pusher_of_pushFifo (hf ▸ (pushes_iff hp.1 ho).1 hp)
  refine ⟨fun u hu => ?_, fun n hn => ⟨fun hp => ?_, fun hp => ?_⟩, ?_, ?_, g.rest.trans h.rest⟩
  · rw [g.eng u hu]
    by_cases hul : u ∈ l
    · simp [hul, hother u hul]
    · rw [if_neg fun hm => hul hm.1, h.eng u hu]
      simp [hul]
  · obtain ⟨u, hu, hp⟩ := hp
    rcases List.mem_cons.1 hu with rfl | hul
    · rw [(g.fifo n hn).2, (h.fifo n hn).1 ⟨u, List.mem_singleton.2 rfl, hp⟩]
      rintro ⟨w, hw, hpw⟩
      have hwu : w = u := (howner w (List.mem_cons_of_mem _ hw) n ((hpushes w hw n).1 hpw)).trans (howner u hu n hp).symm
      exact hst (hwu ▸ hw)
    · rw [(g.fifo n hn).1 ⟨u, hul, (hpushes u hul n).2 hp⟩, (h.fifo n hn).2]
      rintro ⟨w, hw, hpw⟩
      rw [List.mem_singleton.1 hw] at hpw
      have hsu : st = u := (howner st List.mem_cons_self n hpw).trans (howner u hu n hp).symm
      exact hst (hsu ▸ hul)
  · rw [(g.fifo n hn).2 fun ⟨u, hu, hpu⟩ => hp ⟨u, List.mem_cons_of_mem _ hu, (hpushes u hu n).1 hpu⟩,
      (h.fifo n hn).2 fun ⟨u, hu, hpu⟩ => hp ⟨u, List.mem_cons.2 (.inl (List.mem_singleton.1 hu)), hpu⟩]
  · rw [g.vx, h.vx]
    by_cases hs : st = .v
    · subst hs; simp [hst]
    · simp [Ne.symm hs]
  · rw [g.mx, h.mx]
    by_cases hs : st = .m
    · subst hs; simp [hst]
    · simp [Ne.symm hs]

/-- Streams leave one after the other. -/
theorem engsLeave {m : Byte} (l : List Stream) (c : Core) (hl : ∀ u ∈ l, u ∈ engineStreams) (hd : l.Nodup)
    (hc : ∀ u ∈ l, Leaving m c u) (hx : c.mx.outst = []) : EngsLeft m l c (l.foldl (engLeaves m) c) := by
  induction l generalizing c with
  | nil => exact ⟨fun _ _ => by simp, fun _ _ => by simp, by simp, by simp, rfl⟩
  | cons st t ih =>
    obtain ⟨hst, ht⟩ := List.nodup_cons.1 hd
    have h := engLeaves_left (hl st List.mem_cons_self) (hc st List.mem_cons_self) hx
    have hother : ∀ u ∈ t, (engLeaves m c st).eng u = c.eng u := by
      intro u hu
      rw [h.eng u (hl u (List.mem_cons_of_mem _ hu)), if_neg]
      intro hm
      rw [List.mem_singleton.1 hm.1] at hu
      exact hst hu
    refine h.cons (ih _ (fun u hu => hl u (List.mem_cons_of_mem _ hu)) ht ?_ ?_) (fun u hu => hl u (List.mem_cons_of_mem _ hu)) hst hc
    · intro u hu
      unfold Leaving
      rw [hother u hu]
      exact hc u (List.mem_cons_of_mem _ hu)
    · rw [h.mx]
      split <;> exact hx

/-! ### The block streams -/

/-- A block stream past its rendezvous word, ready. -/
theorem Block.step_resume (b : Block) : b.step.resume =
    { b with pc := b.pc + 1#64, st := .ready, wword := 0#32, wmask := 0#64, answer := none, busy := false } := rfl

theorem blockLeaves_eq (m : Byte) (c : Core) (q : Fin 4) : blockLeaves m c q = { c with q := (blockLeaves m c q).q } := by
  unfold blockLeaves
  split <;> rfl

theorem blockLeaves_q (m : Byte) (c : Core) (q j : Fin 4) : (blockLeaves m c q).q[j.val] =
    if j = q then (if maskHas m q.val then c.q[q.val].step.resume else c.q[q.val]) else c.q[j.val] := by
  unfold blockLeaves
  by_cases hj : j = q
  · subst hj
    split <;> simp
  · have : q.val ≠ j.val := fun h => hj (Fin.ext h.symm)
    rw [if_neg hj]
    split
    · exact Vector.getElem_set_ne q.isLt j.isLt this
    · rfl

/-- The four block streams leave. -/
def blocksLeave (m : Byte) (c : Core) : Core := blockLeaves m (blockLeaves m (blockLeaves m (blockLeaves m c 0) 1) 2) 3

theorem blocksLeave_q (m : Byte) (c : Core) (j : Fin 4) :
    (blocksLeave m c).q[j.val] = if maskHas m j.val then c.q[j.val].step.resume else c.q[j.val] := by
  unfold blocksLeave
  simp only [blockLeaves_q]
  fin_cases j <;> rfl

theorem blocksLeave_eq (m : Byte) (c : Core) : blocksLeave m c = { c with q := (blocksLeave m c).q } := by
  unfold blocksLeave
  rw [blockLeaves_eq, blockLeaves_eq m _ 2, blockLeaves_eq m _ 1, blockLeaves_eq m c 0]

/-! ### The whole rendezvous -/

theorem rdvLeft_eq (m : Byte) (id : Nat) (c : Core) :
    rdvLeft m id c = engineStreams.foldl (engLeaves m) (blocksLeave m { c with rdv := vset c.rdv id {} }) := rfl

/-- The block streams leave, the id is free, before the engine streams leave. -/
def blocksLeft (m : Byte) (id : Nat) (c : Core) : Core := blocksLeave m { c with rdv := vset c.rdv id {} }

theorem blocksLeft_eq (m : Byte) (id : Nat) (c : Core) :
    blocksLeft m id c = { c with q := (blocksLeave m c).q, rdv := vset c.rdv id {} } := by
  unfold blocksLeft
  rw [blocksLeave_eq]
  congr 1
  apply Vector.ext
  intro i hi
  exact (blocksLeave_q m { c with rdv := vset c.rdv id {} } ⟨i, hi⟩).trans (blocksLeave_q m c ⟨i, hi⟩).symm

theorem blocksLeft_eng (m : Byte) (id : Nat) (c : Core) (st : Stream) : (blocksLeft m id c).eng st = c.eng st := by
  rw [blocksLeft_eq]
  cases st <;> rfl

theorem rdvLeft_engs {m : Byte} {id : Nat} {c : Core} (hc : ∀ st ∈ engineStreams, Leaving m c st) (hx : c.mx.outst = []) :
    EngsLeft m engineStreams (blocksLeft m id c) (rdvLeft m id c) := by
  refine engsLeave engineStreams _ (fun _ h => h) (by decide) (fun u hu => ?_) (by rw [blocksLeft_eq]; exact hx)
  unfold Leaving
  rw [blocksLeft_eng]
  exact hc u hu

/-- What leaving keeps of the core: all but block streams, the id, engine streams, FIFOs, M's and V's state. -/
theorem rdvLeft_rest {m : Byte} {id : Nat} {c : Core} (hc : ∀ st ∈ engineStreams, Leaving m c st) (hx : c.mx.outst = []) :
    leaveRest (rdvLeft m id c) = leaveRest { c with q := (blocksLeave m c).q, rdv := vset c.rdv id {} } :=
  blocksLeft_eq m id c ▸ (rdvLeft_engs hc hx).rest

/-- A rendezvous that is free, or at which a participant is missing, stays (R24). -/
theorem rendezvousLeave_waits {s : State} {k : CoreIx} {id : BitVec 2}
    (h : (s.core k.val).rdv[id.toNat].mask = 0#8 ∨ (s.core k.val).rdv[id.toNat].mask ≠ (s.core k.val).rdv[id.toNat].arrived) :
    exec (.rendezvousLeave k id) s = .next s := by
  change execRendezvousLeave k id s = _
  unfold execRendezvousLeave
  dsimp only
  rw [vget_lt _ _ _ id.isLt]
  rcases h with h | h <;> simp [h]

/-- A rendezvous whose participants have all arrived is left (R24). -/
theorem rendezvousLeave_leaves {s : State} {k : CoreIx} {id : BitVec 2} (hm : (s.core k.val).rdv[id.toNat].mask ≠ 0#8)
    (ha : (s.core k.val).rdv[id.toNat].mask = (s.core k.val).rdv[id.toNat].arrived) :
    ∃ u, exec (.rendezvousLeave k id) s = .next u ∧
      CoreStep s u k.val (rdvLeft (s.core k.val).rdv[id.toNat].mask id.toNat (s.core k.val)) := by
  refine ⟨s.leaveRdv k.val id.toNat, ?_, ?_⟩
  · change execRendezvousLeave k id s = _
    unfold execRendezvousLeave
    dsimp only
    rw [vget_lt _ _ _ id.isLt, if_pos]
    rw [Bool.and_eq_true, bne_iff_ne, beq_iff_eq]
    exact ⟨hm, ha⟩
  · rw [leaveRdv_eq, vget_lt _ _ _ id.isLt]
    exact modCore_step ..

end Sys2Proof.Safety
end

section
/-! SUPPORT. Memory brought back: a restoration keeps a byte or gives it one value, whatever stood there, so twice is as once. -/

namespace Sys2Proof.Machine

/-- Cells outside an address range that is cleared read as before, those in it blank. -/
theorem read_filterFrom {m : Memory} {n : Nat} (p : Nat → Bool) (h : Memory.wfFrom n m = true) (a : Nat) :
    Memory.read (m.filter fun c => p c.1) a = if p a then Memory.read m a else Memory.blank := by
  induction m generalizing n with
  | nil => simp [Memory.read]
  | cons c t ih =>
    obtain ⟨b, w⟩ := c
    simp only [Memory.wfFrom, Bool.and_eq_true, decide_eq_true_eq] at h
    have hbelow : a ≤ b → Memory.read (t.filter fun c => p c.1) a = Memory.blank := fun hle =>
      read_below (wfFrom_filter _ h.2) (by omega)
    by_cases hb : p b
    · rw [List.filter_cons_of_pos (by simpa using hb)]
      simp only [Memory.read]
      rw [ih h.2]
      grind
    · rw [List.filter_cons_of_neg (by simpa using hb)]
      simp only [Memory.read]
      rw [ih h.2]
      grind

theorem read_clear {m : Memory} (h : m.wf = true) (lo n a : Nat) :
    Memory.read (Memory.clear m lo n) a = if lo ≤ a ∧ a < lo + n then Memory.blank else Memory.read m a := by
  have := read_filterFrom (fun x => !(decide (lo ≤ x) && decide (x < lo + n))) h a
  unfold Memory.clear
  rw [this]
  by_cases hr : lo ≤ a ∧ a < lo + n <;> simp [hr]

/-- A change of memory that keeps the canonical form, and keeps the byte at a or gives it one value, whatever stood there. -/
structure Sets (a : Nat) (f : Memory → Memory) : Prop where
  wf : ∀ m, m.wf = true → (f m).wf = true
  read : (∀ m, m.wf = true → Memory.read (f m) a = Memory.read m a) ∨ ∃ v, ∀ m, m.wf = true → Memory.read (f m) a = v

theorem Sets.comp {a : Nat} {f g : Memory → Memory} (hf : Sets a f) (hg : Sets a g) : Sets a fun m => g (f m) := by
  refine ⟨fun m h => hg.wf _ (hf.wf m h), ?_⟩
  rcases hg.read with hk | ⟨v, hv⟩
  · rcases hf.read with hk' | ⟨v, hv⟩
    · exact .inl fun m h => (hk _ (hf.wf m h)).trans (hk' m h)
    · exact .inr ⟨v, fun m h => (hk _ (hf.wf m h)).trans (hv m h)⟩
  · exact .inr ⟨v, fun m h => hv _ (hf.wf m h)⟩

/-- What such a change does twice it does once. -/
theorem Sets.twice {a : Nat} {f : Memory → Memory} (hf : Sets a f) {m : Memory} (h : m.wf = true) :
    Memory.read (f (f m)) a = Memory.read (f m) a := by
  rcases hf.read with hk | ⟨v, hv⟩
  · exact hk _ (hf.wf m h)
  · rw [hv _ (hf.wf m h), hv m h]

theorem sets_write (a b : Nat) (v : Byte) : Sets a fun m => Memory.write m b v := by
  refine ⟨fun m h => wf_write _ _ h, ?_⟩
  by_cases hab : a = b
  · exact .inr ⟨v, fun m h => by rw [read_write h, if_pos hab]⟩
  · exact .inl fun m h => by rw [read_write h, if_neg hab]

theorem sets_clear (a lo n : Nat) : Sets a fun m => Memory.clear m lo n := by
  refine ⟨fun m h => wf_clear _ _ h, ?_⟩
  by_cases hr : lo ≤ a ∧ a < lo + n
  · exact .inr ⟨Memory.blank, fun m h => by rw [read_clear h, if_pos hr]⟩
  · exact .inl fun m h => by rw [read_clear h, if_neg hr]

theorem sets_put (a : Nat) (cs : Memory) : Sets a fun m => Memory.put m cs := by
  induction cs with
  | nil => exact ⟨fun _ h => h, .inl fun _ _ => rfl⟩
  | cons c t ih => exact (sets_write a c.1 c.2).comp ih

theorem sets_restore (a : Nat) (old : List (Nat × Nat × Memory)) : Sets a fun m => Memory.restore m old := by
  induction old with
  | nil => exact ⟨fun _ h => h, .inl fun _ _ => rfl⟩
  | cons e t ih => exact ((sets_clear a e.1 e.2.1).comp (sets_put a e.2.2)).comp ih

/-- Stretches of memory restored twice read as restored once. -/
theorem read_restore_restore {m : Memory} (h : m.wf = true) (old : List (Nat × Nat × Memory)) (a : Nat) :
    Memory.read (Memory.restore (Memory.restore m old) old) a = Memory.read (Memory.restore m old) a := (sets_restore a old).twice h

end Sys2Proof.Machine
end

section
/-! SUPPORT. Replays of M's words (R286, R287, R335), and O53. -/

namespace Sys2Proof.Safety

open Sys2Proof.Machine

/-! ### Counted replays -/

/-- The core with a replay counted (R96). -/
def counted (c : Core) : Core :=
  { c with sys := { c.sys with rplcM := if c.sys.rplcM = 0xFFFFFFFF#32 then c.sys.rplcM else c.sys.rplcM + 1#32 } }

theorem countReplay_step (s : State) (k : Nat) : CoreStep s (s.countReplay k) k (counted (s.core k)) := by
  have h : s.countReplay k = s.modCore k counted := by
    have hones : BitVec.allOnes 32 = 0xFFFFFFFF#32 := by decide
    unfold State.countReplay counted
    simp [hones]
  rw [h]
  exact modCore_step ..

/-- The core with a word of M replaced by o, under o's number. -/
def outstPut (o : Outst) (c : Core) : Core :=
  { c with
    m := { c.m with outst := c.m.outst.map fun x => if x.id = o.id then o else x }
    mx := { c.mx with outst := c.mx.outst.map fun x => if x.id = o.id then o else x } }

theorem CoreStep.putOutst {s t : State} {k : Nat} {c : Core} (h : CoreStep s t k c) (o : Outst) :
    CoreStep s (t.putOutst k o) k (outstPut o c) := by
  refine CoreStep.modCore h (outstPut o) fun x y hxy => ?_
  have hput := congrArg (fun z : Core => outstPut o z) hxy
  exact hput

/-- One of the first three replays of an orthogonal accumulator word moves its counts (R335). -/
theorem replayOa_counts (s : State) (k : Nat) {w : Outst} (cells : List (Nat × List Byte)) (products bytes : Nat) (hw : w.fails < 3) :
    CoreStep s (s.replayOa k w cells products bytes) k (outstPut { w with fails := w.fails + 1 } (counted (s.core k))) := by
  have h : s.replayOa k w cells products bytes =
      ((s.countReplay k).oaCharge k products bytes).putOutst k { w with fails := w.fails + 1 } := if_neg (by omega)
  rw [h]
  exact CoreStep.putOutst (((countReplay_step s k).charge ..).charge ..) _

/-! ### The fourth replay -/

/-- The core that its only word in progress w leaves. -/
def wordBack (w : Outst) (c : Core) : Core :=
  let c := { c with mx := { c.mx with
    side := w.undo.tiles.foldl (fun v (e : Nat × TileSide × TreeRec) => vset v e.1 e.2.1) c.mx.side
    tree := w.undo.tiles.foldl (fun v (e : Nat × TileSide × TreeRec) => vset v e.1 e.2.2) c.mx.tree
    oa := w.undo.oas.foldl (fun v (e : Nat × OaReg) => vset v e.1 e.2) c.mx.oa } }
  (c.undoPlace w.undo).untake w.undo.pop w.push

/-- The words of M that have not been abandoned. -/
def keptWords (c : Core) : Core :=
  { c with
    m := { c.m with outst := c.m.outst.filter fun o => o.done || o.own }
    mx := { c.mx with outst := c.mx.outst.filter fun o => o.done || o.own } }

theorem open_of_only {c : Core} {w : Outst} (h : c.m.outst ++ c.mx.outst = [w]) (hd : w.done = false) (ho : w.own = false) :
    open_ c.mx.outst ++ open_ c.m.outst = [w] := by
  rcases List.append_eq_singleton_iff.1 h with ⟨hm, hx⟩ | ⟨hm, hx⟩ <;> simp [open_, hm, hx, hd, ho]

/-- M abandons its only word in progress (R293): memory and core as the word had found them. -/
theorem abandonM_only {t : State} {k : Nat} {w : Outst} (h : (t.core k).m.outst ++ (t.core k).mx.outst = [w]) (hd : w.done = false)
    (ho : w.own = false) :
    (t.abandonM k).mem = Memory.restore t.mem w.undo.mem ∧ (t.abandonM k).core k = keptWords (wordBack w (t.core k)) := by
  have heq : t.abandonM k = ((t.undoData k w.undo).modCore k fun c => (c.undoPlace w.undo).untake w.undo.pop w.push).modCore k keptWords := by
    unfold State.abandonM
    dsimp only
    rw [open_of_only h hd ho]
    rfl
  refine ⟨by rw [heq]; rfl, ?_⟩
  rw [heq, State.core_modCore_self, State.core_modCore_self]
  unfold State.undoData
  rw [State.core_modCore_self]
  rfl

theorem untake_eq (c : Core) (pop push : Option Nat) : c.untake pop push = { c with fifo := (c.untake pop push).fifo } := rfl

/-- What an abandoned word gives back leaves the job, its fault, the counts of replays and the words outstanding. -/
theorem wordBack_keeps (w : Outst) (c : Core) : (wordBack w c).job = c.job ∧ (wordBack w c).fault = c.fault ∧
    (wordBack w c).sys.rplcM = c.sys.rplcM ∧ (wordBack w c).m.outst = c.m.outst ∧ (wordBack w c).mx.outst = c.mx.outst ∧
    (wordBack w c).mx.oa = w.undo.oas.foldl (fun v e => v.setIfInBounds e.1 e.2) c.mx.oa := by
  unfold wordBack Core.undoPlace
  cases w.undo.nest <;> exact ⟨rfl, rfl, rfl, rfl, rfl, rfl⟩

/-- A replay that cannot go on, of the only word in progress: the job faults, what the word found stands (R287). -/
theorem replayFail_faults {t : State} {k : Nat} {w : Outst} (z : Byte) (hj : (t.core k).job.isSome = true) (hf : (t.core k).fault = none)
    (h : (t.core k).m.outst ++ (t.core k).mx.outst = [w]) (hd : w.done = false) (ho : w.own = false) :
    ∃ r, r.cause = z ∧ ((t.replayFail k z).core k).fault = some r ∧ ((t.replayFail k z).core k).sys.rplcM = (t.core k).sys.rplcM ∧
      ((t.replayFail k z).core k).m.outst = [] ∧ ((t.replayFail k z).core k).mx.outst = [] ∧
      ((t.replayFail k z).core k).mx.oa = w.undo.oas.foldl (fun v e => v.setIfInBounds e.1 e.2) (t.core k).mx.oa ∧
      (t.replayFail k z).mem = Memory.restore t.mem w.undo.mem := by
  obtain ⟨hmem, hcore⟩ := abandonM_only h hd ho
  obtain ⟨kj, kf, kr, km, kx, ko⟩ := wordBack_keeps w (t.core k)
  generalize hb : wordBack w (t.core k) = b at *
  have hjob' : ((t.abandonM k).core k).job.isSome = true := by rw [hcore]; exact kj ▸ hj
  have hfault : ((t.abandonM k).core k).fault = none := by rw [hcore]; exact kf.trans hf
  obtain ⟨l, -, hjob⟩ := jobFault_eq (s := { t.abandonM k with fresh := (t.abandonM k).fresh + 1 }) (k := k) z
    (Config.info (t.abandonM k).fresh) 5 ((t.abandonM k).core k).m.pc
    hjob' hfault
  generalize hr : FaultRec.mk z (Config.info (t.abandonM k).fresh) (BitVec.ofNat 8 5) ((t.abandonM k).core k).m.pc 0#8 = r at hjob
  have hfail : (t.replayFail k z).core k = { keptWords b with fault := some r } := by
    rw [← hcore]
    exact (congrArg (fun u : State => u.core k) hjob).trans (State.core_setCore_self ..)
  have hnone : b.m.outst.filter (fun o => o.done || o.own) = [] ∧ b.mx.outst.filter (fun o => o.done || o.own) = [] := by
    rw [km, kx]
    rcases List.append_eq_singleton_iff.1 h with ⟨hm, hx⟩ | ⟨hm, hx⟩ <;> simp [hm, hx, hd, ho]
  refine ⟨r, by rw [← hr], ?_, ?_, ?_, ?_, ?_, (congrArg State.mem hjob).trans hmem⟩
  · rw [hfail]
  · rw [hfail]; exact kr
  · rw [hfail]; exact hnone.1
  · rw [hfail]; exact hnone.2
  · rw [hfail]; exact ko

/-! ### The event -/

theorem replayable_done {c : Core} {w : Outst} (h : c.replayable = some w) : w.done = false := by
  have := List.find?_some h
  simp only [Bool.and_eq_true, Bool.not_eq_true'] at this
  exact this.1

theorem matrixReplay_oa {s : State} {k : CoreIx} {w : Outst} {cells : List (Nat × List Byte)} {products bytes : Nat}
    (h : (s.core k.val).replayable = some w) (hr : w.redo = some (.oa cells products bytes)) :
    exec (.matrixReplay k) s = .next (s.replayOa k.val w cells products bytes) := by
  change execMatrixReplay k s = _
  unfold execMatrixReplay
  simp only [h, hr]

/-- The fourth replay of an orthogonal accumulator word faults; the bytes it wrote are as before it (R335). -/
theorem replayOa_fails {s : State} {k : Nat} {w : Outst} (cells : List (Nat × List Byte)) (products bytes : Nat) (hw : 3 ≤ w.fails)
    (hj : (s.core k).job.isSome = true) (hf : (s.core k).fault = none) (h : (s.core k).m.outst ++ (s.core k).mx.outst = [w])
    (hd : w.done = false) (ho : w.own = false) (hu : w.undo.mem = []) :
    ∃ r, r.cause = cMREPLAY ∧ ((s.replayOa k w cells products bytes).core k).fault = some r ∧
      ((s.replayOa k w cells products bytes).core k).sys.rplcM = (s.core k).sys.rplcM ∧
      ((s.replayOa k w cells products bytes).core k).m.outst = [] ∧ ((s.replayOa k w cells products bytes).core k).mx.outst = [] ∧
      ((s.replayOa k w cells products bytes).core k).mx.oa = w.undo.oas.foldl (fun v e => v.setIfInBounds e.1 e.2) (s.core k).mx.oa ∧
      (s.replayOa k w cells products bytes).mem = cells.foldl (fun m e => Memory.blit m e.1 e.2) s.mem := by
  have heq : s.replayOa k w cells products bytes =
      State.replayFail { s with mem := cells.foldl (fun m (e : Nat × List Byte) => Memory.blit m e.1 e.2) s.mem } k cMREPLAY :=
    if_pos (by omega)
  have hfail := replayFail_faults (t := { s with mem := cells.foldl (fun m (e : Nat × List Byte) => Memory.blit m e.1 e.2) s.mem })
    cMREPLAY hj hf h hd ho
  rw [hu] at hfail
  rw [heq]
  exact hfail

/-- The mma or mmaz word of an operation. -/
def mmaWord (z : Bool) (a b : BitVec 3) (t : BitVec 4) (p : Profile) (bt : Bool) (tk : Tok) : Instr :=
  if z then .mmaz a b t p bt tk else .mma a b t p bt tk

section
variable {s : State} {k : CoreIx} {w : Outst} {a b : BitVec 3} {t : BitVec 4} {p : Profile} {bt z nest : Bool} {tk : Tok}
  {cs n : Vector Nat 6} {bf : Vector (BitVec 15) 32} {tab : Raw} (h : (s.core k.val).replayable = some w)
  (hr : w.redo = some (.step (mmaWord z a b t p bt tk) nest cs n bf)) (ha : (s.core k.val).mx.active = some tab)
include h hr ha

/-- One of the first three replays of a step runs it again on what it found before it (R286). -/
theorem matrixReplay_step {x : MmaIn} {y : MDone} (hw : w.fails < 3)
    (hx : ((s.undoData k.val w.undo).countReplay k.val).mmaAt ⟨a, b, t.toNat, p, bt, z⟩ ⟨k.val, tab, cs, n, bf, nest⟩ = .ok x)
    (hy : ((s.undoData k.val w.undo).countReplay k.val).mmaRun x ⟨a, b, t.toNat, p, bt, z⟩ true = .ok y) :
    exec (.matrixReplay k) s = .next (y.s.putOutst k.val { w with fl := y.fl, fails := w.fails + 1 }) := by
  change execMatrixReplay k s = _
  have hfew : ¬ 4 ≤ w.fails + 1 := by omega
  unfold execMatrixReplay
  simp only [h, hr]
  unfold State.replayStep
  cases z <;> simp [mmaWord, hr, ha, hfew, hx, hy, bind, Except.bind]

/-- The fourth fails. -/
theorem matrixReplay_fourth (hw : 3 ≤ w.fails) :
    exec (.matrixReplay k) s = .next ((s.undoData k.val w.undo).replayFail k.val cMREPLAY) := by
  change execMatrixReplay k s = _
  unfold execMatrixReplay
  simp only [h, hr]
  unfold State.replayStep
  cases z <;> simp [mmaWord, ha, hw]

end

/-- The fourth replay of a step faults; memory reads as before the step (R286). -/
theorem replayStep_fails {s : State} {k : Nat} {w : Outst} (hm : MemInv s) (hj : (s.core k).job.isSome = true)
    (hf : (s.core k).fault = none) (h : (s.core k).m.outst ++ (s.core k).mx.outst = [w]) (hd : w.done = false) (ho : w.own = false) :
    ∃ r, r.cause = cMREPLAY ∧ (((s.undoData k w.undo).replayFail k cMREPLAY).core k).fault = some r ∧
      (((s.undoData k w.undo).replayFail k cMREPLAY).core k).sys.rplcM = (s.core k).sys.rplcM ∧
      (((s.undoData k w.undo).replayFail k cMREPLAY).core k).m.outst = [] ∧
      (((s.undoData k w.undo).replayFail k cMREPLAY).core k).mx.outst = [] ∧
      ∀ a, Memory.read ((s.undoData k w.undo).replayFail k cMREPLAY).mem a = Memory.read (Memory.restore s.mem w.undo.mem) a := by
  have hcore : (s.undoData k w.undo).core k = _ := State.core_modCore_self ..
  obtain ⟨r, hc, hfr, hsys, hmo, hxo, -, hmem⟩ := replayFail_faults (t := s.undoData k w.undo) (w := w) cMREPLAY (by rw [hcore]; exact hj)
    (by rw [hcore]; exact hf) (by rw [hcore]; exact h) hd ho
  refine ⟨r, hc, hfr, hsys.trans (by rw [hcore]; rfl), hmo, hxo, fun a => ?_⟩
  rw [hmem]
  exact read_restore_restore hm w.undo.mem a

end Sys2Proof.Safety
end

section
/-! SUPPORT. The parts of a left rendezvous in the form in which O53 states them, and O53. -/

namespace Sys2Proof.Safety

open Sys2Proof.Machine

/-- A rendezvous that is left: what becomes of its streams, its id, and the FIFOs. -/
theorem rdvLeft_streams {m : Byte} {id : BitVec 2} {c : Core} (hc : ∀ st ∈ engineStreams, Leaving m c st) (hx : c.mx.outst = []) :
    (∀ n : Fin 4, n.val ≠ id.toNat → (rdvLeft m id.toNat c).rdv[n.val] = c.rdv[n.val]) ∧
    (rdvLeft m id.toNat c).rdv[id.toNat] = {} ∧
    (∀ q : Fin 4, (rdvLeft m id.toNat c).q[q.val] = if m.getLsbD q.val then c.q[q.val].step.resume else c.q[q.val]) ∧
    (∀ st ∈ engineStreams, (rdvLeft m id.toNat c).eng st = if m.getLsbD (streamIx st) = true then engPast (c.eng st) else c.eng st) := by
  have hrest := rdvLeft_rest (id := id.toNat) hc hx
  have hrdv : (rdvLeft m id.toNat c).rdv = vset c.rdv id.toNat {} := by
    have := congrArg Core.rdv hrest
    exact this
  have hq : (rdvLeft m id.toNat c).q = (blocksLeave m c).q := by
    have := congrArg Core.q hrest
    exact this
  refine ⟨fun n hn => ?_, ?_, fun q => ?_, fun st hst => ?_⟩
  · simp only [hrdv, vset_lt _ _ id.isLt]
    exact Vector.getElem_set_ne id.isLt n.isLt (Ne.symm hn)
  · simp only [hrdv, vset_lt _ _ id.isLt]
    exact Vector.getElem_set_self id.isLt
  · simp only [hq]
    exact blocksLeave_q m c q
  · rw [(rdvLeft_engs hc hx).eng st hst, blocksLeft_eng]
    simp [hst, maskHas]

theorem rdvLeft_state {m : Byte} {id : Nat} {c : Core} (hc : ∀ st ∈ engineStreams, Leaving m c st) (hx : c.mx.outst = []) :
    (rdvLeft m id c).vx = (if m.getLsbD (streamIx .v) = true then c.vx.dropAhead else c.vx) ∧ (rdvLeft m id c).sys = c.sys ∧
    (rdvLeft m id c).x = c.x ∧ (rdvLeft m id c).mx = (if m.getLsbD (streamIx .m) = true then { c.mx with synced := true } else c.mx) ∧
    (rdvLeft m id c).job = c.job := by
  have hrest := rdvLeft_rest (id := id) hc hx
  have hengs := rdvLeft_engs (id := id) hc hx
  have hvx := hengs.vx
  have hmx := hengs.mx
  have hsys := congrArg Core.sys hrest
  have hxfer := congrArg Core.x hrest
  have hjob := congrArg Core.job hrest
  rw [blocksLeft_eq] at hvx hmx
  refine ⟨hvx.trans ?_, hsys, hxfer, hmx.trans ?_, hjob⟩
  · simp [engineStreams, maskHas]
  · simp [engineStreams, maskHas]

theorem rdvLeft_fifo {m : Byte} {id : Nat} {c : Core} (hc : ∀ st ∈ engineStreams, Leaving m c st) (hx : c.mx.outst = []) {n : Nat} (hn : n < 10) :
    ((∃ st ∈ engineStreams, Pushes m c st n) → vget (rdvLeft m id c).fifo n {} = (vget c.fifo n {}).visible) ∧
    ((¬ ∃ st ∈ engineStreams, Pushes m c st n) → vget (rdvLeft m id c).fifo n {} = vget c.fifo n {}) := by
  have h := (rdvLeft_engs (id := id) hc hx).fifo n hn
  unfold Pushes at h ⊢
  simp only [blocksLeft_eng] at h
  rw [blocksLeft_eq] at h
  exact h

end Sys2Proof.Safety

section

open Sys2Proof Sys2Proof.Machine Sys2Proof.Safety

/-- Settles O53: each clause is a lemma on its event. -/
theorem engineWordsComplete : Obligations.EngineWordsComplete := by
  unfold Obligations.EngineWordsComplete
  intro s k c engines calm visible shown foremost flags
  have hshown (o : Outst) {d : Core} (h : d.fifo = (c.showToken o.push).fifo) : shown o d := fun n hn => by
    rw [h]
    exact Core.showToken_fifo c o.push hn
  have hflags (i : Fin 4) (o : Outst) : c.sys.flagged i.val o.fl = flags i o := Sys.flagged_eq ..
  refine ⟨fun o rest hcalm ⟨hd, hr⟩ hown => ⟨fun hm hx => ?_, fun hv => ?_, fun hx hm => ?_⟩,
    fun o rest hcalm ⟨hd, hr⟩ hm hid hfl hgo hph hx => ?_, nestComplete_waits, fun port q n y hp hq hn hl hb hu hg => ?_,
    fun id => ⟨rendezvousLeave_waits, fun hm ha hx hc => ?_⟩, fun w cells products bytes hw hr => ⟨fun hf => ?_, fun hf hj hn ho hown hu => ?_⟩,
    fun w a b t p bt z nest tk cs n bf tab hw hr ha => ⟨fun hf x y hx hy => ?_, fun hm hf hj hn ho hown => ?_⟩⟩
  · obtain ⟨u, hu, hstep⟩ := completes_m hcalm hm hd hown hr hx
    exact ⟨u, _, hu, hstep, hshown o rfl, rfl, by rw [← hflags]; rfl⟩
  · obtain ⟨u, hu, hstep⟩ := completes_v hcalm hv hd hown hr
    exact ⟨u, _, hu, hstep, hshown o rfl, rfl, by rw [← hflags]; rfl⟩
  · obtain ⟨u, hu, hstep⟩ := completes_nest hcalm hx hd hown hr hm
    exact ⟨u, _, hu, hstep, hshown o rfl, by rw [← hflags]; rfl⟩
  · obtain ⟨u, hu, hstep⟩ := nestComplete_ends hcalm hm hd hr hid hfl hgo hph hx
    exact ⟨u, _, hu, hstep, hshown o rfl, rfl⟩
  · exact portFetch_fetches hp (getD_eq_vget c.vx.ports .. ▸ hq) hn hl hb hu hg
  · obtain ⟨u, hu, hstep⟩ := rendezvousLeave_leaves hm ha
    obtain ⟨hrdv, hfree, hq, heng⟩ := rdvLeft_streams (id := id) (m := c.rdv[id.toNat].mask) (c := c) hc hx
    obtain ⟨hvx, hsys, hxfer, hmx, hjob⟩ := rdvLeft_state (id := id.toNat) (m := c.rdv[id.toNat].mask) (c := c) hc hx
    refine ⟨u, _, hu, hstep, hrdv, hfree, hq, heng, fun n hn => ?_, hvx, hsys, hxfer, hmx, hjob⟩
    have hfifo := rdvLeft_fifo (id := id.toNat) (m := c.rdv[id.toNat].mask) (c := c) hc hx hn
    split
    · exact hfifo.1 ‹_›
    · exact hfifo.2 ‹_›
  · exact ⟨_, matrixReplay_oa hw hr, replayOa_counts s k.val cells products bytes hf⟩
  · have hd := replayable_done (c := c) hw
    obtain ⟨r, hcause, hfaults⟩ := replayOa_fails cells products bytes hf hj hn ho hd hown hu
    exact ⟨_, r, matrixReplay_oa hw hr, hcause, hfaults⟩
  · exact matrixReplay_step hw hr ha hf hx hy
  · have hd := replayable_done (c := c) hw
    obtain ⟨r, hcause, hfaults⟩ := replayStep_fails hm hj hn ho hd hown
    exact ⟨_, r, matrixReplay_fourth hw hr ha hf, hcause, hfaults⟩

end
end

section
/-! SUPPORT. Teams of a die: a team changed, and what becomes of one once no core runs a job of it (R27, R226); the end of a job. -/

namespace Sys2Proof.Safety

open Sys2Proof.Machine

/-! ### Teams -/

theorem coreDie_lt (k : CoreIx) : coreDie k.val < 8 := by
  have := k.isLt
  unfold coreDie
  omega

theorem team_id {s : State} {d id : Nat} {m : Team} (h : s.team? d id = some m) : m.id = id := by
  simpa using List.find?_some h

/-- A change of the teams of one number that keeps their number: the team of any number. -/
theorem team_modTeam {s : State} {d : Nat} (id i : Nat) {f : Team → Team} (hd : d < 8) (hf : ∀ t, (f t).id = t.id) :
    (s.modTeam d id f).team? d i = (s.team? d i).map fun t => if t.id = id then f t else t := by
  have hid : ((fun t : Team => t.id == i) ∘ fun t => if t.id = id then f t else t) = fun t => t.id == i := by
    funext t
    dsimp only [Function.comp_apply]
    split
    · rw [hf t]
    · rfl
  unfold State.team? State.modTeam
  rw [State.die_modDie_self _ _ _ hd]
  dsimp only
  rw [List.find?_map, hid]

/-- The team that is changed. -/
theorem team_modTeam_self {s : State} {d id : Nat} {f : Team → Team} {m : Team} (hd : d < 8) (hf : ∀ t, (f t).id = t.id)
    (hm : s.team? d id = some m) : (s.modTeam d id f).team? d id = some (f m) := by
  rw [team_modTeam id id hd hf, hm, Option.map_some, if_pos (team_id hm)]

/-- The team of a number on a die depends on the dies alone. -/
theorem team_of_dies {s t : State} (h : t.dies = s.dies) (d id : Nat) : t.team? d id = s.team? d id := by
  unfold State.team?
  rw [die_of_dies h]

/-! ### Settling -/

theorem settled_iff {s : State} {m : Team} : s.settled m = true ↔ ∀ i ∈ m.cores, s.runs m.id i = false := by
  simp [State.settled]

/-- Core k, without a job now, leaves the team settled just when no other core of it runs a job of it. -/
theorem settled_after {s u : State} {k : Nat} {m n : Team} (hk : (u.core k).job = none) (hne : ∀ i, i ≠ k → u.core i = s.core i)
    (hcores : n.cores = m.cores) (hid : n.id = m.id) :
    u.settled n = true ↔ ∀ i ∈ m.cores, i ≠ k → s.runs m.id i = false := by
  have hruns : ∀ i, u.runs m.id i = if i = k then false else s.runs m.id i := by
    intro i
    unfold State.runs
    by_cases h : i = k
    · rw [h, hk, if_pos rfl]
      rfl
    · rw [hne i h, if_neg h]
  rw [settled_iff, hcores, hid]
  simp only [hruns]
  constructor
  · intro h i hi hik
    simpa [hik] using h i hi
  · intro h i hi
    by_cases hik : i = k
    · simp [hik]
    · simpa [hik] using h i hi hik

theorem settleTeam_running {s : State} {d id : Nat} {m : Team} (hm : s.team? d id = some m) (h : s.settled m = false) :
    s.settleTeam d id = s := by
  unfold State.settleTeam
  simp [hm, h]

/-- A settled team with no image, or one that something stops, completes. -/
theorem settleTeam_completes {s : State} {d id : Nat} {m : Team} (hm : s.team? d id = some m) (h : s.settled m = true)
    (hc : m.saves = [] ∨ m.stop ≠ none ∨ m.faults ≠ []) :
    s.settleTeam d id = s.after [.event (.workItemComplete (Fin.ofNat 8 d) id)] := by
  have hcond : (m.saves.isEmpty || m.stop.isSome || !m.faults.isEmpty) = true := by
    rcases hc with hc | hc | hc
    · simp [hc]
    · simp [Option.isSome_iff_ne_none.2 hc]
    · simp [hc]
  unfold State.settleTeam
  simp only [hm, h, hcond]
  rfl

/-- A settled team that has images and that nothing stops is suspended. -/
theorem settleTeam_suspends {s : State} {d id : Nat} {m : Team} (hd : d < 8) (hm : s.team? d id = some m) (h : s.settled m = true)
    (hs : m.saves ≠ []) (hstop : m.stop = none) (hf : m.faults = []) :
    ∃ x ∈ ((s.settleTeam d id).die d).cands, x.kind = .suspended ∧ x.team = m := by
  have hcond : (m.saves.isEmpty || m.stop.isSome || !m.faults.isEmpty) = false := by simp [hs, hstop, hf]
  refine ⟨{ id := s.next, kind := .suspended, team := m, since := s.dtime }, ?_, rfl, rfl⟩
  unfold State.settleTeam
  simp only [hm, h, hcond, Bool.not_true, Bool.false_eq_true, if_false]
  rw [State.die_modDie_self _ _ _ hd]
  exact List.mem_append_right _ (List.mem_singleton.2 rfl)

/-- A state but for its dies, its next number and what is due. -/
def settleRest (s : State) : State := { s with dies := Vector.replicate 8 {}, next := 0, due := [] }

theorem settleTeam_rest (s : State) (d id : Nat) : settleRest (s.settleTeam d id) = settleRest s := by
  unfold State.settleTeam
  split
  · rfl
  · split
    · rfl
    · split <;> rfl

theorem cores_of_settleRest {s t : State} (h : settleRest t = settleRest s) : t.cores = s.cores := by
  have := congrArg State.cores h
  exact this

theorem mem_of_settleRest {s t : State} (h : settleRest t = settleRest s) : t.mem = s.mem := by
  have := congrArg State.mem h
  exact this

theorem writes_of_settleRest {s t : State} (h : settleRest t = settleRest s) : t.writes = s.writes := by
  have := congrArg State.writes h
  exact this

/-- No other core of job j's team on core k's die runs a job of it. -/
def Alone (s : State) (k : Nat) (j : Job) : Prop :=
  ∀ m, s.team? (k / 192) j.team = some m → ∀ i ∈ m.cores, i ≠ k → s.runs j.team i = false

/-! ### What the last core leaves -/

section
variable {s u : State} {k : CoreIx} {j : Job} {m n : Team} (hk : (u.core k.val).job = none) (hne : ∀ i, i ≠ k.val → u.core i = s.core i)
  (hm : s.team? (k.val / 192) j.team = some m) (hn : u.team? (k.val / 192) j.team = some n) (hcores : n.cores = m.cores)
include hk hne hm hn hcores

theorem settled_iff_alone : u.settled n = true ↔ Alone s k.val j := by
  rw [settled_after hk hne hcores ((team_id hn).trans (team_id hm).symm), team_id hm]
  constructor
  · intro h m' hm'
    rw [hm] at hm'
    cases hm'
    exact h
  · intro h
    exact h m hm

theorem settleTeam_alone_completes (ha : Alone s k.val j) (hc : n.saves = [] ∨ n.stop ≠ none ∨ n.faults ≠ []) :
    .event (.workItemComplete (Fin.ofNat 8 (k.val / 192)) j.team) ∈ (u.settleTeam (k.val / 192) j.team).due := by
  rw [settleTeam_completes hn ((settled_iff_alone hk hne hm hn hcores).2 ha) hc]
  exact List.mem_append_right _ (List.mem_singleton.2 rfl)

theorem settleTeam_accompanied (ha : ¬ Alone s k.val j) : u.settleTeam (k.val / 192) j.team = u := by
  apply settleTeam_running hn
  rw [← Bool.not_eq_true, settled_iff_alone hk hne hm hn hcores]
  exact ha

end

/-! ### The end of a job -/

theorem jobOver_iff {c : Core} {j : Job} (hj : c.job = some j) :
    c.jobOver = true ↔ c.fault = none ∧ j.done = j.expect ∧ c.x.cmds = [] ∧ c.x.queue = [] := by
  simp only [Core.jobOver, hj, Option.any_some, Bool.and_eq_true, beq_iff_eq, Option.isNone_iff_eq_none, List.isEmpty_iff]
  tauto

theorem jobComplete_waits {s : State} {k : CoreIx} {j : Job} (hj : (s.core k.val).job = some j)
    (h : j.done ≠ j.expect ∨ (s.core k.val).x.cmds ≠ [] ∨ (s.core k.val).x.queue ≠ [] ∨ (s.core k.val).fault ≠ none) :
    exec (.jobComplete k) s = .next s := by
  have hover : (s.core k.val).jobOver = false := by
    rw [← Bool.not_eq_true, jobOver_iff hj]
    tauto
  change execJobComplete k s = _
  unfold execJobComplete
  simp [hj, hover]

/-- The team of a job that has ended on core k. -/
def teamDone (s : State) (k : Nat) (t : Team) : Team :=
  { t with
    done := k :: t.done, tokensLeft := t.tokensLeft || (s.core k).tokensLeft, fine := t.fine + (s.core k).meterJob
    trail := if t.plan.isSome then t.trail ++ s.writesOf k else t.trail }

/-- The state in which a job has left core k, its team not yet settled. -/
def jobLeft (s : State) (k : Nat) (j : Job) : State :=
  ((s.modTeam (k / 192) j.team (teamDone s k)).setCore k
    { s.core k with job := none, preempt := none, kept := none, last := some j.func, fifo := Vector.replicate 10 {} }).unstop k

theorem jobComplete_leaves {s : State} {k : CoreIx} {j : Job} (hj : (s.core k.val).job = some j) (hf : (s.core k.val).fault = none)
    (hd : j.done = j.expect) (hx : (s.core k.val).x.cmds = []) (hq : (s.core k.val).x.queue = []) :
    exec (.jobComplete k) s = .next ((jobLeft s k.val j).settleTeam (k.val / 192) j.team) := by
  change execJobComplete k s = _
  unfold execJobComplete
  simp only [hj, (jobOver_iff hj).2 ⟨hf, hd, hx, hq⟩]
  rfl

/-- A job whose streams have ended and whose commands are done leaves its core (R27). -/
theorem jobComplete_ends {s : State} {k : CoreIx} {j : Job} (hj : (s.core k.val).job = some j) (hf : (s.core k.val).fault = none)
    (hd : j.done = j.expect) (hx : (s.core k.val).x.cmds = []) (hq : (s.core k.val).x.queue = []) :
    ∃ t, exec (.jobComplete k) s = .next t ∧ t.mem = s.mem ∧ t.writes = s.writes ∧ (∀ i, i ≠ k.val → t.core i = s.core i) ∧
      t.core k.val = { s.core k.val with
        job := none, preempt := none, kept := none, last := some j.func, fifo := Vector.replicate 10 {} } ∧
      ∀ m, s.team? (k.val / 192) j.team = some m → m.saves = [] → Alone s k.val j →
        .event (.workItemComplete (Fin.ofNat 8 (k.val / 192)) j.team) ∈ t.due := by
  have hrest := settleTeam_rest (jobLeft s k.val j) (k.val / 192) j.team
  have hcores := core_of_cores (cores_of_settleRest hrest)
  have hself : (jobLeft s k.val j).core k.val = { s.core k.val with
      job := none, preempt := none, kept := none, last := some j.func, fifo := Vector.replicate 10 {} } := State.core_setCore_self ..
  have hne (i : Nat) (hi : i ≠ k.val) : (jobLeft s k.val j).core i = s.core i := State.core_setCore_ne _ _ hi
  refine ⟨_, jobComplete_leaves hj hf hd hx hq, (mem_of_settleRest hrest).trans rfl, (writes_of_settleRest hrest).trans rfl,
    fun i hi => (hcores i).trans (hne i hi), (hcores _).trans hself, fun m hm hs ha => ?_⟩
  have hteam : (jobLeft s k.val j).team? (k.val / 192) j.team = some (teamDone s k.val m) :=
    team_modTeam_self (f := teamDone s k.val) (coreDie_lt k) (fun _ => rfl) hm
  exact settleTeam_alone_completes (by rw [hself]) hne hm hteam rfl ha (.inl hs)

end Sys2Proof.Safety
end

section
/-! SUPPORT. The hard stop of a core's job (R155): what abandoning its words, its snapshot and its commands keeps. -/

namespace Sys2Proof.Safety

open Sys2Proof.Machine

/-- From s to t a hard stop of core k moves on: writes on their way stay, other cores change by their fault records alone, the core keeps its
block streams and its job, the teams of its die their faults. -/
structure StopKeeps (k : Nat) (s t : State) : Prop where
  writes : t.writes = s.writes
  cores : ∀ i, i ≠ k → t.core i = { s.core i with fault := (t.core i).fault }
  q : (t.core k).q = (s.core k).q
  job : (t.core k).job = (s.core k).job
  teams : ∀ id m, s.team? (k / 192) id = some m → ∃ n, t.team? (k / 192) id = some n ∧ n.faults = m.faults

theorem StopKeeps.refl (k : Nat) (s : State) : StopKeeps k s s := ⟨rfl, fun _ _ => rfl, rfl, rfl, fun _ m h => ⟨m, h, rfl⟩⟩

theorem StopKeeps.trans {k : Nat} {s t u : State} (h : StopKeeps k s t) (g : StopKeeps k t u) : StopKeeps k s u := by
  refine ⟨g.writes.trans h.writes, fun i hi => ?_, g.q.trans h.q, g.job.trans h.job, fun id m hm => ?_⟩
  · have hu := g.cores i hi
    rw [h.cores i hi] at hu
    exact hu
  · obtain ⟨n, hn, hnf⟩ := h.teams id m hm
    obtain ⟨l, hl, hlf⟩ := g.teams id n hn
    exact ⟨l, hl, hlf.trans hnf⟩

theorem stopKeeps_foldl {α : Type} {k : Nat} {f : State → α → State} {l : List α} (hf : ∀ s, ∀ a ∈ l, StopKeeps k s (f s a)) (s : State) :
    StopKeeps k s (l.foldl f s) := by
  induction l generalizing s with
  | nil => exact .refl ..
  | cons a t ih => exact (hf s a List.mem_cons_self).trans (ih (fun s b hb => hf s b (List.mem_cons_of_mem _ hb)) _)

/-- A change outside writes, cores and dies. -/
theorem StopKeeps.of_eq {k : Nat} {s t : State} (hw : t.writes = s.writes) (hc : t.cores = s.cores) (hd : t.dies = s.dies) :
    StopKeeps k s t := by
  have hcore := core_of_cores hc
  exact ⟨hw, fun i _ => by rw [hcore i], by rw [hcore k], by rw [hcore k], fun id m hm => ⟨m, (team_of_dies hd ..).trans hm, rfl⟩⟩

theorem StopKeeps.modCore {k : Nat} {s : State} {f : Core → Core} (hq : (f (s.core k)).q = (s.core k).q)
    (hj : (f (s.core k)).job = (s.core k).job) : StopKeeps k s (s.modCore k f) := by
  refine ⟨rfl, fun i hi => ?_, ?_, ?_, fun _ m hm => ⟨m, hm, rfl⟩⟩
  · rw [State.core_modCore_ne _ _ hi]
  · rw [State.core_modCore_self, hq]
  · rw [State.core_modCore_self, hj]

theorem StopKeeps.modTeam {k : Nat} {s : State} (hk : k / 192 < 8) (id : Nat) {f : Team → Team}
    (hf : ∀ t, (f t).id = t.id ∧ (f t).faults = t.faults) : StopKeeps k s (s.modTeam (k / 192) id f) := by
  refine ⟨rfl, fun _ _ => rfl, rfl, rfl, fun i m hm => ?_⟩
  rw [team_modTeam id i hk fun t => (hf t).1, hm]
  refine ⟨_, rfl, ?_⟩
  dsimp only
  split
  · exact (hf m).2
  · rfl

/-! ### Words abandoned -/

theorem stopKeeps_undoData (k : Nat) (s : State) (u : Undo) : StopKeeps k s (s.undoData k u) := by
  have hmem : StopKeeps k s { s with mem := Memory.restore s.mem u.mem } := .of_eq rfl rfl rfl
  unfold State.undoData
  exact hmem.trans (.modCore rfl rfl)

theorem stopKeeps_abandonM (s : State) (k : Nat) : StopKeeps k s (s.abandonM k) := by
  unfold State.abandonM
  refine StopKeeps.trans (stopKeeps_foldl (fun u o _ => ?_) s) (.modCore rfl rfl)
  exact (stopKeeps_undoData k u o.undo).trans (.modCore rfl rfl)

theorem undoVec_fold (l : List Outst) (c : Core) :
    (l.foldl (fun c o => c.undoVec o.undo) c).q = c.q ∧ (l.foldl (fun c o => c.undoVec o.undo) c).job = c.job := by
  induction l generalizing c with
  | nil => exact ⟨rfl, rfl⟩
  | cons o t ih => exact ih (c.undoVec o.undo)

theorem stopKeeps_abandonV (s : State) (k : Nat) : StopKeeps k s (s.abandonV k) := .modCore (undoVec_fold ..).1 (undoVec_fold ..).2

/-! ### The snapshot -/

theorem setSlot_rest (s : State) (f : Byte) (i v : Nat) : memRest (s.setSlot f i v) = memRest s := by
  unfold State.setSlot
  split
  · next t h => exact hostWrite_rest h
  · rfl

/-- An image written changes memory and poison alone. -/
theorem writeImage_rest {s t : State} {k kind mark i : Nat} {reason : Byte} {saved : List (Cmd × Nat)}
    (h : s.writeImage k kind reason saved mark = .ok (i, t)) : memRest t = memRest s := by
  unfold State.writeImage at h
  dsimp only at h
  split at h
  · cases h
  · split at h
    · cases h
    · split at h
      · cases h
      · cases h
        exact setSlot_rest ..

theorem stopKeeps_of_memRest {k : Nat} {s t : State} (h : memRest t = memRest s) : StopKeeps k s t := by
  have hw := congrArg State.writes h
  have hc := congrArg State.cores h
  have hd := congrArg State.dies h
  exact .of_eq hw hc hd

theorem stopKeeps_account (k : Nat) (s : State) (f : Byte) (x : Nat) : StopKeeps k s (s.account f x) := by
  rw [account_rest]
  exact .of_eq rfl rfl rfl

theorem stopKeeps_imageCharge {k : Nat} (hk : k / 192 < 8) (s : State) (a : Nat) : StopKeeps k s (s.imageCharge k a) := by
  unfold State.imageCharge
  dsimp only
  split
  · exact .refl ..
  · exact (StopKeeps.trans (StopKeeps.modCore (f := fun c => { c with meterFunc := c.meterFunc + imageSize * s.rate 1 7 0xF * s.calib a }) rfl rfl)
      (stopKeeps_account ..)).trans (.modTeam hk _ fun _ => ⟨rfl, rfl⟩)

theorem stopKeeps_snapshot {k : Nat} (hk : k / 192 < 8) (s : State) : StopKeeps k s (s.snapshot k).2 := by
  unfold State.snapshot
  dsimp only
  split
  · exact .refl ..
  · split
    · exact .refl ..
    · next i t h => exact (stopKeeps_of_memRest (writeImage_rest h)).trans (stopKeeps_imageCharge hk t k)

/-! ### Commands abandoned -/

/-- A fault of another core's job. -/
theorem stopKeeps_jobFaultFree {k i : Nat} (hi : i ≠ k) (s : State) (cause : Byte) (stream : Nat) (pc : Word) :
    StopKeeps k s (s.jobFaultFree i cause stream pc) := by
  unfold State.jobFaultFree
  refine StopKeeps.trans (t := { s with fresh := s.fresh + 1 }) (.of_eq rfl rfl rfl) ?_
  generalize ({ s with fresh := s.fresh + 1 } : State) = u
  have hrest := jobFault_rest u i cause (Config.info s.fresh) stream pc
  have hw := congrArg State.writes hrest
  have hd := congrArg State.dies hrest
  have hself := jobFault_core_ne u cause (Config.info s.fresh) stream pc (Ne.symm hi)
  refine ⟨hw, fun j _ => ?_, by rw [hself], by rw [hself], fun id m hm => ⟨m, (team_of_dies hd ..).trans hm, rfl⟩⟩
  by_cases hj : j = i
  · rw [hj]
    exact jobFault_core_self ..
  · rw [jobFault_core_ne _ _ _ _ _ hj]

theorem stopKeeps_abortRounds (s : State) (k : Nat) : StopKeeps k s (s.abortRounds k) := by
  unfold State.abortRounds
  refine stopKeeps_foldl (fun u g _ => ?_) s
  dsimp only
  split
  · exact .refl ..
  · refine StopKeeps.trans ?_ (stopKeeps_foldl (fun v i hi => ?_) _)
    · exact .of_eq rfl rfl rfl
    · have hik : i ≠ k := by
        have := (List.mem_filter.1 (List.mem_filter.1 hi).1).2
        simpa using this
      split
      · exact stopKeeps_jobFaultFree hik ..
      · exact .refl ..

theorem stopKeeps_modDie {k : Nat} (hk : k / 192 < 8) (s : State) {f : Die → Die} (hf : ∀ x, (f x).teams = x.teams) :
    StopKeeps k s (s.modDie (k / 192) f) := by
  refine ⟨rfl, fun _ _ => rfl, rfl, rfl, fun id m hm => ⟨m, ?_, rfl⟩⟩
  unfold State.team? at *
  rw [State.die_modDie_self _ _ _ hk, hf]
  exact hm

theorem stopKeeps_abandon {k : Nat} (hk : k / 192 < 8) (s : State) : StopKeeps k s (s.abandon k) := by
  unfold State.abandon
  dsimp only
  split
  · exact .refl ..
  · refine (stopKeeps_abortRounds s k).trans (StopKeeps.trans ?_ (stopKeeps_modDie hk _ fun _ => rfl))
    exact .of_eq rfl rfl rfl

/-! ### The stop -/

/-- The words in progress, the snapshot and the commands of core k's job are gone. -/
def stopping (s : State) (k : Nat) : State := (((s.abandonM k).abandonV k).snapshot k).2.abandon k

theorem stopKeeps_stopping {k : Nat} (hk : k / 192 < 8) (s : State) : StopKeeps k s (stopping s k) :=
  (((stopKeeps_abandonM s k).trans (stopKeeps_abandonV ..)).trans (stopKeeps_snapshot hk _)).trans (stopKeeps_abandon hk _)

/-- The team of a job that is stopped on core k of s. -/
def teamStopped (s : State) (k : Nat) (t : Team) : Team :=
  { t with
    fine := t.fine + (s.core k).meterJob
    tokensLeft := t.tokensLeft || (s.core k).tokensLeft
    faults := t.faults ++ (match (s.core k).fault with
      | some f => [(k, f)]
      | none => []) }

/-- The core that a stopped job of function f leaves. -/
def coreStopped (f : Byte) (c : Core) : Core := { c.vacate f none with x := { c.x with queue := [], cmds := [] } }

/-- The state u in which core k's job of s has been stopped, after the job has left the core, its team not yet settled. -/
def stopLeft (s u : State) (k : Nat) (j : Job) : State :=
  ((u.modTeam (k / 192) j.team (teamStopped s k)).modCore k (coreStopped j.func)).unstop k

theorem stopLeft_writes (s u : State) (k : Nat) (j : Job) : (stopLeft s u k j).writes = u.writes := rfl

theorem stopLeft_core_self (s u : State) (k : Nat) (j : Job) : (stopLeft s u k j).core k = coreStopped j.func (u.core k) :=
  State.core_modCore_self ..

theorem stopLeft_core_ne (s u : State) {k i : Nat} (j : Job) (hi : i ≠ k) : (stopLeft s u k j).core i = u.core i :=
  State.core_modCore_ne _ _ hi

theorem stopLeft_team {s u : State} {k : Nat} {j : Job} {n : Team} (hk : k / 192 < 8) (hn : u.team? (k / 192) j.team = some n) :
    (stopLeft s u k j).team? (k / 192) j.team = some (teamStopped s k n) :=
  team_modTeam_self (f := teamStopped s k) hk (fun _ => rfl) hn

theorem hardStop_eq {s : State} {k : CoreIx} {j : Job} (hj : (s.core k.val).job = some j) :
    exec (.hardStop k) s = .next ((stopLeft s (stopping s k.val) k.val j).settleTeam (k.val / 192) j.team) := by
  change Host.Outcome.next (s.hardStop k.val) = _
  unfold State.hardStop
  simp only [hj]
  rfl

theorem hardStop_none {s : State} {k : CoreIx} (hj : (s.core k.val).job = none) : exec (.hardStop k) s = .next s := by
  change Host.Outcome.next (s.hardStop k.val) = _
  unfold State.hardStop
  simp only [hj]

/-- A settled team with a fault keeps its record (R238). -/
theorem settleTeam_faulted {s : State} {d id : Nat} {m : Team} (hm : s.team? d id = some m) (hf : m.faults ≠ []) :
    (s.settleTeam d id).team? d id = some m := by
  cases h : s.settled m with
  | false => rw [settleTeam_running hm h, hm]
  | true =>
    rw [settleTeam_completes hm h (.inr (.inr hf))]
    exact hm

/-- A hard stop frees its core; its fault stands in the team's record (R155). -/
theorem hardStop_frees {s : State} {k : CoreIx} {j : Job} (hj : (s.core k.val).job = some j) :
    ∃ t, exec (.hardStop k) s = .next t ∧ t.writes = s.writes ∧
      (∀ i, i ≠ k.val → t.core i = { s.core i with fault := (t.core i).fault }) ∧
      (t.core k.val).job = none ∧ (t.core k.val).fault = none ∧ (t.core k.val).preempt = none ∧ (t.core k.val).last = some j.func ∧
      (t.core k.val).x.cmds = [] ∧ (t.core k.val).x.queue = [] ∧ (t.core k.val).q = (s.core k.val).q ∧
      ∀ m f, s.team? (k.val / 192) j.team = some m → (s.core k.val).fault = some f →
        ∃ n, t.team? (k.val / 192) j.team = some n ∧ n.faults = m.faults ++ [(k.val, f)] := by
  have hk : k.val / 192 < 8 := coreDie_lt k
  have hexec := hardStop_eq hj
  have hkeeps := stopKeeps_stopping hk s
  generalize stopping s k.val = u at hexec hkeeps
  have hrest := settleTeam_rest (stopLeft s u k.val j) (k.val / 192) j.team
  have hcores := core_of_cores (cores_of_settleRest hrest)
  have hself := (hcores k.val).trans (stopLeft_core_self s u k.val j)
  refine ⟨_, hexec, (writes_of_settleRest hrest).trans ((stopLeft_writes ..).trans hkeeps.writes), fun i hi => ?_, ?_, ?_, ?_, ?_, ?_, ?_, ?_,
    fun m f hm hf => ?_⟩
  · rw [hcores, stopLeft_core_ne s u j hi]
    exact hkeeps.cores i hi
  · rw [hself]; rfl
  · rw [hself]; rfl
  · rw [hself]; rfl
  · rw [hself]; rfl
  · rw [hself]; rfl
  · rw [hself]; rfl
  · rw [hself]; exact hkeeps.q
  · obtain ⟨n, hn, hnf⟩ := hkeeps.teams j.team m hm
    have hfaults : (teamStopped s k.val n).faults = m.faults ++ [(k.val, f)] := by
      unfold teamStopped
      rw [hf, hnf]
    exact ⟨_, settleTeam_faulted (stopLeft_team hk hn) (by rw [hfaults]; simp), hfaults⟩

end Sys2Proof.Safety
end

section
/-! SUPPORT. The end of a save (R153, R257, R258): the core that is written and left, its team with the image. -/

namespace Sys2Proof.Safety

open Sys2Proof.Machine

/-! ### The core that is saved -/

/-- The state of which core k's image is written, at a boundary for a reason. -/
def quiet (s : State) (k : Nat) (reason : Byte) : State := (s.nestRecord k reason).modCore k Core.quiesce

/-- The nest save record changes memory alone. -/
theorem nestRecord_eq (s : State) (k : Nat) (reason : Byte) : ∃ m, s.nestRecord k reason = { s with mem := m } := by
  unfold State.nestRecord
  dsimp only
  split
  · exact ⟨s.mem, rfl⟩
  · split
    · exact ⟨s.mem, rfl⟩
    · exact ⟨_, rfl⟩

theorem unissue_rest (c : Core) (st : Stream) : engRest (c.unissue st) = engRest c := by
  unfold Core.unissue
  dsimp only
  split
  · rw [engRest_modEng]
    rfl
  · rfl

theorem unissue_meterJob (c : Core) (st : Stream) : (c.unissue st).meterJob = c.meterJob := by
  have h := congrArg Core.meterJob (unissue_rest c st)
  exact h

theorem quiesce_meterJob (c : Core) : c.quiesce.meterJob = c.meterJob := by
  unfold Core.quiesce
  dsimp only
  rw [unissue_meterJob, unissue_meterJob, unissue_meterJob, unissue_meterJob]

theorem quiet_dies (s : State) (k : Nat) (reason : Byte) : (quiet s k reason).dies = s.dies := by
  obtain ⟨m, hm⟩ := nestRecord_eq s k reason
  unfold quiet
  rw [hm]
  rfl

theorem quiet_core_ne (s : State) {k i : Nat} (reason : Byte) (hi : i ≠ k) : (quiet s k reason).core i = s.core i := by
  obtain ⟨m, hm⟩ := nestRecord_eq s k reason
  unfold quiet
  rw [State.core_modCore_ne _ _ hi, hm]
  rfl

theorem quiet_meterJob (s : State) (k : Nat) (reason : Byte) : ((quiet s k reason).core k).meterJob = (s.core k).meterJob := by
  obtain ⟨m, hm⟩ := nestRecord_eq s k reason
  unfold quiet
  rw [State.core_modCore_self, quiesce_meterJob, hm]
  rfl

/-! ### The charge for the image -/

theorem imageCharge_mem (s : State) (k a : Nat) : (s.imageCharge k a).mem = s.mem := by
  unfold State.imageCharge
  dsimp only
  split
  · rfl
  · rw [account_rest]
    rfl

theorem imageCharge_core_ne (s : State) {k i : Nat} (a : Nat) (hi : i ≠ k) : (s.imageCharge k a).core i = s.core i := by
  unfold State.imageCharge
  dsimp only
  split
  · rfl
  · unfold State.modTeam
    rw [State.core_modDie, account_core, State.core_setCore_ne _ _ hi]

theorem imageCharge_core_self (s : State) (k a : Nat) : ∃ x, (s.imageCharge k a).core k = { s.core k with meterFunc := x } := by
  unfold State.imageCharge
  dsimp only
  split
  · exact ⟨(s.core k).meterFunc, rfl⟩
  · unfold State.modTeam
    rw [State.core_modDie, account_core, State.core_setCore_self]
    exact ⟨_, rfl⟩

theorem team_account (s : State) (f : Byte) (x d id : Nat) : (s.account f x).team? d id = s.team? d id := by
  rw [account_rest]
  rfl

/-- A team charged more. -/
def teamCharged (x : Nat) (t : Team) : Team := { t with fine := t.fine + x }

theorem imageCharge_team {s : State} {k id : Nat} {m : Team} (a : Nat) (hk : k / 192 < 8) (hm : s.team? (k / 192) id = some m) :
    ∃ x, (s.imageCharge k a).team? (k / 192) id = some { m with fine := x } := by
  unfold State.imageCharge
  dsimp only
  split
  · exact ⟨m.fine, hm⟩
  · next j hj =>
    generalize imageSize * s.rate 1 7 0xF * s.calib a = x
    generalize hu : (s.setCore k { s.core k with meterFunc := (s.core k).meterFunc + x }).account j.func x = u
    have hmu : u.team? (k / 192) id = some m := by
      rw [← hu, team_account]
      exact hm
    have hteam := team_modTeam (s := u) j.team id hk (f := teamCharged x) fun _ => rfl
    rw [hmu] at hteam
    refine ⟨if m.id = j.team then m.fine + x else m.fine, hteam.trans (congrArg some ?_)⟩
    dsimp only
    split <;> rfl

/-! ### The core left -/

/-- The team with the image of core k's rank in a slot. -/
def teamSaved (v : State) (k : Nat) (j : Job) (slot : Nat) (cs : List (Cmd × Nat)) (t : Team) : Team :=
  { t with saves := t.saves ++ [⟨j.rank.toNat, slot, k, (v.core k).meterJob, (v.core k).sampledFormats cs, none⟩] }

/-- The core that a saved job leaves. -/
def coreSaved (j : Job) (c : Core) : Core := { c.vacate j.func (some (j.team, j.rank.toNat)) with x := { c.x with queue := [], cmds := [] } }

/-- The state v, in which core k's image stands in a slot, after the job has left the core, its team not yet settled. -/
def saveLeft (v : State) (k : Nat) (j : Job) (slot : Nat) (cs : List (Cmd × Nat)) : State :=
  ((v.modTeam (k / 192) j.team (teamSaved v k j slot cs)).modCore k (coreSaved j)).unstop k

theorem saveLeft_core_self (v : State) (k : Nat) (j : Job) (slot : Nat) (cs : List (Cmd × Nat)) :
    (saveLeft v k j slot cs).core k = coreSaved j (v.core k) := State.core_modCore_self ..

theorem saveLeft_core_ne (v : State) {k i : Nat} (j : Job) (slot : Nat) (cs : List (Cmd × Nat)) (hi : i ≠ k) :
    (saveLeft v k j slot cs).core i = v.core i := State.core_modCore_ne _ _ hi

theorem saveLeft_mem (v : State) (k : Nat) (j : Job) (slot : Nat) (cs : List (Cmd × Nat)) : (saveLeft v k j slot cs).mem = v.mem := rfl

theorem saveLeft_team {v : State} {k : Nat} {j : Job} {n : Team} (slot : Nat) (cs : List (Cmd × Nat)) (hk : k / 192 < 8)
    (hn : v.team? (k / 192) j.team = some n) :
    (saveLeft v k j slot cs).team? (k / 192) j.team = some (teamSaved v k j slot cs n) :=
  team_modTeam_self (f := teamSaved v k j slot cs) hk (fun _ => rfl) hn

/-! ### The event -/

theorem saveComplete_waits {s : State} {k : CoreIx} (h : s.boundary k.val = none) : exec (.saveComplete k) s = .next s := by
  change execSaveComplete k s = _
  unfold execSaveComplete
  simp only [h]

theorem boundary_live {s : State} {k : Nat} {p : Preempt} {cs : List (Cmd × Nat)} (h : s.boundary k = some (p, cs)) :
    (s.core k).job.isSome = true ∧ (s.core k).fault = none := by
  unfold State.boundary at h
  dsimp only at h
  cases hp : (s.core k).preempt with
  | none =>
    rw [hp] at h
    cases h
  | some x =>
    rw [hp] at h
    simp only [Option.ite_none_right_eq_some, Bool.and_eq_true, Option.isNone_iff_eq_none] at h
    obtain ⟨⟨⟨⟨⟨⟨⟨⟨hj, hf⟩, -⟩, -⟩, -⟩, -⟩, -⟩, -⟩, -⟩ := h
    exact ⟨hj, hf⟩

theorem saveComplete_idle {s : State} {k : CoreIx} (hj : (s.core k.val).job = none) : exec (.saveComplete k) s = .next s := by
  refine saveComplete_waits ?_
  cases h : s.boundary k.val with
  | none => rfl
  | some x =>
    have := (boundary_live h).1
    rw [hj] at this
    cases this

theorem saveComplete_saves {s u : State} {k : CoreIx} {j : Job} {p : Preempt} {cs : List (Cmd × Nat)} {slot : Nat}
    (hj : (s.core k.val).job = some j) (hb : s.boundary k.val = some (p, cs))
    (hw : (quiet s k.val p.reason).writeImage k.val 0 p.reason cs 1 = .ok (slot, u)) :
    exec (.saveComplete k) s = .next ((saveLeft (u.imageCharge k.val k.val) k.val j slot cs).settleTeam (k.val / 192) j.team) := by
  change execSaveComplete k s = _
  unfold quiet at hw
  unfold execSaveComplete
  simp only [hj, hb, hw]
  rfl

theorem saveComplete_fails {s : State} {k : CoreIx} {j : Job} {p : Preempt} {cs : List (Cmd × Nat)} {z : Byte} {a : Dword}
    (hj : (s.core k.val).job = some j) (hb : s.boundary k.val = some (p, cs))
    (hw : (quiet s k.val p.reason).writeImage k.val 0 p.reason cs 1 = .error (z, a)) :
    exec (.saveComplete k) s = .next ((if z = 0#8 then s else s.slotEvent k.val j.func z a).jobFaultFree k.val cSAVE_AREA 0xFF 0#32) := by
  change execSaveComplete k s = _
  unfold quiet at hw
  unfold execSaveComplete
  simp only [hj, hb, hw]

/-- What a written image leaves of the state that it is written of. -/
theorem writeImage_keeps {s u : State} {k kind mark i : Nat} {reason : Byte} {saved : List (Cmd × Nat)}
    (h : s.writeImage k kind reason saved mark = .ok (i, u)) : (∀ j, u.core j = s.core j) ∧ u.dies = s.dies := by
  have hrest := writeImage_rest h
  have hc := congrArg State.cores hrest
  have hd := congrArg State.dies hrest
  exact ⟨core_of_cores hc, hd⟩

theorem sampledFormats_meterFunc (c : Core) (x : Nat) (cs : List (Cmd × Nat)) :
    ({ c with meterFunc := x } : Core).sampledFormats cs = c.sampledFormats cs := rfl

/-- The images of a team after core k's has been written into a slot. -/
def savesWith (s q : State) (k : Nat) (j : Job) (slot : Nat) (cs : List (Cmd × Nat)) (m : Team) : List Saved :=
  m.saves ++ [⟨j.rank.toNat, slot, k, (s.core k).meterJob, (q.core k).sampledFormats cs, none⟩]

section
variable {s u : State} {k : CoreIx} {j : Job} {p : Preempt} {cs : List (Cmd × Nat)} {slot : Nat}
  (hw : (quiet s k.val p.reason).writeImage k.val 0 p.reason cs 1 = .ok (slot, u))
include hw

theorem saved_core_ne {i : Nat} (hi : i ≠ k.val) : (u.imageCharge k.val k.val).core i = s.core i := by
  rw [imageCharge_core_ne _ _ hi, (writeImage_keeps hw).1, quiet_core_ne _ _ hi]

/-- The team, with the image, before it settles. -/
theorem saved_team {m : Team} (hm : s.team? (k.val / 192) j.team = some m) :
    ∃ n, (saveLeft (u.imageCharge k.val k.val) k.val j slot cs).team? (k.val / 192) j.team = some n ∧
      n.saves = savesWith s (quiet s k.val p.reason) k.val j slot cs m ∧ n.cores = m.cores ∧ n.stop = m.stop ∧ n.faults = m.faults := by
  have hk : k.val / 192 < 8 := coreDie_lt k
  obtain ⟨hcore, hdies⟩ := writeImage_keeps hw
  have hmu : u.team? (k.val / 192) j.team = some m := by
    rw [team_of_dies (hdies.trans (quiet_dies ..)), hm]
  obtain ⟨x, hx⟩ := imageCharge_team k.val hk hmu
  obtain ⟨y, hy⟩ := imageCharge_core_self u k.val k.val
  refine ⟨_, saveLeft_team slot cs hk hx, ?_, rfl, rfl, rfl⟩
  unfold teamSaved savesWith
  rw [hy, sampledFormats_meterFunc, hcore]
  rw [← quiet_meterJob s k.val p.reason]

/-- The team's part of a completed save (R226). -/
theorem saved_settles {m : Team} (hm : s.team? (k.val / 192) j.team = some m) :
    (¬ Alone s k.val j → ∃ n, ((saveLeft (u.imageCharge k.val k.val) k.val j slot cs).settleTeam (k.val / 192) j.team).team? (k.val / 192) j.team =
      some n ∧ n.saves = savesWith s (quiet s k.val p.reason) k.val j slot cs m) ∧
    (Alone s k.val j → m.stop = none → m.faults = [] →
      ∃ x ∈ (((saveLeft (u.imageCharge k.val k.val) k.val j slot cs).settleTeam (k.val / 192) j.team).die (k.val / 192)).cands,
        x.kind = .suspended ∧ x.team.saves = savesWith s (quiet s k.val p.reason) k.val j slot cs m) ∧
    (Alone s k.val j → m.stop ≠ none ∨ m.faults ≠ [] → .event (.workItemComplete (Fin.ofNat 8 (k.val / 192)) j.team) ∈
      ((saveLeft (u.imageCharge k.val k.val) k.val j slot cs).settleTeam (k.val / 192) j.team).due) := by
  obtain ⟨n, hn, hsaves, hcores, hstop, hfaults⟩ := saved_team (j := j) hw hm
  have hne (i : Nat) (hi : i ≠ k.val) : (saveLeft (u.imageCharge k.val k.val) k.val j slot cs).core i = s.core i := by
    rw [saveLeft_core_ne _ _ _ _ hi, saved_core_ne hw hi]
  have hjob : ((saveLeft (u.imageCharge k.val k.val) k.val j slot cs).core k.val).job = none := by
    rw [saveLeft_core_self]
    rfl
  generalize saveLeft (u.imageCharge k.val k.val) k.val j slot cs = v at hn hne hjob
  refine ⟨fun ha => ⟨n, ?_, hsaves⟩, fun ha hs hf => ?_, fun ha hsf => ?_⟩
  · rw [settleTeam_accompanied hjob hne hm hn hcores ha, hn]
  · obtain ⟨x, hx, hkind, hteam⟩ := settleTeam_suspends (coreDie_lt k) hn ((settled_iff_alone hjob hne hm hn hcores).2 ha)
      (by rw [hsaves]; simp [savesWith]) (hstop.trans hs) (hfaults.trans hf)
    exact ⟨x, hx, hkind, by rw [hteam, hsaves]⟩
  · exact settleTeam_alone_completes hjob hne hm hn hcores ha (.inr (by rw [hstop, hfaults]; exact hsf))

/-- The core's part of a completed save: the core is free (R257). -/
theorem saved_frees : ((saveLeft (u.imageCharge k.val k.val) k.val j slot cs).settleTeam (k.val / 192) j.team).mem = u.mem ∧
    (∀ i, i ≠ k.val → ((saveLeft (u.imageCharge k.val k.val) k.val j slot cs).settleTeam (k.val / 192) j.team).core i = s.core i) ∧
    ((saveLeft (u.imageCharge k.val k.val) k.val j slot cs).settleTeam (k.val / 192) j.team).core k.val =
      coreSaved j ((u.imageCharge k.val k.val).core k.val) := by
  have hrest := settleTeam_rest (saveLeft (u.imageCharge k.val k.val) k.val j slot cs) (k.val / 192) j.team
  have hcores := core_of_cores (cores_of_settleRest hrest)
  refine ⟨(mem_of_settleRest hrest).trans ((saveLeft_mem ..).trans (imageCharge_mem ..)), fun i hi => ?_, ?_⟩
  · rw [hcores, saveLeft_core_ne _ _ _ _ hi, saved_core_ne hw hi]
  · rw [hcores, saveLeft_core_self]

end

/-! ### Plans -/

theorem mem_planInsert {p q : Planned} {l : List Planned} : q ∈ planInsert p l ↔ q = p ∨ q ∈ l := by
  induction l with
  | nil => simp [planInsert]
  | cons x t ih =>
    unfold planInsert
    split
    · simp
    · simp only [List.mem_cons, ih]
      tauto

theorem mem_plan_fold {q : Planned} {c : Nat} {l : List Act} {g : List Planned} (h : q ∈ g ∨ ∃ a ∈ l, q = ⟨c, a⟩) :
    q ∈ l.foldl (fun l a => planInsert ⟨c, a⟩ l) g := by
  induction l generalizing g with
  | nil => simpa using h
  | cons a t ih =>
    refine ih ?_
    rcases h with h | ⟨b, hb, hq⟩
    · exact .inl (mem_planInsert.2 (.inr h))
    · rcases List.mem_cons.1 hb with rfl | hb
      · exact .inl (mem_planInsert.2 (.inl hq))
      · exact .inr ⟨b, hb, hq⟩

/-- An act planned for the next clk stands in the agenda. -/
theorem mem_later {s : State} {l : List Act} {a : Act} (h : a ∈ l) : ⟨s.clk + 1, a⟩ ∈ (s.later l).agenda := mem_plan_fold (.inr ⟨a, h, rfl⟩)

/-- A job fault of a core plans the hard stop of its job. -/
theorem jobFaultFree_stops {s : State} {k : CoreIx} (cause : Byte) (stream : Nat) (pc : Word)
    (hj : (s.core k.val).job.isSome = true) (hf : (s.core k.val).fault = none) :
    ∃ r, (s.jobFaultFree k.val cause stream pc).core k.val = { s.core k.val with fault := some r } ∧ r.cause = cause ∧
      ⟨s.clk + 1, .event (.hardStop k)⟩ ∈ (s.jobFaultFree k.val cause stream pc).agenda := by
  obtain ⟨l, hl, h⟩ := jobFault_eq (s := { s with fresh := s.fresh + 1 }) cause (Config.info s.fresh) stream pc hj hf
  rw [ofNat_core] at hl
  refine ⟨_, (congrArg (fun u : State => u.core k.val) h).trans (State.core_setCore_self ..), rfl, ?_⟩
  unfold State.jobFaultFree
  rw [h]
  exact mem_later (s := { s with fresh := s.fresh + 1 }.setCore k.val _) hl

theorem slotEvent_rest (s : State) (k : Nat) (f cause : Byte) (a : Dword) : eventRest (s.slotEvent k f cause a) = eventRest s := by
  unfold State.slotEvent
  split
  · exact event_rest ..
  · rfl

/-- An image that cannot be written faults SAVE_AREA (R258). -/
theorem saveComplete_faults {s : State} {k : CoreIx} {j : Job} {p : Preempt} {cs : List (Cmd × Nat)} {e : Byte × Dword}
    (hj : (s.core k.val).job = some j) (hb : s.boundary k.val = some (p, cs))
    (hw : (quiet s k.val p.reason).writeImage k.val 0 p.reason cs 1 = .error e) :
    ∃ t r, exec (.saveComplete k) s = .next t ∧ t.core k.val = { s.core k.val with fault := some r } ∧ r.cause = cSAVE_AREA ∧
      ⟨s.clk + 1, .event (.hardStop k)⟩ ∈ t.agenda := by
  obtain ⟨z, a⟩ := e
  have hexec := saveComplete_fails hj hb hw
  have hrest : eventRest (if z = 0#8 then s else s.slotEvent k.val j.func z a) = eventRest s := by
    split
    · rfl
    · exact slotEvent_rest ..
  generalize (if z = 0#8 then s else s.slotEvent k.val j.func z a) = w at hexec hrest
  have hcore : w.core k.val = s.core k.val := core_of_cores (cores_of_eventRest hrest) _
  have hclk : w.clk = s.clk := by
    have := congrArg State.clk hrest
    exact this
  obtain ⟨hsome, hnone⟩ := boundary_live hb
  obtain ⟨r, hr, hcause, hstop⟩ := jobFaultFree_stops (s := w) (k := k) cSAVE_AREA 0xFF 0#32 (by rw [hcore]; exact hsome) (by rw [hcore]; exact hnone)
  exact ⟨_, r, hexec, hr.trans (by rw [hcore]), hcause, hclk ▸ hstop⟩

end Sys2Proof.Safety
end

section
/-! SUPPORT. Requests to pre-empt (R153), and the completion of a work item (R27, R238, R239). -/

namespace Sys2Proof.Safety

open Sys2Proof.Machine

/-! ### Pre-emption requests -/

theorem isRun_iff {w : Word} : isRun w = true ↔ ∃ x y z, decodeSeq w = .ok (.spillm x y z) ∨ decodeSeq w = .ok (.fillm x y z) := by
  unfold isRun
  constructor
  · intro h
    split at h
    · exact ⟨_, _, _, .inl ‹_›⟩
    · exact ⟨_, _, _, .inr ‹_›⟩
    · cases h
  · rintro ⟨x, y, z, h | h⟩ <;> rw [h]

/-- A block stream whose run of registers is under way. -/
def Running (b : Block) (code : List Word) : Prop :=
  b.busy = true ∧ ∃ w x y z, code[b.pc.toNat]? = some w ∧ (decodeSeq w = .ok (.spillm x y z) ∨ decodeSeq w = .ok (.fillm x y z))

theorem running_iff {b : Block} {code : List Word} : Running b code ↔ (b.busy && ((code[b.pc.toNat]?).map isRun).getD false) = true := by
  unfold Running
  cases h : code[b.pc.toNat]? with
  | none => simp
  | some w => simp [isRun_iff]

theorem stopRun_running {b : Block} {code : List Word} (h : Running b code) :
    b.stopRun code = { b with busy := false, trpc := b.pc.setWidth 32 } := if_pos (running_iff.1 h)

theorem stopRun_other {b : Block} {code : List Word} (h : ¬ Running b code) : b.stopRun code = b := if_neg fun hr => h (running_iff.2 hr)

/-- A live core notes the request, and its runs of registers stop (R153). -/
theorem softPreempt_notes {s : State} {k : CoreIx} (r : Byte) (h : (s.core k.val).live = true) :
    ∃ t, exec (.softPreemptRequest k r) s = .next t ∧ CoreStep s t k.val { s.core k.val with
      preempt := some { reason := r, since := s.dtime }
      q := Vector.ofFn fun i => (s.core k.val).q[i.val].stopRun (vget (s.core k.val).code i.val []) } := by
  refine ⟨_, ?_, setCore_step ..⟩
  change execSoftPreemptRequest k r s = _
  unfold execSoftPreemptRequest
  simp only [h]
  rfl

theorem softPreempt_dead {s : State} {k : CoreIx} (r : Byte) (h : (s.core k.val).live = false) : exec (.softPreemptRequest k r) s = .next s := by
  change execSoftPreemptRequest k r s = _
  unfold execSoftPreemptRequest
  simp [h]

/-! ### The part's writes, whatever stands on the dies -/

/-- A state with other dies. -/
def withDies (s : State) (d : Vector Die 8) : State := { s with dies := d }

theorem walkFrom_withDies (s : State) (d : Vector Die 8) (va fuel table : Nat) (seen : List Nat) :
    (withDies s d).walkFrom va fuel table seen = s.walkFrom va fuel table seen := by
  induction fuel generalizing table seen with
  | zero => rfl
  | succ n ih =>
    unfold State.walkFrom
    simp only [ih]
    rfl

theorem check_withDies (s : State) (d : Vector Die 8) (f : Byte) (va : Nat) (acc : Access) (seq part : Bool) :
    (withDies s d).check f va acc seq part = s.check f va acc seq part := by
  have hwalk : (withDies s d).walk f va = s.walk f va := by
    unfold State.walk
    rw [walkFrom_withDies]
    rfl
  unfold State.check
  rw [hwalk]
  rfl

theorem hostLocs_withDies (s : State) (d : Vector Die 8) (f : Byte) (va : Dword) (acc : Access) (part : Bool) (n : Nat) :
    (withDies s d).hostLocs f va acc part n = s.hostLocs f va acc part n := by
  induction n generalizing va with
  | zero => rfl
  | succ n ih =>
    unfold State.hostLocs State.hostCheck
    rw [check_withDies, ih]

/-- A write by the part writes the same memory whatever stands on the dies. -/
theorem hostWrite_withDies {s u : State} {f : Byte} {va : Dword} {bs : List Byte} {part : Bool} (d : Vector Die 8)
    (h : s.hostWrite f va bs part = .ok u) : ∃ t, (withDies s d).hostWrite f va bs part = .ok t ∧ t.mem = u.mem := by
  unfold State.hostWrite at h ⊢
  rw [hostLocs_withDies]
  cases hl : s.hostLocs f va .write part bs.length with
  | error e =>
    rw [hl] at h
    cases h
  | ok ls =>
    rw [hl] at h
    cases h
    refine ⟨_, rfl, ?_⟩
    rw [State.mendAll_mem, State.mendAll_mem]
    rfl

/-! ### How a team's run ends -/

/-- The fault of the lower core, of one held and another found (R151). -/
def lowerFault (a : Option (Nat × FaultRec)) (f : Nat × FaultRec) : Option (Nat × FaultRec) :=
  match a with
  | none => some f
  | some b => if f.1 < b.1 then some f else some b

theorem lowerFault_fold (l : List (Nat × FaultRec)) (b : Nat × FaultRec) :
    ∃ f, l.foldl lowerFault (some b) = some f ∧ f ∈ b :: l ∧ ∀ g ∈ b :: l, f.1 ≤ g.1 := by
  induction l generalizing b with
  | nil => exact ⟨b, rfl, List.mem_singleton.2 rfl, fun g hg => by rw [List.mem_singleton.1 hg]⟩
  | cons x t ih =>
    have hstep : lowerFault (some b) x = some (if x.1 < b.1 then x else b) := by
      unfold lowerFault
      dsimp only
      split <;> rfl
    obtain ⟨f, hf, hmem, hle⟩ := ih (if x.1 < b.1 then x else b)
    rw [List.foldl_cons, hstep]
    refine ⟨f, hf, ?_, fun g hg => ?_⟩
    · rcases List.mem_cons.1 hmem with rfl | hmem
      · split <;> simp
      · simp [hmem]
    · have hfirst := hle _ List.mem_cons_self
      rcases List.mem_cons.1 hg with rfl | hg
      · split at hfirst <;> omega
      · rcases List.mem_cons.1 hg with rfl | hg
        · split at hfirst <;> omega
        · exact hle g (List.mem_cons_of_mem _ hg)

theorem team_fault_eq (m : Team) : m.fault = m.faults.foldl lowerFault none := rfl

theorem team_fault_none {m : Team} (h : m.faults = []) : m.fault = none := by
  rw [team_fault_eq, h]
  rfl

/-- A team with faults reports that of its lowest core. -/
theorem team_fault_lowest {m : Team} (h : m.faults ≠ []) : ∃ f, m.fault = some f ∧ f ∈ m.faults ∧ ∀ g ∈ m.faults, f.1 ≤ g.1 := by
  rw [team_fault_eq]
  cases hm : m.faults with
  | nil => exact absurd hm h
  | cons b l => exact lowerFault_fold l b

/-- The status of a record (R239). -/
theorem result_status (m : Team) (area : Dword) : (m.result area).status =
    if m.faults ≠ [] then 2 else if let some x := m.stop then x.toNat else if m.deferred.isSome then 1 else 0 := by
  unfold Team.result
  by_cases h : m.faults = []
  · rw [team_fault_none h, if_neg (not_not.2 h)]
    cases m.stop with
    | some x => rfl
    | none => cases m.deferred <;> rfl
  · obtain ⟨f, hf, -⟩ := team_fault_lowest h
    rw [hf, if_pos h]

theorem result_fault {m : Team} (area : Dword) (h : m.faults ≠ []) : ∃ f ∈ m.faults, (∀ g ∈ m.faults, f.1 ≤ g.1) ∧
    (m.result area).cause = f.2.cause ∧ (m.result area).stream = f.2.stream ∧ (m.result area).core = f.1 % 192 ∧
    (m.result area).info = f.2.info := by
  obtain ⟨f, hf, hmem, hle⟩ := team_fault_lowest h
  refine ⟨f, hmem, hle, ?_⟩
  unfold Team.result
  rw [hf]
  exact ⟨rfl, rfl, rfl, rfl⟩

/-! ### The completion of an item -/

theorem workItem_none {s : State} {d : DieIx} {n : Nat} (h : s.team? d.val n = none) : exec (.workItemComplete d n) s = .next s := by
  change execWorkItemComplete d n s = _
  unfold execWorkItemComplete
  simp only [h]

theorem workItem_waits {s : State} {d : DieIx} {n : Nat} {m : Team} (h : s.team? d.val n = some m)
    (hw : s.settled m = false ∨ s.trailing m = true) : exec (.workItemComplete d n) s = .next s := by
  change execWorkItemComplete d n s = _
  unfold execWorkItemComplete
  rcases hw with hw | hw <;> simp [h, hw]

theorem trailing_iff {s : State} {m : Team} : s.trailing m = true ↔ ∃ w ∈ s.writes, w.id ∈ m.trail := by
  simp [State.trailing]

/-- The dies without team n on die d. -/
def teamGone (s : State) (d n : Nat) : State := s.modDie d fun x => { x with teams := x.teams.filter fun o => o.id != n }

theorem teamGone_team (s : State) {d : Nat} (n : Nat) (hd : d < 8) : (teamGone s d n).team? d n = none := by
  unfold State.team? teamGone
  rw [State.die_modDie_self _ _ _ hd, List.find?_eq_none]
  intro x hx
  simpa using (List.mem_filter.1 hx).2

/-- An item without plan node, event or images ends with its record. -/
theorem workItem_ends {s : State} {d : DieIx} {n : Nat} {m : Team} (h : s.team? d.val n = some m) (hs : s.settled m = true)
    (ht : s.trailing m = false) (hp : m.plan = none) (hsv : m.saves = []) : exec (.workItemComplete d n) s =
      .next (((teamGone s d.val n).complete d.val m.func m.queue m.item (m.result (s.func m.func).save)).closeQueue m.queue.toNat) := by
  change execWorkItemComplete d n s = _
  unfold execWorkItemComplete
  simp only [h, hs, ht]
  unfold State.endTeam
  simp [hp, hsv]
  rfl

theorem closeQueue_keeps (s : State) (q : Nat) : (s.closeQueue q).mem = s.mem ∧ (s.closeQueue q).cores = s.cores := by
  unfold State.closeQueue
  split
  · exact ⟨rfl, rfl⟩
  · exact ⟨rfl, rfl⟩

theorem closeQueue_team (s : State) (q : Nat) {d : Nat} (n : Nat) (hd : d < 8) : (s.closeQueue q).team? d n = s.team? d n := by
  unfold State.closeQueue
  split
  · unfold State.team? State.die
    rw [vget_lt _ _ _ hd, vget_lt _ _ _ hd]
    simp
  · rfl

/-- A settled item's record is written and its team is gone (R238). -/
theorem workItem_records {s u : State} {d : DieIx} {n : Nat} {m : Team} (h : s.team? d.val n = some m)
    (hs : ∀ i ∈ m.cores, s.runs m.id i = false) (ht : ∀ w ∈ s.writes, w.id ∉ m.trail) (hp : m.plan = none) (he : m.item.evt = false)
    (hsv : m.saves = [])
    (hw : s.hostWrite m.func m.item.compl (s.recordBytes d.val m.item (m.result (s.func m.func).save)) false = .ok u) :
    ∃ t, exec (.workItemComplete d n) s = .next t ∧ t.mem = u.mem ∧ t.team? d.val n = none ∧ t.cores = s.cores := by
  have htrail : s.trailing m = false := by
    rw [← Bool.not_eq_true, trailing_iff]
    rintro ⟨w, hw, hid⟩
    exact ht w hw hid
  obtain ⟨t, hwt, hmem⟩ := hostWrite_withDies (teamGone s d.val n).dies hw
  have hcomplete : (teamGone s d.val n).complete d.val m.func m.queue m.item (m.result (s.func m.func).save) = t := by
    have hgone : (teamGone s d.val n).hostWrite m.func m.item.compl
        ((teamGone s d.val n).recordBytes d.val m.item (m.result (s.func m.func).save)) false = .ok t := hwt
    unfold State.complete
    rw [hgone]
    simp [he]
  have hrest := hostWrite_rest hwt
  have hdies : t.dies = (teamGone s d.val n).dies := by
    have := congrArg State.dies hrest
    exact this
  have hcores : t.cores = s.cores := by
    have := congrArg State.cores hrest
    exact this
  refine ⟨_, workItem_ends h (settled_iff.2 hs) htrail hp hsv, ?_, ?_, ?_⟩
  · rw [hcomplete, (closeQueue_keeps ..).1, hmem]
  · rw [hcomplete, closeQueue_team _ _ _ d.isLt, team_of_dies hdies, teamGone_team _ _ d.isLt]
  · rw [hcomplete, (closeQueue_keeps ..).2, hcores]

end Sys2Proof.Safety

section

open Sys2Proof Sys2Proof.Machine Sys2Proof.Safety

/-- Settles O55: each clause is a lemma on its event; what becomes of a team once its core is free is said once, in `settleTeam`'s lemmas. -/
theorem jobsEndSaveAndStop : Obligations.JobsEndSaveAndStop := by
  unfold Obligations.JobsEndSaveAndStop
  refine ⟨fun s k => ?_, fun s d n => ⟨workItem_none, fun m hm => ⟨fun ⟨i, hi, hr⟩ => ?_, fun hw => ?_, fun hs ht hp he hsv => ?_⟩⟩⟩
  · intro c d alone
    refine ⟨fun hj => ⟨?_, hardStop_none hj, saveComplete_idle hj⟩, fun j hj => ⟨fun hf hd hx hq => jobComplete_ends hj hf hd hx hq,
      jobComplete_waits hj, hardStop_frees hj, fun p cs hb => ⟨fun slot u hw => ?_, fun e hw => saveComplete_faults hj hb hw⟩⟩,
      saveComplete_waits, fun r => ⟨fun hl => ?_, softPreempt_dead r⟩⟩
    · change execJobComplete k s = _
      unfold execJobComplete
      simp only [show (s.core k.val).job = none from hj]
    · obtain ⟨hmem, hcores, hcore⟩ := saved_frees (j := j) hw
      refine ⟨_, saveComplete_saves hj hb hw, hmem, hcores, ?_, ?_, ?_, ?_, ?_, ?_, fun m hm => saved_settles hw hm⟩ <;> rw [hcore] <;> rfl
    · obtain ⟨t, ht, hstep⟩ := softPreempt_notes r hl
      refine ⟨t, _, ht, hstep, fun q => ⟨fun hr => ?_, fun hr => ?_⟩⟩
      · rw [Vector.getElem_ofFn]
        exact stopRun_running hr
      · rw [Vector.getElem_ofFn]
        exact stopRun_other hr
  · exact workItem_waits hm (.inl (by rw [← Bool.not_eq_true, settled_iff]; exact fun h => by rw [h i hi] at hr; cases hr))
  · exact workItem_waits hm (.inr (trailing_iff.2 hw))
  · intro r
    exact ⟨result_status .., result_fault _, fun u hu => workItem_records hm hs ht hp he hsv hu⟩

end
end

section
/-! SUPPORT. Writes on their way to their homes (R62, R66): what the order asks of one, and what its application leaves of memory, of
poisoned lines and of the record of who was served. -/

namespace Sys2Proof.Machine

/-! ### What the order asks -/

theorem overtakes_iff {s : State} {w : Write} : s.overtakes w = true ↔
    ∃ o ∈ s.writes, o.id < w.id ∧ o.by_ = w.by_ ∧ o.loc < w.loc + w.data.length ∧ w.loc < o.loc + o.data.length := by
  simp [State.overtakes, overlaps, and_assoc]

theorem plainFlying_iff {u : Update} : u.plainFlying = true ↔ u.det = none ∧ u.st = .flying := by simp [Update.plainFlying]

theorem unsettled_iff {u : Update} : u.unsettled = true ↔ u.st = .flying ∨ ∃ c, u.st = .retry c := by
  unfold Update.unsettled
  cases u.st <;> simp

theorem behind_iff {s : State} {w : Write} : s.behind w = true ↔
    (∃ o ∈ s.writes, o.id < w.id ∧ o.src = w.src ∧ o.home = w.home) ∨
    (∃ o ∈ s.combines, o.id < w.id ∧ o.core / 192 = w.src ∧ homeDie o.loc = w.home) ∨
    ∃ o ∈ s.updates, o.id < w.id ∧ o.core / 192 = w.src ∧ o.home = w.home ∧ o.det = none ∧ o.st = .flying := by
  simp [State.behind, State.behindOf, plainFlying_iff, coreDie, and_assoc, or_assoc]

theorem stampOk_iff {s : State} {w : Write} : s.stampOk w = true ↔
    ∀ k : Fin 8, k.val ≠ w.src → serialGe (s.die w.home).cclk[k.val] w.stamp[k.val] = true := by
  simp only [State.stampOk, State.stampOkOf, upto, List.all_eq_true, List.mem_range, Bool.or_eq_true, beq_iff_eq]
  constructor
  · intro h k hk
    have := (h k.val k.isLt).resolve_left hk
    rwa [vget_lt _ _ _ k.isLt, vget_lt _ _ _ k.isLt] at this
  · intro h k hk
    rw [vget_lt _ _ _ hk, vget_lt _ _ _ hk]
    exact or_iff_not_imp_left.2 (h ⟨k, hk⟩)

theorem arrivalOk_iff {s : State} {w : Write} :
    s.arrivalOk w = true ↔ ¬ s.overtakes w = true ∧ ¬ s.behind w = true ∧ s.stampOk w = true := by
  simp [State.arrivalOk, and_assoc]

/-! ### Masked bytes -/

/-- A masked byte takes the new bits where its mask is set. -/
theorem read_writeMask_inside {m : Memory} (h : m.wf = true) (a j : Nat) (bs : List (Byte × Byte)) (hj : j < bs.length) :
    Memory.read (Memory.writeMask m a bs) (a + j) = ((Memory.read m (a + j) &&& ~~~(bs[j]).2) ||| ((bs[j]).1 &&& (bs[j]).2)) := by
  induction bs generalizing m a j with
  | nil => simp at hj
  | cons x t ih =>
    simp only [Memory.writeMask]
    cases j with
    | zero =>
      rw [read_writeMask_outside (wf_write _ _ h) _ _ _ (by omega), read_write h, if_pos (by omega)]
      rfl
    | succ j =>
      rw [show a + (j + 1) = a + 1 + j by omega, ih (wf_write _ _ h) _ _ (by simpa using hj), read_write h, if_neg (by omega)]
      rfl

/-! ### Poisoned lines -/

/-- A write of whole bytes over a line writes all of its bytes. -/
theorem lineBits_whole {l loc : Nat} {data : List (Byte × Byte)} (hd : ∀ x ∈ data, x.2 = 0xFF#8) (hlo : loc ≤ 64 * l)
    (hhi : 64 * l + 64 ≤ loc + data.length) : lineBits l loc data = BitVec.allOnes 64 := by
  have hall : ∀ m : BitVec 64, ∀ j ∈ upto 64,
      (let whole := loc ≤ 64 * l + j && (data[64 * l + j - loc]?).any fun x => x.2 == 0xFF#8
       if whole then m ||| 1#64 <<< j else m) = m ||| 1#64 <<< j := by
    intro m j hj
    have hj : j < 64 := List.mem_range.1 hj
    have hix : 64 * l + j - loc < data.length := by omega
    have hmask := hd _ (List.getElem_mem hix)
    have hle : loc ≤ 64 * l + j := by omega
    simp [List.getElem?_eq_getElem hix, hmask, hle]
  unfold lineBits
  rw [List.foldl_ext _ _ _ hall]
  decide

theorem mendLine_poison_subset (s : State) (l : Nat) (bits : BitVec 64) {x : Nat} (hx : x ∈ (s.mendLine l bits).poison) : x ∈ s.poison := by
  unfold State.mendLine at hx
  dsimp only at hx
  split at hx
  · exact List.mem_of_mem_filter hx
  · exact hx

theorem mendLine_poison_ne (s : State) {l x : Nat} (bits : BitVec 64) (hne : x ≠ l) (hx : x ∈ s.poison) : x ∈ (s.mendLine l bits).poison := by
  unfold State.mendLine
  dsimp only
  split
  · simp [hx, hne]
  · exact hx

theorem mendLine_poison_whole (s : State) (l : Nat) : l ∉ (s.mendLine l (BitVec.allOnes 64)).poison := by
  unfold State.mendLine
  dsimp only
  rw [if_pos BitVec.or_allOnes]
  simp

section
variable (bits : Nat → BitVec 64) (ls : List Nat) (s : State)

theorem mendLines_poison_subset {x : Nat} (hx : x ∈ (ls.foldl (fun s l => s.mendLine l (bits l)) s).poison) : x ∈ s.poison := by
  induction ls generalizing s with
  | nil => exact hx
  | cons l t ih => exact mendLine_poison_subset _ _ _ (ih _ hx)

theorem mendLines_poison_ne {x : Nat} (hne : x ∉ ls) (hx : x ∈ s.poison) : x ∈ (ls.foldl (fun s l => s.mendLine l (bits l)) s).poison := by
  induction ls generalizing s with
  | nil => exact hx
  | cons l t ih =>
    simp only [List.mem_cons, not_or] at hne
    exact ih _ hne.2 (mendLine_poison_ne _ _ hne.1 hx)

theorem mendLines_poison_whole {x : Nat} (hx : x ∈ ls) (hb : bits x = BitVec.allOnes 64) :
    x ∉ (ls.foldl (fun s l => s.mendLine l (bits l)) s).poison := by
  induction ls generalizing s with
  | nil => simp at hx
  | cons l t ih =>
    rcases List.mem_cons.1 hx with rfl | h
    · exact fun hmem => mendLine_poison_whole s x (hb ▸ mendLines_poison_subset bits t _ hmem)
    · exact ih _ h

end

section
variable (s : State) (loc : Nat) (data : List (Byte × Byte))

theorem mend_poison_subset {l : Nat} (hl : l ∈ (s.mend loc data).poison) : l ∈ s.poison := mendLines_poison_subset _ _ _ hl

/-- A line that a write does not touch stays poisoned. -/
theorem mend_poison_apart {l : Nat} (hl : l ∈ s.poison) (ha : loc + data.length ≤ 64 * l ∨ 64 * l + 64 ≤ loc) :
    l ∈ (s.mend loc data).poison := by
  refine mendLines_poison_ne _ _ _ (fun hmem => ?_) hl
  have := (List.mem_filter.1 hmem).2
  simp only [overlaps, Bool.and_eq_true, decide_eq_true_eq] at this
  omega

/-- A line written whole is poisoned no more (R391). -/
theorem mend_poison_whole {l : Nat} (hd : ∀ x ∈ data, x.2 = 0xFF#8) (hl : l ∈ (s.mend loc data).poison) :
    ¬ (loc ≤ 64 * l ∧ 64 * l + 64 ≤ loc + data.length) := by
  rintro ⟨hlo, hhi⟩
  refine mendLines_poison_whole _ _ _ ?_ (lineBits_whole hd hlo hhi) hl
  have : overlaps loc data.length (l * 64) 64 = true := by
    simp only [overlaps, Bool.and_eq_true, decide_eq_true_eq]
    omega
  exact List.mem_filter.2 ⟨mend_poison_subset s loc data hl, this⟩

theorem mend_eq : s.mend loc data = { s with poison := (s.mend loc data).poison, mended := (s.mend loc data).mended } := by
  have hrest : memRest (s.mend loc data) = memRest s := mend_rest s loc data
  have hmem := s.mend_mem loc data
  generalize s.mend loc data = t at hrest hmem
  have : t = { memRest t with mem := t.mem, poison := t.poison, mended := t.mended } := rfl
  rw [this, hrest, hmem]
  rfl

end

/-! ### Application -/

/-- A scratchpad bank of another core than the issuer's. -/
theorem foreign_iff {w : Write} : (isScratch w.loc && scratchCore w.loc != w.by_.core) = true ↔
    0x200000000000 ≤ w.loc ∧ w.loc < 0x200000000000 + 1536 * 0x200000 ∧ (w.loc - 0x200000000000) / 0x200000 ≠ w.by_.core := by
  simp only [isScratch, Bool.and_eq_true, decide_eq_true_eq, bne_iff_ne]
  simp only [scratchCore, scratchLoc]
  omega

theorem bankOf_eq (l : Nat) : bankOf l = (l - 0x200000000000) / 0x10000 := by
  simp only [bankOf, scratchCore, scratchOff, scratchLoc]
  omega

theorem applyWrite_eq (s : State) (w : Write) : s.applyWrite w = { s with
    mem := Memory.writeMask s.mem w.loc w.data
    writes := s.writes.filter fun o => o.id != w.id
    served := if isScratch w.loc && scratchCore w.loc != w.by_.core then mset s.served (bankOf w.loc) w.by_.core else s.served
    poison := (s.mend w.loc w.data).poison
    mended := (s.mend w.loc w.data).mended
    dies := s.dies.setIfInBounds w.home { s.die w.home with applied := clkMax (s.die w.home).applied w.stamp } } := by
  unfold State.applyWrite
  rw [mend_eq]
  rfl

/-! ### The events -/

section
variable {s : State} {w : Write} (h : s.writes.find? (fun o => o.id == w.id) = some w)
include h

theorem writeApplied_eq : exec (.writeApplied w.id) s = .next (if w.home = w.src ∧ ¬ s.overtakes w = true then s.applyWrite w else s) := by
  change execWriteApplied w.id s = _
  simp only [execWriteApplied, h, Bool.and_eq_true, beq_iff_eq, Bool.not_eq_true', Bool.not_eq_true]
  split <;> rfl

theorem writeArrivalHome_stays (hs : w.home = w.src) : exec (.writeArrivalHome w.id) s = .next s := by
  change execWriteArrivalHome w.id s = _
  simp [execWriteArrivalHome, h, hs]

theorem writeArrivalHome_eq (hs : w.home ≠ w.src) (hw : w.held = false) : exec (.writeArrivalHome w.id) s =
    .next (if s.arrivalOk w then s.applyWrite w
      else { s with writes := s.writes.map fun o => if o.id = w.id then { o with held := true } else o }) := by
  change execWriteArrivalHome w.id s = _
  simp only [execWriteArrivalHome, h, hw, beq_eq_false_iff_ne.2 hs, Bool.or_false, Bool.false_eq_true, if_false]
  split <;> rfl

theorem heldWriteApply_eq (hw : w.held = true) :
    exec (.heldWriteApply w.id) s = .next (if s.arrivalOk w then s.applyWrite w else s) := by
  change execHeldWriteApply w.id s = _
  simp only [execHeldWriteApply, h, hw, Bool.true_and]
  split <;> rfl

end

/-- What a close marker waits for at its home (R66): the marker before it, and every write, row and update of its epoch. -/
def State.MarkerReady (s : State) (m : Marker) : Prop :=
  (s.die m.dst).cclk.getD m.src 0#48 = m.epoch ∧
  (∀ w ∈ s.writes, ¬ (w.src = m.src ∧ w.home = m.dst ∧ w.stamp.getD m.src 0#48 = m.epoch)) ∧
  (∀ u ∈ s.combines, ¬ (u.core / 192 = m.src ∧ homeDie u.loc = m.dst ∧ u.stamp.getD m.src 0#48 = m.epoch)) ∧
  ∀ u ∈ s.updates, ¬ (u.core / 192 = m.src ∧ u.home = m.dst ∧ u.stamp.getD m.src 0#48 = m.epoch ∧ (u.st = .flying ∨ ∃ c, u.st = .retry c))

theorem vget_eq_getD {β : Type} {n : Nat} (v : Vector β n) (i : Nat) (d : β) : vget v i d = v.getD i d := by
  by_cases h : i < n <;> simp [vget, Vector.getD, h]

theorem markerReady_iff {s : State} {m : Marker} : s.MarkerReady m ↔ (vget (s.die m.dst).cclk m.src 0#48 == m.epoch &&
    !(s.writes.any fun w => w.src == m.src && w.home == m.dst && vget w.stamp m.src 0#48 == m.epoch) &&
    !(s.updates.any fun u => coreDie u.core == m.src && u.home == m.dst && vget u.stamp m.src 0#48 == m.epoch && u.unsettled) &&
    !(s.combines.any fun u => coreDie u.core == m.src && homeDie u.loc == m.dst && vget u.stamp m.src 0#48 == m.epoch)) = true := by
  simp only [State.MarkerReady, vget_eq_getD, coreDie, Bool.and_eq_true, Bool.not_eq_true', List.any_eq_false, beq_iff_eq, unsettled_iff,
    and_assoc]
  exact and_congr_right' (and_congr_right' and_comm)

section
variable {s : State} {m : Marker} (h : s.markers.find? (fun o => o.id == m.id) = some m)
include h

theorem closeMarkerArrival_takes (hr : s.MarkerReady m) : exec (.closeMarkerArrival m.id) s = .next { s with
    markers := s.markers.filter fun x => x.id != m.id
    dies := s.dies.setIfInBounds m.dst { s.die m.dst with cclk := (s.die m.dst).cclk.setIfInBounds m.src (m.epoch + 1#48) } } := by
  change execCloseMarkerArrival m.id s = _
  unfold execCloseMarkerArrival
  simp only [h]
  rw [if_pos (markerReady_iff.1 hr)]
  rfl

theorem closeMarkerArrival_waits (hr : ¬ s.MarkerReady m) : exec (.closeMarkerArrival m.id) s = .next s := by
  change execCloseMarkerArrival m.id s = _
  unfold execCloseMarkerArrival
  simp only [h]
  rw [if_neg (mt markerReady_iff.2 hr)]

end

end Sys2Proof.Machine

section

open Sys2Proof Sys2Proof.Machine Sys2Proof.Safety

/-- Settles O51: the events answer as the model's order allows (`writeApplied_eq` and the like), and `applyWrite_eq` says what an application
leaves. -/
theorem writesReachTheirHomes : Obligations.WritesReachTheirHomes := by
  intro s hs
  refine ⟨fun w hw hh => ?_, fun m hm hd hsrc => ?_⟩
  · intro early d foreign applied
    have hearly : s.overtakes w = true ↔ early := overtakes_iff
    have happlied : ∀ {i : Instr}, exec i s = .next (s.applyWrite w) → applied i := by
      intro i hi
      refine ⟨_, _, _, _, hi.trans (congrArg _ (applyWrite_eq s w)), fun l => mend_poison_subset s w.loc w.data,
        fun l => mend_poison_apart s w.loc w.data, fun hall l => mend_poison_whole s w.loc w.data hall, fun hf => ?_, fun hf => ?_,
        fun j hj => read_writeMask_inside hs _ _ _ hj, fun a ha => read_writeMask_outside hs _ _ _ ha⟩
      · rw [if_pos (foreign_iff.2 hf), bankOf_eq]
      · rw [if_neg (mt foreign_iff.1 hf)]
    refine ⟨fun hhome => ⟨fun he => happlied ?_, fun he => ?_, writeArrivalHome_stays hw hhome⟩, fun hhome => ?_⟩
    · rw [writeApplied_eq hw, if_pos ⟨hhome, mt hearly.1 he⟩]
    · rw [writeApplied_eq hw, if_neg fun h => h.2 (hearly.2 he)]
    · intro behind ready
      have hready : s.arrivalOk w = true ↔ ready :=
        arrivalOk_iff.trans (and_congr (not_congr hearly) (and_congr (not_congr behind_iff) stampOk_iff))
      refine ⟨?_, fun hheld => ⟨fun hr => happlied ?_, fun hr => ?_⟩, fun hheld => ⟨fun hr => happlied ?_, fun hr => ?_⟩⟩
      · rw [writeApplied_eq hw, if_neg fun h => hhome h.1]
      · rw [writeArrivalHome_eq hw hhome hheld, if_pos (hready.2 hr)]
      · rw [writeArrivalHome_eq hw hhome hheld, if_neg (mt hready.1 hr)]
      · rw [heldWriteApply_eq hw hheld, if_pos (hready.2 hr)]
      · rw [heldWriteApply_eq hw hheld, if_neg (mt hready.1 hr)]
  · exact ⟨closeMarkerArrival_takes hm, closeMarkerArrival_waits hm⟩

end
end

section
/-! SUPPORT. Where an address word leads (R39), said on its number, and the traps of loads and stores that are delivered to an installed
handler (R124, R147). -/

namespace Sys2Proof.Machine

/-! ### Address words as numbers -/

theorem addr_space (a : Dword) : (a.extractLsb' 60 4).toNat = a.toNat / 2 ^ 60 := by
  have := a.isLt
  rw [BitVec.extractLsb'_toNat, Nat.shiftRight_eq_div_pow]
  omega

theorem addr_mbz (a : Dword) : a.extractLsb' 48 12 = 0#12 ↔ a.toNat / 2 ^ 48 % 2 ^ 12 = 0 := by
  rw [← BitVec.toNat_inj, BitVec.extractLsb'_toNat, Nat.shiftRight_eq_div_pow]
  rfl

theorem addr_low (a : Dword) : (a.extractLsb' 0 48).toNat = a.toNat % 2 ^ 48 := by
  rw [BitVec.extractLsb'_toNat]
  rfl

/-- The place that offset l of the space with code c names for n bytes (R39). -/
def placeIn (c : BitVec 4) (l n : Nat) : Except Byte Place :=
  let off := l % 0x200000
  match c with
  | 0#4 => if l + n ≤ 0x1000000000000 then .ok (.virt l) else .error cADDR_RANGE
  | 1#4 => if l < 0x200000 && off + n ≤ 0x200000 then .ok (.own off) else .error cADDR_RANGE
  | 2#4 =>
    let c := l / 0x200000
    if l < 0x20000000 && c < 192 && off + n ≤ 0x200000 then .ok (.window c off) else .error cADDR_RANGE
  | 3#4 => if l < 0x400000 && off + n ≤ 0x200000 then .ok (.stage (l / 0x200000 == 1) off) else .error cADDR_RANGE
  | _ => if l < 0x40000 && l + n ≤ 0x40000 then .ok (.acc l) else .error cADDR_RANGE

section
variable {a : Dword} {n : Nat}

theorem placeOf_of_space_past (hs : 5 ≤ a.toNat / 2 ^ 60) : placeOf a n = .error cADDR_SPACE := by
  unfold placeOf
  rw [if_pos (by rwa [addr_space])]

theorem placeOf_of_mbz (hs : a.toNat / 2 ^ 60 < 5) (hm : a.toNat / 2 ^ 48 % 2 ^ 12 ≠ 0) : placeOf a n = .error cADDR_RANGE := by
  unfold placeOf
  rw [if_neg (by rw [addr_space]; omega), if_pos (by simpa using mt (addr_mbz a).1 hm)]

variable (hm : a.toNat / 2 ^ 48 % 2 ^ 12 = 0)
include hm

/-- The check of an address word with a space code, its must-be-zero bits clear, is that of its space. -/
theorem placeOf_of_space {c : BitVec 4} (hs : a.toNat / 2 ^ 60 = c.toNat) (hc : c.toNat < 5) : placeOf a n = placeIn c (a.toNat % 2 ^ 48) n := by
  have hcode : a.extractLsb' 60 4 = c := BitVec.eq_of_toNat_eq ((addr_space a).trans hs)
  unfold placeOf
  rw [if_neg (by rw [hcode]; omega), if_neg (by simpa using (addr_mbz a).2 hm), hcode, addr_low]
  rfl

theorem placeOf_virt (hs : a.toNat / 2 ^ 60 = 0) (hn : a.toNat % 2 ^ 48 + n ≤ 2 ^ 48) : placeOf a n = .ok (.virt (a.toNat % 2 ^ 48)) := by
  rw [placeOf_of_space hm (c := 0#4) hs (by decide)]
  exact if_pos hn

theorem placeOf_own (hs : a.toNat / 2 ^ 60 = 1) (h0 : 0 < n) (hn : a.toNat % 2 ^ 48 + n ≤ 0x200000) :
    placeOf a n = .ok (.own (a.toNat % 2 ^ 48)) := by
  have hoff : a.toNat % 2 ^ 48 % 0x200000 = a.toNat % 2 ^ 48 := Nat.mod_eq_of_lt (by omega)
  rw [placeOf_of_space hm (c := 1#4) hs (by decide)]
  exact (if_pos (by simp only [Bool.and_eq_true, decide_eq_true_eq]; omega)).trans (by rw [hoff])

theorem placeOf_own_past (hs : a.toNat / 2 ^ 60 = 1) (hn : 0x200000 < a.toNat % 2 ^ 48 + n) : placeOf a n = .error cADDR_RANGE := by
  rw [placeOf_of_space hm (c := 1#4) hs (by decide)]
  exact if_neg (by simp only [Bool.and_eq_true, decide_eq_true_eq]; omega)

theorem placeOf_window (hs : a.toNat / 2 ^ 60 = 2) (hc : a.toNat % 2 ^ 48 / 0x200000 < 192) (hn : a.toNat % 2 ^ 48 % 0x200000 + n ≤ 0x200000) :
    placeOf a n = .ok (.window (a.toNat % 2 ^ 48 / 0x200000) (a.toNat % 2 ^ 48 % 0x200000)) := by
  rw [placeOf_of_space hm (c := 2#4) hs (by decide)]
  exact if_pos (by simp only [Bool.and_eq_true, decide_eq_true_eq]; omega)

theorem placeOf_stage (hs : a.toNat / 2 ^ 60 = 3) (hl : a.toNat % 2 ^ 48 < 0x400000) (hn : a.toNat % 2 ^ 48 % 0x200000 + n ≤ 0x200000) :
    placeOf a n = .ok (.stage (a.toNat % 2 ^ 48 / 0x200000 == 1) (a.toNat % 2 ^ 48 % 0x200000)) := by
  rw [placeOf_of_space hm (c := 3#4) hs (by decide)]
  exact if_pos (by simp only [Bool.and_eq_true, decide_eq_true_eq]; omega)

theorem placeOf_acc (hs : a.toNat / 2 ^ 60 = 4) (h0 : 0 < n) (hn : a.toNat % 2 ^ 48 + n ≤ 0x40000) :
    placeOf a n = .ok (.acc (a.toNat % 2 ^ 48)) := by
  rw [placeOf_of_space hm (c := 4#4) hs (by decide)]
  exact if_pos (by simp only [Bool.and_eq_true, decide_eq_true_eq]; omega)

end

/-- The address of an M form (R104). -/
theorem mAddr_eq (s : State) (a : BitVec 5) (i : BitVec 16) : s.mAddr a i = BitVec.ofInt 64 ((s.g a).toInt + i.toInt) := by
  unfold State.mAddr sext
  apply BitVec.eq_of_toInt_eq
  rw [BitVec.toInt_add, BitVec.toInt_ofInt, BitVec.toInt_signExtend_of_le (by omega)]

end Sys2Proof.Machine

namespace Sys2Proof.Safety

open Sys2Proof.Machine

/-! ### Traps -/

/-- Which block stream issues next does not look at the energy account. -/
theorem coreRest_switch {x y : Core} (h : coreRest x = coreRest y) : coreRest x.switch = coreRest y.switch := by
  have hrest (z : Core) : coreRest z.switch = coreRest (coreRest z).switch := by
    unfold Core.switch
    change coreRest (match (afterQ z.curq).find? fun i => z.q[i.val].st == .ready with | some i => _ | none => _) =
      coreRest (match (afterQ z.curq).find? fun i => z.q[i.val].st == .ready with | some i => _ | none => _)
    split <;> rfl
  rw [hrest, h, ← hrest]

/-- The block stream b with the registers of a trap (R147). -/
def trapNoted (cause sub : Byte) (info : Dword) (b : Block) : Block :=
  { b with trcause := cause, trsub := sub, trinfo := info, trpc := b.pc.setWidth 32, busy := false }

/-- The block stream b at its handler (R147). -/
def atHandler (b : Block) : Block := { b with hnd := true, pc := (b.trvec.extractLsb' 0 32).setWidth 64 }

theorem blk_modBlk (s : State) (f : Block → Block) : (s.modBlk f).blk = f s.blk := by
  unfold State.modBlk State.modQ
  simp only [State.blk, State.me, State.modCore_cur, State.core_modCore_self, Vector.getElem_set_self]

/-- A trap that no resolution answers goes to the installed handler (R147). -/
theorem trap_handled {t : State} {cause : Byte} (sub : Byte) (info : Dword) (hx : cause ≠ cXLATE) (hp : cause ≠ cPERM)
    (hv : t.blk.trvec.getLsbD 32 = true) (hh : t.blk.hnd = false) :
    t.trap cause sub info = ((t.modBlk (trapNoted cause sub info)).modBlk atHandler).endBlock := by
  have hnoted : (t.modBlk fun b => { b with trcause := cause, trsub := sub, trinfo := info, trpc := t.blk.pc.setWidth 32, busy := false }) =
    t.modBlk (trapNoted cause sub info) := rfl
  have hfinal : (cause == cXLATE || cause == cPERM) = false := by simp [hx, hp]
  have hinstalled : (!(trapNoted cause sub info t.blk).trvec.getLsbD 32 || (trapNoted cause sub info t.blk).hnd) = false := by
    change (!t.blk.trvec.getLsbD 32 || t.blk.hnd) = false
    rw [hv, hh]
    rfl
  unfold State.trap
  simp only [hnoted, blk_modBlk, hfinal, hinstalled, Bool.false_and, Bool.false_eq_true, if_false]
  rfl

theorem CoreStep.blk {s t : State} {c : Core} (h : CoreStep s t s.cur.k.val c) : t.blk = c.q[s.cur.q.val] := by
  simp only [State.blk, State.me, h.cur, h.core_q]

/-- A delivered trap after a step that has not changed the acting block stream. -/
theorem CoreStep.trap {s t : State} {cause : Byte} (sub : Byte) (info : Dword) (h : CoreStep s t s.cur.k.val s.me) (hx : cause ≠ cXLATE)
    (hp : cause ≠ cPERM) (hv : s.blk.trvec.getLsbD 32 = true) (hh : s.blk.hnd = false) :
    CoreStep s (t.trap cause sub info) s.cur.k.val (Core.switch (blkCore s (atHandler (trapNoted cause sub info s.blk)))) := by
  have hblk : t.blk = s.blk := h.blk
  have hend := ((h.modBlk (trapNoted cause sub info)).modBlk atHandler).modCore Core.switch fun _ _ => coreRest_switch
  rw [trap_handled sub info hx hp (hblk ▸ hv) (hblk ▸ hh), State.endBlock, State.modBlk_cur, State.modBlk_cur, h.cur]
  simp only [Vector.getElem_set_self, Vector.set_set] at hend
  exact hend

/-- The registers of the trap and the handler's address as numbers. -/
theorem atHandler_trapNoted (cause sub : Byte) (info : Dword) (b : Block) : atHandler (trapNoted cause sub info b) =
    { b with trcause := cause, trsub := sub, trinfo := info, trpc := BitVec.ofNat 32 b.pc.toNat,
             hnd := true, pc := BitVec.ofNat 64 (b.trvec.toNat % 2 ^ 32), busy := false } := by
  have hpc : (b.trvec.extractLsb' 0 32).setWidth 64 = BitVec.ofNat 64 (b.trvec.toNat % 2 ^ 32) := by
    apply BitVec.eq_of_toNat_eq
    simp [BitVec.extractLsb'_toNat]
  simp only [atHandler, trapNoted, hpc, BitVec.ofNat_toNat]

/-! ### Accesses that find no location -/

/-- In every state an access of n bytes at address word ad finds no location, for this cause, and changes nothing. -/
def Unlocated (ad : Dword) (n : Nat) (cause : Byte) : Prop := ∀ (s : State) (acc : Access), s.seqLocate ad n acc = (.error cause, s)

section
variable {ad : Dword} {n : Nat} {z : Byte}

theorem unlocated_of_error (h : placeOf ad n = .error z) : Unlocated ad n z := fun s acc => by
  unfold State.seqLocate
  simp only [h]

theorem unlocated_of_stage {up : Bool} {off : Nat} (h : placeOf ad n = .ok (.stage up off)) : Unlocated ad n cADDR_SPACE := fun s acc => by
  unfold State.seqLocate
  simp only [h]

theorem unlocated_of_acc {off : Nat} (h : placeOf ad n = .ok (.acc off)) : Unlocated ad n cADDR_SPACE := fun s acc => by
  unfold State.seqLocate
  simp only [h]

theorem unlocated_of_misaligned {off : Nat} (h : placeOf ad n = .ok (.own off)) (hm : off % n ≠ 0) : Unlocated ad n cMISALIGN := fun s acc => by
  unfold State.seqLocate
  simp only [h, hm, if_false]

variable {s : State} {d a : BitVec 5} {i : BitVec 16} (h : Unlocated (s.mAddr a i) n z)
include h

theorem load_traps (ext : Nat → Dword) : s.load d a i n ext = (s.charge s.cur.k.val 0 0 0xF 1).trap z 0#8 (s.mAddr a i) := by
  have hread : (s.charge s.cur.k.val 0 0 0xF 1).seqRead (s.mAddr a i) n = (.error z, s.charge s.cur.k.val 0 0 0xF 1) := by
    unfold State.seqRead
    rw [h]
  unfold State.load
  dsimp only
  rw [hread]

theorem store_traps : s.store d a i n = (s.charge s.cur.k.val 0 0 0xF 1).trap z 0#8 (s.mAddr a i) := by
  have hwrite : (s.charge s.cur.k.val 0 0 0xF 1).seqWrite (s.mAddr a i) n (s.g d) = (.error z, s.charge s.cur.k.val 0 0 0xF 1) := by
    unfold State.seqWrite
    rw [h]
  unfold State.store
  dsimp only
  rw [hwrite]

end

/-- The words that load or store, by the number of bytes. -/
def accessWords (d a : BitVec 5) (i : BitVec 16) : List (Nat × Instr) :=
  [(1, .ldBz d a i), (1, .ldBs d a i), (2, .ldHz d a i), (2, .ldHs d a i), (4, .ldWz d a i), (4, .ldWs d a i),
   (8, .ldDz d a i), (1, .stB d a i), (2, .stH d a i), (4, .stW d a i), (8, .stD d a i)]

/-- Each of them is a load or a store of its number of bytes. -/
theorem accessWords_exec {d a : BitVec 5} {i : BitVec 16} {x : Nat × Instr} (hx : x ∈ accessWords d a i) (s : State) :
    0 < x.1 ∧ ((∃ ext, exec x.2 s = .next (s.load d a i x.1 ext)) ∨ exec x.2 s = .next (s.store d a i x.1)) := by
  simp only [accessWords, List.mem_cons, List.not_mem_nil, or_false] at hx
  rcases hx with rfl | rfl | rfl | rfl | rfl | rfl | rfl | rfl | rfl | rfl | rfl
  iterate 7 exact ⟨Nat.succ_pos _, .inl ⟨_, rfl⟩⟩
  iterate 4 exact ⟨Nat.succ_pos _, .inr rfl⟩

theorem accessWords_trap {s : State} {d a : BitVec 5} {i : BitVec 16} {x : Nat × Instr} {z : Byte} (hx : x ∈ accessWords d a i)
    (h : Unlocated (s.mAddr a i) x.1 z) : exec x.2 s = .next ((s.charge s.cur.k.val 0 0 0xF 1).trap z 0#8 (s.mAddr a i)) := by
  obtain ⟨-, ⟨ext, he⟩ | he⟩ := accessWords_exec hx s
  · rw [he, load_traps h]
  · rw [he, store_traps h]

end Sys2Proof.Safety

section

open Sys2Proof Sys2Proof.Machine Sys2Proof.Safety

/-- Settles O25: in each case the address word names no location (`Unlocated`), and the trap goes to the handler (`CoreStep.trap`). -/
theorem loadsAndStoresTrapOnBadAddresses : Obligations.LoadsAndStoresTrapOnBadAddresses := by
  intro s d a i hv hh ad space mbz low x hx traps
  have had : s.mAddr a i = ad := mAddr_eq s a i
  have hpos : 0 < x.1 := (accessWords_exec (d := d) (a := a) (i := i) hx s).1
  have htraps : ∀ {z : Byte}, z ≠ cXLATE → z ≠ cPERM → Unlocated ad x.1 z → traps z := by
    intro z hxl hp hz
    have hexec := accessWords_trap hx (had ▸ hz)
    have hstep := (charge_step s s.cur.k.val 0 0 0xF 1).trap 0#8 (s.mAddr a i) hxl hp hv hh
    rw [had] at hexec hstep
    rw [atHandler_trapNoted] at hstep
    exact ⟨_, hexec, hstep⟩
  refine ⟨fun hs => ?_, fun hs hm => ?_, fun hs hm hn hl => ?_, fun hs hm hn => ?_, fun hs hm hn => ?_, fun hs hm hn ha => ?_⟩
  · exact htraps (by decide) (by decide) (unlocated_of_error (placeOf_of_space_past hs))
  · exact htraps (by decide) (by decide) (unlocated_of_error (placeOf_of_mbz hs hm))
  · exact htraps (by decide) (by decide) (unlocated_of_stage (placeOf_stage hm hs hl hn))
  · exact htraps (by decide) (by decide) (unlocated_of_acc (placeOf_acc hm hs hpos hn))
  · exact htraps (by decide) (by decide) (unlocated_of_error (placeOf_own_past hm hs hn))
  · exact htraps (by decide) (by decide) (unlocated_of_misaligned (placeOf_own hm hs hpos hn) ha)

end
end

section
/-! SUPPORT. Translations that walk (R48, R52, R53): what a translation reads of the state, and what it leaves. -/

namespace Sys2Proof.Machine

/-! ### What a walk and its checks read -/

section
variable {s t : State} (hm : t.mem = s.mem) (hp : t.poison = s.poison)
include hm hp

theorem walkFrom_congr (va fuel table : Nat) (seen : List Nat) : t.walkFrom va fuel table seen = s.walkFrom va fuel table seen := by
  have hpte (a : Nat) : t.pte a = s.pte a := by
    unfold State.pte State.poisoned
    rw [hm, hp]
  induction fuel generalizing table seen with
  | zero => rfl
  | succ n ih =>
    unfold State.walkFrom
    simp only [hpte, ih]

variable {f : Byte} (hf : (t.func f).troot = (s.func f).troot)
include hf

theorem walk_congr (va : Nat) : t.walk f va = s.walk f va := by
  unfold State.walk
  rw [hf, walkFrom_congr hm hp]

theorem walkReads_congr (va : Nat) : t.walkReads f va = s.walkReads f va := by
  unfold State.walkReads
  rw [hf, walkFrom_congr hm hp]

theorem check_congr (hr : t.rot = s.rot) (hc : t.cxl = s.cxl) (va : Nat) (acc : Access) (seq part : Bool) :
    t.check f va acc seq part = s.check f va acc seq part := by
  unfold State.check State.populated State.rotOf
  rw [walk_congr hm hp hf, hr, hc]

end

/-- The TLB page of a translation that has passed its checks (R53). -/
theorem tlbPage_of_walk {s : State} {f : Byte} {va : Nat} {lf : Leaf} (h : s.walk f va = .ok lf) (r : Nat × Bool × Bool) :
    s.tlbPage f va r = ⟨f, va / 0x10000, r.1 / 0x10000, r.2.1, r.2.2, va / lf.size * (lf.size / 0x10000), lf.size / 0x10000⟩ := by
  unfold State.tlbPage
  rw [h]

/-- A translation whose page no cached one covers, and whose walk and checks succeed, walks and caches its page (R53). -/
theorem translate_walks {s : State} {k : Nat} {f : Byte} {va : Nat} {acc : Access} {seq : Bool} {r : Nat × Bool × Bool}
    (hmiss : ∀ e ∈ (s.core k).tlb, ¬ (e.func = f ∧ e.vpage = va / 0x10000)) (hc : s.check f va acc seq false = .ok r) :
    s.translate k f va acc seq =
      (.ok r.1, (s.walked k (s.walkReads f va)).modCore k fun c => { c with tlb := tlbPut c.tlb (s.tlbPage f va r) }) := by
  have hnone : ((s.core k).tlb.find? fun e => e.func == f && e.vpage == va / 0x10000) = none := by
    rw [List.find?_eq_none]
    intro e he
    simpa using hmiss e he
  unfold State.translate
  simp only [hnone, hc, Option.map_none, Option.isSome_none, Bool.not_true, Bool.false_and, Bool.false_eq_true, if_true, if_false]
  rfl

end Sys2Proof.Machine

namespace Sys2Proof.Safety

open Sys2Proof.Machine

/-! ### What a step of a core keeps -/

/-- The state in which die d has observed homes, in order (R66). -/
def observed (s : State) (d : Nat) (hs : List Nat) : State := hs.foldl (fun s h => s.observe d h) s

theorem observed_eq (s : State) (d : Nat) (hs : List Nat) : observed s d hs = withDies s (observed s d hs).dies := by
  unfold observed
  induction hs generalizing s with
  | nil => rfl
  | cons h t ih => exact ih (s.observe d h)

theorem observed_cur (s : State) (d : Nat) (hs : List Nat) : (observed s d hs).cur = s.cur := by rw [observed_eq]; rfl
theorem observed_writes (s : State) (d : Nat) (hs : List Nat) : (observed s d hs).writes = s.writes := by rw [observed_eq]; rfl
theorem observed_poison (s : State) (d : Nat) (hs : List Nat) : (observed s d hs).poison = s.poison := by rw [observed_eq]; rfl
theorem observed_mem (s : State) (d : Nat) (hs : List Nat) : (observed s d hs).mem = s.mem := by rw [observed_eq]; rfl

theorem emit_comm (s : State) (cs : Map Core) (fs : Map Func) (w : Writer) (cmd : Option Nat) (loc : Nat) (data : List (Byte × Byte)) :
    ({ s with cores := cs, funcs := fs } : State).emit w cmd loc data = { s.emit w cmd loc data with cores := cs, funcs := fs } := by
  unfold State.emit State.countSent
  dsimp only
  split <;> rfl

theorem emit_keeps (s : State) (w : Writer) (cmd : Option Nat) (loc : Nat) (data : List (Byte × Byte)) :
    (s.emit w cmd loc data).cores = s.cores ∧ (s.emit w cmd loc data).funcs = s.funcs ∧ (s.emit w cmd loc data).cur = s.cur := by
  unfold State.emit State.countSent
  dsimp only
  split <;> exact ⟨rfl, rfl, rfl⟩

/-- A read of a stream's own bytes looks at memory and at writes on their way (R125). -/
theorem ownByte_congr {s t : State} (hw : t.writes = s.writes) (hm : ∀ a, Memory.read t.mem a = Memory.read s.mem a) (w : Writer) (a : Nat) :
    t.ownByte w a = s.ownByte w a := by
  unfold State.ownByte
  rw [hw, hm]

/-- A change of the acting block stream, by the acting stream's number. -/
theorem CoreStep.modBlk_at {x : Actor} {s t : State} {c : Core} (h : CoreStep s t x.k.val c) (hx : s.cur = x) (f : Block → Block) :
    CoreStep s (t.modBlk f) x.k.val { c with q := c.q.set x.q.val (f c.q[x.q.val]) } := by
  subst hx
  exact h.modBlk f

section
variable {s t : State} {k : Nat} {c : Core} (h : CoreStep s t k c)
include h

/-- A walk's reads: their homes observed, their bytes charged (R53, R66, R262). -/
theorem CoreStep.walked (as : List Nat) : CoreStep (observed s (k / 192) (as.map homeDie)) (t.walked k as) k c := by
  unfold State.walked observed
  induction as generalizing s t with
  | nil => exact h
  | cons a rest ih => exact ih (((h.observe (k / 192) (homeDie a)).charge 1 3 0xF 8).charge 1 4 0xF (8 * hops (homeDie a) (coreDie k)))

/-- A write put on its way goes with a step of a core (R62, R66). -/
theorem CoreStep.emit (w : Writer) (cmd : Option Nat) (loc : Nat) (data : List (Byte × Byte)) :
    CoreStep (s.emit w cmd loc data) (t.emit w cmd loc data) k c := by
  have hcomm : t.emit w cmd loc data = { s.emit w cmd loc data with cores := t.cores, funcs := t.funcs } := by
    rw [← emit_comm]
    exact congrArg (State.emit · w cmd loc data) h.rest
  have hcore (u : State) (j : Nat) : (u.emit w cmd loc data).core j = u.core j := core_of_cores (emit_keeps ..).1 j
  have hfunc (u : State) (f : Byte) : (u.emit w cmd loc data).func f = u.func f := by
    unfold State.func
    rw [(emit_keeps ..).2.1]
  refine ⟨?_, ?_, fun j hj => ?_, fun f => ?_, fun a => ?_⟩
  · rw [hcomm]
  · rw [hcore]
    exact h.core
  · rw [hcore, hcore]
    exact h.cores j hj
  · rw [hfunc, hfunc]
    exact h.funcs f
  · rw [State.emit_mem, State.emit_mem]
    exact h.mem a

theorem CoreStep.writes : t.writes = s.writes := by rw [h.rest]
theorem CoreStep.poison : t.poison = s.poison := by rw [h.rest]

/-- What core k knows of its function, and its cached translations. -/
theorem CoreStep.funcOf : (t.core k).funcOf = c.funcOf := by
  have := congrArg (fun z : Core => z.funcOf) h.core
  exact this

theorem CoreStep.tlb : (t.core k).tlb = c.tlb := by
  have := congrArg Core.tlb h.core
  exact this

theorem CoreStep.troot (f : Byte) : (t.func f).troot = (s.func f).troot := by
  have := congrArg Func.troot (h.funcs f)
  exact this

/-- The cores that die windows reach (R47) are as before. -/
theorem CoreStep.partCores (f : Byte) (d : Nat) : t.partCores f d = s.partCores f d := by
  have hpart : (t.func f).part = (s.func f).part := by
    have := congrArg Func.part (h.funcs f)
    exact this
  have hcore (j : Nat) : t.corePart j = s.corePart j := by
    unfold State.corePart
    rw [h.rest]
  have hfailed : t.failed = s.failed := by rw [h.rest]
  unfold State.partCores
  simp only [hpart, hcore, hfailed]

end

/-! ### Accesses that find their location -/

/-- The n bytes at address va lie aligned at location l, for an access of the acting core: in a window of a core of its function's partition
on its die, or behind a walk whose entries' homes are hs; c is the core with the translation cached (R47, R52, R53, R124). -/
def Lands (s : State) (va n : Nat) (acc : Access) (l : Nat) (c : Core) (hs : List Nat) : Prop :=
  let k := s.cur.k.val
  let f := s.me.funcOf
  (∃ x o, va = 0x2000000000000000 + 0x200000 * x + o ∧ x < 192 ∧ o + n ≤ 0x200000 ∧ o % n = 0 ∧
    192 * (k / 192) + x ∈ s.partCores f (k / 192) ∧ l = 0x200000000000 + (192 * (k / 192) + x) * 0x200000 + o ∧ c = s.me ∧ hs = []) ∨
  (∃ lf w ro, va + n ≤ 2 ^ 48 ∧ l % n = 0 ∧ (∀ e ∈ s.me.tlb, ¬ (e.func = f ∧ e.vpage = va / 0x10000)) ∧ s.walk f va = .ok lf ∧
    s.check f va acc true false = .ok (l, w, ro) ∧ hs = (s.walkReads f va).map homeDie ∧
    c = { s.me with tlb := tlbPut s.me.tlb ⟨f, va / 0x10000, l / 0x10000, w, ro, va / lf.size * (lf.size / 0x10000), lf.size / 0x10000⟩ })

section
variable {s : State} {ad : Dword} {n l : Nat} {acc : Access} {c : Core} {hs : List Nat}

theorem Lands.q (h : Lands s ad.toNat n acc l c hs) : c.q = s.me.q := by
  rcases h with ⟨x, o, -, -, -, -, -, -, rfl, -⟩ | ⟨lf, w, ro, -, -, -, -, -, -, rfl⟩ <;> rfl

theorem seqLocate_window {t : State} {x o : Nat} (hp : placeOf ad n = .ok (.window x o)) (ho : o % n = 0)
    (hw : 192 * (t.cur.k.val / 192) + x ∈ t.partCores t.me.funcOf (t.cur.k.val / 192)) :
    t.seqLocate ad n acc = (.ok (scratchLoc (192 * (t.cur.k.val / 192) + x) + o), t) := by
  have hok : t.windowOk t.cur.k.val x = true := List.contains_iff_mem.2 hw
  unfold State.seqLocate
  simp only [hp, ho, hok]
  rfl

theorem seqLocate_virt {t u : State} {va : Nat} (hp : placeOf ad n = .ok (.virt va))
    (ht : t.translate t.cur.k.val t.me.funcOf va acc true = (.ok l, u)) (hl : l % n = 0) : t.seqLocate ad n acc = (.ok l, u) := by
  unfold State.seqLocate
  simp only [hp, ht, hl, if_true]

/-- Such an access finds its location, also in the state in which its word has been charged (R124). -/
theorem Lands.locates (h : Lands s ad.toNat n acc l c hs) (h0 : 0 < n) {t : State} (ht : CoreStep s t s.cur.k.val s.me) :
    ∃ u, t.seqLocate ad n acc = (.ok l, u) ∧ CoreStep (observed s (s.cur.k.val / 192) hs) u s.cur.k.val c := by
  have hme : t.me = t.core s.cur.k.val := by rw [State.me, ht.cur]
  have hfunc : t.me.funcOf = s.me.funcOf := by rw [hme, ht.funcOf]
  rcases h with ⟨x, o, hva, hx, ho, hal, hwin, rfl, rfl, rfl⟩ | ⟨lf, w, ro, hva, hal, hmiss, hwalk, hcheck, rfl, rfl⟩
  · have hp : placeOf ad n = .ok (.window x o) := by
      rw [placeOf_window (by omega) (by omega) (by omega) (by omega)]
      congr 2 <;> omega
    refine ⟨t, ?_, ht⟩
    rw [seqLocate_window hp hal (by rwa [ht.cur, ht.partCores, hfunc]), ht.cur]
    rfl
  · have hp : placeOf ad n = .ok (.virt ad.toNat) := by
      have hlow : ad.toNat % 2 ^ 48 = ad.toNat := Nat.mod_eq_of_lt (by omega)
      rw [placeOf_virt (by omega) (by omega) (by omega), hlow]
    have hmem : t.mem = s.mem := by rw [ht.rest]
    have hrot : t.rot = s.rot := by rw [ht.rest]
    have hcxl : t.cxl = s.cxl := by rw [ht.rest]
    have hcheck' : t.check s.me.funcOf ad.toNat acc true false = .ok (l, w, ro) := by
      rwa [check_congr hmem ht.poison (ht.troot _) hrot hcxl]
    have hwalk' : t.walk s.me.funcOf ad.toNat = .ok lf := by rwa [walk_congr hmem ht.poison (ht.troot _)]
    have htr := translate_walks (k := s.cur.k.val) (by rwa [ht.tlb]) hcheck'
    rw [walkReads_congr hmem ht.poison (ht.troot _), tlbPage_of_walk hwalk'] at htr
    refine ⟨_, seqLocate_virt hp (by rw [ht.cur, hfunc]; exact htr) hal, ?_⟩
    refine (ht.walked _).modCore _ fun y z hyz => ?_
    have hput := congrArg (fun v : Core => coreRest { v with
      tlb := tlbPut v.tlb ⟨s.me.funcOf, ad.toNat / 0x10000, l / 0x10000, w, ro, ad.toNat / lf.size * (lf.size / 0x10000), lf.size / 0x10000⟩ }) hyz
    exact hput

/-- A read whose place is found, of HBM4E without poison; the die observes the home (R66). -/
theorem seqRead_ok {t u : State} (hl : t.seqLocate ad n .read = (.ok l, u)) (hp : isHbm l = true → u.poisoned l n = false) :
    t.seqRead ad n = (.ok (natOfBytes (u.seqBytes l n)), u.observe (coreDie u.cur.k.val) (homeDie l)) := by
  have hclean : (isHbm l && u.poisoned l n) = false := by
    cases hh : isHbm l with
    | false => rfl
    | true => exact hp hh
  unfold State.seqRead
  rw [hl]
  simp only [hclean, Bool.false_eq_true, if_false]

end

section
variable {s : State} {d a : BitVec 5} {i : BitVec 16} {n l : Nat} {c : Core} {hs : List Nat}

/-- A load whose access lands (R123, R124). -/
theorem load_lands (ext : Nat → Dword) (h : Lands s (s.mAddr a i).toNat n .read l c hs) (h0 : 0 < n)
    (hp : isHbm l = true → s.poisoned l n = false) : ∃ b,
    RegPut s.blk b d (ext (natOfBytes ((List.range n).map fun j => s.ownByte ⟨s.cur.k.val, s.cur.q.val⟩ (l + j)))) ∧
    CoreStep (observed s (s.cur.k.val / 192) (hs ++ [homeDie l])) (s.load d a i n ext) s.cur.k.val { c with q := c.q.set s.cur.q.val b } := by
  obtain ⟨u, hloc, hu⟩ := h.locates h0 (charge_step s s.cur.k.val 0 0 0xF 1)
  have hcur : u.cur = s.cur := hu.cur.trans (observed_cur ..)
  have hwrites : u.writes = s.writes := hu.writes.trans (observed_writes ..)
  have hmem (x : Nat) : Memory.read u.mem x = Memory.read s.mem x := by rw [hu.mem, observed_mem]
  have hread := seqRead_ok hloc fun hh => by
    unfold State.poisoned
    rw [hu.poison, observed_poison]
    exact hp hh
  have hbytes : u.seqBytes l n = (List.range n).map fun j => s.ownByte ⟨s.cur.k.val, s.cur.q.val⟩ (l + j) := by
    rw [seqBytes_eq, hcur]
    simp only [ownByte_congr hwrites hmem]
  have hseen : observed s (s.cur.k.val / 192) (hs ++ [homeDie l]) =
      (observed s (s.cur.k.val / 192) hs).observe (s.cur.k.val / 192) (homeDie l) := by
    simp only [observed, List.foldl_append, List.foldl_cons, List.foldl_nil]
  have hstep := (hu.observe (s.cur.k.val / 192) (homeDie l)).charge 0 2 0xF n
  rw [load_of hread, hbytes, hcur, hseen]
  refine ⟨_, setReg_step_put _ _ _, ?_⟩
  have hput := hstep.modBlk_at (observed_cur ..) fun b =>
    (b.setReg d (ext (natOfBytes ((List.range n).map fun j => s.ownByte ⟨s.cur.k.val, s.cur.q.val⟩ (l + j))))).step
  rw [show c.q[s.cur.q.val] = s.blk by simp only [h.q]; rfl] at hput
  exact hput

/-- A store whose access lands (R123, R124, R62). -/
theorem store_lands (h : Lands s (s.mAddr a i).toNat n .write l c hs) (h0 : 0 < n) :
    CoreStep ((observed s (s.cur.k.val / 192) hs).emit ⟨s.cur.k.val, s.cur.q.val⟩ none l
        ((List.range n).map fun j => (BitVec.ofNat 8 ((s.g d).toNat / 256 ^ j), 0xFF#8)))
      (s.store d a i n) s.cur.k.val { c with q := c.q.set s.cur.q.val (after s.blk) } := by
  obtain ⟨u, hloc, hu⟩ := h.locates h0 (charge_step s s.cur.k.val 0 0 0xF 1)
  have hcur : u.cur = s.cur := hu.cur.trans (observed_cur ..)
  have hwriter : u.seqWriter = ⟨s.cur.k.val, s.cur.q.val⟩ := by rw [State.seqWriter, hcur]
  have hstep := (hu.emit ⟨s.cur.k.val, s.cur.q.val⟩ none l (wholeBytes (bytesOfNat n (s.g d).toNat))).charge 0 2 0xF n
  have hemit : ((observed s (s.cur.k.val / 192) hs).emit ⟨s.cur.k.val, s.cur.q.val⟩ none l (wholeBytes (bytesOfNat n (s.g d).toNat))).cur =
      s.cur := by
    rw [(emit_keeps ..).2.2, observed_cur]
  rw [store_of (seqWrite_of hloc), hwriter, ← wholeBytes_eq]
  have hput := hstep.modBlk_at hemit Block.step
  rw [show c.q[s.cur.q.val] = s.blk by simp only [h.q]; rfl] at hput
  exact hput

end

/-- The words that load, by the number of bytes and by whether they extend the sign. -/
def loadWords (d a : BitVec 5) (i : BitVec 16) : List (Instr × Nat × Bool) :=
  [(.ldBz d a i, 1, false), (.ldBs d a i, 1, true), (.ldHz d a i, 2, false), (.ldHs d a i, 2, true), (.ldWz d a i, 4, false),
   (.ldWs d a i, 4, true), (.ldDz d a i, 8, false)]

theorem loadWords_exec {d a : BitVec 5} {i : BitVec 16} {x : Instr × Nat × Bool} (hx : x ∈ loadWords d a i) (s : State) : 0 < x.2.1 ∧
    exec x.1 s = .next (s.load d a i x.2.1 fun v =>
      if x.2.2 then BitVec.ofInt 64 (BitVec.ofNat (8 * x.2.1) v).toInt else BitVec.ofNat 64 v) := by
  simp only [loadWords, List.mem_cons, List.not_mem_nil, or_false] at hx
  rcases hx with rfl | rfl | rfl | rfl | rfl | rfl | rfl <;> exact ⟨Nat.succ_pos _, rfl⟩

/-- The words that store, by the number of bytes. -/
def storeWords (d a : BitVec 5) (i : BitVec 16) : List (Instr × Nat) := [(.stB d a i, 1), (.stH d a i, 2), (.stW d a i, 4), (.stD d a i, 8)]

theorem storeWords_exec {d a : BitVec 5} {i : BitVec 16} {x : Instr × Nat} (hx : x ∈ storeWords d a i) (s : State) :
    0 < x.2 ∧ exec x.1 s = .next (s.store d a i x.2) := by
  simp only [storeWords, List.mem_cons, List.not_mem_nil, or_false] at hx
  rcases hx with rfl | rfl | rfl | rfl <;> exact ⟨Nat.succ_pos _, rfl⟩

end Sys2Proof.Safety

section

open Sys2Proof Sys2Proof.Machine Sys2Proof.Safety

/-- Settles O30: the statement's landing is `Lands`, at which loads and stores do what `load_lands` and `store_lands` say. -/
theorem loadsAndStoresElsewhere : Obligations.LoadsAndStoresElsewhere := by
  intro s d a i k q f ad va page seen lands
  have had : s.mAddr a i = ad := mAddr_eq s a i
  have hlands : ∀ {acc n l c hs}, lands acc n l c hs → Lands s (s.mAddr a i).toNat n acc l c hs := by
    intro acc n l c hs h
    rw [had]
    exact h
  constructor
  · intro x hx l c hs h hp v
    obtain ⟨h0, hexec⟩ := loadWords_exec (d := d) (a := a) (i := i) hx s
    obtain ⟨b, hput, hstep⟩ := load_lands (d := d) _ (hlands h) h0 hp
    exact ⟨_, b, hexec, hput, hstep⟩
  · intro x hx l c hs h
    obtain ⟨h0, hexec⟩ := storeWords_exec (d := d) (a := a) (i := i) hx s
    exact ⟨_, hexec, store_lands (hlands h) h0⟩

end
end

section
/-! SUPPORT. A state with other consequences still to come: what a transfer command and the order look at is the same, and translations
commute with the change. -/

namespace Sys2Proof.Machine

open Sys2Proof.Safety

/-- A state with other consequences still to come. -/
def withDue (s : State) (l : List Act) : State := { s with due := l }

section
variable (s : State) (l : List Act)

theorem check_withDue (f : Byte) (va : Nat) (acc : Access) (seq part : Bool) :
    (withDue s l).check f va acc seq part = s.check f va acc seq part := check_congr (by rfl) (by rfl) (by rfl) (by rfl) (by rfl) ..

theorem walk_withDue (f : Byte) (va : Nat) : (withDue s l).walk f va = s.walk f va := walk_congr (by rfl) (by rfl) (by rfl) ..

theorem walkReads_withDue (f : Byte) (va : Nat) : (withDue s l).walkReads f va = s.walkReads f va := walkReads_congr (by rfl) (by rfl) (by rfl) ..

theorem hostLocs_withDue (f : Byte) (va : Dword) (acc : Access) (part : Bool) (n : Nat) :
    (withDue s l).hostLocs f va acc part n = s.hostLocs f va acc part n := by
  induction n generalizing va with
  | zero => rfl
  | succ n ih =>
    unfold State.hostLocs State.hostCheck
    rw [check_withDue, ih]

theorem combineOut_withDue (k : Nat) (c : Cmd) : (withDue s l).combineOut k c = s.combineOut k c := by
  unfold State.combineOut State.hostRead
  simp only [hostLocs_withDue]
  rfl

/-- Whether a command must wait does not depend on the consequences still to come. -/
theorem performBlocked_withDue (k : Nat) (c : Cmd) : (withDue s l).performBlocked k c = s.performBlocked k c := by
  have hwaits : (withDue s l).waitsFor k c = s.waitsFor k c := by
    funext e
    unfold State.waitsFor
    simp only [combineOut_withDue]
  unfold State.performBlocked
  rw [hwaits]
  rfl

theorem account_withDue (f : Byte) (x : Nat) : (withDue s l).account f x = withDue (s.account f x) l := by
  unfold State.account
  split <;> rfl

theorem meter_withDue (k x : Nat) : (withDue s l).meter k x = withDue (s.meter k x) l := by
  have hcore : (withDue s l).core k = s.core k := rfl
  unfold State.meter
  rw [hcore]
  by_cases hx : x = 0
  · rw [if_pos hx, if_pos hx]
  · rw [if_neg hx, if_neg hx]
    dsimp only
    cases (s.core k).job with
    | none => rfl
    | some j =>
      change (withDue (s.setCore k _) l).account j.func x = withDue ((s.setCore k _).account j.func x) l
      exact account_withDue ..

theorem charge_withDue (k e c f n : Nat) : (withDue s l).charge k e c f n = withDue (s.charge k e c f n) l := meter_withDue s l k _

end

theorem walked_withDue (s : State) (l : List Act) (k : Nat) (as : List Nat) : (withDue s l).walked k as = withDue (s.walked k as) l := by
  unfold State.walked
  induction as generalizing s with
  | nil => rfl
  | cons a t ih =>
    simp only [List.foldl_cons]
    rw [← ih, ← charge_withDue, ← charge_withDue]
    rfl

theorem translate_withDue (s : State) (l : List Act) (k : Nat) (f : Byte) (va : Nat) (acc : Access) (seq : Bool) :
    (withDue s l).translate k f va acc seq = ((s.translate k f va acc seq).1, withDue (s.translate k f va acc seq).2 l) := by
  have hcore : (withDue s l).core k = s.core k := rfl
  have hpage (r : Nat × Bool × Bool) : (withDue s l).tlbPage f va r = s.tlbPage f va r := by
    unfold State.tlbPage
    rw [walk_withDue]
  have hfresh : (withDue s l).fresh = s.fresh := rfl
  have hpick (b : Bool) (n : Nat) : (if b then withDue s l else { withDue s l with fresh := n }) =
      withDue (if b then s else { s with fresh := n }) l := by cases b <;> rfl
  unfold State.translate
  simp only [check_withDue, walkReads_withDue, hcore, hpage, hfresh, hpick, walked_withDue]
  split
  · rfl
  · split
    · rfl
    · split <;> rfl

/-- An access that is not at a virtual address leaves the state, and looks at no consequence still to come. -/
theorem xLocate_real (s : State) {k : Nat} {c : Cmd} {e : Dword} {n : Nat} {acc : Access} (hv : ∀ va, placeOf e n ≠ .ok (.virt va)) :
    ∃ r, ∀ l, (withDue s l).xLocate k c e n acc = (r, withDue s l) := by
  have hwin (l : List Act) (w : Nat) : (withDue s l).windowOk k w = s.windowOk k w := rfl
  unfold State.xLocate
  simp only [hwin]
  cases hp : placeOf e n with
  | error z => exact ⟨_, fun l => rfl⟩
  | ok p =>
    cases p with
    | virt va => exact absurd hp (hv va)
    | own off =>
      dsimp only
      by_cases h : off % n = 0
      · exact ⟨_, fun l => if_pos h⟩
      · exact ⟨_, fun l => if_neg h⟩
    | window w off =>
      dsimp only
      by_cases h : (off % n != 0) = true
      · exact ⟨_, fun l => if_pos h⟩
      · by_cases hw : s.windowOk k w = true
        · exact ⟨_, fun l => (if_neg h).trans (if_pos hw)⟩
        · exact ⟨_, fun l => (if_neg h).trans (if_neg hw)⟩
    | stage up off =>
      dsimp only
      cases (if up then c.up else c.dn) with
      | failed z => exact ⟨_, fun l => rfl⟩
      | core p =>
        dsimp only
        by_cases h : off % n = 0
        · exact ⟨_, fun l => if_pos h⟩
        · exact ⟨_, fun l => if_neg h⟩
    | acc off =>
      dsimp only
      by_cases h : (acc != .read) = true
      · exact ⟨_, fun l => if_pos h⟩
      · by_cases ha : off % n = 0
        · exact ⟨_, fun l => (if_neg h).trans (if_pos ha)⟩
        · exact ⟨_, fun l => (if_neg h).trans (if_neg ha)⟩

/-- At a virtual address a location is found by a translation. -/
theorem xLocate_virt {s : State} {k : Nat} {c : Cmd} {e : Dword} {n va : Nat} {acc : Access} (hp : placeOf e n = .ok (.virt va)) {loc : Nat}
    {u : State} : s.xLocate k c e n acc = (.ok loc, u) ↔
    s.translate k (s.core k).funcOf va acc false = (.ok loc, u) ∧ loc % n = 0 := by
  unfold State.xLocate
  simp only [hp]
  cases s.translate k (s.core k).funcOf va acc false with
  | mk r t =>
    cases r with
    | error z => simp
    | ok pa =>
      dsimp only
      split
      · next h => simp only [Prod.mk.injEq, Except.ok.injEq]; exact ⟨fun g => ⟨g, g.1 ▸ h⟩, fun g => g.1⟩
      · next h => simp only [Prod.mk.injEq, Except.ok.injEq, reduceCtorEq, false_and, false_iff]; exact fun g => h (g.1.1 ▸ g.2)

/-- A location that a command's access finds is found also with other consequences still to come. -/
theorem xLocate_withDue {s u : State} (l : List Act) {k : Nat} {c : Cmd} {e : Dword} {n loc : Nat} {acc : Access}
    (h : s.xLocate k c e n acc = (.ok loc, u)) : (withDue s l).xLocate k c e n acc = (.ok loc, withDue u l) := by
  by_cases hv : ∃ va, placeOf e n = .ok (.virt va)
  · obtain ⟨va, hp⟩ := hv
    obtain ⟨ht, hal⟩ := (xLocate_virt hp).1 h
    have hcore : (withDue s l).core k = s.core k := rfl
    rw [xLocate_virt hp, hcore, translate_withDue, ht]
    exact ⟨rfl, hal⟩
  · obtain ⟨r, hr⟩ := xLocate_real s (k := k) (c := c) (acc := acc) (not_exists.1 hv)
    obtain ⟨rfl, rfl⟩ := Prod.mk.inj ((hr s.due).symm.trans h)
    exact hr l

end Sys2Proof.Machine
end

section
/-! SUPPORT. The performance of a transfer command around its accesses: what is sent for it, and what becomes of it (R159, R191). -/

namespace Sys2Proof.Machine

open Sys2Proof.Safety

/-! ### What is sent for a command -/

/-- From s to t the writes l, by location and masked bytes, are put on their way for command c of core k; memory, the updates, the rows, the
messages to the outside and the core's commands are as before. -/
structure Sends (k : Nat) (c : Cmd) (l : List (Nat × List (Byte × Byte))) (s t : State) : Prop where
  mem : t.mem = s.mem
  updates : t.updates = s.updates
  combines : t.combines = s.combines
  out : t.out = s.out
  cmds : (t.core k).x.cmds = (s.core k).x.cmds
  writes : ∃ ws, t.writes = s.writes ++ ws ∧ (∀ w ∈ ws, w.by_ = c.src.writer k ∧ w.cmd = some c.id) ∧ ws.map (fun w => (w.loc, w.data)) = l

section
variable {k : Nat} {c : Cmd} {s t u : State}

theorem Sends.trans {l m : List (Nat × List (Byte × Byte))} (h : Sends k c l s t) (g : Sends k c m t u) : Sends k c (l ++ m) s u := by
  obtain ⟨ws, hw, hby, hl⟩ := h.writes
  obtain ⟨vs, hv, gby, hm⟩ := g.writes
  refine ⟨g.mem.trans h.mem, g.updates.trans h.updates, g.combines.trans h.combines, g.out.trans h.out, g.cmds.trans h.cmds, ws ++ vs, ?_, ?_, ?_⟩
  · rw [hv, hw, List.append_assoc]
  · intro w hw
    exact (List.mem_append.1 hw).elim (hby w) (gby w)
  · rw [List.map_append, hl, hm]

/-- Nothing is sent. -/
theorem Sends.nothing (hm : t.mem = s.mem) (hw : t.writes = s.writes) (hu : t.updates = s.updates) (hc : t.combines = s.combines)
    (ho : t.out = s.out) (hx : (t.core k).x.cmds = (s.core k).x.cmds) : Sends k c [] s t :=
  ⟨hm, hu, hc, ho, hx, [], by rw [hw, List.append_nil], by simp, rfl⟩

theorem Sends.refl : Sends k c [] s s := .nothing rfl rfl rfl rfl rfl rfl

theorem sends_foldl {α : Type} {f : State → α → State} (hf : ∀ s a, Sends k c [] s (f s a)) (l : List α) (s : State) :
    Sends k c [] s (l.foldl f s) := by
  induction l generalizing s with
  | nil => exact .refl
  | cons a t ih => exact (hf s a).trans (ih _)

theorem sends_modCore {f : Core → Core} (hf : (f (s.core k)).x.cmds = (s.core k).x.cmds) : Sends k c [] s (s.modCore k f) :=
  .nothing rfl rfl rfl rfl rfl (by rw [State.core_modCore_self, hf])

theorem sends_modDie (s : State) (d : Nat) (f : Die → Die) : Sends k c [] s (s.modDie d f) := .nothing rfl rfl rfl rfl rfl rfl

theorem sends_observe (s : State) (d h : Nat) : Sends k c [] s (s.observe d h) := .nothing rfl rfl rfl rfl rfl rfl

theorem sends_of_coreStep {d : Core} (h : CoreStep s t k d) (hd : d.x.cmds = (s.core k).x.cmds) : Sends k c [] s t := by
  have hx := congrArg (fun z : Core => z.x.cmds) h.core
  refine .nothing ?_ ?_ ?_ ?_ ?_ (hx.trans hd) <;> rw [h.rest]

theorem sends_charge (s : State) (e l f n : Nat) : Sends k c [] s (s.charge k e l f n) := sends_of_coreStep (charge_step ..) rfl

theorem sends_charges (a : XAcc) (s : State) : Sends k c [] s (a.charges s k) :=
  (((sends_charge s ..).trans (sends_charge ..)).trans (sends_charge ..)).trans (sends_charge ..)

theorem sends_setFlags (s : State) (u : Unit4) (f : Byte) : Sends k c [] s (s.setFlags k u f) := sends_modCore rfl

theorem sends_setTag (s : State) (tag : BitVec 6) : Sends k c [] s (s.setTag k tag) := by
  obtain ⟨hm, hw, -, hx, -, -⟩ := setTag_keeps s k tag
  exact .nothing hm hw rfl rfl rfl hx

theorem sends_samples (s : State) (e : Cmd) (o : XOp) (ixs : Option (List Int)) (lo hi : Nat) : Sends k c [] s (s.samples k e o ixs lo hi) := by
  unfold State.samples
  split
  · exact .refl
  · refine sends_foldl (fun s a => ?_) _ _
    dsimp only
    split
    · exact .refl
    · split
      · exact .refl
      · unfold State.sample
        dsimp only
        split
        · exact .refl
        · exact sends_modDie ..

theorem sends_emit (s : State) (loc : Nat) (data : List (Byte × Byte)) :
    Sends k c [(loc, data)] s (s.emit (c.src.writer k) (some c.id) loc data) := by
  have hrest : ∀ d h (s : State), s.countSent d h = s ∨ ∃ f, s.countSent d h = s.modDie d f := by
    intro d h s
    unfold State.countSent
    split
    · exact .inl rfl
    · exact .inr ⟨_, rfl⟩
  unfold State.emit
  dsimp only
  obtain h | ⟨f, h⟩ := hrest (coreDie (c.src.writer k).core) (homeDie loc) { s with
    writes := s.writes ++ [⟨s.next, c.src.writer k, some c.id, coreDie (c.src.writer k).core, homeDie loc, loc, data,
      (s.die (coreDie (c.src.writer k).core)).vclk, false⟩]
    next := s.next + 1 }
  all_goals
    rw [h]
    exact ⟨rfl, rfl, rfl, rfl, rfl, [_], rfl, by simp, rfl⟩

/-- The gathered writes go on their way in walk order (R191). -/
theorem sends_flush (a : XAcc) : Sends k c a.ws.reverse a.s (a.flush k c) := by
  have hemits : ∀ (l : List (Nat × List (Byte × Byte))) (s : State),
      Sends k c l s (l.foldl (fun s w => s.emit (c.src.writer k) (some c.id) w.1 w.2) s) := by
    intro l
    induction l with
    | nil => exact fun s => .refl
    | cons w t ih => exact fun s => (sends_emit s w.1 w.2).trans (ih _)
  have hobserved : Sends k c [] a.s (a.homes.foldl (fun s h => s.observe (coreDie k) h) a.s) :=
    sends_foldl (f := fun s h => s.observe (coreDie k) h) (fun s h => sends_observe s _ h) a.homes a.s
  exact hobserved.trans (hemits ..)

end

/-! ### What becomes of the command -/

theorem cmd_modCmd {s : State} {k : Nat} {c : Cmd} {f : Cmd → Cmd} (h : s.cmd? k c.id = some c) (hf : ∀ e, (f e).id = e.id) :
    (s.modCmd k c.id f).cmd? k c.id = some (f c) := by
  unfold State.modCmd State.cmd? at *
  rw [State.core_modCore_self]
  generalize (s.core k).x.cmds = cs at h
  change (cs.map fun e => if e.id = c.id then f e else e).find? _ = _
  induction cs with
  | nil => simp at h
  | cons e t ih =>
    rw [List.find?_cons] at h
    rw [List.map_cons, List.find?_cons]
    by_cases he : e.id = c.id
    · simp only [he, beq_self_eq_true, Option.some.injEq] at h
      subst h
      simp [hf]
    · have hne : (e.id == c.id) = false := by simpa using he
      simp only [hne] at h
      simp only [he, if_false, hne]
      exact ih h

theorem cmd_of_cmds {s t : State} {k : Nat} (h : (t.core k).x.cmds = (s.core k).x.cmds) (id : Nat) : t.cmd? k id = s.cmd? k id := by
  unfold State.cmd?
  rw [h]

/-- In t command c of core k stands in state st with a run's progress and the descriptor it has read; the run's gathered writes are on their
way, and memory, the updates, the rows and the messages to the outside are as the run leaves them. -/
structure Ran (k : Nat) (c : Cmd) (e : XEnd) (new : Option (BitVec 1024)) (st : CmdState) (t : State) : Prop where
  cmd : ∃ d, t.cmd? k c.id = some d ∧ d.st = st ∧ d.progress = e.progress ∧ d.new = new
  mem : t.mem = e.a.s.mem
  updates : t.updates = e.a.s.updates
  combines : t.combines = e.a.s.combines
  out : t.out = e.a.s.out
  writes : ∃ ws, t.writes = e.a.s.writes ++ ws ∧ (∀ w ∈ ws, w.by_ = c.src.writer k ∧ w.cmd = some c.id) ∧
    ws.map (fun w => (w.loc, w.data)) = e.a.ws.reverse

/-- A run that has not stopped. -/
theorem ranCmd_ran {k : Nat} {c : Cmd} {e : XEnd} (o : XOp) (ixs : Option (List Int)) (new : Option (BitVec 1024)) (st : CmdState) (tag : Bool)
    (hstop : e.stop = none) (hc : e.a.s.cmd? k c.id = some c) : Ran k c e new st (ranCmd k c o (e, ixs, new) st tag) := by
  generalize hu : ((((e.a.charges (e.a.flush k c) k).charge k 1 1 0xF (e.progress - c.progress)).setFlags k c.src.unit4 e.a.flags).samples k c o
    (if ixs.isSome then ixs else c.ixs) c.progress e.progress) = u
  have hsends : Sends k c e.a.ws.reverse e.a.s u := by
    have h := ((((sends_flush e.a (k := k) (c := c)).trans (sends_charges e.a _)).trans (sends_charge _ 1 1 0xF (e.progress - c.progress))).trans
      (sends_setFlags _ c.src.unit4 e.a.flags)).trans (sends_samples _ c o (if ixs.isSome then ixs else c.ixs) c.progress e.progress)
    rw [hu] at h
    simpa only [List.append_nil] using h
  generalize hf : (fun x : Cmd => { x with
    progress := e.progress, lines := e.a.lines, ixs := if ixs.isSome then ixs else c.ixs, new := new, st := st, tagged := tag }) = f
  have hlast : Sends k c [] (u.modCmd k c.id f) (ranCmd k c o (e, ixs, new) st tag) := by
    unfold ranCmd
    dsimp only
    rw [hu, hstop]
    dsimp only
    rw [hf]
    split
    · exact sends_setTag ..
    · exact .refl
  have hcmd := cmd_modCmd (f := f) ((cmd_of_cmds hsends.cmds c.id).trans hc) fun x => by rw [← hf]
  obtain ⟨ws, hw, hby, hl⟩ := hsends.writes
  obtain ⟨vs, hv, -, hnil⟩ := hlast.writes
  rw [List.map_eq_nil_iff] at hnil
  refine ⟨⟨f c, (cmd_of_cmds hlast.cmds c.id).trans hcmd, ?_⟩, hlast.mem.trans hsends.mem, hlast.updates.trans hsends.updates,
    hlast.combines.trans hsends.combines, hlast.out.trans hsends.out, ws, ?_, hby, hl⟩
  · rw [← hf]
    exact ⟨rfl, rfl, rfl⟩
  · rw [hv, hnil, List.append_nil]
    exact hw

/-! ### The act -/

/-- The act that performs command c of core k has come, and nothing holds it back (R64, R65, R167). -/
structure Due (s : State) (k : CoreIx) (rest : List Act) (c : Cmd) (o : XOp) : Prop where
  due : s.due = .perform k c.id :: rest
  cmd : s.cmd? k.val c.id = some c
  op : xopOfWord c.word = some o
  st : c.st = .issued
  free : s.performBlocked k.val c = false
  fault : (s.core k.val).fault = none
  acq : o.x.acq = false

/-- The step is then the command's run, from the state without the act. -/
theorem Due.step {s : State} {k : CoreIx} {rest : List Act} {c : Cmd} {o : XOp} (h : Due s k rest c o) : step s = .next
    (ranCmd k.val c o (runKind k.val c o { s := withDue s rest, lines := c.lines }) o.kind.after (o.tagsEarly (setOf c.d))) := by
  have hselect : s.select = some (.perform k c.id, withDue s rest) := by
    unfold State.select
    simp only [h.due, withDue]
  have hcmd : (withDue s rest).cmd? k.val c.id = some c := h.cmd
  have hfault : ((withDue s rest).core k.val).fault = none := h.fault
  have hperform : (withDue s rest).perform k.val c.id =
      ranCmd k.val c o (runKind k.val c o { s := withDue s rest, lines := c.lines }) o.kind.after (o.tagsEarly (setOf c.d)) := by
    unfold State.perform
    simp [hcmd, h.op, h.st, performBlocked_withDue, h.free, hfault, h.acq]
  unfold Machine.step
  rw [hselect]
  dsimp only [State.fetch]
  rw [hperform]

/-- A run that does not stop and leaves the core's commands. -/
theorem Due.ran {s : State} {k : CoreIx} {rest : List Act} {c : Cmd} {o : XOp} (h : Due s k rest c o) {e : XEnd} {ixs : Option (List Int)}
    {new : Option (BitVec 1024)} (hr : runKind k.val c o { s := withDue s rest, lines := c.lines } = (e, ixs, new)) (hstop : e.stop = none)
    (hx : (e.a.s.core k.val).x.cmds = (s.core k.val).x.cmds) : ∃ t, Machine.step s = .next t ∧ Ran k.val c e new o.kind.after t := by
  refine ⟨_, h.step, ?_⟩
  rw [hr]
  exact ranCmd_ran o ixs new _ _ hstop ((cmd_of_cmds hx c.id).trans h.cmd)

end Sys2Proof.Machine
end

section
/-! SUPPORT. The writes that a run gathers (R41, R191): whole elements put one after another come out in that order, for each core of a
multicast. -/

namespace Sys2Proof.Machine

open Sys2Proof.Safety

/-- A location and the masked bytes written there. -/
abbrev Piece := Nat × List (Byte × Byte)

/-- The bytes of a piece with their locations. -/
def cells (w : Piece) : List (Nat × Byte × Byte) := w.2.zipIdx.map fun b => (w.1 + b.2, b.1)

theorem cells_append (b : Nat) (x d : List (Byte × Byte)) : cells (b, x ++ d) = cells (b, x) ++ cells (b + x.length, d) := by
  unfold cells
  rw [List.zipIdx_append, List.map_append, List.zipIdx_eq_map_add (i := 0 + x.length)]
  simp [Nat.add_left_comm, Nat.add_comm]

/-- The bytes of a number, least significant first, with their locations. -/
theorem cells_wholeBytes (l n v : Nat) :
    cells (l, wholeBytes (bytesOfNat n v)) = (List.range n).map fun j => (l + j, BitVec.ofNat 8 (v / 256 ^ j), 0xFF#8) := by
  unfold cells
  rw [wholeBytes_eq]
  apply List.ext_getElem <;> simp

/-- A piece inside a scratchpad, at its offset, that writes whole bytes. -/
structure Whole (w : Piece) : Prop where
  inside : w.1 + w.2.length ≤ 0x200000
  some : 0 < w.2.length
  full : ∀ b ∈ w.2, b.2 = 0xFF#8

/-- Of whole pieces the later one is only ever joined behind the earlier one. -/
theorem joinWrite_whole {w v : Piece} (hw : Whole w) (hv : Whole v) {y : List (Byte × Byte)} (h : joinWrite w.1 w.2 v.1 v.2 = some y) :
    v.1 = w.1 + w.2.length ∧ y = w.2 ++ v.2 := by
  unfold joinWrite at h
  split at h
  · next hc =>
    rw [Bool.and_eq_true, decide_eq_true_eq] at hc
    exact ⟨hc.1, (Option.some.inj h).symm⟩
  · split at h
    · split at h
      · next a m b n hlast hd =>
        have hm : m = 0xFF#8 := hw.full _ (List.mem_of_getLast? hlast)
        have hn : n = 0xFF#8 := hv.full (b, n) (by rw [hd]; exact List.mem_singleton_self _)
        rw [hm, hn] at h
        simp at h
      · exact absurd h (by simp)
    · exact absurd h (by simp)

theorem whole_append {w v : Piece} (hw : Whole w) (hv : Whole v) (h : v.1 = w.1 + w.2.length) : Whole (w.1, w.2 ++ v.2) := by
  refine ⟨?_, ?_, fun b hb => (List.mem_append.1 hb).elim (hw.full b) (hv.full b)⟩
  · have := hv.inside
    simp only [List.length_append]
    omega
  · have := hw.some
    simp only [List.length_append]
    omega

/-! ### Pieces of one scratchpad -/

/-- A piece of a scratchpad, as it lies in the p-th 2 MiB. -/
def inPad (p : Nat) (w : Piece) : Piece := (p * 0x200000 + w.1, w.2)

theorem inPad_joined (p : Nat) (w : Piece) (y : List (Byte × Byte)) : inPad p (w.1, y) = ((inPad p w).1, y) := by simp only [inPad]

theorem inPad_snd (p : Nat) (w : Piece) : (inPad p w).2 = w.2 := by simp only [inPad]

theorem unit_inPad (p a : Nat) : (p * 0x200000 + a) / 64 = p * 0x8000 + a / 64 := by omega

theorem gather_cons (n : Nat) (w : Piece) (t : List Piece) (l : Nat) (d : List (Byte × Byte)) : gather (n + 1) (w :: t) l d =
    match joinWrite w.1 w.2 l d with
    | some y => some ((w.1, y) :: t)
    | none => if w.1 / 64 = l / 64 then none else (gather n t l d).map fun u => w :: u := rfl

/-- A gathered piece of another scratchpad takes nothing in and is passed over. -/
theorem gather_pass {p q : Nat} (h : p ≠ q) {w v : Piece} (hw : Whole w) (hv : Whole v) (n : Nat) (t : List Piece) :
    gather (n + 1) (inPad p w :: t) (inPad q v).1 v.2 = (gather n t (inPad q v).1 v.2).map fun u => inPad p w :: u := by
  obtain ⟨hwi, hws, -⟩ := hw
  obtain ⟨hvi, hvs, -⟩ := hv
  have hunits (x y : Nat) (hx : x < 0x200000) (hy : y < 0x200000) : (p * 0x200000 + x) / 64 ≠ (q * 0x200000 + y) / 64 := by
    rw [unit_inPad, unit_inPad]
    omega
  have hlast : q * 0x200000 + v.1 + v.2.length - 1 = q * 0x200000 + (v.1 + v.2.length - 1) := by omega
  have hjoin : joinWrite (inPad p w).1 (inPad p w).2 (inPad q v).1 v.2 = none := by
    unfold joinWrite inPad
    dsimp only
    rw [hlast, if_neg, if_neg]
    · simp only [Bool.and_eq_true, decide_eq_true_eq, not_and]
      omega
    · simp only [Bool.and_eq_true, decide_eq_true_eq, not_and]
      exact fun _ => hunits _ _ (by omega) (by omega)
  rw [gather_cons, hjoin]
  exact if_neg (hunits _ _ (by omega) (by omega))

theorem gather_passes {ps : List Nat} {q : Nat} (h : q ∉ ps) {w v : Piece} (hw : Whole w) (hv : Whole v) (n : Nat) (t : List Piece) :
    gather (ps.length + n) (ps.map (inPad · w) ++ t) (inPad q v).1 v.2 =
      (gather n t (inPad q v).1 v.2).map fun u => ps.map (inPad · w) ++ u := by
  induction ps with
  | nil => simp
  | cons p ps ih =>
    have hp : p ≠ q := fun e => h (e ▸ List.mem_cons_self)
    rw [List.length_cons, Nat.add_right_comm, List.map_cons, List.cons_append, gather_pass hp hw hv,
      ih fun hm => h (List.mem_cons_of_mem _ hm), Option.map_map]
    rfl

/-- Joining does not depend on the scratchpad. -/
theorem joinWrite_inPad (p : Nat) (w : Piece) {v : Piece} (hv : Whole v) :
    joinWrite (inPad p w).1 w.2 (inPad p v).1 v.2 = joinWrite w.1 w.2 v.1 v.2 := by
  have hvs := hv.some
  have hlast (b : Nat) : b + v.1 + v.2.length - 1 = b + (v.1 + v.2.length - 1) := by omega
  have hunit (x y : Nat) : (p * 0x200000 + x) / 64 = (p * 0x200000 + y) / 64 ↔ x / 64 = y / 64 := by
    rw [unit_inPad, unit_inPad]
    omega
  have hnext (b : Nat) : b + v.1 = b + w.1 + w.2.length ↔ v.1 = w.1 + w.2.length := by omega
  have hhalf (b : Nat) : b + v.1 + 1 = b + w.1 + w.2.length ↔ v.1 + 1 = w.1 + w.2.length := by omega
  unfold joinWrite inPad
  dsimp only
  simp only [hlast, hunit, hnext, hhalf]

/-- The blocks that have been gathered, latest first, once the piece v has come. -/
def addPiece (v : Piece) : List Piece → List Piece
  | [] => [v]
  | w :: t => match joinWrite w.1 w.2 v.1 v.2 with
    | some y => (w.1, y) :: t
    | none => v :: w :: t

theorem addPiece_joins {w v : Piece} {y : List (Byte × Byte)} (h : joinWrite w.1 w.2 v.1 v.2 = some y) (t : List Piece) :
    addPiece v (w :: t) = (w.1, y) :: t := by simp only [addPiece, h]

theorem addPiece_of_not_joins {w v : Piece} (h : joinWrite w.1 w.2 v.1 v.2 = none) (t : List Piece) : addPiece v (w :: t) = v :: w :: t := by
  simp only [addPiece, h]

/-- Blocks written in each of the scratchpads ps, latest first. -/
def spread (ps : List Nat) (blocks : List Piece) : List Piece := blocks.flatMap fun w => ps.reverse.map (inPad · w)

/-- The piece v put into each of the scratchpads ps, as pieces of n interleaved walks. -/
def putAll (n : Nat) (ps : List Nat) (v : Piece) (ws : List Piece) : List Piece :=
  ps.foldl (fun ws p => (gather n ws (inPad p v).1 v.2).getD (inPad p v :: ws)) ws

theorem putAll_cons (n p : Nat) (ps : List Nat) (v : Piece) (ws : List Piece) :
    putAll n (p :: ps) v ws = putAll n ps v ((gather n ws (inPad p v).1 v.2).getD (inPad p v :: ws)) := rfl

section
variable {w v : Piece} (hw : Whole w) (hv : Whole v) (n : Nat) (t : List Piece)
include hw hv

/-- Where the piece joins the latest block it does so in each of the scratchpads. -/
theorem putAll_joins {y : List (Byte × Byte)} (hj : joinWrite w.1 w.2 v.1 v.2 = some y) (todo : List Nat) (hnd : todo.Nodup) (hn : todo.length ≤ n)
    (rest : List Piece) : putAll n todo v (todo.reverse.map (inPad · w) ++ rest) = todo.reverse.map (inPad · (w.1, y)) ++ rest := by
  induction todo generalizing rest with
  | nil => rfl
  | cons p todo ih =>
    obtain ⟨hp, hnd⟩ := List.nodup_cons.1 hnd
    rw [List.length_cons] at hn
    obtain ⟨m, rfl⟩ : ∃ m, n = todo.reverse.length + (m + 1) := ⟨n - todo.length - 1, by rw [List.length_reverse]; omega⟩
    have hhit : gather (m + 1) (inPad p w :: rest) (inPad p v).1 v.2 = some (inPad p (w.1, y) :: rest) := by
      rw [gather_cons, inPad_snd, joinWrite_inPad p w hv, hj, inPad_joined p w y]
    rw [putAll_cons, List.reverse_cons, List.map_append, List.map_singleton, List.append_assoc, List.singleton_append,
      gather_passes (fun h => hp (List.mem_reverse.1 h)) hw hv, hhit]
    rw [Option.map_some, Option.getD_some, ih hnd (by rw [List.length_reverse]; omega), List.map_append, List.map_singleton,
      List.append_assoc, List.singleton_append]

/-- Where it does not, its own block is put before what the others have taken. -/
theorem gather_of_not_joins (hj : joinWrite w.1 w.2 v.1 v.2 = none) {ps : List Nat} {p : Nat} (hp : p ∉ ps) :
    gather (ps.length + 1) (ps.map (inPad · w) ++ inPad p w :: t) (inPad p v).1 v.2 = none := by
  have hmiss : gather 1 (inPad p w :: t) (inPad p v).1 v.2 = none := by
    rw [gather_cons, inPad_snd, joinWrite_inPad p w hv, hj]
    dsimp only
    split <;> rfl
  rw [gather_passes hp hw hv, hmiss, Option.map_none]

end

/-- Blocks gathered in no or several scratchpads before take the piece in, or stand after its own in each. -/
theorem putAll_spread {v : Piece} (hv : Whole v) {blocks : List Piece} (hb : ∀ w ∈ blocks, Whole w) {ps : List Nat} (hnd : ps.Nodup) :
    putAll ps.length ps v (spread ps blocks) = spread ps (addPiece v blocks) := by
  have hnew (hmiss : ∀ done p todo, ps = done ++ p :: todo →
      gather (todo.length + 1) (spread ps blocks) (inPad p v).1 v.2 = none) (todo : List Nat) : ∀ done, ps = done ++ todo →
      putAll ps.length todo v (done.reverse.map (inPad · v) ++ spread ps blocks) = ps.reverse.map (inPad · v) ++ spread ps blocks := by
    induction todo with
    | nil =>
      intro done hd
      rw [hd, List.append_nil]
      rfl
    | cons p todo ih =>
      intro done hd
      have hp : p ∉ done.reverse := by
        rw [List.mem_reverse]
        intro hm
        rw [hd] at hnd
        exact List.disjoint_of_nodup_append hnd hm List.mem_cons_self
      have hn : ps.length = done.reverse.length + (todo.length + 1) := by rw [hd, List.length_append, List.length_reverse, List.length_cons]
      have hnone : gather ps.length (done.reverse.map (inPad · v) ++ spread ps blocks) (inPad p v).1 v.2 = none := by
        rw [hn, gather_passes hp hv hv, hmiss done p todo hd, Option.map_none]
      rw [putAll_cons, hnone, Option.getD_none]
      have hnext := ih (done ++ [p]) (by rw [hd, List.append_assoc, List.singleton_append])
      rwa [List.reverse_append, List.reverse_singleton, List.singleton_append, List.map_cons, List.cons_append] at hnext
  cases blocks with
  | nil => exact hnew (fun _ _ _ _ => rfl) ps [] rfl
  | cons w t =>
    have hw := hb w List.mem_cons_self
    have hspread : spread ps (w :: t) = ps.reverse.map (inPad · w) ++ spread ps t := List.flatMap_cons
    cases hj : joinWrite w.1 w.2 v.1 v.2 with
    | some y =>
      rw [hspread, putAll_joins hw hv _ hj ps hnd le_rfl, addPiece_joins hj]
      rfl
    | none =>
      rw [addPiece_of_not_joins hj]
      refine hnew (fun done p todo hd => ?_) ps [] rfl
      have hp : p ∉ todo.reverse := by
        rw [List.mem_reverse]
        rw [hd] at hnd
        exact (List.nodup_cons.1 (List.nodup_append.1 hnd).2.1).1
      rw [hspread, hd, List.reverse_append, List.reverse_cons, List.append_assoc, List.map_append, List.append_assoc, List.map_append,
        List.append_assoc, List.map_singleton, List.singleton_append, ← List.length_reverse]
      exact gather_of_not_joins hw hv _ hj hp

theorem whole_addPiece {v : Piece} (hv : Whole v) {blocks : List Piece} (hb : ∀ w ∈ blocks, Whole w) : ∀ w ∈ addPiece v blocks, Whole w := by
  cases blocks with
  | nil => exact fun w hw => List.mem_singleton.1 hw ▸ hv
  | cons w t =>
    cases hj : joinWrite w.1 w.2 v.1 v.2 with
    | some y =>
      obtain ⟨hl, rfl⟩ := joinWrite_whole (hb w List.mem_cons_self) hv hj
      rw [addPiece_joins hj]
      exact List.forall_mem_cons.2 ⟨whole_append (hb w List.mem_cons_self) hv hl, fun x hx => hb x (List.mem_cons_of_mem _ hx)⟩
    | none =>
      rw [addPiece_of_not_joins hj]
      exact List.forall_mem_cons.2 ⟨hv, hb⟩

/-- In walk order the bytes of the piece come behind those of the blocks. -/
theorem cells_addPiece {v : Piece} (hv : Whole v) {blocks : List Piece} (hb : ∀ w ∈ blocks, Whole w) :
    (addPiece v blocks).reverse.flatMap cells = blocks.reverse.flatMap cells ++ cells v := by
  cases blocks with
  | nil => simp [addPiece]
  | cons w t =>
    cases hj : joinWrite w.1 w.2 v.1 v.2 with
    | some y =>
      obtain ⟨hl, rfl⟩ := joinWrite_whole (hb w List.mem_cons_self) hv hj
      have hcells : cells (w.1, w.2 ++ v.2) = cells w ++ cells v := by rw [cells_append, ← hl]
      rw [addPiece_joins hj]
      simp [hcells]
    | none =>
      rw [addPiece_of_not_joins hj]
      simp

/-! ### What a multicast has gathered -/

/-- Bytes at offsets of a scratchpad, as they lie in the p-th 2 MiB. -/
def cellsIn (p : Nat) (l : List (Nat × Byte × Byte)) : List (Nat × Byte × Byte) := l.map fun b => (p * 0x200000 + b.1, b.2)

theorem cells_inPad (p : Nat) (w : Piece) : cells (inPad p w) = cellsIn p (cells w) := by
  simp [cells, cellsIn, inPad, Nat.add_assoc]

theorem flatMap_cells_inPad (p : Nat) (l : List Piece) : (l.map (inPad p)).flatMap cells = cellsIn p (l.flatMap cells) := by
  induction l with
  | nil => rfl
  | cons w t ih => rw [List.map_cons, List.flatMap_cons, ih, cells_inPad, List.flatMap_cons, cellsIn, cellsIn, cellsIn, List.map_append]

theorem spread_singleton (p : Nat) (blocks : List Piece) : spread [p] blocks = blocks.map (inPad p) := by
  unfold spread
  rw [List.reverse_singleton, List.map_eq_flatMap]
  rfl

theorem pad_inPad (p : Nat) {w : Piece} (h : Whole w) : (inPad p w).1 / 0x200000 = p := by
  have hi := h.inside
  have hs := h.some
  unfold inPad
  dsimp only
  omega

theorem pad_of_mem_spread {ps : List Nat} {blocks : List Piece} (hb : ∀ w ∈ blocks, Whole w) {x : Piece} (hx : x ∈ spread ps blocks) :
    x.1 / 0x200000 ∈ ps := by
  obtain ⟨w, hw, hx⟩ := List.mem_flatMap.1 hx
  obtain ⟨p, hp, rfl⟩ := List.mem_map.1 hx
  rw [pad_inPad p (hb w hw)]
  exact List.mem_reverse.1 hp

/-- Of one scratchpad it has gathered the blocks once. -/
theorem filter_spread {ps : List Nat} (hnd : ps.Nodup) {p : Nat} (hp : p ∈ ps) {blocks : List Piece} (hb : ∀ w ∈ blocks, Whole w) :
    (spread ps blocks).filter (fun x => x.1 / 0x200000 == p) = blocks.map (inPad p) := by
  induction blocks with
  | nil => rfl
  | cons w t ih =>
    have hw := hb w List.mem_cons_self
    have hone : (ps.reverse.map (inPad · w)).filter (fun x => x.1 / 0x200000 == p) = [inPad p w] := by
      have hpred : (fun x : Piece => x.1 / 0x200000 == p) ∘ (inPad · w) = fun q => q == p := by
        funext q
        rw [Function.comp_apply, pad_inPad q hw]
      rw [List.filter_map, hpred, List.filter_beq, List.count_eq_one_of_mem (List.nodup_reverse.2 hnd) (List.mem_reverse.2 hp)]
      rfl
    have hspread : spread ps (w :: t) = ps.reverse.map (inPad · w) ++ spread ps t := List.flatMap_cons
    rw [hspread, List.filter_append, hone, ih fun x hx => hb x (List.mem_cons_of_mem _ hx)]
    rfl

end Sys2Proof.Machine
end

section
/-! SUPPORT. Elements of whole bytes that lie aligned in unscaled banks of the own scratchpad: where a command finds them, what it reads and
what it gathers to write there (R39, R41, R62, R166). -/

namespace Sys2Proof.Machine

open Sys2Proof.Safety

/-! ### Places -/

/-- An element of n bytes that lies aligned in the own scratchpad (R39, R41). -/
def OwnAt (n : Nat) (e : Elem) : Prop := ∃ a, e.addr.toNat = 0x1000000000000000 + a ∧ a + n ≤ 0x200000 ∧ a % n = 0

/-- Its offset in the scratchpad. -/
def ownOff (e : Elem) : Nat := e.addr.toNat - 0x1000000000000000

/-- Its location, of core k. -/
def elemLoc (k : Nat) (e : Elem) : Nat := 0x200000000000 + k * 0x200000 + (e.addr.toNat - 0x1000000000000000)

/-- What a writer reads there. -/
def elemVal (s : State) (by_ : Writer) (k n : Nat) (e : Elem) : Nat :=
  natOfBytes ((List.range n).map fun j => s.ownByte by_ (elemLoc k e + j))

theorem elemLoc_eq (k : Nat) (e : Elem) : elemLoc k e = scratchLoc k + ownOff e := by
  unfold elemLoc scratchLoc ownOff
  rfl

section
variable {n : Nat} {e : Elem} (h : OwnAt n e)
include h

theorem OwnAt.addr : e.addr.toNat = 0x1000000000000000 + ownOff e := by
  obtain ⟨a, ha, -, -⟩ := h
  unfold ownOff
  omega

theorem OwnAt.inside : ownOff e + n ≤ 0x200000 := by
  obtain ⟨a, ha, hi, -⟩ := h
  unfold ownOff
  omega

theorem OwnAt.aligned : ownOff e % n = 0 := by
  obtain ⟨a, ha, -, hal⟩ := h
  have hoff : ownOff e = a := by unfold ownOff; omega
  rw [hoff, hal]

theorem OwnAt.place {m : Nat} (h0 : 0 < m) (hm : ownOff e + m ≤ 0x200000) : placeOf e.addr m = .ok (.own (ownOff e)) := by
  have ha := h.addr
  have hlow : e.addr.toNat % 2 ^ 48 = ownOff e := by omega
  rw [placeOf_own (by omega) (by omega) h0 (by omega), hlow]

/-- A command finds it without a translation. -/
theorem OwnAt.located (h0 : 0 < n) (s : State) (k : Nat) (c : Cmd) (acc : Access) : s.xLocate k c e.addr n acc = (.ok (elemLoc k e), s) := by
  unfold State.xLocate
  rw [h.place h0 h.inside, elemLoc_eq]
  exact if_pos h.aligned

end

theorem isHbm_elemLoc (k : Nat) (e : Elem) : isHbm (elemLoc k e) = false := by
  unfold isHbm elemLoc hbmSize
  exact decide_eq_false (by omega)

theorem isCxl_elemLoc (k : Nat) (e : Elem) : isCxl (elemLoc k e) = false := by
  unfold isCxl elemLoc scratchLoc
  rw [Bool.and_eq_false_iff]
  exact .inr (decide_eq_false (by omega))

/-- A writer without writes on their way reads memory. -/
theorem ownByte_of_no_writes {s : State} {by_ : Writer} (h : (s.writes.any fun w => w.by_ == by_) = false) (a : Nat) :
    s.ownByte by_ a = Memory.read s.mem a := by
  unfold State.ownByte
  generalize Memory.read s.mem a = v
  generalize s.writes = ws at h
  induction ws with
  | nil => rfl
  | cons w t ih =>
    rw [List.any_cons, Bool.or_eq_false_iff] at h
    rw [List.foldl_cons, h.1]
    exact ih h.2

theorem readN_eq (m : Memory) (a n : Nat) : Memory.readN m a n = (List.range n).map fun j => Memory.read m (a + j) := by
  induction n generalizing a with
  | zero => rfl
  | succ n ih =>
    rw [Memory.readN, ih, List.range_succ_eq_map, List.map_cons, List.map_map]
    refine congrArg _ (List.map_congr_left fun j _ => ?_)
    rw [Function.comp_apply, Nat.succ_eq_add_one, Nat.add_assoc, Nat.add_comm 1]

/-- Bytes as a writer reads them, each its own latest write on its way or memory. -/
theorem ownNat_eq (s : State) (by_ : Writer) (l n : Nat) : s.ownNat by_ l n = natOfBytes ((List.range n).map fun j => s.ownByte by_ (l + j)) := by
  unfold State.ownNat
  split
  · rfl
  · next h =>
    rw [Memory.readNat, readN_eq]
    refine congrArg _ (List.map_congr_left fun j _ => ?_)
    rw [ownByte_of_no_writes (Bool.eq_false_of_not_eq_true h)]

theorem ownNat_elemLoc (s : State) (by_ : Writer) (k n : Nat) (e : Elem) : s.ownNat by_ (elemLoc k e) n = elemVal s by_ k n e := ownNat_eq ..

theorem elemVal_congr {s t : State} (hw : t.writes = s.writes) (hm : t.mem = s.mem) (by_ : Writer) (k n : Nat) (e : Elem) :
    elemVal t by_ k n e = elemVal s by_ k n e := by
  refine congrArg _ (List.map_congr_left fun j _ => ?_)
  exact ownByte_congr hw (fun a => by rw [hm]) ..

theorem natOfBytes_lt (l : List Byte) : natOfBytes l < 256 ^ l.length := by
  induction l with
  | nil => exact Nat.one_pos
  | cons b t ih =>
    have hb := b.isLt
    rw [natOfBytes, List.length_cons, Nat.pow_succ]
    omega

theorem elemVal_lt (s : State) (by_ : Writer) (k n : Nat) (e : Elem) : elemVal s by_ k n e < 256 ^ n := by
  have h := natOfBytes_lt ((List.range n).map fun j => s.ownByte by_ (elemLoc k e + j))
  rwa [List.length_map, List.length_range] at h

/-! ### Formats -/

/-- A format of whole bytes has an even number of half bytes. -/
theorem nibbles_even (f : Fmt) (h : 2 ≤ nibbles f) : nibbles f = 2 * (nibbles f / 2) := by
  revert h
  unfold nibbles
  split <;> decide

theorem nibBytes_of_even {m : Nat} (h : m = 2 * (m / 2)) : nibBytes m = m / 2 := by
  unfold nibBytes
  omega

/-- No bank of the own scratchpad carries block scales (R44). -/
def Unscaled (bf : Vector (BitVec 15) 32) : Prop := ∀ b : Fin 32, bf[b.val].extractLsb' 13 2 = 0#2

theorem scaleOff_of_unscaled {bf : Vector (BitVec 15) 32} (h : Unscaled bf) (e : Elem) (m : Nat) : scaleOff bf e m = none := by
  have hb : (bankAt bf e.addr).extractLsb' 13 2 = 0#2 := by
    have hlt := (e.addr.extractLsb' 16 5).isLt
    unfold bankAt
    rw [vget_lt _ _ _ hlt]
    exact h ⟨_, hlt⟩
  unfold scaleOff
  simp [hb]

/-! ### Reading -/

/-- Counting bytes leaves the state and what is gathered. -/
theorem count_keeps (a : XAcc) (k l n : Nat) : (a.count k l n).s = a.s ∧ (a.count k l n).ws = a.ws := by
  unfold XAcc.count
  dsimp only
  split
  · exact ⟨rfl, rfl⟩
  · split <;> exact ⟨rfl, rfl⟩

theorem got_of_located {a : XAcc} {k l m : Nat} {c : Cmd} {e : Elem} {acc : Access} (heven : m = 2 * (m / 2))
    (hl : a.s.xLocate k c e.addr (m / 2) acc = (.ok l, a.s)) (hh : isHbm l = false) (hc : isCxl l = false) (zop : Bool) :
    ∃ b, a.get k c e m zop acc = (.ok (a.s.ownNat (c.src.writer k) l (m / 2), l), b) ∧ b.s = a.s ∧ b.ws = a.ws := by
  have hbad : ((isHbm l || isCxl l) && a.s.poisoned l (m / 2)) = false := by
    rw [hh, hc]
    rfl
  have hone : m ≠ 1 := by omega
  obtain ⟨hs, hw⟩ := count_keeps a k l (m / 2)
  unfold XAcc.get
  simp only [nibBytes_of_even heven, hl, hbad, Bool.false_and, Bool.false_eq_true, if_false, hone]
  refine ⟨_, rfl, ?_⟩
  split <;> exact ⟨hs, hw⟩

/-- A command reads an element of its own scratchpad: its value, and nothing is gathered to write. -/
theorem OwnAt.got {m : Nat} {e : Elem} (heven : m = 2 * (m / 2)) (h0 : 0 < m) (h : OwnAt (m / 2) e) (a : XAcc) (k : Nat) (c : Cmd) (zop : Bool)
    (acc : Access) : ∃ b, a.get k c e m zop acc = (.ok (elemVal a.s (c.src.writer k) k (m / 2) e, elemLoc k e), b) ∧ b.s = a.s ∧ b.ws = a.ws := by
  rw [← ownNat_elemLoc]
  exact got_of_located heven (h.located (by omega) ..) (isHbm_elemLoc ..) (isCxl_elemLoc ..) zop

/-! ### Gathering -/

/-- What a run in state s has gathered in the scratchpads ps: in each, at their offsets, these bytes. -/
structure Gathered (s : State) (ps : List Nat) (l : List (Nat × Byte × Byte)) (a : XAcc) : Prop where
  state : a.s = s
  blocks : ∃ blocks, a.ws = spread ps blocks ∧ (∀ w ∈ blocks, Whole w) ∧ blocks.reverse.flatMap cells = l

theorem gathered_start (s : State) (ps : List Nat) (lines : List Nat) : Gathered s ps [] { s := s, lines := lines } :=
  ⟨rfl, [], rfl, by simp, rfl⟩

theorem Gathered.congr {s : State} {ps : List Nat} {l : List (Nat × Byte × Byte)} {a b : XAcc} (h : Gathered s ps l a) (hs : b.s = a.s)
    (hw : b.ws = a.ws) : Gathered s ps l b := ⟨hs.trans h.state, by rw [hw]; exact h.blocks⟩

/-- The bytes of a value of n of them. -/
def valBytes (n v : Nat) : List (Byte × Byte) := wholeBytes (bytesOfNat n v)

theorem valBytes_length (n v : Nat) : (valBytes n v).length = n := by
  rw [valBytes, wholeBytes_eq, List.length_map, List.length_range]

theorem OwnAt.whole {n : Nat} {e : Elem} (h : OwnAt n e) (h0 : 0 < n) (v : Nat) : Whole (ownOff e, valBytes n v) := by
  refine ⟨?_, ?_, ?_⟩
  · rw [valBytes_length]
    exact h.inside
  · rwa [valBytes_length]
  · intro b hb
    obtain ⟨j, -, rfl⟩ := List.mem_map.1 hb
    rfl

theorem elemBytes_of_even {m : Nat} (heven : m = 2 * (m / 2)) (e : Elem) (v : Nat) : elemBytes e m v = valBytes (m / 2) v := by
  unfold elemBytes valBytes
  rw [if_neg (by omega), nibBytes_of_even heven]

theorem put_keeps {m : Nat} (heven : m = 2 * (m / 2)) (a : XAcc) (n k l : Nat) (e : Elem) (v : Nat) :
    (a.put n k l e m v).s = a.s ∧ (a.put n k l e m v).ws = (gather n a.ws l (valBytes (m / 2) v)).getD ((l, valBytes (m / 2) v) :: a.ws) := by
  unfold XAcc.put
  rw [elemBytes_of_even heven]
  exact count_keeps ..

/-- An element put into each of several scratchpads at its offset. -/
theorem puts_eq {m : Nat} (heven : m = 2 * (m / 2)) (e : Elem) (n k v off : Nat) (ps : List Nat) (a : XAcc) :
    (ps.foldl (fun a p => a.put n k (p * 0x200000 + off) e m v) a).s = a.s ∧
    (ps.foldl (fun a p => a.put n k (p * 0x200000 + off) e m v) a).ws = putAll n ps (off, valBytes (m / 2) v) a.ws := by
  induction ps generalizing a with
  | nil => exact ⟨rfl, rfl⟩
  | cons p ps ih =>
    obtain ⟨hs, hw⟩ := ih (a.put n k (p * 0x200000 + off) e m v)
    obtain ⟨gs, gw⟩ := put_keeps heven a n k (p * 0x200000 + off) e v
    have hpad : inPad p (off, valBytes (m / 2) v) = (p * 0x200000 + off, valBytes (m / 2) v) := by simp only [inPad]
    rw [List.foldl_cons]
    refine ⟨hs.trans gs, ?_⟩
    rw [hw, putAll_cons, gw, hpad]

/-- The scratchpads that a copy writes: its own core's, or those of the cores of a multicast. -/
def XCopy.pads (x : XCopy) : List Nat :=
  match x.cores with
  | none => [0x1000000 + x.k]
  | some cs => cs.map fun i => 0x1000000 + 192 * (x.k / 192) + i

theorem scratchLoc_pad (k off : Nat) : scratchLoc k + off = (0x1000000 + k) * 0x200000 + off := by
  rw [scratchLoc]
  omega

theorem scratchLoc_die (d i off : Nat) : scratchLoc (192 * d + i) + off = (0x1000000 + 192 * d + i) * 0x200000 + off := by
  rw [scratchLoc]
  omega

theorem scratchOff_scratchLoc (k : Nat) {off : Nat} (h : off < 0x200000) : scratchOff (scratchLoc k + off) = off := by
  unfold scratchOff scratchLoc
  omega

theorem XCopy.pads_own {x : XCopy} (h : x.cores = none) : x.pads = [0x1000000 + x.k] := by
  unfold XCopy.pads
  rw [h]

theorem XCopy.pads_multicast {x : XCopy} {cs : List Nat} (h : x.cores = some cs) :
    x.pads = cs.map fun i => 0x1000000 + 192 * (x.k / 192) + i := by
  unfold XCopy.pads
  rw [h]

theorem XCopy.store_own {x : XCopy} (h : x.cores = none) (a : XAcc) (e : Elem) (l v : Nat) :
    x.store a e l v = a.put 1 x.k l e (nibbles x.df) v := by
  unfold XCopy.store
  rw [h]

theorem XCopy.store_multicast {x : XCopy} {cs : List Nat} (h : x.cores = some cs) (a : XAcc) (e : Elem) (l v : Nat) : x.store a e l v =
    cs.foldl (fun a i => a.put cs.length x.k (scratchLoc (192 * coreDie x.k + i) + scratchOff l) e (nibbles x.df) v) a := by
  unfold XCopy.store
  rw [h]

theorem XCopy.store_eq (x : XCopy) (a : XAcc) (e : Elem) {off : Nat} (ho : off < 0x200000) (v : Nat) :
    x.store a e (scratchLoc x.k + off) v = x.pads.foldl (fun a p => a.put x.pads.length x.k (p * 0x200000 + off) e (nibbles x.df) v) a := by
  cases hc : x.cores with
  | none =>
    rw [x.store_own hc, x.pads_own hc, scratchLoc_pad, List.foldl_cons, List.foldl_nil, List.length_singleton]
  | some cs =>
    rw [x.store_multicast hc, x.pads_multicast hc]
    simp only [List.foldl_map, List.length_map, scratchOff_scratchLoc x.k ho]
    simp only [coreDie, scratchLoc_die]

/-- An element is written at its offset in each of them. -/
theorem Gathered.store {x : XCopy} (hnd : x.pads.Nodup) (heven : nibbles x.df = 2 * (nibbles x.df / 2)) (h0 : 0 < nibbles x.df) {s : State}
    {l : List (Nat × Byte × Byte)} {a : XAcc} (h : Gathered s x.pads l a) {e : Elem} (he : OwnAt (nibbles x.df / 2) e) (v : Nat) :
    Gathered s x.pads (l ++ cells (ownOff e, valBytes (nibbles x.df / 2) v)) (x.store a e (elemLoc x.k e) v) := by
  have hi := he.inside
  obtain ⟨blocks, hws, hwhole, hcells⟩ := h.blocks
  have hv := he.whole (by omega) v
  obtain ⟨gs, gw⟩ := puts_eq heven e x.pads.length x.k v (ownOff e) x.pads a
  rw [elemLoc_eq, x.store_eq a e (by omega)]
  refine ⟨gs.trans h.state, addPiece (ownOff e, valBytes (nibbles x.df / 2) v) blocks, ?_, whole_addPiece hv hwhole, ?_⟩
  · rw [gw, hws, putAll_spread hv hwhole hnd]
  · rw [cells_addPiece hv hwhole, hcells]

end Sys2Proof.Machine
end

section
/-! SUPPORT. The runs of transfer commands over elements of the own scratchpad: the accesses one by one, in walk order (R166, R194 to R198). -/

namespace Sys2Proof.Machine

open Sys2Proof.Safety

/-- What a copied element holds. -/
def XIn.value (s : State) (by_ : Writer) (k n : Nat) : XIn → Nat
  | .place e => elemVal s by_ k n e
  | .bits v => v

/-- A source that is a place of the own scratchpad, or given bits. -/
def XIn.Own (n : Nat) : XIn → Prop
  | .place e => OwnAt n e
  | .bits _ => True

/-- A run between sides of one format of whole bytes, in unscaled banks, that may touch either tier. -/
structure Plain (x : XCopy) : Prop where
  even : nibbles x.df = 2 * (nibbles x.df / 2)
  pos : 0 < nibbles x.df
  fmt : x.sf = x.df
  unscaled : Unscaled x.c.bf
  read : x.st = .any
  write : x.dt = .any
  pads : x.pads.Nodup

section
variable {x : XCopy} (hx : Plain x)
include hx

theorem Plain.fetched (a : XAcc) {i : XIn} (hi : i.Own (nibbles x.df / 2)) :
    ∃ b, x.fetch a i = (.ok (i.value a.s (x.c.src.writer x.k) x.k (nibbles x.df / 2), none), b) ∧ b.s = a.s ∧ b.ws = a.ws := by
  cases i with
  | bits v => exact ⟨a, rfl, rfl, rfl⟩
  | place e =>
    obtain ⟨b, hg, hs, hw⟩ := OwnAt.got hx.even hx.pos hi a x.k x.c x.zop .read
    refine ⟨b, ?_, hs, hw⟩
    unfold XCopy.fetch
    simp only [hx.fmt, hg, hx.read, Tier.holds, XAcc.scale, scaleOff_of_unscaled hx.unscaled, Option.map_none, ite_self, if_true]
    rfl

/-- Each element is read and gathered at its place. -/
theorem Plain.loop {s : State} (items : List (XIn × Elem × Nat))
    (hi : ∀ p ∈ items, p.1.Own (nibbles x.df / 2) ∧ OwnAt (nibbles x.df / 2) p.2.1) (m : Nat) {l : List (Nat × Byte × Byte)} {a : XAcc}
    (h : Gathered s x.pads l a) : (x.loop a m items).stop = none ∧ (x.loop a m items).progress = m + items.length ∧
      Gathered s x.pads (l ++ items.flatMap fun p =>
        cells (ownOff p.2.1, valBytes (nibbles x.df / 2) (p.1.value s (x.c.src.writer x.k) x.k (nibbles x.df / 2)))) (x.loop a m items).a := by
  induction items generalizing a m l with
  | nil => exact ⟨rfl, rfl, by rwa [List.flatMap_nil, List.append_nil]⟩
  | cons p t ih =>
    obtain ⟨i, e, r⟩ := p
    obtain ⟨hin, hat⟩ := hi _ List.mem_cons_self
    obtain ⟨b, hf, hs, hw⟩ := hx.fetched a hin
    have hb := h.congr hs hw
    have hstore := Gathered.store hx.pads hx.even hx.pos (h.congr (b := { b with s := b.s, flags := b.flags ||| 0#8 }) hs hw) hat
      (i.value s (x.c.src.writer x.k) x.k (nibbles x.df / 2))
    have hstep : x.loop a m ((i, e, r) :: t) = x.loop (x.store { b with s := b.s, flags := b.flags ||| 0#8 } e (elemLoc x.k e)
        (i.value s (x.c.src.writer x.k) x.k (nibbles x.df / 2))) (m + 1) t := by
      rw [← h.state]
      rw [XCopy.loop, hf]
      simp only [nibBytes_of_even hx.even, hat.located (by have := hx.even; have := hx.pos; omega), hx.write, Tier.holds, XAcc.scale,
        scaleOff_of_unscaled hx.unscaled, hx.fmt, convElem]
      simp
    obtain ⟨hstop, hprog, hg⟩ := ih (fun p hp => hi p (List.mem_cons_of_mem _ hp)) (m + 1) hstore
    rw [hstep]
    refine ⟨hstop, ?_, ?_⟩
    · rw [hprog, List.length_cons]
      omega
    · rwa [List.flatMap_cons, ← List.append_assoc]

/-- The places copied to, each with what it gets, as bytes at their offsets. -/
def copied (s : State) (by_ : Writer) (k n : Nat) (ps : List (Elem × Elem)) : List (Nat × Byte × Byte) :=
  ps.flatMap fun p => cells (ownOff p.1, valBytes n (elemVal s by_ k n p.2))

omit hx in
theorem drawOrder_of_not_sr {m : RMode} (h : m ≠ .sr) (gen : Dword) (dst : List Elem) : drawOrder m gen dst = dst.map fun _ => 0 := by
  cases m with
  | sr => exact absurd rfl h
  | rne => rfl
  | rtz => rfl
  | rdn => rfl
  | rup => rfl

omit hx in
theorem zip_draws (src dst : List Elem) :
    (src.map XIn.place).zip (dst.zip (dst.map fun _ => 0)) = (dst.zip src).map fun p => (XIn.place p.2, p.1, 0) := by
  induction src generalizing dst with
  | nil => simp
  | cons e t ih =>
    cases dst with
    | nil => rfl
    | cons d u => exact congrArg _ (ih u)

/-- A copy of whole walks (R166). -/
theorem Plain.run (hm : x.m ≠ .sr) (hp : x.c.progress = 0) {src dst : List Elem} (hsrc : ∀ e ∈ src, OwnAt (nibbles x.df / 2) e)
    (hdst : ∀ e ∈ dst, OwnAt (nibbles x.df / 2) e) {s : State} {a : XAcc} (h : Gathered s x.pads [] a) :
    (x.run a (src.map XIn.place) src dst).stop = none ∧ (x.run a (src.map XIn.place) src dst).progress = (dst.zip src).length ∧
      Gathered s x.pads (copied s (x.c.src.writer x.k) x.k (nibbles x.df / 2) (dst.zip src)) (x.run a (src.map XIn.place) src dst).a := by
  have hrun : x.run a (src.map XIn.place) src dst = x.loop a 0 ((dst.zip src).map fun p => (XIn.place p.2, p.1, 0)) := by
    unfold XCopy.run
    rw [drawOrder_of_not_sr hm, zip_draws, hp, List.drop_zero, hx.fmt]
    simp
  have hitems : ∀ p ∈ (dst.zip src).map fun p : Elem × Elem => (XIn.place p.2, p.1, 0),
      p.1.Own (nibbles x.df / 2) ∧ OwnAt (nibbles x.df / 2) p.2.1 := by
    intro p hmem
    obtain ⟨q, hq, rfl⟩ := List.mem_map.1 hmem
    exact ⟨hsrc _ (List.of_mem_zip hq).2, hdst _ (List.of_mem_zip hq).1⟩
  obtain ⟨hstop, hprog, hg⟩ := hx.loop _ hitems 0 h
  rw [hrun]
  refine ⟨hstop, ?_, ?_⟩
  · rw [hprog, List.length_map, Nat.zero_add]
  · rwa [List.nil_append, List.flatMap_map] at hg

/-- A fill of a whole walk (R195). -/
theorem Plain.fills (hm : x.m ≠ .sr) (hp : x.c.progress = 0) (src d : XSet) (hdst : ∀ e ∈ d.walk (nibbles x.df), OwnAt (nibbles x.df / 2) e)
    {s : State} {a : XAcc} (h : Gathered s x.pads [] a) :
    (runFill x a src d).stop = none ∧ (runFill x a src d).progress = (d.walk (nibbles x.df)).length ∧
      Gathered s x.pads ((d.walk (nibbles x.df)).flatMap fun e => cells (ownOff e, valBytes (nibbles x.df / 2) (fillBits src)))
        (runFill x a src d).a := by
  have hrun : runFill x a src d = x.loop a 0 ((d.walk (nibbles x.df)).map fun e => (XIn.bits (fillBits src), e, 0)) := by
    have hzip (l : List Elem) : (l.zip (l.map fun _ => 0)).map (fun p => (XIn.bits (fillBits src), p.1, p.2)) =
        l.map fun e => (XIn.bits (fillBits src), e, 0) := by
      induction l with
      | nil => rfl
      | cons e t ih => exact congrArg _ ih
    unfold runFill
    dsimp only
    rw [drawOrder_of_not_sr hm, hzip, hp, List.drop_zero, hx.fmt]
    simp
  have hitems : ∀ p ∈ (d.walk (nibbles x.df)).map fun e => (XIn.bits (fillBits src), e, 0),
      p.1.Own (nibbles x.df / 2) ∧ OwnAt (nibbles x.df / 2) p.2.1 := by
    intro p hmem
    obtain ⟨e, he, rfl⟩ := List.mem_map.1 hmem
    exact ⟨trivial, hdst e he⟩
  obtain ⟨hstop, hprog, hg⟩ := hx.loop _ hitems 0 h
  rw [hrun]
  refine ⟨hstop, ?_, ?_⟩
  · rw [hprog, List.length_map, Nat.zero_add]
  · rwa [List.nil_append, List.flatMap_map] at hg

/-- Elements read whole, as half bytes. -/
theorem Plain.readAll (es : List Elem) (he : ∀ e ∈ es, OwnAt (nibbles x.df / 2) e) (acc : List Nat) (a : XAcc) :
    ∃ b, x.readAll a acc es = (.ok (acc.reverse ++ es.flatMap fun e =>
      nibsOf (elemVal a.s (x.c.src.writer x.k) x.k (nibbles x.df / 2) e) (nibbles x.df)), b) ∧ b.s = a.s ∧ b.ws = a.ws := by
  induction es generalizing acc a with
  | nil => exact ⟨a, by simp [XCopy.readAll], rfl, rfl⟩
  | cons e t ih =>
    obtain ⟨b, hf, hs, hw⟩ := hx.fetched a (i := .place e) (he e List.mem_cons_self)
    obtain ⟨b', hr, hs', hw'⟩ := ih (fun e h => he e (List.mem_cons_of_mem _ h))
      ((nibsOf (elemVal a.s (x.c.src.writer x.k) x.k (nibbles x.df / 2) e) (nibbles x.df)).reverse ++ acc) b
    refine ⟨b', ?_, hs'.trans hs, hw'.trans hw⟩
    rw [XCopy.readAll, hf]
    dsimp only [XIn.value]
    rw [hx.fmt, hr, hs]
    simp

end

theorem ofNibs_nibsOf (v n : Nat) (h : v < 16 ^ n) : ofNibs (nibsOf v n) = v := by
  induction n generalizing v with
  | zero =>
    rw [Nat.pow_zero] at h
    rw [nibsOf, ofNibs]
    omega
  | succ n ih =>
    rw [nibsOf, ofNibs, ih (v / 16) (by rw [Nat.pow_succ] at h; omega)]
    omega

theorem nibsOf_length (v n : Nat) : (nibsOf v n).length = n := by
  induction n generalizing v with
  | zero => rfl
  | succ n ih => rw [nibsOf, List.length_cons, ih]

/-- The indices of a walk of whole-byte elements (R196). -/
theorem readIndices_own {f : Fmt} (heven : nibbles f = 2 * (nibbles f / 2)) (h0 : 0 < nibbles f) (k : Nat) (c : Cmd) (zop : Bool) (es : List Elem)
    (he : ∀ e ∈ es, OwnAt (nibbles f / 2) e) (acc : List Int) (a : XAcc) :
    ∃ b, readIndices k c f zop a acc es = (.ok (acc.reverse ++ es.map fun e =>
      toSigned ((intBits f).getD 32) (elemVal a.s (c.src.writer k) k (nibbles f / 2) e)), b) ∧ b.s = a.s ∧ b.ws = a.ws := by
  induction es generalizing acc a with
  | nil => exact ⟨a, by simp [readIndices], rfl, rfl⟩
  | cons e t ih =>
    obtain ⟨b, hg, hs, hw⟩ := OwnAt.got heven h0 (he e List.mem_cons_self) a k c zop .read
    obtain ⟨b', hr, hs', hw'⟩ := ih (fun e h => he e (List.mem_cons_of_mem _ h))
      (toSigned ((intBits f).getD 32) (elemVal a.s (c.src.writer k) k (nibbles f / 2) e) :: acc) b
    refine ⟨b', ?_, hs'.trans hs, hw'.trans hw⟩
    rw [readIndices, hg]
    dsimp only
    rw [hr, hs]
    simp

theorem badIndex_none {n : Nat} {is : List Int} (h : ∀ i ∈ is, 0 ≤ i ∧ i < n) (j : Nat) : badIndex n j is = none := by
  induction is generalizing j with
  | nil => rfl
  | cons i t ih =>
    have hi := h i List.mem_cons_self
    rw [badIndex, if_neg (by omega)]
    exact ih (fun x hx => h x (List.mem_cons_of_mem _ hx)) _

/-- Rows of a table move as the indices choose (R196, R197). -/
theorem runIndexed_own {x : XCopy} {gatherK : Bool} {s d p : XSet} (hix : x.c.ixs = none)
    (heven : nibbles (setFmt x.c.bf p) = 2 * (nibbles (setFmt x.c.bf p) / 2)) (h0 : 0 < nibbles (setFmt x.c.bf p))
    (hp : ∀ e ∈ p.walk (nibbles (setFmt x.c.bf p)), OwnAt (nibbles (setFmt x.c.bf p) / 2) e) (a : XAcc) {is : List Int}
    (his : is = (p.walk (nibbles (setFmt x.c.bf p))).map fun e => toSigned ((intBits (setFmt x.c.bf p)).getD 32)
      (elemVal a.s (x.c.src.writer x.k) x.k (nibbles (setFmt x.c.bf p) / 2) e))
    (hin : ∀ i ∈ is, 0 ≤ i ∧ i < (if gatherK then s else d).c 1) : ∃ b, b.s = a.s ∧ b.ws = a.ws ∧ runIndexed x a gatherK s d p =
      (x.run b ((if gatherK then s.rows (nibbles x.sf) is else s.walk (nibbles x.sf)).map XIn.place)
        (if gatherK then s.rows (nibbles x.sf) is else s.walk (nibbles x.sf))
        (if gatherK then d.walk (nibbles x.df) else d.rows (nibbles x.df) is), some is) := by
  obtain ⟨b, hr, hs, hw⟩ := readIndices_own heven h0 x.k x.c p.zop (p.walk (nibbles (setFmt x.c.bf p))) hp [] a
  rw [List.reverse_nil, List.nil_append, ← his] at hr
  refine ⟨b, hs, hw, ?_⟩
  unfold runIndexed
  simp only [hix, hr, badIndex_none hin]

/-! ### Runs that gather no writes -/

/-- From s to t core k's commands and job, memory and what is on its way are as before. -/
structure Kept (k : Nat) (s t : State) : Prop where
  mem : t.mem = s.mem
  writes : t.writes = s.writes
  updates : t.updates = s.updates
  combines : t.combines = s.combines
  out : t.out = s.out
  cmds : (t.core k).x.cmds = (s.core k).x.cmds
  job : (t.core k).job = (s.core k).job

section
variable {k : Nat} {s t u : State}

theorem Kept.refl : Kept k s s := ⟨rfl, rfl, rfl, rfl, rfl, rfl, rfl⟩

theorem Kept.trans (h : Kept k s t) (g : Kept k t u) : Kept k s u :=
  ⟨g.mem.trans h.mem, g.writes.trans h.writes, g.updates.trans h.updates, g.combines.trans h.combines, g.out.trans h.out,
    g.cmds.trans h.cmds, g.job.trans h.job⟩

theorem Kept.cmdRef (h : Kept k s t) (c : Cmd) : t.cmdRef k c = s.cmdRef k c := by
  unfold State.cmdRef
  rw [h.job]

theorem kept_modDie (s : State) (d : Nat) (f : Die → Die) : Kept k s (s.modDie d f) := ⟨rfl, rfl, rfl, rfl, rfl, rfl, rfl⟩

theorem kept_fresh (s : State) (n : Nat) : Kept k s { s with fresh := n } := ⟨rfl, rfl, rfl, rfl, rfl, rfl, rfl⟩

theorem kept_next (s : State) (n : Nat) : Kept k s { s with next := n } := ⟨rfl, rfl, rfl, rfl, rfl, rfl, rfl⟩

theorem kept_countSent (s : State) (d h : Nat) : Kept k s (s.countSent d h) := by
  unfold State.countSent
  split
  · exact .refl
  · exact kept_modDie ..

theorem kept_modCore (s : State) {f : Core → Core} (hx : (f (s.core k)).x.cmds = (s.core k).x.cmds) (hj : (f (s.core k)).job = (s.core k).job) :
    Kept k s (s.modCore k f) := ⟨rfl, rfl, rfl, rfl, rfl, by rw [State.core_modCore_self, hx], by rw [State.core_modCore_self, hj]⟩

theorem kept_account (s : State) (f : Byte) (x : Nat) : Kept k s (s.account f x) := by
  have hc := account_core s f x k
  rw [account_rest] at hc ⊢
  exact ⟨rfl, rfl, rfl, rfl, rfl, by rw [hc], by rw [hc]⟩

theorem kept_meter (s : State) (x : Nat) : Kept k s (s.meter k x) := by
  unfold State.meter
  dsimp only
  split
  · exact .refl
  · split
    · exact .refl
    · exact (kept_modCore s (f := fun c => { c with meterFunc := c.meterFunc + x, meterJob := c.meterJob + x }) rfl rfl).trans (kept_account ..)

theorem kept_charge (s : State) (e l f n : Nat) : Kept k s (s.charge k e l f n) := kept_meter ..

theorem kept_walked (s : State) (as : List Nat) : Kept k s (s.walked k as) := by
  unfold State.walked
  induction as generalizing s with
  | nil => exact .refl
  | cons a as ih => exact (((kept_modDie s ..).trans (kept_charge ..)).trans (kept_charge ..)).trans (ih _)

theorem kept_translate (s : State) (f : Byte) (va : Nat) (acc : Access) (seq : Bool) : Kept k s (s.translate k f va acc seq).2 := by
  have hfresh (b : Bool) (n : Nat) : Kept k s (if b then s else { s with fresh := n }) := by
    cases b
    · exact kept_fresh ..
    · exact .refl
  unfold State.translate
  extract_lets fresh vp hit old new same useOld s1 s2
  have hs1 : Kept k s s1 := hfresh same _
  have hs2 : Kept k s s2 := hs1.trans (kept_walked ..)
  clear_value s2 s1 useOld same old new fresh
  split
  · exact hs1
  · split
    · exact hs1
    · dsimp only
      split
      · exact hs2
      · exact hs2.trans (kept_modCore _ rfl rfl)

/-- An access that finds its location keeps these. -/
theorem kept_xLocate {c : Cmd} {e : Dword} {n l : Nat} {acc : Access} (h : s.xLocate k c e n acc = (.ok l, u)) : Kept k s u := by
  by_cases hv : ∃ va, placeOf e n = .ok (.virt va)
  · obtain ⟨va, hp⟩ := hv
    have ht := kept_translate (k := k) s (s.core k).funcOf va acc false
    rwa [((xLocate_virt hp).1 h).1] at ht
  · obtain ⟨r, hr⟩ := xLocate_real s (k := k) (c := c) (acc := acc) (not_exists.1 hv)
    obtain ⟨-, rfl⟩ := Prod.mk.inj ((hr s.due).symm.trans h)
    exact .refl

end

/-! ### Cells and rows -/

/-- Elements of m half bytes are put to the peer's places in order (R200). -/
theorem putCells_eq {m : Nat} (heven : m = 2 * (m / 2)) (es : List Elem) (vs : List Nat) (hlen : es.length = vs.length)
    (hv : ∀ v ∈ vs, v < 16 ^ m) :
    putCells m (vs.flatMap (nibsOf · m)) es = (es.zip vs).map fun p => (p.1.addr, valBytes (m / 2) p.2) := by
  induction es generalizing vs with
  | nil => rfl
  | cons e es ih =>
    cases vs with
    | nil => simp at hlen
    | cons v vs =>
      have hn := nibsOf_length v m
      have htake : (nibsOf v m ++ vs.flatMap (nibsOf · m)).take m = nibsOf v m := List.take_left' hn
      have hdrop : (nibsOf v m ++ vs.flatMap (nibsOf · m)).drop m = vs.flatMap (nibsOf · m) := List.drop_left' hn
      rw [List.flatMap_cons, putCells, htake, hdrop, ofNibs_nibsOf v m (hv v List.mem_cons_self), elemBytes_of_even heven,
        ih vs (Nat.succ_injective hlen) fun w hw => hv w (List.mem_cons_of_mem _ hw)]
      rfl

/-- Rows of eight half bytes are the values read. -/
theorem rowsOf_eq (vs : List Nat) (hv : ∀ v ∈ vs, v < 16 ^ 8) : (rowsOf 8 (vs.flatMap (nibsOf · 8)) vs.length).map ofNibs = vs := by
  induction vs with
  | nil => rfl
  | cons v vs ih =>
    have hn := nibsOf_length v 8
    have hne : (nibsOf v 8 ++ vs.flatMap (nibsOf · 8)).isEmpty = false := rfl
    have htake : (nibsOf v 8 ++ vs.flatMap (nibsOf · 8)).take 8 = nibsOf v 8 := List.take_left' hn
    have hdrop : (nibsOf v 8 ++ vs.flatMap (nibsOf · 8)).drop 8 = vs.flatMap (nibsOf · 8) := List.drop_left' hn
    rw [List.flatMap_cons, List.length_cons, rowsOf, hne, htake, hdrop]
    rw [if_neg Bool.false_ne_true, List.map_cons, ofNibs_nibsOf v 8 (hv v List.mem_cons_self), ih fun w hw => hv w (List.mem_cons_of_mem _ hw)]

/-! ### Updates -/

/-- The update that element n of an accumulate-on-write command sends from place e to place f (R170). -/
def elemUpdate (s : State) (k : Nat) (c : Cmd) (op : BitVec 6) (ret zop : Bool) (n : Nat) (e f : Elem) : Update :=
  { id := s.next, ref := s.cmdRef k c, func := (s.core k).funcOf, ix := n, core := k, home := homeDie (elemLoc k f), unit := unitOf (elemLoc k f),
    loc := elemLoc k f, addr := f.addr, op := op, v := elemVal s (c.src.writer k) k (nibbles (acwFmt op) / 2) e,
    back := if ret then some (elemLoc k e) else none, zop := zop, stamp := (s.die (coreDie k)).vclk, word := c.word }

section
variable {k : Nat} {c : Cmd} {op : BitVec 6} {ret : Bool} (heven : nibbles (acwFmt op) = 2 * (nibbles (acwFmt op) / 2)) (h0 : 0 < nibbles (acwFmt op))
include heven h0

theorem acwLoop_cons (x y : XSet) {e f : Elem} (he : OwnAt (nibbles (acwFmt op) / 2) e) (hf : OwnAt (nibbles (acwFmt op) / 2) f)
    (ps : List (Elem × Elem)) (n : Nat) (a : XAcc) :
    ∃ b, acwLoop k c op ret none x y a n ((e, f) :: ps) = acwLoop k c op ret none x y b (n + 1) ps ∧
      b.ws = a.ws ∧ Kept k { a.s with updates := a.s.updates ++ [elemUpdate a.s k c op ret y.zop n e f] } b.s := by
  obtain ⟨b, hg, hs, hb⟩ := OwnAt.got heven h0 he a k c x.zop (if ret then .write else .read)
  rw [acwLoop]
  dsimp only
  rw [hg]
  dsimp only
  rw [nibBytes_of_even heven, hf.located (by omega)]
  simp only [isHbm_elemLoc, Bool.false_and, Bool.false_eq_true, if_false, Option.any_none, Option.isSome_none, hs]
  refine ⟨_, rfl, (count_keeps ..).2.trans hb, ?_⟩
  rw [(count_keeps ..).1]
  dsimp only
  refine Kept.trans ?_ (kept_charge _ 1 6 0xF 1)
  refine Kept.trans ?_ (kept_countSent _ (coreDie k) (homeDie (elemLoc k f)))
  exact kept_next { a.s with updates := a.s.updates ++ [elemUpdate a.s k c op ret y.zop n e f] } (a.s.next + 1)

/-- An accumulate-on-write command sends one update for each element (R170, R204, R205). -/
theorem acwLoop_own {s : State} (x y : XSet) (ps : List (Elem × Elem))
    (hps : ∀ p ∈ ps, OwnAt (nibbles (acwFmt op) / 2) p.1 ∧ OwnAt (nibbles (acwFmt op) / 2) p.2) (n : Nat) {us : List Update} {a : XAcc}
    (h : Kept k { s with updates := s.updates ++ us } a.s) (hw : a.ws = []) :
    (acwLoop k c op ret none x y a n ps).stop = none ∧ (acwLoop k c op ret none x y a n ps).progress = n + ps.length ∧
      (acwLoop k c op ret none x y a n ps).a.ws = [] ∧
      ∃ vs, Kept k { s with updates := s.updates ++ us ++ vs } (acwLoop k c op ret none x y a n ps).a.s ∧
        vs.map (fun u => (u.loc, u.v, u.back)) = ps.map (fun p => (elemLoc k p.2, elemVal s (c.src.writer k) k (nibbles (acwFmt op) / 2) p.1,
          if ret then some (elemLoc k p.1) else none)) ∧
        ∀ u ∈ vs, u.op = op ∧ u.core = k ∧ u.ref = s.cmdRef k c ∧ u.det = none ∧ u.st = .flying := by
  induction ps generalizing n us a with
  | nil => exact ⟨rfl, rfl, hw, [], by rwa [List.append_nil], rfl, by simp⟩
  | cons p ps ih =>
    obtain ⟨e, f⟩ := p
    obtain ⟨he, hf⟩ := hps _ List.mem_cons_self
    obtain ⟨b, hloop, hbw, hkept⟩ := acwLoop_cons (k := k) (c := c) (ret := ret) heven h0 x y he hf ps n a
    generalize hu : elemUpdate a.s k c op ret y.zop n e f = u at hkept
    have hall : Kept k { s with updates := s.updates ++ (us ++ [u]) } b.s := by
      refine ⟨hkept.mem.trans h.mem, hkept.writes.trans h.writes, hkept.updates.trans ?_, hkept.combines.trans h.combines,
        hkept.out.trans h.out, hkept.cmds.trans h.cmds, hkept.job.trans h.job⟩
      change a.s.updates ++ [u] = _
      rw [h.updates, List.append_assoc]
    obtain ⟨hstop, hprog, hws, vs, hvs, hmap, hprops⟩ := ih (fun p hp => hps p (List.mem_cons_of_mem _ hp)) (n + 1) hall (hbw.trans hw)
    rw [hloop]
    refine ⟨hstop, ?_, hws, u :: vs, ?_, ?_, ?_⟩
    · rw [hprog, List.length_cons]
      omega
    · rwa [← List.append_assoc, List.append_assoc _ [u], List.singleton_append] at hvs
    · rw [List.map_cons, hmap, List.map_cons, ← hu, ← elemVal_congr (s := s) h.writes h.mem]
      rfl
    · rw [List.forall_mem_cons, ← hu]
      exact ⟨⟨rfl, rfl, h.cmdRef c, rfl, rfl⟩, hprops⟩

end

end Sys2Proof.Machine
end

section
/-! SUPPORT. Transfer commands whose elements lie in the own scratchpad, kind by kind: what the act that performs them sends (R65, R194 to R206). -/

namespace Sys2Proof.Machine

open Sys2Proof.Safety

/-! ### What has been sent -/

/-- The bytes of writes on their way, in order, with their locations and masks. -/
def sentBytes (ws : List Write) : List (Nat × Byte × Byte) := ws.flatMap fun w => w.data.zipIdx.map fun b => (w.loc + b.2, b.1)

/-- The n bytes of a value at a location, written whole. -/
def bytesAt (n l v : Nat) : List (Nat × Byte × Byte) := (List.range n).map fun j => (l + j, BitVec.ofNat 8 (v / 256 ^ j), 0xFF#8)

theorem sentBytes_eq (ws : List Write) : sentBytes ws = (ws.map fun w => (w.loc, w.data)).flatMap cells := by
  rw [List.flatMap_map]
  rfl

theorem cellsIn_flatMap {α : Type} (p : Nat) (es : List α) (g : α → Elem) (v : α → Nat) (n : Nat) :
    cellsIn p (es.flatMap fun e => cells (ownOff (g e), valBytes n (v e))) = es.flatMap fun e => bytesAt n (p * 0x200000 + ownOff (g e)) (v e) := by
  have hone (off v : Nat) : cellsIn p (cells (off, valBytes n v)) = bytesAt n (p * 0x200000 + off) v := by
    rw [valBytes, cells_wholeBytes, cellsIn, bytesAt, List.map_map]
    refine List.map_congr_left fun j _ => ?_
    rw [Function.comp_apply, Nat.add_assoc]
  rw [cellsIn, List.map_flatMap]
  exact List.flatMap_congr fun e _ => hone ..

theorem pad_own (k : Nat) (e : Elem) : (0x1000000 + k) * 0x200000 + ownOff e = elemLoc k e := by rw [← scratchLoc_pad, elemLoc_eq]

/-- The act performs command c of core k: it stands in state st with m elements done, memory is as before, and good holds of the state and it. -/
def Performs (s : State) (k : CoreIx) (c : Cmd) (st : CmdState) (m : Nat) (good : State → Cmd → Prop) : Prop :=
  ∃ t d, step s = .next t ∧ t.mem = s.mem ∧ t.cmd? k.val c.id = some d ∧ d.st = st ∧ d.progress = m ∧ good t d

/-- The act performs the command and puts writes of it on their way. -/
def SendsWrites (s : State) (k : CoreIx) (c : Cmd) (m : Nat) (good : List Write → Prop) : Prop :=
  Performs s k c .performed m fun t _ => ∃ ws, t.writes = s.writes ++ ws ∧
    (∀ w ∈ ws, w.by_ = c.src.writer k.val ∧ w.cmd = some c.id) ∧ good ws

section
variable {s : State} {k : CoreIx} {rest : List Act} {c : Cmd} {o : XOp} (h : Due s k rest c o)
include h

/-- The writes that a run has gathered are put on their way. -/
theorem Due.sends {e : XEnd} {ixs : Option (List Int)} {new : Option (BitVec 1024)} {ps : List Nat} {l : List (Nat × Byte × Byte)}
    (hr : runKind k.val c o { s := withDue s rest, lines := c.lines } = (e, ixs, new)) (hstop : e.stop = none)
    (hafter : o.kind.after = .performed) (g : Gathered (withDue s rest) ps l e.a) : SendsWrites s k c e.progress fun ws => ∃ blocks,
      (ws.map fun w => (w.loc, w.data)) = (spread ps blocks).reverse ∧ (∀ w ∈ blocks, Whole w) ∧ blocks.reverse.flatMap cells = l := by
  have hs := g.state
  obtain ⟨t, hstep, hran⟩ := h.ran hr hstop (by rw [hs]; rfl)
  obtain ⟨d, hd, hst, hprog, -⟩ := hran.cmd
  obtain ⟨ws, hws, hby, hmap⟩ := hran.writes
  obtain ⟨blocks, hb, hwhole, hcells⟩ := g.blocks
  rw [hafter] at hst
  have hmem := hran.mem
  rw [hs] at hws hmem
  exact ⟨t, d, hstep, hmem, hd, hst, hprog, ws, hws, hby, blocks, by rw [hmap, hb], hwhole, hcells⟩

/-- Of a run that writes its own core's scratchpad. -/
theorem Due.sends_own {e : XEnd} {ixs : Option (List Int)} {new : Option (BitVec 1024)} {l : List (Nat × Byte × Byte)}
    (hr : runKind k.val c o { s := withDue s rest, lines := c.lines } = (e, ixs, new)) (hstop : e.stop = none)
    (hafter : o.kind.after = .performed) (g : Gathered (withDue s rest) [0x1000000 + k.val] l e.a) :
    SendsWrites s k c e.progress fun ws => sentBytes ws = cellsIn (0x1000000 + k.val) l := by
  obtain ⟨t, d, hstep, hmem, hd, hst, hprog, ws, hws, hby, blocks, hmap, -, hcells⟩ := h.sends hr hstop hafter g
  refine ⟨t, d, hstep, hmem, hd, hst, hprog, ws, hws, hby, ?_⟩
  dsimp only
  rw [sentBytes_eq, hmap, spread_singleton, ← List.map_reverse, flatMap_cells_inPad, hcells]

end

/-! ### Copies, gathers, scatters and fills -/

/-- The cores of a multicast are named once each (R198). -/
theorem coreSet_nodup {aux : Dword} {cs : List Nat} (h : coreSet aux = some cs) : cs.Nodup := by
  unfold coreSet at h
  extract_lets first count step l at h
  split at h
  · exact absurd h (by simp)
  · next hok =>
    simp only [Bool.or_eq_true, decide_eq_true_eq, not_or] at hok
    obtain ⟨⟨⟨⟨⟨-, hstep⟩, -⟩, -⟩, -⟩, -⟩ := hok
    rw [← Option.some.inj h]
    exact List.Nodup.map (fun i j hij => Nat.eq_of_mul_eq_mul_right (Nat.pos_of_ne_zero hstep) (Nat.add_left_cancel hij)) List.nodup_range

theorem plain_of_own {x : XCopy} (hnib : 2 ≤ nibbles x.df) (hf : x.sf = x.df) (hu : Unscaled x.c.bf) (hst : x.st = .any) (hdt : x.dt = .any)
    (hc : x.cores = none) : Plain x :=
  ⟨nibbles_even _ hnib, by omega, hf, hu, hst, hdt, by rw [x.pads_own hc]; exact List.nodup_singleton _⟩

/-- What a copy of a command between sides of one format needs to know. -/
def sameFormat (k : Nat) (c : Cmd) (o : XOp) (f : Fmt) : XCopy := { k := k, c := c, sf := f, df := f, m := o.m, zop := (setOf c.s).zop }

section
variable {s : State} {k : CoreIx} {rest : List Act} {c : Cmd} {o : XOp} (h : Due s k rest c o) (hp : c.progress = 0) (hm : o.m ≠ .sr)
  (hu : Unscaled c.bf) {f : Fmt} (hnib : 2 ≤ nibbles f)
include h hp hm hu hnib

/-- A command that copies elements of its own scratchpad there, after accesses that gather nothing, sends them. -/
theorem Due.copies {ixs : Option (List Int)} {b : XAcc} {src dst : List Elem} (hbs : b.s = withDue s rest) (hbw : b.ws = [])
    (hr : runKind k.val c o { s := withDue s rest, lines := c.lines } = ((sameFormat k.val c o f).run b (src.map XIn.place) src dst, ixs, none))
    (hafter : o.kind.after = .performed) (hsrc : ∀ e ∈ src, OwnAt (nibbles f / 2) e) (hdst : ∀ e ∈ dst, OwnAt (nibbles f / 2) e) :
    SendsWrites s k c (dst.zip src).length fun ws => sentBytes ws = (dst.zip src).flatMap fun e =>
      bytesAt (nibbles f / 2) (elemLoc k.val e.1) (elemVal s (c.src.writer k.val) k.val (nibbles f / 2) e.2) := by
  generalize hx : sameFormat k.val c o f = x at hr
  have hdf : x.df = f := by rw [← hx]; rfl
  have hxk : x.k = k.val := by rw [← hx]; rfl
  have hxc : x.c = c := by rw [← hx]; rfl
  have hxm : x.m = o.m := by rw [← hx]; rfl
  have hcores : x.cores = none := by rw [← hx]; rfl
  have hplain : Plain x := plain_of_own (by rwa [hdf]) (by rw [← hx]; rfl) (by rwa [hxc]) (by rw [← hx]; rfl) (by rw [← hx]; rfl) hcores
  have hb : Gathered (withDue s rest) x.pads [] b := ⟨hbs, [], hbw, by simp, rfl⟩
  obtain ⟨hstop, hprog, hg⟩ := hplain.run (by rwa [hxm]) (by rwa [hxc]) (src := src) (dst := dst) (by rwa [hdf]) (by rwa [hdf]) hb
  rw [x.pads_own hcores, hxk, hxc, hdf] at hg
  have hsent := h.sends_own hr hstop hafter hg
  rw [hprog, copied, cellsIn_flatMap] at hsent
  simp only [pad_own] at hsent
  exact hsent

variable (hfd : setFmt c.bf (setOf c.d) = f) (hfs : setFmt c.bf (setOf c.s) = f)
include hfd

/-- A fill (R195). -/
theorem Due.fill (hk : o.kind = .fill) (hfmt : (setOf c.s).fmt = f) (hdst : ∀ e ∈ (setOf c.d).walk (nibbles f), OwnAt (nibbles f / 2) e) :
    SendsWrites s k c ((setOf c.d).walk (nibbles f)).length fun ws => sentBytes ws = ((setOf c.d).walk (nibbles f)).flatMap fun e =>
      bytesAt (nibbles f / 2) (elemLoc k.val e) ((setOf c.s).aux.toNat % 256 ^ (nibbles f / 2)) := by
  have hbits : fillBits (setOf c.s) = (setOf c.s).aux.toNat % 256 ^ (nibbles f / 2) := by
    unfold fillBits
    rw [hfmt]
    conv_lhs => rw [nibbles_even f hnib, Nat.pow_mul]
  generalize hx : ({ k := k.val, c := c, sf := (setOf c.s).fmt, df := setFmt c.bf (setOf c.d), m := o.m, zop := (setOf c.s).zop } : XCopy) = x
  have hdf : x.df = f := by rw [← hx]; exact hfd
  have hxk : x.k = k.val := by rw [← hx]
  have hxc : x.c = c := by rw [← hx]
  have hplain : Plain x := plain_of_own (by rwa [hdf]) (by rw [hdf, ← hx]; exact hfmt) (by rwa [hxc])
    (by rw [← hx]) (by rw [← hx]) (by rw [← hx])
  have hr : runKind k.val c o { s := withDue s rest, lines := c.lines } =
      (runFill x { s := withDue s rest, lines := c.lines } (setOf c.s) (setOf c.d), none, none) := by
    unfold runKind
    rw [hk, ← hx]
  obtain ⟨hstop, hprog, hg⟩ := hplain.fills (by rwa [← hx]) (by rwa [hxc]) (setOf c.s) (setOf c.d) (by rwa [hdf])
    (gathered_start (withDue s rest) x.pads c.lines)
  rw [x.pads_own (by rw [← hx]), hxk, hdf] at hg
  rw [hdf] at hprog
  have hsent := h.sends_own hr hstop (by rw [hk]; rfl) hg
  rw [hprog, cellsIn_flatMap, hbits] at hsent
  simp only [pad_own] at hsent
  exact hsent

include hfs

/-- A copy (R194). -/
theorem Due.copy (hk : o.kind = .copy) (hsrc : ∀ e ∈ (setOf c.s).walk (nibbles f), OwnAt (nibbles f / 2) e)
    (hdst : ∀ e ∈ (setOf c.d).walk (nibbles f), OwnAt (nibbles f / 2) e) :
    SendsWrites s k c (((setOf c.d).walk (nibbles f)).zip ((setOf c.s).walk (nibbles f))).length fun ws => sentBytes ws =
      (((setOf c.d).walk (nibbles f)).zip ((setOf c.s).walk (nibbles f))).flatMap fun e =>
        bytesAt (nibbles f / 2) (elemLoc k.val e.1) (elemVal s (c.src.writer k.val) k.val (nibbles f / 2) e.2) := by
  have hr : runKind k.val c o { s := withDue s rest, lines := c.lines } =
      ((sameFormat k.val c o f).run { s := withDue s rest, lines := c.lines }
        (((setOf c.s).walk (nibbles f)).map XIn.place) ((setOf c.s).walk (nibbles f)) ((setOf c.d).walk (nibbles f)), none, none) := by
    unfold runKind
    rw [hk]
    dsimp only
    rw [hfd, hfs]
    rfl
  exact h.copies hp hm hu hnib rfl rfl hr (by rw [hk]; rfl) hsrc hdst

/-- A multicast to the cores of its set (R198). -/
theorem Due.multicast (hk : o.kind = .mcast) (hsrc : ∀ e ∈ (setOf c.s).walk (nibbles f), OwnAt (nibbles f / 2) e)
    (hdst : ∀ e ∈ (setOf c.d).walk (nibbles f), OwnAt (nibbles f / 2) e) {cs : List Nat} (hcs : coreSet (setOf c.d).aux = some cs)
    (hwin : ∀ i ∈ cs, s.windowOk k.val i = true) :
    SendsWrites s k c (((setOf c.d).walk (nibbles f)).zip ((setOf c.s).walk (nibbles f))).length fun ws =>
      (∀ w ∈ ws, ∃ i ∈ cs, w.loc / 0x200000 = 0x1000000 + 192 * (k.val / 192) + i) ∧
      ∀ i ∈ cs, sentBytes (ws.filter fun w => w.loc / 0x200000 == 0x1000000 + 192 * (k.val / 192) + i) =
        (((setOf c.d).walk (nibbles f)).zip ((setOf c.s).walk (nibbles f))).flatMap fun e =>
          bytesAt (nibbles f / 2) ((0x1000000 + 192 * (k.val / 192) + i) * 0x200000 + ownOff e.1)
            (elemVal s (c.src.writer k.val) k.val (nibbles f / 2) e.2) := by
  generalize hx : ({ k := k.val, c := c, sf := f, df := f, m := o.m, zop := (setOf c.s).zop, cores := some cs } : XCopy) = x
  have hpads : x.pads = cs.map fun i => 0x1000000 + 192 * (k.val / 192) + i := by
    rw [x.pads_multicast (cs := cs) (by rw [← hx]), ← hx]
  have hnd : x.pads.Nodup := by
    rw [hpads]
    exact (coreSet_nodup hcs).map fun i j hij => Nat.add_left_cancel hij
  have hdf : x.df = f := by rw [← hx]
  have hplain : Plain x := ⟨by rw [hdf]; exact nibbles_even f hnib, by rw [hdf]; omega, by rw [← hx], by rwa [← hx],
    by rw [← hx], by rw [← hx], hnd⟩
  have hr : runKind k.val c o { s := withDue s rest, lines := c.lines } = (x.run { s := withDue s rest, lines := c.lines }
      (((setOf c.s).walk (nibbles f)).map XIn.place) ((setOf c.s).walk (nibbles f)) ((setOf c.d).walk (nibbles f)), none, none) := by
    have hall : (cs.all fun i => (withDue s rest).windowOk k.val i) = true := List.all_eq_true.2 hwin
    unfold runKind
    rw [hk]
    dsimp only
    rw [hcs, hfd, hfs, Option.getD_some, if_pos hall, ← hx]
  obtain ⟨hstop, hprog, hg⟩ := hplain.run (by rwa [← hx]) (by rwa [← hx]) (src := (setOf c.s).walk (nibbles f))
    (dst := (setOf c.d).walk (nibbles f)) (by rwa [hdf]) (by rwa [hdf]) (gathered_start (withDue s rest) x.pads c.lines)
  obtain ⟨t, d, hstep, hmem, hd, hst, hdp, ws, hws, hby, blocks, hmap, hwhole, hcells⟩ := h.sends hr hstop (by rw [hk]; rfl) hg
  refine ⟨t, d, hstep, hmem, hd, hst, hdp.trans hprog, ws, hws, hby, ?_, ?_⟩
  · intro w hw
    have hmem : (w.loc, w.data) ∈ spread x.pads blocks := by
      rw [← List.mem_reverse, ← hmap]
      exact List.mem_map_of_mem hw
    have hpad := pad_of_mem_spread hwhole hmem
    rw [hpads] at hpad
    obtain ⟨i, hi, he⟩ := List.mem_map.1 hpad
    exact ⟨i, hi, he.symm⟩
  · intro i hi
    have hpad : 0x1000000 + 192 * (k.val / 192) + i ∈ x.pads := by
      rw [hpads]
      exact List.mem_map_of_mem hi
    rw [← cellsIn_flatMap]
    generalize 0x1000000 + 192 * (k.val / 192) + i = p at hpad
    have hfilter : (ws.filter fun w => w.loc / 0x200000 == p).map (fun w => (w.loc, w.data)) =
        (ws.map fun w => (w.loc, w.data)).filter fun v => v.1 / 0x200000 == p := by
      rw [List.filter_map]
      rfl
    rw [sentBytes_eq, hfilter, hmap, List.filter_reverse, filter_spread hnd hpad hwhole, ← List.map_reverse, flatMap_cells_inPad, hcells, ← hx]
    rfl

variable (hix : c.ixs = none) {fi : Fmt} (hfi : setFmt c.bf (setOf c.p) = fi) (hni : 2 ≤ nibbles fi)
  (hpair : ∀ e ∈ (setOf c.p).walk (nibbles fi), OwnAt (nibbles fi / 2) e) {is : List Int}
  (his : is = ((setOf c.p).walk (nibbles fi)).map fun e => toSigned ((intBits fi).getD 32) (elemVal s (c.src.writer k.val) k.val (nibbles fi / 2) e))
include hix hfi hni hpair his

/-- A gather of the rows of its source that the indices choose (R196). -/
theorem Due.gather (hk : o.kind = .gather) (hin : ∀ i ∈ is, 0 ≤ i ∧ i < (setOf c.s).c 1)
    (hsrc : ∀ e ∈ (setOf c.s).rows (nibbles f) is, OwnAt (nibbles f / 2) e)
    (hdst : ∀ e ∈ (setOf c.d).walk (nibbles f), OwnAt (nibbles f / 2) e) :
    SendsWrites s k c (((setOf c.d).walk (nibbles f)).zip ((setOf c.s).rows (nibbles f) is)).length fun ws => sentBytes ws =
      (((setOf c.d).walk (nibbles f)).zip ((setOf c.s).rows (nibbles f) is)).flatMap fun e =>
        bytesAt (nibbles f / 2) (elemLoc k.val e.1) (elemVal s (c.src.writer k.val) k.val (nibbles f / 2) e.2) := by
  subst hfi
  obtain ⟨b, hbs, hbw, hrun⟩ := runIndexed_own (x := sameFormat k.val c o f) (gatherK := true)
    (s := setOf c.s) (d := setOf c.d) hix (nibbles_even _ hni) (lt_of_lt_of_le Nat.two_pos hni) hpair { s := withDue s rest, lines := c.lines } his hin
  have hr : runKind k.val c o { s := withDue s rest, lines := c.lines } = ((sameFormat k.val c o f).run b
      (((setOf c.s).rows (nibbles f) is).map XIn.place) ((setOf c.s).rows (nibbles f) is) ((setOf c.d).walk (nibbles f)), some is, none) := by
    unfold runKind
    rw [hk]
    dsimp only
    rw [hfd, hfs]
    exact congrArg (fun r : XEnd × Option (List Int) => (r.1, r.2, none)) hrun
  exact h.copies hp hm hu hnib hbs hbw hr (by rw [hk]; rfl) hsrc hdst

/-- A scatter into the rows of its destination that the indices choose (R197). -/
theorem Due.scatter (hk : o.kind = .scatter) (hin : ∀ i ∈ is, 0 ≤ i ∧ i < (setOf c.d).c 1)
    (hdst : ∀ e ∈ (setOf c.d).rows (nibbles f) is, OwnAt (nibbles f / 2) e)
    (hsrc : ∀ e ∈ (setOf c.s).walk (nibbles f), OwnAt (nibbles f / 2) e) :
    SendsWrites s k c (((setOf c.d).rows (nibbles f) is).zip ((setOf c.s).walk (nibbles f))).length fun ws => sentBytes ws =
      (((setOf c.d).rows (nibbles f) is).zip ((setOf c.s).walk (nibbles f))).flatMap fun e =>
        bytesAt (nibbles f / 2) (elemLoc k.val e.1) (elemVal s (c.src.writer k.val) k.val (nibbles f / 2) e.2) := by
  subst hfi
  obtain ⟨b, hbs, hbw, hrun⟩ := runIndexed_own (x := sameFormat k.val c o f) (gatherK := false)
    (s := setOf c.s) (d := setOf c.d) hix (nibbles_even _ hni) (lt_of_lt_of_le Nat.two_pos hni) hpair { s := withDue s rest, lines := c.lines } his hin
  have hr : runKind k.val c o { s := withDue s rest, lines := c.lines } = ((sameFormat k.val c o f).run b
      (((setOf c.s).walk (nibbles f)).map XIn.place) ((setOf c.s).walk (nibbles f)) ((setOf c.d).rows (nibbles f) is), some is, none) := by
    unfold runKind
    rw [hk]
    dsimp only
    rw [hfd, hfs]
    exact congrArg (fun r : XEnd × Option (List Int) => (r.1, r.2, none)) hrun
  exact h.copies hp hm hu hnib hbs hbw hr (by rw [hk]; rfl) hsrc hdst

end

end Sys2Proof.Machine
end

section
/-! SUPPORT. Transfer commands that write no own memory: puts, updates, rows and descriptors (R200, R203 to R206). -/

namespace Sys2Proof.Machine

open Sys2Proof.Safety

section
variable {s : State} {k : CoreIx} {rest : List Act} {c : Cmd} {o : XOp} (h : Due s k rest c o)
include h

/-- A run that gathers no writes. -/
theorem Due.sends_none {e : XEnd} {new : Option (BitVec 1024)} {u : State}
    (hr : runKind k.val c o { s := withDue s rest, lines := c.lines } = (e, none, new))
    (hstop : e.stop = none) (hw : e.a.ws = []) (hkept : Kept k.val u e.a.s) (hcmds : (u.core k.val).x.cmds = (s.core k.val).x.cmds)
    (hmem : u.mem = s.mem) : Performs s k c o.kind.after e.progress fun t d =>
      t.writes = u.writes ∧ t.updates = u.updates ∧ t.combines = u.combines ∧ t.out = u.out ∧ d.new = new := by
  obtain ⟨t, hstep, hran⟩ := h.ran hr hstop (hkept.cmds.trans hcmds)
  obtain ⟨d, hd, hst, hprog, hnew⟩ := hran.cmd
  obtain ⟨ws, hws, -, hmap⟩ := hran.writes
  rw [hw, List.reverse_nil, List.map_eq_nil_iff] at hmap
  rw [hmap, List.append_nil] at hws
  exact ⟨t, d, hstep, hran.mem.trans (hkept.mem.trans hmem), hd, hst, hprog, hws.trans hkept.writes, hran.updates.trans hkept.updates,
    hran.combines.trans hkept.combines, hran.out.trans hkept.out, hnew⟩

end

theorem elemVal_lt_nibs (s : State) (by_ : Writer) (k : Nat) {m : Nat} (heven : m = 2 * (m / 2)) (e : Elem) : elemVal s by_ k (m / 2) e < 16 ^ m := by
  have hlt := elemVal_lt s by_ k (m / 2) e
  conv_rhs => rw [heven, Nat.pow_mul]
  exact hlt

theorem walk_length (x : XSet) (m : Nat) : (x.walk m).length = x.n := by
  rw [XSet.walk, List.length_map, upto, List.length_range]

/-- A walk read whole, as half bytes. -/
theorem flatMap_nibs (s : State) (by_ : Writer) (k m : Nat) (es : List Elem) :
    (es.flatMap fun e => nibsOf (elemVal s by_ k (m / 2) e) m) = (es.map (elemVal s by_ k (m / 2))).flatMap (nibsOf · m) := by
  rw [List.flatMap_map]

section
variable {s : State} {k : CoreIx} {rest : List Act} {c : Cmd} {o : XOp} (h : Due s k rest c o) (hu : Unscaled c.bf)
include h hu

/-- A put sends its cells to the peer (R200). -/
theorem Due.put {f : Fmt} (hnib : 2 ≤ nibbles f) (hfs : setFmt c.bf (setOf c.s) = f) (hk : o.kind = .put) {ctx : NetCtx}
    (hsrc : ∀ e ∈ (setOf c.s).walk (nibbles f), OwnAt (nibbles f / 2) e) (hfmt : (setOf c.d).fmt = f) (hn : (setOf c.d).n = (setOf c.s).n)
    (hctx : s.netCtx k.val (setOf c.d) = some ctx) : Performs s k c .network 0 fun t _ =>
      t.out = s.out ++ [.put ctx ((((setOf c.d).walk (nibbles f)).zip ((setOf c.s).walk (nibbles f))).map fun e =>
        (e.1.addr, valBytes (nibbles f / 2) (elemVal s (c.src.writer k.val) k.val (nibbles f / 2) e.2)))] ∧ t.writes = s.writes := by
  have heven := nibbles_even f hnib
  generalize hx : ({ k := k.val, c := c, sf := f, df := f, m := .rne, zop := (setOf c.s).zop, plain := true } : XCopy) = x
  have hdf : x.df = f := by rw [← hx]
  have hxk : x.k = k.val := by rw [← hx]
  have hxc : x.c = c := by rw [← hx]
  have hplain : Plain x := plain_of_own (by rwa [hdf]) (by rw [← hx]) (by rwa [hxc]) (by rw [← hx]) (by rw [← hx]) (by rw [← hx])
  obtain ⟨b, hread, hbs, hbw⟩ := hplain.readAll ((setOf c.s).walk (nibbles f)) (by rwa [hdf]) [] { s := withDue s rest, lines := c.lines }
  rw [hxk, hxc, hdf, flatMap_nibs, List.reverse_nil, List.nil_append] at hread
  have hctx' : (withDue s rest).netCtx k.val (setOf c.d) = some ctx := hctx
  have hcells := putCells_eq heven ((setOf c.d).walk (nibbles f))
    (((setOf c.s).walk (nibbles f)).map (elemVal (withDue s rest) (c.src.writer k.val) k.val (nibbles f / 2)))
    (by rw [List.length_map, walk_length, walk_length, hn]) fun v hv => by
      obtain ⟨e, -, rfl⟩ := List.mem_map.1 hv
      exact elemVal_lt_nibs _ _ _ heven e
  generalize hns : (((setOf c.s).walk (nibbles f)).map (elemVal (withDue s rest) (c.src.writer k.val) k.val (nibbles f / 2))).flatMap
    (nibsOf · (nibbles f)) = ns at hread hcells
  generalize hout : Out.put ctx (putCells (nibbles f) ns ((setOf c.d).walk (nibbles f))) = out
  have hr : runKind k.val c o { s := withDue s rest, lines := c.lines } =
      (⟨{ b with s := ((b.s.send out).netCharge k.val (ns.length / 2)).charge k.val 1 1 0xF (setOf c.d).n }, 0, none⟩, none, none) := by
    unfold runKind
    rw [hk]
    dsimp only
    unfold runPut
    dsimp only
    rw [hctx', hfs, hfmt, hx]
    dsimp only
    rw [hread]
    dsimp only
    rw [hout]
  have hkept : Kept k.val (b.s.send out) (((b.s.send out).netCharge k.val (ns.length / 2)).charge k.val 1 1 0xF (setOf c.d).n) :=
    ((kept_fresh _ _).trans (kept_meter _ _)).trans (kept_charge _ 1 1 0xF _)
  obtain ⟨t, d, hstep, hmem, hd, hst, hprog, hw, -, -, ho, -⟩ := h.sends_none hr rfl hbw hkept (by rw [hbs]; rfl) (by rw [hbs]; rfl)
  rw [hk] at hst
  refine ⟨t, d, hstep, hmem, hd, hst, hprog, ho.trans ?_, hw.trans (by rw [hbs]; rfl)⟩
  rw [hbs, ← hout, hcells, List.zip_map_right, List.map_map]
  rfl

omit hu in
/-- An accumulate-on-write command sends its updates (R170, R204, R205). -/
theorem Due.accumulate (hp : c.progress = 0) {op : BitVec 6} {ret : Bool} (hk : o.kind = .acw op ret false) (hnib : 2 ≤ nibbles (acwFmt op))
    (hsrc : ∀ e ∈ (setOf c.s).walk (nibbles (acwFmt op)), OwnAt (nibbles (acwFmt op) / 2) e)
    (hdst : ∀ e ∈ (setOf c.d).walk (nibbles (acwFmt op)), OwnAt (nibbles (acwFmt op) / 2) e) :
    Performs s k c .performed (((setOf c.d).walk (nibbles (acwFmt op))).zip ((setOf c.s).walk (nibbles (acwFmt op)))).length fun t _ =>
      ∃ us, t.updates = s.updates ++ us ∧ t.writes = s.writes ∧ us.map (fun u => (u.loc, u.v, u.back)) =
        (((setOf c.d).walk (nibbles (acwFmt op))).zip ((setOf c.s).walk (nibbles (acwFmt op)))).map (fun e =>
          (elemLoc k.val e.1, elemVal s (c.src.writer k.val) k.val (nibbles (acwFmt op) / 2) e.2, if ret then some (elemLoc k.val e.2) else none)) ∧
        ∀ u ∈ us, u.op = op ∧ u.core = k.val ∧ u.ref = s.cmdRef k.val c ∧ u.det = none ∧ u.st = .flying := by
  generalize hdw : (setOf c.d).walk (nibbles (acwFmt op)) = dst at hdst ⊢
  generalize hsw : (setOf c.s).walk (nibbles (acwFmt op)) = src at hsrc ⊢
  have hr : runKind k.val c o { s := withDue s rest, lines := c.lines } = (acwLoop k.val c op ret none (setOf c.s) (setOf c.d)
      { s := withDue s rest, lines := c.lines } 0 (src.zip dst), none, none) := by
    unfold runKind
    rw [hk]
    dsimp only
    unfold runAcw
    dsimp only
    rw [hp, hdw, hsw]
    rfl
  have hitems : ∀ p ∈ src.zip dst, OwnAt (nibbles (acwFmt op) / 2) p.1 ∧ OwnAt (nibbles (acwFmt op) / 2) p.2 := fun p hmem =>
    ⟨hsrc _ (List.of_mem_zip hmem).1, hdst _ (List.of_mem_zip hmem).2⟩
  have hstart : Kept k.val { withDue s rest with updates := (withDue s rest).updates ++ [] } (withDue s rest) := by
    rw [List.append_nil]
    exact .refl
  obtain ⟨hstop, hprog, hws, us, hkept, hmap, hprops⟩ := acwLoop_own (k := k.val) (c := c) (ret := ret) (nibbles_even _ hnib)
    (lt_of_lt_of_le Nat.two_pos hnib) (setOf c.s) (setOf c.d) (src.zip dst) hitems 0 (a := { s := withDue s rest, lines := c.lines }) hstart rfl
  obtain ⟨t, d, hstep, hmem, hd, hst, hdp, hw, hupd, -⟩ := h.sends_none hr hstop hws hkept rfl rfl
  rw [hk] at hst
  refine ⟨t, d, hstep, hmem, hd, hst, ?_, us, ?_, hw, ?_, hprops⟩
  · rw [hdp, hprog, Nat.zero_add, ← List.zip_swap, List.length_map]
  · rw [hupd, List.append_nil]
    rfl
  · rw [hmap, ← List.zip_swap, List.map_map]
    rfl

/-- The row that a combine sends to location l, from state u (R206). -/
def sentRow (u : State) (k : Nat) (c : Cmd) (l : Nat) (row : List Nat) : Combine :=
  ⟨u.next, u.cmdRef k c, k, l, ((setOf c.d).aux.extractLsb' 0 3).toNat, row, (u.die (coreDie k)).vclk⟩

/-- That row on its way, n elements charged. -/
def sendRow (u : State) (k l n : Nat) (m : Combine) : State :=
  (({ u with next := u.next + 1, combines := u.combines ++ [m] } : State).countSent (coreDie k) (homeDie l)).charge k 1 6 0xF n

omit h hu in
theorem kept_sendRow (u : State) (k l n : Nat) (m : Combine) : Kept k { u with combines := u.combines ++ [m] } (sendRow u k l n m) :=
  ((kept_next { u with combines := u.combines ++ [m] } _).trans (kept_countSent ..)).trans (kept_charge ..)

/-- A combine sends its row to the location that its entry's address resolves to (R206). -/
theorem Due.combine (hk : o.kind = .combine) (hsrc : ∀ e ∈ (setOf c.s).walk 8, OwnAt 4 e) {l : Nat} {u : State}
    (hl : s.xLocate k.val c (setOf c.d).base 64 .aow = (.ok l, u)) : Performs s k c .performed (setOf c.s).n fun t _ =>
      t.combines = s.combines ++ [sentRow u k.val c l (((setOf c.s).walk 8).map (elemVal s (c.src.writer k.val) k.val 4))] ∧
      t.writes = s.writes := by
  generalize hx : ({ k := k.val, c := c, sf := fFP32, df := fFP32, m := .rne, zop := (setOf c.s).zop, plain := true } : XCopy) = x
  have hdf : nibbles x.df = 8 := by rw [← hx]; rfl
  have hxk : x.k = k.val := by rw [← hx]
  have hxc : x.c = c := by rw [← hx]
  have hplain : Plain x := plain_of_own (by rw [hdf]; decide) (by rw [← hx]) (by rwa [hxc]) (by rw [← hx]) (by rw [← hx]) (by rw [← hx])
  obtain ⟨b, hread, hbs, hbw⟩ := hplain.readAll ((setOf c.s).walk 8) (by rwa [hdf]) [] { s := withDue s rest, lines := c.lines }
  rw [hxk, hxc, hdf, flatMap_nibs, List.reverse_nil, List.nil_append] at hread
  have hrow := rowsOf_eq (((setOf c.s).walk 8).map (elemVal (withDue s rest) (c.src.writer k.val) k.val (8 / 2))) fun v hv => by
    obtain ⟨e, -, rfl⟩ := List.mem_map.1 hv
    exact elemVal_lt_nibs _ _ _ (m := 8) rfl e
  rw [List.length_map, walk_length] at hrow
  have hl' := xLocate_withDue rest hl
  have hu := kept_xLocate hl
  generalize hrw : ((setOf c.s).walk 8).map (elemVal (withDue s rest) (c.src.writer k.val) k.val (8 / 2)) = row at hread hrow
  generalize hm : sentRow u k.val c l row = m
  have hr : runKind k.val c o { s := withDue s rest, lines := c.lines } =
      (⟨({ b with s := sendRow (withDue u rest) k.val l (setOf c.s).n m }).count k.val l (4 * (setOf c.s).n), (setOf c.s).n, none⟩,
        none, none) := by
    unfold runKind
    rw [hk]
    dsimp only
    unfold runCombine
    dsimp only
    rw [hx, hread]
    dsimp only
    rw [hbs]
    dsimp only
    rw [hl']
    dsimp only
    rw [hrow, ← hm]
    rfl
  obtain ⟨t, d, hstep, hmem, hd, hst, hprog, hw, -, hcomb, -⟩ := h.sends_none
    (u := { withDue u rest with combines := (withDue u rest).combines ++ [m] }) hr rfl ((count_keeps ..).2.trans hbw)
    (by rw [(count_keeps ..).1]; exact kept_sendRow (withDue u rest) k.val l (setOf c.s).n m) hu.cmds hu.mem
  rw [hk] at hst
  refine ⟨t, d, hstep, hmem, hd, hst, hprog, hcomb.trans ?_, hw.trans hu.writes⟩
  change u.combines ++ [m] = _
  rw [hu.combines, ← hm, ← hrw]
  rfl

omit hu in
/-- xcfg reads its descriptor (R203). -/
theorem Due.configure (hk : o.kind = .cfg) {e : Dword} (he : e = if c.src = .queue then c.operand else (setOf c.s).base)
    (hown : OwnAt 64 ⟨e, false⟩) (hin : ownOff ⟨e, false⟩ + 128 ≤ 0x200000) : Performs s k c .performed 0 fun t d =>
      t.writes = s.writes ∧ d.new = some (BitVec.ofNat 1024 (elemVal s (c.src.writer k.val) k.val 128 ⟨e, false⟩)) := by
  have hop : c.op?.getD (setOf c.s).base = e := by
    rw [he]
    unfold Cmd.op?
    by_cases hq : c.src = .queue
    · rw [if_pos hq, hq]
      rfl
    · have hne : (c.src == .queue) = false := by simpa using hq
      rw [if_neg hq, hne]
      rfl
  have hplace := hown.place (m := 128) (by omega) hin
  have hloc := hown.located (by omega) (withDue s rest) k.val c .read
  have hval := ownNat_elemLoc (withDue s rest) (c.src.writer k.val) k.val 128 ⟨e, false⟩
  generalize elemLoc k.val ⟨e, false⟩ = l at hloc hval
  have hr : runKind k.val c o { s := withDue s rest, lines := c.lines } =
      (⟨({ s := withDue s rest, lines := c.lines } : XAcc).count k.val l 128, 0, none⟩, none,
        some (BitVec.ofNat 1024 (elemVal (withDue s rest) (c.src.writer k.val) k.val 128 ⟨e, false⟩))) := by
    unfold runKind
    rw [hk]
    dsimp only
    rw [hop, hplace]
    dsimp only
    rw [hloc]
    dsimp only
    rw [hval]
  obtain ⟨t, d, hstep, hmem, hd, hst, hprog, hw, -, -, -, hnew⟩ := h.sends_none (u := withDue s rest) hr rfl (count_keeps ..).2
    (by rw [(count_keeps ..).1]; exact .refl) rfl rfl
  rw [hk] at hst
  exact ⟨t, d, hstep, hmem, hd, hst, hprog, hw, hnew⟩

end

end Sys2Proof.Machine
end

section
/-! O38: transfer commands access the elements of their descriptors, one by one. -/

namespace Sys2Proof.Machine

open Sys2Proof.Safety

/-- Writes of a list of values at locations, as the statement counts them. -/
theorem sendsWrites_map {α : Type} {s : State} {k : CoreIx} {c : Cmd} {n : Nat} {es : List α} {loc v : α → Nat}
    (h : SendsWrites s k c es.length fun ws => sentBytes ws = es.flatMap fun e => bytesAt n (loc e) (v e)) :
    SendsWrites s k c (es.map fun e => (loc e, v e)).length fun ws =>
      sentBytes ws = (es.map fun e => (loc e, v e)).flatMap fun p => bytesAt n p.1 p.2 := by
  rw [List.length_map, List.flatMap_map]
  exact h

end Sys2Proof.Machine

section

open Sys2Proof Sys2Proof.Machine Sys2Proof.Safety

/-- Settles O38: by the run of each kind of command over its elements, with what it has gathered as the invariant of the walk. -/
theorem transferCommandsMoveTheirElements : Obligations.TransferCommandsMoveTheirElements := by
  unfold Obligations.TransferCommandsMoveTheirElements
  intro s k rest c o hdue hcmd hop hst hp hix hblocked hfault hacq hm hu x y z own at_ performs f nib n bytes sent sends writes value
  have h : Due s k rest c o := ⟨hdue, hcmd, hop, hst, hblocked, hfault, hacq⟩
  refine ⟨fun hnib hfs => ⟨?_, ?_, ?_, ?_⟩, ?_, ?_, ?_, ?_⟩
  · intro hk hsrc hdst
    exact sendsWrites_map (h.copy hp hm hu hnib rfl hfs hk hsrc hdst)
  · intro hk hsrc hdst cs hcs hwin
    exact h.multicast hp hm hu hnib rfl hfs hk hsrc hdst hcs hwin
  · intro hk ctx hsrc hfmt hn hctx
    exact h.put hu hnib hfs hk hsrc hfmt hn hctx
  · intro fi ni is hni hpair
    refine ⟨?_, ?_⟩
    · intro hk hin rows hsrc hdst
      exact sendsWrites_map (h.gather hp hm hu hnib rfl hfs hix rfl hni hpair rfl hk hin hsrc hdst)
    · intro hk hin rows hdst hsrc
      exact sendsWrites_map (h.scatter hp hm hu hnib rfl hfs hix rfl hni hpair rfl hk hin hdst hsrc)
  · intro hk hnib hfmt hdst
    exact sendsWrites_map (h.fill hp hm hu hnib rfl hk hfmt hdst)
  · intro op ret hk w ps hw hsrc hdst
    exact h.accumulate hp hk hw hsrc hdst
  · intro hk hsrc l u hl
    obtain ⟨t, d, hstep, hmem, hd, hst, hprog, hcomb, hw⟩ := h.combine hu hk hsrc hl
    exact ⟨t, d, hstep, hmem, hd, hst, hprog, _, hcomb, hw, rfl, BitVec.extractLsb'_toNat .., rfl, (kept_xLocate hl).cmdRef c, rfl, rfl⟩
  · intro hk e he hown hin
    exact h.configure hk he hown hin

end
end

section
/-! SUPPORT. The data words of V (R339 to R367): resolution, the lanes they write, and their issue (`dataV`), whatever their effect
computes. Proofs about words of V cite these and do not unfold the issue. -/

namespace Sys2Proof.Machine

/-! ### Register elements -/

theorem mget_mdel {β : Type} (m : Map β) (k i : Nat) (d : β) : mget (mdel m k) i d = if i = k then d else mget m i d := by
  induction m with
  | nil => simp [mdel, mget]
  | cons e t ih =>
    obtain ⟨j, v⟩ := e
    unfold mdel at ih ⊢
    rw [List.filter_cons]
    by_cases hj : j = k
    · rw [if_neg (by simp [hj]), ih]
      by_cases hi : i = k
      · rw [if_pos hi, if_pos hi]
      · rw [if_neg hi, if_neg hi, mget, if_neg (by omega)]
    · rw [if_pos (by simp [hj]), mget, ih, mget]
      by_cases hi : i = k
      · rw [if_neg (by omega), if_pos hi, if_pos hi]
      · rw [if_neg hi, if_neg hi]

@[simp] theorem mget_mset0_self (m : Map Nat) (k v : Nat) : mget (mset0 m k v) k 0 = v := by
  unfold mset0
  split
  · rw [mget_mdel, if_pos rfl]
    exact Eq.symm ‹v = 0›
  · exact mget_mset_self ..

theorem mget_mset0_ne (m : Map Nat) {k i : Nat} (v : Nat) (h : i ≠ k) : mget (mset0 m k v) i 0 = mget m i 0 := by
  unfold mset0
  split
  · rw [mget_mdel, if_neg h]
  · exact mget_mset_ne m v 0 h

/-! ### Lists of results -/

theorem collect_length {α β : Type} {f : α → Except EStop β} {l : List α} {r : List β} (h : collect f l = .ok r) : r.length = l.length := by
  induction l generalizing r with
  | nil =>
    rw [collect] at h
    cases h
    rfl
  | cons a t ih =>
    rw [collect] at h
    cases ha : f a with
    | error z => simp [ha] at h
    | ok b =>
      cases ht : collect f t with
      | error z => simp [ha, ht, Except.map] at h
      | ok bs =>
        simp only [ha, ht, Except.map, Except.ok.injEq] at h
        rw [← h, List.length_cons, List.length_cons, ih ht]

/-! ### Positions -/

theorem shapeOf_cols_le (w : Word) : (shapeOf w).cols ≤ 64 := by
  have := (w.extractLsb' 8 6).isLt
  simp only [shapeOf]
  omega

theorem shapeOf_cc_lt (w : Word) : (shapeOf w).cc < 64 := (w.extractLsb' 18 6).isLt

theorem VShape.pos_nodup (x : VShape) (kind : BitVec 2) : (x.pos kind).Nodup := by
  unfold VShape.pos
  split
  · exact List.nodup_range.map fun a b h => congrArg Prod.snd h
  · exact List.nodup_range.map fun a b h => congrArg Prod.fst h
  · exact List.nodup_range.product List.nodup_range

/-- Every position of a shape lies in one of the 64 columns. -/
theorem pos_col_lt {w : Word} {kind : BitVec 2} {p : Nat × Nat} (h : p ∈ (shapeOf w).pos kind) : p.2 < 64 := by
  have hcols := shapeOf_cols_le w
  unfold VShape.pos upto at h
  split at h
  · obtain ⟨c, hc, rfl⟩ := List.mem_map.1 h
    exact (List.mem_range.1 hc).trans_le hcols
  · obtain ⟨r, -, rfl⟩ := List.mem_map.1 h
    exact shapeOf_cc_lt w
  · obtain ⟨r, -, hr⟩ := List.mem_flatMap.1 h
    obtain ⟨c, hc, rfl⟩ := List.mem_map.1 hr
    exact (List.mem_range.1 hc).trans_le hcols

theorem lane_inj {r : Nat} {p q : Nat × Nat} (hp : p.2 < 64) (hq : q.2 < 64) (h : lane r p = lane r q) : p = q := by
  unfold lane at h
  exact Prod.ext (by omega) (by omega)

/-! ### Resolution -/

theorem portUse_length {s : State} {k port skip n : Nat} {u : PUse} (h : s.portUse k port skip n = .ok u) : u.elems.length = n := by
  unfold State.portUse at h
  split at h
  · cases h
  next p hp =>
    dsimp only at h
    split at h
    · cases h
    · cases hes : collect (s.portElem k p (vaSet (vget (s.core k).vx.sets p.set 0#1024))) ((upto n).map fun i => p.pos + skip + i) with
      | error z => simp [hes, Except.map] at h
      | ok es =>
        simp only [hes, Except.map, Except.ok.injEq] at h
        rw [← h]
        simpa [upto] using collect_length hes

/-- What a word has resolved to (R348): the shape and the vector state it found, its positions, and of its output port, which it has
only where its destination names one, an element for each destination position. -/
structure Resolved (s : State) (w : VSpec) (n : VIn) : Prop where
  k : n.k = s.cur.k.val
  sh : n.sh = s.shape
  x : n.x = s.me.vx
  word : n.w = w
  dpos : n.dpos = s.shape.pos w.dkind
  out_none : ∀ r, w.d.bind vopReg = some r → n.out = none
  out_some : ∀ u, n.out = some u → u.elems.length = n.dpos.length

theorem resolved_of_vIn {s : State} {w : VSpec} {n : VIn} (h : s.vIn w = .ok n) : Resolved s w n := by
  unfold State.vIn at h
  dsimp only at h
  split at h
  · cases h
  · split at h
    · cases h
    · split at h
      next i hd =>
        split at h
        · cases h
        next u hu =>
          split at h
          · cases h
          · cases h
            exact ⟨rfl, rfl, rfl, rfl, rfl, fun r hr => by simp [hd, vopReg] at hr, fun v hv => Option.some.inj hv ▸ portUse_length hu⟩
      next =>
        cases h
        exact ⟨rfl, rfl, rfl, rfl, rfl, fun _ _ => rfl, nofun⟩

end Sys2Proof.Machine

namespace Sys2Proof.Safety

open Sys2Proof.Machine

/-! ### The lanes of a word -/

theorem mem_dpos_of_mem_vLanes {n : VIn} {p : (Nat × Nat) × Nat} (h : p ∈ vLanes n) : p.1 ∈ n.dpos ∧ p.2 < n.dpos.length := by
  obtain ⟨-, hlt, heq⟩ := List.mem_zipIdx (List.mem_filter.1 h).1
  exact ⟨heq ▸ List.getElem_mem _, by omega⟩

theorem vLanes_lane_nodup {s : State} {w : VSpec} {n : VIn} (h : Resolved s w n) (r : Nat) : ((vLanes n).map fun p => lane r p.1).Nodup := by
  have hsub : ((vLanes n).map Prod.fst).Sublist n.dpos := by
    have := (List.filter_sublist (l := n.dpos.zipIdx) (p := fun p => n.w.all || n.act p.1)).map Prod.fst
    rwa [List.zipIdx_map_fst] at this
  have hnd : ((vLanes n).map Prod.fst).Nodup := hsub.nodup (h.dpos ▸ VShape.pos_nodup ..)
  have hcol : ∀ p ∈ (vLanes n).map Prod.fst, p.2 < 64 := fun p hp => pos_col_lt (h.dpos ▸ hsub.subset hp)
  rw [show (fun p : (Nat × Nat) × Nat => lane r p.1) = lane r ∘ Prod.fst from rfl, ← List.map_map]
  exact hnd.map_on fun p hp q hq => lane_inj (hcol p hp) (hcol q hq)

/-- The run over the destination positions is a run over the lanes alone. -/
theorem each_eq (n : VIn) (f : Nat → Nat × Nat → VAcc → Except EStop VAcc) (a : VAcc) :
    n.each f a = (vLanes n).foldlM (fun a p => f p.2 p.1 { a with n := a.n + 1 }) a := by
  unfold VIn.each vLanes
  generalize n.dpos.zipIdx = l
  induction l generalizing a with
  | nil => rfl
  | cons p t ih =>
    rw [List.filter_cons, List.foldlM_cons]
    split
    · rw [List.foldlM_cons]
      exact congrArg _ (funext ih)
    · exact ih a

/-! ### The issue -/

theorem fetchCharges_step {s t : State} {k : Nat} {c : Core} (h : CoreStep s t k c) {n : VIn} (hk : n.k = k) (m : Memory) :
    CoreStep s (t.fetchCharges n m) k c := by
  unfold State.fetchCharges
  generalize n.srcs = l
  induction l generalizing t with
  | nil => exact h
  | cons x xs ih =>
    rw [List.foldl_cons]
    refine ih ?_
    cases x with
    | reg i f => exact h
    | const one => exact h
    | port u =>
      dsimp only
      split
      · exact h
      · rw [hk]
        exact fetchCharge_step h u

theorem gen_v (s : State) (k : Nat) : s.gen k .v = (s.core k).sys.gen[2] := vget_lt _ _ _ (by decide)

theorem vset_lt {β : Type} {n : Nat} (v : Vector β n) (i : Nat) (x : β) (h : i < n) : vset v i x = v.set i x := by
  ext j hj
  simp [vset, Vector.getElem_set, Vector.getElem_setIfInBounds]

/-- V's generator set, its state changed by f, and the core by h. -/
theorem setGen_modVx_modCore_step {s : State} {k : Nat} {g : Dword} {f : Vec → Vec} {h : Core → Core} {d : Core}
    (hd : h { s.core k with sys := { (s.core k).sys with gen := (s.core k).sys.gen.set 2 g }, vx := f (s.core k).vx } = d) :
    CoreStep s (((s.setGen k .v g).modVx k f).modCore k h) k d := by
  refine ((modCore_step ..).trans (modCore_step ..)).trans (modCore_core (Eq.trans ?_ hd))
  rw [State.core_modCore_self, State.core_modCore_self, ← vset_lt _ _ _ (by decide)]
  rfl

/-- What the effect of a word of V begins from. -/
def effectStart (s : State) : VAcc := ⟨s.me.vx.regs, s.me.vx.masks, s.mem, { gen := s.gen s.cur.k.val .v }, 0, 0, []⟩

/-- A word of V that may issue and whose effect ends in a: its core has issued it, and memory is as the effect leaves it. -/
theorem dataV_step {s : State} {w : VSpec} {n : VIn} {vs : List (List VElem)} (h : vReady s w n vs)
    {run : VIn → List (List VElem) → VAcc → Except EStop VAcc} {a : VAcc} (ha : run n vs (effectStart s) = .ok a) :
    CoreStep { s with mem := a.mem } (s.dataV w run) s.cur.k.val (vIssued s n a.r.fl a.r.gen a.regs a.masks) := by
  obtain ⟨hn, htok, hlock, hroom, hvs⟩ := h
  have hres := resolved_of_vIn hn
  have hgo : (!s.me.tokensOk .v w.t || !s.me.grantable n.locks || !s.me.portRoom n.out) = false := by
    rw [htok, hlock, hroom]
    rfl
  have hrun : (collect (n.vals s.mem) n.srcs >>= fun vs =>
      run n vs ⟨s.me.vx.regs, s.me.vx.masks, s.mem, { gen := s.gen s.cur.k.val .v }, 0, 0, []⟩) = .ok a := by
    rw [hvs]
    exact ha
  unfold State.dataV
  simp only [hn, hgo, hrun, Bool.false_eq_true, if_false]
  obtain rfl := hres.word
  rw [gen_v]
  split
  · exact fetchCharges_step ((setGen_modVx_modCore_step rfl).charge ..) hres.k s.mem
  · exact ((fetchCharges_step ((setGen_modVx_modCore_step rfl).charge ..) hres.k s.mem).charge ..).charge ..

end Sys2Proof.Safety
end

section
/-! SUPPORT. Elementwise words of V whose result is exact (R365, R374, R375, R380 to R382): one rounding of each lane's result, into the
register or through the output port (R80, R84, R349). -/

namespace Sys2Proof.Safety

open Sys2Proof.Machine

/-! ### Flags and roundings in order -/

theorem flagsOf_cons (x : Byte) (l : List Byte) : flagsOf (x :: l) = x ||| flagsOf l := by
  unfold flagsOf
  rw [List.foldl_cons, BitVec.zero_or, ← List.foldl_assoc (op := fun f g : BitVec 8 => f ||| g), BitVec.or_zero]

/-- The generator after one rounding (R83, R84). -/
def genNext (m : RMode) (g : Dword) : Dword := if m = .sr then genStep g else g

/-- One rounding with the next draw of a generator under SR: the pattern and its flags. -/
def roundOne (f : Fmt) (m : RMode) (g : Dword) (y : Val) : Nat × Byte := roundTo f m (if m = .sr then genDraw (genStep g) else 0) y

theorem roundAll_cons (f : Fmt) (m : RMode) (g : Dword) (y : Val) (t : List Val) :
    roundAll f m g (y :: t) = (roundOne f m g y :: (roundAll f m (genNext m g) t).1, (roundAll f m (genNext m g) t).2) := by
  cases m <;> rfl

theorem VRun.round_eq (r : VRun) (f : Fmt) (m : RMode) (y : Val) :
    r.round f m y = ((roundOne f m r.gen y).1, ⟨r.fl ||| (roundOne f m r.gen y).2, genNext m r.gen⟩) := by
  cases m <;> rfl

/-- The flags and generator of a run after its first result with flags z and the rest with flags F, in one. -/
theorem rounds_cons (fl z F : Byte) (f : Fmt) (m : RMode) (g : Dword) (y : Val) (t : List Val) :
    let q := roundAll f m (genNext m g) t
    let q' := roundAll f m g (y :: t)
    (⟨fl ||| z ||| (roundOne f m g y).2 ||| (F ||| flagsOf (q.1.map fun x => x.2)), q.2⟩ : VRun) =
      ⟨fl ||| (z ||| F ||| flagsOf (q'.1.map fun x => x.2)), q'.2⟩ := by
  dsimp only
  rw [roundAll_cons, List.map_cons, flagsOf_cons]
  congr 1
  ac_rfl

/-! ### The write of one result -/

theorem norm_eq (n : VIn) (y : Val) : n.norm y = if n.sh.fmt ≠ fFP32 ∧ y.isZero then Val.fin false 0 0 false else y := by
  simp [VIn.norm, vZero]

/-- The mode under which results enter a register: integers and residues enter theirs exactly (R365). -/
def regMode (n : VIn) : RMode := if n.sh.fmt = fFP32 then n.sh.mode else .rne

/-- A result written to register r. -/
theorem out_reg {n : VIn} {r : Nat} (hout : n.out = none) (hr : n.w.d.bind vopReg = some r) (a : VAcc) (j : Nat) (p : Nat × Nat) {y : Val}
    (hy : n.sh.fmt = fFP32 ∨ (n.norm y).isInt = true) :
    a.out n j p y = .ok { a with
      r := ⟨a.r.fl ||| (roundOne n.sh.fmt (regMode n) a.r.gen (n.norm y)).2, genNext (regMode n) a.r.gen⟩
      regs := mset0 a.regs (lane r p) (roundOne n.sh.fmt (regMode n) a.r.gen (n.norm y)).1 } := by
  have hm : (if n.sh.fmt != fFP32 && (n.norm y).isInt then RMode.rne else n.sh.mode) = regMode n := by
    unfold regMode
    by_cases hf : n.sh.fmt = fFP32
    · simp [hf]
    · simp [hf, hy.resolve_left hf]
  unfold VAcc.out
  simp only [hout, hm, VRun.round_eq, hr]
  rfl

/-- A result written through the output port u, to an element without a block scale. -/
theorem out_port {n : VIn} {u : PUse} (hout : n.out = some u) (a : VAcc) (j : Nat) (p : Nat × Nat) (y : Val) {e : PElem}
    (he : u.elems[j]? = some e) (hs : u.scaleLoc e = none) : a.out n j p y = .ok { a with
      r := ⟨a.r.fl ||| (roundOne (u.p.fmt u.x) n.sh.mode a.r.gen (n.norm y)).2, genNext n.sh.mode a.r.gen⟩
      mem := Memory.writeMask a.mem e.loc (elemBytes e.e (nibbles (u.p.fmt u.x)) (roundOne (u.p.fmt u.x) n.sh.mode a.r.gen (n.norm y)).1)
      outs := a.outs + 1, far := if e.own then a.far else (u.scaleLoc e).toList ++ a.far } := by
  have hscale : u.scale a.mem e = none := by rw [PUse.scale, hs]; rfl
  have hone : (n.norm y).scale (127 - ((none : Option Nat).getD 127 : Nat)) = n.norm y := by
    cases n.norm y <;> simp [Val.scale]
  unfold VAcc.out VAcc.putPort
  simp only [hout, he, hscale, hone, VRun.round_eq]

/-! ### All lanes of a word -/

/-- The effect of an elementwise word: at each lane the result g, its flags, its write. -/
def elementwise (g : VIn → List (List VElem) → VAcc → (Nat × Nat) × Nat → Val × Byte) (n : VIn) (vs : List (List VElem)) (a : VAcc) :
    Except EStop VAcc :=
  n.each (fun j p a => { a with r := a.r.set (g n vs a (p, j)).2 }.out n j p (g n vs a (p, j)).1) a

/-- The effect at one lane. -/
def lanePut (n : VIn) (g : VAcc → (Nat × Nat) × Nat → Val × Byte) (a : VAcc) (p : (Nat × Nat) × Nat) : Except EStop VAcc :=
  let b : VAcc := { a with n := a.n + 1 }
  { b with r := b.r.set (g b p).2 }.out n p.2 p.1 (g b p).1

theorem elementwise_eq (g : VIn → List (List VElem) → VAcc → (Nat × Nat) × Nat → Val × Byte) (n : VIn) (vs : List (List VElem)) (a : VAcc) :
    elementwise g n vs a = (vLanes n).foldlM (lanePut n (g n vs)) a := each_eq ..

/-- The result g of a lane is f while the destination's own element there is as in the registers R. -/
def Reads (r : Nat) (R : Map Nat) (g : VAcc → (Nat × Nat) × Nat → Val × Byte) (f : (Nat × Nat) × Nat → Val × Byte) : Prop :=
  ∀ p a, mget a.regs (lane r p.1) 0 = mget R (lane r p.1) 0 → g a p = f p

/-- The effect at a lane of register r. -/
theorem lanePut_reg {n : VIn} {r : Nat} (hout : n.out = none) (hr : n.w.d.bind vopReg = some r)
    {g : VAcc → (Nat × Nat) × Nat → Val × Byte} {z : Val × Byte} {a : VAcc} {p : (Nat × Nat) × Nat} (hg : g { a with n := a.n + 1 } p = z)
    (hint : n.sh.fmt = fFP32 ∨ (n.norm z.1).isInt = true) :
    let x := roundOne n.sh.fmt (regMode n) a.r.gen (n.norm z.1)
    ∃ b, lanePut n g a p = .ok b ∧ b.masks = a.masks ∧ b.mem = a.mem ∧
      b.r = ⟨a.r.fl ||| z.2 ||| x.2, genNext (regMode n) a.r.gen⟩ ∧ b.regs = mset0 a.regs (lane r p.1) x.1 := by
  have hput := out_reg hout hr { a with n := a.n + 1, r := a.r.set z.2 } p.2 p.1 hint
  refine ⟨_, Eq.trans ?_ hput, rfl, rfl, rfl, rfl⟩
  simp only [lanePut, hg]

/-- The effect at a lane whose result goes through the output port u. -/
theorem lanePut_port {n : VIn} {u : PUse} (hout : n.out = some u) {g : VAcc → (Nat × Nat) × Nat → Val × Byte} {z : Val × Byte} {a : VAcc}
    {p : (Nat × Nat) × Nat} (hg : g { a with n := a.n + 1 } p = z) {e : PElem} (he : u.elems[p.2]? = some e) (hs : u.scaleLoc e = none) :
    let x := roundOne (u.p.fmt u.x) n.sh.mode a.r.gen (n.norm z.1)
    ∃ b, lanePut n g a p = .ok b ∧ b.masks = a.masks ∧ b.regs = a.regs ∧
      b.r = ⟨a.r.fl ||| z.2 ||| x.2, genNext n.sh.mode a.r.gen⟩ ∧
      b.mem = Memory.writeMask a.mem e.loc (elemBytes e.e (nibbles (u.p.fmt u.x)) x.1) := by
  have hput := out_port hout { a with n := a.n + 1, r := a.r.set z.2 } p.2 p.1 z.1 he hs
  refine ⟨_, Eq.trans ?_ hput, rfl, rfl, rfl, rfl⟩
  simp only [lanePut, hg]

/-- From a to b the lanes l of register r take the patterns of q in order, and nothing else is written. -/
structure LanesPut (r : Nat) (l : List ((Nat × Nat) × Nat)) (fl : Byte) (q : List (Nat × Byte) × Dword) (a b : VAcc) : Prop where
  masks : b.masks = a.masks
  mem : b.mem = a.mem
  run : b.r = ⟨a.r.fl ||| (fl ||| flagsOf (q.1.map fun z => z.2)), q.2⟩
  at_lane : ∀ j < l.length, mget b.regs (lane r (l.getD j ((0, 0), 0)).1) 0 = (q.1.map fun z => z.1).getD j 0
  elsewhere : ∀ i, i ∉ l.map (fun p => lane r p.1) → mget b.regs i 0 = mget a.regs i 0

theorem lanes_put {n : VIn} {r : Nat} (hout : n.out = none) (hr : n.w.d.bind vopReg = some r)
    {g : VAcc → (Nat × Nat) × Nat → Val × Byte} {f : (Nat × Nat) × Nat → Val × Byte} {R : Map Nat} (hg : Reads r R g f)
    (l : List ((Nat × Nat) × Nat)) (hnd : (l.map fun p => lane r p.1).Nodup)
    (hint : ∀ p ∈ l, n.sh.fmt = fFP32 ∨ (n.norm (f p).1).isInt = true) (a : VAcc)
    (ha : ∀ p ∈ l, mget a.regs (lane r p.1) 0 = mget R (lane r p.1) 0) :
    ∃ b, l.foldlM (lanePut n g) a = .ok b ∧ LanesPut r l (flagsOf (l.map fun p => (f p).2))
      (roundAll n.sh.fmt (regMode n) a.r.gen (l.map fun p => n.norm (f p).1)) a b := by
  induction l generalizing a with
  | nil =>
    refine ⟨a, rfl, rfl, rfl, ?_, fun j hj => absurd hj (Nat.not_lt_zero j), fun _ _ => rfl⟩
    simp [roundAll, flagsOf]
  | cons p t ih =>
    obtain ⟨hp, hnt⟩ := List.nodup_cons.1 hnd
    obtain ⟨b, hb, hmasks, hmem, hrun, hregs⟩ :=
      lanePut_reg hout hr (hg p { a with n := a.n + 1 } (ha p List.mem_cons_self)) (hint p List.mem_cons_self)
    have hb_t : ∀ x ∈ t, mget b.regs (lane r x.1) 0 = mget R (lane r x.1) 0 := fun x hx => by
      have hne : lane r x.1 ≠ lane r p.1 := fun e => hp (List.mem_map.2 ⟨x, hx, e⟩)
      rw [hregs, mget_mset0_ne _ _ hne]
      exact ha x (List.mem_cons_of_mem _ hx)
    obtain ⟨c, hc, hput⟩ := ih hnt (fun x hx => hint x (List.mem_cons_of_mem _ hx)) b hb_t
    refine ⟨c, by rw [List.foldlM_cons, hb]; exact hc, hput.masks.trans hmasks, hput.mem.trans hmem, ?_, ?_, ?_⟩
    · rw [hput.run, hrun, List.map_cons, List.map_cons, flagsOf_cons]
      exact rounds_cons ..
    · intro j hj
      rw [hrun] at hput
      rw [List.map_cons, roundAll_cons, List.map_cons]
      cases j with
      | zero =>
        change mget c.regs (lane r p.1) 0 = _
        rw [hput.elsewhere _ hp, hregs, mget_mset0_self]
        rfl
      | succ j => exact hput.at_lane j (Nat.lt_of_succ_lt_succ hj)
    · intro i hi
      rw [List.map_cons, List.mem_cons, not_or] at hi
      rw [hput.elsewhere i hi.2, hregs, mget_mset0_ne _ _ hi.1]

/-- The elements of the output port u at the numbers of the lanes l, with the patterns ps that they take. -/
def portPuts (u : PUse) (l : List ((Nat × Nat) × Nat)) (ps : List Nat) : List (PElem × Nat) :=
  (l.zip ps).filterMap fun e => u.elems[e.1.2]?.map fun x => (x, e.2)

/-- Memory after elements of an output port are written in order. -/
def portWrites (u : PUse) (ws : List (PElem × Nat)) (m : Memory) : Memory :=
  ws.foldl (fun m e => Memory.writeMask m e.1.loc (elemBytes e.1.e (nibbles (u.p.fmt u.x)) e.2)) m

theorem portPuts_cons {u : PUse} {p : (Nat × Nat) × Nat} {e : PElem} (he : u.elems[p.2]? = some e) (l : List ((Nat × Nat) × Nat)) (v : Nat)
    (ps : List Nat) : portPuts u (p :: l) (v :: ps) = (e, v) :: portPuts u l ps := by
  unfold portPuts
  rw [List.zip_cons_cons, List.filterMap_cons_some (by rw [he]; rfl)]

theorem elemBytes_length (e : Elem) (m v : Nat) : (elemBytes e m v).length = nibBytes m := by
  unfold elemBytes
  split
  · subst_vars
    rfl
  · exact valBytes_length ..

/-- No byte outside the elements written changes. -/
theorem read_portWrites_outside (u : PUse) {a : Nat} {m : Memory} (h : m.wf = true) (ws : List (PElem × Nat))
    (ha : ∀ e ∈ ws, a < e.1.loc ∨ e.1.loc + nibBytes (nibbles (u.p.fmt u.x)) ≤ a) :
    Memory.read (portWrites u ws m) a = Memory.read m a := by
  induction ws generalizing m with
  | nil => rfl
  | cons e t ih =>
    refine (ih (wf_writeMask _ _ h) fun x hx => ha x (List.mem_cons_of_mem _ hx)).trans (read_writeMask_outside h _ _ _ ?_)
    rw [elemBytes_length]
    exact ha e List.mem_cons_self

/-- From a to b the elements of the output port u at the lanes l take the patterns of q in order, and nothing else is written. -/
structure LanesSent (u : PUse) (l : List ((Nat × Nat) × Nat)) (fl : Byte) (q : List (Nat × Byte) × Dword) (a b : VAcc) : Prop where
  masks : b.masks = a.masks
  regs : b.regs = a.regs
  run : b.r = ⟨a.r.fl ||| (fl ||| flagsOf (q.1.map fun z => z.2)), q.2⟩
  mem : b.mem = portWrites u (portPuts u l (q.1.map fun z => z.1)) a.mem

theorem lanes_sent {n : VIn} {u : PUse} (hout : n.out = some u) (hs : ∀ e ∈ u.elems, u.scaleLoc e = none) {r : Nat}
    {g : VAcc → (Nat × Nat) × Nat → Val × Byte} {f : (Nat × Nat) × Nat → Val × Byte} {R : Map Nat} (hg : Reads r R g f)
    (l : List ((Nat × Nat) × Nat)) (hl : ∀ p ∈ l, p.2 < u.elems.length) (a : VAcc) (ha : a.regs = R) :
    ∃ b, l.foldlM (lanePut n g) a = .ok b ∧ LanesSent u l (flagsOf (l.map fun p => (f p).2))
      (roundAll (u.p.fmt u.x) n.sh.mode a.r.gen (l.map fun p => n.norm (f p).1)) a b := by
  induction l generalizing a with
  | nil =>
    refine ⟨a, rfl, rfl, rfl, ?_, rfl⟩
    simp [roundAll, flagsOf]
  | cons p t ih =>
    have he := List.getElem?_eq_getElem (hl p List.mem_cons_self)
    obtain ⟨b, hb, hmasks, hregs, hrun, hmem⟩ :=
      lanePut_port hout (hg p { a with n := a.n + 1 } (by rw [ha])) he (hs _ (List.getElem_mem _))
    obtain ⟨c, hc, hsent⟩ := ih (fun x hx => hl x (List.mem_cons_of_mem _ hx)) b (hregs.trans ha)
    refine ⟨c, by rw [List.foldlM_cons, hb]; exact hc, hsent.masks.trans hmasks, hsent.regs.trans hregs, ?_, ?_⟩
    · rw [hsent.run, hrun, List.map_cons, List.map_cons, flagsOf_cons]
      exact rounds_cons ..
    · rw [hsent.mem, hmem, hrun, List.map_cons, roundAll_cons, List.map_cons, portPuts_cons he]
      rfl

/-! ### The words -/

/-- The word i, of specification w, computes f of its sources' values at each lane: f's position, the shape's mode, the values. -/
def Computes (s : State) (i : Instr) (w : VSpec) (f : (Nat × Nat) × Nat → RMode → Val → Val → Val × Byte) : Prop :=
  ∃ g, exec i s = .next (s.dataV w (elementwise g)) ∧ ∀ n vs, Resolved s w n →
    Reads ((w.d.bind vopReg).getD 0) s.me.vx.regs (g n vs) fun p => f p n.sh.mode (srcAt vs 0 p.2).v (srcAt vs 1 p.2).v

theorem computes_of_ew2 {s : State} {i : Instr} {w : VSpec} {f : RMode → Val → Val → Val × Byte} (h : exec i s = .next (s.vEw2 w f)) :
    Computes s i w fun _ => f :=
  ⟨fun n vs _ p => f n.sh.mode (srcAt vs 0 p.2).v (srcAt vs 1 p.2).v, h, fun _ _ _ _ _ _ => rfl⟩

theorem computes_of_ew1 {s : State} {i : Instr} {w : VSpec} {f : Val → Val × Byte} (h : exec i s = .next (s.vEw1 w f)) :
    Computes s i w fun _ _ a _ => f a :=
  ⟨fun _ vs _ p => f (srcAt vs 0 p.2).v, h, fun _ _ _ _ _ _ => rfl⟩

/-- vfma adds the product to the destination's own element, which no earlier lane has written. -/
theorem computes_vfma (x : V3) (s : State) : Computes s (.vfma x) (spec3 x) fun p m a b =>
    let own := decodeElem s.shape.fmt (mget s.me.vx.regs (lane ((vopReg x.d).getD 0) p.1) 0)
    ((Val.add (decide (m = .rdn)) (Val.mul a b).1 own).1, (Val.mul a b).2 ||| (Val.add (decide (m = .rdn)) (Val.mul a b).1 own).2) := by
  refine ⟨fun n vs a p =>
    let m := Val.mul (srcAt vs 0 p.2).v (srcAt vs 1 p.2).v
    let y := Val.add (n.sh.mode == .rdn) m.1 (n.own a p.1)
    (y.1, m.2 ||| y.2), rfl, fun n vs hn p a ha => ?_⟩
  have hown : n.own a p.1 = decodeElem s.shape.fmt (mget s.me.vx.regs (lane ((vopReg x.d).getD 0) p.1) 0) := by
    unfold VIn.own
    rw [hn.sh, hn.word, ha]
    rfl
  dsimp only
  rw [hown]
  rfl

/-! ### The answers -/

section
variable {s : State} {i : Instr} {w : VSpec} {f : (Nat × Nat) × Nat → RMode → Val → Val → Val × Byte} {n : VIn} {vs : List (List VElem)}

/-- The results of a word's lanes, in order, before their rounding. -/
def laneResults (f : (Nat × Nat) × Nat → RMode → Val → Val → Val × Byte) (n : VIn) (vs : List (List VElem)) : List (Val × Byte) :=
  (vLanes n).map fun p => f p n.sh.mode (srcAt vs 0 p.2).v (srcAt vs 1 p.2).v

theorem map_laneResults {β : Type} (h : Val × Byte → β) :
    (laneResults f n vs).map h = (vLanes n).map fun p => h (f p n.sh.mode (srcAt vs 0 p.2).v (srcAt vs 1 p.2).v) := List.map_map

@[simp] theorem vIssued_regs (s : State) (n : VIn) (fl : Byte) (g : Dword) (regs : Map Nat) (masks : Vector (BitVec 1024) 4) :
    (vIssued s n fl g regs masks).vx.regs = regs := rfl

@[simp] theorem effectStart_gen (s : State) : (effectStart s).r.gen = s.me.sys.gen[2] := gen_v ..

@[simp] theorem effectStart_fl (s : State) : (effectStart s).r.fl = 0#8 := rfl

/-- A word of V that may issue and whose effect writes lanes of register r alone answers with them. -/
theorem puts_of_lanesPut {run : VIn → List (List VElem) → VAcc → Except EStop VAcc} (hexec : exec i s = .next (s.dataV w run))
    (hready : vReady s w n vs) {b : VAcc} (hb : run n vs (effectStart s) = .ok b) {r : Nat} {fl : Byte} {q : List (Nat × Byte) × Dword}
    (hput : LanesPut r (vLanes n) fl q (effectStart s) b) :
    VPuts i s n r (q.1.map fun z => z.1) (fl ||| flagsOf (q.1.map fun z => z.2)) q.2 := by
  have hstep := dataV_step hready hb
  rw [hput.mem, hput.run, hput.masks] at hstep
  refine ⟨_, _, hexec, hstep, hput.at_lane, hput.elsewhere, ?_⟩
  rw [vIssued_regs, effectStart_fl, BitVec.zero_or]
  rfl

/-- A word of V that may issue and whose effect writes through its output port alone answers with that. -/
theorem sends_of_lanesSent {run : VIn → List (List VElem) → VAcc → Except EStop VAcc} (hexec : exec i s = .next (s.dataV w run))
    (hready : vReady s w n vs) (hmem : MemInv s) {b : VAcc} (hb : run n vs (effectStart s) = .ok b) {u : PUse} {fl : Byte}
    {q : List (Nat × Byte) × Dword} (hsent : LanesSent u (vLanes n) fl q (effectStart s) b) :
    VSends i s n u (q.1.map fun z => z.1) (fl ||| flagsOf (q.1.map fun z => z.2)) q.2 := by
  have hstep := dataV_step hready hb
  have hto : (s.dataV w run).mem = b.mem := by rw [hstep.rest]
  rw [hsent.run, hsent.regs, hsent.masks, effectStart_fl, BitVec.zero_or] at hstep
  refine ⟨_, hexec, ⟨?_, hstep.core, hstep.cores, hstep.funcs⟩, hto.trans hsent.mem, fun a ha => ?_⟩
  · rw [hto]
    exact hstep.rest
  · rw [hto, hsent.mem]
    exact read_portWrites_outside u hmem _ ha

theorem Computes.puts (hc : Computes s i w f) (hready : vReady s w n vs) {r : Nat} (hr : w.d.bind vopReg = some r)
    (hint : n.sh.fmt = fFP32 ∨ ∀ y ∈ (laneResults f n vs).map fun z => n.norm z.1, y.isInt = true) :
    let q := roundAll n.sh.fmt (regMode n) s.me.sys.gen[2] ((laneResults f n vs).map fun z => n.norm z.1)
    VPuts i s n r (q.1.map fun z => z.1) (flagsOf ((laneResults f n vs).map fun z => z.2) ||| flagsOf (q.1.map fun z => z.2)) q.2 := by
  obtain ⟨g, hexec, hg⟩ := hc
  have hn := resolved_of_vIn hready.1
  have hreads := hg n vs hn
  rw [hr] at hreads
  rw [map_laneResults] at hint ⊢
  rw [map_laneResults, ← effectStart_gen]
  obtain ⟨b, hb, hput⟩ := lanes_put (hn.out_none r hr) (hn.word ▸ hr) hreads (vLanes n) (vLanes_lane_nodup hn r)
    (fun p hp => hint.imp_right fun h => h _ (List.mem_map_of_mem hp)) (effectStart s) fun _ _ => rfl
  exact puts_of_lanesPut hexec hready ((elementwise_eq ..).trans hb) hput

theorem Computes.sends (hc : Computes s i w f) (hready : vReady s w n vs) (hmem : MemInv s) {u : PUse} (hu : n.out = some u)
    (hscale : ∀ z ∈ u.elems, u.scale s.mem z = none) :
    let q := roundAll (u.p.fmt u.x) n.sh.mode s.me.sys.gen[2] ((laneResults f n vs).map fun z => n.norm z.1)
    VSends i s n u (q.1.map fun z => z.1) (flagsOf ((laneResults f n vs).map fun z => z.2) ||| flagsOf (q.1.map fun z => z.2)) q.2 := by
  obtain ⟨g, hexec, hg⟩ := hc
  have hn := resolved_of_vIn hready.1
  have hlen : ∀ p ∈ vLanes n, p.2 < u.elems.length := fun p hp => hn.out_some u hu ▸ (mem_dpos_of_mem_vLanes hp).2
  rw [map_laneResults, map_laneResults, ← effectStart_gen]
  obtain ⟨b, hb, hsent⟩ := lanes_sent hu (fun e he => Option.map_eq_none_iff.1 (hscale e he)) (hg n vs hn) (vLanes n) hlen (effectStart s) rfl
  exact sends_of_lanesSent hexec hready hmem ((elementwise_eq ..).trans hb) hsent

end

end Sys2Proof.Safety
end

section
/-! O45: elementwise vector arithmetic gives every active element. -/

section

open Sys2Proof Sys2Proof.Machine Sys2Proof.Safety

/-- Settles O45: each word computes its function of its sources' values at each lane (`Computes`), and the walk over the lanes rounds each result
once, with its lane not yet written by an earlier one as the invariant (`lanes_put`, `lanes_sent`). -/
theorem vectorArithmetic : Obligations.VectorArithmetic := by
  unfold Obligations.VectorArithmetic
  intro s x y n vs hmem fi own words₀ words e he hready src res ys fl
  have hbase : ∀ e ∈ words₀, Computes s e.1 e.2.1 e.2.2 := by
    simp only [words₀, List.forall_mem_cons, List.not_mem_nil, IsEmpty.forall_iff, implies_true, and_true]
    exact ⟨computes_of_ew2 rfl, computes_of_ew2 rfl, computes_of_ew2 rfl, computes_of_ew2 rfl, computes_of_ew2 rfl, computes_of_ew2 rfl,
      computes_of_ew2 rfl, computes_of_ew2 rfl, computes_of_ew2 rfl, computes_of_ew1 rfl, computes_of_ew1 rfl, computes_of_ew1 rfl,
      computes_of_ew1 rfl, computes_of_ew1 rfl, computes_of_ew1 rfl, computes_of_ew1 rfl, computes_of_ew1 rfl⟩
  have hc : Computes s e.1 e.2.1 e.2.2 := by
    rcases List.mem_append.1 he with h | h
    · exact hbase e h
    · split at h
      · obtain rfl := List.mem_singleton.1 h
        exact computes_vfma x s
      · cases h
  have hys : ys = res.map fun z => n.norm z.1 := List.map_congr_left fun z _ => (norm_eq n z.1).symm
  refine ⟨fun r hr hint => ?_, fun u hu hscale => ?_⟩
  · rw [hys] at hint ⊢
    exact hc.puts hready hr hint
  · rw [hys]
    exact hc.sends hready hmem hu hscale

end
end

section
/-! SUPPORT. Words by their fields. A word of an encoding is a concatenation; that a word is this concatenation, and that a decoder reads it,
both come to the same facts: which value stands at which bits. -/

namespace Sys2Proof

/-! ### Fields of a word -/

/-- x stands in w at the bits from lo on. -/
def IsAt {n : Nat} (x : BitVec n) (w : Word) (lo : Nat) : Prop := fld w lo n = x

theorem fld_getLsbD (w : Word) (lo n i : Nat) : (fld w lo n).getLsbD i = (decide (i < n) && w.getLsbD (lo + i)) :=
  BitVec.getLsbD_extractLsb' ..

/-- A concatenation stands where its parts stand. It is stated for `BitVec.append`, to which `simp` unfolds `++`, since the width of a
concatenation in the encoder is often a numeral and no sum. -/
@[simp] theorem isAt_append {m n : Nat} (a : BitVec m) (b : BitVec n) (w : Word) (lo : Nat) :
    IsAt (BitVec.append a b) w lo ↔ IsAt a w (lo + n) ∧ IsAt b w lo := by
  have e : BitVec.append a b = a ++ b := rfl
  unfold IsAt
  rw [e]
  constructor
  · intro h
    have hb (i : Nat) := congrArg (BitVec.getLsbD · i) h
    simp only [fld_getLsbD, BitVec.getLsbD_append] at hb
    constructor <;> apply BitVec.eq_of_getLsbD_eq <;> intro i hi
    · have := hb (n + i)
      rw [if_neg (by omega), Nat.add_sub_cancel_left, decide_eq_true (by omega), ← Nat.add_assoc] at this
      rwa [fld_getLsbD, decide_eq_true hi]
    · have := hb i
      rw [if_pos hi, decide_eq_true (by omega)] at this
      rwa [fld_getLsbD, decide_eq_true hi]
  · rintro ⟨rfl, rfl⟩
    apply BitVec.eq_of_getLsbD_eq
    intro i hi
    simp only [fld_getLsbD, BitVec.getLsbD_append]
    split
    · rw [decide_eq_true hi, decide_eq_true ‹_›]
    · rw [Nat.add_assoc, Nat.add_sub_cancel' (by omega), decide_eq_true hi, decide_eq_true (by omega)]

/-- A word is one that has the parts of its encoding at their places. -/
@[simp] theorem encoded_iff {m k : OpMap} {v w : Word} : some (m, v) = some (k, w) ↔ m = k ∧ IsAt v w 0 := by
  have : fld w 0 32 = w := ext_all w
  simp [IsAt, this, eq_comm (a := w)]

/-- A field read in two parts. -/
theorem fld_eq_iff_split (w : Word) (lo m n : Nat) (x : BitVec (m + n)) :
    fld w lo (m + n) = x ↔ fld w (lo + n) m = x.extractLsb' n m ∧ fld w lo n = x.extractLsb' 0 n := by
  have e : BitVec.append (x.extractLsb' n m) (x.extractLsb' 0 n) = x := by
    apply BitVec.eq_of_getLsbD_eq
    intro i hi
    rw [show BitVec.append _ _ = x.extractLsb' n m ++ x.extractLsb' 0 n from rfl, BitVec.getLsbD_append]
    split
    · simp [*]
    · simp only [BitVec.getLsbD_extractLsb']
      rw [decide_eq_true (by omega), Bool.true_and, Nat.add_sub_cancel' (by omega)]
  have := isAt_append (x.extractLsb' n m) (x.extractLsb' 0 n) w lo
  rwa [e] at this

/-- A single bit of a word. -/
theorem fld_one_iff (w : Word) (lo : Nat) (x : BitVec 1) : fld w lo 1 = x ↔ bit w lo = x.getLsbD 0 := by
  have e : (fld w lo 1).getLsbD 0 = bit w lo := by rw [fld_getLsbD]; rfl
  constructor
  · rintro rfl
    exact e.symm
  · intro h
    apply BitVec.eq_of_getLsbD_eq
    intro i hi
    obtain rfl : i = 0 := by omega
    rw [e, h]

@[simp] theorem isAt_ofBool (b : Bool) (w : Word) (lo : Nat) : IsAt (BitVec.ofBool b) w lo ↔ bit w lo = b := by
  rw [IsAt, fld_one_iff]; cases b <;> simp

/-- The bits of the fields listed, each by its lowest bit and its width. -/
def fieldMask : List (Nat × Nat) → Word
  | [] => 0#32
  | r :: rs => ((BitVec.allOnes r.2).setWidth 32 <<< r.1) ||| fieldMask rs

theorem and_fieldMask_iff (w : Word) (rs : List (Nat × Nat)) : w &&& fieldMask rs = 0#32 ↔ ∀ r ∈ rs, fld w r.1 r.2 = 0#r.2 := by
  induction rs with
  | nil => simp [fieldMask]
  | cons r rs ih =>
    have e : w &&& (BitVec.allOnes r.2).setWidth 32 <<< r.1 = 0#32 ↔ fld w r.1 r.2 = 0#r.2 := by
      constructor <;> intro h <;> apply BitVec.eq_of_getLsbD_eq <;> intro i hi
      · have hm := congrArg (BitVec.getLsbD · (r.1 + i)) h
        simp only [BitVec.getLsbD_and, BitVec.getLsbD_shiftLeft, BitVec.getLsbD_setWidth, BitVec.getLsbD_allOnes, Nat.add_sub_cancel_left,
          BitVec.getLsbD_zero] at hm
        rw [fld_getLsbD, BitVec.getLsbD_zero, decide_eq_true hi, Bool.true_and]
        by_contra hb
        have := BitVec.lt_of_getLsbD (Bool.not_eq_false _ ▸ hb)
        exact hb (by simpa [hi, show i < 32 by omega, this] using hm)
      · have hf := congrArg (BitVec.getLsbD · (i - r.1)) h
        simp only [fld_getLsbD, BitVec.getLsbD_zero] at hf
        simp only [BitVec.getLsbD_and, BitVec.getLsbD_shiftLeft, BitVec.getLsbD_setWidth, BitVec.getLsbD_allOnes, BitVec.getLsbD_zero]
        by_cases hr : r.1 ≤ i ∧ i - r.1 < r.2
        · rw [Nat.add_sub_cancel' hr.1, decide_eq_true hr.2, Bool.true_and] at hf
          rw [hf, Bool.false_and]
        · have : ¬ i < r.1 → ¬ i - r.1 < r.2 := fun h => by omega
          by_cases hl : i < r.1 <;> simp [*]
    rw [List.forall_mem_cons, ← ih, ← e, fieldMask, BitVec.and_or_distrib_left, BitVec.or_eq_zero_iff]

/-- The fields listed are zero. -/
def ZeroFields (w : Word) : List (Nat × Nat) → Prop
  | [] => True
  | [r] => fld w r.1 r.2 = 0#r.2
  | r :: rs => fld w r.1 r.2 = 0#r.2 ∧ ZeroFields w rs

theorem zeroFields_iff (w : Word) (rs : List (Nat × Nat)) : ZeroFields w rs ↔ ∀ r ∈ rs, fld w r.1 r.2 = 0#r.2 := by
  induction rs with
  | nil => simp [ZeroFields]
  | cons r rs ih => cases rs <;> simp_all [ZeroFields]

theorem and_mask_iff (w : Word) (rs : List (Nat × Nat)) {m : Word} (h : fieldMask rs = m) : w &&& m = 0#32 ↔ ZeroFields w rs := by
  rw [← h, and_fieldMask_iff, zeroFields_iff]

/-! ### Must-be-zero bits

Each mask of the decoders by the fields of the encodings that it covers. -/

@[simp] theorem mask_000000F8_iff (w : Word) : w &&& 0x000000F8#32 = 0#32 ↔ fld w 3 5 = 0#5 := and_mask_iff w [(3, 5)] rfl
@[simp] theorem mask_0318C0FF_iff (w : Word) : w &&& 0x0318C0FF#32 = 0#32 ↔
    fld w 24 2 = 0#2 ∧ fld w 19 2 = 0#2 ∧ fld w 14 2 = 0#2 ∧ fld w 0 8 = 0#8 :=
  and_mask_iff w [(24, 2), (19, 2), (14, 2), (0, 8)] rfl
@[simp] theorem mask_001FF8FF_iff (w : Word) : w &&& 0x001FF8FF#32 = 0#32 ↔ fld w 16 5 = 0#5 ∧ fld w 11 5 = 0#5 ∧ fld w 0 8 = 0#8 :=
  and_mask_iff w [(16, 5), (11, 5), (0, 8)] rfl
@[simp] theorem mask_03E0F8FF_iff (w : Word) : w &&& 0x03E0F8FF#32 = 0#32 ↔ fld w 21 5 = 0#5 ∧ fld w 11 5 = 0#5 ∧ fld w 0 8 = 0#8 :=
  and_mask_iff w [(21, 5), (11, 5), (0, 8)] rfl
@[simp] theorem mask_03E0FFFC_iff (w : Word) : w &&& 0x03E0FFFC#32 = 0#32 ↔ fld w 21 5 = 0#5 ∧ fld w 11 5 = 0#5 ∧ fld w 2 9 = 0#9 :=
  and_mask_iff w [(21, 5), (11, 5), (2, 9)] rfl
@[simp] theorem mask_0000FFFC_iff (w : Word) : w &&& 0x0000FFFC#32 = 0#32 ↔ fld w 11 5 = 0#5 ∧ fld w 2 9 = 0#9 :=
  and_mask_iff w [(11, 5), (2, 9)] rfl
@[simp] theorem mask_030000FC_iff (w : Word) : w &&& 0x030000FC#32 = 0#32 ↔ fld w 24 2 = 0#2 ∧ fld w 2 6 = 0#6 :=
  and_mask_iff w [(24, 2), (2, 6)] rfl
@[simp] theorem mask_039FF800_iff (w : Word) : w &&& 0x039FF800#32 = 0#32 ↔ fld w 23 3 = 0#3 ∧ fld w 16 5 = 0#5 ∧ fld w 11 5 = 0#5 :=
  and_mask_iff w [(23, 3), (16, 5), (11, 5)] rfl
@[simp] theorem mask_03FFF8FF_iff (w : Word) : w &&& 0x03FFF8FF#32 = 0#32 ↔
    fld w 21 5 = 0#5 ∧ fld w 16 5 = 0#5 ∧ fld w 11 5 = 0#5 ∧ fld w 0 8 = 0#8 :=
  and_mask_iff w [(21, 5), (16, 5), (11, 5), (0, 8)] rfl
@[simp] theorem mask_0000F8FE_iff (w : Word) : w &&& 0x0000F8FE#32 = 0#32 ↔ fld w 11 5 = 0#5 ∧ fld w 1 7 = 0#7 :=
  and_mask_iff w [(11, 5), (1, 7)] rfl
@[simp] theorem mask_0000F8FF_iff (w : Word) : w &&& 0x0000F8FF#32 = 0#32 ↔ fld w 11 5 = 0#5 ∧ fld w 0 8 = 0#8 :=
  and_mask_iff w [(11, 5), (0, 8)] rfl
@[simp] theorem mask_000000FF_iff (w : Word) : w &&& 0x000000FF#32 = 0#32 ↔ fld w 0 8 = 0#8 := and_mask_iff w [(0, 8)] rfl
@[simp] theorem mask_000000FE_iff (w : Word) : w &&& 0x000000FE#32 = 0#32 ↔ fld w 1 7 = 0#7 := and_mask_iff w [(1, 7)] rfl
@[simp] theorem mask_001F00FF_iff (w : Word) : w &&& 0x001F00FF#32 = 0#32 ↔ fld w 16 5 = 0#5 ∧ fld w 0 8 = 0#8 :=
  and_mask_iff w [(16, 5), (0, 8)] rfl
@[simp] theorem mask_001F0000_iff (w : Word) : w &&& 0x001F0000#32 = 0#32 ↔ fld w 16 5 = 0#5 := and_mask_iff w [(16, 5)] rfl
@[simp] theorem mask_001C0000_iff (w : Word) : w &&& 0x001C0000#32 = 0#32 ↔ fld w 18 3 = 0#3 := and_mask_iff w [(18, 3)] rfl
@[simp] theorem mask_030007F0_iff (w : Word) : w &&& 0x030007F0#32 = 0#32 ↔ fld w 24 2 = 0#2 ∧ fld w 4 7 = 0#7 :=
  and_mask_iff w [(24, 2), (4, 7)] rfl
@[simp] theorem mask_03000000_iff (w : Word) : w &&& 0x03000000#32 = 0#32 ↔ fld w 24 2 = 0#2 := and_mask_iff w [(24, 2)] rfl
@[simp] theorem mask_000007FF_iff (w : Word) : w &&& 0x000007FF#32 = 0#32 ↔ fld w 0 11 = 0#11 := and_mask_iff w [(0, 11)] rfl
@[simp] theorem mask_03FFFFF8_iff (w : Word) : w &&& 0x03FFFFF8#32 = 0#32 ↔
    fld w 21 5 = 0#5 ∧ fld w 16 5 = 0#5 ∧ fld w 11 5 = 0#5 ∧ fld w 3 8 = 0#8 :=
  and_mask_iff w [(21, 5), (16, 5), (11, 5), (3, 8)] rfl
@[simp] theorem mask_03E007FF_iff (w : Word) : w &&& 0x03E007FF#32 = 0#32 ↔ fld w 21 5 = 0#5 ∧ fld w 0 11 = 0#11 :=
  and_mask_iff w [(21, 5), (0, 11)] rfl
@[simp] theorem mask_001FFFFC_iff (w : Word) : w &&& 0x001FFFFC#32 = 0#32 ↔ fld w 16 5 = 0#5 ∧ fld w 11 5 = 0#5 ∧ fld w 2 9 = 0#9 :=
  and_mask_iff w [(16, 5), (11, 5), (2, 9)] rfl
@[simp] theorem mask_001FF800_iff (w : Word) : w &&& 0x001FF800#32 = 0#32 ↔ fld w 16 5 = 0#5 ∧ fld w 11 5 = 0#5 :=
  and_mask_iff w [(16, 5), (11, 5)] rfl
@[simp] theorem mask_03E0F800_iff (w : Word) : w &&& 0x03E0F800#32 = 0#32 ↔ fld w 21 5 = 0#5 ∧ fld w 11 5 = 0#5 :=
  and_mask_iff w [(21, 5), (11, 5)] rfl
@[simp] theorem mask_03FF0000_iff (w : Word) : w &&& 0x03FF0000#32 = 0#32 ↔ fld w 21 5 = 0#5 ∧ fld w 16 5 = 0#5 :=
  and_mask_iff w [(21, 5), (16, 5)] rfl
@[simp] theorem mask_03FFFFFF_iff (w : Word) : w &&& 0x03FFFFFF#32 = 0#32 ↔ fld w 21 5 = 0#5 ∧ fld w 16 5 = 0#5 ∧ fld w 0 16 = 0#16 :=
  and_mask_iff w [(21, 5), (16, 5), (0, 16)] rfl
@[simp] theorem mask_00000070_iff (w : Word) : w &&& 0x00000070#32 = 0#32 ↔ fld w 4 3 = 0#3 := and_mask_iff w [(4, 3)] rfl
@[simp] theorem mask_00000060_iff (w : Word) : w &&& 0x00000060#32 = 0#32 ↔ fld w 5 2 = 0#2 := and_mask_iff w [(5, 2)] rfl
@[simp] theorem mask_03FFFFF0_iff (w : Word) : w &&& 0x03FFFFF0#32 = 0#32 ↔ fld w 4 22 = 0#22 := and_mask_iff w [(4, 22)] rfl
@[simp] theorem mask_03FC0FF0_iff (w : Word) : w &&& 0x03FC0FF0#32 = 0#32 ↔ fld w 18 8 = 0#8 ∧ fld w 4 8 = 0#8 :=
  and_mask_iff w [(18, 8), (4, 8)] rfl
@[simp] theorem mask_0003FFC0_iff (w : Word) : w &&& 0x0003FFC0#32 = 0#32 ↔ fld w 6 12 = 0#12 := and_mask_iff w [(6, 12)] rfl
@[simp] theorem mask_000007F0_iff (w : Word) : w &&& 0x000007F0#32 = 0#32 ↔ fld w 4 7 = 0#7 := and_mask_iff w [(4, 7)] rfl
@[simp] theorem mask_03C00FF0_iff (w : Word) : w &&& 0x03C00FF0#32 = 0#32 ↔ fld w 22 4 = 0#4 ∧ fld w 4 8 = 0#8 :=
  and_mask_iff w [(22, 4), (4, 8)] rfl
@[simp] theorem mask_00700EF0_iff (w : Word) : w &&& 0x00700EF0#32 = 0#32 ↔ fld w 20 3 = 0#3 ∧ fld w 9 3 = 0#3 ∧ fld w 4 4 = 0#4 :=
  and_mask_iff w [(20, 3), (9, 3), (4, 4)] rfl
@[simp] theorem mask_007001F0_iff (w : Word) : w &&& 0x007001F0#32 = 0#32 ↔ fld w 20 3 = 0#3 ∧ fld w 8 1 = 0#1 ∧ fld w 4 4 = 0#4 :=
  and_mask_iff w [(20, 3), (8, 1), (4, 4)] rfl
@[simp] theorem mask_03F00FF0_iff (w : Word) : w &&& 0x03F00FF0#32 = 0#32 ↔
    fld w 23 3 = 0#3 ∧ fld w 20 3 = 0#3 ∧ fld w 9 3 = 0#3 ∧ fld w 8 1 = 0#1 ∧ fld w 4 4 = 0#4 :=
  and_mask_iff w [(23, 3), (20, 3), (9, 3), (8, 1), (4, 4)] rfl
@[simp] theorem mask_000000F0_iff (w : Word) : w &&& 0x000000F0#32 = 0#32 ↔ fld w 4 4 = 0#4 := and_mask_iff w [(4, 4)] rfl
@[simp] theorem mask_00000FF0_iff (w : Word) : w &&& 0x00000FF0#32 = 0#32 ↔ fld w 4 8 = 0#8 := and_mask_iff w [(4, 8)] rfl
@[simp] theorem mask_0007FFF0_iff (w : Word) : w &&& 0x0007FFF0#32 = 0#32 ↔ fld w 4 15 = 0#15 := and_mask_iff w [(4, 15)] rfl
@[simp] theorem mask_00001FF0_iff (w : Word) : w &&& 0x00001FF0#32 = 0#32 ↔ fld w 4 9 = 0#9 := and_mask_iff w [(4, 9)] rfl
@[simp] theorem mask_01FFFFF0_iff (w : Word) : w &&& 0x01FFFFF0#32 = 0#32 ↔ fld w 4 21 = 0#21 := and_mask_iff w [(4, 21)] rfl
@[simp] theorem mask_003FFFF0_iff (w : Word) : w &&& 0x003FFFF0#32 = 0#32 ↔ fld w 4 18 = 0#18 := and_mask_iff w [(4, 18)] rfl
@[simp] theorem mask_0079E780_iff (w : Word) : w &&& 0x0079E780#32 = 0#32 ↔ fld w 19 4 = 0#4 ∧ fld w 13 4 = 0#4 ∧ fld w 7 4 = 0#4 :=
  and_mask_iff w [(19, 4), (13, 4), (7, 4)] rfl
@[simp] theorem mask_0079E7E0_iff (w : Word) : w &&& 0x0079E7E0#32 = 0#32 ↔ fld w 19 4 = 0#4 ∧ fld w 13 4 = 0#4 ∧ fld w 5 6 = 0#6 :=
  and_mask_iff w [(19, 4), (13, 4), (5, 6)] rfl
@[simp] theorem mask_007FFFF0_iff (w : Word) : w &&& 0x007FFFF0#32 = 0#32 ↔
    fld w 17 6 = 0#6 ∧ fld w 11 6 = 0#6 ∧ fld w 5 6 = 0#6 ∧ fld w 4 1 = 0#1 :=
  and_mask_iff w [(17, 6), (11, 6), (5, 6), (4, 1)] rfl
@[simp] theorem mask_000001F0_iff (w : Word) : w &&& 0x000001F0#32 = 0#32 ↔ fld w 4 5 = 0#5 := and_mask_iff w [(4, 5)] rfl

/-! ### Coded fields -/

/-- A code stands where its decoding reads it. -/
theorem isAt_code_iff {α : Type} {n : Nat} {code : α → BitVec n} {read : BitVec n → Except DecodeError α}
    (hread : ∀ a, read (code a) = .ok a) (hcode : ∀ b a, read b = .ok a → code a = b) (a : α) (w : Word) (lo : Nat) :
    IsAt (code a) w lo ↔ read (fld w lo n) = .ok a :=
  ⟨fun h => h ▸ hread a, fun h => (hcode _ a h).symm⟩

@[simp] theorem isAt_scope : ∀ (s : Scope) (w : Word) (lo : Nat), IsAt s.code w lo ↔ scopeOf (fld w lo 3) = .ok s :=
  isAt_code_iff (fun s => by cases s <;> rfl) fun b s => by cases s <;> revert b <;> decide

@[simp] theorem isAt_rmode : ∀ (m : RMode) (w : Word) (lo : Nat), IsAt m.code w lo ↔ rmodeOf (fld w lo 3) = .ok m :=
  isAt_code_iff (fun m => by cases m <;> rfl) fun b m => by cases m <;> revert b <;> decide

@[simp] theorem isAt_cond : ∀ (c : Cond) (w : Word) (lo : Nat), IsAt c.code w lo ↔ condOf (fld w lo 4) = .ok c :=
  isAt_code_iff (fun c => by cases c <;> rfl) fun b c => by cases c <;> revert b <;> decide

@[simp] theorem isAt_profile : ∀ (f : Profile) (w : Word) (lo : Nat), IsAt f.code w lo ↔ profileOf (fld w lo 4) = .ok f :=
  isAt_code_iff (fun f => by cases f <;> rfl) fun b f => by cases f <;> revert b <;> decide

@[simp] theorem isAt_tileKind : ∀ (k : TileKind) (w : Word) (lo : Nat), IsAt k.code w lo ↔ tileKindOf (fld w lo 4) = .ok k :=
  isAt_code_iff (fun k => by cases k <;> rfl) fun b k => by cases k <;> revert b <;> decide

@[simp] theorem isAt_oaMode : ∀ (m : OaMode) (w : Word) (lo : Nat), IsAt m.code w lo ↔ oaModeOf (fld w lo 2) = .ok m :=
  isAt_code_iff (fun m => by cases m <;> rfl) fun b m => by cases m <;> revert b <;> decide

@[simp] theorem isAt_meterSel : ∀ (s : MeterSel) (w : Word) (lo : Nat), IsAt s.code w lo ↔ meterSelOf (fld w lo 2) = .ok s :=
  isAt_code_iff (fun s => by cases s <;> rfl) fun b s => by cases s <;> revert b <;> decide

theorem vopOf_code (o : VOp) : vopOf o.code = .ok o := by
  cases o with
  | whole n | row n | col n | inp n | out n => revert n; decide
  | zero | ones => rfl

theorem code_of_vopOf : ∀ (b : BitVec 6) (o : VOp), vopOf b = .ok o → o.code = b := by
  have h : ∀ b : BitVec 6, ((vopOf b).toOption.map VOp.code).getD b = b := by decide
  intro b o hb
  simpa [hb, Except.toOption] using h b

@[simp] theorem isAt_vop : ∀ (o : VOp) (w : Word) (lo : Nat), IsAt o.code w lo ↔ vopOf (fld w lo 6) = .ok o :=
  isAt_code_iff vopOf_code code_of_vopOf

@[simp] theorem isAt_tok (t : Tok) (w : Word) : IsAt t.code w 0 ↔ tokOf w = t := by
  obtain ⟨p, q⟩ := t
  exact (isAt_append p q w 0).trans (by simp [IsAt, tokOf])

/-! ### What a decoder answers -/

@[simp] theorem zeros_ok_iff {w m : Word} {i j : Instr} : zeros w m i = .ok j ↔ w &&& m = 0#32 ∧ i = j := by
  unfold zeros
  split <;> simp_all

@[simp] theorem checked_ok_iff {i j : Instr} : checked i = .ok j ↔ i.wf = true ∧ i = j := by
  unfold checked
  split <;> simp_all

@[simp] theorem bind_ok_iff {α β : Type} {x : Except DecodeError α} {f : α → Except DecodeError β} {y : β} :
    x >>= f = .ok y ↔ ∃ a, x = .ok a ∧ f a = .ok y := by
  cases x <;> simp [bind, Except.bind]

/-! ### Words and their instructions -/

/-- Word w of map m stands for instruction i, and i alone has it for its word. -/
def IsWordOf (m : OpMap) (w : Word) (i : Instr) : Prop := i.wf = true ∧ encode i = some (m, w)

theorem isWordOf_of {i : Instr} {m : OpMap} {v w : Word} (hw : i.wf = true) (he : encode i = some (m, v)) (h : IsAt v w 0) :
    IsWordOf m w i := ⟨hw, he.trans (encoded_iff.2 ⟨rfl, h⟩)⟩

theorem isAt_of_encode {i : Instr} {m : OpMap} {v w : Word} (h : encode i = some (m, w)) (he : encode i = some (m, v)) : IsAt v w 0 :=
  (encoded_iff.1 (he.symm.trans h)).2

section

variable {w : Word} {i : Instr}

@[simp] theorem guard_ok_iff {c : Prop} [Decidable c] {x : Except DecodeError Instr} {e : DecodeError} :
    (if c then x else .error e) = .ok i ↔ c ∧ x = .ok i := by
  split <;> simp [*]

@[simp] theorem unless_ok_iff {c : Prop} [Decidable c] {x : Except DecodeError Instr} {e : DecodeError} :
    (if c then .error e else x) = .ok i ↔ ¬ c ∧ x = .ok i := by
  split <;> simp [*]

/-! ### Transfer words -/

theorem isAt_xForm {op : BitVec 6} {x : XArgs} {v : BitVec 3} :
    IsAt (xForm op x v) w 0 ↔ fld w 26 6 = op ∧ IsAt v w 4 ∧ scopeOf (fld w 7 3) = .ok x.scope ∧
      x = ⟨fld w 22 4, fld w 18 4, fld w 12 6, bit w 11, bit w 10, x.scope, tokOf w⟩ := by
  simp only [xForm, HAppend.hAppend, isAt_append, isAt_ofBool, isAt_scope, isAt_tok, Nat.reduceAdd]
  obtain ⟨src, dst, tag, acq, rel, scope, tok⟩ := x
  simp only [IsAt, XArgs.mk.injEq]
  grind

theorem xargsOf_ok_iff {f : XArgs → Except DecodeError Instr} :
    xargsOf w f = .ok i ↔ ∃ x : XArgs, scopeOf (fld w 7 3) = .ok x.scope ∧
      x = ⟨fld w 22 4, fld w 18 4, fld w 12 6, bit w 11, bit w 10, x.scope, tokOf w⟩ ∧ f x = .ok i := by
  simp only [xargsOf, bind_ok_iff]
  constructor
  · rintro ⟨s, hs, hf⟩
    exact ⟨_, hs, rfl, hf⟩
  · rintro ⟨x, hs, hx, hf⟩
    exact ⟨x.scope, hs, hx ▸ hf⟩

theorem xmode_ok_iff {f : XArgs → RMode → Instr} {op : BitVec 6} (hop : fld w 26 6 = op) :
    xmode w f = .ok i ↔ ∃ x m, i.wf = true ∧ i = f x m ∧ IsAt (xForm op x m.code) w 0 := by
  simp only [xmode, xargsOf_ok_iff, bind_ok_iff, checked_ok_iff, isAt_xForm, isAt_rmode]
  grind

theorem xplain_ok_iff {f : XArgs → Instr} {op : BitVec 6} (hop : fld w 26 6 = op) :
    xplain w f = .ok i ↔ ∃ x, i.wf = true ∧ i = f x ∧ IsAt (xForm op x 0#3) w 0 := by
  simp only [xplain, xargsOf_ok_iff, guard_ok_iff, checked_ok_iff, isAt_xForm, beq_iff_eq, mask_00000070_iff]
  simp only [IsAt]
  grind

theorem xacw_ok_iff {f : XArgs → Bool → Bool → Instr} {op : BitVec 6} (hop : fld w 26 6 = op) :
    xacw w f = .ok i ↔ ∃ x r d, i.wf = true ∧ i = f x r d ∧ IsAt (xForm op x (BitVec.ofBool r ++ BitVec.ofBool d ++ 0#1)) w 0 := by
  simp only [xacw, xargsOf_ok_iff, unless_ok_iff, checked_ok_iff, isAt_xForm, HAppend.hAppend, isAt_append, isAt_ofBool, Nat.reduceAdd]
  simp only [IsAt, fld_one_iff]
  grind

theorem isWordOf_of_decodeXfer (h : decodeXfer w = .ok i) : IsWordOf .xfer w i := by
  unfold decodeXfer at h
  split at h
  case h_1 hop | h_30 hop | h_31 hop | h_32 hop =>
    simp only [guard_ok_iff, beq_iff_eq, checked_ok_iff] at h
    obtain ⟨hz, hw, rfl⟩ := h
    refine isWordOf_of hw rfl ?_
    simp only [HAppend.hAppend, isAt_append, isAt_tok, Nat.reduceAdd]
    simp_all [IsAt]
  case h_11 hop =>
    simp only [guard_ok_iff, xargsOf_ok_iff, beq_iff_eq, checked_ok_iff, mask_00000060_iff] at h
    obtain ⟨x, hs, hx, hz, hw, rfl⟩ := h
    refine isWordOf_of hw rfl (isAt_xForm.2 ⟨hop, ?_, hs, hx⟩)
    simp only [HAppend.hAppend, isAt_append, isAt_ofBool, and_true]
    exact hz
  case h_2 hop | h_3 hop | h_4 hop | h_5 hop | h_6 hop =>
    obtain ⟨x, m, hw, rfl, hf⟩ := (xmode_ok_iff hop).1 h
    exact isWordOf_of hw rfl hf
  case h_7 hop | h_8 hop | h_9 hop | h_10 hop | h_12 hop | h_28 hop | h_29 hop =>
    obtain ⟨x, hw, rfl, hf⟩ := (xplain_ok_iff hop).1 h
    exact isWordOf_of hw rfl hf
  case h_13 hop | h_14 hop | h_15 hop | h_16 hop | h_17 hop | h_18 hop | h_19 hop | h_20 hop | h_21 hop | h_22 hop | h_23 hop
      | h_24 hop | h_25 hop | h_26 hop | h_27 hop =>
    obtain ⟨x, r, d, hw, rfl, hf⟩ := (xacw_ok_iff hop).1 h
    exact isWordOf_of hw rfl hf
  case h_33 => cases h

/-! ### Matrix words -/

theorem mForm_low_iff (w : Word) : fld w 4 7 = 0#7 ↔ (fld w 9 2 = 0#2 ∧ bit w 8 = false) ∧ fld w 4 4 = 0#4 := by
  simp [fld_eq_iff_split w 4 3 4 0#7, fld_eq_iff_split w 8 2 1 0#3, fld_one_iff]

theorem isWordOf_of_decodeMatrix (h : decodeMatrix w = .ok i) : IsWordOf .matrix w i := by
  unfold decodeMatrix at h
  split at h
  case h_7 hop | h_8 hop =>
    simp only [bind_ok_iff, zeros_ok_iff, mask_000007F0_iff, mForm_low_iff] at h
    obtain ⟨f, hf, ⟨⟨h9, h8⟩, h4⟩, rfl⟩ := h
    refine isWordOf_of rfl rfl ?_
    simp only [mForm, HAppend.hAppend, isAt_append, isAt_profile, isAt_ofBool, isAt_tok, Nat.reduceAdd]
    simp [IsAt, *]
  case h_11 hop =>
    split at h
    case h_3 => cases h
    all_goals
      obtain ⟨hz, rfl⟩ := zeros_ok_iff.1 h
      refine isWordOf_of rfl rfl ?_
      simp only [mForm, HAppend.hAppend, isAt_append, isAt_ofBool, isAt_tok, Nat.reduceAdd]
      simp_all [IsAt, fld_one_iff]
  case h_22 => cases h
  case h_9 hop | h_13 hop =>
    simp only [bind_ok_iff, zeros_ok_iff] at h
    obtain ⟨k, hk, hz, rfl⟩ := h
    refine isWordOf_of rfl rfl ?_
    simp only [mForm, HAppend.hAppend, isAt_append, isAt_ofBool, isAt_tileKind, isAt_oaMode, isAt_tok, Nat.reduceAdd]
    simp_all [IsAt]
  case h_10 hop =>
    simp only [mmodeOf, bind_ok_iff, zeros_ok_iff] at h
    obtain ⟨k, hk, m, hm, hz, rfl⟩ := h
    refine isWordOf_of rfl rfl ?_
    simp only [mForm, HAppend.hAppend, isAt_append, isAt_ofBool, isAt_tileKind, isAt_rmode, isAt_tok, Nat.reduceAdd]
    simp_all [IsAt, fld_one_iff]
  case h_12 hop =>
    simp only [mmodeOf, bind_ok_iff, guard_ok_iff, beq_iff_eq, checked_ok_iff] at h
    obtain ⟨m, hm, hz, hw, rfl⟩ := h
    refine isWordOf_of hw rfl ?_
    simp only [mForm, HAppend.hAppend, isAt_append, isAt_ofBool, isAt_rmode, isAt_tok, Nat.reduceAdd]
    simp_all [IsAt]
  case h_14 hop =>
    simp only [guard_ok_iff, beq_iff_eq, checked_ok_iff] at h
    obtain ⟨hz, hw, rfl⟩ := h
    refine isWordOf_of hw rfl ?_
    simp only [HAppend.hAppend, isAt_append, isAt_tok, Nat.reduceAdd]
    simp_all [IsAt]
  all_goals
    obtain ⟨hz, rfl⟩ := zeros_ok_iff.1 h
    refine isWordOf_of rfl rfl ?_
    simp only [HAppend.hAppend, isAt_append, isAt_ofBool, isAt_tok, Nat.reduceAdd]
    simp_all [IsAt]

/-! ### Vector words -/

theorem isAt_vForm {op : BitVec 9} {d a b : BitVec 6} {me : Bool} {t : Tok} :
    IsAt (vForm op d a b me t) w 0 ↔ fld w 23 9 = op ∧ IsAt d w 17 ∧ IsAt a w 11 ∧ IsAt b w 5 ∧ bit w 4 = me ∧ tokOf w = t := by
  simp only [vForm, HAppend.hAppend, isAt_append, isAt_ofBool, isAt_tok, Nat.reduceAdd, and_assoc]
  rfl

theorem v3_ok_iff {f : V3 → Instr} {op : BitVec 9} (hop : fld w 23 9 = op) :
    v3 w f = .ok i ↔ ∃ x, i.wf = true ∧ i = f x ∧ IsAt (v3Form op x) w 0 := by
  simp only [v3, bind_ok_iff, checked_ok_iff, v3Form, isAt_vForm, isAt_vop]
  constructor
  · rintro ⟨d, hd, a, ha, b, hb, hw, rfl⟩
    exact ⟨_, hw, rfl, hop, hd, ha, hb, rfl, rfl⟩
  · rintro ⟨⟨d, a, b, _, _⟩, hw, rfl, -, hd, ha, hb, rfl, rfl⟩
    exact ⟨d, hd, a, ha, b, hb, hw, rfl⟩

theorem v2_ok_iff {f : V2 → Instr} {op : BitVec 9} (hop : fld w 23 9 = op) :
    v2 w f = .ok i ↔ ∃ x, i.wf = true ∧ i = f x ∧ IsAt (v2Form op x) w 0 := by
  simp only [v2, bind_ok_iff, guard_ok_iff, beq_iff_eq, checked_ok_iff, v2Form, isAt_vForm, isAt_vop]
  constructor
  · rintro ⟨d, hd, a, ha, hb, hw, rfl⟩
    exact ⟨_, hw, rfl, hop, hd, ha, hb, rfl, rfl⟩
  · rintro ⟨⟨d, a, _, _⟩, hw, rfl, -, hd, ha, hb, rfl, rfl⟩
    exact ⟨d, hd, a, ha, hb, hw, rfl⟩

theorem vk_ok_iff {f : VK → Instr} {op : BitVec 9} (hop : fld w 23 9 = op) :
    vk w f = .ok i ↔ ∃ x, i.wf = true ∧ i = f x ∧ IsAt (vkForm op x) w 0 := by
  simp only [vk, bind_ok_iff, checked_ok_iff, vkForm, isAt_vForm, isAt_vop]
  constructor
  · rintro ⟨d, hd, a, ha, hw, rfl⟩
    exact ⟨_, hw, rfl, hop, hd, ha, rfl, rfl, rfl⟩
  · rintro ⟨⟨d, a, _, _, _⟩, hw, rfl, -, hd, ha, rfl, rfl, rfl⟩
    exact ⟨d, hd, a, ha, hw, rfl⟩

theorem vc_ok_iff {f : VC → Instr} {op : BitVec 9} (hop : fld w 23 9 = op) :
    vc w f = .ok i ↔ ∃ x, i.wf = true ∧ i = f x ∧ IsAt (vcForm op x) w 0 := by
  simp only [vc, bind_ok_iff, guard_ok_iff, beq_iff_eq, checked_ok_iff, vcForm, isAt_vForm, isAt_vop, HAppend.hAppend, isAt_append]
  constructor
  · rintro ⟨a, ha, b, hb, hz, hw, rfl⟩
    exact ⟨_, hw, rfl, hop, ⟨hz, rfl⟩, ha, hb, rfl, rfl⟩
  · rintro ⟨⟨_, a, b, _, _⟩, hw, rfl, -, ⟨hz, rfl⟩, ha, hb, rfl, rfl⟩
    exact ⟨a, ha, b, hb, hz, hw, rfl⟩

theorem vm_ok_iff {f : VM → Instr} {op : BitVec 9} (hop : fld w 23 9 = op) :
    vm w f = .ok i ↔ ∃ x, i = f x ∧ IsAt (vmForm op x) w 0 := by
  simp only [vm, zeros_ok_iff, mask_0079E780_iff, vmForm, isAt_vForm, HAppend.hAppend, isAt_append]
  constructor
  · rintro ⟨⟨hk, hx, hy⟩, rfl⟩
    exact ⟨_, rfl, hop, ⟨hk, rfl⟩, ⟨hx, rfl⟩, ⟨hy, rfl⟩, rfl, rfl⟩
  · rintro ⟨⟨_, _, _, _, _⟩, rfl, -, ⟨hk, rfl⟩, ⟨hx, rfl⟩, ⟨hy, rfl⟩, rfl, rfl⟩
    exact ⟨⟨hk, hx, hy⟩, rfl⟩

theorem isWordOf_of_decodeVector (h : decodeVector w = .ok i) : IsWordOf .vector w i := by
  unfold decodeVector at h
  split at h
  case h_7 hop | h_8 hop | h_9 hop | h_10 hop | h_11 hop | h_12 hop | h_16 hop | h_18 hop | h_19 hop | h_20 hop | h_21 hop | h_22 hop
      | h_23 hop | h_37 hop | h_38 hop | h_39 hop =>
    obtain ⟨x, hw, rfl, hf⟩ := (v3_ok_iff hop).1 h
    exact isWordOf_of hw rfl hf
  case h_4 hop | h_13 hop | h_14 hop | h_15 hop | h_17 hop | h_35 hop | h_36 hop | h_40 hop | h_41 hop | h_42 hop | h_43 hop | h_44 hop
      | h_45 hop | h_46 hop | h_47 hop | h_48 hop | h_53 hop | h_54 hop | h_55 hop | h_56 hop | h_57 hop | h_58 hop | h_59 hop
      | h_60 hop =>
    obtain ⟨x, hw, rfl, hf⟩ := (v2_ok_iff hop).1 h
    exact isWordOf_of hw rfl hf
  case h_49 hop | h_50 hop | h_51 hop | h_52 hop =>
    obtain ⟨x, hw, rfl, hf⟩ := (vk_ok_iff hop).1 h
    exact isWordOf_of hw rfl hf
  case h_24 hop | h_25 hop | h_26 hop | h_27 hop | h_28 hop | h_29 hop =>
    obtain ⟨x, hw, rfl, hf⟩ := (vc_ok_iff hop).1 h
    exact isWordOf_of hw rfl hf
  case h_30 hop | h_31 hop | h_32 hop =>
    obtain ⟨x, rfl, hf⟩ := (vm_ok_iff hop).1 h
    exact isWordOf_of rfl rfl hf
  case h_34 hop =>
    obtain ⟨hme, h⟩ := unless_ok_iff.1 h
    obtain ⟨x, hw, rfl, hf⟩ := (v3_ok_iff hop).1 h
    obtain ⟨-, hd, ha, hb, -, ht⟩ := isAt_vForm.1 hf
    exact isWordOf_of hw rfl (isAt_vForm.2 ⟨hop, hd, ha, hb, eq_false_of_ne_true hme, ht⟩)
  case h_3 hop =>
    obtain ⟨hw, rfl⟩ := checked_ok_iff.1 h
    refine isWordOf_of hw rfl ?_
    simp only [HAppend.hAppend, isAt_append, isAt_tok, Nat.reduceAdd]
    simp [IsAt, hop]
  case h_2 hop =>
    split at h
    case h_4 => cases h
    all_goals
      obtain ⟨hz, rfl⟩ := zeros_ok_iff.1 h
      refine isWordOf_of rfl rfl ?_
      simp only [HAppend.hAppend, isAt_append, isAt_ofBool, isAt_tok, Nat.reduceAdd]
      simp_all [IsAt]
  case h_61 => cases h
  case h_1 hop | h_5 hop | h_6 hop | h_33 hop =>
    obtain ⟨hz, rfl⟩ := zeros_ok_iff.1 h
    refine isWordOf_of rfl rfl ?_
    simp only [vForm, HAppend.hAppend, isAt_append, isAt_ofBool, isAt_tok, Nat.reduceAdd]
    simp_all [IsAt, fld_one_iff]

/-! ### Sequencer words -/

theorem isAt_rForm {op : BitVec 6} {d a b : BitVec 5} {m : BitVec 11} :
    IsAt (rForm op d a b m) w 0 ↔ fld w 26 6 = op ∧ IsAt d w 21 ∧ IsAt a w 16 ∧ IsAt b w 11 ∧ IsAt m w 0 := by
  simp only [rForm, HAppend.hAppend, isAt_append, Nat.reduceAdd, and_assoc]
  rfl

theorem isAt_iForm {op : BitVec 6} {d a : BitVec 5} {x : BitVec 16} :
    IsAt (iForm op d a x) w 0 ↔ fld w 26 6 = op ∧ IsAt d w 21 ∧ IsAt a w 16 ∧ IsAt x w 0 := by
  simp only [iForm, HAppend.hAppend, isAt_append, Nat.reduceAdd, and_assoc]
  rfl

theorem isWordOf_of_decodeAlu (hop : fld w 26 6 = 0x00#6) (h : decodeAlu w = .ok i) : IsWordOf .seq w i := by
  unfold decodeAlu at h
  split at h
  case h_21 => cases h
  all_goals
    obtain rfl := Except.ok.inj h
    refine isWordOf_of rfl rfl ?_
    simp only [isAt_rForm]
    simp [IsAt, *]

theorem isWordOf_of_decodeShiftImm (hop : fld w 26 6 = 0x05#6) (h : decodeShiftImm w = .ok i) : IsWordOf .seq w i := by
  unfold decodeShiftImm at h
  split at h
  case h_5 => cases h
  all_goals
    obtain rfl := Except.ok.inj h
    refine isWordOf_of rfl rfl ?_
    simp only [isAt_iForm, HAppend.hAppend, isAt_append, Nat.reduceAdd]
    simp_all [IsAt, fld_eq_iff_split w 6 8 2]

theorem isWordOf_of_decodeCount (hop : fld w 26 6 = 0x08#6) (h : decodeCount w = .ok i) : IsWordOf .seq w i := by
  unfold decodeCount at h
  split at h
  case h_6 => cases h
  all_goals
    obtain rfl := Except.ok.inj h
    refine isWordOf_of rfl rfl ?_
    simp only [isAt_rForm]
    simp_all [IsAt, fld_eq_iff_split w 0 5 11]

theorem isWordOf_of_decodeBitField (hop : fld w 26 6 = 0x09#6) (h : decodeBitField w = .ok i) : IsWordOf .seq w i := by
  unfold decodeBitField at h
  split at h
  case h_4 => cases h
  all_goals
    obtain ⟨hw, rfl⟩ := checked_ok_iff.1 h
    refine isWordOf_of hw rfl ?_
    simp only [isAt_iForm, HAppend.hAppend, isAt_append, Nat.reduceAdd]
    simp_all [IsAt, fld_eq_iff_split w 13 2 1]

theorem isWordOf_of_decodePred (hop : fld w 26 6 = 0x0C#6) (h : decodePred w = .ok i) : IsWordOf .seq w i := by
  unfold decodePred at h
  split at h
  case h_8 => cases h
  all_goals
    obtain ⟨hz, rfl⟩ := zeros_ok_iff.1 h
    refine isWordOf_of rfl rfl ?_
    simp only [isAt_rForm, HAppend.hAppend, isAt_append, Nat.reduceAdd]
    simp_all [IsAt]

theorem isWordOf_of_decodeJump (hop : fld w 26 6 = 0x22#6) (h : decodeJump w = .ok i) : IsWordOf .seq w i := by
  unfold decodeJump at h
  split at h
  case h_4 => cases h
  all_goals
    obtain ⟨hz, rfl⟩ := zeros_ok_iff.1 h
    refine isWordOf_of rfl rfl ?_
    simp only [isAt_rForm]
    simp_all [IsAt, fld_eq_iff_split w 0 9 2]

theorem isWordOf_of_decodeStream (hop : fld w 26 6 = 0x24#6) (h : decodeStream w = .ok i) : IsWordOf .seq w i := by
  unfold decodeStream at h
  split at h
  case h_5 => cases h
  all_goals
    obtain ⟨hz, rfl⟩ := zeros_ok_iff.1 h
    refine isWordOf_of rfl rfl ?_
    simp only [isAt_rForm, HAppend.hAppend, isAt_append, Nat.reduceAdd]
    simp_all [IsAt]

theorem isWordOf_of_decodeTagWait (hop : fld w 26 6 = 0x25#6) (h : decodeTagWait w = .ok i) : IsWordOf .seq w i := by
  unfold decodeTagWait at h
  split at h
  case h_4 => cases h
  all_goals
    obtain ⟨hz, rfl⟩ := zeros_ok_iff.1 h
    refine isWordOf_of rfl rfl ?_
    simp only [isAt_rForm, HAppend.hAppend, isAt_append, isAt_ofBool, Nat.reduceAdd]
    simp_all [IsAt]

theorem isWordOf_of_decodePlan (h : decodePlan w = .ok i) : IsWordOf .seq w i := by
  unfold decodePlan at h
  split at h
  case h_16 => cases h
  all_goals
    obtain ⟨hz, rfl⟩ := zeros_ok_iff.1 h
    refine isWordOf_of rfl rfl ?_
    simp only [isAt_rForm, HAppend.hAppend, isAt_append, isAt_ofBool, Nat.reduceAdd]
    simp_all [IsAt]

/-- The numbers of the flag registers, by their upper bits. -/
theorem flagNumber_iff (r : BitVec 11) : (0x010#11 ≤ r ∧ r ≤ 0x013#11) ↔ r.extractLsb' 2 9 = 0x004#9 := by
  simp only [BitVec.le_def, ← BitVec.toNat_inj, BitVec.extractLsb'_toNat, Nat.shiftRight_eq_div_pow, BitVec.toNat_ofNat]
  omega

/-- The numbers of the BFMT registers, by their upper bits. -/
theorem bfmtNumber_iff (r : BitVec 11) : (0x020#11 ≤ r ∧ r ≤ 0x03F#11) ↔ r.extractLsb' 5 6 = 1#6 := by
  simp only [BitVec.le_def, ← BitVec.toNat_inj, BitVec.extractLsb'_toNat, Nat.shiftRight_eq_div_pow, BitVec.toNat_ofNat]
  omega

theorem fld_fld (w : Word) {lo n a b : Nat} (h : a + b ≤ n) : (fld w lo n).extractLsb' a b = fld w (lo + a) b := by
  apply BitVec.eq_of_getLsbD_eq
  intro i hi
  simp only [BitVec.getLsbD_extractLsb', fld_getLsbD, Nat.add_assoc, decide_eq_true (show a + i < n by omega), Bool.true_and]

theorem fld_ne {lo n a b : Nat} (h : a + b ≤ n) {y : BitVec b} (hy : fld w (lo + a) b = y) {x : BitVec n} (hx : x.extractLsb' a b ≠ y) :
    fld w lo n ≠ x := by
  rintro rfl
  exact hx ((fld_fld w h).trans hy)

/-- What a write of a system register decodes to, by the fields of its number (R141). -/
theorem decodeSwr_eq (w : Word) : decodeSwr w =
    if fld w 0 11 = 0x005#11 then .seedWrite (fld w 16 5) else if fld w 0 11 = 0x006#11 then .tagsClear (fld w 16 5)
    else if fld w 2 9 = 0x004#9 then .flagsClear (fld w 16 5) (fld w 0 2)
    else if fld w 5 6 = 1#6 then .bfmtWrite (fld w 16 5) (fld w 0 5) else .swr (fld w 16 5) (fld w 0 11) := by
  have h1 := flagNumber_iff (fld w 0 11)
  have h2 := bfmtNumber_iff (fld w 0 11)
  rw [fld_fld w (by decide)] at h1 h2
  simp only [decodeSwr, Bool.and_eq_true, decide_eq_true_eq, h1, h2, beq_iff_eq]

theorem swrSpecial_fld (w : Word) : swrSpecial (fld w 0 11) = false ↔
    fld w 0 11 ≠ 0x005#11 ∧ fld w 0 11 ≠ 0x006#11 ∧ fld w 2 9 ≠ 0x004#9 ∧ fld w 5 6 ≠ 1#6 := by
  have h1 := flagNumber_iff (fld w 0 11)
  have h2 := bfmtNumber_iff (fld w 0 11)
  rw [fld_fld w (by decide)] at h1 h2
  rw [← Bool.not_eq_true]
  simp only [swrSpecial, Bool.or_eq_true, Bool.and_eq_true, decide_eq_true_eq, h1, h2, beq_iff_eq, not_or]
  tauto

theorem isWordOf_decodeSwr (hop : fld w 26 6 = 0x2A#6) (hz : w &&& 0x03E0F800#32 = 0#32) : IsWordOf .seq w (decodeSwr w) := by
  rw [decodeSwr_eq]
  obtain ⟨h21, h11⟩ := (mask_03E0F800_iff w).1 hz
  have number (x : BitVec 11) : IsAt (rForm 0x2A#6 0#5 (fld w 16 5) 0#5 x) w 0 ↔ IsAt x w 0 := by
    simp only [isAt_rForm]
    simp [IsAt, *]
  split
  case isTrue h5 => exact isWordOf_of rfl rfl ((number _).2 h5)
  split
  case isTrue h6 => exact isWordOf_of rfl rfl ((number _).2 h6)
  split
  case isTrue hf => exact isWordOf_of rfl rfl ((number _).2 ((isAt_append ..).2 ⟨hf, rfl⟩))
  split
  case isTrue hb => exact isWordOf_of rfl rfl ((number _).2 ((isAt_append ..).2 ⟨hb, rfl⟩))
  case isFalse h5 h6 hf hb =>
    exact isWordOf_of (by simpa [Instr.wf] using (swrSpecial_fld w).2 ⟨h5, h6, hf, hb⟩) rfl ((number _).2 rfl)

theorem isWordOf_of_decodeSeq (h : decodeSeq w = .ok i) : IsWordOf .seq w i := by
  unfold decodeSeq at h
  split at h
  case h_1 hop => exact isWordOf_of_decodeAlu hop h
  case h_6 hop => exact isWordOf_of_decodeShiftImm hop h
  case h_9 hop => exact isWordOf_of_decodeCount hop h
  case h_10 hop => exact isWordOf_of_decodeBitField hop h
  case h_13 hop => exact isWordOf_of_decodePred hop h
  case h_29 hop => exact isWordOf_of_decodeJump hop h
  case h_30 hop => exact isWordOf_of_decodeStream hop h
  case h_31 hop => exact isWordOf_of_decodeTagWait hop h
  case h_36 hop =>
    obtain ⟨hz, rfl⟩ := zeros_ok_iff.1 h
    exact isWordOf_decodeSwr hop hz
  case h_39 hop | h_40 hop | h_41 hop => exact isWordOf_of_decodePlan h
  case h_42 => cases h
  case h_11 hop | h_12 hop | h_32 hop | h_34 hop =>
    simp only [bind_ok_iff, zeros_ok_iff] at h
    obtain ⟨c, hc, hz, rfl⟩ := h
    refine isWordOf_of rfl rfl ?_
    simp only [isAt_rForm, isAt_iForm, HAppend.hAppend, isAt_append, isAt_cond, isAt_scope, isAt_meterSel, Nat.reduceAdd]
    simp_all [IsAt]
  case h_25 hop | h_26 hop =>
    simp only [guard_ok_iff, beq_iff_eq, checked_ok_iff] at h
    obtain ⟨hz, hw, rfl⟩ := h
    refine isWordOf_of hw rfl ?_
    simp only [isAt_rForm]
    simp_all [IsAt]
  case h_7 hop | h_8 hop | h_33 hop | h_35 hop | h_37 hop | h_38 hop =>
    obtain ⟨hz, rfl⟩ := zeros_ok_iff.1 h
    refine isWordOf_of rfl rfl ?_
    simp only [isAt_rForm, isAt_iForm, HAppend.hAppend, isAt_append, Nat.reduceAdd]
    simp_all [IsAt]
  all_goals
    obtain rfl := Except.ok.inj h
    refine isWordOf_of rfl rfl ?_
    simp only [isAt_iForm, HAppend.hAppend, isAt_append, isAt_ofBool, Nat.reduceAdd]
    simp_all [IsAt]


/-! ### Every word of an encoding decodes -/

theorem decodeSeq_of_encode (hw : i.wf = true) (h : encode i = some (.seq, w)) : decodeSeq w = .ok i := by
  cases i with
  | add | sub | mul | mulh | mulhu | and | or | xor | andn | sll | srl | sra | ror | min | max | minu | maxu | lea1 | lea2 | lea3 =>
    have hf := isAt_of_encode h rfl
    obtain ⟨hop, rfl, rfl, rfl, hm⟩ := isAt_rForm.1 hf
    rw [decodeSeq, hop]
    change decodeAlu w = _
    rw [decodeAlu, hm]
    rfl
  | addi | andi | ori | xori | ldBz | ldBs | ldHz | ldHs | ldWz | ldWs | ldDz | stB | stH | stW | stD =>
    have hf := isAt_of_encode h rfl
    obtain ⟨hop, rfl, rfl, rfl⟩ := isAt_iForm.1 hf
    rw [decodeSeq, hop]
    rfl
  | slli | srli | srai | rori =>
    have hf := isAt_of_encode h rfl
    obtain ⟨hop, rfl, rfl, hx⟩ := isAt_iForm.1 hf
    obtain ⟨hm, rfl⟩ := (isAt_append ..).1 hx
    rw [decodeSeq, hop]
    change decodeShiftImm w = _
    rw [decodeShiftImm, hm]
    rfl
  | popc | clz | ctz | brev | bswap =>
    have hf := isAt_of_encode h rfl
    obtain ⟨hop, rfl, rfl, hb, hm⟩ := isAt_rForm.1 hf
    rw [decodeSeq, hop]
    change decodeCount w = _
    rw [decodeCount, (isAt_append ..).2 ⟨hb, hm⟩]
    rfl
  | bfx | bfxs | bfi =>
    have hf := isAt_of_encode h rfl
    obtain ⟨hop, rfl, rfl, hx⟩ := isAt_iForm.1 hf
    obtain ⟨hy, rfl⟩ := (isAt_append ..).1 hx
    obtain ⟨hm, rfl⟩ := (isAt_append ..).1 hy
    rw [decodeSeq, hop]
    change decodeBitField w = _
    rw [decodeBitField, hm]
    exact checked_ok_iff.2 ⟨hw, rfl⟩
  | cmp | cmpi | fence | mrd =>
    have hf := isAt_of_encode h rfl
    simp only [isAt_rForm, isAt_iForm, HAppend.hAppend, isAt_append, isAt_cond, isAt_scope, isAt_meterSel, Nat.reduceAdd] at hf
    simp only [IsAt] at hf
    rw [decodeSeq, hf.1]
    simp [hf]
  | sel | pand | por | pxor | pandn | prd | pwr =>
    have hf := isAt_of_encode h rfl
    simp only [isAt_rForm, HAppend.hAppend, isAt_append, Nat.reduceAdd] at hf
    simp only [IsAt] at hf
    rw [decodeSeq, hf.1]
    change decodePred w = _
    simp [decodePred, hf]
  | spillm | fillm =>
    have hf := isAt_of_encode h rfl
    obtain ⟨hop, rfl, rfl, rfl, hm⟩ := isAt_rForm.1 hf
    rw [decodeSeq, hop]
    simpa using ⟨hm, hw⟩
  | br | call =>
    have hf := isAt_of_encode h rfl
    simp only [HAppend.hAppend, isAt_append, isAt_ofBool, Nat.reduceAdd] at hf
    simp only [IsAt] at hf
    rw [decodeSeq, hf.1.1.1]
    simp [hf]
  | movi | movk | xcp | srd | trap | eret =>
    have hf := isAt_of_encode h rfl
    simp only [isAt_rForm, isAt_iForm, HAppend.hAppend, isAt_append, Nat.reduceAdd] at hf
    simp only [IsAt] at hf
    rw [decodeSeq, hf.1]
    simp [hf]
  | jmp | jmpl | ret =>
    have hf := isAt_of_encode h rfl
    simp only [isAt_rForm] at hf
    simp [IsAt, fld_eq_iff_split w 0 9 2] at hf
    rw [decodeSeq, hf.1]
    change decodeJump w = _
    simp [decodeJump, hf]
  | jstart | rdv | exit | yield =>
    have hf := isAt_of_encode h rfl
    simp only [isAt_rForm, HAppend.hAppend, isAt_append, Nat.reduceAdd] at hf
    simp only [IsAt] at hf
    rw [decodeSeq, hf.1]
    change decodeStream w = _
    simp [decodeStream, hf]
  | twany | twall | tffr =>
    have hf := isAt_of_encode h rfl
    simp only [isAt_rForm, HAppend.hAppend, isAt_append, isAt_ofBool, Nat.reduceAdd] at hf
    simp only [IsAt] at hf
    rw [decodeSeq, hf.1]
    change decodeTagWait w = _
    simp [decodeTagWait, hf]
  | swr a r =>
    have hf := isAt_of_encode h rfl
    obtain ⟨hop, h21, rfl, h11, rfl⟩ := isAt_rForm.1 hf
    obtain ⟨h5, h6, hf, hb⟩ := (swrSpecial_fld w).1 (by simpa [Instr.wf] using hw)
    rw [decodeSeq, hop]
    refine zeros_ok_iff.2 ⟨(mask_03E0F800_iff w).2 ⟨h21, h11⟩, ?_⟩
    rw [decodeSwr_eq, if_neg h5, if_neg h6, if_neg hf, if_neg hb]
  | seedWrite | tagsClear =>
    have hf := isAt_of_encode h rfl
    obtain ⟨hop, h21, rfl, h11, hm⟩ := isAt_rForm.1 hf
    rw [decodeSeq, hop]
    refine zeros_ok_iff.2 ⟨(mask_03E0F800_iff w).2 ⟨h21, h11⟩, ?_⟩
    rw [decodeSwr, hm]
    rfl
  | flagsClear a f =>
    have hf := isAt_of_encode h rfl
    obtain ⟨hop, h21, rfl, h11, hm⟩ := isAt_rForm.1 hf
    obtain ⟨hn, rfl⟩ := (isAt_append ..).1 hm
    rw [decodeSeq, hop]
    refine zeros_ok_iff.2 ⟨(mask_03E0F800_iff w).2 ⟨h21, h11⟩, ?_⟩
    have ne {x : BitVec 11} : x.extractLsb' 2 9 ≠ 0x004#9 → fld w 0 11 ≠ x := fld_ne (by decide) hn
    rw [decodeSwr_eq, if_neg (ne (by decide)), if_neg (ne (by decide))]
    exact if_pos hn
  | bfmtWrite a f =>
    have hf := isAt_of_encode h rfl
    obtain ⟨hop, h21, rfl, h11, hm⟩ := isAt_rForm.1 hf
    obtain ⟨hn, rfl⟩ := (isAt_append ..).1 hm
    rw [decodeSeq, hop]
    refine zeros_ok_iff.2 ⟨(mask_03E0F800_iff w).2 ⟨h21, h11⟩, ?_⟩
    have ne {x : BitVec 11} : x.extractLsb' 5 6 ≠ 1#6 → fld w 0 11 ≠ x := fld_ne (by decide) hn
    have hflag : fld w 2 9 ≠ 0x004#9 := fld_ne (a := 3) (b := 6) (by decide) hn (by decide)
    rw [decodeSwr_eq, if_neg (ne (by decide)), if_neg (ne (by decide)), if_neg hflag]
    exact if_pos hn
  | qcat | qstr | qstw | qpin | qunpin | qevict | qsub | qrun | qwait | qexpl | qhint | qinv | qdrop | qtld | qtdrop =>
    have hf := isAt_of_encode h rfl
    simp only [isAt_rForm, HAppend.hAppend, isAt_append, isAt_ofBool, Nat.reduceAdd] at hf
    simp only [IsAt] at hf
    rw [decodeSeq, hf.1]
    change decodePlan w = _
    simp [decodePlan, hf]
  | _ => cases h

theorem decodeXfer_of_encode (hw : i.wf = true) (h : encode i = some (.xfer, w)) : decodeXfer w = .ok i := by
  cases i with
  | xtok | xtw | xrdv | xnfy =>
    have hf := isAt_of_encode h rfl
    simp only [HAppend.hAppend, isAt_append, isAt_tok, Nat.reduceAdd] at hf
    simp only [IsAt] at hf
    simp [decodeXfer, hf, hw]
  | selk x k =>
    have hf := isAt_of_encode h rfl
    obtain ⟨hop, hv, hs, hx⟩ := isAt_xForm.1 hf
    simp only [HAppend.hAppend, isAt_append, isAt_ofBool] at hv
    rw [decodeXfer, hop]
    simp only [xargsOf_ok_iff, guard_ok_iff, checked_ok_iff, beq_iff_eq, mask_00000060_iff]
    exact ⟨x, hs, hx, hv.1, hv.2 ▸ hw, congrArg _ hv.2⟩
  | xcpy | xgat | xsct | xfil | xmcs =>
    have hf := isAt_of_encode h rfl
    have hop := (isAt_xForm.1 hf).1
    rw [decodeXfer, hop]
    exact (xmode_ok_iff hop).2 ⟨_, _, hw, rfl, hf⟩
  | xpf | xwb | xput | xget | xcfg | cmb | xrcl =>
    have hf := isAt_of_encode h rfl
    have hop := (isAt_xForm.1 hf).1
    rw [decodeXfer, hop]
    exact (xplain_ok_iff hop).2 ⟨_, hw, rfl, hf⟩
  | acwAdd32 | acwAdd64 | acwAddf | acwMax32 | acwMax64 | acwMaxf | acwMin32 | acwMin64 | acwMinf | acwAnd32 | acwAnd64 | acwOr32
  | acwOr64 | acwXchg32 | acwXchg64 =>
    have hf := isAt_of_encode h rfl
    have hop := (isAt_xForm.1 hf).1
    rw [decodeXfer, hop]
    exact (xacw_ok_iff hop).2 ⟨_, _, _, hw, rfl, hf⟩
  | _ => cases h

theorem decodeMatrix_of_encode (hw : i.wf = true) (h : encode i = some (.matrix, w)) : decodeMatrix w = .ok i := by
  cases i with
  | mtok | mcfg | mgo | mwait | mrdv | mnfy | oaApp | oaLeft | oaRight | oaFold | oaSpill | oaFill | oaCnt =>
    have hf := isAt_of_encode h rfl
    simp only [HAppend.hAppend, isAt_append, isAt_ofBool, isAt_tok, Nat.reduceAdd] at hf
    simp only [IsAt] at hf
    simp [decodeMatrix, hf]
  | mma | mmaz =>
    have hf := isAt_of_encode h rfl
    simp only [mForm, HAppend.hAppend, isAt_append, isAt_profile, isAt_ofBool, isAt_tok, Nat.reduceAdd] at hf
    simp only [IsAt] at hf
    simp [decodeMatrix, mForm_low_iff, hf]
  | mld | mst | oaInit =>
    have hf := isAt_of_encode h rfl
    simp only [mForm, HAppend.hAppend, isAt_append, isAt_ofBool, isAt_tileKind, isAt_rmode, isAt_oaMode, isAt_tok, Nat.reduceAdd] at hf
    simp only [IsAt] at hf
    simp [decodeMatrix, mmodeOf, hf, fld_one_iff]
  | mzero c r t =>
    have hf := isAt_of_encode h rfl
    cases r <;>
    · simp only [mForm, HAppend.hAppend, isAt_append, isAt_ofBool, isAt_tok, Nat.reduceAdd] at hf
      simp [IsAt] at hf
      simp [decodeMatrix, hf, fld_one_iff]
  | mrq | oaHouse =>
    have hf := isAt_of_encode h rfl
    simp only [mForm, HAppend.hAppend, isAt_append, isAt_ofBool, isAt_rmode, isAt_tok, Nat.reduceAdd] at hf
    simp only [IsAt] at hf
    simp [decodeMatrix, mmodeOf, hf, hw]
  | _ => cases h

theorem decodeVector_of_encode (hw : i.wf = true) (h : encode i = some (.vector, w)) : decodeVector w = .ok i := by
  cases i with
  | vtok | vnfy | vrdv | vmnot | vshpDim | vshpCur | vshpFmt =>
    have hf := isAt_of_encode h rfl
    simp only [vForm, HAppend.hAppend, isAt_append, isAt_ofBool, isAt_tok, Nat.reduceAdd] at hf
    simp only [IsAt] at hf
    simp [decodeVector, hf, fld_one_iff]
  | vbind =>
    have hf := isAt_of_encode h rfl
    simp only [HAppend.hAppend, isAt_append, isAt_tok, Nat.reduceAdd] at hf
    simp only [IsAt] at hf
    simp [decodeVector, hf, hw]
  | vadd | vsub | vmul | vfma | vmin | vmax | vdiv | vand | vor | vxor | vshl | vshr | vsra | vqnt | vqntr | vdqnt =>
    have hf := isAt_of_encode h rfl
    have hop := (isAt_vForm.1 hf).1
    rw [decodeVector, hop]
    exact (v3_ok_iff hop).2 ⟨_, hw, rfl, hf⟩
  | vsel d a b t =>
    have hf := isAt_of_encode h rfl
    obtain ⟨hop, hd, ha, hb, hme, ht⟩ := isAt_vForm.1 hf
    rw [decodeVector, hop]
    exact unless_ok_iff.2 ⟨by simp [hme], (v3_ok_iff hop).2 ⟨⟨d, a, b, false, t⟩, hw, rfl, hf⟩⟩
  | vsamp | vabs | vneg | vmov | vsqrt | vcvtf | vcvti | vexp | vexp2 | vlog | vlog2 | vsin | vcos | vtanh | vrsqrt | vrcp | vsumr | vsumc
  | vmaxr | vmaxc | vminr | vminc | vrsenc | vrsdec =>
    have hf := isAt_of_encode h rfl
    have hop := (isAt_vForm.1 hf).1
    rw [decodeVector, hop]
    exact (v2_ok_iff hop).2 ⟨_, hw, rfl, hf⟩
  | vrotr | vrotc | vbcr | vbcc =>
    have hf := isAt_of_encode h rfl
    have hop := (isAt_vForm.1 hf).1
    rw [decodeVector, hop]
    exact (vk_ok_iff hop).2 ⟨_, hw, rfl, hf⟩
  | vceq | vcne | vclt | vcle | vcgt | vcge =>
    have hf := isAt_of_encode h rfl
    have hop := (isAt_vForm.1 hf).1
    rw [decodeVector, hop]
    exact (vc_ok_iff hop).2 ⟨_, hw, rfl, hf⟩
  | vmand | vmor | vmxor =>
    have hf := isAt_of_encode h rfl
    have hop := (isAt_vForm.1 hf).1
    rw [decodeVector, hop]
    exact (vm_ok_iff hop).2 ⟨_, rfl, hf⟩
  | _ => cases h


theorem decodeWord_of_encode {m : OpMap} (hw : i.wf = true) (h : encode i = some (m, w)) : decodeWord m w = .ok i := by
  cases m with
  | seq => exact decodeSeq_of_encode hw h
  | xfer => exact decodeXfer_of_encode hw h
  | matrix => exact decodeMatrix_of_encode hw h
  | vector => exact decodeVector_of_encode hw h

theorem isWordOf_of_decodeWord {m : OpMap} (h : decodeWord m w = .ok i) : IsWordOf m w i := by
  cases m with
  | seq => exact isWordOf_of_decodeSeq h
  | xfer => exact isWordOf_of_decodeXfer h
  | matrix => exact isWordOf_of_decodeMatrix h
  | vector => exact isWordOf_of_decodeVector h

end
end Sys2Proof

section

open Sys2Proof

/-- Settles O2: that a word holds an instruction's encoding and that the decoder answers the instruction are the same facts about the fields of
the word, taken one way for every constructor (`decodeWord_of_encode`) and the other way for every arm of the decoders
(`isWordOf_of_decodeWord`). -/
theorem decodeAndEncodeAgree : Obligations.DecodeAndEncodeAgree :=
  ⟨fun _ _ _ hw h => decodeWord_of_encode hw h, fun _ _ _ h => isWordOf_of_decodeWord h⟩

end
end
section

open Sys2Proof

/-- Settles O1: each of the eight words is the encoding of its well-formed instruction, and so decodes to it (`decodeWord_of_encode`); the decoder
refuses the other three. -/
theorem specExampleWordsDecode : Obligations.SpecExampleWordsDecode :=
  ⟨decodeWord_of_encode rfl rfl, decodeWord_of_encode rfl rfl, decodeWord_of_encode rfl rfl, decodeWord_of_encode rfl rfl,
    decodeWord_of_encode rfl rfl, decodeWord_of_encode rfl rfl, decodeWord_of_encode rfl rfl, decodeWord_of_encode rfl rfl, rfl, rfl, rfl⟩

end

section
/-! SUPPORT. What the words of the sequencer that change its control or the system registers do, each as the charge of its issue and one change
of the acting core or block stream. -/

namespace Sys2Proof.Safety

open Sys2Proof.Machine

/-- A word that charges its issue and changes the acting block stream answers, and does nothing else. -/
theorem blockStep_of {i : Instr} {s : State} {f : Block → Block} {b : Block} (h : exec i s = .next (s.seqCharge.modBlk f)) (hb : f s.blk = b) :
    ∃ t, exec i s = .next t ∧ BlockStep s t b := ⟨_, h, hb ▸ charge_modBlk s 0 0 0xF 1 f⟩

/-! ### Branches and jumps -/

theorem taken_iff (s : State) (p : BitVec 3) (n : Bool) : s.taken p n = true ↔ s.p p ≠ n := by
  unfold State.taken
  cases s.p p <;> cases n <;> decide

/-- A signed offset from a pc (R104). -/
theorem add_sext (x : Dword) (o : BitVec 22) : x + sext o = BitVec.ofInt 64 (x.toInt + o.toInt) := by
  unfold sext
  apply BitVec.eq_of_toInt_eq
  rw [BitVec.toInt_add, BitVec.toInt_ofInt, BitVec.toInt_signExtend_of_le (by omega)]

/-- The block stream b at pc t with the next word's address in g[r]. -/
def linked (b : Block) (r : BitVec 5) (t : Dword) : Block := { b.setReg r (b.pc + 1#64) with pc := t }

theorem linked_reg (b : Block) (r : BitVec 5) (t : Dword) (i : BitVec 5) :
    (linked b r t).reg i = if i = r ∧ r ≠ 0#5 then b.pc + 1#64 else b.reg i := setReg_reg b r i _

theorem linked_rest (b : Block) (r : BitVec 5) (t : Dword) : { linked b r t with g := b.g, pc := b.pc } = b := by
  unfold linked Block.setReg
  split <;> rfl

/-! ### The next block stream -/

/-- The block streams after q in turn, q itself last, are those at the distances 1, 2, 3 and 0 from it. -/
theorem find_afterQ (q : Fin 4) (p : Fin 4 → Bool) : (afterQ q).find? p =
    if p (q + 1) then some (q + 1) else if p (q + 2) then some (q + 2) else if p (q + 3) then some (q + 3) else if p q then some q
    else none := by
  simp only [afterQ, List.find?_cons, List.find?_nil]
  cases p (q + 1) <;> cases p (q + 2) <;> cases p (q + 3) <;> cases p q <;> rfl

/-- The switch goes to a ready stream before which none in turn is ready. -/
theorem switch_to {c : Core} {i : Fin 4} (hi : c.q[i.val].st = .ready) (hne : i ≠ c.curq)
    (hbefore : ∀ j : Fin 4, (j - c.curq).val ≠ 0 → (j - c.curq).val < (i - c.curq).val → c.q[j.val].st ≠ .ready) :
    c.switch = { c with curq := i, idle := false } := by
  obtain ⟨d, rfl⟩ : ∃ d, i = c.curq + d := ⟨i - c.curq, (add_sub_cancel ..).symm⟩
  have hready : (c.q[(c.curq + d).val].st == .ready) = true := by simpa using hi
  have hnot (e : Fin 4) (h0 : e.val ≠ 0) (he : e.val < d.val) : (c.q[(c.curq + e).val].st == .ready) = false := by
    simpa using hbefore (c.curq + e) (by rwa [add_sub_cancel_left]) (by rwa [add_sub_cancel_left, add_sub_cancel_left])
  have hfind : ((afterQ c.curq).find? fun i => c.q[i.val].st == .ready) = some (c.curq + d) := by
    rw [find_afterQ]
    match d, hne, hready, hnot with
    | 0, hne, _, _ => exact absurd (add_zero _) hne
    | 1, _, hready, _ => rw [if_pos hready]
    | 2, _, hready, hnot => rw [hnot 1 (by decide) (by decide), if_pos hready]; rfl
    | 3, _, hready, hnot => rw [hnot 1 (by decide) (by decide), hnot 2 (by decide) (by decide), if_pos hready]; rfl
  unfold Core.switch
  rw [hfind]

/-- With no other stream ready the switch stays, and the pipeline is idle unless the stream itself is ready. -/
theorem switch_alone {c : Core} (h : ∀ j : Fin 4, j ≠ c.curq → c.q[j.val].st ≠ .ready) :
    c.switch = { c with idle := decide (c.q[c.curq.val].st ≠ .ready) } := by
  have hnot (j : Fin 4) (hj : j ≠ c.curq) : (c.q[j.val].st == .ready) = false := by simpa using h j hj
  have h1 : ∀ q : Fin 4, q + 1 ≠ q ∧ q + 2 ≠ q ∧ q + 3 ≠ q := by decide
  obtain ⟨h1, h2, h3⟩ := h1 c.curq
  unfold Core.switch
  rw [find_afterQ, hnot _ h1, hnot _ h2, hnot _ h3]
  by_cases hc : c.q[c.curq.val].st = .ready <;> simp [hc]

/-- The end of a block after a step of its core (R94). -/
theorem CoreStep.endBlock {s t : State} {c : Core} (h : CoreStep s t s.cur.k.val c) : CoreStep s t.endBlock s.cur.k.val c.switch := by
  unfold State.endBlock
  rw [h.cur]
  exact h.modCore Core.switch fun _ _ => coreRest_switch

theorem engineWork_eq (c : Core) : c.engineWork = [c.xl.st, c.m.st, c.v.st, c.xs.st].any fun e => e != .absent && e != .ended := by
  simp [Core.engineWork, Bool.or_assoc]

/-- The acting block stream at its exit, ended or parked (R132, R148). -/
def exited (b : Block) (st : QState) : Block := { b with st := st, hnd := false, trprog := if b.hnd then 0#5 else b.trprog }.step

theorem coreRest_doneAt (i : Nat) {x y : Core} (h : coreRest x = coreRest y) : coreRest (doneAt x i) = coreRest (doneAt y i) :=
  congrArg (doneAt · i) h

/-- An exit at which no rendezvous waits (R132): its stream has ended or is parked, its bit of the done mask is set, and the block ends. -/
theorem exit_unawaited (s : State)
    (h : ∀ r < 4, (vget s.me.rdv r {}).mask = 0#8 ∨ (vget s.me.rdv r {}).mask.getLsbD s.cur.q.val = false) :
    ∃ t, exec .exit s = .next t ∧ CoreStep s t s.cur.k.val
      (Core.switch (doneAt (blkCore s (exited s.blk (if s.me.engineWork then .parked else .ended))) s.cur.q.val)) := by
  generalize hst : (if s.me.engineWork then QState.parked else .ended) = st
  have hblk : CoreStep s (s.seqCharge.modBlk (exited · st)) s.cur.k.val (blkCore s (exited s.blk st)) := charge_modBlk s 0 0 0xF 1 _
  have hrdv : ((s.seqCharge.modBlk (exited · st)).core s.cur.k.val).rdv = s.me.rdv := by
    have := congrArg Core.rdv hblk.core
    exact this
  refine ⟨_, rfl, ?_⟩
  have hend := (hblk.modCore (doneAt · s.cur.q.val) fun _ _ => coreRest_doneAt _).endBlock
  rw [← reachEnd_unawaited (s.blk.pc.setWidth 32) (hrdv ▸ h)] at hend
  subst hst
  exact hend

/-! ### System registers -/

/-- A word that changes its core, without a look at the energy account, and goes on. -/
theorem coreWord_step (s : State) (f : Core → Core) (hf : ∀ c, coreRest (f c) = f (coreRest c)) :
    CoreStep s ((s.seqCharge.modCore s.cur.k.val f).modBlk Block.step) s.cur.k.val
      { f s.me with q := (f s.me).q.set s.cur.q.val (after (f s.me).q[s.cur.q.val]) } :=
  ((charge_step s s.cur.k.val 0 0 0xF 1).modCore f fun x y h => by rw [hf, hf, h]).modBlk Block.step

/-- A word that changes the system registers of its core and goes on. -/
theorem sysWord_step (s : State) {f : Sys → Sys} {y : Sys} (hy : f s.me.sys = y) :
    CoreStep s ((s.seqCharge.modCore s.cur.k.val fun c => { c with sys := f c.sys }).modBlk Block.step) s.cur.k.val
      { s.me with sys := y, q := s.me.q.set s.cur.q.val (after s.blk) } :=
  hy ▸ coreWord_step s (fun c => { c with sys := f c.sys }) fun _ => rfl

/-- A write-one-to-clear of a flag register: bits set in the same clk stay set (R89). -/
theorem clearFlags_eq (y : Sys) (i : Fin 4) (m : Byte) :
    y.clearFlags i.val m = { y with flg := y.flg.set i.val (y.flg[i.val] &&& (~~~m ||| y.flgNew[i.val])) } := by
  unfold Sys.clearFlags
  rw [Machine.vset_lt y.flg _ i.isLt, vget_lt y.flg _ _ i.isLt, vget_lt y.flgNew _ _ i.isLt]

/-- After a seed write no word in progress puts an older generator back (R86). -/
theorem keepSeed_gen (c : Core) : ∀ o ∈ c.keepSeed.m.outst ++ c.keepSeed.v.outst ++ c.keepSeed.mx.outst, o.undo.gen = none := by
  simp only [Core.keepSeed, List.mem_append, List.mem_map]
  rintro o ((⟨x, -, rfl⟩ | ⟨x, -, rfl⟩) | ⟨x, -, rfl⟩) <;> rfl

/-- The generators that a seed sets (R85). -/
theorem seedGens_eq (z : Dword) :
    let gen (x : Dword) : Dword := if z = x then 1#64 else z ^^^ x
    seedGens z = #v[gen 0x9E3779B97F4A7C15#64, gen 0xBF58476D1CE4E5B9#64, gen 0x94D049BB133111EB#64, gen 0xD6E8FEB86659FD93#64] := by
  simp only [seedGens, BitVec.xor_eq_zero_iff]

theorem extract_low_eq_setWidth {m : Nat} (x : BitVec m) (n : Nat) : x.extractLsb' 0 n = x.setWidth n := by
  apply BitVec.eq_of_toNat_eq
  simp [BitVec.extractLsb'_toNat, BitVec.toNat_setWidth]

theorem toNat_append_eq {m n : Nat} (a : BitVec m) (b : BitVec n) : (a ++ b).toNat = a.toNat * 2 ^ n + b.toNat := by
  rw [BitVec.toNat_append, ← Nat.shiftLeft_add_eq_or_of_lt b.isLt, Nat.shiftLeft_eq]

theorem zext_toNat {n : Nat} (v : BitVec n) (h : n ≤ 64) : (zext v).toNat = v.toNat :=
  BitVec.toNat_setWidth_of_le h

theorem coord_toNat (s : State) (k : CoreIx) :
    (s.coord k.val).toNat = s.module.toNat * 65536 + (s.core k.val).sys.stage.toNat * 4096 + k.val / 192 * 256 + k.val % 192 := by
  have hd := coreDie_lt k
  unfold State.coord
  rw [toNat_append_eq, toNat_append_eq, toNat_append_eq, toNat_append_eq, BitVec.toNat_ofNat, BitVec.toNat_ofNat, BitVec.toNat_ofNat]
  unfold coreDie at hd ⊢
  omega

theorem jobst_toNat (s : State) (q : Fin 4) : (s.jobst q).toNat = ((s.me.job.map fun j => j.done.toNat).getD 0) * 2 ^ 24
    + s.me.sys.expect.toNat * 2 ^ 16 + s.me.sys.vhi.toNat * 2 ^ 11 + s.me.sys.vlo.toNat * 2 ^ 6 + q.val := by
  have hdone : s.me.done.toNat = (s.me.job.map fun j => j.done.toNat).getD 0 := by
    unfold Core.done
    cases s.me.job <;> rfl
  unfold State.jobst
  simp only [zext_toNat _ (show 8 + 8 + 5 + 5 + 4 + 2 ≤ 64 by decide), toNat_append_eq, BitVec.toNat_ofNat, hdone]
  omega

theorem trCauseWord_toNat (b : Block) : b.trCauseWord.toNat = b.hnd.toNat * 2 ^ 16 + b.trsub.toNat * 2 ^ 8 + b.trcause.toNat := by
  unfold Block.trCauseWord
  rw [zext_toNat _ (by decide), toNat_append_eq, toNat_append_eq, BitVec.toNat_ofBool]
  omega

theorem sysRead_flags (s : State) (i : Fin 4) : s.sysRead (0x010#11 + BitVec.ofNat 11 i.val) = some (zext s.me.sys.flg[i.val]) := by
  match i with
  | 0 | 1 | 2 | 3 => rfl

theorem sysRead_bfmt (s : State) (i : Fin 32) : s.sysRead (0x020#11 + BitVec.ofNat 11 i.val) = some (zext s.me.sys.bfmt[i.val]) := by
  have hn : (0x020#11 + BitVec.ofNat 11 i.val).toNat = 0x020 + i.val := by simp; omega
  unfold State.sysRead
  simp only [hn]
  iterate 12 rw [if_neg (by omega)]
  rw [if_pos (by omega), Nat.add_sub_cancel_left, vget_lt _ _ _ i.isLt]

/-- What a system register reads as is put in rd. -/
theorem srd_gives {s : State} {r : BitVec 11} {v : Dword} (d : BitVec 5) (h : s.sysRead r = some v) : GivesReg (.srd d r) s d v := by
  refine gives_putG (c := 0) (w := v) ?_ rfl
  change execSrd d r s = _
  unfold execSrd
  rw [h]

end Sys2Proof.Safety

section

open Sys2Proof Sys2Proof.Machine Sys2Proof.Safety

/-- Settles O14: every word of control flow charges its issue and changes its block stream once (`blockStep_of`). -/
theorem branchesAndJumps : Obligations.BranchesAndJumps := by
  unfold Obligations.BranchesAndJumps
  intro s p n o d a link goes target
  have htarget : s.blk.pc + sext o = target := add_sext ..
  refine ⟨?_, ?_, blockStep_of rfl rfl, ?_, blockStep_of rfl rfl⟩
  · refine blockStep_of rfl ?_
    by_cases h : s.p p = n <;> simp [taken_iff, h, htarget]
  · split
    case isTrue h =>
      refine blockStep_of rfl ?_
      simp [taken_iff, h]
      rfl
    case isFalse h =>
      refine ⟨linked s.blk 31#5 target, blockStep_of rfl ?_, ⟨linked_reg _ _ _, linked_rest ..⟩, rfl⟩
      simp [taken_iff, h, htarget, linked]
  · exact ⟨linked s.blk d (s.g a), blockStep_of rfl rfl, ⟨linked_reg _ _ _, linked_rest ..⟩, rfl⟩

/-- Settles O16: a yield or an exit changes its core once, `Core.switch` of the changed block streams (`CoreStep.endBlock`,
`exit_unawaited`), and the switch picks the first ready stream in turn (`switch_to`, `switch_alone`). -/
theorem yieldAndExitEndTheBlock : Obligations.YieldAndExitEndTheBlock := by
  unfold Obligations.YieldAndExitEndTheBlock
  refine ⟨fun s => ⟨_, rfl, (charge_modBlk s 0 0 0xF 1 Block.step).endBlock⟩, ?_, fun c i hi hb hne => switch_to hi hne hb,
    fun c h => switch_alone h⟩
  intro s bit busy h
  obtain ⟨t, ht, hstep⟩ := exit_unawaited s h
  rw [engineWork_eq] at hstep
  exact ⟨t, ht, hstep⟩

/-- Settles O22: each write is one change of its block stream (`blockStep_of`) or of its core's registers (`coreWord_step`, `sysWord_step`),
and the field written is the low bits of ra. -/
theorem systemRegisterWrites : Obligations.SystemRegisterWrites := by
  unfold Obligations.SystemRegisterWrites
  intro s a f n v y b blk sys gen
  refine ⟨blockStep_of rfl ?_, blockStep_of rfl ?_, blockStep_of rfl ?_, ?_, fun c => ⟨keepSeed_gen c, rfl, rfl⟩, ?_, ?_, ?_⟩
  · rw [← extract_low_eq_setWidth]
    rfl
  · rw [← extract_low_eq_setWidth]
    rfl
  · rw [← extract_low_eq_setWidth]
    rfl
  · refine ⟨_, rfl, ?_⟩
    rw [← seedGens_eq v]
    exact coreWord_step s (fun c => { c with sys := c.sys.setSeed v }.keepSeed) fun _ => rfl
  · exact ⟨_, rfl, sysWord_step s (f := (·.clearTags v)) rfl⟩
  · have hi : (BitVec.ofNat 2 f.val).toNat = f.val := Nat.mod_eq_of_lt f.isLt
    refine ⟨_, rfl, sysWord_step s (f := (·.clearFlags (BitVec.ofNat 2 f.val).toNat (v.extractLsb' 0 8))) ?_⟩
    rw [hi, clearFlags_eq, extract_low_eq_setWidth]
  · have hi : (BitVec.ofNat 5 n.val).toNat = n.val := Nat.mod_eq_of_lt n.isLt
    refine ⟨_, rfl, sysWord_step s (f := fun y => { y with bfmt := vset y.bfmt (BitVec.ofNat 5 n.val).toNat (v.extractLsb' 0 15) }) ?_⟩
    rw [hi, Machine.vset_lt _ _ n.isLt, extract_low_eq_setWidth]

/-- Settles O21: a read puts one word in rd (`srd_gives`), and the word's value is the sum of its fields at their places
(`coord_toNat`, `jobst_toNat`, `trCauseWord_toNat`). -/
theorem systemRegisterReads : Obligations.SystemRegisterReads := by
  unfold Obligations.SystemRegisterReads
  intro s d y b rd
  have reads {r : BitVec 11} {v : Dword} {n : Nat} (h : s.sysRead r = some v) (hv : v.toNat = n) : rd r n := by
    have e : v = BitVec.ofNat 64 n := by rw [← hv, BitVec.ofNat_toNat, BitVec.setWidth_eq]
    exact (e ▸ srd_gives d h : GivesReg (.srd d r) s d (BitVec.ofNat 64 n))
  have readsZext {r : BitVec 11} {m : Nat} {v : BitVec m} (h : s.sysRead r = some (zext v)) (hm : m ≤ 64) : rd r v.toNat :=
    reads h (zext_toNat v hm)
  exact ⟨reads rfl ((zext_toNat _ (by decide)).trans (coord_toNat s s.cur.k)), reads rfl rfl, readsZext rfl (by decide), reads rfl rfl,
    reads rfl (jobst_toNat s s.cur.q), reads rfl rfl, reads rfl rfl, srd_gives d rfl, srd_gives d rfl, reads rfl rfl,
    reads rfl (toNat_append_eq ..), fun i => readsZext (sysRead_flags s i) (by decide), fun i => readsZext (sysRead_bfmt s i) (by decide),
    readsZext rfl (by decide), reads rfl (trCauseWord_toNat b), readsZext rfl (by decide), reads rfl rfl, readsZext rfl (by decide)⟩

end
end

section
/-! SUPPORT. Majors 0x00 to 0x0B of the sequencer (R104, R112 to R121): what a word decodes to by the values of its fields, assigned or not. -/

namespace Sys2Proof

/-- A word is the concatenation that it equals. -/
theorem isAt_of_eq {v w : Word} (h : v = w) : IsAt v w 0 := h ▸ ext_all v

section

variable {w : Word}

theorem decodeWord_major00 (hop : fld w 26 6 = 0x00#6) : decodeWord .seq w = decodeAlu w := by
  simp only [decodeWord, decodeSeq, hop]

theorem decodeWord_major05 (hop : fld w 26 6 = 0x05#6) : decodeWord .seq w = decodeShiftImm w := by
  simp only [decodeWord, decodeSeq, hop]

theorem decodeWord_major08 (hop : fld w 26 6 = 0x08#6) : decodeWord .seq w = decodeCount w := by
  simp only [decodeWord, decodeSeq, hop]

theorem decodeWord_major09 (hop : fld w 26 6 = 0x09#6) : decodeWord .seq w = decodeBitField w := by
  simp only [decodeWord, decodeSeq, hop]

end

/-- A must-be-zero check by the fields that it covers. -/
theorem zeros_eq {w m : Word} {c : Prop} [Decidable c] (h : w &&& m = 0#32 ↔ c) (i : Instr) :
    zeros w m i = if c then .ok i else .error .field := by
  simp only [zeros, beq_iff_eq, h]

/-- The well-formedness of a bit-field word is a bound of its width (R118). -/
theorem checked_width {i : Instr} {n : BitVec 7} (h : i.wf = decide (n ≤ 64#7)) :
    checked i = if 64 < n.toNat then .error .field else .ok i := by
  have hle : n ≤ 64#7 ↔ ¬ 64 < n.toNat := by simp [BitVec.le_def]
  rw [checked, h]
  simp only [decide_eq_true_eq, hle, ite_not]

theorem decodeWord_alu (d a b : BitVec 5) (m : BitVec 11) : decodeWord .seq (rForm 0x00#6 d a b m) =
    if m = 0x000#11 then .ok (.add d a b) else if m = 0x001#11 then .ok (.sub d a b)
    else if m = 0x002#11 then .ok (.mul d a b) else if m = 0x003#11 then .ok (.mulh d a b)
    else if m = 0x004#11 then .ok (.mulhu d a b) else if m = 0x008#11 then .ok (.and d a b)
    else if m = 0x009#11 then .ok (.or d a b) else if m = 0x00A#11 then .ok (.xor d a b)
    else if m = 0x00B#11 then .ok (.andn d a b) else if m = 0x010#11 then .ok (.sll d a b)
    else if m = 0x011#11 then .ok (.srl d a b) else if m = 0x012#11 then .ok (.sra d a b)
    else if m = 0x013#11 then .ok (.ror d a b) else if m = 0x018#11 then .ok (.min d a b)
    else if m = 0x019#11 then .ok (.max d a b) else if m = 0x01A#11 then .ok (.minu d a b)
    else if m = 0x01B#11 then .ok (.maxu d a b) else if m = 0x021#11 then .ok (.lea1 d a b)
    else if m = 0x022#11 then .ok (.lea2 d a b) else if m = 0x023#11 then .ok (.lea3 d a b)
    else .error .opcode := by
  obtain ⟨hop, hd, ha, hb, hm⟩ := isAt_rForm.1 (isAt_of_eq (Eq.refl (rForm 0x00#6 d a b m)))
  rw [decodeWord_major00 hop, decodeAlu, hd, ha, hb, hm]
  split
  case h_21 => iterate 20 rw [if_neg ‹_›]
  all_goals rfl

theorem decodeWord_immediates (d a : BitVec 5) (i : BitVec 16) :
    decodeWord .seq (iForm 0x01#6 d a i) = .ok (.addi d a i) ∧ decodeWord .seq (iForm 0x02#6 d a i) = .ok (.andi d a i) ∧
    decodeWord .seq (iForm 0x03#6 d a i) = .ok (.ori d a i) ∧ decodeWord .seq (iForm 0x04#6 d a i) = .ok (.xori d a i) :=
  ⟨decodeWord_of_encode rfl rfl, decodeWord_of_encode rfl rfl, decodeWord_of_encode rfl rfl, decodeWord_of_encode rfl rfl⟩

theorem decodeWord_shiftImm (d a : BitVec 5) (op : BitVec 8) (z : BitVec 2) (h : BitVec 6) :
    decodeWord .seq (0x05#6 ++ d ++ a ++ op ++ z ++ h) =
      if z ≠ 0#2 then .error .opcode else if op = 0#8 then .ok (.slli d a h) else if op = 1#8 then .ok (.srli d a h)
      else if op = 2#8 then .ok (.srai d a h) else if op = 3#8 then .ok (.rori d a h) else .error .opcode := by
  generalize hw : (0x05#6 ++ d ++ a ++ op ++ z ++ h : Word) = w
  have hf := isAt_of_eq hw
  simp only [HAppend.hAppend, isAt_append, Nat.reduceAdd] at hf
  obtain ⟨⟨⟨⟨⟨hop, rfl⟩, rfl⟩, rfl⟩, rfl⟩, rfl⟩ := hf
  rw [decodeWord_major05 hop, decodeShiftImm]
  split
  case h_5 =>
    by_cases hz : fld w 6 2 = 0#2
    · simp_all [fld_eq_iff_split w 6 8 2]
    · rw [if_pos hz]
  all_goals simp_all [fld_eq_iff_split w 6 8 2]

theorem decodeWord_movi (d a : BitVec 5) (i : BitVec 16) :
    decodeWord .seq (iForm 0x06#6 d a i) = if a = 0#5 then .ok (.movi d i) else .error .field := by
  obtain ⟨hop, hd, ha, hi⟩ := isAt_iForm.1 (isAt_of_eq (Eq.refl (iForm 0x06#6 d a i)))
  simp only [IsAt] at hd ha hi
  simp only [decodeWord, decodeSeq, hop, zeros_eq (mask_001F0000_iff _), hd, ha, hi]

theorem decodeWord_movk (d : BitVec 5) (z : BitVec 3) (h : BitVec 2) (i : BitVec 16) :
    decodeWord .seq (0x07#6 ++ d ++ z ++ h ++ i) = if z = 0#3 then .ok (.movk d h i) else .error .field := by
  generalize hw : (0x07#6 ++ d ++ z ++ h ++ i : Word) = w
  have hf := isAt_of_eq hw
  simp only [HAppend.hAppend, isAt_append, Nat.reduceAdd] at hf
  obtain ⟨⟨⟨⟨hop, rfl⟩, rfl⟩, rfl⟩, rfl⟩ := hf
  simp only [IsAt] at hop
  simp only [decodeWord, decodeSeq, hop, zeros_eq (mask_001C0000_iff _)]

theorem decodeWord_count (d a b : BitVec 5) (m : BitVec 11) : decodeWord .seq (rForm 0x08#6 d a b m) =
    if b ≠ 0#5 then .error .opcode else if m = 0#11 then .ok (.popc d a) else if m = 1#11 then .ok (.clz d a)
    else if m = 2#11 then .ok (.ctz d a) else if m = 3#11 then .ok (.brev d a) else if m = 4#11 then .ok (.bswap d a)
    else .error .opcode := by
  generalize hw : rForm 0x08#6 d a b m = w
  obtain ⟨hop, rfl, rfl, rfl, rfl⟩ := isAt_rForm.1 (isAt_of_eq hw)
  rw [decodeWord_major08 hop, decodeCount]
  split
  all_goals simp_all [fld_eq_iff_split w 0 5 11]

theorem decodeWord_bitField (d a : BitVec 5) (op : BitVec 2) (z : BitVec 1) (n : BitVec 7) (l : BitVec 6) :
    decodeWord .seq (0x09#6 ++ d ++ a ++ op ++ z ++ n ++ l) =
    if op = 3#2 ∨ z = 1#1 then .error .opcode else if 64 < n.toNat then .error .field
    else if op = 0#2 then .ok (.bfx d a n l) else if op = 1#2 then .ok (.bfxs d a n l) else .ok (.bfi d a n l) := by
  generalize hw : (0x09#6 ++ d ++ a ++ op ++ z ++ n ++ l : Word) = w
  have hf := isAt_of_eq hw
  simp only [HAppend.hAppend, isAt_append, Nat.reduceAdd] at hf
  obtain ⟨⟨⟨⟨⟨⟨hop, rfl⟩, rfl⟩, rfl⟩, rfl⟩, rfl⟩, rfl⟩ := hf
  rw [decodeWord_major09 hop, decodeBitField]
  have hrest : ∀ (o : BitVec 2) (z : BitVec 1), ¬ (o = 0#2 ∧ z = 0#1) → ¬ (o = 1#2 ∧ z = 0#1) → ¬ (o = 2#2 ∧ z = 0#1) →
      o = 3#2 ∨ z = 1#1 := by decide
  split
  case h_4 h0 h1 h2 =>
    rw [fld_eq_iff_split w 13 2 1] at h0 h1 h2
    rw [if_pos (hrest _ _ h0 h1 h2)]
  all_goals
    rw [checked_width rfl]
    simp_all [fld_eq_iff_split w 13 2 1]

theorem decodeWord_cmp (z : BitVec 2) (p : BitVec 3) (a b : BitVec 5) (r : BitVec 7) (c : BitVec 4) :
    decodeWord .seq (0x0A#6 ++ z ++ p ++ a ++ b ++ r ++ c) =
      condOf c >>= fun k => if z = 0#2 ∧ r = 0#7 then .ok (.cmp p a b k) else .error .field := by
  generalize hw : (0x0A#6 ++ z ++ p ++ a ++ b ++ r ++ c : Word) = w
  have hf := isAt_of_eq hw
  simp only [HAppend.hAppend, isAt_append, Nat.reduceAdd] at hf
  obtain ⟨⟨⟨⟨⟨⟨hop, rfl⟩, rfl⟩, rfl⟩, rfl⟩, rfl⟩, rfl⟩ := hf
  simp only [IsAt] at hop
  simp only [decodeWord, decodeSeq, hop, zeros_eq (mask_030007F0_iff _)]

theorem decodeWord_cmpi (z : BitVec 2) (p : BitVec 3) (a : BitVec 5) (c : BitVec 4) (i : BitVec 12) :
    decodeWord .seq (0x0B#6 ++ z ++ p ++ a ++ c ++ i) =
      condOf c >>= fun k => if z = 0#2 then .ok (.cmpi p a k i) else .error .field := by
  generalize hw : (0x0B#6 ++ z ++ p ++ a ++ c ++ i : Word) = w
  have hf := isAt_of_eq hw
  simp only [HAppend.hAppend, isAt_append, Nat.reduceAdd] at hf
  obtain ⟨⟨⟨⟨⟨hop, rfl⟩, rfl⟩, rfl⟩, rfl⟩, rfl⟩ := hf
  simp only [IsAt] at hop
  simp only [decodeWord, decodeSeq, hop, zeros_eq (mask_03000000_iff _)]

end Sys2Proof
end

section
/-! SUPPORT. The values of the sequencer's arithmetic as numbers, and of its bit words bit by bit (R112 to R122). -/

namespace Sys2Proof.Machine

/-! ### Arithmetic, logic and shifts as numbers -/

theorem sub_eq_ofInt (x y : Dword) : x - y = BitVec.ofInt 64 (x.toInt - y.toInt) := by
  apply BitVec.eq_of_toInt_eq
  rw [BitVec.toInt_sub, BitVec.toInt_ofInt]

theorem shiftLeft_eq_ofNat (x : Dword) (n : Nat) : x <<< n = BitVec.ofNat 64 (x.toNat * 2 ^ n) := by
  apply BitVec.eq_of_toNat_eq
  rw [BitVec.toNat_shiftLeft, BitVec.toNat_ofNat, Nat.shiftLeft_eq]

theorem ushiftRight_eq_ofNat (x : Dword) (n : Nat) : x >>> n = BitVec.ofNat 64 (x.toNat / 2 ^ n) := by
  rw [← Nat.shiftRight_eq_div_pow, ← BitVec.toNat_ushiftRight, BitVec.ofNat_toNat, BitVec.setWidth_eq]

theorem sshiftRight_eq_ofInt (x : Dword) (n : Nat) : x.sshiftRight n = BitVec.ofInt 64 (x.toInt / 2 ^ n) := by
  rw [BitVec.sshiftRight, Int.shiftRight_eq_div_pow]
  norm_cast

/-- A rotation moves the low n bits above the others. -/
theorem rotateRight_eq_ofNat (x : Dword) {n : Nat} (h : n < 64) :
    x.rotateRight n = BitVec.ofNat 64 (x.toNat / 2 ^ n + x.toNat % 2 ^ n * 2 ^ (64 - n)) := by
  have hpow : 2 ^ 64 = 2 ^ n * 2 ^ (64 - n) := by rw [← Nat.pow_add, Nat.add_sub_cancel' h.le]
  have hlow : x.toNat / 2 ^ n < 2 ^ (64 - n) := by
    rw [Nat.div_lt_iff_lt_mul (by positivity), Nat.mul_comm, ← hpow]
    exact x.isLt
  have hhigh : x.toNat <<< (64 - n) % 2 ^ 64 = (x.toNat % 2 ^ n) <<< (64 - n) := by
    rw [hpow, Nat.shiftLeft_eq, Nat.shiftLeft_eq, Nat.mul_mod_mul_right]
  have hsum : x.toNat / 2 ^ n + x.toNat % 2 ^ n * 2 ^ (64 - n) < 2 ^ 64 := by
    calc x.toNat / 2 ^ n + x.toNat % 2 ^ n * 2 ^ (64 - n) < (x.toNat % 2 ^ n + 1) * 2 ^ (64 - n) := by rw [Nat.succ_mul]; omega
      _ ≤ 2 ^ 64 := hpow ▸ Nat.mul_le_mul_right _ (Nat.mod_lt _ (by positivity))
  apply BitVec.eq_of_toNat_eq
  rw [BitVec.toNat_rotateRight, Nat.mod_eq_of_lt h, hhigh, Nat.shiftRight_eq_div_pow, Nat.or_comm, ← Nat.shiftLeft_add_eq_or_of_lt hlow,
    BitVec.toNat_ofNat, Nat.mod_eq_of_lt hsum, Nat.shiftLeft_eq, Nat.add_comm]

theorem min_eq_ofInt (x y : Dword) : (if x.slt y then x else y) = BitVec.ofInt 64 (min x.toInt y.toInt) := by
  simp only [min_def_lt, apply_ite (BitVec.ofInt 64), BitVec.ofInt_toInt, BitVec.slt_eq_decide, decide_eq_true_eq]

theorem max_eq_ofInt (x y : Dword) : (if x.slt y then y else x) = BitVec.ofInt 64 (max x.toInt y.toInt) := by
  simp only [max_def_lt, apply_ite (BitVec.ofInt 64), BitVec.ofInt_toInt, BitVec.slt_eq_decide, decide_eq_true_eq]

theorem minu_eq_ofNat (x y : Dword) : (if x.ult y then x else y) = BitVec.ofNat 64 (min x.toNat y.toNat) := by
  simp only [min_def_lt, apply_ite (BitVec.ofNat 64), BitVec.ofNat_toNat, BitVec.setWidth_eq, BitVec.ult_eq_decide, decide_eq_true_eq]

theorem maxu_eq_ofNat (x y : Dword) : (if x.ult y then y else x) = BitVec.ofNat 64 (max x.toNat y.toNat) := by
  simp only [max_def_lt, apply_ite (BitVec.ofNat 64), BitVec.ofNat_toNat, BitVec.setWidth_eq, BitVec.ult_eq_decide, decide_eq_true_eq]

theorem lea_eq_ofNat (x y : Dword) (n : Nat) : x + y <<< n = BitVec.ofNat 64 (x.toNat + y.toNat * 2 ^ n) := by
  rw [shiftLeft_eq_ofNat, BitVec.ofNat_add, BitVec.ofNat_toNat, BitVec.setWidth_eq]

theorem zext_eq_ofNat {n : Nat} (v : BitVec n) : zext v = BitVec.ofNat 64 v.toNat := (BitVec.ofNat_toNat ..).symm

/-- A signed immediate added to a register. -/
theorem add_sext_eq_ofInt (x : Dword) {n : Nat} (v : BitVec n) (h : n ≤ 64) : x + sext v = BitVec.ofInt 64 (x.toInt + v.toInt) := by
  apply BitVec.eq_of_toInt_eq
  rw [sext, BitVec.toInt_add, BitVec.toInt_ofInt, BitVec.toInt_signExtend_of_le h]

/-! ### Bit counts, reversals and fields, bit by bit -/

theorem onesBelow_eq (x : Dword) (n : Nat) : onesBelow x n = (List.range n).countP fun j => x.getLsbD j := by
  induction n with
  | zero => rfl
  | succ n ih => simp [onesBelow, ih, List.range_succ]

theorem leadZeros_le (x : Dword) (n : Nat) : leadZeros x n ≤ n := by
  induction n with
  | zero => exact Nat.le_refl 0
  | succ n ih => unfold leadZeros; split <;> omega

theorem leadZeros_zeros (x : Dword) {n j : Nat} (hlo : n - leadZeros x n ≤ j) (hhi : j < n) : x.getLsbD j = false := by
  induction n with
  | zero => omega
  | succ n ih =>
    unfold leadZeros at hlo
    split at hlo
    · omega
    · obtain rfl | hj : j = n ∨ j < n := by omega
      · exact eq_false_of_ne_true ‹¬ _›
      · exact ih (by omega) hj

theorem leadZeros_one (x : Dword) {n : Nat} (h : leadZeros x n < n) : x.getLsbD (n - 1 - leadZeros x n) = true := by
  induction n with
  | zero => omega
  | succ n ih =>
    unfold leadZeros at h ⊢
    split at h
    · simp [*]
    · rw [if_neg ‹_›, Nat.add_sub_cancel, ← Nat.sub_sub, Nat.sub_right_comm]
      exact ih (by omega)

theorem trailZeros_le (x : Dword) (n : Nat) : trailZeros x n ≤ n := by
  induction n with
  | zero => exact Nat.le_refl 0
  | succ n ih => unfold trailZeros; split <;> omega

theorem trailZeros_zeros (x : Dword) {n j : Nat} (hn : n ≤ 64) (hlo : 64 - n ≤ j) (hhi : j < 64 - n + trailZeros x n) : x.getLsbD j = false := by
  induction n with
  | zero => unfold trailZeros at hhi; omega
  | succ n ih =>
    unfold trailZeros at hhi
    split at hhi
    · omega
    · obtain rfl | hj : j = 63 - n ∨ 64 - n ≤ j := by omega
      · exact eq_false_of_ne_true ‹¬ _›
      · exact ih (by omega) hj (by omega)

theorem trailZeros_one (x : Dword) {n : Nat} (hn : n ≤ 64) (h : trailZeros x n < n) : x.getLsbD (64 - n + trailZeros x n) = true := by
  induction n with
  | zero => omega
  | succ n ih =>
    unfold trailZeros at h ⊢
    split at h
    · simp [*]
    · rw [if_neg ‹_›, show 64 - (n + 1) + (trailZeros x n + 1) = 64 - n + trailZeros x n by omega]
      exact ih (by omega) (by omega)

theorem lowestBit_eq_add (x : Dword) {n : Nat} (hn : n ≤ 64) : lowestBit x n = 64 - n + trailZeros x n := by
  induction n with
  | zero => rfl
  | succ n ih =>
    unfold lowestBit trailZeros
    rw [ih (by omega)]
    split <;> omega

/-- The lowest bit set is behind the zeros counted from bit 0 on. -/
theorem lowestBit_eq (x : Dword) : lowestBit x 64 = trailZeros x 64 := by rw [lowestBit_eq_add x (Nat.le_refl 64), Nat.zero_add]

theorem below_trailZeros (x : Dword) {j : Nat} (h : j < trailZeros x 64) : x.getLsbD j = false :=
  trailZeros_zeros x (Nat.le_refl 64) (Nat.zero_le j) (by omega)

theorem at_trailZeros (x : Dword) (h : trailZeros x 64 < 64) : x.getLsbD (trailZeros x 64) = true := by
  have hone := trailZeros_one x (Nat.le_refl 64) h
  rwa [Nat.sub_self, Nat.zero_add] at hone

theorem trailZeros_lt {x : Dword} (h : x ≠ 0#64) : trailZeros x 64 < 64 := by
  by_contra hlt
  refine h (BitVec.eq_of_getLsbD_eq fun j hj => ?_)
  rw [below_trailZeros x (by omega), BitVec.getLsbD_zero]

theorem bitRev_bit (x : Dword) {j : Nat} (h : j < 64) : (bitRev x).getLsbD j = x.getLsbD (63 - j) := by
  rw [bitRev, BitVec.getLsbD_reverse, BitVec.getMsbD_eq_getLsbD, decide_eq_true h, Bool.true_and]

theorem byteRev_bit (x : Dword) {j : Nat} (h : j < 64) : (byteRev x).getLsbD j = x.getLsbD (8 * (7 - j / 8) + j % 8) := by
  simp only [byteRev, BitVec.getLsbD_append, BitVec.getLsbD_extractLsb']
  split_ifs
  all_goals
    rw [decide_eq_true (by omega), Bool.true_and]
    congr 1
    omega

theorem bitField_testBit (x : Dword) (w l j : Nat) : (bitField x w l).testBit j = (decide (j < w) && x.getLsbD (l + j)) := by
  rw [bitField, Nat.testBit_mod_two_pow, Nat.testBit_div_two_pow, Nat.add_comm]
  rfl

theorem bitField_bit (x : Dword) (w l : Nat) {j : Nat} (h : j < 64) :
    (BitVec.ofNat 64 (bitField x w l)).getLsbD j = (decide (j < w) && x.getLsbD (l + j)) := by
  rw [BitVec.getLsbD_ofNat, decide_eq_true h, Bool.true_and, bitField_testBit]

/-- A field is sign-extended from its width. -/
theorem bitFieldS_eq (x : Dword) (w l : Nat) (hw : w ≠ 0) : bitFieldS x w l = (BitVec.ofNat w (bitField x w l)).signExtend 64 := by
  have hlt : bitField x w l < 2 ^ w := Nat.mod_lt _ (by positivity)
  have hhalf : bitField x w l < 2 ^ (w - 1) ↔ 2 * bitField x w l < 2 ^ w := by
    obtain ⟨w, rfl⟩ := Nat.exists_eq_succ_of_ne_zero hw
    rw [Nat.succ_sub_one, Nat.pow_succ]
    omega
  unfold bitFieldS BitVec.signExtend
  rw [BitVec.toInt_eq_toNat_cond, BitVec.toNat_ofNat, Nat.mod_eq_of_lt hlt]
  simp only [hw, hhalf, if_false]
  split
  · rfl
  · push_cast; rfl

theorem bitFieldS_bit (x : Dword) {w : Nat} (l : Nat) {j : Nat} (h : j < 64) :
    (bitFieldS x w l).getLsbD j = (decide (w ≠ 0) && x.getLsbD (l + min j (w - 1))) := by
  by_cases hw : w = 0
  · simp [bitFieldS, hw]
  · rw [bitFieldS_eq x w l hw, BitVec.getLsbD_signExtend, BitVec.msb_eq_getLsbD_last, BitVec.getLsbD_ofNat, BitVec.getLsbD_ofNat,
      bitField_testBit, bitField_testBit, decide_eq_true h]
    by_cases hj : j < w
    · simp [hj, hw, Nat.min_eq_left (show j ≤ w - 1 by omega)]
    · simp [hj, hw, Nat.min_eq_right (show w - 1 ≤ j by omega), show w - 1 < w by omega]

theorem bitInsert_bit (y x : Dword) (w l : Nat) {j : Nat} (h : j < 64) :
    (bitInsert y x w l).getLsbD j = if l ≤ j ∧ j < l + w then x.getLsbD (j - l) else y.getLsbD j := by
  unfold bitInsert
  simp only [BitVec.getLsbD_or, BitVec.getLsbD_and, BitVec.getLsbD_not, BitVec.getLsbD_shiftLeft, BitVec.getLsbD_ofNat,
    Nat.testBit_two_pow_sub_one, Nat.testBit_mod_two_pow]
  by_cases hl : j < l
  · simp [h, hl, show ¬ l ≤ j by omega]
  · by_cases hw : j - l < w
    · simp [h, hl, hw, show l ≤ j ∧ j < l + w by omega, show j - l < 64 by omega, BitVec.testBit_toNat]
    · simp [h, hl, hw, show ¬ j < l + w by omega]

theorem setHalf_bit (x : Dword) (h : BitVec 2) (i : BitVec 16) {j : Nat} (hj : j < 64) :
    (setHalf x h i).getLsbD j = if j / 16 = h.toNat then i.getLsbD (j % 16) else x.getLsbD j := by
  have hmask (n : Nat) : (0xFFFF#64).getLsbD n = decide (n < 16) := by
    rw [show 0xFFFF#64 = BitVec.ofNat 64 (2 ^ 16 - 1) from rfl, BitVec.getLsbD_ofNat, Nat.testBit_two_pow_sub_one]
    grind
  simp only [setHalf, zext, BitVec.getLsbD_or, BitVec.getLsbD_and, BitVec.getLsbD_not, BitVec.getLsbD_shiftLeft, BitVec.getLsbD_setWidth, hmask]
  by_cases hlo : j < 16 * h.toNat
  · simp [hj, hlo, show j / 16 ≠ h.toNat by omega]
  · by_cases hhi : j - 16 * h.toNat < 16
    · simp [hj, hlo, hhi, show j / 16 = h.toNat by omega, show j % 16 = j - 16 * h.toNat by omega, show j - 16 * h.toNat < 64 by omega]
    · simp [hj, hlo, hhi, show j / 16 ≠ h.toNat by omega, BitVec.getLsbD_of_ge i (j - 16 * h.toNat) (by omega)]

/-! ### Conditions and predicates -/

/-- Two words have a 1 in common (R120). -/
theorem tst_eq (x y : Dword) : (x &&& y != 0#64) = (List.range 64).any fun j => x.getLsbD j && y.getLsbD j := by
  rw [Bool.eq_iff_iff, List.any_eq_true, bne_iff_ne, ne_eq, BitVec.eq_of_getLsbD_eq_iff]
  simp

/-- Bit 0 of a byte of predicates stands for p0, which is true (R92). -/
theorem predByte_bit (p : Byte) {j : Nat} (h : j < 8) : ((p &&& 0xFE#8) ||| 1#8).getLsbD j = if j = 0 then true else p.getLsbD j := by
  have hmask : ∀ n < 8, (0xFE#8).getLsbD n = decide (n ≠ 0) ∧ (1#8).getLsbD n = decide (n = 0) := by decide
  obtain ⟨hfe, hone⟩ := hmask j h
  simp only [BitVec.getLsbD_or, BitVec.getLsbD_and, hfe, hone]
  by_cases hj : j = 0 <;> simp [hj]

/-- The predicates as a number (R122). -/
theorem predWord_bit (b : Block) (j : Nat) : (predWord b).getLsbD j = (decide (j < 8) && b.pred (BitVec.ofNat 3 j)) := by
  by_cases h : j < 8
  · have hn : BitVec.ofNat 3 j = 0#3 ↔ j = 0 := by
      rw [← BitVec.toNat_inj, BitVec.toNat_ofNat, BitVec.toNat_ofNat]
      omega
    rw [predWord, zext, BitVec.getLsbD_setWidth, predByte_bit _ h, decide_eq_true h, decide_eq_true (show j < 64 by omega), Block.pred]
    simp only [hn, BitVec.toNat_ofNat, Nat.mod_eq_of_lt h, Bool.true_and]
  · rw [decide_eq_false h, Bool.false_and, predWord, zext, BitVec.getLsbD_setWidth, BitVec.getLsbD_of_ge _ _ (by omega), Bool.and_false]

end Sys2Proof.Machine
end

section

open Sys2Proof Sys2Proof.Machine Sys2Proof.Safety

/-- Settles O6: the minor alone decides the operation (`decodeWord_alu`), and each operation puts its value in rd and goes on (`gives_putG`); the
value is the table's number by the lemma about its operator. -/
theorem integerWordsFollowR112 : Obligations.IntegerWordsFollowR112 := by
  unfold Obligations.IntegerWordsFollowR112
  refine ⟨decodeWord_alu, ?_⟩
  intro s d a b x y sh
  have hsh : sh < 64 := Nat.mod_lt _ (by decide)
  exact ⟨gives_putG rfl rfl, gives_putG rfl (sub_eq_ofInt x y), gives_putG rfl rfl, gives_putG rfl rfl, gives_putG rfl rfl,
    gives_putG rfl rfl, gives_putG rfl rfl, gives_putG rfl rfl, gives_putG rfl rfl, gives_putG rfl (shiftLeft_eq_ofNat x sh),
    gives_putG rfl (ushiftRight_eq_ofNat x sh), gives_putG rfl (sshiftRight_eq_ofInt x sh), gives_putG rfl (rotateRight_eq_ofNat x hsh),
    gives_putG rfl (min_eq_ofInt x y), gives_putG rfl (max_eq_ofInt x y), gives_putG rfl (minu_eq_ofNat x y),
    gives_putG rfl (maxu_eq_ofNat x y), gives_putG rfl (lea_eq_ofNat x y 1), gives_putG rfl (lea_eq_ofNat x y 2),
    gives_putG rfl (lea_eq_ofNat x y 3)⟩

/-- Settles O7: the words decode by their majors and their must-be-zero fields, and each operation puts its value in rd (`gives_putG`); movk's
value is read bit by bit (`setHalf_bit`). -/
theorem immediateWordsFollowTheirRules : Obligations.ImmediateWordsFollowTheirRules := by
  unfold Obligations.ImmediateWordsFollowTheirRules
  refine ⟨fun d a i => ?_, ?_⟩
  · obtain ⟨haddi, handi, hori, hxori⟩ := decodeWord_immediates d a i
    exact ⟨haddi, handi, hori, hxori, decodeWord_shiftImm d a, decodeWord_movi d a i, fun z h => decodeWord_movk d z h i⟩
  · intro s d a i h w x n
    have hi := zext_eq_ofNat i
    exact ⟨gives_putG rfl (add_sext_eq_ofInt x i (by decide)), gives_putG rfl (congrArg (x &&& ·) hi), gives_putG rfl (congrArg (x ||| ·) hi),
      gives_putG rfl (congrArg (x ^^^ ·) hi), gives_putG rfl (shiftLeft_eq_ofNat x n), gives_putG rfl (ushiftRight_eq_ofNat x n),
      gives_putG rfl (sshiftRight_eq_ofInt x n), gives_putG rfl (rotateRight_eq_ofNat x h.isLt), gives_putG rfl rfl,
      _, gives_putG rfl rfl, fun j hj => setHalf_bit (s.g d) w i hj⟩

/-- Settles O8: each operation puts its value in rd (`gives_putG`), and the value is described by a lemma about its function: the counts by
induction over the bits looked at, the fields by the bits of quotient, remainder and mask. -/
theorem bitWordsFollowTheirRules : Obligations.BitWordsFollowTheirRules := by
  unfold Obligations.BitWordsFollowTheirRules
  refine ⟨decodeWord_count, decodeWord_bitField, ?_⟩
  intro s d a x
  refine ⟨?popc, ?clz, ?ctz, ?brev, ?bswap, fun w l _ => ⟨?bfx, ?bfxs, ?bfi⟩⟩
  case popc => exact gives_putG rfl (congrArg (BitVec.ofNat 64) (onesBelow_eq x 64))
  case clz =>
    refine ⟨leadZeros x 64, leadZeros_le x 64, gives_putG rfl rfl, fun j hj => ?_, leadZeros_one x⟩
    by_cases hlt : j < 64
    · exact leadZeros_zeros x hj hlt
    · exact BitVec.getLsbD_of_ge x j (Nat.not_lt.1 hlt)
  case ctz => exact ⟨trailZeros x 64, trailZeros_le x 64, gives_putG rfl rfl, fun j => below_trailZeros x, at_trailZeros x⟩
  case brev => exact ⟨_, gives_putG rfl rfl, fun j hj => bitRev_bit x hj⟩
  case bswap => exact ⟨_, gives_putG rfl rfl, fun j hj => byteRev_bit x hj⟩
  case bfx => exact ⟨_, gives_putG rfl rfl, fun j hj => bitField_bit x w.toNat l.toNat hj⟩
  case bfxs =>
    have hw : w ≠ 0#7 ↔ w.toNat ≠ 0 := not_congr (BitVec.toNat_inj (y := 0#7)).symm
    refine ⟨_, gives_putG rfl rfl, fun j hj => ?_⟩
    simp only [hw]
    exact bitFieldS_bit x l.toNat hj
  case bfi => exact ⟨_, gives_putG rfl rfl, fun j hj => bitInsert_bit (s.g d) x w.toNat l.toNat hj⟩

/-- Settles O9: a compare decodes by its code and its reserved bits (`decodeWord_cmp`, `decodeWord_cmpi`) and puts the truth of its condition
in pD (`gives_putP`), which is a comparison of numbers for each code. -/
theorem comparesFollowTheirRules : Obligations.ComparesFollowTheirRules := by
  unfold Obligations.ComparesFollowTheirRules
  refine ⟨fun z p a b r c => ?_, fun z p a c i => ?_, rfl, by decide, ?_⟩
  · rw [decodeWord_cmp]
    cases condOf c <;> rfl
  · rw [decodeWord_cmpi]
    cases condOf c <;> rfl
  · intro s p a b i holds
    have hcond (c : Cond) (x y : Dword) : condHolds c x y = holds c x y := by
      cases c with
      | eq => exact (Bool.eq_iff_iff.2 (by simp [← BitVec.toNat_inj]) : (x == y) = decide (x.toNat = y.toNat))
      | ne => exact (Bool.eq_iff_iff.2 (by simp [← BitVec.toNat_inj]) : (x != y) = decide (x.toNat ≠ y.toNat))
      | lt | ltu => rfl
      | ge | geu => exact Bool.eq_iff_iff.2 (by simp [condHolds, holds, BitVec.slt_eq_decide, BitVec.ult_eq_decide])
      | tst => exact tst_eq x y
    exact ⟨fun c => gives_putP rfl (hcond c _ _), fun c => gives_putP rfl (hcond c _ _)⟩

/-- Settles O10: sel and prd put one word in rd (`gives_putG`), the combinations put one bit in a predicate (`gives_putP`), and pwr is one change
of the block stream (`blockStep_of`). -/
theorem selectAndPredicateWords : Obligations.SelectAndPredicateWords := by
  unfold Obligations.SelectAndPredicateWords
  intro s d a b p q r
  refine ⟨gives_putG rfl rfl, gives_putP rfl rfl, gives_putP rfl rfl, gives_putP rfl rfl, gives_putP rfl rfl,
    ⟨_, gives_putG rfl rfl, fun j _ => predWord_bit s.blk j⟩, ?_⟩
  obtain ⟨t, ht, hstep⟩ := blockStep_of (i := .pwr a) (s := s) rfl rfl
  refine ⟨t, _, ht, hstep, rfl, fun j => ?_⟩
  have hmask : ∀ n : BitVec 3, n ≠ 0#3 → (0xFE#8).getLsbD n.toNat = true := by decide
  by_cases hj : j = 0#3
  · rw [Block.pred, if_pos hj, if_pos hj]
  · rw [Block.pred, if_neg hj, if_neg hj]
    change ((s.g a).extractLsb' 0 8 &&& 0xFE#8).getLsbD j.toNat = _
    rw [BitVec.getLsbD_and, hmask j hj, Bool.and_true, BitVec.getLsbD_extractLsb', decide_eq_true j.isLt, Bool.true_and, Nat.zero_add]

end

section
/-! SUPPORT. Runs of spillm and fillm over the own scratchpad (R126, R127): one register moved at each act, then the count of the run. -/

namespace Sys2Proof.Safety

open Sys2Proof.Machine

/-- Without a write of its own on the way a stream reads memory (R125). -/
theorem ownByte_unwritten {s : State} {w : Writer} (l : Nat) (h : ∀ x ∈ s.writes, x.by_ ≠ w) : s.ownByte w l = Memory.read s.mem l := by
  unfold State.ownByte
  generalize Memory.read s.mem l = v
  generalize s.writes = ws at h
  induction ws with
  | nil => rfl
  | cons x t ih =>
    rw [List.forall_mem_cons] at h
    simp only [List.foldl_cons, beq_eq_false_iff_ne.2 h.1, Bool.false_and, Bool.false_eq_true, if_false]
    exact ih h.2

/-- The issue of a word that may hold the pipeline is charged once (R111). -/
theorem runCharge_step (s : State) : CoreStep s s.runCharge s.cur.k.val s.me := by
  unfold State.runCharge
  split
  · exact .refl ..
  · exact charge_step s s.cur.k.val 0 0 0xF 1

/-- The block stream of a run of n registers after its i-th has been moved. -/
def ran (i n : Nat) (b : Block) : Block :=
  if n ≤ i + 1 then { after b with trprog := 0#5 } else { b with trprog := BitVec.ofNat 5 (i + 1), busy := true }

theorem CoreStep.runNext {s t : State} {c : Core} (h : CoreStep s t s.cur.k.val c) (i n : Nat) :
    CoreStep s (t.runNext i n) s.cur.k.val { c with q := c.q.set s.cur.q.val (ran i n c.q[s.cur.q.val]) } := by
  have hc := h.charge 0 2 0xF 8
  unfold State.runNext ran
  rw [h.cur]
  split
  · exact hc.modBlk fun b => { after b with trprog := 0#5 }
  · exact hc.modBlk _

section

variable (s : State) (f b l : BitVec 5) (o : Nat)

/-- The register of a run that is moved next. -/
theorem runReg_eq : f + BitVec.ofNat 5 s.blk.trprog.toNat = BitVec.ofNat 5 (f.toNat + s.blk.trprog.toNat) := by
  simp only [BitVec.ofNat_add, BitVec.ofNat_toNat, BitVec.setWidth_eq]

variable {s f b l o}

theorem runAddr_toNat {n : Nat} (hb : (s.g b).toNat = 0x1000000000000000 + o) (ho : o + 8 * n ≤ 0x200000) (hi : s.blk.trprog.toNat < n) :
    (s.g b + BitVec.ofNat 64 (8 * s.blk.trprog.toNat)).toNat = 0x1000000000000000 + (o + 8 * s.blk.trprog.toNat) := by
  rw [BitVec.toNat_add, BitVec.toNat_ofNat, hb]
  omega

/-- One act of a spill (R126): a write of 8 bytes on its way, and the count of the run. -/
theorem spillm_own (hb : (s.g b).toNat = 0x1000000000000000 + o) (hm : o % 8 = 0) (ho : o + 8 * runLength f l ≤ 0x200000)
    (hi : s.blk.trprog.toNat < runLength f l) :
    let i := s.blk.trprog.toNat
    let v := s.g (BitVec.ofNat 5 (f.toNat + i))
    ∃ t, exec (.spillm f b l) s = .next t ∧
      BlockStep { s with next := s.next + 1, writes := s.writes ++ [ownWrite s (scratchLoc s.cur.k.val + (o + 8 * i)) 8 v.toNat] } t
        (ran i (runLength f l) s.blk) := by
  intro i v
  have hu := runCharge_step s
  have hg (r : BitVec 5) : s.runCharge.g r = s.g r := by rw [State.g, hu.blk]; rfl
  have ha := ownLoc s.runCharge _ 8 (o + 8 * i) .write (runAddr_toNat hb ho hi) (by omega) (by omega) (by decide)
  have hw := seqWrite_of (v := v) ha
  rw [State.seqWriter, hu.cur] at hw
  have hsent := hu.emit s.seqWriter none (scratchLoc s.cur.k.val + (o + 8 * i)) (wholeBytes (bytesOfNat 8 v.toNat))
  rw [emit_own s (o + 8 * i) 8 v.toNat (by omega)] at hsent
  refine ⟨_, ?_, CoreStep.runNext (s := { s with next := _, writes := _ }) hsent i (runLength f l)⟩
  change execSpillm f b l s = _
  unfold execSpillm
  dsimp only
  rw [if_neg (Nat.not_le.2 hi), hg, hg, runReg_eq, hw]
  rfl

/-- One act of a fill (R127): the register loaded, the die's own clocks observed (R66), and the count of the run. -/
theorem fillm_own (hb : (s.g b).toNat = 0x1000000000000000 + o) (hm : o % 8 = 0) (ho : o + 8 * runLength f l ≤ 0x200000)
    (hi : s.blk.trprog.toNat < runLength f l) :
    let i := s.blk.trprog.toNat
    let d := s.cur.k.val / 192
    ∃ t, exec (.fillm f b l) s = .next t ∧
      BlockStep (s.observe d d) t (ran i (runLength f l) (s.blk.setReg (BitVec.ofNat 5 (f.toNat + i)) (BitVec.ofNat 64
        (natOfBytes ((List.range 8).map fun j => s.ownByte ⟨s.cur.k.val, s.cur.q.val⟩ (scratchLoc s.cur.k.val + (o + 8 * i) + j)))))) := by
  intro i d
  have hu := runCharge_step s
  have hg (r : BitVec 5) : s.runCharge.g r = s.g r := by rw [State.g, hu.blk]; rfl
  have ha := ownLoc s.runCharge _ 8 (o + 8 * i) .read (runAddr_toNat hb ho hi) (by omega) (by omega) (by decide)
  have hr := seqRead_of ha (notHbm _ _)
  rw [seqBytes_eq, hu.cur, homeOwn s.cur.k.val (o + 8 * i) s.cur.k.isLt (by omega)] at hr
  simp only [ownByte_congr hu.writes hu.mem] at hr
  have hload := CoreStep.modBlk (s := s.observe d d) (hu.observe d d) fun x => x.setReg (BitVec.ofNat 5 (f.toNat + i))
    (BitVec.ofNat 64 (natOfBytes ((List.range 8).map fun j => s.ownByte ⟨s.cur.k.val, s.cur.q.val⟩ (scratchLoc s.cur.k.val + (o + 8 * i) + j))))
  have hstep := CoreStep.runNext (s := s.observe d d) hload i (runLength f l)
  simp only [Vector.getElem_set_self, Vector.set_set] at hstep
  refine ⟨_, ?_, hstep⟩
  change execFillm f b l s = _
  unfold execFillm
  dsimp only
  rw [if_neg (Nat.not_le.2 hi), hg, runReg_eq, hr]
  rfl

end

end Sys2Proof.Safety

section

open Sys2Proof Sys2Proof.Machine Sys2Proof.Safety

/-- Settles O11: a load from the own scratchpad puts the bytes read in rd (`load_own`), and with no write of the stream on its way these are
memory's (`ownByte_unwritten`). -/
theorem loadsReadTheOwnScratchpad : Obligations.LoadsReadTheOwnScratchpad := by
  unfold Obligations.LoadsReadTheOwnScratchpad
  refine ⟨?_, fun s w l h => ownByte_unwritten l h⟩
  intro s d a i o h l v rd
  have loads {w : Instr} (n : Nat) (ext : Nat → Dword) (hw : exec w s = .next (s.load d a i n ext)) (ho : o + n ≤ 0x200000)
      (hm : o % n = 0) (hn : 0 < n) : rd w (ext (v n)) := ⟨_, hw, load_own s d a i n o ext h ho hm hn⟩
  exact ⟨fun ho => ⟨loads 1 loadZ rfl ho (Nat.mod_one o) Nat.one_pos, loads 1 (loadS 8) rfl ho (Nat.mod_one o) Nat.one_pos⟩,
    fun ho hm => ⟨loads 2 loadZ rfl ho hm (by decide), loads 2 (loadS 16) rfl ho hm (by decide)⟩,
    fun ho hm => ⟨loads 4 loadZ rfl ho hm (by decide), loads 4 (loadS 32) rfl ho hm (by decide)⟩,
    fun ho hm => loads 8 loadZ rfl ho hm (by decide)⟩

/-- Settles O12: a store to the own scratchpad sends its one write and goes on (`store_own`). -/
theorem storesSendOneWrite : Obligations.StoresSendOneWrite := by
  unfold Obligations.StoresSendOneWrite
  intro s r a i o h k sent
  have stores {w : Instr} {n : Nat} (hw : exec w s = .next (s.store r a i n)) (ho : o + n ≤ 0x200000) (hm : o % n = 0) (hn : 0 < n) :
      ∃ t, exec w s = .next t ∧ NextWord (sent n) t := ⟨_, hw, store_own s r a i n o h ho hm hn⟩
  exact ⟨fun ho => stores rfl ho (Nat.mod_one o) Nat.one_pos, fun ho hm => stores rfl ho hm (by decide),
    fun ho hm => stores rfl ho hm (by decide), fun ho hm => stores rfl ho hm (by decide)⟩

/-- Settles O13: one act of a run moves one register and counts it (`spillm_own`, `fillm_own`), or completes a run that is at its end. -/
theorem spillAndFillMoveARun : Obligations.SpillAndFillMoveARun := by
  unfold Obligations.SpillAndFillMoveARun
  intro s f b l o _ k n i r loc next
  have hloc : scratchLoc k + (o + 8 * i) = loc := (Nat.add_assoc ..).symm
  refine ⟨fun hb hm ho hi => ⟨?_, ?_⟩, fun hi => ?_⟩
  · obtain ⟨t, ht, hstep⟩ := spillm_own (f := f) (l := l) hb hm ho hi
    rw [hloc] at hstep
    exact ⟨t, ht, hstep⟩
  · obtain ⟨t, ht, hstep⟩ := fillm_own (f := f) (l := l) hb hm ho hi
    rw [hloc] at hstep
    refine ⟨t, _, ht, hstep, ?_, fun q =>
      (setReg_reg s.blk r q _).trans (if_congr (and_congr_right fun h => by rw [h]) rfl rfl)⟩
    unfold Block.setReg
    split <;> rfl
  · have hdone := (runCharge_step s).modBlk fun b => { after b with trprog := 0#5 }
    simp only [List.forall_mem_cons, List.not_mem_nil, IsEmpty.forall_iff, implies_true, and_true]
    exact ⟨⟨_, if_pos hi, hdone⟩, ⟨_, if_pos hi, hdone⟩⟩

end
end

section
/-! SUPPORT. Control of the block streams (R130, R131, R134 to R136): a restart, waits of the acting stream, fences, and a job fault at a
rendezvous. -/

namespace Sys2Proof.Safety

open Sys2Proof.Machine

theorem seqCharge_cur (s : State) : s.seqCharge.cur = s.cur := charge_cur ..

theorem seqCharge_step (s : State) : CoreStep s s.seqCharge s.cur.k.val s.me := charge_step s s.cur.k.val 0 0 0xF 1

/-! ### A stream restarted -/

/-- A change of one block stream of the core that steps. -/
theorem CoreStep.modQ {s t : State} {k : Nat} {c : Core} (h : CoreStep s t k c) (q : Fin 4) (f : Block → Block) :
    CoreStep s (t.modQ k q f) k { c with q := c.q.set q.val (f c.q[q.val]) } := by
  refine h.modCore (fun c => { c with q := c.q.set q.val (f c.q[q.val]) }) fun x y hxy => ?_
  have := congrArg (fun z : Core => { z with q := z.q.set q.val (f z.q[q.val]) }) hxy
  exact this

/-- A change of the acting block stream, given as it stands before. -/
theorem CoreStep.modBlk_of {s t : State} {c : Core} {b : Block} (h : CoreStep s t s.cur.k.val c) (hb : c.q[s.cur.q.val] = b)
    (f : Block → Block) : CoreStep s (t.modBlk f) s.cur.k.val { c with q := c.q.set s.cur.q.val (f b) } := hb ▸ h.modBlk f

/-- The block stream b ready at pc with its argument in g1 (R130). -/
def restarted (b : Block) (pc arg : Dword) : Block := { b.setReg 1#5 arg with pc := pc, st := .ready }

theorem restarted_reg (b : Block) (pc arg : Dword) (r : BitVec 5) :
    (restarted b pc arg).reg r = if r = 1#5 then arg else b.reg r :=
  (setReg_reg b 1#5 r arg).trans (if_congr (and_iff_left (by decide)) rfl rfl)

theorem restarted_rest (b : Block) (pc arg : Dword) : { restarted b pc arg with g := b.g } = { b with pc := pc, st := .ready } := rfl

section

variable {s : State} {p : BitVec 3} {a b : BitVec 5} {q : BitVec 2} {i : Fin 4} (hq : i = ⟨q.toNat, q.isLt⟩) (hi : i ≠ s.cur.q)
include hq hi

/-- jstart of another stream that is not absent does not trap. -/
theorem jstart_other (ha : s.me.q[i.val].st ≠ .absent) :
    ¬ (⟨q.toNat, q.isLt⟩ = s.seqCharge.cur.q || s.me.q[q.toNat].st == .absent) = true := by
  subst hq
  rw [Bool.or_eq_true, decide_eq_true_eq, beq_iff_eq, seqCharge_cur, not_or]
  exact ⟨hi, ha⟩

/-- An ended stream is restarted, and the acting one goes on with pD set (R130). -/
theorem jstart_ended (he : s.me.q[i.val].st = .ended) : ∃ t, exec (.jstart p a b q) s = .next t ∧ CoreStep s t s.cur.k.val
      { s.me with q := (s.me.q.set i.val (restarted s.me.q[i.val] (s.g a) (s.g b))).set s.cur.q.val (s.blk.setPred p true).step,
                  job := s.me.job.map fun j => { j with done := j.done &&& ~~~(1#8 <<< i.val) } } := by
  have hown := jstart_other hq hi (by rw [he]; decide)
  have hblk : (s.me.q.set i.val (restarted s.me.q[i.val] (s.g a) (s.g b)))[s.cur.q.val] = s.blk :=
    Vector.getElem_set_ne _ _ fun h => hi (Fin.ext h)
  have hcore := ((seqCharge_step s).modQ i fun y => restarted y (s.g a) (s.g b)).modCore (fun c => c.clearDone i.val)
    fun x y h => congrArg (Core.clearDone · i.val) h
  refine ⟨_, ?_, hcore.modBlk_of hblk fun y => (y.setPred p true).step⟩
  subst hq
  change execJstart p a b q s = _
  unfold execJstart
  dsimp only
  rw [if_neg hown, if_pos (beq_iff_eq.2 he)]
  rfl

/-- A stream that has not ended stays as it is, and pD is cleared (R130). -/
theorem jstart_refused (ha : s.me.q[i.val].st ≠ .absent) (he : s.me.q[i.val].st ≠ .ended) : GivesPred (.jstart p a b q) s p false := by
  have hown := jstart_other hq hi ha
  subst hq
  refine gives_putP ?_ rfl
  change execJstart p a b q s = _
  unfold execJstart
  dsimp only
  rw [if_neg hown, if_neg (mt beq_iff_eq.1 he)]
  rfl

end

/-! ### Waits of the acting stream -/

/-- The block stream b at its wait (R94, R157). -/
def awaiting (b : Block) (w : Word) (m : Dword) : Block := { b with st := .waiting, wword := w, wmask := m, busy := false }

theorem CoreStep.wait {s t : State} {c : Core} (h : CoreStep s t s.cur.k.val c) (w : Word) (m : Dword) :
    CoreStep s (t.wait w m) s.cur.k.val (Core.switch { c with q := c.q.set s.cur.q.val (awaiting c.q[s.cur.q.val] w m) }) :=
  (h.modBlk (awaiting · w m)).endBlock

/-- TAGS with the bits of z cleared, but for those that a completion sets in the same clk (R23, log 39). -/
def tagsTaken (y : Sys) (z : Dword) : Sys :=
  { y with tags := y.tags &&& (~~~z ||| y.tagsNew), tagsHid := y.tagsHid ||| (z &&& y.tagsNew) }

theorem tagsTaken_zero (y : Sys) : tagsTaken y 0#64 = y := by
  simp only [tagsTaken, BitVec.not_zero, BitVec.allOnes_or, BitVec.and_allOnes, BitVec.zero_and, BitVec.or_zero]

/-- The core whose stream q has its tag wait completed, with v in rd and the bits of z cleared. -/
def tagged (c : Core) (q : Fin 4) (d : BitVec 5) (v z : Dword) : Core :=
  { c with sys := tagsTaken c.sys z, q := c.q.set q.val (c.q[q.val].setReg d v).step.resume }

section

variable {s t : State} (ht : CoreStep s t s.cur.k.val s.me)
include ht

theorem CoreStep.me_sys : t.me.sys = s.me.sys := by
  have := congrArg Core.sys ht.core
  rw [State.me, ht.cur]
  exact this

theorem CoreStep.tryTag (i : Instr) (m : Dword) : t.me.tryTag t.cur.q i m =
    (tagWait i (s.me.sys.seenTags i) m).map fun x => tagged t.me s.cur.q x.1 x.2.1 x.2.2 := by
  unfold Core.tryTag tagged
  simp only [ht.me_sys, ht.cur]
  cases tagWait i (s.me.sys.seenTags i) m <;> rfl

end

section

variable {s : State} {i : Instr} {m : Dword} (w : Word)

/-- A tag wait whose condition holds is complete at once (R134). -/
theorem tagWait_done {v z : Dword} {d : BitVec 5} (h : tagWait i (s.me.sys.seenTags i) m = some (d, v, z)) :
    CoreStep s (s.tagWaitAt i w m) s.cur.k.val (tagged s.me s.cur.q d v z) := by
  have hc := seqCharge_step s
  unfold State.tagWaitAt
  dsimp only
  rw [hc.tryTag, h]
  change CoreStep s (s.seqCharge.modCore s.seqCharge.cur.k.val (tagged · s.cur.q d v z)) _ _
  rw [hc.cur]
  exact hc.modCore (tagged · s.cur.q d v z) fun x y hxy => congrArg (tagged · s.cur.q d v z) hxy

/-- Else its stream waits (R94, R135). -/
theorem tagWait_waits (h : tagWait i (s.me.sys.seenTags i) m = none) :
    CoreStep s (s.tagWaitAt i w m) s.cur.k.val (Core.switch (blkCore s (awaiting s.blk w m))) := by
  have hc := seqCharge_step s
  unfold State.tagWaitAt
  simp only [hc.tryTag, h, Option.map_none]
  exact hc.wait w m

end

/-- A stream that has not waited resumes as it is. -/
theorem resume_setReg_step {b : Block} (d : BitVec 5) (v : Dword) (hst : b.st = .ready) (hw : b.wword = 0#32) (hm : b.wmask = 0#64)
    (ha : b.answer = none) : (b.setReg d v).step.resume = (b.setReg d v).step := by
  unfold Block.resume Block.step Block.setReg
  split <;> simp [*]

/-! ### A word that holds the pipeline -/

/-- A word that has not completed holds the pipeline (R110). -/
theorem CoreStep.hold {s t : State} (h : CoreStep s t s.cur.k.val s.me) : BlockStep s t.hold { s.blk with busy := true } :=
  h.modBlk fun b => { b with busy := true }

theorem storing_iff (s : State) (k : Nat) (q : Fin 4) : s.storing k q = true ↔ ∃ w ∈ s.writes, w.by_ = ⟨k, q.val⟩ := by
  simp [State.storing]

/-! ### Fences -/

theorem scopeHides_iff (sc : Scope) : scopeHides sc = true ↔ sc ≠ .stream := by cases sc <;> decide

theorem scopeWide_iff (sc : Scope) : scopeWide sc = true ↔ sc = .package ∨ sc = .fabric := by cases sc <;> decide

/-- A release looks at no core (R66). -/
theorem CoreStep.release {s t : State} {k : Nat} {c : Core} (h : CoreStep s t k c) (d : Nat) : CoreStep (s.release d) (t.release d) k c := by
  refine ⟨?_, h.core, h.cores, h.funcs, h.mem⟩
  rw [h.rest]
  rfl

/-- Neither does an acquire (R66). -/
theorem CoreStep.acquire {s t : State} {k : Nat} {c : Core} (h : CoreStep s t k c) (d : Nat) : CoreStep (s.acquire d) (t.acquire d) k c := by
  refine ⟨?_, h.core, h.cores, h.funcs, h.mem⟩
  rw [h.rest]
  rfl

theorem release_markers (s : State) (d : Nat) : (s.release d).markers.length = s.markers.length + 8 := by
  simp [State.release, upto]

theorem clkMax_get (a b : Vector (BitVec 48) 8) {d : Nat} (h : d < 8) :
    (clkMax a b)[d]? = some (serialMax (vget a d 0#48) (vget b d 0#48)) := by
  simp [clkMax, vget, h]

/-- After a release and an acquire the die's own epoch is one higher, or what it has observed where that is later (R66, R67). -/
theorem released_epoch (s : State) {d : Nat} (hd : d < 8) : (((s.release d).acquire d).die d).vclk[d]? =
    some (serialMax (vget (s.die d).vclk d 0#48 + 1#48) (vget (s.die d).obs d 0#48)) := by
  unfold State.acquire
  rw [State.die_modDie_self _ _ _ hd, clkMax_get _ _ hd]
  unfold State.release
  rw [State.die_modDie_self _ _ _ hd, vget_vset_self _ _ _ _ hd]
  rfl

theorem CoreStep.markers {s t : State} {k : Nat} {c : Core} (h : CoreStep s t k c) : t.markers = s.markers := by rw [h.rest]

theorem CoreStep.die {s t : State} {k : Nat} {c : Core} (h : CoreStep s t k c) (d : Nat) : t.die d = s.die d := by
  rw [h.rest]
  rfl

theorem CoreStep.job {s t : State} {k : Nat} {c : Core} (h : CoreStep s t k c) : (t.core k).job = c.job := by
  have := congrArg Core.job h.core
  exact this

theorem CoreStep.fault {s t : State} {k : Nat} {c : Core} (h : CoreStep s t k c) : (t.core k).fault = c.fault := by
  have := congrArg Core.fault h.core
  exact this

/-! ### Rendezvous of a block stream -/

/-- The misuse of a rendezvous, by the masks of the id and of the job (R25, log 87). -/
theorem rdvMisuse_eq {c : Core} {j : Job} (hj : c.job = some j) (q : Nat) (n : Fin 4) (m : Byte) :
    c.rdvMisuse q (BitVec.ofNat 2 n.val) m =
      if m.getLsbD q = false ∨ (c.rdv[n.val].mask ≠ 0#8 ∧ c.rdv[n.val].mask ≠ m) then some 0x50#8
      else if m &&& ~~~j.expect ≠ 0#8 ∨ m &&& j.done ≠ 0#8 then some 0x51#8 else none := by
  have hn : (BitVec.ofNat 2 n.val).toNat = n.val := Nat.mod_eq_of_lt n.isLt
  unfold Core.rdvMisuse Core.expect Core.done
  rw [hn, vget_lt _ _ _ n.isLt, hj]
  simp only [maskHas, Option.map_some, Option.getD_some, Bool.or_eq_true, Bool.and_eq_true, Bool.not_eq_true', bne_iff_ne]
  rfl

theorem arrive_eq (c : Core) (q : Nat) (n : Fin 4) (m : Byte) : c.arrive q (BitVec.ofNat 2 n.val) m =
    { c with rdv := c.rdv.set n.val ⟨m, c.rdv[n.val].arrived ||| (1#8 <<< q)⟩ } := by
  have hn : (BitVec.ofNat 2 n.val).toNat = n.val := Nat.mod_eq_of_lt n.isLt
  unfold Core.arrive
  dsimp only
  rw [hn, vget_lt _ _ _ n.isLt, Machine.vset_lt _ _ n.isLt]
  rfl

/-- Which stream issues next does not look at rendezvous. -/
theorem switch_rdv (c : Core) (r : Vector Rdv 4) : Core.switch { c with rdv := r } = { Core.switch c with rdv := r } := by
  unfold Core.switch
  dsimp only
  cases (afterQ c.curq).find? fun i => c.q[i.val].st == .ready <;> rfl

/-! ### A job fault after a step -/

/-- A fault that follows a step of its core which leaves the core as it was. -/
theorem FaultedBy.after {s u t : State} {k : Nat} {r : FaultRec} (h : FaultedBy u t k r) (hu : CoreStep s u k (s.core k)) :
    FaultedBy s t k r := by
  obtain ⟨l, hl, hstep⟩ := h
  have hlater : CoreStep { s.later l with fresh := t.fresh } { u.later l with fresh := t.fresh } k (s.core k) := by
    refine ⟨?_, hu.core, hu.cores, hu.funcs, hu.mem⟩
    rw [hu.rest]
    rfl
  have htrans := hlater.trans hstep
  refine ⟨l, hl, htrans.rest, ?_, htrans.cores, htrans.funcs, htrans.mem⟩
  have := congrArg (fun c : Core => { c with fault := some r }) hu.core
  exact htrans.core.trans this

end Sys2Proof.Safety
end

section

open Sys2Proof Sys2Proof.Machine Sys2Proof.Safety

/-- Settles O15: jstart of an ended stream changes that stream, the done mask and the acting stream (`jstart_ended`); of any other it only clears
pD (`jstart_refused`). -/
theorem jstartRestartsAnEndedStream : Obligations.JstartRestartsAnEndedStream := by
  unfold Obligations.JstartRestartsAnEndedStream
  intro s p a b i hi x q
  have hq : i = ⟨q.toNat, q.isLt⟩ := Fin.ext (Nat.mod_eq_of_lt i.isLt).symm
  refine ⟨fun he => ?_, fun h => ?_⟩
  · obtain ⟨t, ht, hstep⟩ := jstart_ended (p := p) (a := a) (b := b) hq hi he
    exact ⟨t, _, _, ht, hstep, setPred_step_put s.blk p true, fun r => restarted_reg x _ _ r, restarted_rest x (s.g a) (s.g b)⟩
  · rcases h with h | h | h <;> exact jstart_refused hq hi (by rw [h]; decide) (by rw [h]; decide)

/-- Settles O17: a tag wait completes at once or leaves its stream waiting, as its condition on the tags it sees says (`tagWait_done`,
`tagWait_waits`). -/
theorem tagWaits : Obligations.TagWaits := by
  unfold Obligations.TagWaits
  intro s d a c hst hw hm ha y m seen clear done waits x z y'
  have hdone {i : Instr} {w : Word} {v r : Dword} (hi : exec i s = .next (s.tagWaitAt i w m))
      (h : tagWait i (y.seenTags i) m = some (d, v, r)) : done i v (tagsTaken y r) := by
    have hstep := tagWait_done w h
    refine ⟨_, _, hi, setReg_step_put s.blk d v, ?_⟩
    rw [← resume_setReg_step d v hst hw hm ha]
    exact hstep
  have hwaits {i : Instr} {w : Word} (hi : exec i s = .next (s.tagWaitAt i w m)) (hd : decodeWord .seq w = .ok i)
      (h : tagWait i (y.seenTags i) m = none) : waits i := ⟨_, w, hi, hd, tagWait_waits w h⟩
  have hy (r : Dword) : tagsTaken y (if c then r else 0#64) = if c then clear r else y := by
    cases c
    · exact tagsTaken_zero y
    · rfl
  have hfound {i : Instr} {w : Word} {P : Prop} [Decidable P] (hi : exec i s = .next (s.tagWaitAt i w m)) (hd : decodeWord .seq w = .ok i)
      (h : tagWait i (y.seenTags i) m = if P then some (d, x, if c then x else 0#64) else none) :
      if P then done i x y' else waits i := by
    split
    case isTrue hP =>
      have hat := hdone hi (h.trans (if_pos hP))
      rwa [hy] at hat
    case isFalse hP => exact hwaits hi hd (h.trans (if_neg hP))
  refine ⟨?twany, ?twall, ?tffr⟩
  case twany =>
    have hwait : tagWait (.twany d a c) (y.seenTags (.twany d a c)) m =
        if x != 0#64 || m == 0#64 then some (d, x, if c then x else 0#64) else none := rfl
    exact hfound rfl (decodeWord_of_encode rfl rfl) (hwait.trans (if_congr (by simp) rfl rfl))
  case twall =>
    have hwait : tagWait (.twall d a c) (y.seenTags (.twall d a c)) m =
        if x == m then some (d, x, if c then x else 0#64) else none := rfl
    exact hfound rfl (decodeWord_of_encode rfl rfl) (hwait.trans (if_congr beq_iff_eq rfl rfl))
  case tffr =>
    have hwait : tagWait (.tffr d a) (y.seenTags (.tffr d a)) m = if m == 0#64 then some (d, 64#64, 0#64) else if z != 0#64 then
        some (d, BitVec.ofNat 64 (lowestBit z 64), 1#64 <<< lowestBit z 64) else none := rfl
    split
    case isTrue h =>
      have := hdone (i := .tffr d a) (r := 0#64) rfl (hwait.trans (if_pos (beq_iff_eq.2 h)))
      rwa [tagsTaken_zero] at this
    case isFalse h =>
      rw [if_neg (mt beq_iff_eq.1 h)] at hwait
      split
      case isTrue hz => exact hwaits rfl (decodeWord_of_encode rfl rfl) (hwait.trans (if_neg (by simpa using hz)))
      case isFalse hz =>
        rw [if_pos (by simpa using hz), lowestBit_eq] at hwait
        exact ⟨trailZeros z 64, trailZeros_lt hz, at_trailZeros z (trailZeros_lt hz), fun j hj => below_trailZeros z hj, hdone rfl hwait⟩

/-- Settles O18: behind its stores the stream arrives and waits (`CoreStep.wait`), or its misuse of the rendezvous faults the job
(`jobFaultFree_faulted`). -/
theorem rdvRecordsTheArrival : Obligations.RdvRecordsTheArrival := by
  unfold Obligations.RdvRecordsTheArrival
  intro s n m j hj i q stores differs absent
  have hu := runCharge_step s
  let w : Word := rForm 0x24#6 (0#3 ++ BitVec.ofNat 2 n.val) 0#5 0#5 (1#3 ++ m)
  have hexec : exec i s = if s.storing s.cur.k.val s.cur.q = true then .next s.runCharge.hold else
      match s.me.rdvMisuse q (BitVec.ofNat 2 n.val) m with
      | some e => .next (s.runCharge.jobFaultFree s.cur.k.val e q (s.blk.pc.setWidth 32))
      | none => .next ((s.runCharge.modCore s.cur.k.val fun c => c.arrive q (BitVec.ofNat 2 n.val) m).wait w 0#64) := rfl
  rw [rdvMisuse_eq hj q n m] at hexec
  simp only [storing_iff] at hexec
  refine ⟨fun hs => ⟨_, hexec.trans (if_pos hs), hu.hold⟩, fun hs hd ha => ?_, fun hs hf => ?_⟩
  · rw [if_neg hs, if_neg hd, if_neg ha] at hexec
    refine ⟨_, w, hexec, decodeWord_of_encode rfl rfl, ?_⟩
    have hstep := (hu.modCore (fun c => c.arrive q (BitVec.ofNat 2 n.val) m) fun x y h =>
      congrArg (fun c : Core => c.arrive q (BitVec.ofNat 2 n.val) m) h).wait w 0#64
    rw [arrive_eq] at hstep
    exact switch_rdv (blkCore s (awaiting s.blk w 0#64)) _ ▸ hstep
  · have hfaults {z : Byte} (h : exec i s = .next (s.runCharge.jobFaultFree s.cur.k.val z q (s.blk.pc.setWidth 32))) : FaultsJob i s z :=
      ((jobFaultFree_faulted z q (s.blk.pc.setWidth 32) (by rw [hu.job, hj]; rfl) (hu.fault.trans hf)).after hu).faultsJob h
    rw [if_neg hs] at hexec
    refine ⟨fun hd => hfaults ?_, fun hd ha => hfaults ?_⟩
    · rw [hexec, if_pos hd]
    · rw [hexec, if_neg hd, if_pos ha]

/-- Settles O19: a fence holds the pipeline (`CoreStep.hold`) or goes on, after a release and an acquire at the wide scopes. -/
theorem fenceWaitsThenReleases : Obligations.FenceWaitsThenReleases := by
  unfold Obligations.FenceWaitsThenReleases
  intro s sc d blocked wide
  have hu := runCharge_step s
  have hblocked : (scopeHides sc && s.storing s.cur.k.val s.cur.q) = true ↔ blocked := by
    rw [Bool.and_eq_true, scopeHides_iff, storing_iff]
  have hwide := scopeWide_iff sc
  have hexec : exec (.fence sc) s = if (scopeHides sc && s.storing s.cur.k.val s.cur.q) = true then .next s.runCharge.hold
      else if scopeWide sc = true then
        if s.mayRelease d then .next (((s.runCharge.release d).acquire d).modBlk Block.step) else .next s.runCharge.hold
      else .next (s.runCharge.modBlk Block.step) := rfl
  simp only [hblocked, hwide] at hexec
  refine ⟨fun h => ⟨_, ?_, hu.hold⟩, fun hb hw => ⟨_, ?_, hu.modBlk Block.step⟩, fun hb hw hr => ?_⟩
  · rw [hexec]
    by_cases hb : blocked
    · rw [if_pos hb]
    · obtain ⟨hw, hr⟩ := h.resolve_left hb
      rw [if_neg hb, if_pos hw, if_neg (by rw [hr]; decide)]
  · rw [hexec, if_neg hb, if_neg hw]
  · have hd : d < 8 := by have := s.cur.k.isLt; omega
    have hstep := CoreStep.modBlk (s := (s.release d).acquire d) ((hu.release d).acquire d) Block.step
    refine ⟨_, ?_, hstep, ?_, ?_⟩
    · rw [hexec, if_neg hb, if_pos hw, if_pos hr]
    · rw [hstep.markers]
      exact release_markers s d
    · rw [hstep.die]
      exact released_epoch s hd

end

section
/-! SUPPORT. The system words that queue a command, read an energy account, or return from a handler (R111, R138 to R140, R148). -/

namespace Sys2Proof.Safety

open Sys2Proof.Machine

/-! ### Words that xcp may queue -/

/-- A transfer word takes and gives no token (R138, R163). -/
theorem and_15_eq_zero_iff {w : Word} : w &&& 0xF#32 = 0#32 ↔ w.toNat % 16 = 0 := by
  rw [show 0xF#32 = BitVec.ofNat 32 (2 ^ 4 - 1) from rfl, ← BitVec.toNat_inj, BitVec.toNat_and, BitVec.toNat_ofNat,
    Nat.mod_eq_of_lt (by decide), Nat.and_two_pow_sub_one_eq_mod]
  rfl

theorem xcp_queues {s : State} {a b : BitVec 5} (hw : (s.g a).toNat < 2 ^ 32) (hx : xcpWord ((s.g a).setWidth 32) = true) :
    exec (.xcp a b) s = if 32 ≤ s.me.x.queue.length then .next s else .next ((s.seqCharge.modCore s.cur.k.val fun c =>
      { c with x := { c.x with queue := c.x.queue ++ [⟨(s.g a).setWidth 32, s.g b, s.cur.q, s.me.sys.bfmt, s.next⟩] } }).modBlk Block.step) := by
  have hhigh : (s.g a).extractLsb' 32 32 = 0#32 := by
    apply BitVec.eq_of_toNat_eq
    rw [BitVec.extractLsb'_toNat, Nat.shiftRight_eq_div_pow, Nat.div_eq_of_lt hw]
    rfl
  have hcmd : ((s.g a).extractLsb' 32 32 != 0#32 || !xcpWord ((s.g a).setWidth 32)) = false := by
    rw [hhigh, hx]
    rfl
  change execXcp a b s = _
  unfold execXcp
  simp only [extract_low_eq_setWidth, hcmd, Bool.false_eq_true, if_false]

/-! ### Energy -/

section

variable {s : State} {k : Nat} {j : Job} (hj : (s.core k).job = some j) (x : Nat)
include hj

/-- An amount is metered at its core and put on its function's account (R140, R262). -/
theorem meter_core : ((s.meter k x).core k).meterFunc = (s.core k).meterFunc + x ∧
    ((s.meter k x).core k).meterJob = (s.core k).meterJob + x := by
  unfold State.meter
  by_cases hx : x = 0
  · simp [hx]
  · simp [hx, hj, account_core]

theorem meter_func : ((s.meter k x).func j.func).total = (s.func j.func).total + x ∧
    ((s.meter k x).func j.func).spent = (s.func j.func).spent + x := by
  unfold State.meter State.account
  by_cases hx : x = 0
  · simp [hx]
  · simp [hx, hj]

theorem meter_func_ne {f : Byte} (hf : f ≠ j.func) : (s.meter k x).func f = s.func f := by
  unfold State.meter State.account
  by_cases hx : x = 0
  · simp [hx]
  · simp [hx, hj, State.func_modFunc_ne _ _ hf]

end

theorem charge_one (s : State) (k c : Nat) : s.charge k 0 c 0xF 1 = s.meter k (s.rate 0 c 0xF * s.calib k) := by
  unfold State.charge
  rw [Nat.one_mul]

/-- What a word that writes rd leaves of the accounts of its charge. -/
theorem putG_accounts (s : State) (c : Nat) (d : BitVec 5) (v : Dword) :
    let u := s.charge s.cur.k.val 0 c 0xF 1
    let t := s.putG c d v
    t.me.meterFunc = u.me.meterFunc ∧ t.me.meterJob = u.me.meterJob ∧ t.me.funcOf = u.me.funcOf ∧ (∀ f, t.func f = u.func f) := by
  intro u t
  have hme : t.me = { u.me with q := u.me.q.set u.cur.q.val (u.blk.setReg d v).step } := State.core_modCore_self ..
  rw [hme]
  exact ⟨rfl, rfl, rfl, fun _ => rfl⟩

theorem charge_one_me (s : State) (c : Nat) : (s.charge s.cur.k.val 0 c 0xF 1).me =
    (s.meter s.cur.k.val (s.rate 0 c 0xF * s.calib s.cur.k.val)).core s.cur.k.val := by
  rw [State.me, charge_cur, charge_one]

/-- What a word of one unit of class c that writes rd charges (R111, R262). -/
theorem putG_charges {s : State} {j : Job} (hj : s.me.job = some j) (c : Nat) (d : BitVec 5) (v : Dword) :
    let x := s.rate 0 c 15 * s.calib s.cur.k.val
    let t := s.putG c d v
    t.me.meterFunc = s.me.meterFunc + x ∧ t.me.meterJob = s.me.meterJob + x ∧
      (t.func j.func).total = (s.func j.func).total + x ∧ (t.func j.func).spent = (s.func j.func).spent + x ∧
      (∀ f, f ≠ j.func → t.func f = s.func f) ∧ t.commons = s.commons := by
  intro x t
  obtain ⟨hfm, hjm, -, hfunc⟩ := putG_accounts s c d v
  rw [charge_one_me] at hfm hjm
  simp only [charge_one] at hfunc
  obtain ⟨hfunc', hjob'⟩ := meter_core hj x
  obtain ⟨htotal, hspent⟩ := meter_func hj x
  refine ⟨hfm.trans hfunc', hjm.trans hjob', by rw [hfunc]; exact htotal, by rw [hfunc]; exact hspent,
    fun f hf => (hfunc f).trans (meter_func_ne hj x hf), ?_⟩
  have := congrArg State.commons (charge_step s s.cur.k.val 0 c 0xF 1).rest
  exact this

/-- A function's quota and its debt are no energy accounts (R264). -/
theorem remain_charge (s : State) (k c : Nat) (f : Byte) : ((s.charge k 0 c 0xF 1).func f).remain =
    ((s.func f).quotaNow : Int) - (((s.charge k 0 c 0xF 1).func f).spent / (2 ^ 22 * 1000000) : Nat) + (s.func f).debt := by
  have hrest := (charge_step s k 0 c 0xF 1).funcs f
  have hquota : ((s.charge k 0 c 0xF 1).func f).quotaNow = (s.func f).quotaNow := by
    have := congrArg Func.quotaNow hrest
    exact this
  have hdebt : ((s.charge k 0 c 0xF 1).func f).debt = (s.func f).debt := by
    have := congrArg Func.debt hrest
    exact this
  rw [Func.remain, hquota, hdebt]
  rfl

theorem mrd_func (s : State) (d : BitVec 5) :
    exec (.mrd d .func) s = .next (s.putG 0 d (BitVec.ofNat 64 (s.seqCharge.me.meterFunc / 2 ^ 22))) := rfl

theorem mrd_job (s : State) (d : BitVec 5) :
    exec (.mrd d .job) s = .next (s.putG 0 d (BitVec.ofNat 64 (s.seqCharge.me.meterJob / 2 ^ 22))) := rfl

theorem mrd_quota (s : State) (d : BitVec 5) :
    exec (.mrd d .quota) s = .next (s.putG 0 d (BitVec.ofInt 64 (s.seqCharge.func s.seqCharge.me.funcOf).remain)) := rfl

/-! ### The return from a handler -/

/-- The block stream b back from its handler, with its code (R148). -/
def returned (code : List Word) (b : Block) : Block :=
  { b with pc := b.trpc.setWidth 64, hnd := false, trprog := if isRun ((code[b.trpc.toNat]?).getD 0#32) then b.trprog else 0#5 }

theorem eret_eq (s : State) : s.eret = s.modBlk (returned (vget s.me.code s.cur.q.val [])) := rfl

/-- A word outside the section is no run. -/
theorem isRun_fetched_iff (x : Option Word) : isRun (x.getD 0#32) = true ↔
    ∃ f b l, x.map (decodeWord .seq) = some (.ok (.spillm f b l)) ∨ x.map (decodeWord .seq) = some (.ok (.fillm f b l)) := by
  cases x with
  | none => simp [show isRun 0#32 = false from rfl]
  | some w => simp [isRun_iff, decodeWord]

end Sys2Proof.Safety

section

open Sys2Proof Sys2Proof.Machine Sys2Proof.Safety

/-- Settles O20: a word that xcp may queue is assigned and holds no token (`and_15_eq_zero_iff`), and with one in ra the entry joins the queue
or the state stays (`xcp_queues`). -/
theorem xcpQueuesACommand : Obligations.XcpQueuesACommand := by
  unfold Obligations.XcpQueuesACommand
  refine ⟨fun w h => ?_, fun w x m h hd => ?_, fun w x h hd => ?_, fun s a b hw hx => ⟨fun hfull => ?_, fun hroom => ?_⟩⟩
  · rw [xcpWord, Bool.and_eq_true, beq_iff_eq, and_15_eq_zero_iff] at h
    obtain ⟨htok, h⟩ := h
    change ∃ i, decodeXfer w = .ok i ∧ _
    cases hd : decodeXfer w with
    | error e =>
      rw [hd] at h
      cases h
    | ok i =>
      rw [hd] at h
      refine ⟨i, rfl, htok, ?_, ?_, ?_, ?_⟩
      · rintro t rfl
        cases h
      · rintro g t rfl
        cases h
      · rintro r m t rfl
        cases h
      · rintro t rfl
        cases h
  · have hd : decodeXfer w = .ok (.xcpy x m) := hd
    rw [xcpWord, hd, and_15_eq_zero_iff.2 h]
    cases m <;> rfl
  · have hd : decodeXfer w = .ok (.xcfg x) := hd
    rw [xcpWord, hd, and_15_eq_zero_iff.2 h]
    rfl
  · exact (xcp_queues hw hx).trans (if_pos hfull)
  · refine ⟨_, (xcp_queues hw hx).trans (if_neg (Nat.not_le.2 hroom)), ?_⟩
    exact coreWord_step s (fun c => { c with x := { c.x with queue := c.x.queue ++ [_] } }) fun _ => rfl

/-- Settles O23: the charge of a word of one unit meters rate times calibration (`charge_one`), at the core and at the function (`meter_core`,
`meter_func`), and mrd puts in rd what the accounts hold after its own charge. -/
theorem energyIsChargedAndRead : Obligations.EnergyIsChargedAndRead := by
  unfold Obligations.EnergyIsChargedAndRead
  refine ⟨fun s d => ⟨⟨_, mrd_func s d, ?_⟩, ⟨_, mrd_job s d, ?_⟩, ⟨_, mrd_quota s d, ?_⟩⟩, ?_⟩
  · rw [(putG_accounts ..).1]
    exact putG_puts ..
  · rw [(putG_accounts ..).2.1]
    exact putG_puts ..
  · obtain ⟨-, -, hfuncOf, hfunc⟩ := putG_accounts s 0 d (BitVec.ofInt 64 (s.seqCharge.func s.seqCharge.me.funcOf).remain)
    rw [hfuncOf, hfunc]
    exact putG_puts ..
  · intro s d a b j hj x r charged
    obtain ⟨hmeter, hjob⟩ := meter_core hj x
    rw [← charge_one_me] at hmeter hjob
    have hspent := (meter_func hj x).2
    rw [← charge_one] at hspent
    have hfuncOf : s.seqCharge.me.funcOf = j.func := by
      rw [State.me, seqCharge_cur, (seqCharge_step s).funcOf, Core.funcOf, hj]
      rfl
    refine ⟨⟨_, rfl, putG_charges hj 0 d _⟩, ⟨_, rfl, putG_charges hj 1 d _⟩, gives_putG (mrd_func s d) ?_, gives_putG (mrd_job s d) ?_,
      gives_putG (mrd_quota s d) ?_⟩
    · exact congrArg (fun n => BitVec.ofNat 64 (n / 2 ^ 22)) hmeter
    · exact congrArg (fun n => BitVec.ofNat 64 (n / 2 ^ 22)) hjob
    · rw [hfuncOf, State.seqCharge, remain_charge, hspent]

/-- Settles O28: eret is one change of its block stream (`charge_modBlk`), which keeps TRPROG only for a run at TRPC. -/
theorem eretReturns : Obligations.EretReturns := by
  unfold Obligations.EretReturns
  intro s h w run
  have hu := seqCharge_step s
  have hcode : vget s.seqCharge.me.code s.seqCharge.cur.q.val [] = s.me.code[s.cur.q.val] := by
    have := congrArg Core.code hu.core
    have hq : s.cur.q.val < 8 := by omega
    rw [State.me, hu.cur, vget_lt _ _ _ hq]
    exact congrArg (fun v : Vector (List Word) 8 => v[s.cur.q.val]) this
  have hexec : exec .eret s = .next (s.seqCharge.modBlk (returned s.me.code[s.cur.q.val])) := by
    rw [← hcode, ← eret_eq]
    exact if_pos h
  have hrun : isRun (w.getD 0#32) = true ↔ run := isRun_fetched_iff w
  have hpc : BitVec.ofNat 64 s.blk.trpc.toNat = s.blk.trpc.setWidth 64 := BitVec.ofNat_toNat ..
  rw [hpc]
  exact ⟨_, if isRun (w.getD 0#32) then s.blk.trprog else 0#5, hexec, charge_modBlk s 0 0 0xF 1 _, fun h => if_pos (hrun.2 h),
    fun h => if_neg (mt hrun.1 h)⟩

end
end

section
/-! SUPPORT. Traps that no resolution answers (R106, R107, R142, R145, R147, R151): which words take them, and what follows with an installed
handler and without one. -/

namespace Sys2Proof.Safety

open Sys2Proof.Machine

/-! ### Job faults -/

/-- The acts in which the job j of core k stops after its fault: on this core, and on the others of its team that still run it (R155). -/
def hardStops (s : State) (k : Nat) (j : Job) : List Act :=
  let team := ((s.die (k / 192)).teams.find? fun t => t.id == j.team).map fun t => t.cores
  let others := (team.getD []).filter fun i => i != k && (s.core i).job.any fun o => o.team == j.team
  (k :: others).map fun c => .event (.hardStop (Fin.ofNat 1536 c))

/-- Which cores stop is read off the die and the other cores. -/
theorem hardStops_congr {s t : State} {k : Nat} (j : Job) (hd : t.die (k / 192) = s.die (k / 192)) (hc : ∀ i, i ≠ k → t.core i = s.core i) :
    hardStops t k j = hardStops s k j := by
  have hfilter : (fun i => i != k && (t.core i).job.any fun o => o.team == j.team) =
      fun i => i != k && (s.core i).job.any fun o => o.team == j.team := by
    funext i
    by_cases hi : i = k
    · simp [hi]
    · rw [hc i hi]
  unfold hardStops
  rw [hd, hfilter]

/-- The core c whose job has the fault record r. -/
def withFault (r : FaultRec) (c : Core) : Core := { c with fault := some r }

/-- The first fault of a job: its record, and the hard stops of the next clk (R151, R155). -/
theorem jobFault_eq_hardStops {t : State} {k : Nat} {j : Job} (cause : Byte) (info : Dword) (stream : Nat) (pc : Word)
    (hj : (t.core k).job = some j) (hf : (t.core k).fault = none) : t.jobFault k cause info stream pc =
      (t.modCore k (withFault ⟨cause, info, BitVec.ofNat 8 stream, pc, 0#8⟩)).later (hardStops t k j) := by
  have hsame (f : Core → Core) : hardStops (t.modCore k f) k j = hardStops t k j :=
    hardStops_congr j rfl fun _ hi => State.core_modCore_ne t f hi
  rw [← hsame (withFault ⟨cause, info, BitVec.ofNat 8 stream, pc, 0#8⟩)]
  unfold State.jobFault
  dsimp only
  split
  next i hi _ =>
    obtain rfl : i = j := Option.some.inj (hi.symm.trans hj)
    rfl
  next hother => exact absurd hf (hother j hj)

section
variable {s t : State} {k : Nat} {c : Core} (h : CoreStep s t k c)
include h

theorem CoreStep.later (l : List Act) : CoreStep (s.later l) (t.later l) k c := by
  refine ⟨?_, h.core, h.cores, h.funcs, h.mem⟩
  rw [h.rest]
  rfl

/-- The first fault of a job after a step of its core. -/
theorem CoreStep.jobFault {j : Job} (cause : Byte) (info : Dword) (stream : Nat) (pc : Word) (hj : c.job = some j) (hf : c.fault = none) :
    CoreStep (s.later (hardStops s k j)) (t.jobFault k cause info stream pc) k
      (withFault ⟨cause, info, BitVec.ofNat 8 stream, pc, 0#8⟩ c) := by
  rw [jobFault_eq_hardStops cause info stream pc (h.job.trans hj) (h.fault.trans hf), hardStops_congr j (h.die _) h.cores]
  exact (h.modCore (withFault _) fun _ _ hxy => congrArg (withFault _) hxy).later _

end

/-! ### Words that trap -/

/-- A trap that no resolution answers and no handler can take faults the job (R147). -/
theorem trap_unhandled {t : State} {cause : Byte} (sub : Byte) (info : Dword) (hx : cause ≠ cXLATE) (hp : cause ≠ cPERM)
    (hn : t.blk.trvec.getLsbD 32 = false ∨ t.blk.hnd = true) :
    t.trap cause sub info =
      (t.modBlk (trapNoted cause sub info)).jobFault t.cur.k.val cause info t.cur.q.val (t.blk.pc.setWidth 32) := by
  have hnoted : (t.modBlk fun b => { b with trcause := cause, trsub := sub, trinfo := info, trpc := t.blk.pc.setWidth 32, busy := false }) =
    t.modBlk (trapNoted cause sub info) := rfl
  have hfinal : (cause == cXLATE || cause == cPERM) = false := by simp [hx, hp]
  have hunhandled : (!(trapNoted cause sub info t.blk).trvec.getLsbD 32 || (trapNoted cause sub info t.blk).hnd) = true := by
    change (!t.blk.trvec.getLsbD 32 || t.blk.hnd) = true
    simpa using hn
  unfold State.trap
  simp only [hnoted, blk_modBlk, hfinal, hunhandled, Bool.false_and, Bool.false_eq_true, if_false, if_true]
  rfl

/-- The word i traps with this cause, sub-code and information, at most its charge made before (R111). -/
def Traps (i : Instr) (s : State) (cause sub : Byte) (info : Nat) : Prop :=
  ∃ u, CoreStep s u s.cur.k.val s.me ∧ exec i s = .next (u.trap cause sub (BitVec.ofNat 64 info))

section
variable {s : State}

theorem trap_traps (c : BitVec 16) : Traps (.trap c) s cSOFTWARE 0x00#8 c.toNat :=
  ⟨_, seqCharge_step s, zext_eq_ofNat c ▸ rfl⟩

theorem unassignedEncoding_traps (w : Word) : Traps (.unassignedEncoding w) s cILLEGAL 0x00#8 w.toNat :=
  ⟨_, .refl .., zext_eq_ofNat w ▸ rfl⟩

theorem fetchRangeError_traps (h : s.cur.st.opMap = .seq) : Traps .fetchRangeError s cILLEGAL 0x01#8 s.blk.pc.toNat := by
  refine ⟨s, .refl .., ?_⟩
  change execFetchRangeError s = _
  unfold execFetchRangeError
  rw [h, BitVec.ofNat_toNat, BitVec.setWidth_eq]

theorem srd_traps {r : BitVec 11} (d : BitVec 5) (h : s.sysRead r = none) : Traps (.srd d r) s cILLEGAL 0x02#8 r.toNat := by
  refine ⟨_, seqCharge_step s, ?_⟩
  change execSrd d r s = _
  unfold execSrd
  rw [h, zext_eq_ofNat]

theorem swr_traps {r : BitVec 11} (a : BitVec 5) (h0 : r ≠ 0x040#11) (h2 : r ≠ 0x042#11) (h4 : r ≠ 0x044#11) :
    Traps (.swr a r) s cILLEGAL 0x02#8 r.toNat := by
  refine ⟨_, seqCharge_step s, ?_⟩
  change execSwr a r s = _
  unfold execSwr
  simp only [if_neg h0, if_neg h2, if_neg h4, zext_eq_ofNat]

theorem eret_traps (h : s.blk.hnd = false) : Traps .eret s cILLEGAL 0x03#8 0 := by
  refine ⟨_, seqCharge_step s, ?_⟩
  change execEret s = _
  unfold execEret
  exact if_neg (by simp [h])

theorem jstart_traps {q : Fin 4} (p : BitVec 3) (a b : BitVec 5) (h : q = s.cur.q ∨ s.me.q[q.val].st = .absent) :
    Traps (.jstart p a b (BitVec.ofNat 2 q.val)) s cILLEGAL 0x04#8 q.val := by
  have hq : (BitVec.ofNat 2 q.val).toNat = q.val := Nat.mod_eq_of_lt q.isLt
  refine ⟨_, seqCharge_step s, ?_⟩
  change execJstart p a b (BitVec.ofNat 2 q.val) s = _
  unfold execJstart
  simp only [hq, zext_eq_ofNat, Fin.eta]
  exact if_pos (by simpa [seqCharge_cur] using h)

theorem xcp_traps {a : BitVec 5} (b : BitVec 5) (h : 2 ^ 32 ≤ (s.g a).toNat ∨ xcpWord ((s.g a).setWidth 32) = false) :
    Traps (.xcp a b) s cILLEGAL 0x05#8 (s.g a).toNat := by
  have hhigh : 2 ^ 32 ≤ (s.g a).toNat → (s.g a).extractLsb' 32 32 ≠ 0#32 := fun hw he => by
    have := (s.g a).isLt
    have := congrArg BitVec.toNat he
    rw [BitVec.extractLsb'_toNat, Nat.shiftRight_eq_div_pow, BitVec.toNat_ofNat] at this
    omega
  refine ⟨_, seqCharge_step s, ?_⟩
  change execXcp a b s = _
  unfold execXcp
  simp only [extract_low_eq_setWidth, BitVec.ofNat_toNat, BitVec.setWidth_eq]
  exact if_pos (by simpa using h.imp_left hhigh)

variable {i : Instr} {cause sub : Byte} {info : Nat} (h : Traps i s cause sub info) (hx : cause ≠ cXLATE) (hp : cause ≠ cPERM)
include h hx hp

/-- With a handler installed and not running the trap goes to it (R147). -/
theorem Traps.handled (hv : s.blk.trvec.getLsbD 32 = true) (hh : s.blk.hnd = false) :
    ∃ t, exec i s = .next t ∧ CoreStep s t s.cur.k.val (Core.switch (blkCore s
      { s.blk with trcause := cause, trsub := sub, trinfo := BitVec.ofNat 64 info, trpc := BitVec.ofNat 32 s.blk.pc.toNat,
                   hnd := true, pc := BitVec.ofNat 64 (s.blk.trvec.toNat % 2 ^ 32), busy := false })) := by
  obtain ⟨u, hu, hexec⟩ := h
  have hstep := hu.trap sub (BitVec.ofNat 64 info) hx hp hv hh
  rw [atHandler_trapNoted] at hstep
  exact ⟨_, hexec, hstep⟩

/-- With no handler that can take it the trap faults the job (R147, R151). -/
theorem Traps.faults {j : Job} (hn : s.blk.trvec.getLsbD 32 = false ∨ s.blk.hnd = true) (hj : s.me.job = some j) (hf : s.me.fault = none) :
    ∃ t, exec i s = .next t ∧ CoreStep (s.later (hardStops s s.cur.k.val j)) t s.cur.k.val
      { s.me with
        fault := some ⟨cause, BitVec.ofNat 64 info, BitVec.ofNat 8 s.cur.q.val, BitVec.ofNat 32 s.blk.pc.toNat, 0#8⟩,
        q := s.me.q.set s.cur.q.val { s.blk with trcause := cause, trsub := sub, trinfo := BitVec.ofNat 64 info,
                                                 trpc := BitVec.ofNat 32 s.blk.pc.toNat, busy := false } } := by
  obtain ⟨u, hu, hexec⟩ := h
  have hblk : u.blk = s.blk := hu.blk
  rw [trap_unhandled sub _ hx hp (hblk ▸ hn), hu.cur, hblk] at hexec
  refine ⟨_, hexec, ?_⟩
  rw [BitVec.ofNat_toNat]
  exact (hu.modBlk (trapNoted cause sub (BitVec.ofNat 64 info))).jobFault cause _ s.cur.q.val (s.blk.pc.setWidth 32) hj hf

end

/-- The numbers that no system register has (R96). -/
theorem sysRead_unassigned (s : State) {r : BitVec 11}
    (h : (0x00A < r.toNat ∧ r.toNat < 0x010) ∨ (0x013 < r.toNat ∧ r.toNat < 0x020) ∨ 0x044 < r.toNat) : s.sysRead r = none := by
  unfold State.sysRead
  dsimp only
  iterate 18 rw [if_neg (by omega)]

/-- A number that no word may write has no row of its own (R98, R141). -/
theorem swrSpecial_eq_false {r : BitVec 11} (hr : r.toNat ∉ [5, 6, 0x010, 0x011, 0x012, 0x013, 0x040, 0x042, 0x044])
    (hn : ¬ (0x020 ≤ r.toNat ∧ r.toNat < 0x040)) : swrSpecial r = false := by
  simp only [List.mem_cons, List.not_mem_nil, or_false, not_or] at hr
  simp only [swrSpecial, BitVec.le_def, ← BitVec.toNat_inj, BitVec.toNat_ofNat, Nat.reducePow, Nat.reduceMod, Bool.or_eq_false_iff,
    beq_eq_false_iff_ne, ne_eq, Bool.and_eq_false_imp, decide_eq_true_eq, decide_eq_false_iff_not, not_le]
  omega

/-- A number without a write of its own is that of an `swr` (R98, R141). -/
theorem decodeWord_swr {r : BitVec 11} (a : BitVec 5) (h : swrSpecial r = false) :
    decodeWord .seq (0x2A#6 ++ 0#5 ++ a ++ 0#5 ++ r) = .ok (.swr a r) :=
  decodeWord_of_encode (by simpa [Instr.wf] using h) rfl

end Sys2Proof.Safety

section

open Sys2Proof Sys2Proof.Machine Sys2Proof.Safety

/-- Settles O24: each of the words traps (`Traps`), and a trap of a cause that is not resolvable goes to the installed handler
(`Traps.handled`). -/
theorem trapsGoToTheHandler : Obligations.TrapsGoToTheHandler := by
  unfold Obligations.TrapsGoToTheHandler
  intro s a b d p hv hh traps
  have hillegal {i : Instr} {sub : Byte} {info : Nat} (h : Traps i s cILLEGAL sub info) : traps i cILLEGAL sub info :=
    h.handled (by decide) (by decide) hv hh
  refine ⟨fun c => (trap_traps c).handled (by decide) (by decide) hv hh, fun w => hillegal (unassignedEncoding_traps w),
    fun h => hillegal (fetchRangeError_traps h), fun r hr => hillegal (srd_traps d (sysRead_unassigned s hr)), fun r hr hn => ⟨?_, ?_⟩,
    hillegal (eret_traps hh), fun q hq => hillegal (jstart_traps p a b hq), fun h => hillegal (xcp_traps b h)⟩
  · exact decodeWord_swr a (swrSpecial_eq_false hr hn)
  · have hne {n : BitVec 11} (hn : n.toNat ∈ [5, 6, 0x010, 0x011, 0x012, 0x013, 0x040, 0x042, 0x044]) : r ≠ n := fun h => hr (h ▸ hn)
    exact hillegal (swr_traps a (hne (by decide)) (hne (by decide)) (hne (by decide)))

/-- Settles O26: each of the three traps (`Traps`), and a trap that no handler can take faults the job (`Traps.faults`). -/
theorem trapsWithoutAHandlerFaultTheJob : Obligations.TrapsWithoutAHandlerFaultTheJob := by
  unfold Obligations.TrapsWithoutAHandlerFaultTheJob
  intro s j hn hj hf k team others faults
  exact ⟨fun c => (trap_traps c).faults (by decide) (by decide) hn hj hf,
    fun w => (unassignedEncoding_traps w).faults (by decide) (by decide) hn hj hf,
    fun h => (fetchRangeError_traps h).faults (by decide) (by decide) hn hj hf⟩

end
end

section
/-! SUPPORT. Resolvable traps (R53, R147, R149): an access whose page the walk or its checks refuse posts a fault entry, and its block stream
waits for the resolution. -/

namespace Sys2Proof.Machine

/-- A translation whose page no cached one covers, and whose walk or checks fail, has read the entries of its walk and gives the cause. -/
theorem translate_fails {s : State} {k : Nat} {f : Byte} {va : Nat} {acc : Access} {seq : Bool} {z : Byte}
    (hmiss : ∀ e ∈ (s.core k).tlb, ¬ (e.func = f ∧ e.vpage = va / 0x10000)) (hc : s.check f va acc seq false = .error z) :
    s.translate k f va acc seq = (.error z, s.walked k (s.walkReads f va)) := by
  have hnone : ((s.core k).tlb.find? fun e => e.func == f && e.vpage == va / 0x10000) = none := by
    rw [List.find?_eq_none]
    intro e he
    simpa using hmiss e he
  unfold State.translate
  simp only [hnone, hc, Option.map_none, Option.isSome_none, Bool.not_true, Bool.false_and, Bool.false_eq_true, if_true, if_false]
  rfl

theorem seqLocate_virt_fails {t u : State} {ad : Dword} {n va : Nat} {acc : Access} {z : Byte} (hp : placeOf ad n = .ok (.virt va))
    (ht : t.translate t.cur.k.val t.me.funcOf va acc true = (.error z, u)) (hz : z ≠ cOWNER) : t.seqLocate ad n acc = (.error z, u) := by
  unfold State.seqLocate
  simp only [hp, ht, beq_iff_eq, hz, if_false]

/-! ### What a check refuses -/

theorem check_of_walk_error {s : State} {f : Byte} {va : Nat} {z : Byte} (acc : Access) (seq part : Bool) (h : s.walk f va = .error z) :
    s.check f va acc seq part = .error z := by
  unfold State.check
  rw [h]

section
variable {s : State} {f : Byte} {va : Nat} {lf : Leaf} (seq : Bool) (h : s.walk f va = .ok lf)
include h

/-- A write behind a leaf that forbids it (R52). -/
theorem check_of_leaf_readonly (part : Bool) (hw : lf.w = false) : s.check f va .write seq part = .error cPERM := by
  unfold State.check
  simp [h, hw]

/-- A write to a page whose owner lets it be read only (R51, R52). -/
theorem check_of_owner_readonly (hw : lf.w = true) (hp : s.populated lf.base lf.size = true) (hx : isCxl (lf.base + va % lf.size) = false)
    (hv : (s.rotOf (lf.base + va % lf.size)).getLsbD 8 = true) (hr : (s.rotOf (lf.base + va % lf.size)).getLsbD 10 = false)
    (ho : ((s.rotOf (lf.base + va % lf.size)).extractLsb' 0 7).toNat = f.toNat)
    (hro : (s.rotOf (lf.base + va % lf.size)).getLsbD 9 = true) : s.check f va .write seq false = .error cPERM := by
  unfold State.check
  simp [h, hw, hp, hx, hv, hr, ho, hro, -BitVec.getLsbD_eq_getElem]

end

/-! ### The fault queue -/

/-- The die number d whose fault queue has taken entry e under the next id (R149, log 70). -/
def withEntry (d : Nat) (e : FaultEntry) (x : Die) : Die :=
  { x with fq := x.fq ++ [{ e with id := BitVec.ofNat 32 (8 * x.nextEntry.toNat + d) }], nextEntry := x.nextEntry + 1#32 }

/-- With a free entry and no event ring to report to, posting a fault is putting it in the queue (R149, R241). -/
theorem postFault_eq {s : State} {e : FaultEntry} (hfree : (s.die (coreDie e.core)).fq.length < 256) (hring : (s.func e.func).ring = none) :
    s.postFault e = s.modDie (coreDie e.core) (withEntry (coreDie e.core) e) := by
  unfold State.postFault
  dsimp only
  rw [if_pos hfree]
  unfold State.postedEvent State.event
  rw [State.func_modDie, hring]
  rfl

/-- The block stream b waits for a resolution (R149). -/
def awaitsResolution (b : Block) : Block := { b with st := .waiting, resol := true }

/-- The fault entry, without its id, of a trap of the acting block stream (R149). -/
def trapEntry (s : State) (cause : Byte) (info : Dword) : FaultEntry :=
  ⟨0#32, s.me.jobFunc, s.cur.k.val, BitVec.ofNat 8 s.cur.q.val, s.me.jobTeam, s.me.jobRank, none, cause, info, none⟩

end Sys2Proof.Machine

namespace Sys2Proof.Safety

open Sys2Proof.Machine

/-- What a die observes is no part of its fault queue (R66, R149). -/
theorem observe_faultQueue (s : State) {d : Nat} (hd : d < 8) (h : Nat) :
    ((s.observe d h).die d).fq = (s.die d).fq ∧ ((s.observe d h).die d).nextEntry = (s.die d).nextEntry := by
  unfold State.observe
  rw [State.die_modDie_self _ _ _ hd]
  exact ⟨rfl, rfl⟩

theorem observed_faultQueue (s : State) {d : Nat} (hd : d < 8) (hs : List Nat) :
    ((observed s d hs).die d).fq = (s.die d).fq ∧ ((observed s d hs).die d).nextEntry = (s.die d).nextEntry := by
  unfold observed
  induction hs generalizing s with
  | nil => exact ⟨rfl, rfl⟩
  | cons h rest ih =>
    obtain ⟨hfq, hnext⟩ := ih (s.observe d h)
    obtain ⟨hfq', hnext'⟩ := observe_faultQueue s hd h
    exact ⟨hfq.trans hfq', hnext.trans hnext'⟩

/-- A change of a die goes with a step of a core. -/
theorem CoreStep.modDie {s t : State} {k : Nat} {c : Core} (h : CoreStep s t k c) (d : Nat) (f : Die → Die) :
    CoreStep (s.modDie d f) (t.modDie d f) k c := by
  refine ⟨?_, h.core, h.cores, h.funcs, h.mem⟩
  rw [h.rest]
  rfl

theorem CoreStep.ring {s t : State} {k : Nat} {c : Core} (h : CoreStep s t k c) (f : Byte) : (t.func f).ring = (s.func f).ring := by
  have := congrArg Func.ring (h.funcs f)
  exact this

/-- A trap that a resolution answers is posted, and its block stream waits (R147, R149). -/
theorem trap_resolvable {t : State} {cause : Byte} (sub : Byte) (info : Dword) (hc : cause = cXLATE ∨ cause = cPERM)
    (hm : t.blk.trvec.getLsbD 33 = false) : t.trap cause sub info =
      (((t.modBlk (trapNoted cause sub info)).postFault (trapEntry (t.modBlk (trapNoted cause sub info)) cause info)).modBlk
        awaitsResolution).endBlock := by
  have hnoted : (t.modBlk fun b => { b with trcause := cause, trsub := sub, trinfo := info, trpc := t.blk.pc.setWidth 32, busy := false }) =
    t.modBlk (trapNoted cause sub info) := rfl
  have hresolvable : ((cause == cXLATE || cause == cPERM) && !(trapNoted cause sub info t.blk).trvec.getLsbD 33) = true := by
    change ((cause == cXLATE || cause == cPERM) && !t.blk.trvec.getLsbD 33) = true
    rw [hm, Bool.not_false, Bool.and_true, Bool.or_eq_true, beq_iff_eq, beq_iff_eq]
    exact hc
  unfold State.trap
  simp only [hnoted, blk_modBlk, hresolvable, if_true]
  rfl

/-- A posted trap after a step that has not changed the acting block stream. -/
theorem CoreStep.trap_posts {s t : State} {j : Job} {cause : Byte} (sub : Byte) (info : Dword) (h : CoreStep s t s.cur.k.val s.me)
    (hj : s.me.job = some j) (hc : cause = cXLATE ∨ cause = cPERM) (hm : s.blk.trvec.getLsbD 33 = false)
    (hfree : (s.die (s.cur.k.val / 192)).fq.length < 256) (hring : (s.func j.func).ring = none) :
    CoreStep (s.modDie (s.cur.k.val / 192) (withEntry (s.cur.k.val / 192) (trapEntry s cause info))) (t.trap cause sub info) s.cur.k.val
      (Core.switch (blkCore s (awaitsResolution (trapNoted cause sub info s.blk)))) := by
  have hnoted := h.modBlk (trapNoted cause sub info)
  have hentry : trapEntry (t.modBlk (trapNoted cause sub info)) cause info = trapEntry s cause info := by
    unfold trapEntry Core.jobFunc Core.jobTeam Core.jobRank
    rw [State.me, hnoted.cur, hnoted.job]
  have hfunc : (trapEntry s cause info).func = j.func := by
    unfold trapEntry Core.jobFunc
    rw [hj]
    rfl
  rw [trap_resolvable sub info hc (h.blk ▸ hm), hentry, postFault_eq (by rw [hnoted.die]; exact hfree) (by rw [hfunc, hnoted.ring, hring])]
  have hend := ((hnoted.modDie (s.cur.k.val / 192) (withEntry (s.cur.k.val / 192) (trapEntry s cause info))).modBlk_at rfl awaitsResolution).endBlock
  simp only [Vector.getElem_set_self, Vector.set_set] at hend
  exact hend

theorem ne_cOWNER {z : Byte} (hz : z = cXLATE ∨ z = cPERM) : z ≠ cOWNER := by
  rcases hz with rfl | rfl <;> decide

/-! ### Accesses whose page is refused -/

/-- The n bytes at address va are behind a page that no cached translation covers, and that its walk or its checks refuse to an access of the
acting core for this cause (R52, R53). -/
def Refused (s : State) (va n : Nat) (acc : Access) (z : Byte) : Prop :=
  0 < n ∧ va + n ≤ 2 ^ 48 ∧ (∀ e ∈ s.me.tlb, ¬ (e.func = s.me.funcOf ∧ e.vpage = va / 0x10000)) ∧ s.check s.me.funcOf va acc true false = .error z

section
variable {s : State} {ad : Dword} {n : Nat} {acc : Access} {z : Byte}

/-- Such an access finds no location, also in the state in which its word has been charged (R124); its walk has read entries. -/
theorem Refused.fails (h : Refused s ad.toNat n acc z) (hz : z ≠ cOWNER) {t : State} (ht : CoreStep s t s.cur.k.val s.me) :
    ∃ u hs, t.seqLocate ad n acc = (.error z, u) ∧ CoreStep (observed s (s.cur.k.val / 192) hs) u s.cur.k.val s.me := by
  obtain ⟨h0, hva, hmiss, hcheck⟩ := h
  have hp : placeOf ad n = .ok (.virt ad.toNat) := by
    have hlow : ad.toNat % 2 ^ 48 = ad.toNat := Nat.mod_eq_of_lt (by omega)
    rw [placeOf_virt (by omega) (by omega) (by omega), hlow]
  have hmem : t.mem = s.mem := by rw [ht.rest]
  have hrot : t.rot = s.rot := by rw [ht.rest]
  have hcxl : t.cxl = s.cxl := by rw [ht.rest]
  have hfunc : t.me.funcOf = s.me.funcOf := by rw [State.me, ht.cur, ht.funcOf]
  have hcheck' : t.check s.me.funcOf ad.toNat acc true false = .error z := by
    rwa [check_congr hmem ht.poison (ht.troot _) hrot hcxl]
  have htr := translate_fails (k := s.cur.k.val) (by rwa [ht.tlb]) hcheck'
  exact ⟨_, _, seqLocate_virt_fails hp (by rw [ht.cur, hfunc]; exact htr) hz, ht.walked _⟩

end

theorem Refused.lt {s : State} {va n : Nat} {acc : Access} {z : Byte} (h : Refused s va n acc z) : va < 2 ^ 48 := by
  obtain ⟨h0, hva, -, -⟩ := h
  omega

/-- The address of an M form, where it is that of a virtual address. -/
theorem mAddr_of_lt {s : State} {a : BitVec 5} {i : BitVec 16} {va : Nat} (ha : (s.g a).toInt + i.toInt = va) (hva : va < 2 ^ 48) :
    s.mAddr a i = BitVec.ofNat 64 va ∧ (s.mAddr a i).toNat = va := by
  have haddr : s.mAddr a i = BitVec.ofNat 64 va := by rw [mAddr_eq, ha, BitVec.ofInt_natCast]
  refine ⟨haddr, ?_⟩
  rw [haddr, BitVec.toNat_ofNat]
  omega

section
variable {s : State} {d a : BitVec 5} {i : BitVec 16} {n : Nat} {z : Byte}

/-- A load whose page is refused traps (R123, R124). -/
theorem load_refused (ext : Nat → Dword) (h : Refused s (s.mAddr a i).toNat n .read z) (hz : z ≠ cOWNER) :
    ∃ u hs, s.load d a i n ext = u.trap z 0#8 (s.mAddr a i) ∧ CoreStep (observed s (s.cur.k.val / 192) hs) u s.cur.k.val s.me := by
  obtain ⟨u, hs, hloc, hu⟩ := h.fails hz (charge_step s s.cur.k.val 0 0 0xF 1)
  refine ⟨u, hs, ?_, hu⟩
  unfold State.load State.seqRead
  dsimp only
  rw [hloc]

/-- A store whose page is refused traps (R123, R124). -/
theorem store_refused (h : Refused s (s.mAddr a i).toNat n .write z) (hz : z ≠ cOWNER) :
    ∃ u hs, s.store d a i n = u.trap z 0#8 (s.mAddr a i) ∧ CoreStep (observed s (s.cur.k.val / 192) hs) u s.cur.k.val s.me := by
  obtain ⟨u, hs, hloc, hu⟩ := h.fails hz (charge_step s s.cur.k.val 0 0 0xF 1)
  refine ⟨u, hs, ?_, hu⟩
  unfold State.store State.seqWrite
  dsimp only
  rw [hloc]

end

/-- In t the acting block stream of s has trapped with this cause and address: the entry stands in the fault queue of its die, and it waits for
the resolution; no other core and no byte of memory has changed (R149). -/
def Posted (s t : State) (j : Job) (cause : Byte) (addr : Dword) : Prop :=
  let k := s.cur.k.val
  let x := s.die (k / 192)
  (t.die (k / 192)).fq = x.fq ++ [⟨BitVec.ofNat 32 (8 * x.nextEntry.toNat + k / 192), j.func, k, BitVec.ofNat 8 s.cur.q.val, j.team,
    j.rank.toNat, none, cause, addr, none⟩] ∧
  coreRest (t.core k) = coreRest (Core.switch (blkCore s (awaitsResolution (trapNoted cause 0#8 addr s.blk)))) ∧
  (∀ n, n ≠ k → t.core n = s.core n) ∧ (∀ l, Memory.read t.mem l = Memory.read s.mem l)

section
variable {s : State} {j : Job} {z : Byte} (hj : s.me.job = some j) (hz : z = cXLATE ∨ z = cPERM) (hm : s.blk.trvec.getLsbD 33 = false)
  (hfree : (s.die (s.cur.k.val / 192)).fq.length < 256) (hring : (s.func j.func).ring = none)
include hj hz hm hfree hring

/-- The trap of an access whose page is refused is posted. -/
theorem trap_posted {u : State} {hs : List Nat} (addr : Dword) (hu : CoreStep (observed s (s.cur.k.val / 192) hs) u s.cur.k.val s.me) :
    Posted s (u.trap z 0#8 addr) j z addr := by
  have hd : s.cur.k.val / 192 < 8 := coreDie_lt s.cur.k
  obtain ⟨hfq, hnext⟩ := observed_faultQueue s hd hs
  -- The walk has changed clocks of dies alone: what else the trap looks at is that of s by definition.
  rw [observed_eq] at hu hfq hnext
  generalize (observed s (s.cur.k.val / 192) hs).dies = ds at hu hfq hnext
  have hstep := CoreStep.trap_posts (s := withDies s ds) 0#8 addr hu hj hz hm (hfq ▸ hfree) hring
  have hentry : trapEntry (withDies s ds) z addr = ⟨0#32, j.func, s.cur.k.val, BitVec.ofNat 8 s.cur.q.val, j.team, j.rank.toNat, none, z,
      addr, none⟩ := by
    change FaultEntry.mk 0#32 s.me.jobFunc s.cur.k.val (BitVec.ofNat 8 s.cur.q.val) s.me.jobTeam s.me.jobRank none z addr none = _
    rw [Core.jobFunc, Core.jobTeam, Core.jobRank, hj]
    rfl
  refine ⟨?_, hstep.core, hstep.cores, hstep.mem⟩
  rw [hentry] at hstep
  rw [hstep.die]
  change (((withDies s ds).modDie (s.cur.k.val / 192) _).die (s.cur.k.val / 192)).fq = _
  rw [State.die_modDie_self _ _ _ hd, withEntry, hfq, hnext]
  rfl

variable {d a : BitVec 5} {i : BitVec 16} {va n : Nat} (ha : (s.g a).toInt + i.toInt = va)
include ha

/-- A load whose page is refused posts its fault (R149). -/
theorem load_posts (ext : Nat → Dword) (h : Refused s va n .read z) : Posted s (s.load d a i n ext) j z (BitVec.ofNat 64 va) := by
  obtain ⟨haddr, hlt⟩ := mAddr_of_lt ha h.lt
  obtain ⟨u, hs, heq, hu⟩ := load_refused ext (hlt.symm ▸ h) (ne_cOWNER hz)
  rw [heq, haddr]
  exact trap_posted hj hz hm hfree hring _ hu

/-- A store whose page is refused posts its fault (R149). -/
theorem store_posts (h : Refused s va n .write z) : Posted s (s.store d a i n) j z (BitVec.ofNat 64 va) := by
  obtain ⟨haddr, hlt⟩ := mAddr_of_lt ha h.lt
  obtain ⟨u, hs, heq, hu⟩ := store_refused (hlt.symm ▸ h) (ne_cOWNER hz)
  rw [heq, haddr]
  exact trap_posted hj hz hm hfree hring _ hu

end

end Sys2Proof.Safety

section

open Sys2Proof Sys2Proof.Machine Sys2Proof.Safety

/-- Settles O27: in each case the walk or a check refuses the page (`Refused`), and the load's or store's trap is withEntry (`load_posts`,
`store_posts`). -/
theorem resolvableTrapsArePosted : Obligations.ResolvableTrapsArePosted := by
  unfold Obligations.ResolvableTrapsArePosted
  intro s d a i j va hj hm ha hmiss hfree hring k x id posts stores
  have hfunc : s.me.funcOf = j.func := by
    rw [Core.funcOf, hj]
    rfl
  have hposts {w : Instr} {t : State} {z : Byte} (hexec : exec w s = .next t) (h : Posted s t j z (BitVec.ofNat 64 va)) : posts w z := by
    obtain ⟨hfq, hcore, hcores, hmem⟩ := h
    refine ⟨t, hexec, hfq, ?_, hcores, hmem⟩
    rw [BitVec.ofNat_toNat]
    exact hcore
  have hrefused {n : Nat} {acc : Access} {z : Byte} (h0 : 0 < n) (hva : va + n ≤ 2 ^ 48) (hc : s.check j.func va acc true false = .error z) :
      Refused s va n acc z := ⟨h0, hva, by rwa [hfunc], by rwa [hfunc]⟩
  have hstore {w : Instr × Nat} (hw : w ∈ storeWords d a i) (hva : va + w.2 ≤ 2 ^ 48)
      (hc : s.check j.func va .write true false = .error cPERM) : posts w.1 cPERM := by
    obtain ⟨h0, hexec⟩ := storeWords_exec hw s
    exact hposts hexec (store_posts hj (.inr rfl) hm hfree hring ha (hrefused h0 hva hc))
  refine ⟨fun w hw hva hwalk => ?_, fun w hw lf hva hwalk => ⟨fun hro => ?_, fun hwr hp hx hv hr ho hro => ?_⟩⟩
  · have haccess : w.swap ∈ accessWords d a i := List.mem_map_of_mem (f := Prod.swap) hw
    obtain ⟨h0, ⟨ext, hexec⟩ | hexec⟩ := accessWords_exec haccess s
    · exact hposts hexec (load_posts hj (.inl rfl) hm hfree hring ha ext (hrefused h0 hva (check_of_walk_error _ _ _ hwalk)))
    · exact hposts hexec (store_posts hj (.inl rfl) hm hfree hring ha (hrefused h0 hva (check_of_walk_error _ _ _ hwalk)))
  · exact hstore hw hva (check_of_leaf_readonly _ hwalk _ hro)
  · exact hstore hw hva (check_of_owner_readonly _ hwalk hwr hp hx hv hr ho hro)

end
end

section
/-! SUPPORT. ILLSTEP of the engine streams: when an unassigned word, or a fetch past the section, waits, and what it comes to (R165, R276, R300,
R356, R358). -/

namespace Sys2Proof.Safety

open Sys2Proof.Machine

theorem faultWaits_iff {s : State} : s.faultWaits = true ↔ (s.cur.st = .m ∧ s.me.mx.go = true ∧ s.cur.nest = false) ∨
    (s.cur.st = .v ∧ ∃ o ∈ s.me.v.outst, o.done = false) := by
  unfold State.faultWaits
  split <;> simp_all

/-- A word of the acting engine stream that is found at fault faults the job (R165). -/
theorem engFaultFree_faultsJob {i : Instr} {s : State} {cause : Byte} (hj : s.me.job.isSome = true) (hf : s.me.fault = none)
    (hi : exec i s = .next (s.engFaultFree cause)) : FaultsJob i s cause :=
  (jobFaultFree_faulted cause (streamIx s.cur.st) (s.me.eng s.cur.st).pc hj hf).faultsJob hi

section
variable {i : Instr} {s : State} (hi : exec i s = .next s.illStep)
include hi

theorem illStep_stays (hw : s.faultWaits = true) : exec i s = .next s := by
  rw [hi, State.illStep, if_pos hw]

theorem illStep_faultsJob (hj : s.me.job.isSome = true) (hf : s.me.fault = none) (hw : s.faultWaits = false) : FaultsJob i s cILLSTEP :=
  engFaultFree_faultsJob hj hf (by rw [hi, State.illStep, hw]; rfl)

end

theorem opMap_eq_matrix_iff {st : Stream} : st.opMap = .matrix ↔ st = .m := by cases st <;> decide

/-- A fetch past M's section faults at once, whatever nest runs (R300). -/
theorem fetchRangeError_matrix {s : State} (h : s.cur.st = .m) : exec .fetchRangeError s = .next (s.engFaultFree cILLSTEP) := by
  change execFetchRangeError s = _
  unfold execFetchRangeError
  rw [h]
  rfl

/-- A fetch past another engine's section is an unassigned word's step (R190, R356). -/
theorem fetchRangeError_illStep {s : State} (hq : s.cur.st.opMap ≠ .seq) (hm : s.cur.st ≠ .m) : exec .fetchRangeError s = .next s.illStep := by
  have hne : s.cur.st.opMap ≠ .matrix := fun h => hm (opMap_eq_matrix_iff.1 h)
  change execFetchRangeError s = _
  unfold execFetchRangeError
  split
  · contradiction
  · rfl
  · contradiction
  · rfl

end Sys2Proof.Safety

section

open Sys2Proof Sys2Proof.Machine Sys2Proof.Safety

/-- Settles O29: an unassigned word is `illStep`, which waits just when `faultWaits` says so; a fetch past the section is the same, but on M,
where it faults at once. -/
theorem unassignedEngineWordsFaultTheJob : Obligations.UnassignedEngineWordsFaultTheJob := by
  unfold Obligations.UnassignedEngineWordsFaultTheJob
  intro s j w hj hf i hi hq waits
  have hjob : s.me.job.isSome = true := by rw [hj]; rfl
  have hsteps (h : exec i s = .next s.illStep) (hw : waits ↔ s.faultWaits = true) :
      (waits → exec i s = .next s) ∧ (¬ waits → FaultsJob i s cILLSTEP) :=
    ⟨fun g => illStep_stays h (hw.1 g), fun g => illStep_faultsJob h hjob hf (by simpa using mt hw.2 g)⟩
  simp only [List.mem_cons, List.not_mem_nil, or_false] at hi
  obtain rfl | rfl := hi
  · exact hsteps rfl (by rw [faultWaits_iff]; simp [waits])
  · by_cases hm : s.cur.st = .m
    · have hruns : ¬ waits := by simp [waits, hm]
      exact ⟨fun g => absurd g hruns, fun _ => engFaultFree_faultsJob hjob hf (fetchRangeError_matrix hm)⟩
    · exact hsteps (fetchRangeError_illStep hq hm) (by rw [faultWaits_iff]; simp [waits, hm])

end
end

section
/-! SUPPORT. The words of the transfer engine as commands (R159, R164), and what their issue looks at before anything else: what holds them back
(R19, R151, R181, R203) and their sets (R161). -/

namespace Sys2Proof.Machine

/-! ### Words as commands -/

/-- A transfer word is its command's issue. -/
theorem exec_of_xopOf {i : Instr} {o : XOp} (h : xopOf i = some o) (s : State) : exec i s = .next (s.xferIssue i) := by
  unfold xopOf at h
  split at h
  case h_29 => cases h
  all_goals rfl

/-- The transfer words that are commands, with their arguments (R192 to R207). -/
def transferWords (x : XArgs) (m : RMode) (k ret det : Bool) : List Instr :=
  [.xcpy x m, .xgat x m, .xsct x m, .xfil x m, .xmcs x m, .xpf x, .xwb x, .xput x, .xget x, .selk x k, .xcfg x,
   .acwAdd32 x ret det, .acwAdd64 x ret det, .acwAddf x ret det, .acwMax32 x ret det, .acwMax64 x ret det,
   .acwMaxf x ret det, .acwMin32 x ret det, .acwMin64 x ret det, .acwMinf x ret det, .acwAnd32 x ret det,
   .acwAnd64 x ret det, .acwOr32 x ret det, .acwOr64 x ret det, .acwXchg32 x ret det, .acwXchg64 x ret det, .cmb x, .xrcl x]

/-- The word i is the command o with arguments x, and rounds as m says where it rounds at all. -/
structure IsCommand (i : Instr) (o : XOp) (x : XArgs) (m : RMode) : Prop where
  args : o.x = x
  mode : o.m = m ∨ o.m = .rne
  cfg : o.kind = .cfg ↔ i = .xcfg x

theorem isCommand_of_mem {x : XArgs} {m : RMode} {k ret det : Bool} {i : Instr} {o : XOp} (hi : i ∈ transferWords x m k ret det)
    (ho : xopOf i = some o) : IsCommand i o x m := by
  simp only [transferWords, List.mem_cons, List.not_mem_nil, or_false] at hi
  rcases hi with rfl | rfl | rfl | rfl | rfl | rfl | rfl | rfl | rfl | rfl | rfl | rfl | rfl | rfl | rfl | rfl | rfl | rfl | rfl | rfl |
    rfl | rfl | rfl | rfl | rfl | rfl | rfl | rfl <;>
  · cases ho
    exact ⟨rfl, by simp, by simp⟩

/-- The sets whose bases a command's issue advances (R162, R203): those that it names, for `xcfg` the source alone and none from the queue. -/
def XOp.advanced (o : XOp) (queue : Bool) : List (BitVec 4) :=
  match o.kind with
  | .cfg => if queue then [] else [o.x.src]
  | _ => o.sets queue

theorem XOp.advanced_cfg {o : XOp} (h : o.kind = .cfg) (queue : Bool) : o.advanced queue = if queue then [] else [o.x.src] := by
  unfold XOp.advanced
  rw [h]

theorem XOp.advanced_of_ne {o : XOp} (h : o.kind ≠ .cfg) (queue : Bool) : o.advanced queue = o.sets queue := by
  unfold XOp.advanced
  split
  · contradiction
  · rfl

/-! ### What holds a command back -/

theorem xsrc_stream {s : State} (h : s.cur.entry = none) : s.xsrc = if s.cur.st = .xs then .xs else .xl := by
  simp [State.xsrc, h]

theorem xsrc_isQueue (s : State) : (s.xsrc == XSrc.queue) = s.cur.entry.isSome := by
  unfold State.xsrc
  cases s.cur.entry.isSome
  · cases hxs : s.cur.st == .xs <;> rfl
  · rfl

/-- The command o must wait before it issues: 16 commands of its source in flight (R159), an `xcfg` that is to load a set of it (R203), a
resolution before its release or push (R181), a token missing (R19). -/
def State.xStalls (s : State) (o : XOp) : Bool :=
  let mine := s.me.x.cmds.filter fun e => e.src == s.xsrc
  16 ≤ mine.length || mine.any (fun e => (o.sets s.cur.entry.isSome).any e.loads) ||
    ((o.x.rel || o.x.tok.push != 0#2) && mine.any fun e => e.st == .resolution) ||
    (!s.cur.entry.isSome && !s.me.tokensOk s.cur.st o.x.tok)

theorem xStalls_iff {s : State} {o : XOp} : s.xStalls o = true ↔
    let mine := s.me.x.cmds.filter fun e => e.src == s.xsrc
    16 ≤ mine.length ∨ (∃ e ∈ mine, ∃ n ∈ o.sets s.cur.entry.isSome, e.loads n = true) ∨
      ((o.x.rel = true ∨ o.x.tok.push ≠ 0#2) ∧ ∃ e ∈ mine, e.st = .resolution) ∨
      (s.cur.entry = none ∧ s.me.tokensOk s.cur.st o.x.tok = false) := by
  simp [State.xStalls, or_assoc, and_assoc]

theorem loads_of_decode {e : Cmd} {y : XArgs} (h : decodeWord .xfer e.word = .ok (.xcfg y)) : e.loads y.dst = true := by
  have hd : decodeXfer e.word = .ok (.xcfg y) := h
  have hw : xopOfWord e.word = some ⟨.cfg, y, .rne⟩ := by
    unfold xopOfWord
    rw [hd]
    rfl
  unfold Cmd.loads
  rw [hw]
  exact beq_self_eq_true ..

theorem xStalls_of_no_cmds {s : State} {o : XOp} (hc : s.me.x.cmds = [])
    (ht : s.cur.entry.isSome = true ∨ s.me.tokensOk s.cur.st o.x.tok = true) : s.xStalls o = false := by
  unfold State.xStalls
  rw [hc]
  rcases ht with ht | ht <;> simp [ht]

/-- The bank formats under which a command issues: those of now, or those that its queue entry has sampled (R46). -/
def State.xFormats (s : State) : Vector (BitVec 15) 32 :=
  match s.cur.entry with
  | some e => e.bf
  | none => s.me.sys.bfmt

/-- The register operand of a command from the queue (R190). -/
def State.xOperand (s : State) : Option Dword := s.cur.entry.map fun e => e.operand

/-- The check of a command at its issue, on its sets as they stand. -/
def State.xCheck (s : State) (o : XOp) : Except XFail Unit :=
  checkOp o s.xFormats (setOf (s.me.rawSet o.x.src)) (setOf (s.me.rawSet o.x.dst)) (setOf (s.me.rawSet o.pair)) s.xOperand

theorem xferIssue_stalls {s : State} {i : Instr} {o : XOp} (ho : xopOf i = some o) (h : s.xStalls o = true) : s.xferIssue i = s := by
  unfold State.xStalls at h
  unfold State.xferIssue
  rw [ho]
  refine if_pos ?_
  rw [xsrc_isQueue]
  exact h

theorem xferIssue_fails {s : State} {i : Instr} {o : XOp} {f : XFail} (ho : xopOf i = some o) (h : s.xStalls o = false)
    (hc : s.xCheck o = .error f) : s.xferIssue i = s.xferFail f := by
  unfold State.xStalls at h
  unfold State.xferIssue
  rw [ho]
  refine (if_neg ?_).trans ?_
  · rw [xsrc_isQueue]
    exact Bool.eq_false_iff.1 h
  · split
    · next g hg => rw [Except.error.inj (hg.symm.trans hc)]
    · next hg => exact absurd (hg.symm.trans hc) nofun

/-! ### What faults it -/

/-- The check of a command's sets at its issue from a stream (R161); log 56 for the source of `xcfg` and for the destinations of `cmb` and
`xrcl`. -/
def XOp.setsOk (o : XOp) (s d p : XSet) : Bool :=
  match o.kind with
  | .gather => !s.bad && !d.bad && !p.bad
  | .scatter => !s.bad && !d.bad && !p.bad
  | .selk _ => !s.bad && !d.bad && !p.bad
  | .cfg => !s.bad
  | .combine => !s.bad && d.valid && d.clean
  | .close => d.valid && d.clean
  | _ => !s.bad && !d.bad

/-- A set that does not pass its check faults XSET, whatever other check fails: it is the first of each kind (log 101). -/
theorem checkOp_of_sets {o : XOp} (bf : Vector (BitVec 15) 32) {s d p : XSet} (h : o.setsOk s d p = false) :
    checkOp o bf s d p none = .error (cXSET, none) := by
  obtain ⟨kind, x, m⟩ := o
  cases kind <;>
  · unfold XOp.setsOk at h
    dsimp only at h
    unfold checkOp
    simp only [h, Option.isSome_none, Bool.false_or]
    rfl

/-- A set that the command names and that is not valid does not pass the check. -/
theorem setsOk_of_invalid {o : XOp} {s d p : XSet} {valid : BitVec 4 → Bool} (hs : s.valid = valid o.x.src) (hd : d.valid = valid o.x.dst)
    (hp : p.valid = valid o.pair) (h : ∃ n ∈ o.advanced false, valid n = false) : o.setsOk s d p = false := by
  have hbad (x : XSet) (hx : x.valid = false) : x.bad = true := by simp [XSet.bad, hx]
  obtain ⟨kind, x, m⟩ := o
  obtain ⟨n, hn, hv⟩ := h
  cases kind <;> simp only [XOp.advanced, XOp.sets, XOp.pair, XOp.setsOk, List.mem_cons, List.not_mem_nil, or_false, Bool.false_eq_true,
    if_false] at hn hs hd hp ⊢
  all_goals
    rcases hn with rfl | rfl | rfl <;> simp [*]

end Sys2Proof.Machine

namespace Sys2Proof.Safety

open Sys2Proof.Machine

/-- The raw descriptor of a set, in bounds. -/
theorem rawSet_eq (c : Core) (n : BitVec 4) : c.rawSet n = c.x.sets[n.toNat] := vget_lt ..

/-- A command of a stream that nothing holds back, and one of whose sets is not valid, faults its job (R161, R183). -/
theorem xferIssue_xset {s : State} {i : Instr} {o : XOp} (ho : xopOf i = some o) (hq : s.cur.entry = none) (hstall : s.xStalls o = false)
    (hj : s.me.job.isSome = true) (hf : s.me.fault = none) (h : ∃ n ∈ o.advanced false, (setOf s.me.x.sets[n.toNat]).valid = false) :
    FaultsJob i s cXSET := by
  have hsets : o.setsOk (setOf (s.me.rawSet o.x.src)) (setOf (s.me.rawSet o.x.dst)) (setOf (s.me.rawSet o.pair)) = false :=
    setsOk_of_invalid (valid := fun n => (setOf s.me.x.sets[n.toNat]).valid) (by rw [rawSet_eq]) (by rw [rawSet_eq]) (by rw [rawSet_eq]) h
  have hcheck : s.xCheck o = .error (cXSET, none) := by
    unfold State.xCheck State.xOperand
    rw [hq]
    exact checkOp_of_sets _ hsets
  have hissue := (exec_of_xopOf ho s).trans (congrArg Host.Outcome.next (xferIssue_fails ho hstall hcheck))
  exact (jobFaultFree_faulted cXSET s.xsrc.faultStream _ hj hf).faultsJob hissue

end Sys2Proof.Safety

section

open Sys2Proof Sys2Proof.Machine Sys2Proof.Safety

/-- Settles O35: the waits are `State.xStalls`, under which the issue changes nothing; where nothing holds the command back, the check of its sets is
the first of its checks, so an invalid one that it names gives XSET. That XSET is raised also where a later check fails is the model's choice (log 101),
as is the check of the source of `xcfg` and of the destinations of `cmb` and `xrcl` (log 56). -/
theorem transferWordsStallOrFault : Obligations.TransferWordsStallOrFault := by
  unfold Obligations.TransferWordsStallOrFault
  intro s x m k ret det j i hi o ho _ hq mine named
  obtain ⟨hx, -, hcfg⟩ := isCommand_of_mem hi ho
  have hmine : mine = s.me.x.cmds.filter fun c => c.src == s.xsrc := by rw [xsrc_stream hq]
  have hnamed : named = o.advanced false := by
    by_cases hk : o.kind = .cfg
    · obtain rfl := hcfg.1 hk
      rw [XOp.advanced_cfg hk, hx]
      rfl
    · rw [XOp.advanced_of_ne hk]
      dsimp only [named]
      split
      · next y => cases ho; exact absurd rfl hk
      · rfl
  refine ⟨fun h => ?_, fun hc ht hj hf h => ?_⟩
  · rw [exec_of_xopOf ho, xferIssue_stalls ho]
    rw [hmine] at h
    rw [xStalls_iff, hx, hq]
    obtain h | h | h | ⟨c, hcm, y, hy, hin⟩ := h
    · exact .inl h
    · exact .inr (.inr (.inr ⟨rfl, h⟩))
    · exact .inr (.inr (.inl h))
    · exact .inr (.inl ⟨c, hcm, y.dst, hin, loads_of_decode hy⟩)
  · rw [hnamed] at h
    exact xferIssue_xset ho hq (xStalls_of_no_cmds hc (.inr (by rwa [hx]))) (by rw [hj]; rfl) hf h

end
end

section
/-! SUPPORT. The issue of a transfer command that nothing holds back (R159, R160, R162, R179, R187). -/

namespace Sys2Proof.Machine

open Sys2Proof.Safety

/-! ### What the issue makes of the core -/

/-- The core from which the word of the command o has been taken: the queue's entry, or the stream's word with its tokens (R19, R187). -/
def wordTaken (queue : Bool) (st : Stream) (o : XOp) (c : Core) : Core :=
  if queue then { c with next := c.next + 1, x := { c.x with queue := c.x.queue.drop 1 } }
  else ((c.takeTokens st o.x.tok).begin_ st { id := 0, push := pushFifo st o.x.tok.push, quiet := o.kind.quiet }).stepEng st

/-- The core whose command o of a source is in flight as cmd (R162, R179). -/
def cmdIssued (src : XSrc) (st : Stream) (o : XOp) (cmd : Cmd) (c : Core) : Core :=
  let d := wordTaken (src == .queue) st o c
  { d with x := { d.x with
      sets := advanceSets o (src == .queue) d.x.sets
      cmds := d.x.cmds ++ [cmd]
      seq := vset d.x.seq src.code (cmd.seq + 1#64)
      lodcAt := if src == .xl then none else d.x.lodcAt } }

/-- The state in which the draws of the command o have been taken (R84). -/
def State.drawn (s : State) (o : XOp) : State :=
  let n := drawCount o s.xFormats (setOf (s.me.rawSet o.x.src)) (setOf (s.me.rawSet o.x.dst))
  if n = 0 then s else s.setGen s.cur.k.val s.xsrc.unit4 (draws (s.gen s.cur.k.val s.xsrc.unit4) n).2

/-- The record of the command o, whose word is i, at its issue (R179). -/
structure Recorded (s : State) (i : Instr) (o : XOp) (cmd : Cmd) : Prop where
  word : cmd.word = ((encode i).map fun e => e.2).getD 0#32
  st : cmd.st = .issued
  progress : cmd.progress = 0
  origin : cmd.src = s.xsrc
  source : cmd.s = s.me.rawSet o.x.src
  dest : cmd.d = s.me.rawSet o.x.dst
  paired : cmd.p = s.me.rawSet o.pair
  formats : cmd.bf = s.xFormats
  operand : cmd.operand = s.xOperand.getD 0#64
  seq : cmd.seq = vget s.me.x.seq s.xsrc.code 0#64

theorem xferIssue_issues {s : State} {i : Instr} {o : XOp} (ho : xopOf i = some o) (h : s.xStalls o = false) (hc : s.xCheck o = .ok ())
    (hcmds : s.me.x.cmds = []) (hlocks : s.me.locks = {}) : ∃ cmd, Recorded s i o cmd ∧
    s.xferIssue i = ((s.drawn o).modCore s.cur.k.val (cmdIssued s.xsrc (s.drawn o).cur.st o cmd)).charge s.cur.k.val 1 0 0xF 1 := by
  unfold State.xStalls at h
  unfold State.xferIssue
  rw [ho]
  refine ⟨(s.drawn o).resolvePeers s.cur.k.val ?cmd, ?_, (if_neg ?_).trans ?_⟩
  case refine_2 =>
    rw [xsrc_isQueue]
    exact Bool.eq_false_iff.1 h
  case refine_3 =>
    split
    · next hg => exact absurd (hg.symm.trans hc) nofun
    · refine (if_neg ?_).trans ((if_neg ?_).trans ?_)
      · rw [hcmds]; simp
      · rw [grantable_of_unlocked hlocks]; simp
      · rfl
  case refine_1 =>
    have hword : (match encode i with
        | some (_, w) => w
        | none => 0#32) = ((encode i).map fun e => e.2).getD 0#32 := by cases encode i <;> rfl
    exact ⟨hword, rfl, rfl, rfl, rfl, rfl, rfl, rfl, rfl, rfl⟩

/-- The core with generators g. -/
def Core.withGen (c : Core) (g : Vector Dword 4) : Core := { c with sys := { c.sys with gen := g } }

/-- The draws of a command move the generator of its source alone, and under a mode other than SR none (R84). -/
theorem drawn_step (s : State) (o : XOp) : ∃ g, CoreStep s (s.drawn o) s.cur.k.val (s.me.withGen g) ∧
    (s.drawn o).core s.cur.k.val = s.me.withGen g ∧ (o.m ≠ .sr → g = s.me.sys.gen) := by
  unfold State.drawn
  dsimp only
  split
  · exact ⟨_, .refl .., rfl, fun _ => rfl⟩
  · next h => exact ⟨_, modCore_step .., State.core_modCore_self .., fun hm => absurd (by simp [drawCount, hm]) h⟩

theorem encode_of_mem {x : XArgs} {m : RMode} {k ret det : Bool} {i : Instr} (hi : i ∈ transferWords x m k ret det) :
    ∃ w, encode i = some (.xfer, w) := by
  simp only [transferWords, List.mem_cons, List.not_mem_nil, or_false] at hi
  rcases hi with rfl | rfl | rfl | rfl | rfl | rfl | rfl | rfl | rfl | rfl | rfl | rfl | rfl | rfl | rfl | rfl | rfl | rfl | rfl | rfl |
    rfl | rfl | rfl | rfl | rfl | rfl | rfl | rfl <;> exact ⟨_, rfl⟩

/-! ### The parts of the core -/

theorem wordTaken_x (queue : Bool) (st : Stream) (o : XOp) (c : Core) :
    (wordTaken queue st o c).x = { c.x with queue := if queue then c.x.queue.drop 1 else c.x.queue } := by
  cases queue
  · have h : engRest (wordTaken false st o c) = engRest (c.acquired st o.x.tok) := by simp [wordTaken, Core.stepEng]
    have hx := congrArg Core.x h
    exact hx
  · rfl

theorem cmdIssued_x (src : XSrc) (st : Stream) (o : XOp) (cmd : Cmd) (c : Core) : (cmdIssued src st o cmd c).x =
    { sets := advanceSets o (src == .queue) c.x.sets, queue := if src == .queue then c.x.queue.drop 1 else c.x.queue,
      cmds := c.x.cmds ++ [cmd], seq := vset c.x.seq src.code (cmd.seq + 1#64), lodcAt := if src == .xl then none else c.x.lodcAt } := by
  unfold cmdIssued
  dsimp only
  rw [wordTaken_x]

theorem cmdIssued_fifo (src : XSrc) (st : Stream) (o : XOp) (cmd : Cmd) (c : Core) : (cmdIssued src st o cmd c).fifo =
    if src == .queue then c.fifo else (c.takeTokens st o.x.tok).fifo := by
  unfold cmdIssued wordTaken
  cases src == .queue
  · change (Core.modEng _ st _).fifo = _
    unfold Core.begin_
    simp
  · rfl

theorem cmdIssued_eng {st : Stream} (hst : st ∈ engineStreams) (src : XSrc) (o : XOp) (cmd : Cmd) (c : Core) :
    if src == .queue then (cmdIssued src st o cmd c).eng st = c.eng st
    else ((cmdIssued src st o cmd c).eng st).pc = (c.eng st).pc + 1#32 ∧ ((cmdIssued src st o cmd c).eng st).st = (c.eng st).st := by
  have heng : (cmdIssued src st o cmd c).eng st = (wordTaken (src == .queue) st o c).eng st := by
    rcases mem_engineStreams.1 hst with rfl | rfl | rfl | rfl <;> rfl
  rw [heng]
  unfold wordTaken
  cases src == .queue
  · simp only [Bool.false_eq_true, if_false, Core.stepEng, Core.begin_]
    rw [Core.eng_modEng_self _ _ hst, Core.eng_modEng_self _ _ hst, Core.eng_setNext, Core.takeTokens_eng]
    exact ⟨rfl, rfl⟩
  · rcases mem_engineStreams.1 hst with rfl | rfl | rfl | rfl <;> rfl

/-- The issue leaves the rest of the core: block streams, M, V, tags, flags and the rest. -/
theorem cmdIssued_rest {st : Stream} (hst : st = .xl ∨ st = .xs) (src : XSrc) (o : XOp) (cmd : Cmd) (c : Core) :
    { cmdIssued src st o cmd c with x := c.x, fifo := c.fifo, next := c.next, xl := c.xl, xs := c.xs } = c := by
  unfold cmdIssued wordTaken
  cases src == .queue
  · simp only [Bool.false_eq_true, if_false]
    rw [Core.takeTokens_eq]
    rcases hst with rfl | rfl <;> simp [Core.acquired, Core.stepEng, Core.begin_, Core.modEng]
  · rfl

theorem cmdIssued_sys {st : Stream} (hst : st = .xl ∨ st = .xs) (src : XSrc) (o : XOp) (cmd : Cmd) (c : Core) :
    (cmdIssued src st o cmd c).sys = c.sys := by
  have h := congrArg Core.sys (cmdIssued_rest hst src o cmd c)
  exact h

theorem takeTokens_setSys (c : Core) (y : Sys) (st : Stream) (t : Tok) :
    (Core.takeTokens { c with sys := y } st t).fifo = (c.takeTokens st t).fifo := by
  unfold Core.takeTokens
  split <;> rfl

/-- Each set of a list without repetitions is advanced once, and no other. -/
theorem advance_each {ns : List (BitVec 4)} (h : ns.Nodup) (sets : Vector (BitVec 1024) 16) (n : Fin 16) :
    (ns.foldl (fun v n => vset v n.toNat (advance (vget v n.toNat 0#1024))) sets)[n.val] =
      if BitVec.ofNat 4 n.val ∈ ns then advance sets[n.val] else sets[n.val] := by
  induction ns generalizing sets with
  | nil => rfl
  | cons m t ih =>
    obtain ⟨hm, ht⟩ := List.nodup_cons.1 h
    rw [List.foldl_cons, ih ht, vset_lt _ _ m.isLt, vget_lt _ _ _ m.isLt]
    simp only [List.mem_cons]
    have hiff : BitVec.ofNat 4 n.val = m ↔ m.toNat = n.val := by
      constructor
      · rintro rfl; simp
      · intro h; rw [← h]; simp
    generalize BitVec.ofNat 4 n.val = b at hiff ⊢
    by_cases hb : b = m
    · simp [hb, hm, hiff.1 hb]
    · simp [hb, mt hiff.2 hb]

theorem advanceSets_get (o : XOp) (queue : Bool) (sets : Vector (BitVec 1024) 16) (n : Fin 16) : (advanceSets o queue sets)[n.val] =
    if BitVec.ofNat 4 n.val ∈ o.advanced queue then advance sets[n.val] else sets[n.val] := by
  have hfold : advanceSets o queue sets =
      ((o.advanced queue).dedup).foldl (fun v n => vset v n.toNat (advance (vget v n.toNat 0#1024))) sets := by
    unfold advanceSets
    by_cases hk : o.kind = .cfg
    · rw [XOp.advanced_cfg hk]
      simp only [hk]
      cases queue <;> rfl
    · rw [XOp.advanced_of_ne hk]
      split
      · contradiction
      · rfl
  rw [hfold, advance_each (List.nodup_dedup _)]
  simp only [List.mem_dedup]

end Sys2Proof.Machine

section

open Sys2Proof Sys2Proof.Machine Sys2Proof.Safety

/-- Settles O34: with nothing that holds it back and its checks passed, the command's issue is `cmdIssued` after its draws (`xferIssue_issues`); the
parts of the core are read off it, and its word decodes since decoding and encoding agree (O2). -/
theorem transferWordsIssue : Obligations.TransferWordsIssue := by
  unfold Obligations.TransferWordsIssue
  intro s x m k ret det i hi o ho hwf hst hcmds hm hv hmx queue htok set bf operand hcheck
  obtain ⟨hx, hmode, hcfg⟩ := isCommand_of_mem hi ho
  have hstall : s.xStalls o = false := xStalls_of_no_cmds hcmds (by rwa [hx])
  have hbf : s.xFormats = bf := by
    unfold State.xFormats
    dsimp only [bf]
    cases s.cur.entry <;> rfl
  have hset (n : BitVec 4) : s.me.rawSet n = set n := rawSet_eq ..
  have hpass : s.xCheck o = .ok () := by
    unfold State.xCheck
    rw [hbf, hset, hset, hset, hx]
    exact hcheck
  have hlocks : s.me.locks = {} := by simp [Core.locks, hm, hv, hmx, hcmds, locksOf]
  obtain ⟨cmd, hrec, hissue⟩ := xferIssue_issues ho hstall hpass hcmds hlocks
  obtain ⟨g, hdrawn, hcore, hgen⟩ := drawn_step s o
  have hcur : (s.drawn o).cur = s.cur := hdrawn.cur
  rw [hcur] at hissue
  have hstep := (hdrawn.trans (modCore_step (s.drawn o) s.cur.k.val (cmdIssued s.xsrc s.cur.st o cmd))).charge 1 0 0xF 1
  rw [← hissue, hcore] at hstep
  have heng := cmdIssued_eng (mem_engineStreams.2 (by tauto)) s.xsrc o cmd (s.me.withGen g)
  have hwords : decodeWord .xfer cmd.word = .ok i := by
    obtain ⟨w, hw⟩ := encode_of_mem hi
    rw [hrec.word, hw]
    exact decodeAndEncodeAgree.1 i .xfer w hwf hw
  have hsrc : (s.xsrc == .queue) = queue := xsrc_isQueue s
  have hparts : (cmdIssued s.xsrc s.cur.st o cmd (s.me.withGen g)).x =
      { sets := advanceSets o queue s.me.x.sets, queue := if queue then s.me.x.queue.drop 1 else s.me.x.queue,
        cmds := s.me.x.cmds ++ [cmd], seq := vset s.me.x.seq s.xsrc.code (cmd.seq + 1#64),
        lodcAt := if s.xsrc == .xl then none else s.me.x.lodcAt } := by
    rw [cmdIssued_x, hsrc]
    rfl
  have horigin : cmd.src = if queue then .queue else if s.cur.st = .xs then .xs else .xl := by
    rw [hrec.origin]
    unfold State.xsrc
    simp [queue]
  refine ⟨_, _, cmd, exec_of_xopOf ho s, hstep, ?cmds, hwords, hrec.st, hrec.progress, ?source, ?dest, ?paired, hrec.formats.trans hbf,
    hrec.operand, horigin, ?seq, ?sets, ?tokens, ?sys, ?gen, ?frame, ?queue⟩
  case cmds => rw [hparts, hcmds]; rfl
  case source => rw [hrec.source, hset, hx]
  case dest => rw [hrec.dest, hset, hx]
  case paired => rw [hrec.paired, hset]
  case seq =>
    intro j hj
    rw [hrec.origin] at hj
    have hseq : cmd.seq = s.me.x.seq[j.val] := by rw [hrec.seq, hj, vget_lt _ _ _ j.isLt]
    exact ⟨hseq, by rw [hparts, ← hseq]; dsimp only; rw [hj, vset_lt _ _ j.isLt]⟩
  case sets =>
    intro n
    rw [hparts]
    refine (advanceSets_get ..).trans ?_
    by_cases hk : o.kind = .cfg
    · obtain rfl := hcfg.1 hk
      rw [XOp.advanced_cfg hk, hx]
    · rw [XOp.advanced_of_ne hk]
      have hne : ∀ y, i ≠ .xcfg y := by
        rintro y rfl
        cases ho
        exact hk rfl
      simp only
  case tokens =>
    rw [cmdIssued_fifo, hsrc]
    rw [hsrc] at heng
    rw [← hx]
    have heng' : (s.me.withGen g).eng s.cur.st = s.me.eng s.cur.st := Core.eng_setSys ..
    have hfifo : ((s.me.withGen g).takeTokens s.cur.st o.x.tok).fifo = (s.me.takeTokens s.cur.st o.x.tok).fifo :=
      takeTokens_setSys ..
    rw [heng'] at heng
    by_cases hq : queue = true
    · rw [if_pos hq] at heng ⊢
      exact ⟨if_pos hq, heng⟩
    · rw [if_neg hq] at heng ⊢
      exact ⟨(if_neg hq).trans hfifo, heng⟩
  case sys => rw [cmdIssued_sys hst]; rfl
  case gen =>
    rw [cmdIssued_sys hst]
    exact fun hm => hgen fun h => hmode.elim (fun hom => hm (hom ▸ h)) (fun hom => by rw [hom] at h; cases h)
  case frame =>
    have h := cmdIssued_rest hst s.xsrc o cmd (s.me.withGen g)
    exact congrArg (fun c : Core => { c with sys := s.me.sys }) h
  case queue => rw [hparts]

end
end

section
/-! SUPPORT. Memory-side updates (R170, R171, R180, R205): the command that a reference names, and an update's application in its stages. -/

namespace Sys2Proof.Machine

open Sys2Proof.Safety

/-! ### The command of a reference -/

theorem refCore_congr {s t : State} (h : t.cores = s.cores) (r : CmdRef) : t.refCore r = s.refCore r := by
  unfold State.refCore
  rw [h]

theorem core_congr {s t : State} (h : t.cores = s.cores) (k : Nat) : t.core k = s.core k := by
  unfold State.core
  rw [h]

theorem refCmd_congr {s t : State} (h : t.cores = s.cores) (r : CmdRef) : t.refCmd r = s.refCmd r := by
  unfold State.refCmd
  rw [refCore_congr h]
  simp only [core_congr h]

theorem refCmd_iff {s : State} {r : CmdRef} {k : Nat} {c : Cmd} : s.refCmd r = some (k, c) ↔
    s.refCore r = some k ∧ (s.core k).x.cmds.find? (fun c => c.src == r.src && c.seq == r.seq) = some c := by
  unfold State.refCmd
  cases s.refCore r with
  | none => simp
  | some j =>
    simp only [Option.map_eq_some_iff, Prod.mk.injEq, Option.some.injEq]
    constructor
    · rintro ⟨d, hd, rfl, rfl⟩
      exact ⟨rfl, hd⟩
    · rintro ⟨rfl, hd⟩
      exact ⟨c, hd, rfl, rfl⟩

/-- The first key of a property stays first when its value is replaced by one that has the property just when the old one has it. -/
theorem find?_mset {α : Type} {p : Nat × α → Bool} {m : Map α} {k : Nat} {d v : α} (hv : p (k, v) = p (k, mget m k d))
    (h : (m.find? p).map (fun e => e.1) = some k) : ((mset m k v).find? p).map (fun e => e.1) = some k := by
  induction m with
  | nil => cases h
  | cons e t ih =>
    obtain ⟨j, w⟩ := e
    unfold mset
    split
    · cases hp : p (k, v)
      · rw [List.find?_cons_of_neg (by simp [hp])]
        exact h
      · rw [List.find?_cons_of_pos hp]
        rfl
    · by_cases hj : j = k
      · subst hj
        rw [if_pos rfl]
        rw [mget, if_pos rfl] at hv
        cases hp : p (j, v)
        · rw [List.find?_cons_of_neg (by simp [hp])]
          rwa [List.find?_cons_of_neg (by simp [← hv, hp])] at h
        · rw [List.find?_cons_of_pos hp]
          rfl
      · rw [if_neg hj]
        rw [mget, if_neg hj] at hv
        cases hp : p (j, w)
        · rw [List.find?_cons_of_neg (by simp [hp])]
          rw [List.find?_cons_of_neg (by simp [hp])] at h
          exact ih hv h
        · rw [List.find?_cons_of_pos hp] at h
          exact absurd (Option.some.inj h) hj

/-- A change of commands keeps their identity. -/
structure KeepsId (f : Cmd → Cmd) : Prop where
  id : ∀ e, (f e).id = e.id
  src : ∀ e, (f e).src = e.src
  seq : ∀ e, (f e).seq = e.seq

theorem core_modCmd_self (s : State) (k id : Nat) (f : Cmd → Cmd) : (s.modCmd k id f).core k = cmdPut s k id f := State.core_modCore_self ..

theorem core_modCmd_ne (s : State) {j k : Nat} (h : j ≠ k) (id : Nat) (f : Cmd → Cmd) : (s.modCmd k id f).core j = s.core j :=
  State.core_modCore_ne _ _ h

/-- The reference to a command names it also when it has changed, but for its identity. -/
theorem refCmd_modCmd {s : State} {r : CmdRef} {k : Nat} {c : Cmd} {f : Cmd → Cmd} (h : s.refCmd r = some (k, c)) (hf : KeepsId f) :
    (s.modCmd k c.id f).refCmd r = some (k, f c) := by
  obtain ⟨hk, hc⟩ := refCmd_iff.1 h
  refine refCmd_iff.2 ⟨find?_mset rfl hk, ?_⟩
  rw [core_modCmd_self]
  unfold cmdPut
  dsimp only
  rw [List.find?_map]
  have hsame : (fun c : Cmd => c.src == r.src && c.seq == r.seq) ∘ (fun e => if e.id = c.id then f e else e) =
      fun c => c.src == r.src && c.seq == r.seq := by
    funext e
    simp only [Function.comp_apply]
    split <;> simp [hf.src, hf.seq]
  rw [hsame, hc]
  simp

/-! ### What an application leaves -/

/-- From s to t nothing changes that an update's place, its command or its home's order looks at. -/
structure Beside (s t : State) : Prop where
  mem : t.mem = s.mem
  cores : t.cores = s.cores
  writes : t.writes = s.writes
  updates : t.updates = s.updates
  markers : t.markers = s.markers
  applied : ∀ d < 8, (t.die d).applied = (s.die d).applied

section
variable {s t u : State}

theorem Beside.refl : Beside s s := ⟨rfl, rfl, rfl, rfl, rfl, fun _ _ => rfl⟩

theorem Beside.trans (h : Beside s t) (g : Beside t u) : Beside s u :=
  ⟨g.mem.trans h.mem, g.cores.trans h.cores, g.writes.trans h.writes, g.updates.trans h.updates, g.markers.trans h.markers,
    fun d hd => (g.applied d hd).trans (h.applied d hd)⟩

theorem beside_modDie (s : State) (d : Nat) {f : Die → Die} (hf : ∀ x, (f x).applied = x.applied) : Beside s (s.modDie d f) := by
  refine ⟨rfl, rfl, rfl, rfl, rfl, fun e he => ?_⟩
  by_cases h : e = d
  · subst h
    rw [State.die_modDie_self _ _ _ he, hf]
  · rw [State.die_modDie_ne _ _ h]

theorem beside_observe (s : State) (d h : Nat) : Beside s (s.observe d h) := by
  unfold State.observe
  exact beside_modDie s d fun _ => rfl

theorem beside_countSent (s : State) (d h : Nat) : Beside s (s.countSent d h) := by
  unfold State.countSent
  split
  · exact .refl
  · exact beside_modDie s d fun _ => rfl

theorem beside_sample (s : State) (d : Nat) (f : Byte) (a : Dword) (ix : Nat) (fmt : BitVec 4) (bits : Nat) :
    Beside s (s.sample d f a ix fmt bits) := by
  unfold State.sample
  dsimp only
  split
  · exact .refl
  · exact beside_modDie s d fun _ => rfl

/-- A write sent is one more on its way. -/
theorem beside_emit (s : State) (by_ : Writer) (cmd : Option Nat) (loc : Nat) (data : List (Byte × Byte)) :
    ∃ w : Write, (w.loc = loc ∧ w.by_ = by_ ∧ w.cmd = cmd ∧ w.data = data) ∧
      Beside { s with writes := s.writes ++ [w], next := s.next + 1 } (s.emit by_ cmd loc data) :=
  ⟨_, ⟨rfl, rfl, rfl, rfl⟩, beside_countSent ..⟩

theorem beside_changeTeam (s : State) (team : Nat) (f : Team → Team) : Beside s (s.changeTeam team f) := by
  refine ⟨rfl, rfl, rfl, rfl, rfl, fun d hd => ?_⟩
  unfold State.changeTeam State.die
  simp [vget, hd]

end

/-! ### The stages of an application -/

/-- The new value of update u's element. -/
def State.newValue (s : State) (u : Update) : Nat := acwNew u.op (Memory.readNat s.mem u.loc (nibBytes (nibbles (acwFmt u.op)))) u.v

/-- The update's new value is stored (R170). -/
def State.stored (s : State) (u : Update) : State :=
  { s with mem := Memory.writeN s.mem u.loc (bytesOfNat (nibBytes (nibbles (acwFmt u.op))) (s.newValue u)) }

/-- The catalog samples the update's new value v, its home notes the stamp, and a bank whom it has served (R60, R66). -/
def State.noted (s : State) (u : Update) (v : Nat) : State :=
  let t := match s.refCmd u.ref with
    | some (k, c) =>
      match s.catAddr k c u.addr with
      | some a => s.sample (coreDie k) (s.core k).funcOf a u.ix (acwFmt u.op) v
      | none => s
    | none => s
  { t.modDie u.home fun d => { d with applied := clkMax d.applied u.stamp } with
    served := if isScratch u.loc && scratchCore u.loc != u.core then mset t.served (bankOf u.loc) u.core else t.served }

/-- The update's command counts one more entry that the unit keeps, in flight or saved (R180). -/
def State.countHit (s : State) (u : Update) : State :=
  match s.refCmd u.ref with
  | some (k, c) => s.modCmd k c.id fun c => { c with hits := mset c.hits u.unit (mget c.hits u.unit 0 + 1) }
  | none => s.changeTeam u.ref.team fun t => t.keepHit u.ref u.unit

/-- The update leaves, its element's old value going to the source of a returning form (R205). -/
def State.answered (s : State) (u : Update) (old : Nat) : State :=
  match u.back with
  | none => { s with updates := s.updates.filter fun x => x.id != u.id }
  | some b =>
    match s.refCmd u.ref with
    | some (k, c) =>
      (({ s with updates := s.updates.filter fun x => x.id != u.id }).writeBack k c b (nibBytes (nibbles (acwFmt u.op))) old).observe (coreDie k) u.home
    | none => { s with updates := s.updates.map fun x => if x.id = u.id then { x with st := .answered old } else x }

/-- Application at a line that is not poisoned. -/
theorem applyUpdate_clean {s : State} {u : Update} (h : ¬ (isHbm u.loc = true ∧ u.loc / 64 ∈ s.poison)) : s.applyUpdate u =
    (((s.stored u).noted u (s.newValue u)).countHit u).answered u (Memory.readNat s.mem u.loc (nibBytes (nibbles (acwFmt u.op)))) := by
  have hbad : (isHbm u.loc && s.poison.contains (u.loc / 64)) = false := by
    rw [Bool.eq_false_iff]
    simpa using h
  unfold State.applyUpdate
  simp only [hbad, Bool.false_eq_true, if_false]
  rfl

/-! ### Bytes written and read back -/

theorem bytesOfNat_length (n v : Nat) : (bytesOfNat n v).length = n := by
  induction n generalizing v with
  | zero => rfl
  | succ n ih => rw [bytesOfNat, List.length_cons, ih]

theorem readN_writeN_self {m : Memory} (h : m.wf = true) (a : Nat) (bs : List Byte) : Memory.readN (Memory.writeN m a bs) a bs.length = bs := by
  rw [readN_eq]
  refine List.ext_getElem (by simp) fun i _ hi => ?_
  rw [List.getElem_map, List.getElem_range, read_writeN_inside h _ _ _ hi]

theorem readN_writeN_apart {m : Memory} (h : m.wf = true) {a b n : Nat} {bs : List Byte} (hd : b + n ≤ a ∨ a + bs.length ≤ b) :
    Memory.readN (Memory.writeN m a bs) b n = Memory.readN m b n := by
  rw [readN_eq, readN_eq]
  refine List.map_congr_left fun i hi => ?_
  have := List.mem_range.1 hi
  exact read_writeN_outside h _ _ _ (by omega)

theorem wrote_of_writeN {s t : State} (h : s.mem.wf = true) {a : Nat} {bs : List Byte} (hm : t.mem = Memory.writeN s.mem a bs) :
    Wrote s t a bs := by
  unfold Wrote
  rw [hm]
  exact ⟨readN_writeN_self h a bs, fun b hb => read_writeN_outside h a b bs hb⟩

/-! ### What an application leaves at last -/

section
variable {s t v : State} {u : Update} {k : Nat} {c : Cmd}

/-- The command of a reference with one more entry at a unit (R180). -/
def Cmd.hitAt (unit : Nat) (c : Cmd) : Cmd := { c with hits := mset c.hits unit (mget c.hits unit 0 + 1) }

theorem keepsId_hitAt (unit : Nat) : KeepsId (Cmd.hitAt unit) := ⟨fun _ => rfl, fun _ => rfl, fun _ => rfl⟩

/-- From s to v update u is stored, noted and counted. -/
structure Counted (s v : State) (u : Update) : Prop where
  mem : v.mem = (s.stored u).mem
  writes : v.writes = s.writes
  updates : v.updates = s.updates
  markers : v.markers = s.markers
  applied : u.home < 8 → (v.die u.home).applied = clkMax (s.die u.home).applied u.stamp
  absent : s.refCmd u.ref = none → v.cores = s.cores
  present : ∀ k c, s.refCmd u.ref = some (k, c) → v.cores = (s.modCmd k c.id (Cmd.hitAt u.unit)).cores

theorem counted (s : State) (u : Update) : Counted s (((s.stored u).noted u (s.newValue u)).countHit u) u := by
  have hsample : ∃ t, Beside (s.stored u) t ∧ ∃ sv, (s.stored u).noted u (s.newValue u) =
      { t.modDie u.home fun d => { d with applied := clkMax d.applied u.stamp } with served := sv } := by
    refine ⟨_, ?_, _, rfl⟩
    split
    · split
      · exact beside_sample ..
      · exact .refl
    · exact .refl
  obtain ⟨t, ht, sv, hnoted⟩ := hsample
  have hcores : ((s.stored u).noted u (s.newValue u)).cores = s.cores := by rw [hnoted]; exact ht.cores
  have happlied (hh : u.home < 8) : (((s.stored u).noted u (s.newValue u)).die u.home).applied = clkMax (s.die u.home).applied u.stamp := by
    rw [hnoted]
    change ((t.modDie u.home fun d => { d with applied := clkMax d.applied u.stamp }).die u.home).applied = _
    rw [State.die_modDie_self _ _ _ hh]
    exact congrArg (clkMax · u.stamp) (ht.applied _ hh)
  unfold State.countHit
  rw [refCmd_congr hcores]
  cases href : s.refCmd u.ref with
  | none =>
    have hteam := beside_changeTeam ((s.stored u).noted u (s.newValue u)) u.ref.team fun t => t.keepHit u.ref u.unit
    exact ⟨hteam.mem.trans (by rw [hnoted]; exact ht.mem), hteam.writes.trans (by rw [hnoted]; exact ht.writes),
      hteam.updates.trans (by rw [hnoted]; exact ht.updates), hteam.markers.trans (by rw [hnoted]; exact ht.markers),
      fun hh => (hteam.applied _ hh).trans (happlied hh), fun _ => hteam.cores.trans hcores, fun _ _ h => nomatch href.symm.trans h⟩
  | some e =>
    obtain ⟨k, c⟩ := e
    refine ⟨by rw [hnoted]; exact ht.mem, by rw [hnoted]; exact ht.writes, by rw [hnoted]; exact ht.updates, by rw [hnoted]; exact ht.markers,
      happlied, fun h => (nomatch href.symm.trans h), fun j d h => ?_⟩
    obtain ⟨rfl, rfl⟩ := Prod.mk.inj (Option.some.inj (href.symm.trans h))
    dsimp only [State.modCmd, State.modCore, State.setCore]
    rw [hcores, core_congr hcores]
    rfl

/-- What the application of update u comes to but for the old value that it may send. -/
def UpdateGone (s t : State) (u : Update) : Prop :=
  Wrote s t u.loc (bytesOfNat (nibBytes (nibbles (acwFmt u.op))) (s.newValue u)) ∧ (∀ x ∈ t.updates, x.id ≠ u.id) ∧
    (t.die u.home).applied = clkMax (s.die u.home).applied u.stamp ∧ t.markers = s.markers ∧
    (s.refCmd u.ref = none → t.cores = s.cores) ∧
    ∀ k c, s.refCmd u.ref = some (k, c) → (∀ j, j ≠ k → t.core j = s.core j) ∧ t.core k = cmdPut s k c.id (Cmd.hitAt u.unit)

theorem Counted.gone {l : List Write} {n : Nat} (h : Counted s v u)
    (hb : Beside { v with updates := v.updates.filter fun x => x.id != u.id, writes := l, next := n } t)
    (hwf : s.mem.wf = true) (hh : u.home < 8) : UpdateGone s t u := by
  refine ⟨wrote_of_writeN hwf (hb.mem.trans h.mem), ?_, (hb.applied _ hh).trans (h.applied hh), hb.markers.trans h.markers,
    fun hr => hb.cores.trans (h.absent hr), fun k c hr => ?_⟩
  · rw [hb.updates]
    intro x hx
    simpa using (List.mem_filter.1 hx).2
  · have hcores : t.cores = (s.modCmd k c.id (Cmd.hitAt u.unit)).cores := hb.cores.trans (h.present k c hr)
    exact ⟨fun j hj => (core_congr hcores j).trans (core_modCmd_ne s hj _ _), (core_congr hcores k).trans (core_modCmd_self ..)⟩

/-- An update whose old value goes nowhere is applied. -/
theorem applyUpdate_gone (hp : ¬ (isHbm u.loc = true ∧ u.loc / 64 ∈ s.poison)) (hwf : s.mem.wf = true) (hh : u.home < 8)
    (hback : u.back = none) : UpdateGone s (s.applyUpdate u) u ∧ (s.applyUpdate u).writes = s.writes := by
  have hc := counted s u
  rw [applyUpdate_clean hp]
  unfold State.answered
  rw [hback]
  exact ⟨hc.gone (l := _) (n := _) .refl hwf hh, hc.writes⟩

/-- An update of a returning form is applied and its old value is sent to the source element (R205). -/
theorem applyUpdate_returns (hp : ¬ (isHbm u.loc = true ∧ u.loc / 64 ∈ s.poison)) (hwf : s.mem.wf = true) (hh : u.home < 8)
    {b : Nat} (hback : u.back = some b) (href : s.refCmd u.ref = some (k, c)) : UpdateGone s (s.applyUpdate u) u ∧
    ∃ w : Write, (s.applyUpdate u).writes = s.writes ++ [w] ∧ w.loc = b ∧ w.by_ = c.src.writer k ∧ w.cmd = some c.id ∧
      w.data = wholeBytes (bytesOfNat (nibBytes (nibbles (acwFmt u.op))) (Memory.readNat s.mem u.loc (nibBytes (nibbles (acwFmt u.op))))) := by
  have hc := counted s u
  have hnow : (((s.stored u).noted u (s.newValue u)).countHit u).refCmd u.ref = some (k, Cmd.hitAt u.unit c) := by
    rw [refCmd_congr (hc.present k c href)]
    exact refCmd_modCmd href (keepsId_hitAt _)
  rw [applyUpdate_clean hp]
  generalize ((s.stored u).noted u (s.newValue u)).countHit u = v at hc hnow
  obtain ⟨w, ⟨hloc, hby, hcmd, hdata⟩, hsent⟩ := beside_emit { v with updates := v.updates.filter fun x => x.id != u.id } (c.src.writer k)
    (some c.id) b (wholeBytes (bytesOfNat (nibBytes (nibbles (acwFmt u.op))) (Memory.readNat s.mem u.loc (nibBytes (nibbles (acwFmt u.op))))))
  have hb := hsent.trans (beside_observe _ (coreDie k) u.home)
  unfold State.answered
  rw [hback, hnow]
  exact ⟨hc.gone hb hwf hh, w, hb.writes.trans (congrArg (· ++ [w]) hc.writes), hloc, hby, hcmd, hdata⟩

end

end Sys2Proof.Machine
end

section
/-! SUPPORT. What the arrivals at a memory-side unit answer (R171 to R175, R180), and a round that closes at every MSU of its mask. -/

namespace Sys2Proof.Machine

open Sys2Proof.Safety

/-! ### Arrival and retry of an update -/

section
variable {s : State} {id : Nat} {u : Update} (hu : s.updates.find? (fun x => x.id == id) = some u)
include hu

theorem exec_acwUpdateArrival : exec (.acwUpdateArrival id) s = .next
    (if u.plainFlying && s.updateOk u then
      (if unitCap u.unit ≤ s.entriesAt u.unit then (s.retry id).retireHits u else s.applyUpdate u) else s) := by
  change execAcwUpdateArrival id s = _
  unfold execAcwUpdateArrival
  rw [hu]
  exact (apply_ite Host.Outcome.next ..).symm

/-- An update whose order does not allow it to arrive waits (R62, R66). -/
theorem arrivals_wait (hok : s.updateOk u = false) :
    exec (.acwUpdateArrival id) s = .next s ∧ exec (.detUpdateArrival id) s = .next s := by
  constructor
  · rw [exec_acwUpdateArrival hu, hok, Bool.and_false]
    rfl
  · change execDetUpdateArrival id s = _
    unfold execDetUpdateArrival
    rw [hu]
    dsimp only
    rw [hok, Bool.not_false, Bool.or_true]
    split <;> rfl

/-- A plain update that may arrive is applied where its unit has an entry free, and answered with retry where it has none (R180). -/
theorem exec_acwUpdateArrival_of_ok (hd : u.det = none) (hst : u.st = .flying) (hok : s.updateOk u = true) :
    exec (.acwUpdateArrival id) s = .next
      (if unitCap u.unit ≤ s.entriesAt u.unit then (s.retry id).retireHits u else s.applyUpdate u) := by
  rw [exec_acwUpdateArrival hu, plainFlying_iff.2 ⟨hd, hst⟩, hok]
  rfl

/-- An update answered with retry is sent again once its time has come and its job is on a core that is not being pre-empted (R174, R185). -/
theorem exec_detRetryResend {c k : Nat} (hst : u.st = .retry c) (hk : s.refCore u.ref = some k) (hp : (s.core k).preempt = none) :
    exec (.detRetryResend id) s = .next (if c ≤ s.clk then
      { s with updates := s.updates.map fun o => if o.id = id then { o with st := .flying } else o } else s) := by
  change execDetRetryResend id s = _
  unfold execDetRetryResend
  rw [hu]
  dsimp only
  rw [hst]
  dsimp only
  rw [hk, Option.any_some, hp]
  by_cases hc : c ≤ s.clk <;> simp [hc]

variable {d : DetRef}

/-- A deterministic update that may arrive: the five answers of its MSU (R173, R174, R180). -/
theorem exec_detUpdateArrival_of_ok (hd : u.det = some d) (hst : u.st = .flying) (hok : s.updateOk u = true) {g : DetGroup} {r : Nat} {x : MsuRound}
    (hg : s.group d.func d.group = g) (hr : g.openAt u.unit g.round (g.msus.length + 1) = r) (hx : s.contact g r u.unit = x) :
    exec (.detUpdateArrival id) s = .next (
      if r < d.round then (s.retry id).putRound d.func d.group r u.unit { x with retries := x.retries + 1 }
      else if unitCap u.unit ≤ s.entriesAt u.unit then
        ((s.retry id).retireHits u).putRound d.func d.group r u.unit { x with retries := x.retries + 1 }
      else if x.index d.issuer < x.lowest || (x.index d.issuer == x.lowest && d.ordinal == x.x.getD x.lowest 0) then
        (s.applyUpdate u).putRound d.func d.group r u.unit { x with x := x.x.set (x.index d.issuer) (d.ordinal + 1) }
      else if !x.serial && ((s.updates.filter fun o => o.st == .held && o.unit == u.unit).length < 16) then
        ({ s with updates := s.updates.map fun (o : Update) => if o.id = id then { o with st := .held } else o }).putRound d.func d.group r u.unit x
      else (s.retry id).putRound d.func d.group r u.unit { x with serial := true, retries := x.retries + 1 }) := by
  have happly : s.applyDet x u = (s.applyUpdate u, { x with x := x.x.set (x.index d.issuer) (d.ordinal + 1) }) := by
    unfold State.applyDet
    rw [hd]
  change execDetUpdateArrival id s = _
  unfold execDetUpdateArrival
  rw [hu]
  dsimp only
  rw [hd]
  dsimp only
  rw [hst, hok, hg, hr, hx, happly]
  simp only [apply_ite Host.Outcome.next]
  rfl

end

/-! ### Entries retired -/

theorem retireHits_of_none {s : State} {u : Update} (h : s.refCmd u.ref = none) : s.retireHits u = s := by
  unfold State.retireHits
  rw [h]

theorem retireHits_of_some {s : State} {u : Update} {k : Nat} {c : Cmd} (h : s.refCmd u.ref = some (k, c)) :
    s.retireHits u = s.modCmd k c.id fun c => { c with hits := mdel c.hits u.unit } := by
  unfold State.retireHits
  rw [h]

/-- An update answered with retry waits 64 clk, and its command's entries at the unit are retired (R174, R180). -/
theorem retry_retireHits (s : State) (u : Update) (id : Nat) : ∃ cs, (s.retry id).retireHits u = { s.retry id with cores := cs } ∧
    (s.refCmd u.ref = none → cs = s.cores) ∧
    ∀ k c, s.refCmd u.ref = some (k, c) → cs = (s.modCmd k c.id fun x => { x with hits := mdel x.hits u.unit }).cores := by
  have hcores : (s.retry id).cores = s.cores := rfl
  cases h : s.refCmd u.ref with
  | none =>
    rw [retireHits_of_none ((refCmd_congr hcores _).trans h)]
    exact ⟨_, rfl, fun _ => rfl, fun _ _ h => absurd h.symm (Option.some_ne_none _)⟩
  | some e =>
    obtain ⟨k, c⟩ := e
    rw [retireHits_of_some ((refCmd_congr hcores _).trans h)]
    refine ⟨_, rfl, fun h => absurd h (Option.some_ne_none _), fun j d hj => ?_⟩
    obtain ⟨rfl, rfl⟩ := Prod.mk.inj (Option.some.inj hj)
    rfl

/-! ### Rounds -/

/-- A marker waits until its MSU has its round open, and is counted then (R173, R175). -/
theorem exec_roundCloseMarkerArrival {s : State} {id : Nat} {m : RoundMark} (h : s.roundMarks.find? (fun x => x.id == id) = some m) {g : DetGroup}
    (hg : s.group m.func m.group = g) : exec (.roundCloseMarkerArrival id) s = .next
    (if g.openAt m.msu g.round (g.msus.length + 1) = m.round then
      ({ s with roundMarks := s.roundMarks.filter fun x => x.id != id }).putRound m.func m.group m.round m.msu
        (let x := s.contact g m.round m.msu; { x with marked := x.index m.issuer :: x.marked }) else s) := by
  change execRoundCloseMarkerArrival id s = _
  unfold execRoundCloseMarkerArrival
  rw [h]
  dsimp only
  rw [hg]
  by_cases ho : g.openAt m.msu g.round (g.msus.length + 1) = m.round <;> simp [ho]

theorem mem_setGroup (s : State) (g : DetGroup) : g ∈ (s.setGroup g).groups := List.mem_append_right _ (List.mem_singleton.2 rfl)

/-- A round that is closed at every MSU of its mask, and for which a command waits, completes (R175). -/
theorem exec_roundComplete {s : State} {id : Nat} {g : DetGroup} {x : Nat × MsuRound} (hg : s.groups[id]? = some g)
    (hx : g.msus.find? (fun e => e.1 / 4096 == g.round) = some x) (hw : (g.waiting.any fun w => w.2 == g.round) = true)
    (hc : ∀ m ∈ maskMsus x.2.dmask, ∃ y, mget? g.msus (roundKey g.round m) = some y ∧ y.closed = true) :
    ∃ t : State, exec (.roundComplete id) s = .next (t.setGroup { g with
      round := g.round + 1
      msus := g.msus.filter fun e => e.1 / 4096 != g.round
      waiting := g.waiting.filter fun w => w.2 != g.round }) := by
  have hall : ((maskMsus x.2.dmask).all fun m => (mget? g.msus (roundKey g.round m)).any (·.closed)) = true := by
    refine List.all_eq_true.2 fun m hm => ?_
    obtain ⟨y, hy, hclosed⟩ := hc m hm
    rw [hy]
    exact hclosed
  change ∃ t : State, execRoundComplete id s = _
  unfold execRoundComplete
  rw [hg]
  dsimp only
  rw [hx]
  exact ⟨_, if_pos (by rw [hw]; exact hall)⟩

end Sys2Proof.Machine
end

section
/-! SUPPORT. The locations of an output row (R206) do not depend on what the homes have applied, nor on the rows still on their way. -/

namespace Sys2Proof.Machine

open Sys2Proof.Safety

/-- A state with other dies and other rows on their way to their units. -/
def withWork (s : State) (d : Vector Die 8) (l : List Combine) : State := { s with dies := d, combines := l }

section
variable (s : State) (d : Vector Die 8) (l : List Combine)

theorem check_withWork (f : Byte) (va : Nat) (acc : Access) (seq part : Bool) :
    (withWork s d l).check f va acc seq part = s.check f va acc seq part := check_congr (by rfl) (by rfl) (by rfl) (by rfl) (by rfl) ..

theorem walk_withWork (f : Byte) (va : Nat) : (withWork s d l).walk f va = s.walk f va := walk_congr (by rfl) (by rfl) (by rfl) ..

theorem walkReads_withWork (f : Byte) (va : Nat) : (withWork s d l).walkReads f va = s.walkReads f va :=
  walkReads_congr (by rfl) (by rfl) (by rfl) ..

theorem account_withWork (f : Byte) (x : Nat) : (withWork s d l).account f x = withWork (s.account f x) d l := by
  unfold State.account
  split <;> rfl

theorem meter_withWork (k x : Nat) : (withWork s d l).meter k x = withWork (s.meter k x) d l := by
  have hcore : (withWork s d l).core k = s.core k := rfl
  unfold State.meter
  rw [hcore]
  split
  · rfl
  · dsimp only
    split
    · rfl
    · next j hj => exact account_withWork (s.setCore k _) d l j.func x

theorem charge_withWork (k e c f n : Nat) : (withWork s d l).charge k e c f n = withWork (s.charge k e c f n) d l := meter_withWork s d l k _

/-- A walk charges and observes: but for the dies it comes to the same. -/
theorem walked_withWork (k : Nat) (as : List Nat) : ∃ d', (withWork s d l).walked k as = withWork (s.walked k as) d' l := by
  unfold State.walked
  induction as generalizing s d with
  | nil => exact ⟨d, rfl⟩
  | cons a t ih =>
    simp only [List.foldl_cons]
    have hobs : ∃ d', (withWork s d l).observe (coreDie k) (homeDie a) = withWork (s.observe (coreDie k) (homeDie a)) d' l := ⟨_, rfl⟩
    obtain ⟨d', hd⟩ := hobs
    rw [hd, charge_withWork, charge_withWork]
    exact ih _ _

theorem translate_withWork (k : Nat) (f : Byte) (va : Nat) (acc : Access) (seq : Bool) :
    ∃ d', (withWork s d l).translate k f va acc seq = ((s.translate k f va acc seq).1, withWork (s.translate k f va acc seq).2 d' l) := by
  have hcore : (withWork s d l).core k = s.core k := rfl
  have hpage (r : Nat × Bool × Bool) : (withWork s d l).tlbPage f va r = s.tlbPage f va r := by
    unfold State.tlbPage
    rw [walk_withWork]
  have hfresh : (withWork s d l).fresh = s.fresh := rfl
  have hpick (b : Bool) (n : Nat) : (if b then withWork s d l else { withWork s d l with fresh := n }) =
      withWork (if b then s else { s with fresh := n }) d l := by cases b <;> rfl
  unfold State.translate
  simp only [check_withWork, walkReads_withWork, hcore, hpage, hfresh, hpick]
  split
  · exact ⟨d, rfl⟩
  · split
    · exact ⟨d, rfl⟩
    · choose w hw using fun v => walked_withWork v d l k (s.walkReads f va)
      simp only [hw]
      split <;> exact ⟨_, rfl⟩

end

/-- An access that is not at a virtual address looks at no die and at no row on its way. -/
theorem xLocate_real_withWork {s : State} {k : Nat} {c : Cmd} {e : Dword} {n : Nat} {acc : Access} (d : Vector Die 8) (l : List Combine)
    (hv : ∀ va, placeOf e n ≠ .ok (.virt va)) {loc : Nat} {u : State} (h : s.xLocate k c e n acc = (.ok loc, u)) :
    (withWork s d l).xLocate k c e n acc = (.ok loc, withWork u d l) := by
  have hwin (w : Nat) : (withWork s d l).windowOk k w = s.windowOk k w := rfl
  unfold State.xLocate at h ⊢
  simp only [hwin]
  cases hp : placeOf e n with
  | error z => rw [hp] at h; cases h
  | ok p =>
    rw [hp] at h
    cases p with
    | virt va => exact absurd hp (hv va)
    | own off =>
      dsimp only at h ⊢
      split at h
      · next hal => cases h; exact if_pos hal
      · cases h
    | window w off =>
      dsimp only at h ⊢
      split at h
      · cases h
      · next hal =>
        split at h
        · next hw => cases h; exact (if_neg hal).trans (if_pos hw)
        · cases h
    | stage up off =>
      dsimp only at h ⊢
      split at h
      · cases h
      · next p hpeer =>
        split at h
        · next hal => cases h; exact if_pos hal
        · cases h
    | acc off =>
      dsimp only at h ⊢
      split at h
      · cases h
      · next hr =>
        split at h
        · next hal => cases h; exact (if_neg hr).trans (if_pos hal)
        · cases h

/-- A location that a command's access finds is found also with other dies and rows. -/
theorem xLocate_withWork {s u : State} (d : Vector Die 8) (l : List Combine) {k : Nat} {c : Cmd} {e : Dword} {n loc : Nat} {acc : Access}
    (h : s.xLocate k c e n acc = (.ok loc, u)) : ∃ d', (withWork s d l).xLocate k c e n acc = (.ok loc, withWork u d' l) := by
  by_cases hv : ∃ va, placeOf e n = .ok (.virt va)
  · obtain ⟨va, hp⟩ := hv
    obtain ⟨ht, hal⟩ := (xLocate_virt hp).1 h
    have hcore : (withWork s d l).core k = s.core k := rfl
    obtain ⟨d', hd⟩ := translate_withWork s d l k (s.core k).funcOf va acc false
    refine ⟨d', ?_⟩
    rw [xLocate_virt hp, hcore, hd, ht]
    exact ⟨rfl, hal⟩
  · exact ⟨d, xLocate_real_withWork d l (not_exists.1 hv) h⟩

section
variable {k : Nat} {c : Cmd}

/-- A row whose locations are found: each is found in turn, from the state that the one before leaves. -/
theorem rowLocs_succ {s u : State} {a : Dword} {n : Nat} {ls : List Nat} : s.rowLocs k c a (n + 1) = (.ok ls, u) ↔
    ∃ l t r, s.xLocate k c a 4 .write = (.ok l, t) ∧ t.rowLocs k c (a + 4#64) n = (.ok r, u) ∧ ls = l :: r := by
  rw [State.rowLocs]
  split
  · next e t h => simp [h]
  · next l t h =>
    split
    · next e v g => simp [h, g]
    · next r v g => simp [h, g, and_comm, eq_comm]

theorem rowLocs_withWork {s u : State} {a : Dword} {n : Nat} {ls : List Nat} (d : Vector Die 8) (l : List Combine)
    (h : s.rowLocs k c a n = (.ok ls, u)) : ∃ d', (withWork s d l).rowLocs k c a n = (.ok ls, withWork u d' l) := by
  induction n generalizing s a ls d with
  | zero => cases h; exact ⟨d, rfl⟩
  | succ n ih =>
    obtain ⟨loc, t, r, hloc, hrest, rfl⟩ := rowLocs_succ.1 h
    obtain ⟨d₁, hloc'⟩ := xLocate_withWork d l hloc
    obtain ⟨d₂, hrest'⟩ := ih d₁ hrest
    exact ⟨d₂, rowLocs_succ.2 ⟨_, _, _, hloc', hrest', rfl⟩⟩

/-- Finding the locations leaves memory, what is on its way and the core's commands. -/
theorem kept_rowLocs {s u : State} {a : Dword} {n : Nat} {ls : List Nat} (h : s.rowLocs k c a n = (.ok ls, u)) : Kept k s u := by
  induction n generalizing s a ls with
  | zero => cases h; exact .refl
  | succ n ih =>
    obtain ⟨loc, t, r, hloc, hrest, rfl⟩ := rowLocs_succ.1 h
    exact (kept_xLocate hloc).trans (ih hrest)

end

end Sys2Proof.Machine
end

section
/-! SUPPORT. The atomic step of a ranked combine at its unit (R176, R177). -/

namespace Sys2Proof.Machine

open Sys2Proof.Safety

/-! ### The step's parts -/

/-- The row has reached its unit: it is no more on its way, and its home notes its stamp (R66). -/
def State.arrived (s : State) (id : Nat) (m : Combine) : State :=
  ({ s with combines := s.combines.filter fun x => x.id != id }).modDie (homeDie m.loc) fun x => { x with applied := clkMax x.applied m.stamp }

/-- The bytes of an entry with n ranks of d elements (R176). -/
def entrySize (d n : Nat) : Nat := 0x40 + 4 * d * n

/-- Where a row stands in its entry. -/
def Combine.place (m : Combine) : Nat := m.loc + 0x40 + 4 * m.row.length * m.rank

/-- The bytes of a row. -/
def Combine.bytes (m : Combine) : List Byte := m.row.flatMap (bytesOfNat 4)

/-- Memory with a row and the fill byte v stored in its entry (R177). -/
def Combine.into (m : Combine) (mem : Memory) (v : Nat) : Memory :=
  Memory.writeN (Memory.writeN mem m.place m.bytes) (m.loc + 8) (bytesOfNat 1 v)

/-- The row and the fill byte v are stored; a poisoned line that the row covers is whole again. -/
def State.rowStored (s : State) (m : Combine) (v : Nat) : State := { s with mem := m.into s.mem v }.mend m.place (wholeBytes m.bytes)

/-- The catalog samples the sums of an output row at out. -/
def State.sumsSampled (s : State) (k : Nat) (m : Combine) (out n : Nat) (mem : Memory) (ls : List Nat) : State :=
  ls.zipIdx.foldl (fun s x => s.sample (coreDie k) (s.core k).funcOf (BitVec.ofNat 64 (out + 4 * x.2)) x.2 fFP32
    (combineSum mem m.loc m.row.length x.2 (n - 1))) s

/-- The flags of the sums of n elements over the ranks of an entry (R81). -/
def sumFlags (m : Combine) (n : Nat) (mem : Memory) (len : Nat) : Byte :=
  (upto len).foldl (fun f e => f ||| (combineStep mem m.loc m.row.length e (n - 1)).2) 0#8

/-- The sums of n ranks go to the locations of the output row (R177). -/
def State.sumsSent (s : State) (k : Nat) (c : Cmd) (m : Combine) (n : Nat) (mem : Memory) (ls : List Nat) : State :=
  ls.zipIdx.foldl (fun s (l, e) => s.emit (c.src.writer k) (some c.id) l (wholeBytes (bytesOfNat 4 (combineSum mem m.loc m.row.length e (n - 1))))) s

/-- A row is stored, with the fill byte v; the sums of n ranks go out to the locations ls. -/
def State.combined (s : State) (k : Nat) (c : Cmd) (m : Combine) (out n v : Nat) (ls : List Nat) : State :=
  let mem := m.into s.mem v
  (((s.rowStored m v).sumsSampled k m out n mem ls).setFlags k c.src.unit4 (sumFlags m n mem ls.length)).sumsSent k c m n mem ls

/-- A field of n bytes at offset o of the entry of a row. -/
def Combine.field (m : Combine) (mem : Memory) (o n : Nat) : Nat := Memory.readNat mem (m.loc + o) n

/-- The entry does not take the row: its rank, its length, or the entry's own (R176, log 92). -/
def Combine.misfits (m : Combine) (mem : Memory) : Bool :=
  m.field mem 9 1 ≤ m.rank || m.field mem 0xC 4 != m.row.length || 8 < m.field mem 9 1 || 4096 < m.row.length ||
    0x10000 < m.loc % 0x10000 + entrySize m.row.length (m.field mem 9 1)

/-- The entry counts a row of a rank that is already in (R177). -/
def State.countedAgain (s : State) (m : Combine) : State :=
  let n := m.field s.mem 0xA 2
  { s with mem := Memory.writeN s.mem (m.loc + 0xA) (bytesOfNat 2 (if n = 65535 then n else n + 1)) }

/-- A row is stored; where it is the last, once its output's locations are found, and it stops its command where one is not (R206). -/
def State.rowTried (s : State) (k : Nat) (c : Cmd) (m : Combine) (out n v : Nat) (last : Bool) : Host.Outcome State Fault Refusal :=
  let (ls, s) := if last then s.rowLocs k c (BitVec.ofNat 64 out) m.row.length else (.ok [], s)
  match ls with
  | .error (z, a) => .next (s.failCmd k c z a)
  | .ok ls => .next (s.combined k c m out n (if last then 0 else v) ls)

theorem rowTried_more (s : State) (k : Nat) (c : Cmd) (m : Combine) (out n v : Nat) :
    s.rowTried k c m out n v false = .next (s.combined k c m out n v []) := rfl

theorem rowTried_last {s u : State} {k : Nat} {c : Cmd} {m : Combine} {out : Nat} {ls : List Nat}
    (h : s.rowLocs k c (BitVec.ofNat 64 out) m.row.length = (.ok ls, u)) (n v : Nat) :
    s.rowTried k c m out n v true = .next (u.combined k c m out n 0 ls) := by
  unfold State.rowTried
  simp only [if_true, h]

/-! ### The step's cases -/

section
variable {s : State} {id k : Nat} {m : Combine} {c : Cmd} (hm : s.combines.find? (fun x => x.id == id) = some m)
  (href : s.refCmd m.ref = some (k, c))
include hm href

/-- A row whose order does not allow it to arrive waits (R66). -/
theorem exec_cmbApply_waits (hok : s.combineOk m = false) : exec (.cmbApply id) s = .next s := by
  change execCmbApply id s = _
  unfold execCmbApply
  rw [hm]
  dsimp only
  rw [href]
  dsimp only
  rw [hok]
  rfl

/-- A row that may arrive: what its unit answers (R177, log 92). -/
theorem exec_cmbApply_of_ok (hok : s.combineOk m = true) {fill n : Nat} {last : Bool} (hfill : m.field s.mem 8 1 = fill)
    (hn : m.field s.mem 9 1 = n) (hlast : ((fill + 2 ^ m.rank) % 2 ^ n == lowBits n) = last) : exec (.cmbApply id) s =
    if s.poisoned m.loc 64 then .next ((s.arrived id m).failCmd k c cPOISON (setOf c.d).base)
    else if m.misfits s.mem then .next ((s.arrived id m).failCmd k c cCMB_RANK (setOf c.d).base)
    else if fill / 2 ^ m.rank % 2 = 1 then .next ((s.arrived id m).countedAgain m)
    else if last && s.poisoned m.loc (entrySize m.row.length n) then .next ((s.arrived id m).failCmd k c cPOISON (setOf c.d).base)
    else (s.arrived id m).rowTried k c m (m.field s.mem 0 8) n (fill + 2 ^ m.rank) last := by
  subst hfill hn hlast
  change execCmbApply id s = _
  unfold execCmbApply
  rw [hm]
  dsimp only
  rw [href]
  dsimp only
  rw [hok]
  rfl

end

/-! ### What the cases leave -/

/-- The row is no more on its way, and its home notes its stamp. -/
def RowLeft (s t : State) (id : Nat) (m : Combine) : Prop :=
  t.combines = (s.combines.filter fun x => x.id != id) ∧
    (t.die (homeDie m.loc)).applied = clkMax (s.die (homeDie m.loc)).applied m.stamp

section
variable {s : State} {id k : Nat} {m : Combine} {c : Cmd}

theorem rowLeft_arrived (hd : homeDie m.loc < 8) : RowLeft s (s.arrived id m) id m := by
  refine ⟨rfl, ?_⟩
  unfold State.arrived
  rw [State.die_modDie_self _ _ _ hd]
  rfl

/-- A change of cores, memory and its poisoned lines alone keeps what is left. -/
theorem RowLeft.of_eq {t u : State} (h : RowLeft s t id m) (hc : u.combines = t.combines) (hd : u.dies = t.dies) : RowLeft s u id m := by
  refine ⟨hc.trans h.1, ?_⟩
  unfold State.die
  rw [hd]
  exact h.2

/-- A row that its entry does not take stops its command with the cause. -/
theorem failed_arrived (hd : homeDie m.loc < 8) (z : Byte) (a : Dword) : RowLeft s ((s.arrived id m).failCmd k c z a) id m ∧
    ((s.arrived id m).failCmd k c z a).mem = s.mem ∧ ((s.arrived id m).failCmd k c z a).writes = s.writes ∧
    ((s.arrived id m).failCmd k c z a).core k = cmdPut s k c.id fun x => { x with st := .failed, cause := z, addr := a } :=
  ⟨(rowLeft_arrived hd).of_eq rfl rfl, rfl, rfl, core_modCmd_self ..⟩

theorem field_lt (m : Combine) (mem : Memory) (o n : Nat) : m.field mem o n < 256 ^ n := by
  have h := natOfBytes_lt (Memory.readN mem (m.loc + o) n)
  rw [readN_eq, List.length_map, List.length_range] at h
  unfold Combine.field Memory.readNat
  rwa [readN_eq]

/-- A row of a rank that is already in counts once more, up to 65,535 (R177). -/
theorem countedAgain_wrote (h : s.mem.wf = true) :
    Wrote s ((s.arrived id m).countedAgain m) (m.loc + 0xA) (bytesOfNat 2 (min 65535 (m.field s.mem 0xA 2 + 1))) := by
  have hlt := field_lt m s.mem 0xA 2
  have hdup : (if m.field s.mem 0xA 2 = 65535 then m.field s.mem 0xA 2 else m.field s.mem 0xA 2 + 1) =
      min 65535 (m.field s.mem 0xA 2 + 1) := by
    split <;> omega
  rw [← hdup]
  exact wrote_of_writeN h rfl

theorem bytes_length (m : Combine) : m.bytes.length = 4 * m.row.length := by
  unfold Combine.bytes
  induction m.row with
  | nil => rfl
  | cons x t ih => rw [List.flatMap_cons, List.length_append, bytesOfNat_length, ih, List.length_cons]; omega

/-- A stored row reads back, with its fill byte; no other byte of memory changes. -/
theorem into_reads {mem : Memory} (h : mem.wf = true) (m : Combine) (v : Nat) :
    Memory.readN (m.into mem v) m.place (4 * m.row.length) = m.bytes ∧ Memory.readNat (m.into mem v) (m.loc + 8) 1 = v % 256 ∧
    ∀ a, a ≠ m.loc + 8 → a < m.place ∨ m.place + 4 * m.row.length ≤ a → Memory.read (m.into mem v) a = Memory.read mem a := by
  have hwf : (Memory.writeN mem m.place m.bytes).wf = true := wf_writeN _ _ h
  have hplace : m.loc + 8 + 1 ≤ m.place := by unfold Combine.place; omega
  refine ⟨?_, ?_, fun a ha hr => ?_⟩
  · unfold Combine.into
    rw [readN_writeN_apart hwf (by rw [bytesOfNat_length]; omega), ← bytes_length, readN_writeN_self h]
  · have hfill := readN_writeN_self hwf (m.loc + 8) (bytesOfNat 1 v)
    rw [bytesOfNat_length] at hfill
    unfold Memory.readNat Combine.into
    rw [hfill]
    simp [bytesOfNat, natOfBytes]
  · unfold Combine.into
    rw [read_writeN_outside hwf _ _ _ (by rw [bytesOfNat_length]; omega), read_writeN_outside h _ _ _ (by rw [bytes_length]; omega)]

/-! ### The sums -/

theorem rowStored_eq (s : State) (m : Combine) (v : Nat) : s.rowStored m v =
    { s with mem := m.into s.mem v, poison := (s.rowStored m v).poison, mended := (s.rowStored m v).mended } := mend_eq _ _ _

theorem sends_sample (s : State) (d : Nat) (f : Byte) (a : Dword) (ix : Nat) (fmt : BitVec 4) (bits : Nat) :
    Sends k c [] s (s.sample d f a ix fmt bits) := by
  unfold State.sample
  dsimp only
  split
  · exact .refl
  · exact sends_modDie ..

theorem sends_sumsSent (s : State) (n : Nat) (mem : Memory) (ls : List Nat) : Sends k c
    (ls.zipIdx.map fun l => (l.1, wholeBytes (bytesOfNat 4 (combineSum mem m.loc m.row.length l.2 (n - 1))))) s
    (s.sumsSent k c m n mem ls) := by
  unfold State.sumsSent
  induction ls.zipIdx generalizing s with
  | nil => exact .refl
  | cons x t ih => exact (sends_emit s _ _).trans (ih _)

/-- What a stored row sends: nothing while ranks are missing (`ls` empty), else the row of sums. -/
theorem combined_sends (s : State) (out n v : Nat) (ls : List Nat) : (s.combined k c m out n v ls).mem = m.into s.mem v ∧
    ∃ ws, (s.combined k c m out n v ls).writes = s.writes ++ ws ∧ ws.map (fun w => (w.loc, w.data)) =
      ls.zipIdx.map fun l => (l.1, wholeBytes (bytesOfNat 4
        (combineSum (s.combined k c m out n v ls).mem m.loc m.row.length l.2 (n - 1)))) := by
  have hsampled : Sends k c [] (s.rowStored m v) ((s.rowStored m v).sumsSampled k m out n (m.into s.mem v) ls) :=
    sends_foldl (fun s _ => sends_sample s ..) _ _
  have hsent := (hsampled.trans (sends_setFlags _ c.src.unit4 (sumFlags m n (m.into s.mem v) ls.length))).trans
    (sends_sumsSent (m := m) _ n (m.into s.mem v) ls)
  obtain ⟨ws, hw, -, hl⟩ := hsent.writes
  have hstored := rowStored_eq s m v
  have hmem : (s.combined k c m out n v ls).mem = m.into s.mem v := hsent.mem.trans (by rw [hstored])
  refine ⟨hmem, ws, hw.trans (by rw [hstored]), ?_⟩
  rw [hmem]
  exact hl

/-- A stored row while ranks are missing. -/
theorem combined_more (s : State) (out n v : Nat) : (s.combined k c m out n v []).mem = m.into s.mem v ∧
    (s.combined k c m out n v []).writes = s.writes ∧ (s.combined k c m out n v []).combines = s.combines ∧
    (s.combined k c m out n v []).dies = s.dies := by
  have hstored := rowStored_eq s m v
  have hmem := congrArg State.mem hstored
  have hwrites := congrArg State.writes hstored
  have hcombines := congrArg State.combines hstored
  have hdies := congrArg State.dies hstored
  exact ⟨hmem, hwrites, hcombines, hdies⟩

end

/-! ### The cases of a row that may arrive -/

/-- What fits (R176): the rank is one of the entry's, the row is as long as the entry says, and the entry's size and place are as they must be. -/
theorem misfits_iff {m : Combine} {mem : Memory} : ¬ m.misfits mem = true ↔
    m.rank < m.field mem 9 1 ∧ m.field mem 0xC 4 = m.row.length ∧ m.field mem 9 1 ≤ 8 ∧ m.row.length ≤ 4096 ∧
      m.loc % 0x10000 + entrySize m.row.length (m.field mem 9 1) ≤ 0x10000 := by
  simp only [Combine.misfits, Bool.or_eq_true, decide_eq_true_eq, bne_iff_ne, not_or, Nat.not_le, Nat.not_lt, not_not, and_assoc]

section
variable {s : State} {id k : Nat} {m : Combine} {c : Cmd} (hm : s.combines.find? (fun x => x.id == id) = some m)
  (href : s.refCmd m.ref = some (k, c)) (hok : s.combineOk m = true)
include hm href hok

/-- A poisoned first line stops the command with POISON (log 92). -/
theorem cmbApply_poison (hp : s.poisoned m.loc 64 = true) :
    exec (.cmbApply id) s = .next ((s.arrived id m).failCmd k c cPOISON (setOf c.d).base) := by
  rw [exec_cmbApply_of_ok hm href hok rfl rfl rfl, if_pos hp]

variable (hp : s.poisoned m.loc 64 = false)
include hp

/-- An entry that does not take the row stops the command with CMB_RANK (log 92). -/
theorem cmbApply_misfit (hw : m.misfits s.mem = true) :
    exec (.cmbApply id) s = .next ((s.arrived id m).failCmd k c cCMB_RANK (setOf c.d).base) := by
  rw [exec_cmbApply_of_ok hm href hok rfl rfl rfl, if_neg (Bool.eq_false_iff.1 hp), if_pos hw]

variable (hw : ¬ m.misfits s.mem = true)
include hw

/-- A row of a rank that is already in is counted (R177). -/
theorem cmbApply_again (hin : m.field s.mem 8 1 / 2 ^ m.rank % 2 = 1) :
    exec (.cmbApply id) s = .next ((s.arrived id m).countedAgain m) := by
  rw [exec_cmbApply_of_ok hm href hok rfl rfl rfl, if_neg (Bool.eq_false_iff.1 hp), if_neg hw, if_pos hin]

variable (hnew : m.field s.mem 8 1 / 2 ^ m.rank % 2 = 0)
include hnew

/-- A row after which ranks are missing is stored (R177). -/
theorem cmbApply_more (hmore : (m.field s.mem 8 1 + 2 ^ m.rank) % 2 ^ m.field s.mem 9 1 ≠ 2 ^ m.field s.mem 9 1 - 1) :
    exec (.cmbApply id) s = .next
      ((s.arrived id m).combined k c m (m.field s.mem 0 8) (m.field s.mem 9 1) (m.field s.mem 8 1 + 2 ^ m.rank) []) := by
  rw [exec_cmbApply_of_ok hm href hok (last := false) rfl rfl (beq_false_of_ne hmore), if_neg (Bool.eq_false_iff.1 hp), if_neg hw,
    if_neg (by omega), if_neg (by simp)]
  exact rowTried_more ..

variable (hlast : (m.field s.mem 8 1 + 2 ^ m.rank) % 2 ^ m.field s.mem 9 1 = 2 ^ m.field s.mem 9 1 - 1)
include hlast

/-- The last row of an entry with a poisoned line stops the command (log 92). -/
theorem cmbApply_sumsPoison (hps : s.poisoned m.loc (entrySize m.row.length (m.field s.mem 9 1)) = true) :
    exec (.cmbApply id) s = .next ((s.arrived id m).failCmd k c cPOISON (setOf c.d).base) := by
  rw [exec_cmbApply_of_ok hm href hok (last := true) rfl rfl (beq_iff_eq.2 hlast), if_neg (Bool.eq_false_iff.1 hp), if_neg hw,
    if_neg (by omega)]
  exact if_pos hps

/-- The last row is stored and the row of sums is sent (R177). -/
theorem cmbApply_sums (hps : s.poisoned m.loc (entrySize m.row.length (m.field s.mem 9 1)) = false) {ls : List Nat} {u : State}
    (hls : s.rowLocs k c (BitVec.ofNat 64 (m.field s.mem 0 8)) m.row.length = (.ok ls, u)) :
    ∃ v : State, v.mem = s.mem ∧ v.writes = s.writes ∧
      exec (.cmbApply id) s = .next (v.combined k c m (m.field s.mem 0 8) (m.field s.mem 9 1) 0 ls) := by
  have hkept := kept_rowLocs hls
  obtain ⟨d, hrow⟩ := rowLocs_withWork (s.arrived id m).dies (s.arrived id m).combines hls
  refine ⟨withWork u d (s.arrived id m).combines, hkept.mem, hkept.writes, ?_⟩
  rw [exec_cmbApply_of_ok hm href hok (last := true) rfl rfl (beq_iff_eq.2 hlast), if_neg (Bool.eq_false_iff.1 hp), if_neg hw,
    if_neg (by omega)]
  exact (if_neg (Bool.eq_false_iff.1 hps)).trans (rowTried_last hrow ..)

end

end Sys2Proof.Machine
end

section

open Sys2Proof Sys2Proof.Machine Sys2Proof.Safety

/-- Settles O52: an update's application is taken in its stages (`counted`), its arrivals and those of a marker by the answers of their unit, and a
combine by its cases; where its output row lies does not depend on what its home has applied (`rowLocs_withWork`). That entries are retired with a
retry is log 50, and the causes of an entry that does not take its row are log 92. -/
theorem updatesRoundsAndCombines : Obligations.UpdatesRoundsAndCombines := by
  unfold Obligations.UpdatesRoundsAndCombines
  intro s id hinv
  refine ⟨fun u hu hh => ?_, fun m hm => ?_, fun g x hg hx hw hc => ?_, fun m k c hm href => ?_⟩
  · obtain rfl : u.id = id := by simpa using List.find?_some hu
    intro n old gone
    refine ⟨fun hd hst hok hp hcap => ?_, fun hd hst hok hcap => ?_, arrivals_wait hu, fun d hd hst hok => ?_, fun c k hst hk hpre => ?_⟩
    · have hexec : exec (.acwUpdateArrival u.id) s = .next (s.applyUpdate u) :=
        (exec_acwUpdateArrival_of_ok hu hd hst hok).trans (congrArg Host.Outcome.next (if_neg (Nat.not_le.2 hcap)))
      refine ⟨fun hb => ?_, fun b k c hb href => ?_⟩
      · obtain ⟨hgone, hwrites⟩ := applyUpdate_gone hp hinv hh hb
        exact ⟨_, hexec, hgone, hwrites⟩
      · obtain ⟨hgone, w, hsent⟩ := applyUpdate_returns hp hinv hh hb href
        exact ⟨_, w, hexec, hgone, hsent⟩
    · obtain ⟨cs, hcs, hnone, hsome⟩ := retry_retireHits s u u.id
      have hexec : exec (.acwUpdateArrival u.id) s = .next { s.retry u.id with cores := cs } :=
        (exec_acwUpdateArrival_of_ok hu hd hst hok).trans (congrArg Host.Outcome.next ((if_pos hcap).trans hcs))
      refine ⟨_, hexec, rfl, hnone, fun k c href => ⟨fun j hj => ?_, ?_⟩⟩
      · exact (core_congr (hsome k c href) j).trans (core_modCmd_ne s hj _ _)
      · exact (core_congr (hsome k c href) k).trans (core_modCmd_self ..)
    · intro g r x turn full mark put
      have hexec := exec_detUpdateArrival_of_ok hu hd hst hok (g := g) (r := r) (x := x) rfl rfl rfl
      refine ⟨fun hr => ?_, ?_⟩
      · exact hexec.trans (congrArg Host.Outcome.next (if_pos hr))
      · intro kept
        have hcap : kept ↔ ¬ unitCap u.unit ≤ s.entriesAt u.unit := Nat.not_le.symm
        have hturn : turn ↔ (x.index d.issuer < x.lowest || (x.index d.issuer == x.lowest && d.ordinal == x.x.getD x.lowest 0)) = true := by
          simp [turn]
        have hfull : full ↔ ¬ (!x.serial && decide ((s.updates.filter fun o => o.st == .held && o.unit == u.unit).length < 16)) = true := by
          simp only [full, Bool.and_eq_true, Bool.not_eq_true', decide_eq_true_eq, not_and_or, Bool.not_eq_false, Nat.not_lt]
        refine ⟨fun hr hk => ?_, fun hr hk ht => ?_, fun hr hk ht hf => ?_, fun hr hk ht hf => ?_⟩ <;> rw [hcap] at hk
        · rw [if_neg hr, if_pos (not_not.1 hk)] at hexec
          exact hexec
        all_goals rw [if_neg hr, if_neg hk] at hexec
        · rw [if_pos (hturn.1 ht)] at hexec
          exact hexec
        all_goals rw [if_neg (mt hturn.2 ht)] at hexec
        · rw [if_pos (not_not.1 (mt hfull.2 hf))] at hexec
          exact hexec
        · rw [if_neg (hfull.1 hf)] at hexec
          exact hexec
    · rw [exec_detRetryResend hu hst hk hpre]
      exact ⟨fun h => by rw [if_pos h], fun h => by rw [if_neg (Nat.not_le.2 h)]⟩
  · intro g
    have hexec := exec_roundCloseMarkerArrival hm (g := g) rfl
    exact ⟨fun h => hexec.trans (congrArg Host.Outcome.next (if_neg h)), fun h => hexec.trans (congrArg Host.Outcome.next (if_pos h))⟩
  · obtain ⟨t, ht⟩ := exec_roundComplete hg hx hw hc
    exact ⟨_, _, ht, mem_setGroup .., rfl, rfl, rfl, rfl⟩
  · refine ⟨exec_cmbApply_waits hm href, fun hok hd => ?_⟩
    intro rd fill ranks d size left fails whole
    have hfails (z : Byte) (h : exec (.cmbApply id) s = .next ((s.arrived id m).failCmd k c z (setOf c.d).base)) : fails z :=
      ⟨_, h, failed_arrived hd z _⟩
    have hwhole : whole ↔ ¬ m.misfits s.mem = true := misfits_iff.symm
    refine ⟨fun hp => hfails _ (cmbApply_poison hm href hok hp),
      fun hp hw => hfails _ (cmbApply_misfit hm href hok hp (not_not.1 (mt hwhole.2 hw))), fun hp hw => ?_⟩
    rw [hwhole] at hw
    refine ⟨fun hin => ?_, fun hnew hmore => ?_, fun hnew hlast => ⟨fun hps => ?_, fun ls u hps hls => ?_⟩⟩
    · exact ⟨_, cmbApply_again hm href hok hp hw hin, (rowLeft_arrived hd).of_eq rfl rfl, countedAgain_wrote hinv⟩
    · obtain ⟨hmem, hwrites, hcombines, hdies⟩ := combined_more (k := k) (c := c) (m := m) (s.arrived id m) (m.field s.mem 0 8)
        (m.field s.mem 9 1) (m.field s.mem 8 1 + 2 ^ m.rank)
      obtain ⟨hrow, hfill, hrest⟩ := into_reads hinv m (fill + 2 ^ m.rank)
      have hend : m.loc + 0x40 + 4 * d * (m.rank + 1) = m.place + 4 * d := by
        rw [Nat.mul_succ, ← Nat.add_assoc]
        rfl
      refine ⟨_, cmbApply_more hm href hok hp hw hnew hmore, (rowLeft_arrived hd).of_eq hcombines hdies, hwrites, ?_⟩
      rw [hmem]
      exact ⟨hrow, hfill, fun a ha hr => hrest a ha (hend ▸ hr)⟩
    · exact hfails _ (cmbApply_sumsPoison hm href hok hp hw hnew hlast hps)
    · obtain ⟨v, hvm, hvw, hexec⟩ := cmbApply_sums hm href hok hp hw hnew hlast hps hls
      obtain ⟨hmem, ws, hwrites, hsums⟩ := combined_sends (k := k) (c := c) (m := m) v (rd 0 8) ranks 0 ls
      exact ⟨_, ws, hexec, hwrites.trans (congrArg (· ++ ws) hvw), hmem.trans (congrArg (m.into · 0) hvm), hsums⟩

end
